-- ==== Sys2Proof/Word.lean ====
section
/-! DEFINITION. The word types of the Gelset 9 (spec/00_scope.md R5-R6, spec/03_instruction_word.md R44). -/

namespace Sys2Proof

/-- A 32-bit register lane or scalar register (R63). -/
abbrev Word := BitVec 32

/-- A 64-bit value: a scalar pair, a counter, an EXT field (R63, R43). -/
abbrev DWord := BitVec 64

/-- One byte of memory (R5). -/
abbrev Byte := BitVec 8

/-- One bit per lane of a group of width at most 64 (R12, R67). -/
abbrev Mask := BitVec 64

/-- An 8-bit tag mask: bit `k` stands for team slot `k` (R286). -/
abbrev Tags := BitVec 8

/-- Number of a scalar register, s0 to s1023 (R44). -/
abbrev SReg := BitVec 10

/-- Number of a vector register, v0 to v255 (R44). -/
abbrev VReg := BitVec 8

/-- Number of a predicate, p0 to p15 (R44). -/
abbrev PReg := BitVec 4

/-- A sparse table: (key, value) pairs, keys strictly rising, no value equal to the table's default. -/
abbrev Sparse (α : Type) := List (Nat × α)

end Sys2Proof
end

