-- ==== Sys2Proof/Syntax.lean ====
section
/-! DEFINITION. The syntax: one constructor of `Instr` for each row of spec/opcode_table.json. Rows without a
`source_mnemonic` are the steps that the engines, homes, firmware and outside world make; the others are encoded
instructions. Fields follow spec/03_instruction_word.md R41-R49 and the encoding tables of each chapter. -/

namespace Sys2Proof

/-! ## Operands (R44-R47) -/

/-- An operand field (R44): scalar register, vector register, latch or short immediate. -/
inductive Opnd where
  | s (n : SReg)
  | v (n : VReg)
  | l (n : BitVec 2)
  | imm (i : BitVec 9)
  deriving DecidableEq, Repr

/-- A destination of one register (R45); `none` is `_`, D = 0x7FF with WS = 1. -/
inductive Dst where
  | s (n : SReg)
  | v (n : VReg)
  | none
  deriving DecidableEq, Repr

/-- The shared header fields: guard predicate, guard negate and chain (R41, R48, R50). -/
structure Hdr where
  gp : PReg
  gn : Bool
  ch : Bool
  deriving DecidableEq, Repr

/-- A compare destination (R46): `c` receives the condition, `k` its complement. -/
structure CmpDst where
  c : PReg
  k : PReg
  deriving DecidableEq, Repr

/-- Accuracy class (R47). -/
inductive AC where
  | x | t | l
  deriving DecidableEq, Repr

/-- Scalar floating types of FN bits 54:53 (R116). -/
inductive FTy where
  | f32 | f16 | bf16
  deriving DecidableEq, Repr

/-- Condition codes (R72). -/
inductive Cond where
  | eq | ne | lt | le | gt | ge | un | ord
  deriving DecidableEq, Repr

/-- Operand width of `ICMP` (R71). -/
inductive IWidth where
  | w32 | w16 | w8
  deriving DecidableEq, Repr

/-- Combination of the halves of `HCMP2` (R71). -/
inductive Comb where
  | all | any | lo | hi
  deriving DecidableEq, Repr

/-- Operand modifiers of a two-source floating instruction (R116). -/
structure FMods where
  negA : Bool
  absA : Bool
  negB : Bool
  absB : Bool
  deriving DecidableEq, Repr

/-- `LANE` modes (R77). -/
inductive LaneMode where
  | idx | xor | rot
  deriving DecidableEq, Repr

/-- `VOTE` forms (R76): `.all` and `.any` over a predicate, `.uni` over a vector operand. -/
inductive VoteForm where
  | all (j : PReg)
  | any (j : PReg)
  | uni (a : Opnd)
  deriving DecidableEq, Repr

/-- Integer reduction and bitwise operations (R113, R175, R238). -/
inductive RedOp where
  | add | min | max | and | or | xor
  deriving DecidableEq, Repr

/-- `LEA64` forms (R112). -/
inductive LeaForm where
  | abs (a : BitVec 54)
  | rel (off : BitVec 54)
  | base (a : SReg) (off : BitVec 54)
  deriving DecidableEq, Repr

/-- `CVT` types (R124). -/
inductive CTy where
  | i32 | n32 | i16 | n16 | i8 | n8 | f32 | f16 | bf16
  deriving DecidableEq, Repr

/-- Rounding modes (R65 RND). -/
inductive RMode where
  | rne | rtz | rup | rdn
  deriving DecidableEq, Repr

/-- `PACK` modes (R126). -/
inductive PackMode where
  | b16 | f16x2 | bf16x2
  deriving DecidableEq, Repr

/-- `UNPACK` kinds (R127). -/
inductive UnpackKind where
  | b16 | i16 | f16 | bf16
  deriving DecidableEq, Repr

/-- Matrix operand formats, codes 0 to 8 of R65. -/
inductive MFmt where
  | fp16 | bf16 | fp32 | int8 | sb2 | sb4 | sb7 | hs4 | hs8
  deriving DecidableEq, Repr

/-- Accumulation formats (R65 ACC). -/
inductive MAcc where
  | fp32 | int32
  deriving DecidableEq, Repr

/-- Format override of a matrix instruction (R146). -/
structure MOvr where
  af : MFmt
  bf : MFmt
  acc : MAcc
  deriving DecidableEq, Repr

/-- Element types of local and remote loads and stores (R131). -/
inductive LTy where
  | n32 | i8 | n8 | i16 | n16
  deriving DecidableEq, Repr

/-- The two local buffers a program names (R129). -/
inductive Buf where
  | x | w
  deriving DecidableEq, Repr

/-- Access paths (R138). -/
inductive Path where
  | C | G | A | F | M | I | S
  deriving DecidableEq, Repr

/-- The size operand of a 1D copy: field B, or EXT 31:0 (R165). -/
inductive CopyLen where
  | opnd (n : Opnd)
  | ext (n : Word)
  deriving DecidableEq, Repr

/-- The shape operands of `COPY` (R165). -/
inductive CopyShape where
  | d1 (n : CopyLen)
  | d2 (m : SReg)
  | d3 (m : SReg)
  | layout
  deriving DecidableEq, Repr

/-- The shape operands of `CREG` (R169). -/
inductive RegShape where
  | d1 (n : CopyLen)
  | d2 (m : SReg)
  | d3 (m : SReg)
  deriving DecidableEq, Repr

/-- Element types of `CRED` (R175). -/
inductive CredTy where
  | i32 | n32 | f32 | bf16
  deriving DecidableEq, Repr

/-- The base of a gather or scatter: an external pair, or a cluster position (R177). -/
inductive GBase where
  | ext (p : SReg)
  | clu (a : SReg)
  deriving DecidableEq, Repr

/-- Barrier selector: b0 to b15, or the cluster barrier `bcl` (R183). -/
inductive Bar where
  | b (n : BitVec 4)
  | bcl
  deriving DecidableEq, Repr

/-- `BQRY` selectors (R187). -/
inductive BSel where
  | exp | arr | gen | bytes | stat | out | wait | pend
  deriving DecidableEq, Repr

/-- Scopes (R315). -/
inductive Scope where
  | grp | team | clu | dev | sys
  deriving DecidableEq, Repr

/-- Fence kinds (R316). -/
inductive FenceKind where
  | acq | rel | ar
  deriving DecidableEq, Repr

/-- Atomic operations (R321). -/
inductive AOp where
  | add | min | max | and | or | xor | exch | inc | dec
  deriving DecidableEq, Repr

/-- Types of atomics and remote reductions (R320, R238). -/
inductive ATy where
  | i32 | n32 | f32
  deriving DecidableEq, Repr

/-- Where an atomic acts (R320): external memory through a pair, or a local buffer through a base. -/
inductive ABase where
  | ext (p : SReg)
  | loc (b : Buf) (base : Opnd)
  deriving DecidableEq, Repr

/-- The old-value destination of `ACAS` (R325). -/
inductive AcasDst where
  | one (d : Dst)
  | pairS (d : SReg)
  | pairV (d : VReg)
  | none64
  deriving DecidableEq, Repr

/-- `TQRY` selectors with their operand (R309). -/
inductive TQSel where
  | regS (n : SReg)
  | regV (n : VReg)
  | pred (k : PReg)
  | xline (a : Opnd)
  | wline (a : Opnd)
  | slot (a : Opnd)
  | state (a : Opnd)
  | undo
  | held
  deriving DecidableEq, Repr

/-- `HWAIT` forms other than `.park` (R361). -/
inductive HWForm where
  | plain | trap
  deriving DecidableEq, Repr

/-- Where a `LAUNCH` record lies (R367). -/
inductive LaunchAt where
  | pair (a : SReg)
  | label (off : BitVec 54)
  deriving DecidableEq, Repr

/-- Collective operations (R261). -/
inductive CollOp where
  | allreduce | redscat | allgather | bcast | alltoall | barrier
  deriving DecidableEq, Repr

/-- Collective element types (R261). -/
inductive CollTy where
  | i32 | f32 | bf16 | f16
  deriving DecidableEq, Repr

/-- The constant fields of `COLL` (R261). -/
structure CollF where
  op : CollOp
  ty : CollTy
  red : RedOp
  sb7 : Bool
  entry : BitVec 8
  win : BitVec 12
  sbase : BitVec 8
  slog : BitVec 4
  root : BitVec 10
  cn : BitVec 6
  raise : Bool
  deriving DecidableEq, Repr

/-- `CTRD` selectors (R275). -/
inductive CSel where
  | val | fail | cause | armed
  deriving DecidableEq, Repr

/-- The constant fields of `TSEND` (R276). -/
structure TSendF where
  cn : BitVec 6
  win : BitVec 12
  n4 : BitVec 16
  ct : BitVec 6
  ctOn : Bool
  cl : BitVec 6
  clOn : Bool
  deriving DecidableEq, Repr

/-- `GQRY` selectors (R260). -/
inductive GSel where
  | seq | own | mcid | word | count | abort | frank | path
  deriving DecidableEq, Repr

/-- `PRQRY` node selectors (R386). -/
inductive PSel where
  | n | l | flags | w | p | parent | first | cnt | depth | act | pid
  deriving DecidableEq, Repr

/-- `PRQRY` forms (R386): a node field, a header field, or the group's status word. -/
inductive PQForm where
  | node (sel : PSel) (t : SReg) (node : Opnd)
  | root (t : SReg)
  | count (t : SReg)
  | free (t : SReg)
  | cap (t : SReg)
  | stat
  deriving DecidableEq, Repr

/-- Special registers of R64. -/
inductive SpReg where
  | lane | width | group | team | core | die | rank | cluster | clpos | grid | fmt | flg
  | tags | clock | gtime | pc | hbase | ctx | fqbase
  deriving DecidableEq, Repr

/-- Trap fields of R209. -/
inductive TrField where
  | cls | sub | lanes | epc | cpc | mode | lwlo | lwhi | code | chpos | cmask | depth
  | scr (n : BitVec 4)
  deriving DecidableEq, Repr

/-- What `MFS` reads and where it writes it (R207). -/
inductive MfsForm where
  | sp (r : SpReg) (d : Dst)
  | sp64 (r : SpReg) (d : SReg)
  | tr (f : TrField) (d : Dst)
  | tr64 (f : TrField) (d : SReg)
  deriving DecidableEq, Repr

/-- What `MTS` writes and from where (R207). -/
inductive MtsForm where
  | fmt (a : Opnd)
  | flg (a : Opnd)
  | hbase (a : SReg)
  | fqbase (a : SReg)
  | scr (n : BitVec 4) (a : Opnd)
  deriving DecidableEq, Repr

/-- `VINV` scopes (R202). -/
inductive VScope where
  | page (a : SReg)
  | ctx
  | dev
  deriving DecidableEq, Repr

/-- The binding fields of `MBREG.bind` (R248). -/
structure BindF where
  width : BitVec 2
  vregs1 : BitVec 8
  sregs1 : BitVec 10
  xtiles : BitVec 10
  wtiles : BitVec 11
  barriers : BitVec 5
  sup : Bool
  deriving DecidableEq, Repr

/-- The operands shared by `MLOOP` and `MSTEP` (R146). `map = none` is the empty map. -/
structure MOps where
  ac : AC
  vc : VReg
  vb : VReg
  a : Opnd
  astride : Opnd
  n : Opnd
  map : Option SReg
  ovr : Option MOvr
  klen : BitVec 10
  deriving DecidableEq, Repr

/-! ## What the outside world brings to an event

The model is one package. What another rank, a host, a UET peer or the board sends arrives as an argument of the
event's constructor; the spec fixes what the device then does, not what is sent. -/

/-- The answer of a far home to one lane (or member): performed, or refused with a cause of R237. `poison`: the data it
carries has an uncorrectable error (R222). -/
structure LaneAns where
  lane : Nat
  ok : Bool
  cause : BitVec 8
  data : DWord
  poison : Bool
  deriving DecidableEq, Repr

/-- Bytes that come from a far home, with the parts of them that carry an uncorrectable error: offset and length (R222). -/
structure FarData where
  bytes : List Byte
  bad : List (Nat × Nat)
  deriving DecidableEq, Repr

/-- What a remote access does at its target (R240, R323, R326). `put` and `fetch` are packets of bytes: a copy sector's or a
multicast's (R227, R243). -/
inductive RAct where
  | put (d : FarData)
  | fetch (n : Nat)
  | write (sz : Nat) (data : DWord)
  | read (sz : Nat)
  | reduce (op : RedOp) (ty : CredTy) (data : Word) (bad : Bool)
  | atomic (op : AOp) (ty : ATy) (data : Word)
  | cas (sz : Nat) (cmp new : DWord)
  deriving DecidableEq, Repr

/-- A remote access arriving at this rank (R234). `op` and `lane` name it at its sender; `grp` is the group of that rank whose
access it is, its source (R244), and the operations of one source are numbered in issue order. `ord`: an operation that R244 orders;
a lane of `GATH`, `SCAT` or an atomic is none. -/
structure RemoteReq where
  src : Nat
  grp : Nat
  ord : Bool
  op : Nat
  lane : Nat
  win : Nat
  off : Nat
  act : RAct
  deriving DecidableEq, Repr

/-- A message for a mailbox (R247, R299): its words, sender word and the AIDs it carries; the rank it comes from, and the group
there that is its source (R244). -/
structure Msg where
  ctx : Nat
  mbx : Nat
  words : List Word
  sender : Word
  aids : List Word
  src : Nat
  grp : Nat
  deriving DecidableEq, Repr

/-- An invocation message (R359); `handle = 0` for WS = 1, `upstream = 0` unless forwarded. -/
structure InvMsg where
  ctx : Nat
  mbx : Nat
  words : List Word
  src : Nat
  handle : DWord
  upstream : DWord
  core : Option Nat
  aids : List Word
  deriving DecidableEq, Repr

/-- How an invocation team ended, or how its message was refused (R356); `freed` where a denial removed the team or its
message (R359). -/
inductive InvEnd where
  | result (words : List Word) (loc : Nat)
  | broken (cause : BitVec 8)
  | freed
  deriving DecidableEq, Repr

/-- A handle home's answer (R361, R363): state 0 stale, 1 pending, 2 resolved, 3 broken; `elems` are the first elements of
a collective's destination (R292). -/
structure HomeAns where
  state : BitVec 2
  cause : BitVec 8
  kind : BitVec 4
  words : List Word
  elems : List Word
  deriving DecidableEq, Repr

/-- A collective signature (R265). -/
structure Signature where
  op : CollOp
  ty : CollTy
  red : RedOp
  sb7 : Bool
  count : Word
  root : BitVec 10
  seq : Word
  deriving DecidableEq, Repr

/-- A host command (R251): header fields as read, and the payload bytes. -/
structure HostCmd where
  peer : Nat
  opc : Word
  ctx : BitVec 16
  rsv0 : BitVec 16
  arg : Word
  count : Word
  tag : DWord
  rsvZero : Bool
  payload : List Byte
  deriving DecidableEq, Repr

/-- A PLDM image transfer piece (R398). -/
structure FwPiece where
  offset : Nat
  bytes : List Byte
  last : Bool
  deriving DecidableEq, Repr

/-- A resource that boot tries (R392). -/
inductive Resource where
  | package
  | link (n : Nat)
  | channel (n : Nat)
  | port (n : Nat)
  | cxl (n : Nat)
  | core (n : Nat)
  | engine (n : Nat)
  | bank (n : Nat)
  deriving DecidableEq, Repr

/-- What the physical package shows at a boot step: does the resource pass normally, and with alternate
parameters (R393). A resource not listed passes. -/
structure BootTry where
  res : Resource
  pass : Bool
  passAlt : Bool
  deriving DecidableEq, Repr

/-- A signed configuration record's contents (R396). -/
structure CfgRec where
  etherType : BitVec 16
  reserved : Nat
  resplim : Nat
  sliceUs : Nat
  queues : List (Nat × Option Nat × Nat)
  peers : List (Nat × Nat)
  minFw : Word
  deriving DecidableEq, Repr

/-- Which firmware-update component (R397). -/
inductive FwComp where
  | image | config
  deriving DecidableEq, Repr

/-- A power state (R400); `none` names the notify aperture. -/
abbrev PowerUnit := Option Nat

/-! ## The instructions and steps -/

/-- A soft error (R222, R395): corrected, and counted for a compute die; or uncorrectable, which poisons a unit of external
memory, a granule of a team's local buffer or a line of a group's registers. -/
inductive SoftError where
  | corrected (die : BitVec 2)
  | ext (pa : Nat)
  | buf (tid : Nat) (b : Buf) (off : Nat)
  | line (gid n : Nat)
  deriving DecidableEq, Repr

/-- A cycle of a core's issue slot: the sub-core, the soft errors that happen in it, and which of the race-log entries on their
way reach memory in it, counted from the oldest (R351). -/
structure SlotTurn where
  sub : Nat
  soft : List SoftError
  logged : List Nat
  deriving DecidableEq, Repr

/-- A sector, and those of its 4-byte words that are performed now (R313). -/
structure SectorPart where
  sector : Nat
  words : BitVec 64
  deriving DecidableEq, Repr

/-- What other ranks tell the home of an assumption: which of them acknowledge its resolution (R284), and the queries that
arrive, each a rank and a generation (R300). -/
structure HomeTold where
  acks : List Nat
  asks : List (Nat × Nat)
  deriving DecidableEq, Repr

/-- A step of a team's release (R346): the team, which captured part of its oldest operation goes on, the words of it that are
performed now, and a far home's answer. -/
structure ReleaseStep where
  team : Nat
  part : Nat
  words : BitVec 64
  far : Option LaneAns
  deriving DecidableEq, Repr

/-- One constructor per row of spec/opcode_table.json, the encoded instructions first, then
the steps of engines, homes, firmware and the outside world. -/
inductive Instr where
  -- encoded instructions
  -- control (R78-R86)
  | nop
  | bra (h : Hdr) (off : Word)
  | brx (h : Hdr) (a : SReg)
  | call (h : Hdr) (d : SReg) (off : Word)
  | callx (h : Hdr) (d a : SReg)
  | ret (h : Hdr) (a : SReg)
  | mark (off : Word)
  | join
  | exit (h : Hdr)
  | yield (h : Hdr)
  | sleep (h : Hdr) (b : Opnd)
  | sleepImm (h : Hdr) (imm : Word)
  | setfmt (h : Hdr) (sel : BitVec 5) (b : Opnd)
  | setfmtImm (h : Hdr) (sel : BitVec 5) (imm : Word)
  | getfmt (h : Hdr) (d : Dst)
  | brk (h : Hdr) (code : BitVec 8)
  -- integer (R105-R113) with the lane and compare instructions of R71-R77
  | iadd (h : Hdr) (d : Dst) (a b : Opnd) (n32 sat : Bool)
  | iaddImm (h : Hdr) (d : Dst) (a : Opnd) (imm : Word) (n32 sat : Bool)
  | isub (h : Hdr) (d : Dst) (a b : Opnd) (n32 sat : Bool)
  | isubImm (h : Hdr) (d : Dst) (a : Opnd) (imm : Word) (n32 sat : Bool)
  | imul (h : Hdr) (ac : AC) (d : Dst) (a b : Opnd) (n32 sat : Bool)
  | imulImm (h : Hdr) (ac : AC) (d : Dst) (a : Opnd) (imm : Word) (n32 sat : Bool)
  | imulh (h : Hdr) (ac : AC) (d : Dst) (a b : Opnd) (n32 : Bool)
  | imulhImm (h : Hdr) (ac : AC) (d : Dst) (a : Opnd) (imm : Word) (n32 : Bool)
  | imad (h : Hdr) (ac : AC) (d : Dst) (a b c : Opnd) (n32 sat : Bool)
  | idiv (h : Hdr) (d : Dst) (a b : Opnd) (n32 trap : Bool)
  | idivImm (h : Hdr) (d : Dst) (a : Opnd) (imm : Word) (n32 trap : Bool)
  | irem (h : Hdr) (d : Dst) (a b : Opnd) (n32 trap : Bool)
  | iremImm (h : Hdr) (d : Dst) (a : Opnd) (imm : Word) (n32 trap : Bool)
  | imin (h : Hdr) (d : Dst) (a b : Opnd) (n32 : Bool)
  | iminImm (h : Hdr) (d : Dst) (a : Opnd) (imm : Word) (n32 : Bool)
  | imax (h : Hdr) (d : Dst) (a b : Opnd) (n32 : Bool)
  | imaxImm (h : Hdr) (d : Dst) (a : Opnd) (imm : Word) (n32 : Bool)
  | iabs (h : Hdr) (d : Dst) (a : Opnd) (sat : Bool)
  | ineg (h : Hdr) (d : Dst) (a : Opnd) (sat : Bool)
  | and (h : Hdr) (d : Dst) (a b : Opnd)
  | andImm (h : Hdr) (d : Dst) (a : Opnd) (imm : Word)
  | or (h : Hdr) (d : Dst) (a b : Opnd)
  | orImm (h : Hdr) (d : Dst) (a : Opnd) (imm : Word)
  | xor (h : Hdr) (d : Dst) (a b : Opnd)
  | xorImm (h : Hdr) (d : Dst) (a : Opnd) (imm : Word)
  | not (h : Hdr) (d : Dst) (a : Opnd)
  | shl (h : Hdr) (d : Dst) (a b : Opnd)
  | shr (h : Hdr) (d : Dst) (a b : Opnd)
  | sar (h : Hdr) (d : Dst) (a b : Opnd)
  | rotl (h : Hdr) (d : Dst) (a b : Opnd)
  | popc (h : Hdr) (d : Dst) (a : Opnd)
  | clz (h : Hdr) (d : Dst) (a : Opnd)
  | bfx (h : Hdr) (d : Dst) (a b c : Opnd) (signed : Bool)
  | bfi (h : Hdr) (d : Dst) (a b c : Opnd)
  | sel (h : Hdr) (d : Dst) (a b : Opnd) (k : PReg) (n : Bool)
  | icmp (h : Hdr) (d : CmpDst) (cc : Cond) (uns : Bool) (w : IWidth) (a b : Opnd)
  | icmpImm (h : Hdr) (d : CmpDst) (cc : Cond) (uns : Bool) (w : IWidth) (a : Opnd) (imm : Word)
  | add64 (h : Hdr) (d a : SReg) (b : Opnd) (pair : Bool)
  | lea64 (h : Hdr) (d : SReg) (form : LeaForm)
  | mov (h : Hdr) (d : Dst) (a : Opnd)
  | movi (h : Hdr) (d : Dst) (imm : Word)
  | lane (h : Hdr) (d : Dst) (mode : LaneMode) (a b : Opnd)
  | ballot (h : Hdr) (d : Dst) (b64 : Bool) (k : PReg) (n : Bool)
  | vote (h : Hdr) (d : CmpDst) (f : VoteForm)
  | gred (h : Hdr) (d : Dst) (op : RedOp) (n32 : Bool) (a : Opnd)
  -- floating (R116-R123)
  | fadd (h : Hdr) (d : Dst) (t : FTy) (a b : Opnd) (m : FMods)
  | faddImm (h : Hdr) (d : Dst) (t : FTy) (a : Opnd) (imm : Word) (m : FMods)
  | fsub (h : Hdr) (d : Dst) (t : FTy) (a b : Opnd) (m : FMods)
  | fsubImm (h : Hdr) (d : Dst) (t : FTy) (a : Opnd) (imm : Word) (m : FMods)
  | fmul (h : Hdr) (ac : AC) (d : Dst) (t : FTy) (a b : Opnd) (m : FMods)
  | fmulImm (h : Hdr) (ac : AC) (d : Dst) (t : FTy) (a : Opnd) (imm : Word) (m : FMods)
  | ffma (h : Hdr) (ac : AC) (d : Dst) (t : FTy) (a b c : Opnd) (m : FMods) (negC absC : Bool)
  | fmin (h : Hdr) (d : Dst) (t : FTy) (a b : Opnd) (m : FMods)
  | fminImm (h : Hdr) (d : Dst) (t : FTy) (a : Opnd) (imm : Word) (m : FMods)
  | fmax (h : Hdr) (d : Dst) (t : FTy) (a b : Opnd) (m : FMods)
  | fmaxImm (h : Hdr) (d : Dst) (t : FTy) (a : Opnd) (imm : Word) (m : FMods)
  | fcmp (h : Hdr) (d : CmpDst) (cc : Cond) (t : FTy) (a b : Opnd)
  | fcmpImm (h : Hdr) (d : CmpDst) (cc : Cond) (t : FTy) (a : Opnd) (imm : Word)
  | frcp (h : Hdr) (d : Dst) (t : FTy) (a : Opnd) (neg abs : Bool)
  | frsq (h : Hdr) (d : Dst) (t : FTy) (a : Opnd) (neg abs : Bool)
  | fsqrt (h : Hdr) (d : Dst) (t : FTy) (a : Opnd) (neg abs : Bool)
  | fexp2 (h : Hdr) (d : Dst) (t : FTy) (a : Opnd) (neg abs : Bool)
  | flog2 (h : Hdr) (d : Dst) (t : FTy) (a : Opnd) (neg abs : Bool)
  | ftanh (h : Hdr) (d : Dst) (t : FTy) (a : Opnd) (neg abs : Bool)
  | fclass (h : Hdr) (d : Dst) (t : FTy) (a : Opnd) (neg abs : Bool)
  | hadd2 (h : Hdr) (d : Dst) (bf : Bool) (a b : Opnd) (m : FMods)
  | hadd2Imm (h : Hdr) (d : Dst) (bf : Bool) (a : Opnd) (imm : Word) (m : FMods)
  | hmul2 (h : Hdr) (ac : AC) (d : Dst) (bf : Bool) (a b : Opnd) (m : FMods)
  | hmul2Imm (h : Hdr) (ac : AC) (d : Dst) (bf : Bool) (a : Opnd) (imm : Word) (m : FMods)
  | hfma2 (h : Hdr) (ac : AC) (d : Dst) (bf : Bool) (a b c : Opnd) (m : FMods) (negC absC : Bool)
  | hmin2 (h : Hdr) (d : Dst) (bf : Bool) (a b : Opnd) (m : FMods)
  | hmin2Imm (h : Hdr) (d : Dst) (bf : Bool) (a : Opnd) (imm : Word) (m : FMods)
  | hmax2 (h : Hdr) (d : Dst) (bf : Bool) (a b : Opnd) (m : FMods)
  | hmax2Imm (h : Hdr) (d : Dst) (bf : Bool) (a : Opnd) (imm : Word) (m : FMods)
  | hcmp2 (h : Hdr) (d : CmpDst) (cc : Cond) (bf : Bool) (comb : Comb) (a b : Opnd)
  | hcmp2Imm (h : Hdr) (d : CmpDst) (cc : Cond) (bf : Bool) (comb : Comb) (a : Opnd) (imm : Word)
  | fsum (h : Hdr) (d : Dst) (t : FTy) (a : Opnd)
  -- conversions (R124-R127) and block formats (R158-R162)
  | cvt (h : Hdr) (d : Dst) (dst src : CTy) (mode : Option RMode) (a : Opnd)
  | pack (h : Hdr) (d : Dst) (mode : PackMode) (a b : Opnd)
  | unpack (h : Hdr) (d : Dst) (kind : UnpackKind) (hi : Bool) (a : Opnd)
  | quant (h : Hdr) (d : Option VReg) (fmt : MFmt) (src : FTy) (a : VReg)
  | qsplit (h : Hdr) (d : Option VReg) (src : FTy) (a : VReg) (thr : Opnd) (c : VReg) (nb1 : BitVec 4)
  | dequant (h : Hdr) (d : Option VReg) (dst : FTy) (fmt : MFmt) (a : VReg)
  -- matrix (R141-R157)
  | mloop (h : Hdr) (m : MOps) (bstep : BitVec 8)
  | mstep (h : Hdr) (m : MOps)
  | mzero (h : Hdr) (d : VReg) (n : Opnd)
  | mdup (h : Hdr) (d : Dst) (pos : Bool) (m : SReg) (b : Opnd)
  | mqry (h : Hdr) (d : Dst)
  | mreset (h : Hdr) (s : Opnd)
  -- local buffers (R131-R140)
  | ldx (h : Hdr) (d : Dst) (ty : LTy) (base off : Opnd)
  | stx (h : Hdr) (data : Opnd) (ty : LTy) (base off : Opnd)
  | ldw (h : Hdr) (d : Dst) (ty : LTy) (base off : Opnd)
  | stw (h : Hdr) (data : Opnd) (ty : LTy) (base off : Opnd)
  | tgive (h : Hdr) (buf : Buf) (base n : Opnd)
  | ttake (h : Hdr) (buf : Buf) (base n : Opnd)
  | waitp (h : Hdr) (path : Path) (t : Opnd)
  | pcnt (h : Hdr) (d : Dst) (path : Path)
  -- copies and gathers (R165-R180)
  | copy (h : Hdr) (d : Opnd) (ext : SReg) (buf : Buf) (out : Bool) (shape : CopyShape) (bar : Option (BitVec 4))
      (mbx : BitVec 12) (post : Bool)
  | creg (h : Hdr) (d : Dst) (ext : SReg) (shape : RegShape)
  | cunreg (h : Hdr) (a : SReg)
  | creplay (h : Hdr) (a : SReg)
  | creplayDrop (h : Hdr) (a : SReg)
  | cred (h : Hdr) (d : Opnd) (ext : SReg) (buf : Buf) (op : RedOp) (ty : CredTy) (n : CopyLen)
      (bar : Option (BitVec 4)) (mbx : BitVec 12) (post : Bool)
  | gath (h : Hdr) (d : Dst) (ty : LTy) (base : GBase) (off : Opnd)
  | scat (h : Hdr) (data : Opnd) (ty : LTy) (base : GBase) (off : Opnd)
  -- barriers (R181-R189)
  | binit (h : Hdr) (b : BitVec 4) (n : Opnd)
  | binitImm (h : Hdr) (b : BitVec 4) (imm : Word)
  | barr (h : Hdr) (b : Bar)
  | bwait (h : Hdr) (d : CmpDst) (b : Bar) (g : Opnd)
  | barw (h : Hdr) (d : CmpDst) (b : Bar)
  | binv (h : Hdr) (b : BitVec 4)
  | bqry (h : Hdr) (d : Dst) (sel : BSel) (b : Bar)
  -- atomics, fences, race log (R315-R352)
  | atom (h : Hdr) (d : Dst) (op : AOp) (ty : ATy) (base : ABase) (off : Opnd) (scope : Scope) (val : Opnd) (ord : Bool)
  | acas (h : Hdr) (d : AcasDst) (base : ABase) (off : Opnd) (cmp new : Opnd) (p : CmpDst) (scope : Scope) (ord : Bool)
  | ared (h : Hdr) (op : AOp) (ty : ATy) (base : ABase) (off : Opnd) (scope : Scope) (val : Opnd) (ord : Bool)
  | fence (h : Hdr) (kind : FenceKind) (scope : Scope)
  | fenceCode (h : Hdr)
  | raceqHead (h : Hdr) (d : Dst)
  | raceqBase (h : Hdr) (a : SReg)
  -- assumptions (R282-R310)
  | guess (h : Hdr) (d : SReg) (val : Opnd) (hnd : SReg) (i : SReg) (w : BitVec 4)
  | guessN (h : Hdr) (d : SReg) (val : Opnd) (i : SReg) (off : Word)
  | affirm (h : Hdr) (p : CmpDst) (a : Opnd)
  | deny (h : Hdr) (p : CmpDst) (a : Opnd)
  | tqry (h : Hdr) (d : Dst) (sel : TQSel)
  | twait (h : Hdr)
  -- invocations, continuations, mailboxes, queues (R246-R250, R354-R367)
  | invoke (h : Hdr) (d : Option SReg) (w : SReg) (rank : Opnd) (mbx : BitVec 12) (n1 : BitVec 4) (p : CmpDst)
      (core : Option (BitVec 8))
  | invh (h : Hdr) (d : Option SReg) (w : SReg) (up : SReg) (mbx : BitVec 12) (n1 : BitVec 4) (p : CmpDst)
  | hwait (h : Hdr) (form : HWForm) (p : CmpDst) (hnd : SReg)
  | hwaitPark (h : Hdr) (p : CmpDst) (hnd m : SReg) (n : BitVec 5)
  | hget (h : Hdr) (stat : Bool) (p : CmpDst) (d hnd : SReg) (n : Opnd)
  | hdrop (h : Hdr) (hnd : SReg)
  | mbregBind (h : Hdr) (mbx : Opnd) (entry : SReg) (f : BindF)
  | mbregOpen (h : Hdr) (mbx : Opnd)
  | mbregClose (h : Hdr) (mbx : Opnd)
  | msend (h : Hdr) (p : CmpDst) (w : SReg) (rank mbx : Opnd) (n1 : BitVec 4)
  | mrecv (h : Hdr) (wait : Bool) (p : CmpDst) (d : SReg) (mbx : Opnd)
  | qpush (h : Hdr) (p : CmpDst) (m : SReg) (q : Opnd)
  | qpop (h : Hdr) (p : CmpDst) (d : SReg) (q : Opnd)
  | qwait (h : Hdr) (q : Opnd)
  | notify (h : Hdr) (c : Opnd)
  | launch (h : Hdr) (p : CmpDst) (d : SReg) (at_ : LaunchAt)
  -- fabric (R226-R256)
  | rput (h : Hdr) (p : CmpDst) (ty : LTy) (win : BitVec 12) (rank off val : Opnd)
  | rget (h : Hdr) (p : CmpDst) (d : Dst) (ty : LTy) (win : BitVec 12) (rank off : Opnd)
  | rred (h : Hdr) (p : CmpDst) (op : RedOp) (ty : ATy) (win : BitVec 12) (rank off val : Opnd)
  | mcst (h : Hdr) (d : Dst) (entry : BitVec 8) (win : BitVec 12) (roff : BitVec 30) (a : Opnd) (n : BitVec 13) (b : Opnd)
  -- collectives and triggered sends (R258-R278)
  | coll (h : Hdr) (d : SReg) (f : CollF) (src dst count : Opnd)
  | tsend (h : Hdr) (f : TSendF) (thr rank roff : Opnd) (src : SReg)
  | ctset (h : Hdr) (n : BitVec 6) (add : Bool) (v : Opnd)
  | ctsetImm (h : Hdr) (n : BitVec 6) (add : Bool) (imm : Word)
  | ctrd (h : Hdr) (d : Dst) (sel : CSel) (n : BitVec 6)
  | ctwait (h : Hdr) (n : BitVec 6) (t : Opnd)
  | gsetFull (h : Hdr) (e : Opnd) (p : SReg) (seq : Opnd) (mcid : BitVec 16)
  | gsetSeq (h : Hdr) (e seq : Opnd)
  | gsetClear (h : Hdr) (e : Opnd)
  | gqry (h : Hdr) (d : Dst) (sel : GSel) (e k : Opnd)
  -- Praline (R369-R387)
  | prnew (h : Hdr) (d : Dst) (pool : SReg) (cap : Opnd) (m : SReg)
  | prdesc (h : Hdr) (d : VReg) (t : SReg) (k : Opnd)
  | prexp (h : Hdr) (p : CmpDst) (t : SReg) (leaf count : Opnd) (vp : VReg)
  | prback (h : Hdr) (t : SReg) (vl vv : VReg)
  | prroot (h : Hdr) (p : CmpDst) (t : SReg) (child : Opnd)
  | prbest (h : Hdr) (d : Dst) (t : SReg)
  | prqry (h : Hdr) (d : Dst) (f : PQForm)
  | prfree (h : Hdr) (t : SReg)
  -- traps, special registers, translation, context switch (R191-R221)
  | scall (h : Hdr) (d : VReg) (code : BitVec 8) (a : Opnd)
  | rft (h : Hdr)
  | rftNext (h : Hdr)
  | rftTo (h : Hdr) (a : SReg)
  | rftRep (h : Hdr) (a : VReg)
  | mfs (h : Hdr) (f : MfsForm)
  | mts (h : Hdr) (f : MtsForm)
  | rdclk (h : Hdr) (d : SReg)
  | rdtim (h : Hdr) (d : SReg)
  | settim (h : Hdr) (b : Opnd)
  | settimImm (h : Hdr) (imm : Word)
  | vinv (h : Hdr) (s : VScope)
  | quiesOld (h : Hdr) (d : SReg)
  | quiesCur (h : Hdr) (d : SReg)
  | fltq (h : Hdr) (d : SReg)
  | ctxswSave (h : Hdr) (d : Dst) (a : Opnd)
  | ctxswRest (h : Hdr) (d : Dst) (a : Opnd)
  | ctxswQry (h : Hdr) (d : Dst) (a : Opnd)
  -- steps of engines, homes, firmware and the outside world
  -- issue (R19)
  | issueCycle (core : Nat) (turn : SlotTurn)
  | aged (gid : Nat)
  -- the timer (R216)
  | timerExpiry (gid : Nat)
  -- wakes (R255)
  | wakeDelivery (chan : Nat)
  -- control (R78-R86)
  | sleepDeadline (gid : Nat)
  -- matrix (R141-R157)
  | setStart (tid quad : Nat)
  | kStep (tid quad : Nat)
  | arrayReset (tid quad : Nat)
  -- local buffers (R131-R140)
  | localAccessPerformed (core : Nat)
  | tgiveFlip (gid : Nat)
  | ttakeFlip (gid : Nat)
  -- copies and gathers (R165-R180)
  | sectorLand (op : Nat) (part : SectorPart) (far : Option FarData)
  | sectorSuspend (op sector : Nat)
  | sectorRefused (op sector : Nat) (far : Option LaneAns)
  | recordReady (op : Nat)
  | cunregComplete (op : Nat)
  | credUpdate (op elem : Nat) (far : Option LaneAns)
  | gatherLanePerformed (op lane : Nat) (far : Option LaneAns)
  | gatherComplete (op : Nat)
  -- atomics, fences, race log (R315-R352)
  | atomicPerformed (op lane : Nat) (far : Option LaneAns)
  | atomicComplete (op : Nat)
  | atomicRetry (op lane : Nat)
  -- assumptions (R282-R310)
  | homeResolveRequest (aid : Word) (affirm : Bool) (ctx src op : Nat)
  | resolveAnswer (op : Nat) (far : Option Bool)
  | handleAssumptionCheck (aid : Word)
  | affirmation (aid : Word)
  | denial (aid : Word)
  | homeEntryFree (index : Nat) (told : HomeTold)
  -- invocations, continuations, mailboxes, queues (R246-R250, R354-R367)
  | invocationArrival (m : InvMsg) (op : Nat)
  | invocationResult (handle : DWord) (e : InvEnd)
  | invhArrival (m : InvMsg) (op : Nat)
  | forwardInvocation (index : Nat) (far : Option (BitVec 8))
  | continuationResume (ctx record : Nat)
  | homeDrop (handle : DWord) (ctx : Nat)
  | messageArrival (m : Msg) (op : Nat)
  | msendComplete (op : Nat) (far : Option LaneAns)
  | mrecvWake (gid : Nat)
  -- fabric (R226-R256)
  | remoteAccessArrival (r : RemoteReq)
  | remoteOpComplete (op : Nat) (far : List LaneAns)
  | mcstComplete (op : Nat) (far : List LaneAns)
  -- collectives and triggered sends (R258-R278)
  | handshakeSignature (ctx entry member : Nat) (sig : Signature)
  | verdict (ctx entry : Nat) (seq : Word) (equal : Bool)
  | collComplete (ctx entry : Nat) (seq : Word) (far : List (Nat × List Byte)) (packets : List Nat)
  | fatalFault (ctx entry : Nat) (seq : Word) (rank : Nat) (cause : BitVec 8)
  | abortToken (ctx entry : Nat) (seq : Word) (rank : Nat) (cause : BitVec 8)
  | tsendArrival (ctx win roff : Nat) (data : FarData) (ct : Option (BitVec 6)) (src op : Nat)
  | tsendEnd (op : Nat) (far : Option LaneAns)
  -- Praline (R369-R387)
  | pralineOperation (op : Nat)
  | pralineComplete (op : Nat)
  -- traps, special registers, translation, context switch (R191-R221)
  | walkComplete (core ctx va : Nat)
  | preempt (ctx : Nat)
  | restore (ctx : Nat)
  | sliceExpiry (ctx : Nat)
  -- distributor (R26-R30)
  | distributorPlace (ctx : Nat)
  | groupSlotFree (gid : Nat)
  | detTeamRelease (grid : Nat) (r : ReleaseStep)
  -- host and device registers (R232, R251-R255, R395)
  | hostQappend (c : HostCmd)
  | hostLaunch (c : HostCmd)
  | hostNotify (c : HostCmd)
  | hostMsg (c : HostCmd)
  | notifyApertureStore (pa : Nat)
  | windowEntryWrite (w : Nat) (bytes : List Byte)
  | resplimWrite (v : Word)
  | cecountClear (die : Nat)
  | deviceRegisterWrite (pa : Nat) (bytes : List Byte)
  | responseLimitExpiry (op lane : Nat)
  | gfpPacketReceive (src stream seq : Nat) (req : Option RemoteReq)
  | gfpRetransmit (src stream seq : Nat)
  | uetTrimRetransmit (conn packet : Nat)
  | portDown (port : Nat)
  -- firmware, boot, power (R389-R401)
  | powerOnReset (tries : List BootTry) (rank : BitVec 10)
  | passComponentTable (comps : List FwComp)
  | updateComponent (c : FwComp)
  | firmwareData (p : FwPiece)
  | imageVerify (sigOk : Bool) (version : Word) (cfg : Option CfgRec)
  | bankSwitch (handoffOk : Bool)
  | attestationRequest (nonce : List Byte)
  | clockGate (u : PowerUnit)
  | powerGate (u : PowerUnit)
  | ungate (u : PowerUnit)
  | throttleStep (down : Bool)
  | portUp (port : Nat)
  | contextCreation (ctx saveVA savePA : Nat) (desc : List Byte)
  | contextDestruction (ctx : Nat)
  | invocationCompletion (op : Nat) (far : Option LaneAns)
  | homeAnswer (op : Nat) (far : Option HomeAns)
  | executingRankAbort (rank : Nat)
  | malformedCommand (c : HostCmd)
  | safeState
  | controlPairReload
  | queryDeviceIdentifiers
  | getFirmwareParameters
  | requestUpdate
  | activateFirmware
  | getStatus
  | cancelUpdateComponent
  | cancelUpdate
  | powerLoss
  deriving DecidableEq, Repr

end Sys2Proof
end

