-- ==== Sys2Proof/Decode.lean ====
section
/-! DEFINITION. The decoder, total on any bytes, and after it the encoder, both from the encoding tables of the spec
(spec/03 R37-R60 and each chapter's own table). A word that R57 calls Illegal is rejected with its subcode of R58. -/

namespace Sys2Proof

/-! ## Fields (R41-R43) -/

/-- Bits `lo + n - 1 : lo` of `w`. -/
def fld (w lo n : Nat) : Nat := (w >>> lo) % 2 ^ n

/-- The raw fields of an instruction, as numbers. `hi` is everything above bit 63. -/
structure Raw where
  len : Nat
  op : Nat
  gp : Nat
  gn : Nat
  ch : Nat
  ac : Nat
  ws : Nat
  b19 : Nat
  d : Nat
  a : Nat
  b : Nat
  fn : Nat
  hi : Nat
  deriving DecidableEq, Repr

/-- Bytes of an instruction with length code `len` (R37). -/
def lenBytes (len : Nat) : Nat := 8 + 4 * len

/-- Splits a word into fields. -/
def rawOf (w : Nat) : Raw where
  len := fld w 0 2
  op := fld w 2 8
  gp := fld w 10 4
  gn := fld w 14 1
  ch := fld w 15 1
  ac := fld w 16 2
  ws := fld w 18 1
  b19 := fld w 19 1
  d := fld w 20 11
  a := fld w 31 11
  b := fld w 42 11
  fn := fld w 53 11
  hi := fld w 64 (32 * fld w 0 2)

/-- Field C of the third-source form. -/
def Raw.c (r : Raw) : Nat := fld r.hi 0 11

/-- Field MOD of the third-source form: bits 95:75. -/
def Raw.mod (r : Raw) : Nat := fld r.hi 11 21

/-! ## Causes of class 0 (R58)

A set of causes is a number with bit 0 for subcode 0x05, bit 1 for 0x06, and so on to bit 4 for 0x09. -/

def e5 : Nat := 1
def e6 : Nat := 2
def e7 : Nat := 4
def e8 : Nat := 8
def e9 : Nat := 16

/-- The cause `e` when `b` holds. -/
def on (b : Bool) (e : Nat) : Nat := if b then e else 0

/-- The least subcode in a nonempty set of causes (R60). -/
def leastCause (e : Nat) : Nat :=
  if e.testBit 0 then 0x05 else if e.testBit 1 then 0x06 else if e.testBit 2 then 0x07
  else if e.testBit 3 then 0x08 else 0x09

def isS (x : Nat) : Bool := x < 0x400
def isV (x : Nat) : Bool := 0x400 ≤ x && x < 0x500
def isL (x : Nat) : Bool := 0x500 ≤ x && x < 0x504
def isRsv (x : Nat) : Bool := 0x504 ≤ x && x < 0x600
def isI (x : Nat) : Bool := 0x600 ≤ x

/-- Any operand of R44. -/
def qAny (x : Nat) : Nat := on (isRsv x) e5
/-- A scalar register, latch or immediate, where a vector is the vector-to-scalar cause. -/
def qSLI7 (x : Nat) : Nat := on (isRsv x) e5 ||| on (isV x) e7
/-- A scalar register, latch or immediate. -/
def qSLI (x : Nat) : Nat := on (isRsv x || isV x) e5
/-- A scalar register or short immediate. -/
def qSI (x : Nat) : Nat := on (!(isS x || isI x)) e5
/-- A scalar register. -/
def qS (x : Nat) : Nat := on (!isS x) e5
/-- A scalar register or latch. -/
def qSL (x : Nat) : Nat := on (!(isS x || isL x)) e5
/-- A vector register. -/
def qV (x : Nat) : Nat := on (!isV x) e5
/-- A vector register or latch. -/
def qVL (x : Nat) : Nat := on (!(isV x || isL x)) e5
/-- An even scalar register naming a pair (R44). -/
def qPair (x : Nat) : Nat := on (isRsv x) e5 ||| on (!(isRsv x) && !(isS x && x % 2 = 0)) e8
/-- A scalar register s8k. -/
def qS8 (x : Nat) : Nat := on (!(isS x && x % 8 = 0)) e5
/-- A predicate index in bits 3:0, the rest zero. -/
def qPred (x : Nat) : Nat := on (16 ≤ x) e5
/-- A field that must be zero. -/
def qZ (x : Nat) : Nat := on (x != 0) e5

/-- WS must be 0 (R45). -/
def qNoWS (ws : Nat) : Nat := on (ws = 1) e6
/-- A destination of one register (R45). -/
def qDst (ws d : Nat) : Nat :=
  on (isRsv d) e5 ||| on (if ws = 1 then d != 0x7FF && !isRsv d else !(isS d || isV d || isRsv d)) e6
/-- A scalar destination that admits `_`. -/
def qDstS (ws d : Nat) : Nat := qDst ws d ||| on (isV d) e6
/-- A scalar destination that must be written. -/
def qDstS0 (ws d : Nat) : Nat := on (isRsv d) e5 ||| on (ws = 1 || !(isS d || isRsv d)) e6
/-- A vector destination that must be written. -/
def qDstV0 (ws d : Nat) : Nat := on (isRsv d) e5 ||| on (ws = 1 || !(isV d || isRsv d)) e6
/-- A vector destination that admits `_`. -/
def qDstV (ws d : Nat) : Nat := qDst ws d ||| on (isS d) e6
/-- A pair destination that must be written (R45): 0x7FF is an invalid pair. -/
def qDstP (ws d : Nat) : Nat :=
  on (isRsv d) e5 ||| on (d != 0x7FF && !isRsv d && (ws = 1 || !isS d)) e6
    ||| on (d = 0x7FF || (isS d && d % 2 = 1)) e8
/-- A pair destination that admits `_` (`INVOKE`, `INVH`, R45). -/
def qDstPW (ws d : Nat) : Nat :=
  on (isRsv d) e5 ||| on (ws = 1 && d != 0x7FF && !isRsv d) e6
    ||| on (ws = 0 && !isRsv d && !(isS d && d % 2 = 0)) e8
/-- A compare destination (R46). -/
def qCmp (ws d : Nat) : Nat :=
  on (ws = 1 || 256 ≤ d || (d % 16 != 0 && d % 16 = d / 16 % 16)) e6
/-- Two predicate indices held in other fields (R238, R250, R325, R357, R363). -/
def qPP (c k : Nat) : Nat := on (c != 0 && c = k) e6
/-- A vector source with a scalar destination (R49). -/
def qVS (d : Nat) (src : List Nat) : Nat := on (isS d && src.any isV) e7

/-! ## Values of fields -/

def opd (x : Nat) : Opnd :=
  if x < 0x400 then .s (.ofNat 10 x) else if x < 0x500 then .v (.ofNat 8 (x - 0x400))
  else if x < 0x600 then .l (.ofNat 2 (x - 0x500)) else .imm (.ofNat 9 x)
def sr (x : Nat) : SReg := .ofNat 10 x
def vr (x : Nat) : VReg := .ofNat 8 (x - 0x400)
def pr (x : Nat) : PReg := .ofNat 4 x
def dstOf (ws d : Nat) : Dst :=
  if ws = 1 then .none else if d < 0x400 then .s (.ofNat 10 d) else .v (.ofNat 8 (d - 0x400))
def vdst (ws d : Nat) : Option VReg := if ws = 1 then none else some (vr d)
def sdst (ws d : Nat) : Option SReg := if ws = 1 then none else some (sr d)
def cmpd (d : Nat) : CmpDst := ⟨pr d, pr (d / 16)⟩
def bit (x i : Nat) : Bool := x.testBit i

def acOf : Nat → AC
  | 0 => .x | 1 => .t | _ => .l
def ftyOf : Nat → FTy
  | 0 => .f32 | 1 => .f16 | _ => .bf16
def condOf : Nat → Cond
  | 0 => .eq | 1 => .ne | 2 => .lt | 3 => .le | 4 => .gt | 5 => .ge | 6 => .un | _ => .ord
def iwOf : Nat → IWidth
  | 0 => .w32 | 1 => .w16 | _ => .w8
def combOf : Nat → Comb
  | 0 => .all | 1 => .any | 2 => .lo | _ => .hi
def redOf : Nat → RedOp
  | 0 => .add | 1 => .min | 2 => .max | 3 => .and | 4 => .or | _ => .xor
def laneOf : Nat → LaneMode
  | 0 => .idx | 1 => .xor | _ => .rot
def ctyOf : Nat → CTy
  | 0 => .i32 | 1 => .n32 | 2 => .i16 | 3 => .n16 | 4 => .i8 | 5 => .n8 | 6 => .f32 | 7 => .f16 | _ => .bf16
def rmOf : Nat → Option RMode
  | 4 => some .rne | 5 => some .rtz | 6 => some .rup | 7 => some .rdn | _ => none
def packOf : Nat → PackMode
  | 0 => .b16 | 1 => .f16x2 | _ => .bf16x2
def unpackOf : Nat → UnpackKind
  | 0 => .b16 | 1 => .i16 | 2 => .f16 | _ => .bf16
def mfmtOf : Nat → MFmt
  | 0 => .fp16 | 1 => .bf16 | 2 => .fp32 | 3 => .int8 | 4 => .sb2 | 5 => .sb4 | 6 => .sb7 | 7 => .hs4 | _ => .hs8
def maccOf : Nat → MAcc
  | 0 => .fp32 | _ => .int32
def ltyOf : Nat → LTy
  | 0 => .n32 | 1 => .i8 | 2 => .n8 | 3 => .i16 | _ => .n16
def pathOf : Nat → Path
  | 0 => .C | 1 => .G | 2 => .A | 3 => .F | 4 => .M | 5 => .I | _ => .S
def bufOf (b : Bool) : Buf := if b then .w else .x
def barOf (x : Nat) : Bar := if x = 16 then .bcl else .b (.ofNat 4 x)
def bselOf : Nat → BSel
  | 0 => .exp | 1 => .arr | 2 => .gen | 3 => .bytes | 4 => .stat | 5 => .out | 6 => .wait | _ => .pend
def scopeOf : Nat → Scope
  | 0 => .grp | 1 => .team | 2 => .clu | 3 => .dev | _ => .sys
def aopOf : Nat → AOp
  | 0 => .add | 1 => .min | 2 => .max | 3 => .and | 4 => .or | 5 => .xor | 6 => .exch | 7 => .inc | _ => .dec
def atyOf : Nat → ATy
  | 0 => .i32 | 1 => .n32 | _ => .f32
def credTyOf : Nat → CredTy
  | 0 => .i32 | 1 => .n32 | 2 => .f32 | _ => .bf16
def collOf : Nat → CollOp
  | 0 => .allreduce | 1 => .redscat | 2 => .allgather | 3 => .bcast | 4 => .alltoall | _ => .barrier
def collTyOf : Nat → CollTy
  | 0 => .i32 | 1 => .f32 | 2 => .bf16 | _ => .f16
def cselOf : Nat → CSel
  | 0 => .val | 1 => .fail | 2 => .cause | _ => .armed
def gselOf : Nat → GSel
  | 0 => .seq | 1 => .own | 2 => .mcid | 3 => .word | 4 => .count | 5 => .abort | 6 => .frank | _ => .path
def pselOf : Nat → PSel
  | 0 => .n | 1 => .l | 2 => .flags | 3 => .w | 4 => .p | 5 => .parent | 6 => .first | 7 => .cnt | 8 => .depth
  | 9 => .act | _ => .pid
def spOf : Nat → SpReg
  | 0 => .lane | 1 => .width | 2 => .group | 3 => .team | 4 => .core | 5 => .die | 6 => .rank | 7 => .cluster
  | 8 => .clpos | 9 => .grid | 10 => .fmt | 11 => .flg | 12 => .tags | 13 => .clock | 14 => .gtime | 15 => .pc
  | 16 => .hbase | 17 => .ctx | _ => .fqbase
def trOf (n : Nat) : TrField :=
  match n with
  | 0 => .cls | 1 => .sub | 2 => .lanes | 3 => .epc | 4 => .cpc | 5 => .mode | 6 => .lwlo | 7 => .lwhi | 8 => .code
  | 9 => .chpos | 10 => .cmask | 11 => .depth | _ => .scr (.ofNat 4 n)

/-- Operand modifiers, with negA at FN bit `i` (R116). -/
def modsOf (fn i : Nat) : FMods := ⟨bit fn i, bit fn (i + 1), bit fn (i + 2), bit fn (i + 3)⟩

/-- The length operand of a 1D copy: field B, or EXT 31:0 (R165). -/
def copyLenOf (r : Raw) : CopyLen :=
  if bit r.fn 9 then .ext (.ofNat 32 (fld r.hi 0 32)) else .opnd (opd r.b)

/-- Causes of the length operand of a 1D copy. -/
def qCopyLen (r : Raw) : Nat :=
  if bit r.fn 9 then qZ r.b else qSI r.b ||| qZ (fld r.hi 0 32)

/-- Causes of the barrier field of a copy: 0 to 15, or 31 for none. -/
def qCopyBar (x : Nat) : Nat := on (16 ≤ x && x != 31) e5

def copyBarOf (x : Nat) : Option (BitVec 4) := if x = 31 then none else some (.ofNat 4 x)

/-! ## Opcodes and lengths (R55, R56) -/

/-- The length codes an opcode admits, as a set of bits; 0 for an unassigned, reserved or permanently illegal opcode.
Bit 0 is 64 bits, bit 1 is 96, bit 2 is 128. -/
def lensOf (op : Nat) : Nat :=
  if op ∈ [0x01, 0x03, 0x06, 0x2B, 0x14, 0x24, 0x25, 0x33, 0x40, 0x54, 0x90, 0x92, 0xB6, 0xC0, 0xC1, 0xC2, 0xD2, 0xD3]
    then 2
  else if op ∈ [0x0A, 0x0B, 0x10, 0x11, 0x12, 0x13, 0x15, 0x16, 0x17, 0x1A, 0x1B, 0x1C, 0x27, 0x30, 0x31, 0x32, 0x34,
    0x35, 0x36, 0x3E, 0x3F, 0x41, 0x42, 0x43, 0x87, 0xC7, 0xE6] then 3
  else if op ∈ [0x29, 0x60, 0x61, 0x80, 0x81, 0x84, 0x91, 0xA0, 0xB0, 0xB1, 0xB5, 0xBC, 0xC3, 0xC4, 0xC5, 0xC9, 0xD0]
    then 4
  else if op ≤ 0x0D || (0x10 ≤ op && op ≤ 0x44) || (0x50 ≤ op && op ≤ 0x55) || (0x60 ≤ op && op ≤ 0x65)
    || (0x70 ≤ op && op ≤ 0x77) || (0x80 ≤ op && op ≤ 0x8C) || (0x90 ≤ op && op ≤ 0x94) || (0xA0 ≤ op && op ≤ 0xA4)
    || (0xB0 ≤ op && op ≤ 0xBC) || (0xC0 ≤ op && op ≤ 0xCA) || (0xD0 ≤ op && op ≤ 0xD7) || (0xE0 ≤ op && op ≤ 0xEA)
    then 1
  else 0

/-- Opcodes that admit CH = 1 (R50). -/
def chOk (op : Nat) : Bool :=
  (0x10 ≤ op && op ≤ 0x5F) || op ∈ [0x70, 0x71, 0x72, 0x73, 0x77, 0xE2, 0xE4, 0xE5, 0x0C, 0x0B]

/-- Opcodes that admit an accuracy class (R47). -/
def acOk (op : Nat) : Bool := op ∈ [0x12, 0x13, 0x14, 0x32, 0x33, 0x3F, 0x40, 0x60, 0x61]

/-- Causes of the shared fields: bit 19 (R48), AC (R47) and CH (R50). -/
def qHdr (r : Raw) : Nat :=
  on (r.b19 = 1 || r.ac = 3 || (r.ac != 0 && !acOk r.op)) e5 ||| on (r.ch = 1 && !chOk r.op) e9

def hdrOf (r : Raw) : Hdr := ⟨pr r.gp, r.gn = 1, r.ch = 1⟩

/-! ## One arm per opcode: the causes it meets, and the instruction it is when it meets none -/

/-- The immediate of the 96-bit immediate form. -/
def Raw.imm (r : Raw) : Word := .ofNat 32 r.hi

/-- Opcodes 0x00 to 0x0F: control (R78). -/
def decControl (r : Raw) : Nat × Instr :=
  let h := hdrOf r
  let w := qNoWS r.ws
  let zd := qZ r.d
  let za := qZ r.a
  let zb := qZ r.b
  let zf := qZ r.fn
  match r.op with
  | 0x01 => (w ||| zd ||| za ||| zb ||| zf, .bra h r.imm)
  | 0x02 => (w ||| zd ||| qPair r.a ||| zb ||| zf, .brx h (sr r.a))
  | 0x03 => (qDstP r.ws r.d ||| za ||| zb ||| zf, .call h (sr r.d) r.imm)
  | 0x04 => (qDstP r.ws r.d ||| qPair r.a ||| zb ||| zf, .callx h (sr r.d) (sr r.a))
  | 0x05 => (w ||| zd ||| qPair r.a ||| zb ||| zf, .ret h (sr r.a))
  | 0x06 => (w ||| qZ r.gp ||| qZ r.gn ||| zd ||| za ||| zb ||| zf, .mark r.imm)
  | 0x07 => (w ||| qZ r.gp ||| qZ r.gn ||| zd ||| za ||| zb ||| zf, .join)
  | 0x08 => (w ||| zd ||| za ||| zb ||| zf, .exit h)
  | 0x09 => (w ||| zd ||| za ||| zb ||| zf, .yield h)
  | 0x0A => if r.len = 0 then (w ||| zd ||| za ||| qSLI7 r.b ||| zf, .sleep h (opd r.b))
            else (w ||| zd ||| za ||| zb ||| zf, .sleepImm h r.imm)
  | 0x0B =>
    let sel := on (r.fn = 0 || 32 ≤ r.fn) e5
    if r.len = 0 then (w ||| zd ||| za ||| qSLI7 r.b ||| sel, .setfmt h (.ofNat 5 r.fn) (opd r.b))
    else (w ||| zd ||| za ||| zb ||| sel, .setfmtImm h (.ofNat 5 r.fn) r.imm)
  | 0x0C => (qDstS r.ws r.d ||| za ||| zb ||| zf, .getfmt h (dstOf r.ws r.d))
  | 0x0D => (w ||| zd ||| za ||| zb ||| on (256 ≤ r.fn) e5, .brk h (.ofNat 8 r.fn))
  | _ => (w ||| qZ r.gp ||| qZ r.gn ||| qZ r.ch ||| qZ r.ac ||| qZ r.b19 ||| qZ r.ws ||| zd ||| za ||| zb ||| zf, .nop)

/-- The destination and operand B of an integer or floating opcode of the "imm" lengths. -/
def qImmForm (r : Raw) (dq : Nat) : Nat :=
  if r.len = 0 then dq ||| qAny r.a ||| qAny r.b ||| qVS r.d [r.a, r.b]
  else dq ||| qAny r.a ||| qZ r.b ||| qVS r.d [r.a]

/-- FN of `IADD` and its kin: `.n32` only with `.sat` (R105). -/
def qIas (fn : Nat) : Nat := on (4 ≤ fn || fn = 1) e5

/-- Opcodes 0x10 to 0x2F: integer, lane and integer-compare instructions (R71-R77, R105-R113). `LANE` with a scalar D is the
read-out form with WS = 0 only (log entry 112). -/
def decInt (r : Raw) : Nat × Instr :=
  let h := hdrOf r
  let d := dstOf r.ws r.d
  let dq := qDst r.ws r.d
  let a := opd r.a
  let b := opd r.b
  let c := opd r.c
  let ac := acOf r.ac
  let n0 := bit r.fn 0
  let n1 := bit r.fn 1
  let im := qImmForm r dq
  let q1 := dq ||| qAny r.a ||| qZ r.b ||| qVS r.d [r.a]
  let q2 := dq ||| qAny r.a ||| qAny r.b ||| qVS r.d [r.a, r.b]
  let q3 := q2 ||| qAny r.c ||| qVS r.d [r.c] ||| qZ r.mod
  let zf := qZ r.fn
  let i := r.imm
  let s := r.len = 0
  match r.op with
  | 0x10 => (im ||| qIas r.fn, if s then .iadd h d a b n0 n1 else .iaddImm h d a i n0 n1)
  | 0x11 => (im ||| qIas r.fn, if s then .isub h d a b n0 n1 else .isubImm h d a i n0 n1)
  | 0x12 => (im ||| qIas r.fn, if s then .imul h ac d a b n0 n1 else .imulImm h ac d a i n0 n1)
  | 0x13 => (im ||| on (2 ≤ r.fn) e5, if s then .imulh h ac d a b n0 else .imulhImm h ac d a i n0)
  | 0x14 => (q3 ||| qIas r.fn, .imad h ac d a b c n0 n1)
  | 0x15 => (im ||| on (4 ≤ r.fn) e5, if s then .idiv h d a b n0 n1 else .idivImm h d a i n0 n1)
  | 0x16 => (im ||| on (4 ≤ r.fn) e5, if s then .irem h d a b n0 n1 else .iremImm h d a i n0 n1)
  | 0x17 =>
    if n0 then (im ||| on (4 ≤ r.fn) e5, if s then .imax h d a b n1 else .imaxImm h d a i n1)
    else (im ||| on (4 ≤ r.fn) e5, if s then .imin h d a b n1 else .iminImm h d a i n1)
  | 0x18 => (q1 ||| on (2 ≤ r.fn) e5, .iabs h d a n0)
  | 0x19 => (q1 ||| on (2 ≤ r.fn) e5, .ineg h d a n0)
  | 0x1A => (im ||| zf, if s then .and h d a b else .andImm h d a i)
  | 0x1B => (im ||| zf, if s then .or h d a b else .orImm h d a i)
  | 0x1C => (im ||| zf, if s then .xor h d a b else .xorImm h d a i)
  | 0x1D => (q1 ||| zf, .not h d a)
  | 0x1E => (q2 ||| zf, .shl h d a b)
  | 0x1F => (q2 ||| zf, .shr h d a b)
  | 0x20 => (q2 ||| zf, .sar h d a b)
  | 0x21 => (q2 ||| zf, .rotl h d a b)
  | 0x22 => (q1 ||| zf, .popc h d a)
  | 0x23 => (q1 ||| zf, .clz h d a)
  | 0x24 => (q3 ||| on (2 ≤ r.fn) e5, .bfx h d a b c n0)
  | 0x25 => (q3 ||| zf, .bfi h d a b c)
  | 0x26 => (q2 ||| on (32 ≤ r.fn) e5, .sel h d a b (pr r.fn) (bit r.fn 4))
  | 0x27 =>
    let q := qCmp r.ws r.d ||| qAny r.a ||| on (6 ≤ fld r.fn 0 4 || fld r.fn 5 2 = 3 || 128 ≤ r.fn) e5
    let cc := condOf (fld r.fn 0 4)
    let w := iwOf (fld r.fn 5 2)
    if s then (q ||| qAny r.b, .icmp h (cmpd r.d) cc (bit r.fn 4) w a b)
    else (q ||| qZ r.b, .icmpImm h (cmpd r.d) cc (bit r.fn 4) w a i)
  | 0x28 =>
    (qDstP r.ws r.d ||| qPair r.a ||| (if n0 then qPair r.b ||| on (isV r.b) e7 else qSLI7 r.b) ||| on (2 ≤ r.fn) e5,
      .add64 h (sr r.d) (sr r.a) b n0)
  | 0x29 =>
    let off := BitVec.ofNat 54 (fld r.hi 0 54)
    let q := qDstP r.ws r.d ||| qZ r.b ||| on (3 ≤ r.fn) e5 ||| qZ (fld r.hi 54 10)
    if r.fn = 2 then (q ||| qPair r.a, .lea64 h (sr r.d) (.base (sr r.a) off))
    else if r.fn = 1 then (q ||| qZ r.a, .lea64 h (sr r.d) (.rel off))
    else (q ||| qZ r.a, .lea64 h (sr r.d) (.abs off))
  | 0x2A => (q1 ||| zf, .mov h d a)
  | 0x2B => (dq ||| qZ r.a ||| qZ r.b ||| zf, .movi h d i)
  | 0x2C =>
    (dq ||| qVL r.a ||| qAny r.b ||| on (3 ≤ r.fn) e5 ||| on (isS r.d && r.ws = 0 && r.fn != 0) e5
      ||| on (isS r.d && isV r.b) e7, .lane h d (laneOf r.fn) a b)
  | 0x2D =>
    (qPred r.a ||| qZ r.b ||| on (4 ≤ r.fn) e5 ||| (if n1 then qDstP r.ws r.d else qDstS0 r.ws r.d),
      .ballot h d n1 (pr r.a) n0)
  | 0x2E =>
    let q := qCmp r.ws r.d ||| qZ r.b ||| on (3 ≤ r.fn) e5
    if r.fn = 2 then (q ||| qVL r.a, .vote h (cmpd r.d) (.uni a))
    else if r.fn = 1 then (q ||| qPred r.a, .vote h (cmpd r.d) (.any (pr r.a)))
    else (q ||| qPred r.a, .vote h (cmpd r.d) (.all (pr r.a)))
  | _ =>
    let op := fld r.fn 0 3
    (qDstS r.ws r.d ||| qVL r.a ||| qZ r.b ||| on (6 ≤ op || 16 ≤ r.fn || (bit r.fn 3 && op != 1 && op != 2)) e5,
      .gred h d (redOf op) (bit r.fn 3) a)

/-- A 16-bit IMM32 pattern must have bits 31:16 zero (R42). -/
def qImm16 (r : Raw) (t : Nat) : Nat := on (r.len = 1 && t != 0 && 65536 ≤ r.hi) e5

/-- Opcodes 0x30 to 0x4F: floating instructions (R71, R116). -/
def decFloat (r : Raw) : Nat × Instr :=
  let h := hdrOf r
  let d := dstOf r.ws r.d
  let dq := qDst r.ws r.d
  let a := opd r.a
  let b := opd r.b
  let c := opd r.c
  let ac := acOf r.ac
  let t := fld r.fn 0 2
  let ty := ftyOf t
  let bf := bit r.fn 0
  let i := r.imm
  let s := r.len = 0
  let m := modsOf r.fn 2
  let m2 := modsOf r.fn 1
  let q2 := qImmForm r dq ||| on (t = 3 || 64 ≤ r.fn) e5 ||| qImm16 r t
  let p2 := qImmForm r dq ||| on (32 ≤ r.fn) e5
  let x3 := dq ||| qAny r.a ||| qAny r.b ||| qAny r.c ||| qVS r.d [r.a, r.b, r.c] ||| on (4 ≤ r.mod) e5
  let q3 := x3 ||| on (t = 3 || 64 ≤ r.fn) e5
  let p3 := x3 ||| on (32 ≤ r.fn) e5
  let q1 := dq ||| qAny r.a ||| qZ r.b ||| qVS r.d [r.a] ||| on (t = 3 || 16 ≤ r.fn) e5
  let neg := bit r.fn 2
  let abs := bit r.fn 3
  match r.op with
  | 0x30 => (q2, if s then .fadd h d ty a b m else .faddImm h d ty a i m)
  | 0x31 => (q2, if s then .fsub h d ty a b m else .fsubImm h d ty a i m)
  | 0x32 => (q2, if s then .fmul h ac d ty a b m else .fmulImm h ac d ty a i m)
  | 0x33 => (q3, .ffma h ac d ty a b c m (bit r.mod 0) (bit r.mod 1))
  | 0x34 => (q2, if s then .fmin h d ty a b m else .fminImm h d ty a i m)
  | 0x35 => (q2, if s then .fmax h d ty a b m else .fmaxImm h d ty a i m)
  | 0x36 =>
    let cc := fld r.fn 0 4
    let ct := fld r.fn 4 2
    let q := qCmp r.ws r.d ||| qAny r.a ||| on (8 ≤ cc || ct = 3 || 64 ≤ r.fn) e5 ||| qImm16 r ct
    if s then (q ||| qAny r.b, .fcmp h (cmpd r.d) (condOf cc) (ftyOf ct) a b)
    else (q ||| qZ r.b, .fcmpImm h (cmpd r.d) (condOf cc) (ftyOf ct) a i)
  | 0x37 => (q1, .frcp h d ty a neg abs)
  | 0x38 => (q1, .frsq h d ty a neg abs)
  | 0x39 => (q1, .fsqrt h d ty a neg abs)
  | 0x3A => (q1, .fexp2 h d ty a neg abs)
  | 0x3B => (q1, .flog2 h d ty a neg abs)
  | 0x3C => (q1, .ftanh h d ty a neg abs)
  | 0x3D => (q1, .fclass h d ty a neg abs)
  | 0x3E => (p2, if s then .hadd2 h d bf a b m2 else .hadd2Imm h d bf a i m2)
  | 0x3F => (p2, if s then .hmul2 h ac d bf a b m2 else .hmul2Imm h ac d bf a i m2)
  | 0x40 => (p3, .hfma2 h ac d bf a b c m2 (bit r.mod 0) (bit r.mod 1))
  | 0x41 => (p2, if s then .hmin2 h d bf a b m2 else .hmin2Imm h d bf a i m2)
  | 0x42 => (p2, if s then .hmax2 h d bf a b m2 else .hmax2Imm h d bf a i m2)
  | 0x43 =>
    let cc := fld r.fn 0 4
    let q := qCmp r.ws r.d ||| qAny r.a ||| on (8 ≤ cc || 128 ≤ r.fn) e5
    let cb := combOf (fld r.fn 5 2)
    if s then (q ||| qAny r.b, .hcmp2 h (cmpd r.d) (condOf cc) (bit r.fn 4) cb a b)
    else (q ||| qZ r.b, .hcmp2Imm h (cmpd r.d) (condOf cc) (bit r.fn 4) cb a i)
  | _ => (qDstS r.ws r.d ||| qVL r.a ||| qZ r.b ||| on (3 ≤ r.fn) e5, .fsum h d ty a)

/-- Opcodes 0x50 to 0x5F: conversions and block formats (R124-R127, R159). -/
def decConvert (r : Raw) : Nat × Instr :=
  let h := hdrOf r
  let d := dstOf r.ws r.d
  let dq := qDst r.ws r.d
  let a := opd r.a
  let q1 := dq ||| qAny r.a ||| qZ r.b ||| qVS r.d [r.a]
  let fmt := fld r.fn 0 4
  let st := fld r.fn 4 2
  let dv := vdst r.ws r.d
  match r.op with
  | 0x50 =>
    let dt := fld r.fn 0 4
    let s := fld r.fn 4 4
    let rm := fld r.fn 8 3
    (q1 ||| on (9 ≤ dt || 9 ≤ s || (1 ≤ rm && rm ≤ 3) || (dt < 6 && s < 6 && rm != 0)) e5,
      .cvt h d (ctyOf dt) (ctyOf s) (rmOf rm) a)
  | 0x51 =>
    (dq ||| qAny r.a ||| qAny r.b ||| qVS r.d [r.a, r.b] ||| on (3 ≤ r.fn) e5, .pack h d (packOf r.fn) a (opd r.b))
  | 0x52 => (q1 ||| on (8 ≤ r.fn) e5, .unpack h d (unpackOf (fld r.fn 1 2)) (bit r.fn 0) a)
  | 0x53 =>
    (qDstV r.ws r.d ||| qV r.a ||| qZ r.b ||| on (fmt < 4 || 9 ≤ fmt || st = 3 || 64 ≤ r.fn) e5,
      .quant h dv (mfmtOf fmt) (ftyOf st) (vr r.a))
  | 0x54 =>
    (qDstV r.ws r.d ||| qV r.a ||| qSLI7 r.b ||| qV r.c ||| on (fmt != 0 || st = 3 || 64 ≤ r.fn || 16 ≤ r.mod) e5,
      .qsplit h dv (ftyOf st) (vr r.a) (opd r.b) (vr r.c) (.ofNat 4 r.mod))
  | _ =>
    (qDstV r.ws r.d ||| qV r.a ||| qZ r.b ||| on (fmt < 3 || 9 ≤ fmt || st = 3 || 64 ≤ r.fn) e5,
      .dequant h dv (ftyOf st) (mfmtOf fmt) (vr r.a))

/-- The operands shared by `MLOOP` and `MSTEP` (R146). -/
def mopsOf (r : Raw) : MOps where
  ac := acOf r.ac
  vc := vr r.d
  vb := vr r.a
  a := opd r.b
  astride := opd (fld r.hi 0 11)
  n := opd (fld r.hi 11 11)
  map := if fld r.hi 22 11 = 0x600 then none else some (sr (fld r.hi 22 11))
  ovr := if bit r.fn 8 then some ⟨mfmtOf (fld r.hi 33 4), mfmtOf (fld r.hi 37 4), maccOf (fld r.hi 41 2)⟩ else none
  klen := .ofNat 10 (fld r.hi 43 10)

/-- Causes of `MLOOP` and `MSTEP` (R146). -/
def qMops (r : Raw) : Nat :=
  qDstV0 r.ws r.d ||| qV r.a ||| qSI r.b ||| qSI (fld r.hi 0 11) ||| qSI (fld r.hi 11 11)
    ||| on (fld r.hi 22 11 != 0x600 && !(isS (fld r.hi 22 11) && fld r.hi 22 11 % 8 = 0)) e5
    ||| on (if bit r.fn 8 then 9 ≤ fld r.hi 33 4 || 9 ≤ fld r.hi 37 4 || 2 ≤ fld r.hi 41 2
            else fld r.hi 33 10 != 0) e5
    ||| on (512 < fld r.hi 43 10 || fld r.hi 53 11 != 0 || 512 ≤ r.fn) e5

/-- Opcodes 0x60 to 0x6F: the matrix engine (R146, R154-R157). -/
def decMatrix (r : Raw) : Nat × Instr :=
  let h := hdrOf r
  match r.op with
  | 0x60 => (qMops r, .mloop h (mopsOf r) (.ofNat 8 r.fn))
  | 0x61 => (qMops r ||| on (fld r.fn 0 8 != 0) e5, .mstep h (mopsOf r))
  | 0x62 => (qDstV0 r.ws r.d ||| qZ r.a ||| qSI r.b ||| qZ r.fn, .mzero h (vr r.d) (opd r.b))
  | 0x63 =>
    (qDstS r.ws r.d ||| qS8 r.a ||| qSI r.b ||| on (2 ≤ r.fn) e5,
      .mdup h (dstOf r.ws r.d) (bit r.fn 0) (sr r.a) (opd r.b))
  | 0x64 => (qDstS r.ws r.d ||| qZ r.a ||| qZ r.b ||| qZ r.fn, .mqry h (dstOf r.ws r.d))
  | _ => (qNoWS r.ws ||| qZ r.d ||| qSI r.a ||| qZ r.b ||| qZ r.fn, .mreset h (opd r.a))

/-- Opcodes 0x70 to 0x7F: local buffers, owner bits and paths (R131, R135, R140). -/
def decLocal (r : Raw) : Nat × Instr :=
  let h := hdrOf r
  let d := dstOf r.ws r.d
  let a := opd r.a
  let b := opd r.b
  let ty := ltyOf r.fn
  let q := qSI r.a ||| qAny r.b ||| on (5 ≤ r.fn) e5
  let ld := qDst r.ws r.d ||| q ||| qVS r.d [r.b]
  let st := qNoWS r.ws ||| qAny r.d ||| q
  let tg := qNoWS r.ws ||| qZ r.d ||| qSI r.a ||| qSI r.b ||| on (2 ≤ r.fn) e5
  let buf := bufOf (bit r.fn 0)
  match r.op with
  | 0x70 => (ld, .ldx h d ty a b)
  | 0x71 => (st, .stx h (opd r.d) ty a b)
  | 0x72 => (ld, .ldw h d ty a b)
  | 0x73 => (st, .stw h (opd r.d) ty a b)
  | 0x74 => (tg, .tgive h buf a b)
  | 0x75 => (tg, .ttake h buf a b)
  | 0x76 => (qNoWS r.ws ||| qZ r.d ||| qSLI r.a ||| qZ r.b ||| on (7 ≤ r.fn) e5, .waitp h (pathOf r.fn) a)
  | _ => (qDstS r.ws r.d ||| qZ r.a ||| qZ r.b ||| on (7 ≤ r.fn) e5, .pcnt h d (pathOf r.fn))

/-- Opcodes 0x80 to 0x8F: copies, gathers and barriers (R165, R169, R173, R175, R177, R183). -/
def decCopy (r : Raw) : Nat × Instr :=
  let h := hdrOf r
  let d := dstOf r.ws r.d
  let a := opd r.a
  let b := opd r.b
  let w := qNoWS r.ws
  let shp := fld r.fn 2 2
  let big := bit r.fn 9
  let barN := fld r.fn 4 5
  let mbx := BitVec.ofNat 12 (fld r.hi 32 12)
  let post := bit r.hi 44
  let buf := bufOf (bit r.fn 0)
  let q2d := qS8 r.b ||| on (big || fld r.hi 0 32 != 0) e5
  let bn := fld r.fn 0 5
  match r.op with
  | 0x80 =>
    let q := w ||| qSI r.d ||| qCopyBar barN ||| on (bit r.fn 10 || fld r.hi 45 19 != 0) e5
    let bar := copyBarOf barN
    let out := bit r.fn 1
    if shp = 0 then (q ||| qPair r.a ||| qCopyLen r, .copy h (opd r.d) (sr r.a) buf out (.d1 (copyLenOf r)) bar mbx post)
    else if shp = 1 then (q ||| qPair r.a ||| q2d, .copy h (opd r.d) (sr r.a) buf out (.d2 (sr r.b)) bar mbx post)
    else if shp = 2 then (q ||| qPair r.a ||| q2d, .copy h (opd r.d) (sr r.a) buf out (.d3 (sr r.b)) bar mbx post)
    else (q ||| qS r.a ||| qZ r.b ||| on (big || fld r.hi 0 32 != 0) e5,
      .copy h (opd r.d) (sr r.a) buf out .layout bar mbx post)
  | 0x81 =>
    let q := qDstS r.ws r.d ||| qPair r.a ||| on (shp = 3 || fld r.fn 0 2 != 0 || barN != 0 || bit r.fn 10) e5
      ||| qZ (fld r.hi 32 32)
    if shp = 0 then (q ||| qCopyLen r, .creg h d (sr r.a) (.d1 (copyLenOf r)))
    else if shp = 1 then (q ||| q2d, .creg h d (sr r.a) (.d2 (sr r.b)))
    else (q ||| q2d, .creg h d (sr r.a) (.d3 (sr r.b)))
  | 0x82 => (w ||| qZ r.d ||| qS r.a ||| qZ r.b ||| qZ r.fn, .cunreg h (sr r.a))
  | 0x83 =>
    (w ||| qZ r.d ||| qS r.a ||| qZ r.b ||| on (2 ≤ r.fn) e5,
      if bit r.fn 0 then .creplayDrop h (sr r.a) else .creplay h (sr r.a))
  | 0x84 =>
    let op := fld r.fn 1 3
    let ty := fld r.hi 45 2
    (w ||| qSI r.d ||| qPair r.a ||| qCopyLen r ||| qCopyBar barN
      ||| on (6 ≤ op || (3 ≤ op && 2 ≤ ty) || bit r.fn 10 || fld r.hi 47 17 != 0) e5,
      .cred h (opd r.d) (sr r.a) buf (redOf op) (credTyOf ty) (copyLenOf r) (copyBarOf barN) mbx post)
  | 0x85 =>
    let q := on (isRsv r.d) e5 ||| on (r.ws = 1 || !(isS r.d || isV r.d || isRsv r.d)) e6 ||| qAny r.b
      ||| qVS r.d [r.b] ||| on (5 ≤ fld r.fn 0 3 || 16 ≤ r.fn) e5
    if bit r.fn 3 then (q ||| qS r.a, .gath h d (ltyOf (fld r.fn 0 3)) (.clu (sr r.a)) b)
    else (q ||| qPair r.a, .gath h d (ltyOf (fld r.fn 0 3)) (.ext (sr r.a)) b)
  | 0x86 =>
    let q := w ||| on (isL r.d || isRsv r.d) e5 ||| qAny r.b ||| on (5 ≤ fld r.fn 0 3 || 16 ≤ r.fn) e5
    if bit r.fn 3 then (q ||| qS r.a, .scat h (opd r.d) (ltyOf (fld r.fn 0 3)) (.clu (sr r.a)) b)
    else (q ||| qPair r.a, .scat h (opd r.d) (ltyOf (fld r.fn 0 3)) (.ext (sr r.a)) b)
  | 0x87 =>
    let q := w ||| qZ r.d ||| qZ r.a ||| on (16 ≤ r.fn) e5
    if r.len = 0 then (q ||| qSLI r.b, .binit h (.ofNat 4 r.fn) b) else (q ||| qZ r.b, .binitImm h (.ofNat 4 r.fn) r.imm)
  | 0x88 => (w ||| qZ r.d ||| qZ r.a ||| qZ r.b ||| on (17 ≤ r.fn) e5, .barr h (barOf r.fn))
  | 0x89 => (qCmp r.ws r.d ||| qSI r.a ||| qZ r.b ||| on (17 ≤ r.fn) e5, .bwait h (cmpd r.d) (barOf r.fn) a)
  | 0x8A => (qCmp r.ws r.d ||| qZ r.a ||| qZ r.b ||| on (17 ≤ r.fn) e5, .barw h (cmpd r.d) (barOf r.fn))
  | 0x8B => (w ||| qZ r.d ||| qZ r.a ||| qZ r.b ||| on (16 ≤ r.fn) e5, .binv h (.ofNat 4 r.fn))
  | _ =>
    (qDstS r.ws r.d ||| qZ r.a ||| qZ r.b ||| on (17 ≤ bn || 256 ≤ r.fn) e5, .bqry h d (bselOf (fld r.fn 5 3)) (barOf bn))

/-- The base operand of an atomic (R320). -/
def abaseOf (sp a : Nat) : ABase :=
  if sp = 0 then .ext (sr a) else .loc (bufOf (sp = 2)) (opd a)

/-- Causes of the base and scope of an atomic (R320). -/
def qAtom (sp sc a : Nat) : Nat :=
  (if sp = 0 then qPair a else qSI a) ||| on (sp = 3 || 5 ≤ sc || (sp != 0 && 2 ≤ sc)) e5

/-- Causes of an operation and type that R321 does not admit together. -/
def qAop (op ty : Nat) : Nat := on (9 ≤ op || ty = 3 || (3 ≤ op && op ≤ 6 && ty = 2) || (7 ≤ op && ty != 1)) e5

/-- An even register or short immediate, for `.b64` (R325). -/
def qEven (x : Nat) : Nat := on (isRsv x) e5 ||| on (isL x || ((isS x || isV x) && x % 2 = 1)) e8

/-- The old-value destination of `ACAS` (R325). -/
def acasDstOf (b64 : Bool) (ws d : Nat) : AcasDst :=
  if b64 then (if ws = 1 then .none64 else if d < 0x400 then .pairS (sr d) else .pairV (vr d))
  else .one (dstOf ws d)

/-- Opcodes 0x90 to 0x9F: atomics, fences, race log (R316, R320, R325, R351). -/
def decAtomic (r : Raw) : Nat × Instr :=
  let h := hdrOf r
  let d := dstOf r.ws r.d
  let b := opd r.b
  let op := fld r.fn 0 4
  let ty := fld r.fn 4 2
  let sp := fld r.fn 6 2
  let sc := fld r.fn 8 3
  let qa := qAtom sp sc r.a ||| qAny r.b ||| qAny r.c ||| qAop op ty ||| on (2 ≤ r.mod) e5
  match r.op with
  | 0x90 =>
    (qDst r.ws r.d ||| qa ||| qVS r.d [r.b, r.c],
      .atom h d (aopOf op) (atyOf ty) (abaseOf sp r.a) b (scopeOf sc) (opd r.c) (bit r.mod 0))
  | 0x91 =>
    let cm := fld r.hi 0 11
    let nw := fld r.hi 11 11
    let b64 := bit r.hi 30
    let sp := fld r.hi 31 2
    let sc := fld r.hi 33 3
    (qDst r.ws r.d ||| on (b64 && r.ws = 0 && (isS r.d || isV r.d) && r.d % 2 = 1) e8 ||| qAtom sp sc r.a ||| qAny r.b
      ||| (if b64 then qEven cm ||| qEven nw else qAny cm ||| qAny nw) ||| qVS r.d [r.b, cm, nw]
      ||| qPP (fld r.hi 22 4) (fld r.hi 26 4) ||| qZ r.fn ||| on (fld r.hi 37 27 != 0) e5,
      .acas h (acasDstOf b64 r.ws r.d) (abaseOf sp r.a) b (opd cm) (opd nw) ⟨pr (fld r.hi 22 4), pr (fld r.hi 26 4)⟩
        (scopeOf sc) (bit r.hi 36))
  | 0x92 =>
    (qNoWS r.ws ||| qZ r.d ||| qa,
      .ared h (aopOf op) (atyOf ty) (abaseOf sp r.a) b (scopeOf sc) (opd r.c) (bit r.mod 0))
  | 0x93 =>
    let sc := fld r.fn 0 3
    let kd := fld r.fn 3 2
    let q := qNoWS r.ws ||| qZ r.d ||| qZ r.a ||| qZ r.b ||| on (5 ≤ sc || 32 ≤ r.fn || (kd = 3 && sc != 0)) e5
    if kd = 3 then (q, .fenceCode h)
    else (q, .fence h (if kd = 0 then .acq else if kd = 1 then .rel else .ar) (scopeOf sc))
  | _ =>
    if bit r.fn 0 then (qNoWS r.ws ||| qZ r.d ||| qPair r.a ||| qZ r.b ||| on (2 ≤ r.fn) e5, .raceqBase h (sr r.a))
    else (qDstS r.ws r.d ||| qZ r.a ||| qZ r.b ||| on (2 ≤ r.fn) e5, .raceqHead h d)

/-- `TQRY` selectors (R309). -/
def tqOf (sel a : Nat) : TQSel :=
  match sel with
  | 0 => if a < 0x400 then .regS (sr a) else .regV (vr a)
  | 1 => .pred (pr a)
  | 2 => .xline (opd a)
  | 3 => .wline (opd a)
  | 4 => .slot (opd a)
  | 5 => .state (opd a)
  | 6 => .undo
  | _ => .held

/-- Opcodes 0xA0 to 0xAF: assumptions (R290, R293, R309, R310). -/
def decNougat (r : Raw) : Nat × Instr :=
  let h := hdrOf r
  let a := opd r.a
  match r.op with
  | 0xA0 =>
    let i := fld r.hi 0 11
    let q := qDstS0 r.ws r.d ||| qSLI r.a ||| qS i ||| on (2 ≤ r.fn || fld r.hi 47 17 != 0) e5
    if bit r.fn 0 then
      (q ||| qZ r.b ||| qZ (fld r.hi 11 4), .guessN h (sr r.d) a (sr i) (.ofNat 32 (fld r.hi 15 32)))
    else (q ||| qPair r.b ||| qZ (fld r.hi 15 32), .guess h (sr r.d) a (sr r.b) (sr i) (.ofNat 4 (fld r.hi 11 4)))
  | 0xA1 => (qCmp r.ws r.d ||| qSL r.a ||| qZ r.b ||| qZ r.fn, .affirm h (cmpd r.d) a)
  | 0xA2 => (qCmp r.ws r.d ||| qSL r.a ||| qZ r.b ||| qZ r.fn, .deny h (cmpd r.d) a)
  | 0xA3 =>
    let sel := fld r.fn 0 3
    (qDstS r.ws r.d ||| qZ r.b ||| on (8 ≤ r.fn) e5
      ||| (if sel = 0 then on (!(isS r.a || isV r.a)) e5
           else if sel = 1 then on (r.a < 0x600 || 0x610 ≤ r.a) e5
           else if 6 ≤ sel then qZ r.a else qSI r.a),
      .tqry h (dstOf r.ws r.d) (tqOf sel r.a))
  | _ => (qNoWS r.ws ||| qZ r.d ||| qZ r.a ||| qZ r.b ||| qZ r.fn, .twait h)

/-- Opcodes 0xB0 to 0xBF: handles, mailboxes, queues, launches (R248-R250, R357, R361, R363-R367). -/
def decInvoke (r : Raw) : Nat × Instr :=
  let h := hdrOf r
  let w := qNoWS r.ws
  let pc := fld r.fn 0 4
  let pk := fld r.fn 4 4
  let pp : CmpDst := ⟨pr pc, pr pk⟩
  let a := opd r.a
  let b := opd r.b
  match r.op with
  | 0xB0 =>
    let core := fld r.hi 16 8
    (qDstPW r.ws r.d ||| qS r.a ||| qSI r.b ||| qPP pc pk
      ||| on (512 ≤ r.fn || 192 ≤ core || (!(bit r.fn 8) && core != 0) || fld r.hi 24 40 != 0) e5,
      .invoke h (sdst r.ws r.d) (sr r.a) b (.ofNat 12 (fld r.hi 0 12)) (.ofNat 4 (fld r.hi 12 4)) pp
        (if bit r.fn 8 then some (.ofNat 8 core) else none))
  | 0xB1 =>
    (qDstPW r.ws r.d ||| qS r.a ||| qPair r.b ||| qPP pc pk ||| on (256 ≤ r.fn || fld r.hi 16 48 != 0) e5,
      .invh h (sdst r.ws r.d) (sr r.a) (sr r.b) (.ofNat 12 (fld r.hi 0 12)) (.ofNat 4 (fld r.hi 12 4)) pp)
  | 0xB2 =>
    let md := fld r.fn 0 2
    let n := fld r.fn 2 5
    let q := qCmp r.ws r.d ||| qPair r.a ||| on (md = 3 || 128 ≤ r.fn) e5
    if md = 1 then (q ||| qS r.b ||| on (17 ≤ n) e5, .hwaitPark h (cmpd r.d) (sr r.a) (sr r.b) (.ofNat 5 n))
    else (q ||| qZ r.b ||| qZ n, .hwait h (if md = 2 then .trap else .plain) (cmpd r.d) (sr r.a))
  | 0xB3 =>
    (qDstS0 r.ws r.d ||| qPair r.a ||| (if bit r.fn 8 then qZ r.b else qSI r.b) ||| qPP pc pk ||| on (512 ≤ r.fn) e5,
      .hget h (bit r.fn 8) pp (sr r.d) (sr r.a) (if bit r.fn 8 then .imm 0 else b))
  | 0xB4 => (w ||| qZ r.d ||| qPair r.a ||| qZ r.b ||| qZ r.fn, .hdrop h (sr r.a))
  | 0xB5 =>
    let md := r.fn
    let q := w ||| qSI r.d ||| qZ r.b ||| on (3 ≤ r.fn) e5
    if md = 0 then
      (q ||| qPair r.a ||| on (fld r.hi 47 17 != 0) e5,
        .mbregBind h (opd r.d) (sr r.a)
          ⟨.ofNat 2 (fld r.hi 0 2), .ofNat 8 (fld r.hi 2 8), .ofNat 10 (fld r.hi 10 10), .ofNat 10 (fld r.hi 20 10),
            .ofNat 11 (fld r.hi 30 11), .ofNat 5 (fld r.hi 41 5), bit r.hi 46⟩)
    else if md = 1 then (q ||| qZ r.a ||| qZ r.hi, .mbregOpen h (opd r.d))
    else (q ||| qZ r.a ||| qZ r.hi, .mbregClose h (opd r.d))
  | 0xB6 =>
    (qCmp r.ws r.d ||| qS r.a ||| qSI r.b ||| qSI r.c ||| qZ r.fn ||| on (16 ≤ r.mod) e5,
      .msend h (cmpd r.d) (sr r.a) b (opd r.c) (.ofNat 4 r.mod))
  | 0xB7 =>
    (qDstS0 r.ws r.d ||| qSI r.a ||| qZ r.b ||| qPP pc pk ||| on (512 ≤ r.fn) e5, .mrecv h (bit r.fn 8) pp (sr r.d) a)
  | 0xB8 => (qCmp r.ws r.d ||| qS r.a ||| qSI r.b ||| qZ r.fn, .qpush h (cmpd r.d) (sr r.a) b)
  | 0xB9 =>
    (w ||| qS r.d ||| qSI r.a ||| qZ r.b ||| qPP pc pk ||| on (256 ≤ r.fn) e5, .qpop h pp (sr r.d) a)
  | 0xBA => (w ||| qZ r.d ||| qSI r.a ||| qZ r.b ||| qZ r.fn, .qwait h a)
  | 0xBB => (w ||| qZ r.d ||| qSI r.a ||| qZ r.b ||| qZ r.fn, .notify h a)
  | _ =>
    let q := qDstS0 r.ws r.d ||| qZ r.b ||| qPP pc pk ||| on (512 ≤ r.fn) e5
    if bit r.fn 8 then
      (q ||| qZ r.a ||| qZ (fld r.hi 54 10), .launch h pp (sr r.d) (.label (.ofNat 54 (fld r.hi 0 54))))
    else (q ||| qPair r.a ||| qZ r.hi, .launch h pp (sr r.d) (.pair (sr r.a)))

/-- Opcodes 0xC0 to 0xCF: fabric, collectives, counters, group table (R238, R242, R259-R261, R275, R276). -/
def decFabric (r : Raw) : Nat × Instr :=
  let h := hdrOf r
  let d := dstOf r.ws r.d
  let w := qNoWS r.ws
  let a := opd r.a
  let b := opd r.b
  let win := BitVec.ofNat 12 (fld r.mod 0 12)
  let pc := fld r.mod 12 4
  let pk := fld r.mod 16 4
  let pp : CmpDst := ⟨pr pc, pr pk⟩
  let qm := qPP pc pk ||| on (bit r.mod 20) e5
  let q2 := qAny r.a ||| qAny r.b
  let cn := BitVec.ofNat 6 (fld r.fn 0 6)
  match r.op with
  | 0xC0 =>
    (w ||| qZ r.d ||| q2 ||| qAny r.c ||| qm ||| on (5 ≤ r.fn) e5, .rput h pp (ltyOf r.fn) win a b (opd r.c))
  | 0xC1 =>
    (qDst r.ws r.d ||| q2 ||| qVS r.d [r.a, r.b] ||| qZ r.c ||| qm ||| on (5 ≤ r.fn) e5,
      .rget h pp d (ltyOf r.fn) win a b)
  | 0xC2 =>
    let op := fld r.fn 0 3
    let ty := fld r.fn 3 2
    (w ||| qZ r.d ||| q2 ||| qAny r.c ||| qm ||| on (6 ≤ op || ty = 3 || 32 ≤ r.fn || (ty = 2 && 3 ≤ op)) e5,
      .rred h pp (redOf op) (atyOf ty) win a b (opd r.c))
  | 0xC3 =>
    let n := fld r.hi 20 13
    (qDstS r.ws r.d ||| qSI r.a ||| qSI r.b ||| qZ r.fn ||| on (n < 4 || 4096 < n || n % 4 != 0 || bit r.hi 63) e5,
      .mcst h d (.ofNat 8 (fld r.hi 0 8)) (.ofNat 12 (fld r.hi 8 12)) (.ofNat 30 (fld r.hi 33 30)) a (.ofNat 13 n) b)
  | 0xC4 =>
    let op := fld r.fn 0 3
    let ty := fld r.fn 3 2
    let red := fld r.fn 5 3
    let sb := bit r.fn 8
    let root := fld r.hi 43 10
    (qDstP r.ws r.d ||| qSI r.a ||| qSI r.b ||| qSI (fld r.hi 0 11)
      ||| on (6 ≤ op || 6 ≤ red || 512 ≤ r.fn || 9 ≤ fld r.hi 39 4 || fld r.hi 60 4 != 0
          || (red != 0 && 2 ≤ op) || (3 ≤ red && ty != 0) || (root != 0 && op != 3)
          || (sb && (ty != 1 || 2 ≤ op || 3 ≤ red))) e5,
      .coll h (sr r.d)
        { op := collOf op, ty := collTyOf ty, red := redOf red, sb7 := sb, entry := .ofNat 8 (fld r.hi 11 8),
          win := .ofNat 12 (fld r.hi 19 12), sbase := .ofNat 8 (fld r.hi 31 8), slog := .ofNat 4 (fld r.hi 39 4),
          root := .ofNat 10 root, cn := .ofNat 6 (fld r.hi 53 6), raise := bit r.hi 59 }
        a b (opd (fld r.hi 0 11)))
  | 0xC5 =>
    (w ||| qSI r.d ||| qPair r.a ||| qSI r.b ||| qSI (fld r.hi 0 11)
      ||| on (64 ≤ r.fn || fld r.hi 23 16 = 0 || fld r.hi 53 11 != 0) e5,
      .tsend h
        { cn := cn, win := .ofNat 12 (fld r.hi 11 12), n4 := .ofNat 16 (fld r.hi 23 16), ct := .ofNat 6 (fld r.hi 39 6),
          ctOn := bit r.hi 45, cl := .ofNat 6 (fld r.hi 46 6), clOn := bit r.hi 52 }
        (opd (fld r.hi 0 11)) b (opd r.d) (sr r.a))
  | 0xC6 =>
    let sel := fld r.fn 6 2
    (qDstS r.ws r.d ||| qZ r.a ||| qZ r.b ||| on (256 ≤ r.fn || ((sel = 1 || sel = 2) && fld r.fn 0 6 != 0)) e5,
      .ctrd h d (cselOf sel) cn)
  | 0xC7 =>
    let q := w ||| qZ r.d ||| qZ r.a ||| on (128 ≤ r.fn) e5
    if r.len = 0 then (q ||| qSI r.b, .ctset h cn (bit r.fn 6) b) else (q ||| qZ r.b, .ctsetImm h cn (bit r.fn 6) r.imm)
  | 0xC8 => (w ||| qZ r.d ||| qSLI r.a ||| qZ r.b ||| on (64 ≤ r.fn) e5, .ctwait h cn a)
  | 0xC9 =>
    let q := w ||| qSI r.d ||| on (3 ≤ r.fn) e5 ||| qZ (fld r.hi 16 48)
    if r.fn = 0 then (q ||| qPair r.a ||| qSI r.b, .gsetFull h (opd r.d) (sr r.a) b (.ofNat 16 r.hi))
    else if r.fn = 1 then (q ||| qZ r.a ||| qSI r.b ||| qZ r.hi, .gsetSeq h (opd r.d) b)
    else (q ||| qZ r.a ||| qZ r.b ||| qZ r.hi, .gsetClear h (opd r.d))
  | _ => (qDstS r.ws r.d ||| qSI r.a ||| qSI r.b ||| on (8 ≤ r.fn) e5, .gqry h d (gselOf r.fn) a b)

/-- Opcodes 0xD0 to 0xDF: Praline (R377, R386). -/
def decPraline (r : Raw) : Nat × Instr :=
  let h := hdrOf r
  let d := dstOf r.ws r.d
  let t := sr r.a
  let b := opd r.b
  let zf := qZ r.fn
  match r.op with
  | 0xD0 =>
    (qDstS0 r.ws r.d ||| qPair r.a ||| qSI r.b ||| zf ||| qS (fld r.hi 0 11) ||| on (fld r.hi 11 53 != 0) e5,
      .prnew h d (sr r.a) b (sr (fld r.hi 0 11)))
  | 0xD1 => (qDstV0 r.ws r.d ||| qS r.a ||| qSI r.b ||| zf, .prdesc h (vr r.d) t b)
  | 0xD2 =>
    (qCmp r.ws r.d ||| qS r.a ||| qSI r.b ||| zf ||| qV r.c ||| qSI (fld r.mod 0 11) ||| on (2048 ≤ r.mod) e5,
      .prexp h (cmpd r.d) t b (opd (fld r.mod 0 11)) (vr r.c))
  | 0xD3 => (qNoWS r.ws ||| qZ r.d ||| qS r.a ||| qV r.b ||| qV r.c ||| qZ r.mod ||| zf, .prback h t (vr r.b) (vr r.c))
  | 0xD4 => (qCmp r.ws r.d ||| qS r.a ||| qSI r.b ||| zf, .prroot h (cmpd r.d) t b)
  | 0xD5 => (qDstS0 r.ws r.d ||| qS r.a ||| qZ r.b ||| zf, .prbest h d t)
  | 0xD6 =>
    let q := qDst r.ws r.d ||| on (16 ≤ r.fn) e5
    if r.fn < 11 then (q ||| qS r.a ||| qAny r.b ||| qVS r.d [r.b], .prqry h d (.node (pselOf r.fn) t b))
    else if r.fn = 11 then (q ||| qS r.a ||| qZ r.b, .prqry h d (.root t))
    else if r.fn = 12 then (q ||| qS r.a ||| qZ r.b, .prqry h d (.count t))
    else if r.fn = 13 then (q ||| qS r.a ||| qZ r.b, .prqry h d (.free t))
    else if r.fn = 14 then (q ||| qS r.a ||| qZ r.b, .prqry h d (.cap t))
    else (q ||| qZ r.a ||| qZ r.b, .prqry h d .stat)
  | _ => (qNoWS r.ws ||| qZ r.d ||| qS r.a ||| qZ r.b ||| zf, .prfree h t)

/-- Trap fields that R209 reserves. -/
def trRsv (n : Nat) : Bool := (0x0C ≤ n && n ≤ 0x0F) || 0x20 ≤ n

/-- Opcodes 0xE0 to 0xEF: system instructions (R200-R203, R207, R208, R214-R216, R221). -/
def decSystem (r : Raw) : Nat × Instr :=
  let h := hdrOf r
  let d := dstOf r.ws r.d
  let w := qNoWS r.ws
  let a := opd r.a
  let n := fld r.fn 0 6
  let tr := bit r.fn 6
  let zb := qZ r.b
  let zf := qZ r.fn
  let big := on (128 ≤ r.fn) e5
  match r.op with
  | 0xE0 => (qDstV0 r.ws r.d ||| qAny r.a ||| zb ||| on (256 ≤ r.fn) e5, .scall h (vr r.d) (.ofNat 8 r.fn) a)
  | 0xE1 =>
    let q := w ||| qZ r.d ||| zb ||| on (4 ≤ r.fn) e5
    if r.fn = 0 then (q ||| qZ r.a, .rft h)
    else if r.fn = 1 then (q ||| qZ r.a, .rftNext h)
    else if r.fn = 2 then (q ||| on (!(isS r.a && r.a % 2 = 0)) e5, .rftTo h (sr r.a))
    else (q ||| qV r.a, .rftRep h (vr r.a))
  | 0xE2 =>
    let q := qZ r.a ||| zb ||| big
    if tr then
      if n = 2 || n = 3 || n = 4 || n = 10 then (q ||| qDstP r.ws r.d, .mfs h (.tr64 (trOf n) (sr r.d)))
      else (q ||| qDst r.ws r.d ||| on (trRsv n) e5 ||| on ((n = 6 || n = 7) && isS r.d) e7, .mfs h (.tr (trOf n) d))
    else if 0x0C ≤ n && n ≤ 0x12 then (q ||| qDstP r.ws r.d, .mfs h (.sp64 (spOf n) (sr r.d)))
    else (q ||| qDst r.ws r.d ||| on (0x13 ≤ n) e5 ||| on (n = 0 && isS r.d) e7, .mfs h (.sp (spOf n) d))
  | 0xE3 =>
    let q := w ||| qZ r.d ||| zb ||| big
    let qp := on (isRsv r.a) e5 ||| on (isV r.a) e7 ||| on (!(isV r.a || isRsv r.a) && !(isS r.a && r.a % 2 = 0)) e8
    if tr then (q ||| on (n < 0x10 || 0x20 ≤ n) e5 ||| qSLI7 r.a, .mts h (.scr (.ofNat 4 n) a))
    else if n = 0x0A then (q ||| qSLI7 r.a, .mts h (.fmt a))
    else if n = 0x0B then (q ||| qSLI7 r.a, .mts h (.flg a))
    else if n = 0x10 then (q ||| qp, .mts h (.hbase (sr r.a)))
    else if n = 0x12 then (q ||| qp, .mts h (.fqbase (sr r.a)))
    else (q ||| e5, .mts h (.flg a))
  | 0xE4 => (qDstP r.ws r.d ||| qZ r.a ||| zb ||| zf, .rdclk h (sr r.d))
  | 0xE5 => (qDstP r.ws r.d ||| qZ r.a ||| zb ||| zf, .rdtim h (sr r.d))
  | 0xE6 =>
    if r.len = 0 then (w ||| qZ r.d ||| qZ r.a ||| qSI r.b ||| zf, .settim h (opd r.b))
    else (w ||| qZ r.d ||| qZ r.a ||| zb ||| zf, .settimImm h r.imm)
  | 0xE7 =>
    let q := w ||| qZ r.d ||| zb ||| on (3 ≤ r.fn) e5
    if r.fn = 0 then (q ||| qPair r.a, .vinv h (.page (sr r.a)))
    else if r.fn = 1 then (q ||| qZ r.a, .vinv h .ctx)
    else (q ||| qZ r.a, .vinv h .dev)
  | 0xE8 =>
    (qDstP r.ws r.d ||| qZ r.a ||| zb ||| on (2 ≤ r.fn) e5, if bit r.fn 0 then .quiesCur h (sr r.d) else .quiesOld h (sr r.d))
  | 0xE9 => (qDstS0 r.ws r.d ||| qZ r.a ||| zb ||| zf, .fltq h (sr r.d))
  | _ =>
    let q := qDstS r.ws r.d ||| qSI r.a ||| zb ||| on (3 ≤ r.fn) e5
    if r.fn = 0 then (q, .ctxswSave h d a) else if r.fn = 1 then (q, .ctxswRest h d a) else (q, .ctxswQry h d a)

/-- The arm of an opcode, by its high digit (R55). -/
def decOp (r : Raw) : Nat × Instr :=
  match r.op / 16 with
  | 0 => decControl r
  | 1 | 2 => decInt r
  | 3 | 4 => decFloat r
  | 5 => decConvert r
  | 6 => decMatrix r
  | 7 => decLocal r
  | 8 => decCopy r
  | 9 => decAtomic r
  | 10 => decNougat r
  | 11 => decInvoke r
  | 12 => decFabric r
  | 13 => decPraline r
  | _ => decSystem r

/-- What the decoder reads at a block offset: an instruction with its length in bytes, or the subcode of R58. -/
inductive Dec where
  | ok (i : Instr) (bytes : Nat)
  | ill (sub : Nat)
  deriving DecidableEq, Repr

/-- Decodes the instruction whose bits are `w` and whose first byte lies at offset `off` of its fetch block. The causes
are taken in the order of R60: 0x01 to 0x04 first, then the least of the field causes. -/
def decode (off w : Nat) : Dec :=
  let r := rawOf w
  if r.len = 3 then .ill 0x01
  else if lensOf r.op = 0 then .ill 0x02
  else if !(lensOf r.op).testBit r.len then .ill 0x03
  else if 32 < off + lenBytes r.len then .ill 0x04
  else
    let (e, i) := decOp r
    let e := e ||| qHdr r
    if e = 0 then .ok i (lenBytes r.len) else .ill (leastCause e)

/-- The number that little-endian bytes make (R5). -/
def leNat : List Byte → Nat
  | [] => 0
  | b :: bs => b.toNat + 256 * leNat bs

/-- Decodes the bytes at an instruction's address; bytes that are not there read as zero. -/
def decodeBytes (off : Nat) (bytes : List Byte) : Dec := decode off (leNat (bytes.take 16))

/-- The instruction the decoder reads from bits numbered as the opcode table numbers them, at block offset 0. -/
def decodeTableWord (nbits w : Nat) : Option Instr :=
  match decode 0 (w % 2 ^ nbits) with
  | .ok i _ => some i
  | .ill _ => none

/-! ## The encoder (R41-R47, and each chapter's encoding table) -/

/-- A word from its fields (R41). -/
def packRaw (r : Raw) : Nat :=
  r.len + 2 ^ 2 * r.op + 2 ^ 10 * r.gp + 2 ^ 14 * r.gn + 2 ^ 15 * r.ch + 2 ^ 16 * r.ac + 2 ^ 18 * r.ws + 2 ^ 19 * r.b19
    + 2 ^ 20 * r.d + 2 ^ 31 * r.a + 2 ^ 42 * r.b + 2 ^ 53 * r.fn + 2 ^ 64 * r.hi

/-- The fields that every instruction has; the rest zero. -/
def rawH (len op : Nat) (h : Hdr) : Raw := ⟨len, op, h.gp.toNat, h.gn.toNat, h.ch.toNat, 0, 0, 0, 0, 0, 0, 0, 0⟩

def encO : Opnd → Nat
  | .s n => n.toNat
  | .v n => 0x400 + n.toNat
  | .l n => 0x500 + n.toNat
  | .imm i => 0x600 + i.toNat
def encV (n : VReg) : Nat := 0x400 + n.toNat
def encD : Dst → Nat
  | .s n => n.toNat
  | .v n => 0x400 + n.toNat
  | .none => 0x7FF
def encWs : Dst → Nat
  | .none => 1
  | _ => 0
def encOV : Option VReg → Nat
  | some n => encV n
  | none => 0x7FF
def encOS : Option SReg → Nat
  | some n => n.toNat
  | none => 0x7FF
def encOWs {α : Type} : Option α → Nat
  | some _ => 0
  | none => 1
def encC (d : CmpDst) : Nat := d.c.toNat + 16 * d.k.toNat

def encAC : AC → Nat
  | .x => 0 | .t => 1 | .l => 2
def encFTy : FTy → Nat
  | .f32 => 0 | .f16 => 1 | .bf16 => 2
def encCond : Cond → Nat
  | .eq => 0 | .ne => 1 | .lt => 2 | .le => 3 | .gt => 4 | .ge => 5 | .un => 6 | .ord => 7
def encIW : IWidth → Nat
  | .w32 => 0 | .w16 => 1 | .w8 => 2
def encComb : Comb → Nat
  | .all => 0 | .any => 1 | .lo => 2 | .hi => 3
def encRed : RedOp → Nat
  | .add => 0 | .min => 1 | .max => 2 | .and => 3 | .or => 4 | .xor => 5
def encLane : LaneMode → Nat
  | .idx => 0 | .xor => 1 | .rot => 2
def encCTy : CTy → Nat
  | .i32 => 0 | .n32 => 1 | .i16 => 2 | .n16 => 3 | .i8 => 4 | .n8 => 5 | .f32 => 6 | .f16 => 7 | .bf16 => 8
def encRM : Option RMode → Nat
  | none => 0 | some .rne => 4 | some .rtz => 5 | some .rup => 6 | some .rdn => 7
def encPack : PackMode → Nat
  | .b16 => 0 | .f16x2 => 1 | .bf16x2 => 2
def encUnpack : UnpackKind → Nat
  | .b16 => 0 | .i16 => 1 | .f16 => 2 | .bf16 => 3
def encMFmt : MFmt → Nat
  | .fp16 => 0 | .bf16 => 1 | .fp32 => 2 | .int8 => 3 | .sb2 => 4 | .sb4 => 5 | .sb7 => 6 | .hs4 => 7 | .hs8 => 8
def encMAcc : MAcc → Nat
  | .fp32 => 0 | .int32 => 1
def encLTy : LTy → Nat
  | .n32 => 0 | .i8 => 1 | .n8 => 2 | .i16 => 3 | .n16 => 4
def encPath : Path → Nat
  | .C => 0 | .G => 1 | .A => 2 | .F => 3 | .M => 4 | .I => 5 | .S => 6
def encBuf : Buf → Nat
  | .x => 0 | .w => 1
def encBar : Bar → Nat
  | .b n => n.toNat | .bcl => 16
def encBSel : BSel → Nat
  | .exp => 0 | .arr => 1 | .gen => 2 | .bytes => 3 | .stat => 4 | .out => 5 | .wait => 6 | .pend => 7
def encScope : Scope → Nat
  | .grp => 0 | .team => 1 | .clu => 2 | .dev => 3 | .sys => 4
def encAOp : AOp → Nat
  | .add => 0 | .min => 1 | .max => 2 | .and => 3 | .or => 4 | .xor => 5 | .exch => 6 | .inc => 7 | .dec => 8
def encATy : ATy → Nat
  | .i32 => 0 | .n32 => 1 | .f32 => 2
def encCredTy : CredTy → Nat
  | .i32 => 0 | .n32 => 1 | .f32 => 2 | .bf16 => 3
def encColl : CollOp → Nat
  | .allreduce => 0 | .redscat => 1 | .allgather => 2 | .bcast => 3 | .alltoall => 4 | .barrier => 5
def encCollTy : CollTy → Nat
  | .i32 => 0 | .f32 => 1 | .bf16 => 2 | .f16 => 3
def encCSel : CSel → Nat
  | .val => 0 | .fail => 1 | .cause => 2 | .armed => 3
def encGSel : GSel → Nat
  | .seq => 0 | .own => 1 | .mcid => 2 | .word => 3 | .count => 4 | .abort => 5 | .frank => 6 | .path => 7
def encPSel : PSel → Nat
  | .n => 0 | .l => 1 | .flags => 2 | .w => 3 | .p => 4 | .parent => 5 | .first => 6 | .cnt => 7 | .depth => 8
  | .act => 9 | .pid => 10
def encSp : SpReg → Nat
  | .lane => 0 | .width => 1 | .group => 2 | .team => 3 | .core => 4 | .die => 5 | .rank => 6 | .cluster => 7
  | .clpos => 8 | .grid => 9 | .fmt => 10 | .flg => 11 | .tags => 12 | .clock => 13 | .gtime => 14 | .pc => 15
  | .hbase => 16 | .ctx => 17 | .fqbase => 18
def encTr : TrField → Nat
  | .cls => 0 | .sub => 1 | .lanes => 2 | .epc => 3 | .cpc => 4 | .mode => 5 | .lwlo => 6 | .lwhi => 7 | .code => 8
  | .chpos => 9 | .cmask => 10 | .depth => 11 | .scr n => 16 + n.toNat

/-- Operand modifiers from bit `i` up (R116). -/
def encMods (m : FMods) (i : Nat) : Nat :=
  2 ^ i * (m.negA.toNat + 2 * m.absA.toNat + 4 * m.negB.toNat + 8 * m.absB.toNat)
/-- Modifiers of operand C in MOD. -/
def encModC (negC absC : Bool) : Nat := 2 ^ 11 * (negC.toNat + 2 * absC.toNat)

/-- One destination, two sources. -/
def rDab (op : Nat) (h : Hdr) (d : Dst) (a b : Opnd) (fn : Nat) : Raw :=
  { rawH 0 op h with ws := encWs d, d := encD d, a := encO a, b := encO b, fn := fn }
/-- One destination, one source and IMM32. -/
def rDai (op : Nat) (h : Hdr) (d : Dst) (a : Opnd) (imm : Word) (fn : Nat) : Raw :=
  { rawH 1 op h with ws := encWs d, d := encD d, a := encO a, fn := fn, hi := imm.toNat }
/-- One destination, one source. -/
def rDa (op : Nat) (h : Hdr) (d : Dst) (a : Opnd) (fn : Nat) : Raw :=
  { rawH 0 op h with ws := encWs d, d := encD d, a := encO a, fn := fn }
/-- One destination, three sources, MOD. -/
def rDabc (op : Nat) (h : Hdr) (d : Dst) (a b c : Opnd) (fn mod : Nat) : Raw :=
  { rawH 1 op h with ws := encWs d, d := encD d, a := encO a, b := encO b, fn := fn, hi := encO c + mod }
/-- One destination alone. -/
def rD (op : Nat) (h : Hdr) (d : Dst) (fn : Nat) : Raw := { rawH 0 op h with ws := encWs d, d := encD d, fn := fn }
/-- A compare destination and two sources. -/
def rCab (op : Nat) (h : Hdr) (d : CmpDst) (a b : Opnd) (fn : Nat) : Raw :=
  { rawH 0 op h with d := encC d, a := encO a, b := encO b, fn := fn }
def rCai (op : Nat) (h : Hdr) (d : CmpDst) (a : Opnd) (imm : Word) (fn : Nat) : Raw :=
  { rawH 1 op h with d := encC d, a := encO a, fn := fn, hi := imm.toNat }
/-- Fields D, A, B and FN as numbers. -/
def rN (op : Nat) (h : Hdr) (d a b fn : Nat) : Raw := { rawH 0 op h with d := d, a := a, b := b, fn := fn }
/-- The same with what lies above bit 63. -/
def rX (len op : Nat) (h : Hdr) (d a b fn hi : Nat) : Raw := { rawH len op h with d := d, a := a, b := b, fn := fn, hi := hi }

/-- Field B, EXT 31:0 and the flag of FN bit 62 of a 1D length (R165). -/
def encLenB : CopyLen → Nat
  | .opnd n => encO n | .ext _ => 0
def encLenX : CopyLen → Nat
  | .opnd _ => 0 | .ext n => n.toNat
def encLenF : CopyLen → Nat
  | .opnd _ => 0 | .ext _ => 2 ^ 9
def encCBar : Option (BitVec 4) → Nat
  | some n => n.toNat | none => 31

/-- SHAPE, field B, EXT 31:0 and the length flag of a copy's shape. -/
def encShape : CopyShape → Nat × Nat × Nat × Nat
  | .d1 n => (0, encLenB n, encLenX n, encLenF n)
  | .d2 m => (1, m.toNat, 0, 0)
  | .d3 m => (2, m.toNat, 0, 0)
  | .layout => (3, 0, 0, 0)
def encRShape : RegShape → Nat × Nat × Nat × Nat
  | .d1 n => (0, encLenB n, encLenX n, encLenF n)
  | .d2 m => (1, m.toNat, 0, 0)
  | .d3 m => (2, m.toNat, 0, 0)

def encABaseA : ABase → Nat
  | .ext p => p.toNat | .loc _ b => encO b
def encABaseSp : ABase → Nat
  | .ext _ => 0 | .loc .x _ => 1 | .loc .w _ => 2

def encGBaseA : GBase → Nat
  | .ext p => p.toNat | .clu a => a.toNat
def encGBaseF : GBase → Nat
  | .ext _ => 0 | .clu _ => 8

/-- EXT of `MLOOP` and `MSTEP` (R146). -/
def encMX (m : MOps) : Nat :=
  encO m.astride + 2 ^ 11 * encO m.n + 2 ^ 22 * (match m.map with | some s => s.toNat | none => 0x600)
    + 2 ^ 33 * (match m.ovr with | some o => encMFmt o.af + 2 ^ 4 * encMFmt o.bf + 2 ^ 8 * encMAcc o.acc | none => 0)
    + 2 ^ 43 * m.klen.toNat
def rM (op : Nat) (h : Hdr) (m : MOps) (fn : Nat) : Raw :=
  { rX 2 op h (encV m.vc) (encV m.vb) (encO m.a) (fn + (match m.ovr with | some _ => 2 ^ 8 | none => 0)) (encMX m) with
    ac := encAC m.ac }

/-- The old-value destination of `ACAS`: WS, D and EXT bit 30. -/
def encAcas : AcasDst → Nat × Nat × Nat
  | .one d => (encWs d, encD d, 0)
  | .pairS d => (0, d.toNat, 1)
  | .pairV d => (0, encV d, 1)
  | .none64 => (1, 0x7FF, 1)

def encTQ : TQSel → Nat × Nat
  | .regS n => (0, n.toNat)
  | .regV n => (0, encV n)
  | .pred k => (1, 0x600 + k.toNat)
  | .xline a => (2, encO a)
  | .wline a => (3, encO a)
  | .slot a => (4, encO a)
  | .state a => (5, encO a)
  | .undo => (6, 0)
  | .held => (7, 0)

def encFKind : FenceKind → Nat
  | .acq => 0 | .rel => 1 | .ar => 2
def encPN (p : CmpDst) : Nat := p.c.toNat + 16 * p.k.toNat

/-- A remote operation's hi part: field C and MOD with window and predicates (R238). -/
def encRem (c : Nat) (win : BitVec 12) (p : CmpDst) : Nat :=
  c + 2 ^ 11 * (win.toNat + 2 ^ 12 * p.c.toNat + 2 ^ 16 * p.k.toNat)

/-- EXT of `MBREG.bind` (R248). -/
def encBind (f : BindF) : Nat :=
  f.width.toNat + 2 ^ 2 * f.vregs1.toNat + 2 ^ 10 * f.sregs1.toNat + 2 ^ 20 * f.xtiles.toNat + 2 ^ 30 * f.wtiles.toNat
    + 2 ^ 41 * f.barriers.toNat + 2 ^ 46 * f.sup.toNat

/-- FN and EXT of `COLL` (R261). -/
def encCollFn (f : CollF) : Nat := encColl f.op + 8 * encCollTy f.ty + 32 * encRed f.red + 256 * f.sb7.toNat
def encCollX (f : CollF) (count : Opnd) : Nat :=
  encO count + 2 ^ 11 * f.entry.toNat + 2 ^ 19 * f.win.toNat + 2 ^ 31 * f.sbase.toNat + 2 ^ 39 * f.slog.toNat
    + 2 ^ 43 * f.root.toNat + 2 ^ 53 * f.cn.toNat + 2 ^ 59 * f.raise.toNat

/-- EXT of `TSEND` (R276). -/
def encTsX (f : TSendF) (thr : Opnd) : Nat :=
  encO thr + 2 ^ 11 * f.win.toNat + 2 ^ 23 * f.n4.toNat + 2 ^ 39 * f.ct.toNat + 2 ^ 45 * f.ctOn.toNat
    + 2 ^ 46 * f.cl.toNat + 2 ^ 52 * f.clOn.toNat

/-- An instruction with no header fields. -/
def noHdr : Hdr := ⟨0, false, false⟩

/-- Control instructions. -/
def encRawControl : Instr → Option Raw
  | .nop => some (rN 0x00 noHdr 0 0 0 0)
  | .bra h off => some (rX 1 0x01 h 0 0 0 0 off.toNat)
  | .brx h a => some (rN 0x02 h 0 a.toNat 0 0)
  | .call h d off => some (rX 1 0x03 h d.toNat 0 0 0 off.toNat)
  | .callx h d a => some (rN 0x04 h d.toNat a.toNat 0 0)
  | .ret h a => some (rN 0x05 h 0 a.toNat 0 0)
  | .mark off => some (rX 1 0x06 noHdr 0 0 0 0 off.toNat)
  | .join => some (rN 0x07 noHdr 0 0 0 0)
  | .exit h => some (rN 0x08 h 0 0 0 0)
  | .yield h => some (rN 0x09 h 0 0 0 0)
  | .sleep h b => some (rN 0x0A h 0 0 (encO b) 0)
  | .sleepImm h imm => some (rX 1 0x0A h 0 0 0 0 imm.toNat)
  | .setfmt h sel b => some (rN 0x0B h 0 0 (encO b) sel.toNat)
  | .setfmtImm h sel imm => some (rX 1 0x0B h 0 0 0 sel.toNat imm.toNat)
  | .getfmt h d => some (rD 0x0C h d 0)
  | .brk h code => some (rN 0x0D h 0 0 0 code.toNat)
  | _ => none

/-- Integer, lane and integer-compare instructions. -/
def encRawInt : Instr → Option Raw
  | .iadd h d a b n t => some (rDab 0x10 h d a b (n.toNat + 2 * t.toNat))
  | .iaddImm h d a i n t => some (rDai 0x10 h d a i (n.toNat + 2 * t.toNat))
  | .isub h d a b n t => some (rDab 0x11 h d a b (n.toNat + 2 * t.toNat))
  | .isubImm h d a i n t => some (rDai 0x11 h d a i (n.toNat + 2 * t.toNat))
  | .imul h ac d a b n t => some { rDab 0x12 h d a b (n.toNat + 2 * t.toNat) with ac := encAC ac }
  | .imulImm h ac d a i n t => some { rDai 0x12 h d a i (n.toNat + 2 * t.toNat) with ac := encAC ac }
  | .imulh h ac d a b n => some { rDab 0x13 h d a b n.toNat with ac := encAC ac }
  | .imulhImm h ac d a i n => some { rDai 0x13 h d a i n.toNat with ac := encAC ac }
  | .imad h ac d a b c n t => some { rDabc 0x14 h d a b c (n.toNat + 2 * t.toNat) 0 with ac := encAC ac }
  | .idiv h d a b n t => some (rDab 0x15 h d a b (n.toNat + 2 * t.toNat))
  | .idivImm h d a i n t => some (rDai 0x15 h d a i (n.toNat + 2 * t.toNat))
  | .irem h d a b n t => some (rDab 0x16 h d a b (n.toNat + 2 * t.toNat))
  | .iremImm h d a i n t => some (rDai 0x16 h d a i (n.toNat + 2 * t.toNat))
  | .imin h d a b n => some (rDab 0x17 h d a b (2 * n.toNat))
  | .iminImm h d a i n => some (rDai 0x17 h d a i (2 * n.toNat))
  | .imax h d a b n => some (rDab 0x17 h d a b (1 + 2 * n.toNat))
  | .imaxImm h d a i n => some (rDai 0x17 h d a i (1 + 2 * n.toNat))
  | .iabs h d a t => some (rDa 0x18 h d a t.toNat)
  | .ineg h d a t => some (rDa 0x19 h d a t.toNat)
  | .and h d a b => some (rDab 0x1A h d a b 0)
  | .andImm h d a i => some (rDai 0x1A h d a i 0)
  | .or h d a b => some (rDab 0x1B h d a b 0)
  | .orImm h d a i => some (rDai 0x1B h d a i 0)
  | .xor h d a b => some (rDab 0x1C h d a b 0)
  | .xorImm h d a i => some (rDai 0x1C h d a i 0)
  | .not h d a => some (rDa 0x1D h d a 0)
  | .shl h d a b => some (rDab 0x1E h d a b 0)
  | .shr h d a b => some (rDab 0x1F h d a b 0)
  | .sar h d a b => some (rDab 0x20 h d a b 0)
  | .rotl h d a b => some (rDab 0x21 h d a b 0)
  | .popc h d a => some (rDa 0x22 h d a 0)
  | .clz h d a => some (rDa 0x23 h d a 0)
  | .bfx h d a b c n => some (rDabc 0x24 h d a b c n.toNat 0)
  | .bfi h d a b c => some (rDabc 0x25 h d a b c 0 0)
  | .sel h d a b k n => some (rDab 0x26 h d a b (k.toNat + 16 * n.toNat))
  | .icmp h d cc u w a b => some (rCab 0x27 h d a b (encCond cc + 16 * u.toNat + 32 * encIW w))
  | .icmpImm h d cc u w a i => some (rCai 0x27 h d a i (encCond cc + 16 * u.toNat + 32 * encIW w))
  | .add64 h d a b p => some (rN 0x28 h d.toNat a.toNat (encO b) p.toNat)
  | .lea64 h d (.abs a) => some (rX 2 0x29 h d.toNat 0 0 0 a.toNat)
  | .lea64 h d (.rel off) => some (rX 2 0x29 h d.toNat 0 0 1 off.toNat)
  | .lea64 h d (.base a off) => some (rX 2 0x29 h d.toNat a.toNat 0 2 off.toNat)
  | .mov h d a => some (rDa 0x2A h d a 0)
  | .movi h d i => some { rD 0x2B h d 0 with len := 1, hi := i.toNat }
  | .lane h d m a b => some (rDab 0x2C h d a b (encLane m))
  | .ballot h d b k n => some { rD 0x2D h d (n.toNat + 2 * b.toNat) with a := k.toNat }
  | .vote h d (.all j) => some (rN 0x2E h (encC d) j.toNat 0 0)
  | .vote h d (.any j) => some (rN 0x2E h (encC d) j.toNat 0 1)
  | .vote h d (.uni a) => some (rN 0x2E h (encC d) (encO a) 0 2)
  | .gred h d op n a => some (rDa 0x2F h d a (encRed op + 8 * n.toNat))
  | _ => none

/-- Floating instructions. -/
def encRawFloat : Instr → Option Raw
  | .fadd h d t a b m => some (rDab 0x30 h d a b (encFTy t + encMods m 2))
  | .faddImm h d t a i m => some (rDai 0x30 h d a i (encFTy t + encMods m 2))
  | .fsub h d t a b m => some (rDab 0x31 h d a b (encFTy t + encMods m 2))
  | .fsubImm h d t a i m => some (rDai 0x31 h d a i (encFTy t + encMods m 2))
  | .fmul h ac d t a b m => some { rDab 0x32 h d a b (encFTy t + encMods m 2) with ac := encAC ac }
  | .fmulImm h ac d t a i m => some { rDai 0x32 h d a i (encFTy t + encMods m 2) with ac := encAC ac }
  | .ffma h ac d t a b c m nc bc => some { rDabc 0x33 h d a b c (encFTy t + encMods m 2) (encModC nc bc) with ac := encAC ac }
  | .fmin h d t a b m => some (rDab 0x34 h d a b (encFTy t + encMods m 2))
  | .fminImm h d t a i m => some (rDai 0x34 h d a i (encFTy t + encMods m 2))
  | .fmax h d t a b m => some (rDab 0x35 h d a b (encFTy t + encMods m 2))
  | .fmaxImm h d t a i m => some (rDai 0x35 h d a i (encFTy t + encMods m 2))
  | .fcmp h d cc t a b => some (rCab 0x36 h d a b (encCond cc + 16 * encFTy t))
  | .fcmpImm h d cc t a i => some (rCai 0x36 h d a i (encCond cc + 16 * encFTy t))
  | .frcp h d t a n b => some (rDa 0x37 h d a (encFTy t + 4 * n.toNat + 8 * b.toNat))
  | .frsq h d t a n b => some (rDa 0x38 h d a (encFTy t + 4 * n.toNat + 8 * b.toNat))
  | .fsqrt h d t a n b => some (rDa 0x39 h d a (encFTy t + 4 * n.toNat + 8 * b.toNat))
  | .fexp2 h d t a n b => some (rDa 0x3A h d a (encFTy t + 4 * n.toNat + 8 * b.toNat))
  | .flog2 h d t a n b => some (rDa 0x3B h d a (encFTy t + 4 * n.toNat + 8 * b.toNat))
  | .ftanh h d t a n b => some (rDa 0x3C h d a (encFTy t + 4 * n.toNat + 8 * b.toNat))
  | .fclass h d t a n b => some (rDa 0x3D h d a (encFTy t + 4 * n.toNat + 8 * b.toNat))
  | .hadd2 h d f a b m => some (rDab 0x3E h d a b (f.toNat + encMods m 1))
  | .hadd2Imm h d f a i m => some (rDai 0x3E h d a i (f.toNat + encMods m 1))
  | .hmul2 h ac d f a b m => some { rDab 0x3F h d a b (f.toNat + encMods m 1) with ac := encAC ac }
  | .hmul2Imm h ac d f a i m => some { rDai 0x3F h d a i (f.toNat + encMods m 1) with ac := encAC ac }
  | .hfma2 h ac d f a b c m nc bc => some { rDabc 0x40 h d a b c (f.toNat + encMods m 1) (encModC nc bc) with ac := encAC ac }
  | .hmin2 h d f a b m => some (rDab 0x41 h d a b (f.toNat + encMods m 1))
  | .hmin2Imm h d f a i m => some (rDai 0x41 h d a i (f.toNat + encMods m 1))
  | .hmax2 h d f a b m => some (rDab 0x42 h d a b (f.toNat + encMods m 1))
  | .hmax2Imm h d f a i m => some (rDai 0x42 h d a i (f.toNat + encMods m 1))
  | .hcmp2 h d cc f cb a b => some (rCab 0x43 h d a b (encCond cc + 16 * f.toNat + 32 * encComb cb))
  | .hcmp2Imm h d cc f cb a i => some (rCai 0x43 h d a i (encCond cc + 16 * f.toNat + 32 * encComb cb))
  | .fsum h d t a => some (rDa 0x44 h d a (encFTy t))
  | .cvt h d dt st m a => some (rDa 0x50 h d a (encCTy dt + 16 * encCTy st + 256 * encRM m))
  | .pack h d m a b => some (rDab 0x51 h d a b (encPack m))
  | .unpack h d k hi a => some (rDa 0x52 h d a (hi.toNat + 2 * encUnpack k))
  | .quant h d f t a => some { rN 0x53 h (encOV d) (encV a) 0 (encMFmt f + 16 * encFTy t) with ws := encOWs d }
  | .qsplit h d t a thr c nb => some
      { rX 1 0x54 h (encOV d) (encV a) (encO thr) (16 * encFTy t) (encV c + 2 ^ 11 * nb.toNat) with ws := encOWs d }
  | .dequant h d t f a => some { rN 0x55 h (encOV d) (encV a) 0 (encMFmt f + 16 * encFTy t) with ws := encOWs d }
  | _ => none

/-- Matrix, local, copy, gather and barrier instructions. -/
def encRawData : Instr → Option Raw
  | .mloop h m bs => some (rM 0x60 h m bs.toNat)
  | .mstep h m => some (rM 0x61 h m 0)
  | .mzero h d n => some (rN 0x62 h (encV d) 0 (encO n) 0)
  | .mdup h d pos m b => some { rD 0x63 h d pos.toNat with a := m.toNat, b := encO b }
  | .mqry h d => some (rD 0x64 h d 0)
  | .mreset h a => some (rN 0x65 h 0 (encO a) 0 0)
  | .ldx h d ty a b => some (rDab 0x70 h d a b (encLTy ty))
  | .stx h x ty a b => some (rN 0x71 h (encO x) (encO a) (encO b) (encLTy ty))
  | .ldw h d ty a b => some (rDab 0x72 h d a b (encLTy ty))
  | .stw h x ty a b => some (rN 0x73 h (encO x) (encO a) (encO b) (encLTy ty))
  | .tgive h f a n => some (rN 0x74 h 0 (encO a) (encO n) (encBuf f))
  | .ttake h f a n => some (rN 0x75 h 0 (encO a) (encO n) (encBuf f))
  | .waitp h p t => some (rN 0x76 h 0 (encO t) 0 (encPath p))
  | .pcnt h d p => some (rD 0x77 h d (encPath p))
  | .copy h d e f out sh bar mbx post =>
    let x := encShape sh
    some (rX 2 0x80 h (encO d) e.toNat x.2.1 (encBuf f + 2 * out.toNat + 4 * x.1 + 16 * encCBar bar + x.2.2.2)
      (x.2.2.1 + 2 ^ 32 * mbx.toNat + 2 ^ 44 * post.toNat))
  | .creg h d e sh =>
    let x := encRShape sh
    some { rX 2 0x81 h (encD d) e.toNat x.2.1 (4 * x.1 + x.2.2.2) x.2.2.1 with ws := encWs d }
  | .cunreg h a => some (rN 0x82 h 0 a.toNat 0 0)
  | .creplay h a => some (rN 0x83 h 0 a.toNat 0 0)
  | .creplayDrop h a => some (rN 0x83 h 0 a.toNat 0 1)
  | .cred h d e f op ty n bar mbx post =>
    some (rX 2 0x84 h (encO d) e.toNat (encLenB n) (encBuf f + 2 * encRed op + 16 * encCBar bar + encLenF n)
      (encLenX n + 2 ^ 32 * mbx.toNat + 2 ^ 44 * post.toNat + 2 ^ 45 * encCredTy ty))
  | .gath h d ty b off => some { rN 0x85 h (encD d) (encGBaseA b) (encO off) (encLTy ty + encGBaseF b) with ws := encWs d }
  | .scat h x ty b off => some (rN 0x86 h (encO x) (encGBaseA b) (encO off) (encLTy ty + encGBaseF b))
  | .binit h b n => some (rN 0x87 h 0 0 (encO n) b.toNat)
  | .binitImm h b i => some (rX 1 0x87 h 0 0 0 b.toNat i.toNat)
  | .barr h b => some (rN 0x88 h 0 0 0 (encBar b))
  | .bwait h d b g => some (rN 0x89 h (encC d) (encO g) 0 (encBar b))
  | .barw h d b => some (rN 0x8A h (encC d) 0 0 (encBar b))
  | .binv h b => some (rN 0x8B h 0 0 0 b.toNat)
  | .bqry h d sel b => some (rD 0x8C h d (encBar b + 32 * encBSel sel))
  | _ => none

/-- FN of `ATOM` and `ARED` (R320). -/
def encAtomFn (op : AOp) (ty : ATy) (b : ABase) (sc : Scope) : Nat :=
  encAOp op + 16 * encATy ty + 64 * encABaseSp b + 256 * encScope sc

/-- Atomics, fences, race log, assumptions, handles, mailboxes, queues. -/
def encRawSync : Instr → Option Raw
  | .atom h d op ty b off sc v o => some
      { rX 1 0x90 h (encD d) (encABaseA b) (encO off) (encAtomFn op ty b sc) (encO v + 2 ^ 11 * o.toNat) with ws := encWs d }
  | .acas h d b off cm nw p sc o =>
    let x := encAcas d
    some { rX 2 0x91 h x.2.1 (encABaseA b) (encO off) 0
        (encO cm + 2 ^ 11 * encO nw + 2 ^ 22 * encPN p + 2 ^ 30 * x.2.2 + 2 ^ 31 * encABaseSp b + 2 ^ 33 * encScope sc
          + 2 ^ 36 * o.toNat) with ws := x.1 }
  | .ared h op ty b off sc v o =>
    some (rX 1 0x92 h 0 (encABaseA b) (encO off) (encAtomFn op ty b sc) (encO v + 2 ^ 11 * o.toNat))
  | .fence h k sc => some (rN 0x93 h 0 0 0 (encScope sc + 8 * encFKind k))
  | .fenceCode h => some (rN 0x93 h 0 0 0 24)
  | .raceqHead h d => some (rD 0x94 h d 0)
  | .raceqBase h a => some (rN 0x94 h 0 a.toNat 0 1)
  | .guess h d v n i w => some (rX 2 0xA0 h d.toNat (encO v) n.toNat 0 (i.toNat + 2 ^ 11 * w.toNat))
  | .guessN h d v i off => some (rX 2 0xA0 h d.toNat (encO v) 0 1 (i.toNat + 2 ^ 15 * off.toNat))
  | .affirm h p a => some (rN 0xA1 h (encC p) (encO a) 0 0)
  | .deny h p a => some (rN 0xA2 h (encC p) (encO a) 0 0)
  | .tqry h d sel => some { rD 0xA3 h d (encTQ sel).1 with a := (encTQ sel).2 }
  | .twait h => some (rN 0xA4 h 0 0 0 0)
  | .invoke h d w rank mbx n1 p core => some
      { rX 2 0xB0 h (encOS d) w.toNat (encO rank) (encPN p + 256 * (1 - encOWs core))
          (mbx.toNat + 2 ^ 12 * n1.toNat + 2 ^ 16 * (core.elim 0 BitVec.toNat)) with ws := encOWs d }
  | .invh h d w up mbx n1 p => some
      { rX 2 0xB1 h (encOS d) w.toNat up.toNat (encPN p) (mbx.toNat + 2 ^ 12 * n1.toNat) with ws := encOWs d }
  | .hwait h f p a => some (rN 0xB2 h (encC p) a.toNat 0 (match f with | .plain => 0 | .trap => 2))
  | .hwaitPark h p a m n => some (rN 0xB2 h (encC p) a.toNat m.toNat (1 + 4 * n.toNat))
  | .hget h st p d a n => some (rN 0xB3 h d.toNat a.toNat (if st then 0 else encO n) (encPN p + 256 * st.toNat))
  | .hdrop h a => some (rN 0xB4 h 0 a.toNat 0 0)
  | .mbregBind h m e f => some (rX 2 0xB5 h (encO m) e.toNat 0 0 (encBind f))
  | .mbregOpen h m => some (rX 2 0xB5 h (encO m) 0 0 1 0)
  | .mbregClose h m => some (rX 2 0xB5 h (encO m) 0 0 2 0)
  | .msend h p w rank mbx n1 => some (rX 1 0xB6 h (encC p) w.toNat (encO rank) 0 (encO mbx + 2 ^ 11 * n1.toNat))
  | .mrecv h w p d m => some (rN 0xB7 h d.toNat (encO m) 0 (encPN p + 256 * w.toNat))
  | .qpush h p m q => some (rN 0xB8 h (encC p) m.toNat (encO q) 0)
  | .qpop h p d q => some (rN 0xB9 h d.toNat (encO q) 0 (encPN p))
  | .qwait h q => some (rN 0xBA h 0 (encO q) 0 0)
  | .notify h c => some (rN 0xBB h 0 (encO c) 0 0)
  | .launch h p d (.pair a) => some (rX 2 0xBC h d.toNat a.toNat 0 (encPN p) 0)
  | .launch h p d (.label off) => some (rX 2 0xBC h d.toNat 0 0 (encPN p + 256) off.toNat)
  | _ => none

/-- What `PRQRY` names: the tree, field B and FN. -/
def encPQ : PQForm → Nat × Nat × Nat
  | .node sel t n => (t.toNat, encO n, encPSel sel)
  | .root t => (t.toNat, 0, 11)
  | .count t => (t.toNat, 0, 12)
  | .free t => (t.toNat, 0, 13)
  | .cap t => (t.toNat, 0, 14)
  | .stat => (0, 0, 15)

/-- Fabric, collective, triggered-send, Praline and system instructions. -/
def encRawFar : Instr → Option Raw
  | .rput h p ty win r off v => some (rX 1 0xC0 h 0 (encO r) (encO off) (encLTy ty) (encRem (encO v) win p))
  | .rget h p d ty win r off => some
      { rX 1 0xC1 h (encD d) (encO r) (encO off) (encLTy ty) (encRem 0 win p) with ws := encWs d }
  | .rred h p op ty win r off v =>
    some (rX 1 0xC2 h 0 (encO r) (encO off) (encRed op + 8 * encATy ty) (encRem (encO v) win p))
  | .mcst h d e win roff a n b => some
      { rX 2 0xC3 h (encD d) (encO a) (encO b) 0 (e.toNat + 2 ^ 8 * win.toNat + 2 ^ 20 * n.toNat + 2 ^ 33 * roff.toNat) with
        ws := encWs d }
  | .coll h d f a b n => some (rX 2 0xC4 h d.toNat (encO a) (encO b) (encCollFn f) (encCollX f n))
  | .tsend h f thr r roff src => some (rX 2 0xC5 h (encO roff) src.toNat (encO r) f.cn.toNat (encTsX f thr))
  | .ctset h n add v => some (rN 0xC7 h 0 0 (encO v) (n.toNat + 64 * add.toNat))
  | .ctsetImm h n add i => some (rX 1 0xC7 h 0 0 0 (n.toNat + 64 * add.toNat) i.toNat)
  | .ctrd h d sel n => some (rD 0xC6 h d (n.toNat + 64 * encCSel sel))
  | .ctwait h n t => some (rN 0xC8 h 0 (encO t) 0 n.toNat)
  | .gsetFull h e p q m => some (rX 2 0xC9 h (encO e) p.toNat (encO q) 0 m.toNat)
  | .gsetSeq h e q => some (rX 2 0xC9 h (encO e) 0 (encO q) 1 0)
  | .gsetClear h e => some (rX 2 0xC9 h (encO e) 0 0 2 0)
  | .gqry h d sel e k => some (rDab 0xCA h d e k (encGSel sel))
  | .prnew h d pool cap m => some { rX 2 0xD0 h (encD d) pool.toNat (encO cap) 0 m.toNat with ws := encWs d }
  | .prdesc h d t k => some (rN 0xD1 h (encV d) t.toNat (encO k) 0)
  | .prexp h p t leaf n vp => some (rX 1 0xD2 h (encC p) t.toNat (encO leaf) 0 (encV vp + 2 ^ 11 * encO n))
  | .prback h t vl vv => some (rX 1 0xD3 h 0 t.toNat (encV vl) 0 (encV vv))
  | .prroot h p t c => some (rN 0xD4 h (encC p) t.toNat (encO c) 0)
  | .prbest h d t => some { rD 0xD5 h d 0 with a := t.toNat }
  | .prqry h d f => some { rD 0xD6 h d (encPQ f).2.2 with a := (encPQ f).1, b := (encPQ f).2.1 }
  | .prfree h t => some (rN 0xD7 h 0 t.toNat 0 0)
  | .scall h d code a => some (rN 0xE0 h (encV d) (encO a) 0 code.toNat)
  | .rft h => some (rN 0xE1 h 0 0 0 0)
  | .rftNext h => some (rN 0xE1 h 0 0 0 1)
  | .rftTo h a => some (rN 0xE1 h 0 a.toNat 0 2)
  | .rftRep h a => some (rN 0xE1 h 0 (encV a) 0 3)
  | .mfs h (.sp r d) => some (rD 0xE2 h d (encSp r))
  | .mfs h (.sp64 r d) => some (rN 0xE2 h d.toNat 0 0 (encSp r))
  | .mfs h (.tr f d) => some (rD 0xE2 h d (encTr f + 64))
  | .mfs h (.tr64 f d) => some (rN 0xE2 h d.toNat 0 0 (encTr f + 64))
  | .mts h (.fmt a) => some (rN 0xE3 h 0 (encO a) 0 0x0A)
  | .mts h (.flg a) => some (rN 0xE3 h 0 (encO a) 0 0x0B)
  | .mts h (.hbase a) => some (rN 0xE3 h 0 a.toNat 0 0x10)
  | .mts h (.fqbase a) => some (rN 0xE3 h 0 a.toNat 0 0x12)
  | .mts h (.scr n a) => some (rN 0xE3 h 0 (encO a) 0 (64 + 16 + n.toNat))
  | .rdclk h d => some (rN 0xE4 h d.toNat 0 0 0)
  | .rdtim h d => some (rN 0xE5 h d.toNat 0 0 0)
  | .settim h b => some (rN 0xE6 h 0 0 (encO b) 0)
  | .settimImm h i => some (rX 1 0xE6 h 0 0 0 0 i.toNat)
  | .vinv h (.page a) => some (rN 0xE7 h 0 a.toNat 0 0)
  | .vinv h .ctx => some (rN 0xE7 h 0 0 0 1)
  | .vinv h .dev => some (rN 0xE7 h 0 0 0 2)
  | .quiesOld h d => some (rN 0xE8 h d.toNat 0 0 0)
  | .quiesCur h d => some (rN 0xE8 h d.toNat 0 0 1)
  | .fltq h d => some (rN 0xE9 h d.toNat 0 0 0)
  | .ctxswSave h d a => some (rDa 0xEA h d a 0)
  | .ctxswRest h d a => some (rDa 0xEA h d a 1)
  | .ctxswQry h d a => some (rDa 0xEA h d a 2)
  | _ => none

/-- The fields of an encoded instruction; none for a step that no word encodes. -/
def encRaw (i : Instr) : Option Raw :=
  (encRawControl i).orElse fun _ => (encRawInt i).orElse fun _ => (encRawFloat i).orElse fun _ =>
    (encRawData i).orElse fun _ => (encRawSync i).orElse fun _ => encRawFar i

/-- The word of a well-formed encoded instruction, and its length in bytes. -/
def encode (i : Instr) : Option (Nat × Nat) := (encRaw i).map fun r => (packRaw r, lenBytes r.len)

end Sys2Proof
end

