-- ==== Sys2Proof/Config.lean ====
section
/-! DEFINITION. What one machine fixes, and the free values: opaque constants that nothing can evaluate. Each is
applied to the plain counter `State.free` or to the operands it depends on. -/

namespace Sys2Proof

/-- Which agent moves next: a resident group issues its next instruction, or an engine, a home, the firmware or the
outside world makes one step of spec/opcode_table.json. -/
inductive Turn where
  | issue (gid : Nat)
  | event (e : Instr)
  deriving DecidableEq, Repr

/-- Free value: the event that happens when the schedule in State names none (R34, R36, R182, R330: orders the spec
leaves open). A group issues only in a cycle of its sub-core (R19, R20). Log entry 3. -/
opaque Config.freeEvent : Nat → Option Instr

/-- Free value: the reference-clock ticks that pass during one arithmetic cycle (R35). Log entry 4. -/
opaque Config.freeTicks : Nat → Nat

/-- Free value: whether the instruction cache still holds a block it once filled (R318, R343). Log entry 5. -/
opaque Config.freeKeep : Nat → Bool

/-- Free value: any other 64 bits that the spec leaves open, by the number of the draw. Each use names its log entry. -/
opaque Config.freeWord : Nat → DWord

/-- Free value: the width code of an atomics service group (R12, R319). Log entry 89. -/
opaque Config.svcWidth : Nat → BitVec 2

/-- Free value: the SHAKE256 digest of a byte string (R398, R399); the spec names the function and gives no table. -/
opaque Config.shake256 : List Byte → List Byte

/-- Free value: the ML-DSA-65 signature of a digest under the package's identity key (R399). -/
opaque Config.mldsaSign : List Byte → List Byte

/-- Free value: the package's 16-byte serial number (R399). -/
opaque Config.serial : List Byte

/-- Free value: the PLDM device identifiers (R397): the spec names the command, not its contents. -/
opaque Config.deviceIds : List Byte

/-- Whether an arithmetic clock step is an excursion's end is firmware's to measure (R401); the step is 25 MHz. -/
def Config.clkMax : Nat := 1750

/-- Lowest arithmetic clock in MHz (R401). -/
def Config.clkMin : Nat := 500

/-- Throttling step in MHz (R401). -/
def Config.clkStep : Nat := 25

end Sys2Proof
end

