-- ==== Sys2Proof/Machine/State.lean ====
section
/-! DEFINITION. The state of one Gelset 9 package: everything the spec gives the machine, as plain data. Names follow
the spec. INVENTORY.md lists each field with its rule, width and reset value. -/

namespace Sys2Proof.Machine

/-! ## Groups (spec/02 R12, spec/04, spec/11 R209, spec/17) -/

/-- Roles of a group (R17, R21). -/
inductive Role where
  | computer | loader | storer
  deriving DecidableEq, Repr

/-- One entry of the mark-join stack (R78-R80). -/
structure Mark where
  join : DWord
  mask : Mask
  fmt : Word
  pmask : Mask
  ppc : DWord
  pfmt : Word
  deriving DecidableEq, Repr

/-- A latch value (R52): one scalar, or one word per lane. -/
inductive LatchV where
  | scalar (w : Word)
  | vector (ws : Sparse Word)
  deriving DecidableEq, Repr

/-- A latch with its tag mask (R286). -/
structure Latch where
  val : LatchV
  tag : Tags
  deriving DecidableEq, Repr

/-- The side buffer entry: a group's trap state (R209). -/
structure SideBuf where
  valid : Bool
  cls : Word
  sub : Word
  lanes : Mask
  epc : DWord
  cpc : DWord
  sup : Bool
  lw : Sparse DWord
  code : Word
  chpos : Word
  cmask : Mask
  depth : Word
  scr : Sparse Word
  fmt : Word
  latches : List Latch
  scallD : VReg
  sync : Bool              -- the class was synchronous (R214)
  clen : Nat               -- bytes of the causing instruction; 0 when it was not fetched (R214)
  deriving DecidableEq, Repr

/-- A trap that has fallen due and not been taken (R212), or a synchronous trap of a tainted group (R306). -/
structure TrapRec where
  cls : Nat
  sub : Nat
  lanes : Mask
  cpc : DWord
  lw : Sparse DWord
  code : Word
  scallD : VReg
  clen : Nat
  deriving DecidableEq, Repr

/-- Why a group is parked, or waits inside an instruction it has issued (R18). -/
inductive Park where
  | yielded                                             -- R83: not ready in the following cycle
  | sleep (deadline : DWord)                            -- R84
  | waitp (path : Path) (t : Nat)                       -- R140
  | bwait (bar : Bar) (gen : Word) (p : CmpDst) (tag : Tags)       -- R185
  | tgive (buf : Buf) (first n : Nat) (acc : List Nat) (seq : Nat)  -- R135: local accesses still to be performed
  | ttake (buf : Buf) (first n : Nat) (seq : Nat)       -- R135
  | qwait (q : Nat)                                     -- R366
  | hwait (op : Nat) (form : HWForm) (p : CmpDst) (hnd pc : DWord) (tag : Tags)  -- R361
  | hwaitPark (op : Nat) (p : CmpDst) (hnd : DWord) (m n : Nat) (tag : Tags)  -- R362: the home has not answered
  | twait                                               -- R310
  | ctwait (n : Nat) (t : Word)                         -- R275
  | mrecv (p : CmpDst) (d : SReg) (mbx : Nat) (pc : DWord) (tag : Tags)  -- R250
  | exitTainted (lanes : Mask)                          -- R306
  | trapTainted (t : TrapRec)                           -- R306
  | guess (op : Nat) (full : Bool) (d i : SReg) (hnd : DWord) (w : Nat) (val : Word) (pc : DWord) (t : Tags)  -- R291; `full`: no place at issue
  | answer (op : Nat)                                   -- HGET, AFFIRM, DENY (R294, R363)
  | fence                                               -- R366: a QPOP that completes as FENCE.acq.dev
  deriving DecidableEq, Repr

/-- A path-counter entry (R139): an operation issued on a path and not yet taken out of the count. -/
structure PathEnt where
  path : Path
  op : Nat
  done : Bool
  deriving DecidableEq, Repr

/-- How a restored group continues after a denial (R304 step 2). -/
inductive SnapKind where
  | guess (d i : SReg) (aid : Word)
  | guessN (label : DWord)
  | other
  deriving DecidableEq, Repr

/-- A snapshot (R289). `pend` holds the traps already due (R306), `opMark` the first operation number issued after it. -/
structure Snapshot where
  slot : Nat
  kind : SnapKind
  v : Sparse Word
  s : Sparse Word
  p : Sparse Mask
  vtag : Sparse Tags
  stag : Sparse Tags
  ptag : Sparse Tags
  latches : List Latch
  chpos : Nat
  ctl : Tags
  mask : Mask
  stack : List Mark
  fmt : Word
  flg : Word
  timer : Option DWord
  pc : DWord
  pend : List TrapRec
  opMark : Nat
  deriving DecidableEq, Repr

/-- A group (R12). -/
structure Group where
  gid : Nat
  tid : Nat
  num : Nat
  core : Nat
  slot : Nat
  role : Role
  width : Nat
  vregs : Nat
  sregs : Nat
  sup : Bool
  pc : DWord
  mask : Mask
  v : Sparse Word          -- key: register × 64 + lane
  s : Sparse Word
  p : Sparse Mask
  vtag : Sparse Tags
  stag : Sparse Tags
  ptag : Sparse Tags
  ctl : Tags
  dep : Tags
  snaps : List Snapshot    -- newest first
  stack : List Mark        -- top first
  fmt : Word
  flg : Word
  gtime : DWord
  timer : Option DWord
  inFlight : List PathEnt  -- oldest first
  sb : SideBuf
  pend : List TrapRec
  park : Option Park
  latches : List Latch     -- most recent first
  chpos : Nat
  pst : Word
  exited : Bool
  ended : Bool
  byExit : Bool
  age : Nat
  agedAt : Option Nat
  lastIssue : Nat          -- rank of the last issue (R19, R83)
  codeAt : Nat             -- `State.free` when its last `FENCE.code` completed (R318)
  poison : List Nat        -- poisoned 256-byte register lines of the image (R222)
  deriving DecidableEq, Repr

/-! ## Teams, clusters, grids (R13-R15, R21-R30) -/

/-- Fields of a named barrier (R181). -/
structure Barrier where
  expected : BitVec 16
  arrived : BitVec 16
  generation : Word
  bytes : Word
  status : BitVec 2
  outcome : BitVec 2
  deriving DecidableEq, Repr

/-- A tile's owner (R134, R135). -/
inductive Owner where
  | group | engine | pendingEngine | pendingGroup
  deriving DecidableEq, Repr

/-- States of a team slot (R285). -/
inductive SlotSt where
  | free | loc | imported | pending | draining | rollingBack
  deriving DecidableEq, Repr

/-- A team slot (R285). -/
structure TSlot where
  st : SlotSt
  aid : Word
  child : Bool
  deriving DecidableEq, Repr

/-- What an undo entry puts back (R296). -/
inductive UndoWhat where
  | line (buf : Buf) (line : Nat) (bytes : List Byte) (tag : Tags)
  | tile (buf : Buf) (tile : Nat) (o : Owner)
  deriving DecidableEq, Repr

/-- An undo-log entry (R296). -/
structure Undo where
  what : UndoWhat
  tags : Tags
  deriving DecidableEq, Repr

/-- A held-store entry (R297). -/
structure Held where
  op : Nat
  gid : Nat
  tags : Tags
  deriving DecidableEq, Repr

/-- Resolved shape of a copy or layout record (R166). -/
structure Shape where
  len : Nat
  rows : Nat
  planes : Nat
  ers : Int
  eps : Int
  lrs : Nat
  lps : Nat
  deriving DecidableEq, Repr

/-- A layout record (R169). -/
structure LayoutRec where
  id : Nat
  base : Nat
  shape : Shape
  ready : Bool
  failed : Option (BitVec 8)
  dead : Bool
  pins : List (Nat × Nat)  -- (page VA, frame PA)
  deriving DecidableEq, Repr

/-- One member's issue into a matrix set (R147). -/
structure MIssue where
  gid : Nat
  op : Nat
  quarter : Nat
  null : Bool
  partGuard : Bool
  step : Bool
  ac : AC
  af : MFmt
  bf : MFmt
  acc : MAcc
  vc : Nat
  vb : Nat
  bstep : Nat
  aaddr : Nat
  astride : Nat
  n : Nat
  map : BitVec 256
  klen : Nat
  pc : DWord
  tag : Tags               -- T at issue (R287)
  pre : Snapshot           -- the group just before it (R289)
  suppressed : Bool        -- R304 step 7
  flags : BitVec 7         -- raised so far; they reach `%flg` when the set completes (R220)
  deriving DecidableEq, Repr

/-- A matrix set (R148). -/
structure MSet where
  index : Nat
  issues : List MIssue
  started : Bool
  kdone : Nat
  waited : Nat             -- cycles since the first issue into it (R151)
  deriving DecidableEq, Repr

/-- A matrix quad's sequencer (R141, R148, R151). `nextSet` counts each member's issues (by quarter). -/
structure Quad where
  num : Nat
  sets : List MSet         -- formed and not completed, oldest first
  nextSet : List Nat
  dead : List Nat          -- sets discarded before every member issued into them (R150)
  stall : Nat              -- cycles since the last completed K-step (R151)
  reset : Option (List Nat) -- the members, while a reset of its arrays is in progress (R151, R156, R157)
  resetBy : Option Nat     -- the group whose `MRESET` waits for it (R157)
  deriving DecidableEq, Repr

/-- What started a team (R30, R412). -/
inductive TeamKind where
  | grid (g : Nat)
  | mailbox
  | fault
  | invocation (handle : DWord) (src : Nat) (up : DWord)
  | continuation
  deriving DecidableEq, Repr

/-- A team (R13). -/
structure Team where
  tid : Nat
  ctx : Nat
  kind : TeamKind
  num : Nat
  grid : Nat               -- value of %grid
  cluster : Nat            -- value of %cluster
  clpos : Nat
  clid : Option Nat
  core : Nat
  groups : List Nat
  xbytes : Nat
  wbytes : Nat
  x : Sparse Byte
  w : Sparse Byte
  xown : Sparse Owner
  wown : Sparse Owner
  xtag : Sparse Tags       -- one mask per 64-byte line
  wtag : Sparse Tags
  xpoison : List Nat
  wpoison : List Nat
  nbars : Nat
  bars : Sparse Barrier
  slots : List TSlot
  held : List Held
  undo : List Undo
  recs : List LayoutRec
  quads : List Quad
  taken : List (Nat × Nat × Msg)  -- messages taken by a group while it holds snapshots: (gid, operation mark, message)
  aids : List Word                -- AIDs of the message that launched it
  det : Bool
  ended : Bool
  deriving DecidableEq, Repr

/-- A cluster with its barrier (R14, R188). -/
structure Cluster where
  clid : Nat
  cols : Nat
  rows : Nat
  origin : Nat
  teams : List Nat
  nums : List Nat          -- their numbers in the grid, those of teams that have ended too (R349)
  bar : Barrier
  deriving DecidableEq, Repr

/-- A launch record's fields (R21). -/
structure LaunchRec where
  entry : DWord
  width : Byte
  groups : Nat
  vregs : Nat
  sregs : Nat
  barriers : Nat
  det : Bool
  check : Bool
  roles : Word
  xbytes : Nat
  wbytes : Nat
  cols : Nat
  rows : Nat
  nparam : Nat
  ccnt : BitVec 6
  cen : Bool
  gridsize : Nat
  ximglen : Nat
  ximg : DWord
  wimglen : Nat
  wimg : DWord
  params : List Word
  rsvZero : Bool
  deriving DecidableEq, Repr

/-! ## Captured operations (R297, R345) -/

/-- Progress of one lane of an operation (R178, R179, R323, R327, R241). -/
inductive LaneSt where
  | pending | done | settled (cause : BitVec 8)
  | held (cause : BitVec 8)
  | retry                  -- held, and a `VINV` has covered its page since (R201)
  deriving DecidableEq, Repr

/-- A window's far side. -/
inductive Far where
  | gfp (rank win off : Nat)
  | uet (peer addr : Nat) (key : DWord)
  deriving DecidableEq, Repr

/-- Where a translated access goes. `own` is a window at this rank; `refused` carries a cause of R237. -/
inductive Home where
  | mem (pa : Nat)
  | own (win off : Nat)
  | far (f : Far)
  | refused (cause : Nat)
  | none
  deriving DecidableEq, Repr

/-- One lane of an asynchronous operation. -/
structure Lane where
  lane : Nat
  va : Nat
  pa : Nat
  rank : Nat
  data : DWord
  cmp : DWord
  st : LaneSt
  res : DWord
  ok : Bool
  poison : Bool            -- its data carries an uncorrectable error (R222)
  via : Option Home        -- where its access goes, of one that leads through a window: as its lookups so far decided (R233, R235)
  deriving DecidableEq, Repr

/-- Progress of one sector of a copy (R168, R171, R172). -/
inductive SecSt where
  | pending | landed
  | suspended (faults : List (Nat × BitVec 8))   -- first faulting byte and cause, one per faulting page
  | refused (cause : BitVec 8)
  deriving DecidableEq, Repr

/-- A location (R312): in this package, or behind a window. -/
inductive Loc where
  | here (pa : Nat)
  | far (f : Far)
  deriving DecidableEq, Repr

/-- A sector that has been begun (R202, R235, R313): its parts as translation and lookup decided them, by offset, bytes and
location; its 4-byte words performed so far; and those of them that came with an uncorrectable error. -/
structure Carry where
  sector : Nat
  parts : List (Nat × Nat × Loc)
  own : List Nat           -- offsets of the parts that a window leads back to this rank (R244)
  done : BitVec 64
  bad : BitVec 64
  deriving DecidableEq, Repr

/-- A copy or `CRED` with its operands resolved (R166, R167, R175). -/
structure CopyCmd where
  id : Word
  tid : Nat
  d : Nat
  ext : Nat
  buf : Buf
  out : Bool
  shape : Shape
  bar : Option Nat
  stamp : Word
  mbx : Option Nat
  lrec : Option Nat
  red : Option (RedOp × CredTy)
  faulted : Bool
  busy : Bool
  replayBy : Option Nat
  landed : Nat
  ranks : List Nat         -- ranks that its sectors have reached so far (R244)
  ending : Option (Nat × Nat)   -- code and cause word of an end that R244 still holds back
  deriving DecidableEq, Repr

/-- An atomic with its operands resolved (R320-R327). -/
structure AtomCmd where
  op : AOp
  ty : ATy
  cas : Bool
  sz : Nat
  loc : Option Buf
  ord : Bool
  ret : Bool
  hi : Dst                 -- high register of a 64-bit old value
  len : Nat                -- bytes of the instruction
  deriving DecidableEq, Repr

/-- A remote operation (R238-R241). -/
inductive RemKind where
  | put (sz : Nat)
  | get (ty : LTy)
  | red (op : RedOp) (ty : ATy)
  deriving DecidableEq, Repr

/-- A Praline operation with its operands read (R378-R386). -/
inductive PrCmd where
  | new (pool : Nat) (cap : Nat) (c vl qinit : Word) (mode maxch : Nat) (user : Bool)
  | desc (tree : Word) (k : Nat) (null : Bool)
  | exp (tree leaf : Word) (priors : List Word)
  | back (tree : Word) (lanes : List (Nat × Word × Bool × Word))
  | root (tree child : Word)
  | best (tree : Word)
  | qryNode (tree : Word) (sel : PSel) (nodes : List (Nat × Word))
  | qryHdr (tree : Word) (sel : Nat) (lanes : List Nat)
  | stat (lanes : List Nat)
  | free (tree : Word)
  deriving DecidableEq, Repr

/-- Where a collective instance stands (R264, R265): waiting for earlier instances of its entry, its signature sent, the
verdict on its way to this member, or moving data. -/
inductive CollPh where
  | queued | signed
  | verdict (equal : Bool)
  | data
  deriving DecidableEq, Repr

/-- A collective instance (R263-R272). `from_` and `to_`: where this member's own source and destination lie, once a lookup has let
that access pass (R235, R262). -/
structure CollInst where
  ctx : Nat
  entry : Nat
  seq : Word
  gid : Nat
  op : Nat
  f : CollF
  src : Nat
  dst : Nat
  count : Nat
  handle : DWord
  ph : CollPh
  from_ : Option Nat
  to_ : Option Nat
  deriving DecidableEq, Repr

/-- An armed or fired triggered send (R276, R277). -/
structure Armed where
  ctx : Nat
  f : TSendF
  thr : Word
  rank : Nat
  roff : Nat
  src : Nat
  sup : Bool
  deriving DecidableEq, Repr

/-- A multicast with its operands resolved (R242, R243): the member set read at issue, the data once read, and its
poisoned parts as offset and length. -/
structure McstCmd where
  entry : Nat
  win : Nat
  roff : Nat
  a : Nat
  n : Nat
  b : Nat
  members : List Nat
  data : List Byte
  bad : List (Nat × Nat)
  deriving DecidableEq, Repr

/-- An instruction with its operands captured: what a held, staged or outstanding operation will do. -/
inductive Cmd where
  | copy (c : CopyCmd)
  | creplay (id : Word) (drop : Bool) (sup : Bool)
  | creg (id base : Nat) (shape : Shape) (d : Dst)
  | cunreg (id : Word) (uses : List Nat)   -- what was under way on the record when it acted
  | gather (ty : LTy) (clu : Option Nat)
  | scatter (ty : LTy) (clu : Option Nat)
  | atomic (a : AtomCmd)
  | remote (k : RemKind) (win : Nat)
  | mcst (m : McstCmd)
  | msend (rank : Nat) (m : Msg)
  | invoke (rank : Nat) (m : InvMsg)
  | invh (m : InvMsg)
  | matrix
  | coll (i : CollInst)
  | tsend (a : Armed) (data : List Byte) (bad : Option Nat)
  | arm (n : Nat) (a : Armed)
  | result (handle : DWord) (e : InvEnd)
  | ctset (n : Nat) (add : Bool) (v : Word)
  | qpush (q : Nat) (words : List Word)
  | notify (c : Nat)
  | launch (va : Nat) (d : SReg) (sup : Bool)
  | mbreg (mbx : Nat) (what : Nat) (entry : DWord) (f : BindF)
  | hdrop (handle : DWord)
  | hget (handle : DWord) (stat : Bool) (d : SReg) (n : Nat)
  | hwait (handle : DWord)
  | resolve (aid : Word) (affirm : Bool)
  | praline (c : PrCmd)
  | gset (e : Nat) (what : Nat) (members : BitVec 1024) (seq : Word) (mcid : BitVec 16)
  | vinv (scope : Nat) (va : Nat)
  | fltq (d : SReg)
  | ctxsw (what : Nat) (ctx : Nat) (d : Dst)
  | mreset (slot : Nat)
  | mtsHbase (v : DWord)
  | mtsFqbase (v : DWord)
  deriving DecidableEq, Repr

/-- A register that an outstanding operation has still to write (R18). -/
inductive Reg where
  | s (n : Nat)
  | v (n : Nat)
  | p (n : Nat)
  deriving DecidableEq, Repr

/-- Where an operation stands: held (R297), staged (R345), or under way. -/
inductive OpSt where
  | active | held | staged
  deriving DecidableEq, Repr

/-- An outstanding operation. -/
structure Op where
  id : Nat
  gid : Nat
  tid : Nat
  ctx : Nat
  path : Option Path
  pc : DWord
  cmd : Cmd
  st : OpSt
  lanes : List Lane
  sect : Sparse SecSt
  carry : List Carry       -- pending sectors that have been begun (R313)
  dst : Dst
  wregs : List Reg
  p : CmpDst
  exec : Mask              -- lanes with executes(i) at issue
  act : Mask               -- active lanes at issue
  uni : Bool               -- issued as a uniform instruction (R49): its one lane stands for every executing lane
  tag : Tags
  stamp : DWord
  sup : Bool
  suppressed : Bool        -- R304 step 7
  flags : BitVec 7
  status : Nat
  pre : Option Snapshot    -- the group just before the instruction, where tags may come later (R299)
  deriving DecidableEq, Repr

/-- A staged operation of a DET team (R345): its captured local bytes for a copy or `CRED`. -/
structure Staged where
  op : Op
  src : List Byte
  deriving DecidableEq, Repr

/-- A local access on its way to the buffer (R133). -/
structure LAcc where
  id : Nat
  due : Nat
  gid : Nat
  tid : Nat
  core : Nat
  sub : Nat
  buf : Buf
  store : Bool
  ty : LTy
  atom : Option Nat        -- the operation of a local atomic
  lanes : List (Nat × Nat × Word)   -- (lane, offset, store data)
  dst : Dst
  chain : Option Nat       -- which latch it fills
  tag : Tags
  pre : Snapshot           -- the group just before the access was issued (R289)
  suppressed : Bool
  deriving DecidableEq, Repr

/-! ## Contexts -/

/-- A mailbox binding (R248, R217). -/
structure Binding where
  entry : DWord
  width : Nat
  vregs : Nat
  sregs : Nat
  xbytes : Nat
  wbytes : Nat
  barriers : Nat
  sup : Bool
  deriving DecidableEq, Repr

/-- A mailbox's state (R246). -/
inductive MboxSt where
  | closed | opened | bound (b : Binding)
  deriving DecidableEq, Repr

/-- A mailbox with its queue, oldest first (R246). -/
structure Mbox where
  st : MboxSt
  queue : List Msg
  deriving DecidableEq, Repr

/-- A continuation record (R362). -/
structure ContRec where
  id : Nat
  pc : DWord
  handle : DWord
  width : Nat
  role : Role
  sup : Bool
  vregs : Nat
  sregs : Nat
  m : Nat
  live : List Word
  p : CmpDst
  fmt : Word
  flg : Word
  team : Nat
  grid : Nat
  outcome : Option Bool    -- runnable: resolved or broken
  deriving DecidableEq, Repr

/-- A one-group team that an event has created and the distributor has not placed (R30). -/
structure PendTeam where
  kind : TeamKind
  b : Binding
  words : List Word        -- s0, s1, ... at start
  core : Option Nat
  aids : List Word
  cont : Option ContRec
  deriving DecidableEq, Repr

/-- A grid (R15, R28, R29) and its ticket unit (R346). -/
structure Grid where
  gid : Nat
  ctx : Nat
  rcd : LaunchRec
  placed : Nat
  ended : Nat
  finished : List Nat      -- DET teams that have finished
  released : Nat           -- DET teams whose release has been performed
  staged : List (Nat × Staged)
  queued : Bool            -- its record is still in the launch queue (R28)
  pins : List (Nat × Nat)  -- image pages and their frames, until the last team has started (R23)
  deriving DecidableEq, Repr

/-- A group-table entry (R258). -/
structure GEntry where
  members : BitVec 1024
  own : Nat
  seq : Word
  mcid : BitVec 16
  abseq : Word
  abrank : Nat
  abcause : BitVec 8
  paths : Sparse Word
  deriving DecidableEq, Repr

/-- A fault record (R198), as eight words. -/
structure FaultRec where
  id : Word
  cause : Word
  va : DWord
  first : Word
  map : Word
  pc : DWord               -- the instruction, for kind 1 merging (R199)
  deriving DecidableEq, Repr

/-- States of a context (R218). -/
inductive CtxSt where
  | free | resident | saving | saved | restoring
  deriving DecidableEq, Repr

/-- One access the vector-clock unit remembers (R349). -/
structure RaceAcc where
  team : Nat
  va : Option Nat          -- VA of its line; a remote operation's lane has none
  pc : DWord
  write : Bool
  kind : Nat               -- 0 plain, 1 ATOM or ACAS, 2 CRED, 3 ARED
  clock : Sparse Nat
  deriving DecidableEq, Repr

/-- A race-log entry on its way to the ring (R350, R351): the context and grid it belongs to, where it goes, and its bytes. -/
structure RaceEntry where
  ctx : Nat
  grid : Nat
  va : Nat
  bytes : List Byte
  deriving DecidableEq, Repr

/-- The vector-clock unit of a checked grid (R349). -/
structure RaceUnit where
  grid : Nat
  clocks : List (Nat × Sparse Nat)
  lines : List (Loc × List RaceAcc)   -- by the line's location; least recently touched last
  deriving DecidableEq, Repr

/-- A context (R191). -/
structure Ctx where
  num : Nat
  st : CtxSt
  saveVA : DWord           -- %ctx
  savePA : Nat             -- where the descriptor of R217 lies; its fields are bytes of memory
  counters : Sparse Word
  fails : Word
  failCause : Word
  armed : List (Nat × Armed)          -- in arming order
  gtable : Sparse GEntry
  mbox : Sparse Mbox
  grids : List Grid
  pendTeams : List PendTeam
  conts : List ContRec
  faults : List FaultRec   -- unpopped records not yet merged away, oldest first
  raceBase : DWord
  raceCount : Word
  slice : Bool             -- a time slice of it ended at `since` (R391)
  since : DWord            -- `%clock` when its present slice began (R391)
  waited : Nat             -- slices that have ended since it was saved with work pending (R391)
  deriving DecidableEq, Repr

/-! ## Device units -/

/-- A translation-cache entry (R197). -/
structure TlbEnt where
  core : Nat
  ctx : Nat
  va : Nat
  size : Nat
  pa : Nat
  wr : Bool
  us : Bool
  ex : Bool
  deriving DecidableEq, Repr

/-- A 32-byte block in a core's instruction cache (R38, R318). -/
structure ICLine where
  core : Nat
  pa : Nat
  bytes : List Byte
  filled : Nat             -- `State.free` when it was read (R318)
  deriving DecidableEq, Repr

/-- States of a handle-table entry (R355). -/
inductive HSt where
  | free | pending | resolved | broken
  deriving DecidableEq, Repr

/-- A handle resolution table entry (R355). -/
structure HEntry where
  gen : Nat
  st : HSt
  kind : BitVec 4
  ctx : Nat
  cause : BitVec 8
  words : List Word
  elems : List Word        -- a collective's destination elements 0 … 15, read at completion (R292)
  loc : Nat
  dropped : Bool
  fwd : List (InvMsg × Nat)   -- forward queue: message and the operation of a local sender
  fwdBusy : Bool
  deriving DecidableEq, Repr

/-- States of a home-table entry (R283). -/
inductive NSt where
  | free | live | affirmPending | affirmed | denied
  deriving DecidableEq, Repr

/-- A Nougat home-table entry (R283). -/
structure NEntry where
  gen : Nat
  st : NSt
  kindN : Bool
  ctx : Nat
  tid : Nat
  parents : List Word
  importers : List Nat
  outcome : Sparse Bool
  resolvedAt : DWord
  handle : DWord
  word : Nat
  val : Word
  ans : Option HomeAns     -- how the handle ended, once it has
  rno : Nat                -- number of its resolution while that has still to reach this rank's teams (R305); else 0
  ask : Nat                -- the question put to its handle's far home (R292); 0 for none
  deriving DecidableEq, Repr

/-- What this rank knows of a remote AID (R300): an import-table entry while teams bind it, and before and after that what
its home has answered. -/
structure IEntry where
  aid : Word
  child : Bool
  teams : List Nat
  outcome : Option Bool    -- none while it is live
  known : DWord            -- `%clock` when the outcome was learnt
  deriving DecidableEq, Repr

/-- A hardware work queue (R365). -/
structure WQueue where
  ctx : Option Nat
  cap : Nat
  recs : List (List Word)
  deriving DecidableEq, Repr

/-- A Praline tree-table entry (R369). -/
structure PTree where
  gen : Nat
  live : Bool
  ctx : Nat
  cap : Nat
  pins : List (Nat × Nat)   -- (page VA, frame PA)
  pool : Nat
  deriving DecidableEq, Repr

/-- A window-table entry's 32 bytes as written, and as they last took effect (R232). -/
structure Window where
  raw : BitVec 256
  eff : BitVec 256
  deriving DecidableEq, Repr

/-- Power states (R400). -/
inductive PwrSt where
  | active | clockGated | powerGated
  deriving DecidableEq, Repr

/-- A flash bank (R393, R398). -/
structure Bank where
  valid : Bool
  version : Word
  image : Sparse Byte
  len : Nat                -- bytes of the image
  deriving DecidableEq, Repr

/-- Where a firmware update stands (R397, R398). `img` says whether this update has verified an image, `begun` whether the
component under way has written a byte. -/
inductive UpdSt where
  | idle | requested
  | tabled (img : Bool)
  | receiving (c : FwComp) (img begun : Bool)
  | received (c : FwComp) (img : Bool)
  | verified (img : Bool)
  | activating
  deriving DecidableEq, Repr

/-- What has left the package: replies, packets and reports. -/
inductive Out where
  | reply (peer : Nat) (tag : DWord) (status detail : Word)
  | req (rank : Nat) (r : RemoteReq)
  | uet (peer addr : Nat) (key : DWord) (r : RAct)
  | msg (rank : Nat) (m : Msg)
  | inv (rank : Nat) (m : InvMsg)
  | invFwd (rank : Nat) (m : InvMsg)
  | invEnd (rank : Nat) (handle : DWord) (e : InvEnd)
  | tsend (rank win roff : Nat) (data : FarData) (ctx : Nat) (ct : Option (BitVec 6))
  | resp (rank : Nat) (op : Nat) (a : LaneAns)
  | respBytes (rank op lane : Nat) (d : FarData)
  | ack (src stream seq : Nat)
  | resend (rank stream seq : Nat)
  | uetResend (conn packet : Nat)
  | signature (rank : Nat) (ctx entry : Nat) (s : Signature)
  | verdict (rank ctx entry : Nat) (seq : Word) (equal : Bool)
  | abort (rank ctx entry : Nat) (seq : Word) (frank : Nat) (cause : BitVec 8)
  | drop (rank : Nat) (handle : DWord)
  | ask (rank : Nat) (handle : DWord) (op : Nat)
  | resolveReq (rank : Nat) (aid : Word) (affirm : Bool) (ctx op : Nat)
  | resolveAns (rank op : Nat) (accepted : Bool)
  | resolution (rank : Nat) (aid : Word) (affirmed : Bool)
  | importAsk (rank : Nat) (aid : Word)
  | importAns (rank : Nat) (aid : Word) (outcome : Option Bool)
  | resAck (rank : Nat) (aid : Word)
  | pldm (code : Nat) (ok : Bool) (bytes : List Byte)
  | report (bytes : List Byte)
  deriving DecidableEq, Repr

/-- A remote access that a lookup of the window table has let pass and that is still to be performed (R234, R235): the packet
that brought it, its address, and Q at the lookup. -/
structure Foreign where
  req : RemoteReq
  pkt : Option (Nat × Nat)   -- stream and sequence number
  pa : Nat
  stamp : DWord
  deriving DecidableEq, Repr

/-- A triggered send that arrives here, packet by packet (R235, R277): whose it is, its source being the sends of context `ctx` of
rank `src` (R278); its window, offset and length; how many of its bytes have been looked up; the packets let pass and still to be
performed, by address, bytes and Q at the lookup; and the cause that refused one. -/
structure Landing where
  src : Nat
  ctx : Nat
  op : Nat
  win : Nat
  roff : Nat
  len : Nat
  next : Nat
  due : List (Nat × FarData × DWord)
  stop : Option Nat
  deriving DecidableEq, Repr

/-- The last operation of another rank's source of which an event has been signalled here (R244): the source is group `num` of
rank `src`, or the triggered sends of its context `num` (R278). -/
structure Heard where
  src : Nat
  sends : Bool
  num : Nat
  op : Nat
  deriving DecidableEq, Repr

/-- Bytes that an operation of another rank's source has reached here (R244): its source as in `Heard`, its number, where, and how
many. -/
structure Reached where
  src : Nat
  sends : Bool
  num : Nat
  op : Nat
  pa : Nat
  len : Nat
  deriving DecidableEq, Repr

/-- A word that a Praline operation not yet completed has written, and that a `GATH` or `COPY` may still read as it was
(R373): the operation, its tree, the word's number, and its bytes before and after. -/
structure Late where
  op : Nat
  tree : Word
  word : Nat
  old : List Byte
  new : List Byte
  deriving DecidableEq, Repr

/-- A GFP packet that has been performed or refused (R227, R228). -/
structure RxPkt where
  src : Nat
  stream : Nat
  seq : Nat
  refused : Option (BitVec 8)
  deriving DecidableEq, Repr

/-- Signatures the anchor of an entry has received and not yet judged, oldest first (R265). -/
structure SigSet where
  ctx : Nat
  entry : Nat
  sigs : List (Nat × Signature)
  deriving DecidableEq, Repr

/-- An abort token for a sequence not yet issued here (R272). -/
structure Token where
  ctx : Nat
  entry : Nat
  seq : Word
  rank : Nat
  cause : BitVec 8
  applied : Bool
  deriving DecidableEq, Repr

/-- The boot record, capacity report and management registers (R392-R396, R401). -/
structure Mgmt where
  booted : Bool
  safe : Bool
  status : Sparse Nat      -- boot-record status bytes by resource number
  lpddrcap : DWord
  cxlcap : DWord
  coremap : BitVec 192
  portmap : BitVec 16
  cxlmap : BitVec 4
  diemap : BitVec 8
  bootstat : Word
  resplim : Word
  cecount : Sparse DWord
  clk : Nat
  thrcount : Word
  throttled : Bool
  diebase : Sparse DWord
  collmap : BitVec 192
  cfg : CfgRec
  banks : Sparse Bank
  bankSel : Nat            -- the active bank: 0 or 1
  upd : UpdSt
  portsUp : BitVec 16
  cfgImage : Sparse Byte   -- the configuration record set in flash
  cfgLen : Nat             -- bytes of it
  cfgRec : Option CfgRec   -- what it says, once its signature has been checked (R396)
  deriving DecidableEq, Repr

/-- What R19 counts for an atomics service group (R319). -/
structure SvcRank where
  age : Nat
  agedAt : Option Nat
  lastIssue : Nat
  deriving DecidableEq, Repr

/-- The whole package. -/
structure State where
  turns : List Turn        -- who moves next
  free : Nat               -- the model's own: numbers the free values
  cur : Nat                -- the group whose instruction `exec` runs
  cycles : Sparse Nat      -- arithmetic cycles counted, by core × 4 + sub-core
  clock : DWord            -- %clock
  rank : Nat               -- %rank
  q : DWord                -- quiescence generation Q
  mem : Sparse Byte        -- LPDDR6 and CXL, by physical address
  poison : List Nat        -- poisoned 64-byte units of external memory
  ctxs : List Ctx
  teams : List Team
  groups : List Group
  clusters : List Cluster
  ops : List Op
  lacc : List LAcc         -- local accesses, in the order of their instants
  nextId : Nat             -- numbers operations, groups, teams, grids, clusters and records
  seqs : Sparse (BitVec 24)   -- streamer sequence number by core
  tlb : List TlbEnt
  icache : List ICLine
  windows : Sparse Window
  served : Nat             -- context whose turn at the distributor came last; 4096 before the first (R28)
  handles : Sparse HEntry
  homes : Sparse NEntry
  imports : List IEntry
  queues : Sparse WQueue
  hostq : List HostCmd     -- host commands that wait at the front end, oldest first (R252, R390)
  wake : BitVec 64         -- wake latch
  aperture : PwrSt
  power : Sparse PwrSt     -- by core
  trees : Sparse PTree     -- by engine × 1024 + slot
  colls : List CollInst
  sigs : List SigSet
  tokens : List Token
  race : List RaceUnit
  raceq : List RaceEntry   -- race-log entries on their way, oldest first (R351)
  svc : Sparse SvcRank     -- by service group (R19, R319)
  foreign : List Foreign   -- remote accesses decided and not yet performed, in the order of their lookups (R235)
  landings : List Landing  -- triggered sends that arrive here (R277)
  heard : List Heard       -- other ranks' sources (R244)
  reached : List Reached   -- what operations of theirs have reached since (R244)
  late : List Late         -- words of Praline operations under way (R373)
  rxSeq : List RxPkt       -- GFP packets performed or refused (R227)
  out : List Out           -- newest first
  mgmt : Mgmt
  deriving DecidableEq, Repr

/-- Reasons a step stops the machine. The spec gives every step an effect, so no step raises one; the type is closed
with the one reason a caller could still meet. -/
inductive Fault where
  /-- Raised by no meaning of this model. Safe: a run that stopped would only make claims unprovable. -/
  | unreachable
  deriving DecidableEq, Repr

/-- Reasons a step has no meaning. -/
inductive Refusal where
  /-- Raised only by an arm of `exec` that has no meaning yet; safe, since the machine stops. -/
  | notModelled (mnemonic : String)
  deriving DecidableEq, Repr

/-! ## Reset -/

/-- A side buffer entry with nothing in it (R209: no trap taken). -/
def SideBuf.empty : SideBuf where
  valid := false
  cls := 0
  sub := 0
  lanes := 0
  epc := 0
  cpc := 0
  sup := false
  lw := []
  code := 0
  chpos := 0
  cmask := 0
  depth := 0
  scr := []
  fmt := 0
  latches := []
  scallD := 0
  sync := false
  clen := 0

/-- The default configuration (R396). -/
def CfgRec.default : CfgRec where
  etherType := 0x88B5
  reserved := 2
  resplim := 4
  sliceUs := 2000
  queues := []
  peers := []
  minFw := 0

/-- Management state as the package leaves power-on reset, before the boot steps (R392-R396, R401). -/
def Mgmt.reset : Mgmt where
  booted := false
  safe := false
  status := []
  lpddrcap := 0
  cxlcap := 0
  coremap := 0
  portmap := 0
  cxlmap := 0
  diemap := 0
  bootstat := 0
  resplim := 4
  cecount := []
  clk := 1750
  thrcount := 0
  throttled := false
  diebase := []
  collmap := 0
  cfg := CfgRec.default
  banks := [(0, ⟨true, 0, [], 0⟩)]
  bankSel := 0
  upd := .idle
  portsUp := 0
  cfgImage := []
  cfgLen := 0
  cfgRec := none

/-- The package right after power-on reset: `%clock` 0 (R35), Q 0 (R203), every generation 0 (R284), no context. -/
def State.reset : State where
  turns := []
  free := 0
  cur := 0
  cycles := []
  clock := 0
  rank := 0
  q := 0
  mem := []
  poison := []
  ctxs := []
  teams := []
  groups := []
  clusters := []
  ops := []
  lacc := []
  nextId := 0
  seqs := []
  tlb := []
  icache := []
  windows := []
  served := 4096
  handles := []
  homes := []
  imports := []
  queues := []
  hostq := []
  wake := 0
  aperture := .active
  power := []
  trees := []
  colls := []
  sigs := []
  tokens := []
  race := []
  raceq := []
  svc := []
  foreign := []
  landings := []
  heard := []
  reached := []
  late := []
  rxSeq := []
  out := []
  mgmt := Mgmt.reset

end Sys2Proof.Machine
end

