-- ==== Sys2Proof/Machine/Ops.lean ====
section
/-! DEFINITION. The shared operations: sparse tables, memory, lookups, registers and tags, translation, fault records,
path counters, taking an exception and returning from one. -/

namespace Sys2Proof.Machine

/-! ## Sparse tables -/

/-- The value at `k`; `d` where nothing is listed. -/
def sget {α : Type} (d : α) : Sparse α → Nat → α
  | [], _ => d
  | (k', v) :: m, k => if k' = k then v else sget d m k

/-- An entry put in its place among rising keys. -/
def sins {α : Type} (k : Nat) (v : α) : Sparse α → Sparse α
  | [] => [(k, v)]
  | (k', v') :: m => if k < k' then (k, v) :: (k', v') :: m else (k', v') :: sins k v m

/-- The table with `v` at `k`, in canonical form again: keys rising, no entry equal to `d`. -/
def sset {α : Type} [DecidableEq α] (d : α) (m : Sparse α) (k : Nat) (v : α) : Sparse α :=
  let m' := m.filter fun e => e.1 != k
  if v = d then m' else sins k v m'

/-- Every key of the table is above `b`, keys rise and no value is the default. -/
def swfFrom {α : Type} [DecidableEq α] (d : α) : Option Nat → Sparse α → Bool
  | _, [] => true
  | b, (k, v) :: m => (match b with | none => true | some j => decide (j < k)) && decide (v ≠ d) && swfFrom d (some k) m

/-- The canonical form of a table. -/
def swf {α : Type} [DecidableEq α] (d : α) (m : Sparse α) : Bool := swfFrom d none m

/-- Canonical form of a memory: addresses strictly rising, no byte equal to what an unlisted address reads as. -/
def Memory.wf (m : Sparse Byte) : Bool := swf 0 m

/-! ## Looking things up -/

def State.grp? (s : State) (gid : Nat) : Option Group := s.groups.find? fun g => g.gid == gid
def State.updG (s : State) (gid : Nat) (f : Group → Group) : State :=
  { s with groups := s.groups.map fun g => if g.gid = gid then f g else g }
def State.setG (s : State) (g : Group) : State := s.updG g.gid fun _ => g
def State.team? (s : State) (tid : Nat) : Option Team := s.teams.find? fun t => t.tid == tid
def State.updT (s : State) (tid : Nat) (f : Team → Team) : State :=
  { s with teams := s.teams.map fun t => if t.tid = tid then f t else t }
def State.ctx? (s : State) (n : Nat) : Option Ctx := s.ctxs.find? fun c => c.num == n
def State.updC (s : State) (n : Nat) (f : Ctx → Ctx) : State :=
  { s with ctxs := s.ctxs.map fun c => if c.num = n then f c else c }
def State.op? (s : State) (id : Nat) : Option Op := s.ops.find? fun o => o.id == id
def State.updOp (s : State) (id : Nat) (f : Op → Op) : State :=
  { s with ops := s.ops.map fun o => if o.id = id then f o else o }
def State.dropOp (s : State) (id : Nat) : State := { s with ops := s.ops.filter fun o => o.id != id }
def State.clu? (s : State) (id : Nat) : Option Cluster := s.clusters.find? fun c => c.clid == id
def State.updClu (s : State) (id : Nat) (f : Cluster → Cluster) : State :=
  { s with clusters := s.clusters.map fun c => if c.clid = id then f c else c }

/-- The context of a team. -/
def State.ctxOfT (s : State) (tid : Nat) : Nat := ((s.team? tid).map (·.ctx)).getD 0
/-- The context of a group. -/
def State.ctxOfG (s : State) (g : Group) : Nat := s.ctxOfT g.tid
/-- A fresh number for an operation, team, group, grid or record. -/
def State.fresh (s : State) : State := { s with nextId := s.nextId + 1 }
/-- The next free value, drawn and counted (log entry 2). -/
def State.draw (s : State) : State := { s with free := s.free + 1 }
/-- Something leaves the package. -/
def State.emit (s : State) (o : Out) : State := { s with out := o :: s.out }

/-- Whether a context is resident (R218). -/
def State.resident (s : State) (n : Nat) : Bool :=
  match s.ctx? n with | some c => c.st == .resident | none => false

/-- Groups of a team in `Team.groups` order. -/
def State.teamGroups (s : State) (tid : Nat) : List Group := s.groups.filter fun g => g.tid == tid

/-! ## Words, bytes and masks -/

/-- `n` little-endian bytes of a number (R5). -/
def natBytes : Nat → Nat → List Byte
  | 0, _ => []
  | n + 1, v => BitVec.ofNat 8 v :: natBytes n (v / 256)

/-- A mask from a test on lanes `0 … w - 1`. -/
def maskOf (w : Nat) (p : Nat → Bool) : Mask :=
  (List.range w).foldl (fun m i => if p i then m ||| (1#64 <<< i) else m) 0

/-- Lanes named by a mask, ascending. -/
def lanesOf (m : Mask) : List Nat := (List.range 64).filter fun i => m.getLsbD i

/-- All lanes of a group. -/
def fullMask (w : Nat) : Mask := maskOf w fun _ => true

/-- Number of set bits. -/
def popcount {w : Nat} (x : BitVec w) : Nat := ((List.range w).filter fun i => x.getLsbD i).length

/-- Splits a number's bytes into words. -/
def bytesWords : Nat → List Byte → List Word
  | 0, _ => []
  | n + 1, bs => BitVec.ofNat 32 (leNat (bs.take 4)) :: bytesWords n (bs.drop 4)

/-- The bytes of words. -/
def wordsBytes (ws : List Word) : List Byte := ws.flatMap fun w => natBytes 4 w.toNat

def pairOf (lo hi : Word) : DWord := hi ++ lo
def loW (x : DWord) : Word := x.setWidth 32
def hiW (x : DWord) : Word := (x >>> 32).setWidth 32

/-- Rounds `n` up to a multiple of `k`, in units of `k`. -/
def ceilDiv (n k : Nat) : Nat := (n + k - 1) / k

/-! ## External memory (R5, R192, R222) -/

/-- The byte at a physical address; a byte that nothing has written reads as 0 (log entry 1). -/
def State.rd (s : State) (pa : Nat) : Byte := sget 0 s.mem pa
def State.rdBytes (s : State) (pa n : Nat) : List Byte := (List.range n).map fun i => s.rd (pa + i)
def State.rdNat (s : State) (pa n : Nat) : Nat := leNat (s.rdBytes pa n)

/-- Bytes stored from an address up. -/
def putBytes : Sparse Byte → Nat → List Byte → Sparse Byte
  | m, _, [] => m
  | m, a, b :: bs => putBytes (sset 0 m a b) (a + 1) bs

/-- Units of 64 bytes wholly inside `a … a + n - 1` lose their poison (R222; the unit's size is log entry 12). -/
def unpoison (u : Nat) (l : List Nat) (a n : Nat) : List Nat :=
  l.filter fun k => !(a ≤ k * u && k * u + u ≤ a + n)

/-- A store of bytes at a physical address. -/
def State.wrBytes (s : State) (pa : Nat) (bs : List Byte) : State :=
  { s with mem := putBytes s.mem pa bs, poison := unpoison 64 s.poison pa bs.length }
def State.wrNat (s : State) (pa n v : Nat) : State := s.wrBytes pa (natBytes n v)

/-- Whether any byte of a range lies in a poisoned unit. -/
def State.poisoned (s : State) (pa n : Nat) : Bool :=
  s.poison.any fun k => k * 64 < pa + n && pa < k * 64 + 64

/-- Targets of a physical address (R192). -/
inductive Target where
  | lpddr | cxl
  | window (w off : Nat)
  | device
  | none
  deriving DecidableEq, Repr

/-- Which target a physical address reaches (R192). The device registers that the spec lays out are the management page
(R395), the window table (R232) and the aperture page (R254); the rest of region 0xF has no target (log entry 14). -/
def State.target (s : State) (pa : Nat) : Target :=
  let r := pa / 2 ^ 48
  if r = 0 then
    if pa < s.mgmt.lpddrcap.toNat then .lpddr
    else if 2 ^ 44 ≤ pa && pa < 2 ^ 44 + s.mgmt.cxlcap.toNat then .cxl
    else .none
  else if r = 8 then .window (pa / 2 ^ 36 % 4096) (pa % 2 ^ 36)
  else if r = 15 then
    let o := pa % 2 ^ 48
    if o < 0x1000 || (0x100000 ≤ o && o < 0x120000) || (0x200000 ≤ o && o < 0x201000) then .device else .none
  else .none

/-! ## Translation (R191-R197) -/

/-- Kinds of access that a leaf's bits govern (R195). -/
inductive Acc where
  | read | write | exec
  deriving DecidableEq, Repr

/-- What a walk finds: a leaf, or a cause of R223. -/
inductive Walk where
  | leaf (va size pa : Nat) (wr us ex ct : Bool)
  | bad (cause : Nat)
  deriving DecidableEq, Repr

/-- First VA bit and index width of each level (R193). -/
def levelOf : Nat → Nat × Nat
  | 0 => (48, 6) | 1 => (39, 9) | 2 => (30, 9) | 3 => (21, 9) | _ => (12, 9)

/-- Whether a present entry at `lvl` is malformed (R194). -/
def badEntry (s : State) (lvl e : Nat) : Bool :=
  let lf := e.testBit 4
  let frame := fld e 12 40 * 4096
  fld e 6 6 != 0 || fld e 52 12 != 0
    || (lf && lvl ≤ 1) || (!lf && lvl = 4)
    || (!lf && (e.testBit 1 || e.testBit 2 || e.testBit 3 || e.testBit 5))
    || (e.testBit 5 && !(lf && lvl = 4))
    || (lf && lvl = 3 && fld e 12 9 != 0) || (lf && lvl = 2 && fld e 12 18 != 0)
    || (!lf && s.target frame != .lpddr)

/-- The walk from `lvl` with the table at `tbl` (R193, R194, R197). -/
def walkFrom (s : State) (va : Nat) : Nat → Nat → Nat → Walk
  | 0, _, _ => .bad 0x06
  | n + 1, lvl, tbl =>
    let (lo, bits) := levelOf lvl
    let ea := tbl + 8 * (va / 2 ^ lo % 2 ^ bits)
    if s.poisoned ea 8 then .bad 0x07
    else
      let e := s.rdNat ea 8
      if !e.testBit 0 then .bad 0x01
      else if badEntry s lvl e then .bad 0x06
      else
        let frame := fld e 12 40 * 4096
        if e.testBit 4 then
          .leaf (va / 2 ^ lo * 2 ^ lo) (2 ^ lo) frame (e.testBit 1) (e.testBit 2) (e.testBit 3) (e.testBit 5)
        else walkFrom s va n (lvl + 1) frame

/-- A descriptor field of a context (R217): `n` bytes at `off`. Log entry 7. -/
def State.desc (s : State) (c : Ctx) (off n : Nat) : Nat := s.rdNat (c.savePA + off) n
def State.wrDesc (s : State) (c : Ctx) (off n v : Nat) : State := s.wrNat (c.savePA + off) n v

/-- The walk of a context's tables at a VA. -/
def State.walk (s : State) (c : Ctx) (va : Nat) : Walk := walkFrom s va 5 0 (s.desc c 0 8)

/-- A translation: a physical address, or a cause of R223. -/
inductive Tr where
  | pa (a : Nat)
  | bad (cause : Nat)
  deriving DecidableEq, Repr

/-- The rights a leaf gives (R195): the lowest cause that denies, or none. -/
def denies (acc : Acc) (sup wr us ex : Bool) : Option Nat :=
  if acc = .write && !wr then some 0x02
  else if !sup && !us then some 0x03
  else if acc = .exec && !ex then some 0x04
  else none

/-- The translation-cache entry that covers a VA (R197). -/
def State.tlbFind (s : State) (core ctx va : Nat) : Option TlbEnt :=
  s.tlb.find? fun e => e.core == core && e.ctx == ctx && decide (e.va ≤ va) && decide (va < e.va + e.size)

/-- Translates a VA for one access (R191-R197): the core's cache first (log entry 8), then a walk. -/
def State.xlate (s : State) (core ctx va : Nat) (acc : Acc) (sup : Bool) : Tr :=
  if 2 ^ 54 ≤ va then .bad 0x05
  else
    let fin (base pa : Nat) (wr us ex : Bool) : Tr :=
      match denies acc sup wr us ex with
      | some c => .bad c
      | none => if s.target (pa + (va - base)) = .none then .bad 0x08 else .pa (pa + (va - base))
    match s.tlbFind core ctx va with
    | some e => fin e.va e.pa e.wr e.us e.ex
    | none =>
      match s.ctx? ctx with
      | none => .bad 0x01
      | some c =>
        match s.walk c va with
        | .bad cause => .bad cause
        | .leaf base _ pa wr us ex _ => fin base pa wr us ex

/-- Bytes at a VA read by the device in supervisor mode; none where some page does not translate. -/
def State.rdVA (s : State) (core ctx va n : Nat) (sup : Bool) : Option (List Byte) :=
  (List.range n).foldr (fun i acc =>
    match acc, s.xlate core ctx (va + i) .read sup with
    | some bs, .pa a => some (s.rd a :: bs)
    | _, _ => none) (some [])

/-- Bytes stored at a VA by the device, byte by byte where the page translates. -/
def wrVA (core ctx : Nat) (sup : Bool) : State → Nat → List Byte → State
  | s, _, [] => s
  | s, va, b :: bs =>
    let s' := match s.xlate core ctx va .write sup with | .pa a => s.wrBytes a [b] | .bad _ => s
    wrVA core ctx sup s' (va + 1) bs

/-- `%hbase` (R64, R217). -/
def State.hbase (s : State) (ctx : Nat) : DWord :=
  match s.ctx? ctx with | some c => BitVec.ofNat 64 (s.desc c 8 8) | none => 0

/-! ## Registers, predicates and tags (R63, R286, R287) -/

def Group.rdS (g : Group) (n : Nat) : Word := sget 0 g.s n
def Group.rdV (g : Group) (n i : Nat) : Word := sget 0 g.v (n * 64 + i)
def Group.rdP (g : Group) (k i : Nat) : Bool := k == 0 || (sget 0 g.p k).getLsbD i
def Group.pairS (g : Group) (n : Nat) : DWord := pairOf (g.rdS n) (g.rdS (n + 1))

def Group.active (g : Group) (i : Nat) : Bool := g.mask.getLsbD i
/-- `executes(i)` of R62. -/
def Group.executes (g : Group) (h : Hdr) (i : Nat) : Bool := g.active i && (g.rdP h.gp.toNat i != h.gn)
/-- The lanes that execute. -/
def Group.execMask (g : Group) (h : Hdr) : Mask := maskOf g.width fun i => g.executes h i

def Group.stagOf (g : Group) (n : Nat) : Tags := sget 0 g.stag n
def Group.vtagOf (g : Group) (n : Nat) : Tags := sget 0 g.vtag n
/-- p0 never carries a tag (R286). -/
def Group.ptagOf (g : Group) (k : Nat) : Tags := if k = 0 then 0 else sget 0 g.ptag k

/-- A scalar register written with its new mask (R287). -/
def Group.wrS (g : Group) (n : Nat) (x : Word) (t : Tags) : Group :=
  { g with s := sset 0 g.s n x, stag := sset 0 g.stag n t }

/-- The new mask of a target written in the lanes of `m` (R287). -/
def tagAfter (w : Nat) (m : Mask) (old t : Tags) : Tags := if m = fullMask w then t else old ||| t

/-- Poisoned register lines after lanes `m` of vector register `n` are written: a line that one write replaces whole,
which takes 64 lanes, loses its poison (R222). -/
def Group.poisonAfter (g : Group) (n : Nat) (m : Mask) : List Nat :=
  if g.width = 64 ∧ m = fullMask 64 then g.poison.filter (· != n) else g.poison

/-- The lanes of `m` of a vector register written. -/
def Group.wrV (g : Group) (n : Nat) (m : Mask) (f : Nat → Word) (t : Tags) : Group :=
  if m = 0 then g
  else { g with
    poison := g.poisonAfter n m
    v := (lanesOf m).foldl (fun v i => sset 0 v (n * 64 + i) (f i)) g.v
    vtag := sset 0 g.vtag n (tagAfter g.width m (g.vtagOf n) t) }

/-- `setpred` over the lanes of `m` (R62): p0 ignores writes. -/
def Group.wrP (g : Group) (k : Nat) (m x : Mask) (t : Tags) : Group :=
  if k = 0 || m = 0 then g
  else { g with
    p := sset 0 g.p k ((sget 0 g.p k &&& ~~~m) ||| (x &&& m))
    ptag := sset 0 g.ptag k (tagAfter g.width m (g.ptagOf k) t) }

/-- A condition and its complement written (R46, R73). -/
def Group.wrCmp (g : Group) (d : CmpDst) (m x : Mask) (t : Tags) : Group :=
  (g.wrP d.c.toNat m x t).wrP d.k.toNat m (~~~x) t

/-- A register pair written: low word even (R63). -/
def Group.wrPair (g : Group) (n : Nat) (x : DWord) (t : Tags) : Group := (g.wrS n (loW x) t).wrS (n + 1) (hiW x) t

/-- Consecutive scalars written from `n` up. -/
def wrSs : Group → Nat → List Word → Tags → Group
  | g, _, [], _ => g
  | g, n, w :: ws, t => wrSs (g.wrS n w t) (n + 1) ws t

/-- `raise` (R62, R66). -/
def Group.raise (g : Group) (f : BitVec 7) : Group := { g with flg := g.flg ||| f.setWidth 32 }

/-- Latch `l k`, most recent first (R52). -/
def Group.latch? (g : Group) (k : Nat) : Option Latch := g.latches[k]?

def LatchV.at (l : LatchV) (i : Nat) : Word :=
  match l with | .scalar w => w | .vector ws => sget 0 ws i
def LatchV.isVec (l : LatchV) : Bool := match l with | .scalar _ => false | .vector _ => true

/-! ## Local buffers (R129-R136, R222) -/

def Team.size (t : Team) (b : Buf) : Nat := match b with | .x => t.xbytes | .w => t.wbytes
def Team.mem (t : Team) (b : Buf) : Sparse Byte := match b with | .x => t.x | .w => t.w
def Team.rd (t : Team) (b : Buf) (o : Nat) : Byte := sget 0 (t.mem b) o
def Team.rdBytes (t : Team) (b : Buf) (o n : Nat) : List Byte := (List.range n).map fun i => t.rd b (o + i)
def Team.wr (t : Team) (b : Buf) (o : Nat) (bs : List Byte) : Team :=
  match b with
  | .x => { t with x := putBytes t.x o bs, xpoison := unpoison 64 t.xpoison o bs.length }
  | .w => { t with w := putBytes t.w o bs, wpoison := unpoison 64 t.wpoison o bs.length }
def Team.poisonOf (t : Team) (b : Buf) : List Nat := match b with | .x => t.xpoison | .w => t.wpoison
/-- Granules of a local buffer lose their poison. -/
def Team.clearPoison (t : Team) (b : Buf) (ks : List Nat) : Team :=
  match b with
  | .x => { t with xpoison := t.xpoison.filter fun k => !ks.contains k }
  | .w => { t with wpoison := t.wpoison.filter fun k => !ks.contains k }
def Team.poisoned (t : Team) (b : Buf) (o n : Nat) : Bool :=
  (t.poisonOf b).any fun k => k * 64 < o + n && o < k * 64 + 64
def Team.setPoison (t : Team) (b : Buf) (o n : Nat) : Team :=
  let ks := ((List.range (n + 64)).map fun i => (o + i) / 64).filter fun k => k * 64 < o + n
  match b with
  | .x => { t with xpoison := (t.xpoison ++ ks).eraseDups }
  | .w => { t with wpoison := (t.wpoison ++ ks).eraseDups }
def Team.owner (t : Team) (b : Buf) (tile : Nat) : Owner :=
  match b with | .x => sget .group t.xown tile | .w => sget .group t.wown tile
def Team.setOwner (t : Team) (b : Buf) (tile : Nat) (o : Owner) : Team :=
  match b with
  | .x => { t with xown := sset .group t.xown tile o }
  | .w => { t with wown := sset .group t.wown tile o }
def Team.lineTag (t : Team) (b : Buf) (line : Nat) : Tags :=
  match b with | .x => sget 0 t.xtag line | .w => sget 0 t.wtag line
def Team.setLineTag (t : Team) (b : Buf) (line : Nat) (x : Tags) : Team :=
  match b with
  | .x => { t with xtag := sset 0 t.xtag line x }
  | .w => { t with wtag := sset 0 t.wtag line x }

/-- Units of `u` bytes that the bytes `o … o + n - 1` touch. -/
def unitsOf (u o n : Nat) : List Nat :=
  if n = 0 then [] else (List.range ((o + n - 1) / u + 1 - o / u)).map (· + o / u)

/-- Union of the masks of the lines in a local range. -/
def Team.rangeTag (t : Team) (b : Buf) (o n : Nat) : Tags :=
  (unitsOf 64 o n).foldl (fun a l => a ||| t.lineTag b l) 0

/-! ## Path counters and parks (R138-R140) -/

/-- The value of a path counter. -/
def Group.pathCount (g : Group) (p : Path) : Nat := (g.inFlight.filter fun e => e.path == p).length

/-- Drops the completed prefix of each path, so that what is left is what the counters still count (R139). -/
def dropDone (seen : List Path) : List PathEnt → List PathEnt
  | [] => []
  | e :: es => if e.done && !seen.contains e.path then dropDone seen es else e :: dropDone (e.path :: seen) es

/-- `path_up` for operation `id`. -/
def Group.pathUp (g : Group) (p : Path) (id : Nat) : Group := { g with inFlight := g.inFlight ++ [⟨p, id, false⟩] }

/-- A `WAITP` whose bound is met leaves its park (R140). -/
def Group.unwait (g : Group) : Group :=
  match g.park with
  | some (.waitp p t) => if g.pathCount p ≤ t then { g with park := none } else g
  | _ => g

/-- Operation `id` has completed: the counter falls as R139 allows. -/
def Group.pathDone (g : Group) (id : Nat) : Group :=
  Group.unwait { g with
    inFlight := dropDone [] (g.inFlight.map fun e => if e.op = id then { e with done := true } else e) }

/-- Operation `id` completes and leaves the device. -/
def State.opDone (s : State) (o : Op) : State := (s.dropOp o.id).updG o.gid fun g => g.pathDone o.id

/-! ## Barriers (R181, R182, R188) -/

def Barrier.zero : Barrier := ⟨0, 0, 0, 0, 0, 0⟩

/-- Barrier `n` of a team. -/
def Team.bar (t : Team) (n : Nat) : Barrier := sget Barrier.zero t.bars n
def Team.setBar (t : Team) (n : Nat) (b : Barrier) : Team := { t with bars := sset Barrier.zero t.bars n b }

/-- `complete(b, how)` on the fields of R181. -/
def Barrier.complete (b : Barrier) (how : BitVec 2) : Barrier :=
  { b with generation := b.generation + 1, arrived := 0, bytes := 0, status := how, outcome := how }

/-- A waiter parked on a generation that has passed leaves its park, writing its predicates (R182). -/
def Group.unbwait (bar : Bar) (gen : Word) (out : BitVec 2) (g : Group) : Group :=
  match g.park with
  | some (.bwait b' g0 p tag) =>
    if b' = bar && g0 != gen then
      { g.wrCmp p g.mask (if out = 0 then g.mask else 0) tag with park := none }
    else g
  | _ => g

/-- Stores a team barrier and releases the waiters whose generation has passed. -/
def State.putBar (s : State) (tid n : Nat) (b : Barrier) : State :=
  let s := s.updT tid fun t => t.setBar n b
  { s with groups := s.groups.map fun g =>
      if g.tid = tid then g.unbwait (.b (.ofNat 4 n)) b.generation b.outcome else g }

/-- Whether a team belongs to a cluster. -/
def Cluster.has (c : Cluster) (tid : Nat) : Bool := c.teams.contains tid

/-- Stores the cluster barrier and releases its waiters. -/
def State.putBcl (s : State) (clid : Nat) (b : Barrier) : State :=
  match s.clu? clid with
  | none => s
  | some c =>
    let s := s.updClu clid fun c => { c with bar := b }
    { s with groups := s.groups.map fun g => if c.has g.tid then g.unbwait .bcl b.generation b.outcome else g }

/-- Kinds of arrival (R182). -/
inductive Arrival where
  | group | engine | error
  deriving DecidableEq, Repr

/-- `arrive` on the fields of a barrier. -/
def Barrier.arrive (b : Barrier) (k : Arrival) (stamp : Word) : Barrier :=
  if k != .group && stamp != b.generation then b
  else if k = .error then b.complete 2
  else
    let b' := { b with arrived := b.arrived + 1 }
    if b'.arrived = b'.expected then b'.complete 0 else b'

/-- An arrival at a team barrier (R182). -/
def State.arrive (s : State) (tid n : Nat) (k : Arrival) (stamp : Word) : State :=
  match s.team? tid with
  | none => s
  | some t => s.putBar tid n ((t.bar n).arrive k stamp)

/-! ## Event counters and armed sends are in Fabric; fault records (R198-R200) -/

/-- Kind of a fault record. -/
def FaultRec.kind (r : FaultRec) : Nat := fld r.cause.toNat 8 4

/-- Whether a new fault merges into an unpopped record (R199). -/
def FaultRec.merges (r n : FaultRec) : Bool :=
  r.kind == n.kind && r.id == n.id &&
    (if r.kind = 0 then r.va.toNat / 4096 == n.va.toNat / 4096 && r.first.toNat / 32 == n.first.toNat / 32
     else r.kind == 1 && r.pc == n.pc)

/-- The lowest set bit of a nonzero mask. -/
def lowBit (m : Mask) : Nat := ((List.range 64).find? fun i => m.getLsbD i).getD 64

/-- The record with the new fault merged in (R199). -/
def FaultRec.merge (r n : FaultRec) : FaultRec :=
  if r.kind = 0 then
    let lower := n.first.toNat < r.first.toNat
    { r with map := r.map ||| n.map, first := if lower then n.first else r.first, va := if lower then n.va else r.va }
  else
    let lower := lowBit (pairOf n.first n.map) < lowBit (pairOf r.first r.map)
    { r with map := r.map ||| n.map, first := r.first ||| n.first, va := if lower then n.va else r.va }

/-- The eight words of a record (R198). -/
def FaultRec.words (r : FaultRec) : List Word := [r.id, r.cause, loW r.va, hiW r.va, r.first, r.map, 0, 0]

/-- Writes a record into its place of the ring, as the device does (R198). -/
def State.putRing (s : State) (c : Ctx) (idx : Nat) (r : FaultRec) : State :=
  wrVA 0 c.num true s (s.desc c 0x10 8 + 32 * (idx % 4096)) (wordsBytes r.words)

/-- The fault-service binding of the descriptor (R217). A width code above 3 counts modulo 4 (log entry 115). -/
def State.fsBinding (s : State) (c : Ctx) : Binding where
  entry := BitVec.ofNat 64 (s.desc c 0x20 8)
  width := 8 * 2 ^ (s.desc c 0x28 1 % 4)
  vregs := s.desc c 0x2A 2
  sregs := s.desc c 0x2C 2
  xbytes := s.desc c 0x30 4
  wbytes := s.desc c 0x34 4
  barriers := s.desc c 0x29 1
  sup := true

/-- An event creates a one-group team that the distributor will place (R30). -/
def State.addPend (s : State) (ctx : Nat) (p : PendTeam) : State :=
  s.updC ctx fun c => { c with pendTeams := c.pendTeams ++ [p] }

/-- Appends the first record not yet in the ring, if the ring has room (R199). -/
def State.appendRing (s : State) (c : Ctx) (r : FaultRec) : State :=
  let tail := s.desc c 0x1C 4
  let s := (s.putRing c tail r).wrDesc c 0x1C 4 (tail + 1)
  if s.desc c 0x20 8 = 0 then s
  else s.addPend c.num ⟨.fault, s.fsBinding c, [], none, [], none⟩

/-- Records in the ring and not popped. -/
def State.ringUsed (s : State) (c : Ctx) : Nat := (s.desc c 0x1C 4 + 2 ^ 32 - s.desc c 0x18 4) % 2 ^ 32

/-- Merges a fault into the first record that admits it. -/
def mergeFirst (n : FaultRec) : List FaultRec → Option (Nat × List FaultRec)
  | [] => none
  | r :: rs =>
    if r.merges n then some (0, r.merge n :: rs)
    else match mergeFirst n rs with
      | some (i, rs') => some (i + 1, r :: rs')
      | none => none

/-- A unit posts a fault record (R199): merged, appended, or held while the ring is full. -/
def State.postFault (s : State) (ctx : Nat) (r : FaultRec) : State :=
  match s.ctx? ctx with
  | none => s
  | some c =>
    match mergeFirst r c.faults with
    | some (i, fs) =>
      let s := s.updC ctx fun c => { c with faults := fs }
      if i < s.ringUsed c then s.putRing c (s.desc c 0x18 4 + i) (fs.getD i r) else s
    | none =>
      let s := s.updC ctx fun c => { c with faults := c.faults ++ [r] }
      if s.ringUsed c < 4096 && c.faults.length = s.ringUsed c then s.appendRing c r else s

/-- The ID word of kinds 1 and 2: core and group slot (R198). -/
def faultId (g : Group) : Word := BitVec.ofNat 32 (g.core * 2 ^ 24 + g.slot)

/-! ## Taking an exception and returning (R209-R214) -/

/-- The sequential next PC (R38). -/
def seqNext (pc : DWord) (n : Nat) : DWord :=
  let x := pc + BitVec.ofNat 64 n
  if x.toNat % 32 = 28 then x + 4 else x

/-- A transfer target that R39 refuses. -/
def badTarget (t : DWord) : Bool := t.toNat % 4 != 0 || t.toNat % 32 = 28

/-- A group ends: no lane is left (R29). `byExit` is false for a double trap (R213). -/
def Group.end_ (g : Group) (byExit : Bool) : Group :=
  { g with mask := 0, stack := [], exited := true, byExit := byExit, park := none, chpos := 0, latches := [] }

/-- The loop of `EXIT` (R80): the next path with a lane left, or `none` when the group ends. -/
def exitLoop : List Mark → Option (Mask × DWord × Word × List Mark)
  | [] => none
  | top :: rest =>
    if top.pmask != 0 then some (top.pmask, top.ppc, top.pfmt, { top with pmask := 0 } :: rest)
    else if top.mask != 0 then some (top.mask, seqNext top.join 8, top.fmt, rest)
    else exitLoop rest

/-- The lanes `x` leave the mask and every stack entry for good (R80), and the CMASK that a return would bring back
(log entry 79). -/
def Group.dropLanes (g : Group) (x : Mask) : Group :=
  { g with
    mask := g.mask &&& ~~~x
    stack := g.stack.map fun m => { m with mask := m.mask &&& ~~~x, pmask := m.pmask &&& ~~~x }
    sb := { g.sb with cmask := if g.sb.valid then g.sb.cmask &&& ~~~x else g.sb.cmask } }

/-- A group goes on at `next` with the lanes it has left; with none, by the loop of `EXIT` (R80). -/
def Group.goOn (g : Group) (next : DWord) : Group :=
  if g.mask != 0 then { g with pc := next }
  else match exitLoop g.stack with
    | some (m, pc, fmt, st) => { g with mask := m, stack := st, pc := pc, fmt := fmt }
    | none => { g.end_ true with pc := next }

/-- `EXIT` of the lanes `x`; the PC is that of the next instruction. -/
def Group.exitLanes (g : Group) (x : Mask) (next : DWord) : Group := (g.dropLanes x).goOn next

/-- A double trap (R213): the group ends and a kind-2 record is posted. -/
def State.doubleTrap (s : State) (g : Group) (cls sub : Nat) (cpc : DWord) : State :=
  (s.setG (g.end_ false)).postFault (s.ctxOfG g)
    { id := faultId g, cause := 0x20F, va := cpc, first := BitVec.ofNat 32 (cls * 256 + sub), map := 0, pc := cpc }

/-- Latches still to be filled by a load follow the chain into the side buffer (R54). -/
def chainToSb (gid : Nat) (l : LAcc) : LAcc :=
  if l.gid = gid then { l with chain := l.chain.map (· + 8) } else l

/-- The state of a group inside its handler, as `enter` of R211 leaves it. -/
def Group.inHandler (g : Group) (hbase : DWord) (t : TrapRec) (epc : DWord) (sync : Bool) : Group :=
  { g with
    sb := { valid := true, cls := BitVec.ofNat 32 t.cls, sub := BitVec.ofNat 32 t.sub, lanes := t.lanes, epc := epc
            cpc := t.cpc, sup := g.sup, lw := t.lw, code := t.code, chpos := BitVec.ofNat 32 g.chpos, cmask := g.mask
            depth := BitVec.ofNat 32 g.stack.length, scr := g.sb.scr, fmt := g.fmt, latches := g.latches
            scallD := t.scallD, sync := sync, clen := t.clen }
    mask := if t.cls = 5 then t.lanes else g.mask
    sup := true
    pc := hbase + BitVec.ofNat 64 (256 * t.cls)
    chpos := 0
    latches := []
    park := none }

/-- Trap entry (R211); with a valid side buffer entry it is a double trap. -/
def State.enterTrap (s : State) (g : Group) (t : TrapRec) (epc : DWord) (sync : Bool) : State :=
  if g.sb.valid then s.doubleTrap g t.cls t.sub t.cpc
  else
    let s := { s with lacc := s.lacc.map (chainToSb g.gid) }
    s.setG (g.inHandler (s.hbase (s.ctxOfG g)) t epc sync)

/-- A synchronous trap: taken at once, or parked while the group is tainted (R306). -/
def State.syncTrap (s : State) (g : Group) (t : TrapRec) : State :=
  if g.dep = 0 then s.enterTrap g t t.cpc true
  else s.setG { g with park := some (.trapTainted t) }

/-- Order in which pending traps are taken (R212). -/
def pendOrder : List Nat := [12, 11, 8, 13, 6]

/-- The pending trap that is taken first, and the rest (R212). -/
def takePend (l : List TrapRec) : Option (TrapRec × List TrapRec) :=
  pendOrder.findSome? fun c =>
    match l.find? fun t => t.cls == c with
    | some t => some (t, l.erase t)
    | none => none

/-- A deferred or asynchronous trap falls due in a group (R212). A group that has exited keeps only the record in its
side buffer (R150). -/
def Group.addPend (g : Group) (t : TrapRec) : Group :=
  if g.exited then
    { g with sb := { g.sb with cls := BitVec.ofNat 32 t.cls, sub := BitVec.ofNat 32 t.sub, lanes := t.lanes, cpc := t.cpc } }
  else { g with pend := g.pend ++ [t] }

/-- The forms of `RFT` (R214), with the target of `.to` and the register of `.rep`. -/
inductive RftForm where
  | plain | next
  | to (t : DWord)
  | rep (a : Nat)
  deriving DecidableEq, Repr

/-- The causing instruction's length: as fetched; 8, 12, 16 or 4 by its first byte where it was not fetched (R214). -/
def State.causeLen (s : State) (g : Group) : Nat :=
  if g.sb.clen != 0 then g.sb.clen
  else
    let b := match s.xlate g.core (s.ctxOfG g) g.sb.cpc.toNat .read true with
      | .pa a => (s.rd a).toNat
      | .bad _ => (Config.freeWord s.free).toNat
    if b % 4 = 3 then 4 else lenBytes (b % 4)

/-- Target of a return (R214). -/
def State.rftTarget (s : State) (g : Group) (f : RftForm) : DWord :=
  let seq := seqNext g.sb.cpc (s.causeLen g)
  match f with
  | .plain => g.sb.epc
  | .next => if g.sb.sync then seq else g.sb.epc
  | .to t => t
  | .rep _ => seq

/-- Replies of `RFT.rep` written to the `SCALL`'s destination. -/
def Group.rftReply (g : Group) (f : RftForm) (tag : Tags) : Group :=
  match f with
  | .rep a => g.wrV g.sb.scallD.toNat g.sb.lanes (fun i => g.rdV a i) (g.vtagOf a ||| tag)
  | _ => g

/-- Latches still to be filled come back with the chain, or are lost with it. -/
def chainFromSb (gid : Nat) (back : Bool) (l : LAcc) : LAcc :=
  if l.gid = gid then { l with chain := l.chain.bind fun k => if back && 8 ≤ k then some (k - 8) else none } else l

/-- A group whose mask a return has restored: where all its lanes have exited it goes on as `EXIT` does with none left, a
tainted one when it is no longer so (R80, R306; log entry 79). -/
def Group.resumed (g : Group) : Group :=
  if g.mask != 0 then g
  else if g.dep != 0 then { g with park := some (.exitTainted 0) }
  else g.goOn g.pc

/-- The group after the return: mode, format, mask, stack, chain and PC as R214 restores them. -/
def State.rftDone (s : State) (g : Group) (f : RftForm) (tag : Tags) : State :=
  let t := s.rftTarget g f
  let back := t = g.sb.cpc || t = seqNext g.sb.cpc (s.causeLen g)
  let g' := g.rftReply f tag
  let s := { s with lacc := s.lacc.map (chainFromSb g.gid back) }
  s.setG (Group.resumed { g' with
    sup := g.sb.sup
    fmt := g.sb.fmt
    mask := g.sb.cmask
    stack := g.stack.drop (g.stack.length - g.sb.depth.toNat)
    latches := if back then g.sb.latches else []
    chpos := if back then g.sb.chpos.toNat else 0
    sb := { g.sb with valid := false }
    pc := t })

end Sys2Proof.Machine
end

