-- ==== Sys2Proof/Machine/Issue.lean ====
section
/-! DEFINITION. Issuing an instruction: what it names (R18, R25), when its group is ready (R18), the traps decided at
issue (R58, R60), its tags (R286-R289), and how it retires (R38, R50-R52). Every meaning of an encoded instruction goes
through `issue`. -/

namespace Sys2Proof.Machine

/-! ## What an instruction names -/

/-- What an instruction names. `reads` and `writes` are range-checked at issue (R25); `xreads` and `xwrites` belong to
ranges that the instruction's own description checks, and only count for R18 and R287. -/
structure Info where
  hdr : Hdr
  len : Nat
  reads : List Reg
  writes : List Reg
  xreads : List Reg
  xwrites : List Reg
  lats : List Nat          -- latches read
  scal : List Nat          -- latches that must hold a scalar (R49, R53)
  vecl : List Nat          -- latches that must hold a vector (R76, R77, R113, R123)
  priv : Bool              -- R206
  loader : Bool            -- R17
  path : Option Path       -- R138
  bar : Option Bar         -- R25, R183
  settled : Bool           -- not ready until untainted (R295)
  ctl : List Reg           -- registers and predicates whose masks join CTL (R288)
  masks : List Reg         -- registers not read whose masks join T (R309)
  uni : Option Bool        -- uniform or per lane where R49 does not follow from the operands
  deriving DecidableEq, Repr

/-- Registers of an operand. -/
def rOp : Opnd → List Reg
  | .s n => [.s n.toNat]
  | .v n => [.v n.toNat]
  | _ => []
/-- Latches of an operand. -/
def lOp : Opnd → List Nat
  | .l n => [n.toNat]
  | _ => []
/-- Registers of a destination. -/
def rDst : Dst → List Reg
  | .s n => [.s n.toNat]
  | .v n => [.v n.toNat]
  | .none => []
/-- Predicates of a compare destination; p0 is never written. -/
def rCmp (d : CmpDst) : List Reg := ([d.c.toNat, d.k.toNat].filter (· != 0)).map .p
def sN (k : SReg) (n : Nat) : List Reg := (List.range n).map fun i => .s (k.toNat + i)
def vN (k : VReg) (n : Nat) : List Reg := (List.range n).map fun i => .v (k.toNat + i)

/-- An instruction that names nothing. -/
def inf0 (h : Hdr) (len : Nat) : Info :=
  ⟨h, len, [], [], [], [], [], [], [], false, false, none, none, false, [], [], none⟩

/-- An instruction with operands `os` and one destination. A scalar destination makes every latch a scalar source. -/
def infD (h : Hdr) (len : Nat) (d : Dst) (os : List Opnd) : Info :=
  { inf0 h len with
    reads := os.flatMap rOp
    writes := rDst d
    lats := os.flatMap lOp
    scal := match d with | .s _ => os.flatMap lOp | _ => [] }

/-- An instruction with operands `os` that writes predicates only. -/
def infP (h : Hdr) (len : Nat) (d : CmpDst) (os : List Opnd) : Info :=
  { inf0 h len with reads := os.flatMap rOp, writes := rCmp d, lats := os.flatMap lOp }

/-- A uniform instruction whose operands must be scalar; uniform also where a latch then holds a vector (R49, R209). -/
def infS (h : Hdr) (len : Nat) (wr : List Reg) (os : List Opnd) : Info :=
  { inf0 h len with
    reads := os.flatMap rOp
    writes := wr
    lats := os.flatMap lOp
    scal := os.flatMap lOp
    uni := some true }

/-- Registers of one column string of a format (R143). -/
def rbOf : MFmt → Nat
  | .fp16 | .bf16 => 2
  | .fp32 => 4
  | .int8 | .sb2 | .sb4 | .hs4 => 1
  | .sb7 | .hs8 => 2
/-- Registers of one source string of a floating type (R158). -/
def rsOf : FTy → Nat
  | .f32 => 4
  | .f16 | .bf16 => 2

/-- Whether a format is a block format (R161). -/
def isBlock : MFmt → Bool
  | .sb2 | .sb4 | .sb7 | .hs4 | .hs8 => true
  | _ => false

/-- BFMT of `%fmt` (R65). -/
def bfmtOf (fmt : Word) : MFmt := mfmtOf (fld fmt.toNat 4 4)
/-- AFMT of `%fmt`. -/
def afmtOf (fmt : Word) : MFmt := mfmtOf (fld fmt.toNat 0 4)
/-- ACC of `%fmt`. -/
def accOf (fmt : Word) : MAcc := maccOf (fld fmt.toNat 8 2)

/-- Registers of a local or external base and of a size operand. -/
def rGBase : GBase → List Reg
  | .ext p => sN p 2
  | .clu a => [.s a.toNat]
def rABase : ABase → List Opnd
  | .ext p => [.s p, .s (p + 1)]
  | .loc _ b => [b]
def oCopyLen : CopyLen → List Opnd
  | .opnd n => [n]
  | .ext _ => []

/-- The shape's operands, and whether the external operand is a pair. -/
def rShape (ext : SReg) : CopyShape → List Reg
  | .d1 n => sN ext 2 ++ (oCopyLen n).flatMap rOp
  | .d2 m | .d3 m => sN ext 2 ++ sN m 8
  | .layout => [.s ext.toNat]
def rRegShape (ext : SReg) : RegShape → List Reg
  | .d1 n => sN ext 2 ++ (oCopyLen n).flatMap rOp
  | .d2 m | .d3 m => sN ext 2 ++ sN m 8

/-- Registers of `MLOOP` and `MSTEP` that do not depend on values (R146). -/
def rMops (m : MOps) : List Reg :=
  [Reg.v m.vc.toNat, .v m.vb.toNat] ++ rOp m.a ++ rOp m.astride ++ rOp m.n ++
    (match m.map with | some r => sN r 8 | none => [])

/-- A Praline instruction. -/
def infR (h : Hdr) (len : Nat) (rd : List Reg) (wr : List Reg) : Info :=
  { inf0 h len with reads := rd, writes := wr, path := some .S }

/-- What each encoded instruction names, with its length in bytes (R56); `fmt` is `%fmt`, on which the ranges of
`QSPLIT` depend (R161). Steps of other agents name nothing. -/
def infoOf (fmt : Word) (i : Instr) : Info :=
  match i with
  -- control
  | .nop | .join => inf0 ⟨0, false, false⟩ 8
  | .mark _ => inf0 ⟨0, false, false⟩ 12
  | .bra h _ => { inf0 h 12 with uni := some false }
  | .brx h a | .ret h a => { inf0 h 8 with reads := sN a 2, ctl := sN a 2 }
  | .call h d _ => { inf0 h 12 with writes := sN d 2 }
  | .callx h d a => { inf0 h 8 with reads := sN a 2, writes := sN d 2, ctl := sN a 2 }
  | .exit h | .yield h | .brk h _ => inf0 h 8
  | .sleep h b | .setfmt h _ b => infS h 8 [] [b]
  | .sleepImm h _ | .setfmtImm h _ _ => inf0 h 12
  | .getfmt h d => { inf0 h 8 with writes := rDst d }
  -- integer
  | .iadd h d a b _ _ | .isub h d a b _ _ | .idiv h d a b _ _ | .irem h d a b _ _ => infD h 8 d [a, b]
  | .imul h _ d a b _ _ => infD h 8 d [a, b]
  | .imulh h _ d a b _ => infD h 8 d [a, b]
  | .imin h d a b _ | .imax h d a b _ => infD h 8 d [a, b]
  | .and h d a b | .or h d a b | .xor h d a b | .shl h d a b | .shr h d a b | .sar h d a b | .rotl h d a b =>
    infD h 8 d [a, b]
  | .iaddImm h d a _ _ _ | .isubImm h d a _ _ _ | .idivImm h d a _ _ _ | .iremImm h d a _ _ _ => infD h 12 d [a]
  | .imulImm h _ d a _ _ _ => infD h 12 d [a]
  | .imulhImm h _ d a _ _ => infD h 12 d [a]
  | .iminImm h d a _ _ | .imaxImm h d a _ _ => infD h 12 d [a]
  | .andImm h d a _ | .orImm h d a _ | .xorImm h d a _ => infD h 12 d [a]
  | .imad h _ d a b c _ _ => infD h 12 d [a, b, c]
  | .bfx h d a b c _ => infD h 12 d [a, b, c]
  | .bfi h d a b c => infD h 12 d [a, b, c]
  | .iabs h d a _ | .ineg h d a _ => infD h 8 d [a]
  | .not h d a | .popc h d a | .clz h d a | .mov h d a => infD h 8 d [a]
  | .sel h d a b k _ =>
    let f := infD h 8 d [a, b]
    { f with reads := .p k.toNat :: f.reads, ctl := [.p k.toNat] }
  | .icmp h d _ _ _ a b => infP h 8 d [a, b]
  | .icmpImm h d _ _ _ a _ => infP h 12 d [a]
  | .add64 h d a b pair =>
    let f := infS h 8 (sN d 2) [b]
    { f with reads := sN a 2 ++ f.reads ++ (match b, pair with | .s n, true => [.s (n.toNat + 1)] | _, _ => []) }
  | .lea64 h d (.base a _) => { inf0 h 16 with reads := sN a 2, writes := sN d 2 }
  | .lea64 h d _ => { inf0 h 16 with writes := sN d 2 }
  | .movi h d _ => { inf0 h 12 with writes := rDst d }
  | .lane h d _ a b =>
    let f := infD h 8 d [a, b]
    { f with scal := match d with | .s _ => lOp b | _ => [], vecl := lOp a }
  | .ballot h d b64 k _ =>
    { inf0 h 8 with
      reads := [.p k.toNat]
      writes := rDst d ++ (match d, b64 with | .s n, true => [.s (n.toNat + 1)] | _, _ => []) }
  | .vote h d (.all j) | .vote h d (.any j) => { infP h 8 d [] with reads := [.p j.toNat] }
  | .vote h d (.uni a) => { infP h 8 d [a] with vecl := lOp a }
  | .gred h d _ _ a => { infD h 8 d [a] with scal := [], vecl := lOp a, uni := some true }
  -- floating
  | .fadd h d _ a b _ | .fsub h d _ a b _ | .fmin h d _ a b _ | .fmax h d _ a b _ => infD h 8 d [a, b]
  | .fmul h _ d _ a b _ => infD h 8 d [a, b]
  | .faddImm h d _ a _ _ | .fsubImm h d _ a _ _ | .fminImm h d _ a _ _ | .fmaxImm h d _ a _ _ => infD h 12 d [a]
  | .fmulImm h _ d _ a _ _ => infD h 12 d [a]
  | .ffma h _ d _ a b c _ _ _ => infD h 12 d [a, b, c]
  | .fcmp h d _ _ a b => infP h 8 d [a, b]
  | .fcmpImm h d _ _ a _ => infP h 12 d [a]
  | .frcp h d _ a _ _ | .frsq h d _ a _ _ | .fsqrt h d _ a _ _ | .fexp2 h d _ a _ _ | .flog2 h d _ a _ _
  | .ftanh h d _ a _ _ | .fclass h d _ a _ _ => infD h 8 d [a]
  | .hadd2 h d _ a b _ | .hmin2 h d _ a b _ | .hmax2 h d _ a b _ => infD h 8 d [a, b]
  | .hmul2 h _ d _ a b _ => infD h 8 d [a, b]
  | .hadd2Imm h d _ a _ _ | .hmin2Imm h d _ a _ _ | .hmax2Imm h d _ a _ _ => infD h 12 d [a]
  | .hmul2Imm h _ d _ a _ _ => infD h 12 d [a]
  | .hfma2 h _ d _ a b c _ _ _ => infD h 12 d [a, b, c]
  | .hcmp2 h d _ _ _ a b => infP h 8 d [a, b]
  | .hcmp2Imm h d _ _ _ a _ => infP h 12 d [a]
  | .fsum h d _ a => { infD h 8 d [a] with scal := [], vecl := lOp a, uni := some true }
  -- conversions
  | .cvt h d _ _ _ a => infD h 8 d [a]
  | .pack h d _ a b => infD h 8 d [a, b]
  | .unpack h d _ _ a => infD h 8 d [a]
  | .quant h d f src a =>
    { inf0 h 8 with reads := vN a (rsOf src), writes := match d with | some v => vN v (rbOf f) | none => [] }
  | .qsplit h d src a thr c nb1 =>
    let nb := nb1.toNat + 1
    let f := infS h 12 [] [thr]
    { f with
      reads := vN a (rsOf src * nb) ++ f.reads ++ [.v c.toNat]
      writes := (match d with | some v => vN v (2 * nb * rbOf (bfmtOf fmt)) | none => []) ++ [.v c.toNat]
      uni := none }
  | .dequant h d dst f a =>
    { inf0 h 8 with reads := vN a (rbOf f), writes := match d with | some v => vN v (rsOf dst) | none => [] }
  -- matrix
  | .mloop h m _ | .mstep h m => { inf0 h 16 with reads := rMops m, path := some .M, settled := true }
  | .mzero h d n => { inf0 h 8 with reads := rOp n, writes := [.v d.toNat] }
  | .mdup h d _ m b => { inf0 h 8 with reads := sN m 8 ++ rOp b, writes := rDst d }
  | .mqry h d => { inf0 h 8 with writes := rDst d }
  | .mreset h a => { inf0 h 8 with reads := rOp a, priv := true }
  -- local buffers
  | .ldx h d _ b o | .ldw h d _ b o => infD h 8 d [b, o]
  | .stx h x _ b o | .stw h x _ b o => infD h 8 .none [x, b, o]
  | .tgive h _ b n | .ttake h _ b n => { inf0 h 8 with reads := rOp b ++ rOp n }
  | .waitp h _ t => infS h 8 [] [t]
  | .pcnt h d _ => { inf0 h 8 with writes := rDst d }
  -- copies and gathers
  | .copy h d ext _ _ sh bar _ _ =>
    { inf0 h 16 with reads := rOp d ++ rShape ext sh, loader := true, path := some .C, bar := bar.map .b }
  | .creg h d ext sh => { inf0 h 16 with reads := rRegShape ext sh, writes := rDst d, path := some .C }
  | .cunreg h a => { inf0 h 8 with reads := [.s a.toNat], path := some .C }
  | .creplay h a | .creplayDrop h a => { inf0 h 8 with reads := [.s a.toNat], loader := true, path := some .C }
  | .cred h d ext _ _ _ n bar _ _ =>
    { inf0 h 16 with reads := rOp d ++ sN ext 2 ++ (oCopyLen n).flatMap rOp, path := some .C, bar := bar.map .b }
  | .gath h d _ b o =>
    let f := infD h 8 d [o]
    { f with reads := rGBase b ++ f.reads, loader := true, path := some .G }
  | .scat h x _ b o =>
    let f := infD h 8 .none [x, o]
    { f with reads := rGBase b ++ f.reads, loader := true, path := some .G }
  -- barriers
  | .binit h b n => { infS h 8 [] [n] with bar := some (.b b), settled := true }
  | .binitImm h b _ => { inf0 h 12 with bar := some (.b b), settled := true }
  | .barr h b => { inf0 h 8 with bar := some b, settled := true }
  | .bwait h d b g => { inf0 h 8 with reads := rOp g, writes := rCmp d, bar := some b }
  | .barw h d b => { inf0 h 8 with writes := rCmp d, bar := some b, settled := true }
  | .binv h b => { inf0 h 8 with bar := some (.b b), settled := true }
  | .bqry h d _ b => { inf0 h 8 with writes := rDst d, bar := some b }
  -- atomics, fences, race log
  | .atom h d _ _ b o _ x _ => { infD h 12 d (rABase b ++ [o, x]) with path := some .A }
  | .ared h _ _ b o _ x _ => { infD h 12 .none (rABase b ++ [o, x]) with path := some .A }
  | .acas h (.one d) b o c n p _ _ =>
    let f := infD h 16 d (rABase b ++ [o, c, n])
    { f with writes := f.writes ++ rCmp p, path := some .A }
  | .acas h d b o c n p _ _ =>
    let w := match d with | .pairS r => sN r 2 | .pairV r => vN r 2 | _ => []
    let hi := fun x => match x with | .s n => [Reg.s (n.toNat + 1)] | .v n => [Reg.v (n.toNat + 1)] | _ => []
    let f := infD h 16 .none (rABase b ++ [o, c, n])
    { f with
      reads := f.reads ++ hi c ++ hi n
      writes := w ++ rCmp p
      scal := match d with | .pairS _ => f.lats | _ => []
      path := some .A }
  | .fence h _ _ | .fenceCode h => inf0 h 8
  | .raceqHead h d => { inf0 h 8 with writes := rDst d }
  | .raceqBase h a => { inf0 h 8 with reads := sN a 2 }
  -- assumptions
  | .guess h d x hnd i _ =>
    let f := infS h 16 [.s d.toNat, .s i.toNat] [x]
    { f with reads := f.reads ++ sN hnd 2 }
  | .guessN h d x i _ => infS h 16 [.s d.toNat, .s i.toNat] [x]
  | .affirm h p a | .deny h p a => infS h 8 (rCmp p) [a]
  | .tqry h d sel =>
    let rd := match sel with
      | .xline a | .wline a | .slot a | .state a => rOp a
      | _ => []
    let named := match sel with
      | .regS n => [.s n.toNat]
      | .regV n => [.v n.toNat]
      | _ => []
    { inf0 h 8 with reads := rd, masks := named, writes := rDst d }
  | .twait h => inf0 h 8
  -- invocations, mailboxes, queues
  | .invoke h d w rank _ n1 p _ =>
    { inf0 h 16 with
      reads := sN w (n1.toNat + 1) ++ rOp rank
      writes := (match d with | some r => sN r 2 | none => []) ++ rCmp p
      path := some .I }
  | .invh h d w up _ n1 p =>
    { inf0 h 16 with
      reads := sN w (n1.toNat + 1) ++ sN up 2
      writes := (match d with | some r => sN r 2 | none => []) ++ rCmp p
      path := some .I }
  | .hwait h _ p hnd => { inf0 h 8 with reads := sN hnd 2, writes := rCmp p }
  | .hwaitPark h p hnd m n =>
    { inf0 h 8 with
      reads := sN hnd 2 ++ (if n = 0 then [] else [.s m.toNat])
      xreads := sN m n.toNat
      writes := rCmp p }
  | .hget h _ p d hnd n =>
    { inf0 h 8 with reads := sN hnd 2 ++ rOp n, writes := .s d.toNat :: rCmp p }
  | .hdrop h hnd => { inf0 h 8 with reads := sN hnd 2 }
  | .mbregBind h m e _ => { inf0 h 16 with reads := rOp m ++ sN e 2 }
  | .mbregOpen h m | .mbregClose h m => { inf0 h 16 with reads := rOp m }
  | .msend h p w rank mbx n1 =>
    { inf0 h 12 with
      reads := .s w.toNat :: (rOp rank ++ rOp mbx)
      xreads := sN w (n1.toNat + 1)
      writes := rCmp p
      path := some .F }
  | .mrecv h _ p d m => { inf0 h 8 with reads := rOp m, writes := .s d.toNat :: rCmp p, xwrites := sN d 18 }
  | .qpush h p m q => { inf0 h 8 with reads := rOp q ++ sN m 16, writes := rCmp p }
  | .qpop h p d q => { inf0 h 8 with reads := rOp q, writes := sN d 16 ++ rCmp p, settled := true }
  | .qwait h q | .notify h q => { inf0 h 8 with reads := rOp q }
  | .launch h p d at_ =>
    { inf0 h 16 with
      reads := match at_ with | .pair a => sN a 2 | .label _ => []
      writes := .s d.toNat :: rCmp p }
  -- fabric
  | .rput h p _ _ r o x => { infP h 12 p [r, o, x] with path := some .F }
  | .rget h p d _ _ r o =>
    let f := infD h 12 d [r, o]
    { f with writes := f.writes ++ rCmp p, path := some .F }
  | .rred h p _ _ _ r o x => { infP h 12 p [r, o, x] with path := some .F }
  | .mcst h d _ _ _ a _ b => { inf0 h 16 with reads := rOp a ++ rOp b, writes := rDst d, path := some .F }
  -- collectives and triggered sends
  | .coll h d _ a b n => { inf0 h 16 with reads := rOp a ++ rOp b ++ rOp n, writes := sN d 2 }
  | .tsend h _ thr rank off src =>
    { inf0 h 16 with reads := rOp thr ++ rOp rank ++ rOp off ++ sN src 2 }
  | .ctset h _ _ x => { inf0 h 8 with reads := rOp x }
  | .ctsetImm h _ _ _ => inf0 h 12
  | .ctrd h d _ _ => { inf0 h 8 with writes := rDst d }
  | .ctwait h _ t => infS h 8 [] [t]
  | .gsetFull h e p q _ => { inf0 h 16 with reads := rOp e ++ sN p 2 ++ rOp q, priv := true }
  | .gsetSeq h e q => { inf0 h 16 with reads := rOp e ++ rOp q, priv := true }
  | .gsetClear h e => { inf0 h 16 with reads := rOp e, priv := true }
  | .gqry h d _ e k => { inf0 h 8 with reads := rOp e ++ rOp k, writes := rDst d }
  -- Praline
  | .prnew h d p c m => { infR h 16 (sN p 2 ++ rOp c ++ [.s m.toNat]) (rDst d) with xreads := sN m 5 }
  | .prdesc h d t k => { infR h 8 (.s t.toNat :: rOp k) [.v d.toNat] with xwrites := vN d 2 }
  | .prexp h p t l c vp => infR h 12 (.s t.toNat :: .v vp.toNat :: (rOp l ++ rOp c)) (rCmp p)
  | .prback h t vl vv => { infR h 12 [.s t.toNat, .v vl.toNat, .v vv.toNat] [] with xreads := vN vl 2 }
  | .prroot h p t c => infR h 8 (.s t.toNat :: rOp c) (rCmp p)
  | .prbest h d t => infR h 8 [.s t.toNat] (rDst d)
  | .prqry h d (.node _ t n) =>
    let f := infD h 8 d [n]
    { f with reads := .s t.toNat :: f.reads, path := some .S }
  | .prqry h d (.root t) | .prqry h d (.count t) | .prqry h d (.free t) | .prqry h d (.cap t) =>
    infR h 8 [.s t.toNat] (rDst d)
  | .prqry h d .stat => infR h 8 [] (rDst d)
  | .prfree h t => infR h 8 [.s t.toNat] []
  -- system
  | .scall h d _ a => { infD h 8 .none [a] with writes := [.v d.toNat] }
  | .rft h | .rftNext h => { inf0 h 8 with priv := true }
  | .rftTo h a => { inf0 h 8 with reads := sN a 2, priv := true }
  | .rftRep h a => { inf0 h 8 with reads := [.v a.toNat], priv := true, uni := some true }
  | .mfs h (.sp r d) =>
    { inf0 h 8 with
      writes := rDst d
      priv := match r with | .hbase | .ctx | .fqbase => true | _ => false
      uni := if r = .lane then some false else none }
  | .mfs h (.sp64 r d) =>
    { inf0 h 8 with writes := sN d 2, priv := match r with | .hbase | .ctx | .fqbase => true | _ => false }
  | .mfs h (.tr f d) =>
    { inf0 h 8 with writes := rDst d, priv := true, uni := if f = .lwlo || f = .lwhi then some false else none }
  | .mfs h (.tr64 _ d) => { inf0 h 8 with writes := sN d 2, priv := true }
  | .mts h (.fmt a) | .mts h (.flg a) => infS h 8 [] [a]
  | .mts h (.scr _ a) => { infS h 8 [] [a] with priv := true }
  | .mts h (.hbase a) | .mts h (.fqbase a) => { inf0 h 8 with reads := sN a 2, priv := true }
  | .rdclk h d | .rdtim h d => { inf0 h 8 with writes := sN d 2 }
  | .settim h b => { inf0 h 8 with reads := rOp b }
  | .settimImm h _ => inf0 h 12
  | .vinv h (.page a) => { inf0 h 8 with reads := sN a 2, priv := true }
  | .vinv h _ => { inf0 h 8 with priv := true }
  | .quiesOld h d | .quiesCur h d => { inf0 h 8 with writes := sN d 2, priv := true }
  | .fltq h d => { inf0 h 8 with writes := sN d 8, priv := true }
  | .ctxswSave h d a | .ctxswRest h d a | .ctxswQry h d a =>
    { inf0 h 8 with reads := rOp a, writes := rDst d, priv := true }
  | _ => inf0 ⟨0, false, false⟩ 8

/-! ## Readiness (R18) -/

/-- Registers that outstanding operations of a group have still to write. -/
def State.busy (s : State) (gid : Nat) : List Reg :=
  (s.ops.filter fun o => o.gid == gid).flatMap (·.wregs)
    ++ (s.lacc.filter fun l => l.gid == gid).flatMap fun l => rDst l.dst

/-- A matrix issue's locked C and B registers (R147). -/
def MIssue.cRegs (m : MIssue) : List Reg := if m.null then [] else (List.range 16).map fun i => .v (m.vc + i)
def MIssue.bRegs (m : MIssue) : List Reg :=
  if m.null || (m.n = 0 && !m.step) then []
  else (List.range (if m.step then rbOf m.bf else (m.n - 1) * m.bstep + rbOf m.bf)).map fun i => .v (m.vb + i)

/-- The uncompleted matrix issues of a group. -/
def State.mIssues (s : State) (g : Group) : List MIssue :=
  match s.team? g.tid with
  | none => []
  | some t => (t.quads.flatMap fun q => q.sets.flatMap (·.issues)).filter fun m => m.gid == g.gid

/-- Latch `l k` counted from the chain's beginning. -/
def Group.latchIx (g : Group) (k : Nat) : Option Nat :=
  if k < g.latches.length then some (g.latches.length - 1 - k) else none

/-- Whether a latch read waits for a load (R18, R133). -/
def State.latchBusy (s : State) (g : Group) (k : Nat) : Bool :=
  s.lacc.any fun l => l.gid == g.gid && l.chain.isSome && l.chain == g.latchIx k

/-- Registers an instruction reads, its guard among them. -/
def Info.allReads (f : Info) : List Reg := .p f.hdr.gp.toNat :: (f.reads ++ f.xreads)
def Info.allWrites (f : Info) : List Reg := f.writes ++ f.xwrites

/-- Whether a team's context holds its places on the cores (R33, R218). -/
def State.holds (s : State) (tid : Nat) : Bool :=
  match s.ctx? (s.ctxOfT tid) with | some c => c.st == .resident || c.st == .saving | none => false

/-- Whether an array reset holds a group back: one on its core whose quad it does not belong to (R151), or the one its
`MRESET` began (R157). -/
def State.resetHolds (s : State) (g : Group) : Bool :=
  s.teams.any fun t => t.core == g.core && s.holds t.tid &&
    t.quads.any fun q => (match q.reset with | some ms => !ms.contains g.gid | none => false) || q.resetBy == some g.gid

/-- Whether a group can issue an instruction now (R18). What an instruction's own description makes it wait for is judged
by its meaning, which then answers that it waits; `State.canIssue` adds that. -/
def State.ready (s : State) (g : Group) (f : Info) : Bool :=
  g.park.isNone && !g.exited && !g.ended && !s.resetHolds g
    && (f.allReads ++ f.allWrites).all (fun r => !(s.busy g.gid).contains r)
    && f.lats.all (fun k => !s.latchBusy g k)
    && (s.mIssues g).all (fun m =>
        (f.allReads ++ f.allWrites).all (fun r => !m.cRegs.contains r) && f.allWrites.all (fun r => !m.bRegs.contains r))
    && (match f.path with | some p => decide (g.pathCount p < 255) | none => true)
    && (!f.settled || g.dep == 0)

/-- Whether a group may write registers that its instruction does not name outright: none awaited, none locked (R18, R147). -/
def State.regsFree (s : State) (g : Group) (rs : List Reg) : Bool :=
  rs.all fun r => !(s.busy g.gid).contains r && (s.mIssues g).all fun m => !m.cRegs.contains r && !m.bRegs.contains r
/-- Whether a group may read such registers. -/
def State.regsRead (s : State) (g : Group) (rs : List Reg) : Bool :=
  rs.all fun r => !(s.busy g.gid).contains r && (s.mIssues g).all fun m => !m.cRegs.contains r

/-! ## Traps decided at issue (R58, R60) -/

/-- Whether a register lies within the launch counts (R25). -/
def Group.has (g : Group) : Reg → Bool
  | .s n => decide (n < g.sregs)
  | .v n => decide (n < g.vregs)
  | .p _ => true

/-- Whether a latch holds a vector. -/
def Group.latchVec (g : Group) (k : Nat) : Bool := match g.latch? k with | some l => l.val.isVec | none => false

/-- Whether a barrier number names a barrier of the team (R25, R183). -/
def State.hasBar (s : State) (g : Group) (b : Bar) : Bool :=
  match s.team? g.tid, b with
  | some t, .b n => decide (n.toNat < t.nbars)
  | some t, .bcl => t.clid.isSome
  | none, _ => false

/-- Bytes of a group's registers in its image (R31). -/
def Group.regBytes (g : Group) : Nat := g.vregs * g.width * 4 + g.sregs * 4
/-- Bytes of a group's control block (R31). -/
def Group.ctlBytes (g : Group) : Nat := 4096 + 64 * g.width
/-- Bytes of a group's image (R31). -/
def Group.imageBytes (g : Group) : Nat := g.regBytes + g.ctlBytes
/-- Lines of 256 bytes that the image bytes `a … a + n - 1` touch. -/
def lineSpan (a n : Nat) : List Nat := unitsOf 256 a n

/-- Image lines of a register (R31, R222). Predicates lie in the control block, whose layout the spec does not give: they
stand for all of its lines, and every instruction reads one, its guard (log entry 80). -/
def Group.imgLines (g : Group) : Reg → List Nat
  | .v n => lineSpan (n * g.width * 4) (g.width * 4)
  | .s n => lineSpan (g.vregs * g.width * 4 + n * 4) 4
  | .p _ => lineSpan g.regBytes g.ctlBytes

/-- Whether a register line that an instruction reads is poisoned (R222). -/
def Group.readsPoison (g : Group) (rs : List Reg) : Bool := !g.poison.isEmpty && (rs.flatMap g.imgLines).any g.poison.contains

/-- The first cause an instruction meets at issue, as class and subcode (R60); last, a poisoned register line (R222). -/
def State.issueTrap (s : State) (g : Group) (f : Info) : Option (Nat × Nat) :=
  if f.vecl.any fun k => match g.latch? k with | some l => !l.val.isVec | none => false then some (0, 0x05)
  else if f.priv && !g.sup then some (1, 0x01)
  else if f.loader && g.role != .loader then some (1, 0x02)
  else if !(f.reads ++ f.writes).all g.has then some (2, 0x01)
  else if g.chpos = 0 && !f.lats.isEmpty then some (2, 0x03)
  else if f.lats.any fun k => (g.latch? k).isNone then some (2, 0x02)
  else if g.chpos = 8 then some (2, 0x04)
  else if f.scal.any g.latchVec then some (2, 0x05)
  else if (match f.bar with | some b => !s.hasBar g b | none => false) then some (7, 0x10)
  else if g.readsPoison f.allReads then some (12, 0x01)
  else none

/-! ## Uniform execution (R49) and tags (R287-R289) -/

/-- Whether a register is a vector, and whether it is a scalar. -/
def Reg.isV : Reg → Bool | .v _ => true | _ => false
def Reg.isS : Reg → Bool | .s _ => true | _ => false

/-- Whether an instruction is uniform (R49). A predicate is none of the sources that make one so: `SEL` is uniform with a
scalar destination only (R74). -/
def Group.uniform (g : Group) (f : Info) : Bool :=
  match f.uni with
  | some b => b
  | none =>
    if f.writes.any Reg.isV then false
    else f.writes.any Reg.isS || (f.reads.all Reg.isS && f.lats.all (fun k => !g.latchVec k))

/-- The mask of a register, predicate or latch. -/
def Group.tagOf (g : Group) : Reg → Tags
  | .s n => g.stagOf n
  | .v n => g.vtagOf n
  | .p n => g.ptagOf n
def Group.tagsOf (g : Group) (rs : List Reg) : Tags := rs.foldl (fun t r => t ||| g.tagOf r) 0

/-- CTL as the instruction leaves it before it acts (R288). -/
def Group.ctlAfter (g : Group) (f : Info) : Tags := g.ctl ||| g.tagsOf (.p f.hdr.gp.toNat :: f.ctl)

/-- The set T of an instruction, without the lines it reads (R287). -/
def Group.tSet (g : Group) (f : Info) : Tags :=
  g.ctlAfter f ||| g.tagsOf (f.reads ++ f.xreads ++ f.masks)
    ||| f.lats.foldl (fun t k => t ||| (match g.latch? k with | some l => l.tag | none => 0)) 0

/-- The snapshot a group would take now (R289). -/
def Group.snap (g : Group) (slot : Nat) (kind : SnapKind) (opMark : Nat) : Snapshot where
  slot := slot
  kind := kind
  v := g.v
  s := g.s
  p := g.p
  vtag := g.vtag
  stag := g.stag
  ptag := g.ptag
  latches := g.latches
  chpos := g.chpos
  ctl := g.ctl
  mask := g.mask
  stack := g.stack
  fmt := g.fmt
  flg := g.flg
  timer := g.timer
  pc := g.pc
  pend := g.pend
  opMark := opMark

/-- Slots named by a tag mask, ascending. -/
def slotsOf (t : Tags) : List Nat := (List.range 8).filter fun k => t.getLsbD k

/-- Slots of `t` come into the group: a snapshot for each that DEP does not hold yet, newest first (R289). -/
def Group.bring (g : Group) (pre : Snapshot) (t : Tags) : Group :=
  { g with
    snaps := ((slotsOf (t &&& ~~~g.dep)).map fun k => { pre with slot := k }) ++ g.snaps
    dep := g.dep ||| t }

/-- Snapshots that a group may still take of an earlier point: those of its operations, local accesses and matrix issues whose
lines may bring a slot when they are performed (R289). -/
def State.lateSnaps (s : State) (gid : Nat) : List Snapshot :=
  ((s.ops.filter fun o => o.gid == gid).filterMap (·.pre)) ++ ((s.lacc.filter fun a => a.gid == gid).map (·.pre))
    ++ s.teams.flatMap fun t => t.quads.flatMap fun q => q.sets.flatMap fun x => (x.issues.filter fun m => m.gid == gid).map (·.pre)

/-- The same when an access is performed after its issue: its snapshots stand before those of later instructions. -/
def Group.bringLate (g : Group) (pre : Snapshot) (t : Tags) : Group :=
  { g with
    snaps := (g.snaps.takeWhile fun x => decide (pre.opMark < x.opMark))
      ++ ((slotsOf (t &&& ~~~g.dep)).map fun k => { pre with slot := k })
      ++ (g.snaps.dropWhile fun x => decide (pre.opMark < x.opMark))
    dep := g.dep ||| t }

/-- What an operation leaves, as a snapshot taken after its issue shows it (log entry 77). -/
def Snapshot.landed (x : Snapshot) (g : Group) (f : Group → Group) : Snapshot :=
  let h := f { g with v := x.v, s := x.s, p := x.p, vtag := x.vtag, stag := x.stag, ptag := x.ptag,
                      latches := x.latches, chpos := x.chpos, flg := x.flg, pend := x.pend }
  { x with v := h.v, s := h.s, p := h.p, vtag := h.vtag, stag := h.stag, ptag := h.ptag, latches := h.latches, flg := h.flg,
           pend := h.pend }

/-- Slots that a list of snapshots is for. -/
def snapSlots (l : List Snapshot) : Tags := l.foldl (fun m x => m ||| (1#8 <<< x.slot)) 0

/-- The snapshots, newest first, once operation `id` has left what `f` does, under the mask `t`: those taken after it issued
hold it, but for one that is older than the snapshot of a slot of `t`, since what depends on that slot is no part of it (R289,
R304 step 1). -/
def landSnaps (g : Group) (id : Nat) (t : Tags) (f : Group → Group) : List Snapshot → List Snapshot
  | [] => []
  | x :: xs => (if id < x.opMark && t &&& ~~~snapSlots xs == 0 then x.landed g f else x) :: landSnaps g id t f xs

/-- Results and traps of operation `id`, under the mask `t`, reach the group and its snapshots (R304 step 7, log entry 77). -/
def Group.landed (g : Group) (id : Nat) (f : Group → Group) (t : Tags := 0) : Group :=
  { f g with snaps := landSnaps g id t f g.snaps }
/-- The same in the state. -/
def State.landed (s : State) (gid id : Nat) (f : Group → Group) (t : Tags := 0) : State :=
  s.updG gid fun g => g.landed id f t

/-! ## Issue and retirement -/

/-- What a meaning sees: the group with CTL already grown, the instruction's names, T, the snapshot just before it, the
executing lanes, whether it is uniform, and the sequential next PC. -/
structure IC where
  g : Group
  f : Info
  t : Tags
  pre : Snapshot
  m : Mask
  uni : Bool
  next : DWord
  deriving DecidableEq, Repr

/-- `uguard()` (R62). -/
def IC.ug (c : IC) : Bool := c.m != 0

/-- What a meaning answers: not ready, a synchronous trap, its effect with the PC (`none` for the next instruction) and
the result for the chain (R52), or its effect with PC and chain already set (trap entry and return). -/
inductive Act where
  | wait
  | trap (cls sub : Nat) (lanes : Mask) (lw : Sparse DWord) (code : Word)
  | go (s : State) (pc : Option DWord) (res : Option LatchV)
  | done (s : State)

/-- A trap with nothing but lanes. -/
def Act.trp (cls sub : Nat) (lanes : Mask) : Act := .trap cls sub lanes [] 0
/-- A trap of a uniform instruction: lane 0 (R209). -/
def Act.trpU (cls sub : Nat) : Act := .trap cls sub 1 [] 0
/-- A trap of a uniform instruction with an address in lane 0. -/
def Act.trpA (cls sub : Nat) (va : Nat) : Act := .trap cls sub 1 (sset 0 [] 0 (BitVec.ofNat 64 va)) 0

/-- The cycle count of a group's sub-core. -/
def State.cycleOf (s : State) (g : Group) : Nat := sget 0 s.cycles (g.core * 4 + g.num % 4)

/-- Rank of an issue in cycle `c` among those of R19; the odd numbers rank groups after the issues of a cycle (R83). -/
def issueRank (c : Nat) : Nat := 2 * c

/-- A group has issued: its ageing starts again (R19). -/
def Group.issued (g : Group) (cycle : Nat) : Group := { g with age := 0, agedAt := none, lastIssue := issueRank cycle }

/-- Chain position, latches and PC after an instruction (R38, R50-R52). -/
def Group.retire (g : Group) (f : Info) (t : Tags) (pc : DWord) (res : Option LatchV) : Group :=
  { g with
    pc := pc
    chpos := if f.hdr.ch then g.chpos + 1 else 0
    latches := if f.hdr.ch then (match res with | some v => ⟨v, t⟩ :: g.latches | none => g.latches) else [] }

/-- Loads of a group that would still fill a latch of a chain that has ended. -/
def dropChain (gid : Nat) (l : LAcc) : LAcc :=
  if l.gid = gid && (match l.chain with | some k => decide (k < 8) | none => false) then { l with chain := none } else l

/-- The effect of a trap, or of a completed instruction, on the state. -/
def State.settle (s : State) (c : IC) : Act → State
  | .wait => s
  | .trap cls sub lanes lw code =>
    let g := (match s.grp? c.g.gid with | some g => g | none => c.g).issued (s.cycleOf c.g)
    s.syncTrap g ⟨cls, sub, lanes, g.pc, lw, code, 0, c.f.len⟩
  | .go s' pc res =>
    let s' := if c.f.hdr.ch then s' else { s' with lacc := s'.lacc.map (dropChain c.g.gid) }
    s'.updG c.g.gid fun g => (g.retire c.f c.t (pc.getD c.next) res).issued (s.cycleOf c.g)
  | .done s' => s'.updG c.g.gid fun g => g.issued (s.cycleOf c.g)

/-- What a meaning is given for an instruction of a group. -/
def State.icOf (s : State) (g : Group) (f : Info) : IC where
  g := { g with ctl := g.ctlAfter f }
  f := f
  t := g.tSet f
  pre := g.snap 0 .other s.nextId
  m := g.execMask f.hdr
  uni := g.uniform f
  next := seqNext g.pc f.len

/-- Issues an instruction of the current group: nothing while it is not ready, else the first trap decided at issue, else
what the meaning `act` answers (R18, R57-R60, R68). -/
def issue (i : Instr) (act : State → IC → Act) (s : State) : State :=
  match s.grp? s.cur with
  | none => s
  | some g =>
    let f := infoOf g.fmt i
    if !s.ready g f then s
    else
      let c := s.icOf g f
      match s.issueTrap g f with
      | some (cls, sub) => s.settle c (.trp cls sub (if c.uni then 1 else g.mask))
      | none => s.settle c (act (s.setG c.g) c)

/-! ## Operands and destinations -/

/-- `opnd` of R62: a short immediate is sign-extended. -/
def Group.opnd (g : Group) (o : Opnd) (i : Nat) : Word :=
  match o with
  | .s n => g.rdS n.toNat
  | .v n => g.rdV n.toNat i
  | .l k => match g.latch? k.toNat with | some l => l.val.at i | none => 0
  | .imm x => x.signExtend 32

/-- An operand in lane 0, as a uniform instruction reads it. -/
def IC.op (c : IC) (o : Opnd) : Word := c.g.opnd o 0
/-- The same as an unsigned number. -/
def IC.u (c : IC) (o : Opnd) : Nat := (c.op o).toNat

/-- The vector of a function on lanes, as a latch value. -/
def latchVec (w : Nat) (f : Nat → Word) : LatchV :=
  .vector ((List.range w).foldl (fun v i => sset 0 v i (f i)) [])

/-- `setreg` for one result (R45, R49, R52): the group with the destination written, and the latch value. -/
def IC.setreg (c : IC) (d : Dst) (f : Nat → Word) : Group × LatchV :=
  match d with
  | .s n =>
    if c.ug then (c.g.wrS n.toNat (f 0) c.t, .scalar (f 0)) else (c.g, .scalar (c.g.rdS n.toNat))
  | .v n =>
    let g := c.g.wrV n.toNat c.m f c.t
    (g, latchVec c.g.width fun i => g.rdV n.toNat i)
  | .none =>
    if c.uni then (c.g, .scalar (if c.ug then f 0 else 0))
    else (c.g, latchVec c.g.width fun i => if c.m.getLsbD i then f i else 0)

/-- Completion with the group changed. -/
def IC.goG (_ : IC) (s : State) (g : Group) : Act := .go (s.setG g) none (none : Option LatchV)
/-- Completion that changes nothing but the PC. -/
def IC.skip (_ : IC) (s : State) : Act := .go s none none
/-- Completion with a destination written and flags raised. -/
def IC.put (c : IC) (s : State) (d : Dst) (fl : BitVec 7) (f : Nat → Word) : Act :=
  let (g, l) := c.setreg d f
  .go (s.setG (g.raise fl)) none (some l)

/-- The lanes in which a per-lane or uniform instruction evaluates: lane 0 once when it is uniform (R49). -/
def IC.evalLanes (c : IC) : List Nat := if c.uni then (if c.ug then [0] else []) else lanesOf c.m

/-- A per-lane computation with flags: the shape of every arithmetic instruction (R68, R104). -/
def IC.alu (c : IC) (s : State) (d : Dst) (f : Nat → Word × BitVec 7) : Act :=
  c.put s d (c.evalLanes.foldl (fun a i => a ||| (f i).2) 0) fun i => (f i).1

/-- Lanes of a mask for which a test holds. -/
def maskFilter (m : Mask) (p : Nat → Bool) : Mask := maskOf 64 fun i => m.getLsbD i && p i

/-- Lanes a value-dependent trap names: lane 0 for a uniform instruction (R209). -/
def IC.lanes (c : IC) : Mask := if c.uni then (if c.ug then 1 else 0) else c.m

/-- A group's flags and a predicate pair, as a compare writes them: every active lane when uniform (R49, R73). -/
def IC.cmp (c : IC) (s : State) (d : CmpDst) (f : Nat → Bool × BitVec 7) : Act :=
  let fl := c.evalLanes.foldl (fun a i => a ||| (f i).2) 0
  let g := c.g.raise fl
  if c.uni then
    if c.ug then c.goG s (g.wrCmp d g.mask (if (f 0).1 then g.mask else 0) c.t) else c.skip s
  else c.goG s (g.wrCmp d c.m (maskFilter c.m fun i => (f i).1) c.t)

/-- An outcome bit written to a pair in every active lane. -/
def Group.okPred (g : Group) (p : CmpDst) (ok : Bool) (t : Tags) : Group :=
  g.wrCmp p g.mask (if ok then g.mask else 0) t

end Sys2Proof.Machine
end

