-- ==== Sys2Proof/Machine/Device.lean ====
section
/-! DEFINITION. Homes and device registers: the window table (R232-R237), the notify aperture and wake latch (R254,
R255), the management registers (R395), and the reads and writes of an access at its home (R312-R314). -/

namespace Sys2Proof.Machine

/-! ## Wakes (R254, R255, R366) -/

/-- A work queue that nothing has configured (R365, R396). -/
def WQueue.default : WQueue := ⟨none, 64, []⟩
def State.queue (s : State) (q : Nat) : WQueue := sget WQueue.default s.queues q
def State.setQueue (s : State) (q : Nat) (x : WQueue) : State := { s with queues := sset WQueue.default s.queues q x }

/-- A group parked in `QWAIT` on queue `c` continues if the queue holds a record (R366). -/
def Group.requeue (g : Group) (c : Nat) (holds : Bool) : Group :=
  if g.park = some (.qwait c) && holds then { g with park := none } else g

/-- Delivery of a wake to channel `c`. -/
def State.deliverWake (s : State) (c : Nat) : State :=
  let holds := !(s.queue c).recs.isEmpty
  { s with
    wake := s.wake &&& ~~~(1#64 <<< c)
    groups := s.groups.map fun g => g.requeue c holds }

/-- A wake of channel `c`: delivered at once by a running aperture, else latched (R255). -/
def State.wakeChan (s : State) (c : Nat) : State :=
  if s.aperture = .active then s.deliverWake c else { s with wake := s.wake ||| (1#64 <<< c) }

/-! ## The window table (R232) -/

/-- A window-table entry that nothing has written. -/
def Window.zero : Window := ⟨0, 0⟩
def State.window (s : State) (w : Nat) : Window := sget Window.zero s.windows w

/-- The fields of an entry as it last took effect. -/
def wKind (e : BitVec 256) : Nat := fld e.toNat 0 2
def wRev (e : BitVec 256) : Bool := e.getLsbD 2
def wRd (e : BitVec 256) : Bool := e.getLsbD 3
def wWr (e : BitVec 256) : Bool := e.getLsbD 4
def wAt (e : BitVec 256) : Bool := e.getLsbD 5
def wRank (e : BitVec 256) : Nat := fld e.toNat 16 10
def wRwin (e : BitVec 256) : Nat := fld e.toNat 32 12
def wPeer (e : BitVec 256) : Nat := fld e.toNat 48 16
def wBase (e : BitVec 256) : Nat := fld e.toNat 64 52
def wLength (e : BitVec 256) : Nat := fld e.toNat 128 37
def wKey (e : BitVec 256) : DWord := BitVec.ofNat 64 (fld e.toNat 192 64)

/-- A number with the bytes from `off` up replaced. -/
def patch (x off : Nat) (bs : List Byte) : Nat :=
  let n := 8 * bs.length
  x - fld x (8 * off) n * 2 ^ (8 * off) + leNat bs * 2 ^ (8 * off)

/-- Bytes written into one aligned 8-byte word of entry `w`; the word that holds byte 0 makes the entry take effect. -/
def State.wrWindow (s : State) (w off : Nat) (bs : List Byte) : State :=
  let e := s.window w
  let raw := BitVec.ofNat 256 (patch e.raw.toNat off bs)
  if off < 8 then
    let q := if wKind raw != wKind e.eff || (wRev raw && !wRev e.eff) then s.q + 1 else s.q
    { s with q := q, windows := sset Window.zero s.windows w ⟨raw, raw⟩ }
  else { s with windows := sset Window.zero s.windows w { e with raw := raw } }

/-! ## Management registers (R395) -/

def Mgmt.fwVersion (m : Mgmt) (b : Nat) : Word :=
  let k := sget ⟨false, 0, [], 0⟩ m.banks b
  if k.valid then k.version else 0

/-- The page's bytes that the table gives; reserved bytes read as zero. -/
def Mgmt.page (m : Mgmt) : List Byte :=
  natBytes 8 m.lpddrcap.toNat ++ natBytes 8 m.cxlcap.toNat ++ natBytes 24 m.coremap.toNat
    ++ natBytes 2 m.portmap.toNat ++ natBytes 1 m.cxlmap.toNat ++ natBytes 1 m.diemap.toNat
    ++ natBytes 4 m.bootstat.toNat ++ natBytes 4 (m.fwVersion m.bankSel).toNat
    ++ natBytes 4 (m.fwVersion (1 - m.bankSel)).toNat ++ natBytes 4 m.resplim.toNat ++ natBytes 4 0
    ++ ((List.range 4).flatMap fun d => natBytes 8 (sget 0 m.cecount d).toNat)
    ++ natBytes 4 m.clk ++ natBytes 4 m.thrcount.toNat
    ++ ((List.range 4).flatMap fun d => natBytes 8 (sget 0 m.diebase d).toNat)
    ++ natBytes 24 m.collmap.toNat

/-- A write of RESPLIM; a value outside 1 … 1000 is ignored. -/
def State.setResplim (s : State) (v : Word) : State :=
  if 1 ≤ v.toNat && v.toNat ≤ 1000 then { s with mgmt := { s.mgmt with resplim := v } } else s

/-- Bytes `o … o + n - 1` of a die's CECOUNT cleared: a write of 0 clears the bytes that it writes (log entry 110). -/
def State.clearCe (s : State) (die o n : Nat) : State :=
  let v := patch (sget 0 s.mgmt.cecount die).toNat o (List.replicate n 0)
  { s with mgmt := { s.mgmt with cecount := sset 0 s.mgmt.cecount die (BitVec.ofNat 64 v) } }

/-- Bytes written into one aligned 8-byte word of the management page. -/
def State.wrMgmt (s : State) (off : Nat) (bs : List Byte) : State :=
  let word := off / 8 * 8
  if word = 0x38 then
    if off % 8 < 4 then
      s.setResplim (BitVec.ofNat 32 (patch s.mgmt.resplim.toNat (off % 8) (bs.take (4 - off % 8))))
    else s
  else if 0x40 ≤ word && word < 0x60 then
    if leNat bs = 0 then s.clearCe ((word - 0x40) / 8) (off % 8) bs.length else s
  else s

/-! ## Reads and writes at a home (R312) -/

/-- One store into a device page, within one aligned 8-byte word. -/
def State.wrDevWord (s : State) (pa : Nat) (bs : List Byte) : State :=
  let o := pa % 2 ^ 48
  if o < 0x1000 then s.wrMgmt o bs
  else if o < 0x120000 then s.wrWindow ((o - 0x100000) / 32) ((o - 0x100000) % 32) bs
  else if o < 0x200200 then s.wakeChan ((o - 0x200000) / 8)
  else s

/-- A store into a device page, cut into aligned 8-byte words. -/
def wrDev : Nat → State → Nat → List Byte → State
  | 0, s, _, _ => s
  | n + 1, s, pa, bs =>
    if bs.isEmpty then s
    else
      let k := 8 - pa % 8
      wrDev n (s.wrDevWord pa (bs.take k)) (pa + k) (bs.drop k)

/-- A byte of a device page. The aperture's words have no stated value: a free one (log entry 14). -/
def State.rdDev (s : State) (pa : Nat) : Byte :=
  let o := pa % 2 ^ 48
  if o < 0x1000 then s.mgmt.page.getD o 0
  else if o < 0x120000 then
    BitVec.ofNat 8 (fld (s.window ((o - 0x100000) / 32)).raw.toNat (8 * ((o - 0x100000) % 32)) 8)
  else if o < 0x200200 then (Config.freeWord s.free).setWidth 8
  else 0

/-- Bytes read at a home in this package. -/
def State.homeRead (s : State) (pa n : Nat) : List Byte :=
  match s.target pa with
  | .device => (List.range n).map fun i => s.rdDev (pa + i)
  | _ => s.rdBytes pa n

/-- Bytes written at a home in this package. -/
def State.homeWrite (s : State) (pa : Nat) (bs : List Byte) : State :=
  match s.target pa with
  | .device => wrDev (bs.length + 1) s pa bs
  | _ => s.wrBytes pa bs

/-- The poisoned parts of the bytes `o … o + n - 1`, given the poisoned 64-byte units: offset from `o`, and length. -/
def poisonParts (l : List Nat) (o n : Nat) : List (Nat × Nat) :=
  ((unitsOf 64 o n).filter l.contains).map fun u => (max (u * 64) o - o, min (u * 64 + 64) (o + n) - max (u * 64) o)

/-- Units of a range marked poisoned: data moved with an uncorrectable error carries it (R222). -/
def State.setPoison (s : State) (pa n : Nat) : State :=
  { s with poison := (s.poison ++ unitsOf 64 pa n).eraseDups }

/-- Moved data takes its poison along to external memory, or to a local buffer. -/
def State.carryPoison (s : State) (pa : Nat) (ps : List (Nat × Nat)) : State :=
  ps.foldl (fun s p => s.setPoison (pa + p.1) p.2) s
def Team.carryPoison (t : Team) (b : Buf) (o : Nat) (ps : List (Nat × Nat)) : Team :=
  ps.foldl (fun t p => t.setPoison b (o + p.1) p.2) t

/-- `n` free bytes, from draw `k` on. -/
def freeBytes (k n : Nat) : List Byte := (List.range n).map fun i => (Config.freeWord (k + i)).setWidth 8

/-- A soft error happens (R222, R395). When and where is no rule's to say: it is an argument of the cycle (log entry 82). -/
def State.softError (s : State) : SoftError → State
  | .corrected d => { s with mgmt := { s.mgmt with cecount := sset 0 s.mgmt.cecount d.toNat (sget 0 s.mgmt.cecount d.toNat + 1) } }
  | .ext pa => s.setPoison pa 1
  | .buf tid b off => s.updT tid fun t => if off < t.size b then t.setPoison b off 1 else t
  | .line gid n => s.updG gid fun g => if 256 * n < g.imageBytes then { g with poison := (n :: g.poison).eraseDups } else g

/-! ## Where an access goes (R192, R233, R234) -/

/-- Whether a home is a window that leads back to this rank. -/
def Home.isOwn : Home → Bool | .own _ _ => true | _ => false

/-- Resolves a physical address for an access of `sz` bytes; `upd` says that it is an atomic update (R233). -/
def State.home (s : State) (pa sz : Nat) (upd : Bool) : Home :=
  match s.target pa with
  | .none => .none
  | .window w off =>
    let e := (s.window w).eff
    if wKind e != 2 && wKind e != 3 then .refused 0x01
    else if wRev e then .refused 0x03
    else if wLength e < off + sz then .refused 0x02
    else if wKind e = 3 then
      if upd then .refused 0x04 else .far (.uet (wPeer e) (wBase e + off) (wKey e))
    else if wRank e = s.rank then .own (wRwin e) off
    else .far (.gfp (wRank e) (wRwin e) off)
  | _ => .mem pa

/-- What a remote access needs of an export. -/
inductive Need where
  | rd | wr | upd
  deriving DecidableEq, Repr

/-- The target's check of an export window (R234): an address, or a cause. -/
def State.export_ (s : State) (w off sz : Nat) (n : Need) : Tr :=
  let e := (s.window w).eff
  let right := match n with | .rd => wRd e | .wr => wWr e | .upd => wAt e
  if wKind e != 1 then .bad 0x01
  else if wRev e then .bad 0x03
  else if !right then .bad 0x04
  else if wLength e < off + sz then .bad 0x02
  else .pa (wBase e + off)

/-- The home of an access that ends in this package, or the cause that refuses it. -/
def State.homePa (s : State) (h : Home) (sz : Nat) (n : Need) : Option Tr :=
  match h with
  | .mem pa => some (.pa pa)
  | .own w off => some (s.export_ w off sz n)
  | .refused c => some (.bad c)
  | .none => some (.bad 0x08)
  | .far _ => none

/-- A far access leaves; `ord` as in `RemoteReq`. -/
def State.sendFar (s : State) (f : Far) (gid op lane : Nat) (act : RAct) (ord : Bool := false) : State :=
  match f with
  | .gfp rank win off => s.emit (.req rank ⟨s.rank, gid, ord, op, lane, win, off, act⟩)
  | .uet peer addr key => s.emit (.uet peer addr key act)

/-- The answer of a performed access, and of a refused one. -/
def yesAns (lane : Nat) (data : DWord) : LaneAns := ⟨lane, true, 0, data, false⟩
/-- The cause of an access that has no response within the limit (R236); whether it was performed stays open. -/
def noReply : BitVec 8 := 0x05
def noAns (lane cause : Nat) : LaneAns := ⟨lane, false, BitVec.ofNat 8 cause, 0, false⟩

/-- The location of the byte at a translated address (R312): an import window that leads back to this rank names the memory
under the export. -/
def State.loc (s : State) (pa : Nat) : Loc :=
  match s.home pa 0 false with
  | .own w off => .here (wBase (s.window w).eff + off)
  | .far f => .far f
  | _ => .here pa

/-- What the tests of an import window decide of an access (R233): none where the address lies behind no window. -/
def State.viaOf (s : State) (pa sz : Nat) (upd : Bool) : Option Home :=
  match s.target pa with | .window _ _ => some (s.home pa sz upd) | _ => none

/-- Where the access of a lane goes. -/
def State.laneHome (s : State) (l : Lane) (sz : Nat) (upd : Bool) : Home := l.via.getD (s.home l.pa sz upd)

/-- The location that a lane's access reaches (R312). -/
def State.laneLoc (s : State) (l : Lane) : Loc :=
  match l.via with
  | some (.mem pa) => .here pa
  | some (.own w off) => .here (wBase (s.window w).eff + off)
  | some (.far f) => .far f
  | _ => s.loc l.pa

/-- A home `d` bytes on. -/
def Home.shift (h : Home) (d : Nat) : Home :=
  match h with
  | .mem pa => .mem (pa + d)
  | .own w off => .own w (off + d)
  | .far (.gfp rank win off) => .far (.gfp rank win (off + d))
  | .far (.uet peer addr key) => .far (.uet peer (addr + d) key)
  | h => h

/-- The location of byte 0 of 64-byte line `k`, where `l` is the location of byte `o` of the same page or window. -/
def Loc.line (l : Loc) (o k : Nat) : Loc :=
  match l with
  | .here pa => .here (pa + 64 * k - o)
  | .far (.gfp rank win off) => .far (.gfp rank win (off + 64 * k - o))
  | .far (.uet peer addr key) => .far (.uet peer (addr + 64 * k - o) key)

/-! ## Reads and updates at a home with poison (R222) -/

/-- A value read at a home; poisoned data has no stated value (log entry 18). -/
def State.homeVal (s : State) (pa sz : Nat) : State × Nat :=
  if s.poisoned pa sz then (s.draw, (Config.freeWord s.free).toNat % 2 ^ (8 * sz)) else (s, leNat (s.homeRead pa sz))

/-- Bytes that a `GATH` or `COPY` reads at a home. Of the words of a Praline operation that has not completed it may see
some as they were; a word once seen written stays so (R373; log entry 97). -/
def State.seeHome (s : State) (pa n : Nat) : State × List Byte :=
  let here := s.late.filter fun e => pa < 4 * e.word + 4 && 4 * e.word < pa + n
  let bs := s.homeRead pa n
  if here.isEmpty then (s, bs)
  else
    let x := Config.freeWord s.free
    let was := fun (e : Late) => x.getLsbD (e.word % 64) && s.rdBytes (4 * e.word) 4 == e.new && s.ops.any fun o => o.id == e.op
    ({ s.draw with late := s.late.filter fun e => !here.contains e || was e },
      bs.zipIdx.map fun b => match here.find? fun e => e.word == (pa + b.2) / 4 && was e with
        | some e => e.old.getD ((pa + b.2) % 4) 0
        | none => b.1)

/-- Bytes at a home with the parts that carry an uncorrectable error. -/
def State.homeData (s : State) (pa n : Nat) : FarData := ⟨s.homeRead pa n, poisonParts s.poison pa n⟩

/-- The same as a copy reads them. -/
def State.seeData (s : State) (pa n : Nat) : State × FarData :=
  let (s', bs) := s.seeHome pa n
  (s', ⟨bs, poisonParts s.poison pa n⟩)

/-- Such bytes written at a home: whole units lose their poison, and what came poisoned stays so. -/
def State.putData (s : State) (pa : Nat) (d : FarData) : State := (s.homeWrite pa d.bytes).carryPoison pa d.bad

/-- Poison of a range once every byte of it has been replaced, word by word (R222). -/
def State.replaced (s : State) (pa n : Nat) (bad : List (Nat × Nat)) : State :=
  State.carryPoison { s with poison := unpoison 64 s.poison pa n } pa bad
def Team.replaced (t : Team) (b : Buf) (o n : Nat) (bad : List (Nat × Nat)) : Team :=
  Team.carryPoison (t.wr b o (t.rdBytes b o n)) b o bad

end Sys2Proof.Machine
end

