-- ==== Sys2Proof/Machine/Flags.lean ====
section
/-! DEFINITION. Number formats and every flag computation (spec/05, spec/06): exact values, rounding with its flags, the
accuracy classes, the function results of R120, and the block formats. -/

namespace Sys2Proof.Machine

/-! ## Flags (R66) -/

def fInvalid : BitVec 7 := 1
def fDivZero : BitVec 7 := 2
def fOverflow : BitVec 7 := 4
def fUnderflow : BitVec 7 := 8
def fInexact : BitVec 7 := 16
def fIntOvf : BitVec 7 := 32
def fSat : BitVec 7 := 64

/-- The flag `f` when `b` holds. -/
def flagIf (b : Bool) (f : BitVec 7) : BitVec 7 := if b then f else 0

/-- `satclamp` (R62) with its flag. -/
def satclamp (y lo hi : Int) : Int × BitVec 7 :=
  if y < lo then (lo, fSat) else if hi < y then (hi, fSat) else (y, 0)

/-! ## Exact values (R90) -/

/-- A value of R62: NaN, an infinity, a signed zero, or the exact nonzero real `(-1)^neg · m · 2^e`. -/
inductive FVal where
  | nan
  | inf (neg : Bool)
  | zero (neg : Bool)
  | fin (neg : Bool) (m : Nat) (e : Int)
  deriving DecidableEq, Repr

/-- Fraction bits, exponent bits and bias of a format (R89). -/
structure FFmt where
  k : Nat
  eb : Nat
  bias : Nat
  deriving DecidableEq, Repr

def ffmt : FTy → FFmt
  | .f32 => ⟨23, 8, 127⟩
  | .f16 => ⟨10, 5, 15⟩
  | .bf16 => ⟨7, 8, 127⟩

/-- Pattern of +∞. -/
def FFmt.infPat (f : FFmt) : Nat := (2 ^ f.eb - 1) * 2 ^ f.k
/-- Position of the sign bit. -/
def FFmt.sign (f : FFmt) : Nat := f.k + f.eb
/-- Bits of an encoding. -/
def FFmt.width (f : FFmt) : Nat := f.k + f.eb + 1
/-- `qnan` (R62). -/
def FFmt.qnan (f : FFmt) : Nat := f.infPat + 2 ^ (f.k - 1)
/-- Exponent of the least subnormal. -/
def FFmt.qmin (f : FFmt) : Int := 1 - (f.bias : Int) - f.k

/-- `val` (R62, R90): the value of an encoding; FZ reads a subnormal as a zero of its sign. -/
def fval (f : FFmt) (fz : Bool) (x : Nat) : FVal :=
  let s := x.testBit f.sign
  let ex := fld x f.k f.eb
  let fr := fld x 0 f.k
  if ex = 2 ^ f.eb - 1 then (if fr = 0 then .inf s else .nan)
  else if ex = 0 then (if fr = 0 || fz then .zero s else .fin s fr f.qmin)
  else .fin s (2 ^ f.k + fr) (ex - f.bias - f.k)

/-- Number of bits of a magnitude. -/
def bitLen (m : Nat) : Nat := if m = 0 then 0 else Nat.log2 m + 1

/-- floor(log2) of a nonzero magnitude `m · 2^e`. -/
def flog (m : Nat) (e : Int) : Int := e + (bitLen m : Int) - 1

/-- `m · 2^e` for `e ≥ 0`, `m / 2^(-e)` rounded toward zero otherwise, with whether a bit was lost. -/
def scale (m : Nat) (e : Int) : Nat × Bool :=
  match e with
  | .ofNat n => (m * 2 ^ n, false)
  | .negSucc n => (m / 2 ^ (n + 1), m % 2 ^ (n + 1) != 0)

/-- Rounds `m / 2^d` to an integer: nearest even, or by direction (R103). -/
def roundShift (mode : RMode) (neg : Bool) (m d : Nat) : Nat :=
  let q := m / 2 ^ d
  let r := m % 2 ^ d
  let up := match mode with
    | .rne => decide (2 ^ d < 2 * r) || (decide (2 * r = 2 ^ d) && q % 2 = 1)
    | .rtz => false
    | .rup => !neg && r != 0
    | .rdn => neg && r != 0
  if d = 0 then m else if up then q + 1 else q

/-- Sign bit in place. -/
def signed (f : FFmt) (neg : Bool) (mag : Nat) : Nat := if neg then 2 ^ f.sign + mag else mag

/-- `rnd` (R62) in a given mode: the encoding and its flags. -/
def frnd (f : FFmt) (mode : RMode) (fz : Bool) (y : FVal) : Nat × BitVec 7 :=
  match y with
  | .nan => (f.qnan, 0)
  | .inf s => (signed f s f.infPat, 0)
  | .zero s => (signed f s 0, 0)
  | .fin s m e =>
    let q := max (flog m e - f.k) f.qmin
    let (z, exact) := match q - e with
      | .ofNat d => (roundShift mode s m d, m % 2 ^ d == 0)
      | .negSucc d => (m * 2 ^ (d + 1), true)
    let mag := (q - f.qmin).toNat * 2 ^ f.k + z
    if f.infPat ≤ mag then
      let toZero := match mode with
        | .rne => false | .rtz => true | .rup => s | .rdn => !s
      (signed f s (if toZero then f.infPat - 1 else f.infPat), fOverflow ||| fInexact)
    else if mag < 2 ^ f.k then
      if fz then (signed f s 0, fUnderflow ||| fInexact)
      else (signed f s mag, flagIf (!exact) (fInexact ||| fUnderflow))
    else (signed f s mag, flagIf (!exact) fInexact)

/-- The encoding of a value that the format holds exactly. -/
def fenc (f : FFmt) (y : FVal) : Nat := (frnd f .rne false y).1

def FVal.neg : FVal → FVal
  | .nan => .nan
  | .inf s => .inf (!s)
  | .zero s => .zero (!s)
  | .fin s m e => .fin (!s) m e
def FVal.isNan : FVal → Bool | .nan => true | _ => false
def FVal.isInf : FVal → Bool | .inf _ => true | _ => false
def FVal.isZero : FVal → Bool | .zero _ => true | _ => false
def FVal.sgn : FVal → Bool
  | .nan => false
  | .inf s | .zero s | .fin s _ _ => s

/-- An exact integer multiple of `2^e`, as a value; zero takes sign `zs`. -/
def ofInt (zs : Bool) (i : Int) (e : Int) : FVal :=
  if i = 0 then .zero zs else .fin (decide (i < 0)) i.natAbs e

/-- The signed mantissa of a finite value at exponent `e0`, which is at most its own. -/
def FVal.at (v : FVal) (e0 : Int) : Int :=
  match v with
  | .fin s m e => (if s then -1 else 1) * ((m * 2 ^ (e - e0).toNat : Nat) : Int)
  | _ => 0

/-- Exponent of a finite nonzero value; `d` otherwise. -/
def FVal.expo (d : Int) : FVal → Int
  | .fin _ _ e => e
  | _ => d

/-- The exact total of finite values, with the exponent it is taken at. -/
def exactSum (vs : List FVal) : Int × Int :=
  let e0 := vs.foldl (fun a v => match v with | .fin _ _ e => min a e | _ => a) 0
  (vs.foldl (fun a v => a + v.at e0) 0, e0)

/-- Whether `x < y` for values that are not NaN; the zeros are equal. -/
def FVal.lt (x y : FVal) : Bool :=
  match x, y with
  | .nan, _ | _, .nan => false
  | .inf s, .inf t => s && !t
  | .inf s, _ => s
  | _, .inf t => !t
  | _, _ => let e0 := min (x.expo 0) (y.expo 0); decide (x.at (min e0 0) < y.at (min e0 0))
/-- Whether two values are equal; NaN equals nothing and the zeros are equal. -/
def FVal.eq (x y : FVal) : Bool := !x.isNan && !y.isNan && !x.lt y && !y.lt x

/-! ## Accuracy classes (R114, R115) -/

/-- The columns `i + j ≥ h` of a product (class T). -/
def mulT (h : Nat) (a b : Nat) : Nat → Nat
  | 0 => 0
  | i + 1 =>
    mulT h a b i + (if a.testBit i then 2 ^ i * (b / 2 ^ (h - i) * 2 ^ (h - i)) else 0)

/-- `mulc` (R114). -/
def mulc (ac : AC) (a b n h : Nat) : Nat :=
  match ac with
  | .x => a * b
  | .t => if a = 0 || b = 0 then 0 else mulT h a b n
  | .l =>
    if a = 0 || b = 0 then 0
    else
      let p := Nat.log2 a
      let q := Nat.log2 b
      let fr := (a - 2 ^ p) * 2 ^ q + (b - 2 ^ q) * 2 ^ p
      if fr < 2 ^ (p + q) then 2 ^ (p + q) + fr else 2 * fr

/-! ## Sums and products (R118) -/

/-- `fprod`, with the split of R99 to magnitudes of `n` bits. -/
def fprod (ac : AC) (n : Nat) (x y : FVal) : FVal × BitVec 7 :=
  let s := x.sgn != y.sgn
  match x, y with
  | .nan, _ | _, .nan => (.nan, 0)
  | .zero _, .inf _ | .inf _, .zero _ => (.nan, fInvalid)
  | .inf _, _ | _, .inf _ => (.inf s, 0)
  | .zero _, _ | _, .zero _ => (.zero s, 0)
  | .fin _ a e, .fin _ b e' => (ofInt s ((if s then -1 else 1) * (mulc ac a b n n : Int)) (e + e'), 0)

/-- `fsum`: exact IEEE addition; `rdn` says whether the mode is RDN. -/
def fsum (rdn : Bool) (x y : FVal) : FVal × BitVec 7 :=
  match x, y with
  | .nan, _ | _, .nan => (.nan, 0)
  | .inf s, .inf t => if s = t then (.inf s, 0) else (.nan, fInvalid)
  | .inf s, _ => (.inf s, 0)
  | _, .inf t => (.inf t, 0)
  | .zero s, .zero t => (.zero (if s = t then s else rdn), 0)
  | _, _ =>
    let (i, e) := exactSum [x, y]
    (ofInt rdn i e, 0)

/-- `rnd` after a value with flags. -/
def rndWith (f : FFmt) (mode : RMode) (fz : Bool) (v : FVal × BitVec 7) : Nat × BitVec 7 :=
  let (x, fl) := frnd f mode fz v.1
  (x, fl ||| v.2)

def fadd (f : FFmt) (mode : RMode) (fz : Bool) (a b : FVal) : Nat × BitVec 7 :=
  rndWith f mode fz (fsum (mode == .rdn) a b)
def fmul (f : FFmt) (mode : RMode) (fz : Bool) (ac : AC) (a b : FVal) : Nat × BitVec 7 :=
  rndWith f mode fz (fprod ac (f.k + 1) a b)
/-- One rounding; invalid for 0 × ∞ even when `c` is NaN. -/
def ffma (f : FFmt) (mode : RMode) (fz : Bool) (ac : AC) (a b c : FVal) : Nat × BitVec 7 :=
  let (p, fl) := fprod ac (f.k + 1) a b
  let (r, fl') := rndWith f mode fz (fsum (mode == .rdn) p c)
  (r, fl ||| fl')

/-- `FMIN` and `FMAX` (R119). -/
def fminmax (f : FFmt) (isMax : Bool) (a b : FVal) : Nat :=
  if a.isNan && b.isNan then f.qnan
  else if a.isNan then fenc f b
  else if b.isNan then fenc f a
  else
    let less := a.lt b || (a.isZero && b.isZero && a.sgn && !b.sgn)
    fenc f (if less = isMax then b else a)

/-- The 16-product or lane sum of R100 and R123: NaN, then infinities, then the exact total; `negz` is the sign of an
exact zero when the values are not all −0. -/
def sumAll (negz : Bool) (vs : List FVal) : FVal × BitVec 7 :=
  let pi := vs.contains (.inf false)
  let ni := vs.contains (.inf true)
  if vs.any FVal.isNan then (.nan, 0)
  else if pi && ni then (.nan, fInvalid)
  else if pi then (.inf false, 0)
  else if ni then (.inf true, 0)
  else
    let (i, e) := exactSum vs
    if i = 0 then (.zero (vs.all (fun v => v == .zero true) || negz), 0) else (ofInt false i e, 0)

/-! ## Functions of R120: the exact value cut to many bits, with a last bit set where anything was cut -/

/-- `m · 2^e` with a sticky bit below it. -/
def sticky (neg : Bool) (m : Nat) (e : Int) (inexact : Bool) : FVal :=
  .fin neg (2 * m + (if inexact then 1 else 0)) (e - 1)

/-- floor(√n), bit by bit from `i` down. -/
def isqrtFrom (n : Nat) : Nat → Nat → Nat
  | 0, r => r
  | i + 1, r => isqrtFrom n i (if (r + 2 ^ i) * (r + 2 ^ i) ≤ n then r + 2 ^ i else r)
def isqrt (n : Nat) : Nat := isqrtFrom n (bitLen n / 2 + 1) 0

/-- 1 / (m · 2^e). -/
def recipV (s : Bool) (m : Nat) (e : Int) : FVal := sticky s (2 ^ 80 / m) (-e - 80) (2 ^ 80 % m != 0)

/-- A magnitude with an even exponent. -/
def evenExp (m : Nat) (e : Int) : Nat × Int := if e % 2 = 0 then (m, e) else (2 * m, e - 1)

/-- √(m · 2^e). -/
def sqrtV (m : Nat) (e : Int) : FVal :=
  let (m, e) := evenExp m e
  let r := isqrt (m * 2 ^ 64)
  sticky false r (e / 2 - 32) (r * r != m * 2 ^ 64)

/-- 1 / √(m · 2^e). -/
def rsqrtV (m : Nat) (e : Int) : FVal :=
  let (m, e) := evenExp m e
  let r := isqrt (2 ^ 128 / m)
  sticky false r (-(e / 2) - 64) (r * r * m != 2 ^ 128)

/-- Fixed-point fraction bits of the transcendental results. -/
def fixBits : Nat := 320
def fixOne : Nat := 2 ^ fixBits

/-- Σ z^(2k+1)/(2k+1) for `k < n`, fixed point: atanh z. `p` is z^(2k+1) and `z2` is z². -/
def atanhSum (z2 : Nat) : Nat → Nat → Nat → Nat
  | 0, _, _ => 0
  | n + 1, k, p => p / (2 * k + 1) + atanhSum z2 n (k + 1) (p * z2 / fixOne)

/-- ln of a fixed-point number in [1, 2]: 2 · atanh((x − 1)/(x + 1)). -/
def lnFix (x : Nat) : Nat :=
  let z := (x - fixOne) * fixOne / (x + fixOne)
  2 * atanhSum (z * z / fixOne) 110 0 z

/-- ln 2. -/
def ln2Fix : Nat := lnFix (2 * fixOne)

/-- Σ y^k/k! for the next `n` terms; `t` is the current term. -/
def expSum (y : Nat) : Nat → Nat → Nat → Nat
  | 0, _, t => t
  | n + 1, k, t => t + expSum y n (k + 1) (t * y / fixOne / k)

/-- e^y for a fixed-point y in [0, 1). -/
def expFix (y : Nat) : Nat := expSum y 80 1 fixOne

/-- 2^x for a finite x: exact for an integer, otherwise never exact. -/
def exp2V (s : Bool) (m : Nat) (e : Int) : FVal :=
  if 12 ≤ flog m e then sticky false fixOne (if s then -2000 else 2000 - fixBits) true
  else
    let fx := (scale m (e + fixBits)).1
    let i := fx / fixOne
    let fr := fx % fixOne
    if fr = 0 then .fin false 1 (if s then -(i : Int) else i)
    else if s then sticky false (expFix ((fixOne - fr) * ln2Fix / fixOne)) (-(i : Int) - 1 - fixBits) true
    else sticky false (expFix (fr * ln2Fix / fixOne)) ((i : Int) - fixBits) true

/-- log2 of a positive finite value; +0 for 1. -/
def log2V (m : Nat) (e : Int) : FVal :=
  let ex := flog m e
  let x := m * fixOne / 2 ^ (bitLen m - 1)
  if x = fixOne then ofInt false ex 0
  else
    let y := ex * (fixOne : Int) + ((lnFix x * fixOne / ln2Fix : Nat) : Int)
    sticky (decide (y < 0)) y.natAbs (-(fixBits : Int)) true

/-- tanh of a nonzero finite value: (e^2x − 1)/(e^2x + 1); tiny arguments by x − x³/3, large ones just below 1. -/
def tanhV (s : Bool) (m : Nat) (e : Int) : FVal :=
  if flog m e ≤ -60 then sticky s (m * 2 ^ 200 - 1) (e - 200) true
  else if 6 ≤ flog m e then sticky s (2 ^ 200 - 1) (-200) true
  else
    let fx := (scale m (e + fixBits + 1)).1
    let i := fx / ln2Fix
    let r := expFix (fx % ln2Fix) * 2 ^ i
    sticky s ((r - fixOne) * fixOne / (r + fixOne)) (-(fixBits : Int)) true

/-- The unary functions of R120. -/
inductive FFun where
  | rcp | rsq | sqrt | exp2 | log2 | tanh
  deriving DecidableEq, Repr

/-- The special operands of R120, and `rne` of the function's value elsewhere. -/
def ffun (f : FFmt) (fz : Bool) (fn : FFun) (x : FVal) : Nat × BitVec 7 :=
  let one : FVal := .fin false 1 0
  let r : FVal × BitVec 7 := match fn, x with
    | _, .nan => (.nan, 0)
    | .rcp, .zero s => (.inf s, fDivZero)
    | .rcp, .inf s => (.zero s, 0)
    | .rcp, .fin s m e => (recipV s m e, 0)
    | .rsq, .zero s => (.inf s, fDivZero)
    | .rsq, .inf false => (.zero false, 0)
    | .rsq, .inf true | .rsq, .fin true _ _ => (.nan, fInvalid)
    | .rsq, .fin false m e => (rsqrtV m e, 0)
    | .sqrt, .zero s => (.zero s, 0)
    | .sqrt, .inf false => (.inf false, 0)
    | .sqrt, .inf true | .sqrt, .fin true _ _ => (.nan, fInvalid)
    | .sqrt, .fin false m e => (sqrtV m e, 0)
    | .exp2, .zero _ => (one, 0)
    | .exp2, .inf s => (if s then .zero false else .inf false, 0)
    | .exp2, .fin s m e => (exp2V s m e, 0)
    | .log2, .zero _ => (.inf true, fDivZero)
    | .log2, .inf false => (.inf false, 0)
    | .log2, .inf true | .log2, .fin true _ _ => (.nan, fInvalid)
    | .log2, .fin false m e => (log2V m e, 0)
    | .tanh, .zero s => (.zero s, 0)
    | .tanh, .inf s => (.fin s 1 0, 0)
    | .tanh, .fin s m e => (tanhV s m e, 0)
  rndWith f .rne fz r

/-- `FCLASS` (R121): one bit, by the encoding. -/
def fclass (f : FFmt) (x : Nat) : Nat :=
  let s := x.testBit f.sign
  match fval f false x with
  | .nan => 256
  | .inf _ => if s then 1 else 128
  | .zero _ => if s then 8 else 16
  | .fin _ m _ => if m < 2 ^ f.k then (if s then 4 else 32) else (if s then 2 else 64)

/-- A floating condition (R72): its value and its flag. -/
def fcond (cc : Cond) (x y : FVal) : Bool × BitVec 7 :=
  let un := x.isNan || y.isNan
  match cc with
  | .eq => (x.eq y, 0)
  | .ne => (!x.eq y, 0)
  | .lt => (x.lt y, flagIf un fInvalid)
  | .le => (!un && !y.lt x, flagIf un fInvalid)
  | .gt => (y.lt x, flagIf un fInvalid)
  | .ge => (!un && !x.lt y, flagIf un fInvalid)
  | .un => (un, 0)
  | .ord => (!un, 0)

/-- A value rounded to an integer in a mode, with whether that changed it (R125). -/
def toInteger (mode : RMode) (s : Bool) (m : Nat) (e : Int) : Int × Bool :=
  match e with
  | .ofNat n => ((if s then -1 else 1) * ((m * 2 ^ n : Nat) : Int), false)
  | .negSucc n =>
    ((if s then -1 else 1) * ((roundShift mode s m (n + 1) : Nat) : Int), m % 2 ^ (n + 1) != 0)

/-! ## Block formats (R94-R98) -/

/-- A decoded block or string element: NaN, or a value with sign, magnitude and exponent (R95, R97, R99). -/
structure Elem where
  nan : Bool
  inf : Bool
  s : Bool
  a : Nat
  e : Int
  deriving DecidableEq, Repr

/-- Magnitude bits of a matrix format (R99). -/
def magBits : MFmt → Nat
  | .fp32 => 24 | .fp16 => 11 | .bf16 => 8 | .int8 => 8
  | .sb2 => 2 | .sb4 => 4 | .sb7 => 7 | .hs4 => 4 | .hs8 => 8

/-- Bytes of one block, or of sixteen plain elements (R143). -/
def blockBytes : MFmt → Nat
  | .fp16 | .bf16 => 32
  | .fp32 => 64
  | .int8 => 16
  | .sb2 => 8 | .sb4 => 12 | .sb7 => 18 | .hs4 => 9 | .hs8 => 17

/-- Magnitude bits of a shared-block format, 0 for the others. -/
def sbM : MFmt → Nat
  | .sb2 => 2 | .sb4 => 4 | .sb7 => 7 | _ => 0

/-- An element of a floating string. -/
def elemOfF (f : FFmt) (x : Nat) : Elem :=
  match fval f false x with
  | .nan => ⟨true, false, false, 0, 0⟩
  | .inf s => ⟨false, true, s, 0, 0⟩
  | .zero s => ⟨false, false, s, 0, f.qmin⟩
  | .fin s m e => ⟨false, false, s, m, e⟩

/-- Element `j` of a string or block given as one little-endian number (R94-R97, R99, R143). -/
def elemOf (fmt : MFmt) (x j : Nat) : Elem :=
  match fmt with
  | .fp32 => elemOfF (ffmt .f32) (fld x (32 * j) 32)
  | .fp16 => elemOfF (ffmt .f16) (fld x (16 * j) 16)
  | .bf16 => elemOfF (ffmt .bf16) (fld x (16 * j) 16)
  | .int8 =>
    let i := (BitVec.ofNat 8 (fld x (8 * j) 8)).toInt
    ⟨false, false, decide (i < 0), i.natAbs, 0⟩
  | .sb2 | .sb4 | .sb7 =>
    let m := sbM fmt
    let ex := fld x 0 8
    let d := fld x (8 + 2 * (j / 4)) 2
    let p := 16 + (m + 1) * j
    ⟨ex = 255, false, x.testBit p, fld x (p + 1) m, (ex : Int) - 127 - d - (m - 1)⟩
  | .hs4 | .hs8 =>
    let n := magBits fmt
    let ex := fld x 0 8
    let c := (BitVec.ofNat n (fld x (8 + n * j) n)).toInt
    ⟨ex = 255, false, decide (c < 0), (2 * c + 1).natAbs, (ex : Int) - 128⟩

/-- The value of an element. -/
def Elem.val (x : Elem) : FVal :=
  if x.nan then .nan else if x.inf then .inf x.s else if x.a = 0 then .zero x.s else .fin x.s x.a x.e

/-- The value with the larger magnitude of two finite ones. -/
def FVal.abs : FVal → FVal
  | .nan => .nan
  | .inf _ => .inf false
  | .zero _ => .zero false
  | .fin _ m e => .fin false m e
def maxAbs (vs : List FVal) : FVal := vs.foldl (fun a v => if a.lt v.abs then v.abs else a) (.zero false)

/-- floor(log2) of a positive value; 0 for others. -/
def FVal.flog : FVal → Int
  | .fin _ m e => Machine.flog m e
  | _ => 0

/-- `m · 2^e` rounded to an integer, ties to even. -/
def nearest (m : Nat) (e : Int) : Nat × Bool :=
  match e with
  | .ofNat n => (m * 2 ^ n, false)
  | .negSucc n => (roundShift .rne false m (n + 1), m % 2 ^ (n + 1) != 0)

/-- `sb_encode` (R96): the block as a number, and its flags. -/
def sbEncode (m : Nat) (xs : List FVal) : Nat × BitVec 7 :=
  if xs.any fun x => x.isNan || x.isInf then (0xFF, fInvalid)
  else
    let mx := maxAbs xs
    let ex : Int := if mx.isZero then 0 else min 254 (max 0 (mx.flog + 127))
    let ds : List Nat := (List.range 4).map fun q =>
      let qm := maxAbs ((xs.drop (4 * q)).take 4)
      if qm.isZero then 3 else (min 3 (max 0 (ex - 127 - qm.flog))).toNat
    let hd := ex.toNat + ((List.range 4).foldl (fun a q => a + ds.getD q 0 * 2 ^ (8 + 2 * q)) 0)
    (List.range 16).foldl (fun (acc : Nat × BitVec 7) k =>
      let x := xs.getD k (.zero false)
      let (mag, fl) : Nat × BitVec 7 := match x with
        | .fin _ a e =>
          let (r, inx) := nearest a (e - (ex - 127 - ds.getD (k / 4) 0) + (m - 1))
          if 2 ^ m - 1 < r then (2 ^ m - 1, fSat ||| fInexact) else (r, flagIf inx fInexact)
        | _ => (0, 0)
      let p := 16 + (m + 1) * k
      (acc.1 + (if x.sgn then 2 ^ p else 0) + mag * 2 ^ (p + 1), acc.2 ||| fl)) (hd, 0)

/-- Whether `|x| ≤ top · 2^(E − 127)` with `top = (2^n − 1)/2`. -/
def hsFits (n : Nat) (mx : FVal) (ex : Nat) : Bool := !(FVal.lt (.fin false (2 ^ n - 1) ((ex : Int) - 128)) mx)

/-- The smallest exponent field from `ex` up that fits, within `fuel` tries. -/
def hsExp (n : Nat) (mx : FVal) : Nat → Nat → Nat
  | 0, ex => ex
  | fuel + 1, ex => if hsFits n mx ex then ex else hsExp n mx fuel (ex + 1)

/-- The integer nearest `i · 2^e`, ties to even. -/
def nearestInt (i : Int) (e : Int) : Int :=
  match e with
  | .ofNat n => i * 2 ^ n
  | .negSucc n =>
    let d : Int := 2 ^ (n + 1)
    let q := i / d
    let r := i % d
    if d < 2 * r || (2 * r = d && q % 2 = 1) then q + 1 else q

/-- `hs_encode` (R98). -/
def hsEncode (n : Nat) (xs : List FVal) : Nat × BitVec 7 :=
  if xs.any fun x => x.isNan || x.isInf then (0xFF, fInvalid)
  else
    let ex := hsExp n (maxAbs xs) 254 0
    (List.range 16).foldl (fun (acc : Nat × BitVec 7) k =>
      let x := xs.getD k (.zero false)
      -- y = x / 2^(E - 127) - 1/2, as an integer times 2^e0
      let e0 := min (x.expo 0 - ((ex : Int) - 127)) (-1)
      let i := x.at (e0 + ((ex : Int) - 127)) - 2 ^ (-1 - e0).toNat
      let c := nearestInt i e0
      let exact := i = c * 2 ^ (-e0).toNat
      (acc.1 + (c % 2 ^ n).toNat * 2 ^ (8 + n * k), acc.2 ||| flagIf (!exact) fInexact)) (ex, 0)

/-- Encodes a block of any block format (R160). -/
def blockEncode (fmt : MFmt) (xs : List FVal) : Nat × BitVec 7 :=
  match fmt with
  | .hs4 => hsEncode 4 xs
  | .hs8 => hsEncode 8 xs
  | f => sbEncode (sbM f) xs

/-! ## Products of elements (R99) and matrix sums (R100, R102) -/

/-- The product of two elements under a class: a value, and its flag. -/
def elemProd (ac : AC) (na nb : Nat) (x y : Elem) : FVal × BitVec 7 :=
  let s := x.s != y.s
  let zx := !x.nan && !x.inf && x.a = 0
  let zy := !y.nan && !y.inf && y.a = 0
  if x.nan || y.nan then (.nan, 0)
  else if (x.inf && zy) || (y.inf && zx) then (.nan, fInvalid)
  else if x.inf || y.inf then (.inf s, 0)
  else
    let n := max na nb
    let p := mulc ac (x.a * 2 ^ (n - na)) (y.a * 2 ^ (n - nb)) n n
    (if p = 0 then .zero s else .fin s p (x.e - ((n - na : Nat) : Int) + y.e - ((n - nb : Nat) : Int)), 0)

/-- One FP32 accumulation of a K-step (R100). -/
def kAccF (acc : Word) (prods : List (FVal × BitVec 7)) : Word × BitVec 7 :=
  let fl := prods.foldl (fun a p => a ||| p.2) 0
  let f := ffmt .f32
  let (t, fl1) := rndWith f .rne false (sumAll false (prods.map (·.1)))
  let (r, fl2) := fadd f .rne false (fval f false acc.toNat) (fval f false t)
  (BitVec.ofNat 32 r, fl ||| fl1 ||| fl2)

/-- One INT32 accumulation of a K-step (R102). -/
def kAccI (acc : Word) (prods : List (FVal × BitVec 7)) : Word :=
  acc + BitVec.ofInt 32 (prods.foldl (fun a p => a + p.1.at 0) 0)

end Sys2Proof.Machine
end

