-- ==== Sys2Proof/Machine/Operands.lean ====
section
/-! DEFINITION. Operand forms: integer and floating readings, addresses, and the shapes of copies. -/

namespace Sys2Proof.Machine

/-! ## Integer operands (R105) -/

/-- `ival`: sint for `.i32`, uint for `.n32`. -/
def ival (n32 : Bool) (x : Word) : Int := if n32 then (x.toNat : Int) else x.toInt
def loI (n32 : Bool) : Int := if n32 then 0 else -2147483648
def hiI (n32 : Bool) : Int := if n32 then 4294967295 else 2147483647

/-- An operand, or the 32-bit immediate that stands for it (R42). -/
def Group.opndI (g : Group) (b : Opnd ⊕ Word) (i : Nat) : Word :=
  match b with | .inl o => g.opnd o i | .inr w => w

/-- Operand of an `ICMP` at a width, extended as the type says (R71). -/
def narrow (w : IWidth) (uns : Bool) (x : Word) : Int :=
  match w with
  | .w32 => ival uns x
  | .w16 => if uns then ((x.setWidth 16).toNat : Int) else (x.setWidth 16).toInt
  | .w8 => if uns then ((x.setWidth 8).toNat : Int) else (x.setWidth 8).toInt

/-- An integer condition (R72); `.un` and `.ord` are not integer conditions. -/
def icond (cc : Cond) (x y : Int) : Bool :=
  match cc with
  | .eq => x = y | .ne => x ≠ y | .lt => x < y | .le => x ≤ y | .gt => y < x | .ge => y ≤ x
  | .un | .ord => false

/-! ## Floating operands (R42, R44, R117) -/

/-- `%fmt`.RND (R65). -/
def Group.rnd (g : Group) : RMode :=
  match fld g.fmt.toNat 10 2 with | 0 => .rne | 1 => .rtz | 2 => .rup | _ => .rdn
/-- `%fmt`.FZ. -/
def Group.fz (g : Group) : Bool := g.fmt.getLsbD 12

/-- `fopnd` of a scalar format: a short immediate is converted exactly; a 16-bit type keeps bits 15:0. -/
def Group.fopnd (g : Group) (t : FTy) (b : Opnd ⊕ Word) (i : Nat) : Nat :=
  match b with
  | .inl (.imm x) => fenc (ffmt t) (ofInt false x.toInt 0)
  | .inl o => (g.opnd o i).toNat % 2 ^ (ffmt t).width
  | .inr w => w.toNat % 2 ^ (ffmt t).width

/-- Half `hi` of a packed operand; an immediate is converted into both halves. -/
def Group.hopnd (g : Group) (t : FTy) (b : Opnd ⊕ Word) (hi : Bool) (i : Nat) : Nat :=
  match b with
  | .inl (.imm x) => fenc (ffmt t) (ofInt false x.toInt 0)
  | .inl o => fld (g.opnd o i).toNat (if hi then 16 else 0) 16
  | .inr w => fld w.toNat (if hi then 16 else 0) 16

/-- The modifiers of R117: abs clears the sign bit, then neg inverts it. -/
def fmod (f : FFmt) (neg abs : Bool) (x : Nat) : Nat :=
  let m := x % 2 ^ f.sign
  signed f ((x.testBit f.sign && !abs) != neg) m

/-- A modified operand's value. -/
def Group.fvalOf (g : Group) (t : FTy) (b : Opnd ⊕ Word) (neg abs : Bool) (i : Nat) : FVal :=
  fval (ffmt t) g.fz (fmod (ffmt t) neg abs (g.fopnd t b i))
def Group.hvalOf (g : Group) (t : FTy) (b : Opnd ⊕ Word) (neg abs hi : Bool) (i : Nat) : FVal :=
  fval (ffmt t) g.fz (fmod (ffmt t) neg abs (g.hopnd t b hi i))

/-- The packed type of FN bit 53 (R116). -/
def packTy (bf : Bool) : FTy := if bf then .bf16 else .f16

/-! ## Local addresses (R132) -/

/-- Bytes of an element type (R131). -/
def ltySize : LTy → Nat
  | .n32 => 4
  | .i8 | .n8 => 1
  | .i16 | .n16 => 2

/-- A loaded element extended under its type (R132, R178). -/
def ltyExt (t : LTy) (x : Nat) : Word :=
  match t with
  | .n32 => BitVec.ofNat 32 x
  | .i8 => (BitVec.ofNat 8 x).signExtend 32
  | .n8 => BitVec.ofNat 32 (x % 256)
  | .i16 => (BitVec.ofNat 16 x).signExtend 32
  | .n16 => BitVec.ofNat 32 (x % 65536)

/-- Offset operand: unsigned from a register or latch, signed from an immediate. -/
def Group.offOf (g : Group) (o : Opnd) (i : Nat) : Int :=
  match o with | .imm x => x.toInt | _ => ((g.opnd o i).toNat : Int)

/-- Effective local offset of a lane; it may be negative. -/
def Group.locAddr (g : Group) (base off : Opnd) (i : Nat) : Int := ((g.opnd base 0).toNat : Int) + g.offOf off i

/-! ## Updates at a destination (R176, R240, R321) -/

/-- A floating update, FZ taken as 0, rounded to nearest even. -/
def fUpd (f : FFmt) (op : RedOp) (old v : Nat) : Nat × BitVec 7 :=
  match op with
  | .min => (fminmax f false (fval f false old) (fval f false v), 0)
  | .max => (fminmax f true (fval f false old) (fval f false v), 0)
  | _ => fadd f .rne false (fval f false old) (fval f false v)

/-- An integer update of 32 bits. -/
def iUpd (n32 : Bool) (op : RedOp) (old v : Word) : Word :=
  match op with
  | .add => old + v
  | .min => if ival n32 v < ival n32 old then v else old
  | .max => if ival n32 old < ival n32 v then v else old
  | .and => old &&& v
  | .or => old ||| v
  | .xor => old ^^^ v

/-- Bytes of a `CRED` element (R175). -/
def credSize : CredTy → Nat
  | .bf16 => 2
  | _ => 4

/-- `f` of R176. -/
def credUpd (op : RedOp) (ty : CredTy) (old v : Nat) : Nat × BitVec 7 :=
  match ty with
  | .i32 => ((iUpd false op (BitVec.ofNat 32 old) (BitVec.ofNat 32 v)).toNat, 0)
  | .n32 => ((iUpd true op (BitVec.ofNat 32 old) (BitVec.ofNat 32 v)).toNat, 0)
  | .f32 => fUpd (ffmt .f32) op old v
  | .bf16 => fUpd (ffmt .bf16) op old v

/-- The type of a remote reduction as R176 names it (R238). -/
def credTyOf : ATy → CredTy
  | .i32 => .i32
  | .n32 => .n32
  | .f32 => .f32

/-- `f` of R321. -/
def atomUpd (op : AOp) (ty : ATy) (old v : Word) : Word × BitVec 7 :=
  let r := fun (x : RedOp) =>
    let y := credUpd x (credTyOf ty) old.toNat v.toNat
    (BitVec.ofNat 32 y.1, y.2)
  match op with
  | .add => r .add
  | .min => r .min
  | .max => r .max
  | .and => r .and
  | .or => r .or
  | .xor => r .xor
  | .exch => (v, 0)
  | .inc => (if v.toNat ≤ old.toNat then 0 else old + 1, 0)
  | .dec => (if old = 0 || v.toNat < old.toNat then v else old - 1, 0)

/-! ## Copy shapes (R166) -/

def copyLenVal (c : IC) (n : CopyLen) : Nat := match n with | .opnd o => c.u o | .ext w => w.toNat

/-- A 2D or 3D shape read from eight scalars. -/
def Group.shape8 (g : Group) (m : Nat) (d3 : Bool) : Shape where
  len := (g.rdS m).toNat
  rows := (g.rdS (m + 1)).toNat
  planes := if d3 then (g.rdS (m + 2)).toNat else 1
  ers := (g.rdS (m + 3)).toInt
  eps := if d3 then (g.rdS (m + 4)).toInt else 0
  lrs := (g.rdS (m + 5)).toNat
  lps := if d3 then (g.rdS (m + 6)).toNat else 0

/-- A 1D shape. -/
def shape1 (n : Nat) : Shape := ⟨n, 1, 1, 0, 0, 0, 0⟩

/-- Sectors of a row, and of a copy. -/
def Shape.perRow (h : Shape) : Nat := ceilDiv h.len 256
def Shape.sectors (h : Shape) : Nat := h.planes * h.rows * h.perRow

/-- Plane, row, first byte and bytes of sector `n`. -/
def Shape.piece (h : Shape) (n : Nat) : Nat × Nat × Nat × Nat :=
  let j := n % h.perRow
  let r := n / h.perRow
  (r / h.rows, r % h.rows, 256 * j, min 256 (h.len - 256 * j))

/-- External address of the first byte of sector `n`, from base `e`. -/
def Shape.extOf (h : Shape) (e n : Nat) : Int :=
  let (p, r, b, _) := h.piece n
  (e : Int) + p * h.eps + r * h.ers + b
/-- Local offset of the first byte of sector `n`, from base `d`. -/
def Shape.locOf (h : Shape) (d n : Nat) : Nat :=
  let (p, r, b, _) := h.piece n
  d + p * h.lps + r * h.lrs + b
/-- Bytes of sector `n`. -/
def Shape.lenOf (h : Shape) (n : Nat) : Nat := (h.piece n).2.2.2

/-- Least and greatest of `0` and `x`. -/
def span (x : Int) : Int × Int := (min 0 x, max 0 x)

/-- Whether every external byte lies in 0 … 2^54 − 1 (R167). -/
def Shape.extIn (h : Shape) (e : Nat) : Bool :=
  if h.sectors = 0 then true
  else
    let (a, b) := span (((h.planes - 1 : Nat) : Int) * h.eps)
    let (c, d) := span (((h.rows - 1 : Nat) : Int) * h.ers)
    decide (0 ≤ (e : Int) + a + c) && decide ((e : Int) + b + d + h.len ≤ 2 ^ 54)

/-- One past the highest local byte (R167). -/
def Shape.locEnd (h : Shape) (d : Nat) : Nat :=
  if h.sectors = 0 then 0 else d + (h.planes - 1) * h.lps + (h.rows - 1) * h.lrs + h.len

/-- Stride rules of R167. -/
def Shape.ok (h : Shape) : Bool :=
  !(1 < h.rows && h.lrs < h.len) && !(1 < h.planes && h.lps < h.lrs * (h.rows - 1) + h.len)

/-- Tiles that a copy's local bytes lie in. -/
def Shape.tiles (h : Shape) (d : Nat) : List Nat :=
  ((List.range (if h.len = 0 then 0 else h.planes * h.rows)).flatMap fun k =>
    unitsOf 4096 (d + k / h.rows * h.lps + k % h.rows * h.lrs) h.len).eraseDups

/-- Lines that a copy's local bytes lie in (R297). -/
def Shape.lineTags (h : Shape) (t : Team) (b : Buf) (d : Nat) : Tags :=
  (List.range (if h.len = 0 then 0 else h.planes * h.rows)).foldl
    (fun a k => a ||| t.rangeTag b (d + k / h.rows * h.lps + k % h.rows * h.lrs) h.len) 0

end Sys2Proof.Machine
end

