-- ==== Sys2Proof/Machine/IntAlu.lean ====
section
/-! DEFINITION. Integer, bit, move, select, compare and lane instructions (R71-R77, R104-R113). -/

namespace Sys2Proof.Machine

/-- The outcome of every meaning: it always answers a next state. -/
abbrev Res := Host.Outcome State Fault Refusal

/-- A per-lane instruction with a register destination (R104). -/
def aluOp (i : Instr) (d : Dst) (f : Group → Nat → Word × BitVec 7) (s : State) : State :=
  issue i (fun s c => c.alu s d fun l => f c.g l) s

/-! ## Arithmetic functions of one lane -/

/-- Wraps, or saturates with its flag (R106). -/
def wrapSat (n32 sat : Bool) (y : Int) : Word × BitVec 7 :=
  if sat then
    let (z, fl) := satclamp y (loI n32) (hiI n32)
    (BitVec.ofInt 32 z, fl)
  else (BitVec.ofInt 32 y, 0)

def addF (n32 sat : Bool) (a b : Word) : Word × BitVec 7 := wrapSat n32 sat (ival n32 a + ival n32 b)
def subF (n32 sat : Bool) (a b : Word) : Word × BitVec 7 := wrapSat n32 sat (ival n32 a - ival n32 b)

/-- The signed product of a class (R106, R114). -/
def mulI (ac : AC) (n32 : Bool) (a b : Word) : Int :=
  let x := ival n32 a
  let y := ival n32 b
  let p : Int := mulc ac x.natAbs y.natAbs 32 16
  if (x < 0) != (y < 0) then -p else p

def mulF (ac : AC) (n32 sat : Bool) (a b : Word) : Word × BitVec 7 := wrapSat n32 sat (mulI ac n32 a b)
/-- Bits 63:32 of the 64-bit product. -/
def mulhF (ac : AC) (n32 : Bool) (a b : Word) : Word × BitVec 7 :=
  (((BitVec.ofInt 64 (mulI ac n32 a b)) >>> 32).setWidth 32, 0)
def madF (ac : AC) (n32 sat : Bool) (a b c : Word) : Word × BitVec 7 :=
  wrapSat n32 sat (mulI ac n32 a b + ival n32 c)

/-- Whether a division meets a corner of R107: 1 for a zero divisor, 2 for the overflow. -/
def divCase (n32 : Bool) (a b : Word) : Nat :=
  if b = 0 then 1 else if !n32 && a = 0x80000000#32 && b = 0xFFFFFFFF#32 then 2 else 0

def divF (n32 : Bool) (a b : Word) : Word × BitVec 7 :=
  match divCase n32 a b with
  | 1 => (0xFFFFFFFF, fDivZero)
  | 2 => (0x80000000, fIntOvf)
  | _ => (BitVec.ofInt 32 ((ival n32 a).tdiv (ival n32 b)), 0)
def remF (n32 : Bool) (a b : Word) : Word × BitVec 7 :=
  match divCase n32 a b with
  | 1 => (a, fDivZero)
  | 2 => (0, fIntOvf)
  | _ => (BitVec.ofInt 32 ((ival n32 a).tmod (ival n32 b)), 0)

def minF (n32 : Bool) (a b : Word) : Word × BitVec 7 := (if ival n32 b < ival n32 a then b else a, 0)
def maxF (n32 : Bool) (a b : Word) : Word × BitVec 7 := (if ival n32 a < ival n32 b then b else a, 0)

/-- `IABS` and `INEG` (R108). -/
def absF (sat : Bool) (a : Word) : Word × BitVec 7 :=
  if a = 0x80000000#32 && sat then (0x7FFFFFFF, fSat) else (if a.toInt < 0 then 0 - a else a, 0)
def negF (sat : Bool) (a : Word) : Word × BitVec 7 :=
  if a = 0x80000000#32 && sat then (0x7FFFFFFF, fSat) else (0 - a, 0)

/-- `CLZ` (R109). -/
def clz (a : Word) : Nat := 32 - bitLen a.toNat

/-- `BFX` (R110). -/
def bfxF (sg : Bool) (a b c : Word) : Word :=
  let p := min b.toNat 32
  let n := min c.toNat (32 - p)
  let x := fld a.toNat p n
  if n = 0 then 0
  else if sg && x.testBit (n - 1) then BitVec.ofInt 32 ((x : Int) - 2 ^ n) else BitVec.ofNat 32 x

/-- `BFI` (R110). -/
def bfiF (a b c : Word) : Word :=
  let p := min (fld c.toNat 0 8) 32
  let n := min (fld c.toNat 8 8) (32 - p)
  let m := (2 ^ n - 1) * 2 ^ p
  BitVec.ofNat 32 ((b.toNat &&& (0xFFFFFFFF - m)) ||| (a.toNat % 2 ^ n * 2 ^ p))

/-! ## Meanings: arithmetic -/

/-- `IDIV` and `IREM` in trap mode look at every executing lane first (R107). -/
def divOp (i : Instr) (d : Dst) (n32 trap : Bool) (f : Bool → Word → Word → Word × BitVec 7)
    (a : Opnd) (b : Opnd ⊕ Word) (s : State) : State :=
  issue i (fun s c =>
    let corner := fun l => divCase n32 (c.g.opnd a l) (c.g.opndI b l)
    let bad := maskFilter c.lanes fun l => corner l != 0
    if trap && bad != 0 then .trp 4 (if (lanesOf bad).any fun l => corner l = 1 then 0x01 else 0x02) bad
    else c.alu s d fun l => f n32 (c.g.opnd a l) (c.g.opndI b l)) s

def execIadd (h : Hdr) (d : Dst) (a b : Opnd) (n32 sat : Bool) (s : State) : Res :=
  .next (aluOp (.iadd h d a b n32 sat) d (fun g l => addF n32 sat (g.opnd a l) (g.opnd b l)) s)
def execIaddImm (h : Hdr) (d : Dst) (a : Opnd) (imm : Word) (n32 sat : Bool) (s : State) : Res :=
  .next (aluOp (.iaddImm h d a imm n32 sat) d (fun g l => addF n32 sat (g.opnd a l) imm) s)
def execIsub (h : Hdr) (d : Dst) (a b : Opnd) (n32 sat : Bool) (s : State) : Res :=
  .next (aluOp (.isub h d a b n32 sat) d (fun g l => subF n32 sat (g.opnd a l) (g.opnd b l)) s)
def execIsubImm (h : Hdr) (d : Dst) (a : Opnd) (imm : Word) (n32 sat : Bool) (s : State) : Res :=
  .next (aluOp (.isubImm h d a imm n32 sat) d (fun g l => subF n32 sat (g.opnd a l) imm) s)
def execImul (h : Hdr) (ac : AC) (d : Dst) (a b : Opnd) (n32 sat : Bool) (s : State) : Res :=
  .next (aluOp (.imul h ac d a b n32 sat) d (fun g l => mulF ac n32 sat (g.opnd a l) (g.opnd b l)) s)
def execImulImm (h : Hdr) (ac : AC) (d : Dst) (a : Opnd) (imm : Word) (n32 sat : Bool) (s : State) : Res :=
  .next (aluOp (.imulImm h ac d a imm n32 sat) d (fun g l => mulF ac n32 sat (g.opnd a l) imm) s)
def execImulh (h : Hdr) (ac : AC) (d : Dst) (a b : Opnd) (n32 : Bool) (s : State) : Res :=
  .next (aluOp (.imulh h ac d a b n32) d (fun g l => mulhF ac n32 (g.opnd a l) (g.opnd b l)) s)
def execImulhImm (h : Hdr) (ac : AC) (d : Dst) (a : Opnd) (imm : Word) (n32 : Bool) (s : State) : Res :=
  .next (aluOp (.imulhImm h ac d a imm n32) d (fun g l => mulhF ac n32 (g.opnd a l) imm) s)
def execImad (h : Hdr) (ac : AC) (d : Dst) (a b e : Opnd) (n32 sat : Bool) (s : State) : Res :=
  .next (aluOp (.imad h ac d a b e n32 sat) d
    (fun g l => madF ac n32 sat (g.opnd a l) (g.opnd b l) (g.opnd e l)) s)
def execIdiv (h : Hdr) (d : Dst) (a b : Opnd) (n32 trap : Bool) (s : State) : Res :=
  .next (divOp (.idiv h d a b n32 trap) d n32 trap divF a (.inl b) s)
def execIdivImm (h : Hdr) (d : Dst) (a : Opnd) (imm : Word) (n32 trap : Bool) (s : State) : Res :=
  .next (divOp (.idivImm h d a imm n32 trap) d n32 trap divF a (.inr imm) s)
def execIrem (h : Hdr) (d : Dst) (a b : Opnd) (n32 trap : Bool) (s : State) : Res :=
  .next (divOp (.irem h d a b n32 trap) d n32 trap remF a (.inl b) s)
def execIremImm (h : Hdr) (d : Dst) (a : Opnd) (imm : Word) (n32 trap : Bool) (s : State) : Res :=
  .next (divOp (.iremImm h d a imm n32 trap) d n32 trap remF a (.inr imm) s)
def execImin (h : Hdr) (d : Dst) (a b : Opnd) (n32 : Bool) (s : State) : Res :=
  .next (aluOp (.imin h d a b n32) d (fun g l => minF n32 (g.opnd a l) (g.opnd b l)) s)
def execIminImm (h : Hdr) (d : Dst) (a : Opnd) (imm : Word) (n32 : Bool) (s : State) : Res :=
  .next (aluOp (.iminImm h d a imm n32) d (fun g l => minF n32 (g.opnd a l) imm) s)
def execImax (h : Hdr) (d : Dst) (a b : Opnd) (n32 : Bool) (s : State) : Res :=
  .next (aluOp (.imax h d a b n32) d (fun g l => maxF n32 (g.opnd a l) (g.opnd b l)) s)
def execImaxImm (h : Hdr) (d : Dst) (a : Opnd) (imm : Word) (n32 : Bool) (s : State) : Res :=
  .next (aluOp (.imaxImm h d a imm n32) d (fun g l => maxF n32 (g.opnd a l) imm) s)
def execIabs (h : Hdr) (d : Dst) (a : Opnd) (sat : Bool) (s : State) : Res :=
  .next (aluOp (.iabs h d a sat) d (fun g l => absF sat (g.opnd a l)) s)
def execIneg (h : Hdr) (d : Dst) (a : Opnd) (sat : Bool) (s : State) : Res :=
  .next (aluOp (.ineg h d a sat) d (fun g l => negF sat (g.opnd a l)) s)

/-! ## Meanings: bits, moves (R109-R112) -/

def execAnd (h : Hdr) (d : Dst) (a b : Opnd) (s : State) : Res :=
  .next (aluOp (.and h d a b) d (fun g l => (g.opnd a l &&& g.opnd b l, 0)) s)
def execAndImm (h : Hdr) (d : Dst) (a : Opnd) (imm : Word) (s : State) : Res :=
  .next (aluOp (.andImm h d a imm) d (fun g l => (g.opnd a l &&& imm, 0)) s)
def execOr (h : Hdr) (d : Dst) (a b : Opnd) (s : State) : Res :=
  .next (aluOp (.or h d a b) d (fun g l => (g.opnd a l ||| g.opnd b l, 0)) s)
def execOrImm (h : Hdr) (d : Dst) (a : Opnd) (imm : Word) (s : State) : Res :=
  .next (aluOp (.orImm h d a imm) d (fun g l => (g.opnd a l ||| imm, 0)) s)
def execXor (h : Hdr) (d : Dst) (a b : Opnd) (s : State) : Res :=
  .next (aluOp (.xor h d a b) d (fun g l => (g.opnd a l ^^^ g.opnd b l, 0)) s)
def execXorImm (h : Hdr) (d : Dst) (a : Opnd) (imm : Word) (s : State) : Res :=
  .next (aluOp (.xorImm h d a imm) d (fun g l => (g.opnd a l ^^^ imm, 0)) s)
def execNot (h : Hdr) (d : Dst) (a : Opnd) (s : State) : Res :=
  .next (aluOp (.not h d a) d (fun g l => (~~~(g.opnd a l), 0)) s)
def execShl (h : Hdr) (d : Dst) (a b : Opnd) (s : State) : Res :=
  .next (aluOp (.shl h d a b) d
    (fun g l => (if 32 ≤ (g.opnd b l).toNat then 0 else g.opnd a l <<< (g.opnd b l).toNat, 0)) s)
def execShr (h : Hdr) (d : Dst) (a b : Opnd) (s : State) : Res :=
  .next (aluOp (.shr h d a b) d
    (fun g l => (if 32 ≤ (g.opnd b l).toNat then 0 else g.opnd a l >>> (g.opnd b l).toNat, 0)) s)
def execSar (h : Hdr) (d : Dst) (a b : Opnd) (s : State) : Res :=
  .next (aluOp (.sar h d a b) d (fun g l => ((g.opnd a l).sshiftRight (min (g.opnd b l).toNat 31), 0)) s)
def execRotl (h : Hdr) (d : Dst) (a b : Opnd) (s : State) : Res :=
  .next (aluOp (.rotl h d a b) d (fun g l => ((g.opnd a l).rotateLeft ((g.opnd b l).toNat % 32), 0)) s)
def execPopc (h : Hdr) (d : Dst) (a : Opnd) (s : State) : Res :=
  .next (aluOp (.popc h d a) d (fun g l => (BitVec.ofNat 32 (popcount (g.opnd a l)), 0)) s)
def execClz (h : Hdr) (d : Dst) (a : Opnd) (s : State) : Res :=
  .next (aluOp (.clz h d a) d (fun g l => (BitVec.ofNat 32 (clz (g.opnd a l)), 0)) s)
def execBfx (h : Hdr) (d : Dst) (a b e : Opnd) (sg : Bool) (s : State) : Res :=
  .next (aluOp (.bfx h d a b e sg) d (fun g l => (bfxF sg (g.opnd a l) (g.opnd b l) (g.opnd e l), 0)) s)
def execBfi (h : Hdr) (d : Dst) (a b e : Opnd) (s : State) : Res :=
  .next (aluOp (.bfi h d a b e) d (fun g l => (bfiF (g.opnd a l) (g.opnd b l) (g.opnd e l), 0)) s)
def execMov (h : Hdr) (d : Dst) (a : Opnd) (s : State) : Res :=
  .next (aluOp (.mov h d a) d (fun g l => (g.opnd a l, 0)) s)
def execMovi (h : Hdr) (d : Dst) (imm : Word) (s : State) : Res :=
  .next (aluOp (.movi h d imm) d (fun _ _ => (imm, 0)) s)

/-- A pair result, written when `uguard()` is true; it fills no latch (R52). -/
def IC.putPair (c : IC) (s : State) (d : SReg) (x : DWord) : Act :=
  if c.ug then c.goG s (c.g.wrPair d.toNat x c.t) else c.skip s

def execAdd64 (h : Hdr) (d a : SReg) (b : Opnd) (pair : Bool) (s : State) : Res :=
  .next (issue (.add64 h d a b pair) (fun s c =>
    let y : DWord := match b, pair with
      | .s n, true => c.g.pairS n.toNat
      | _, _ => (c.op b).signExtend 64
    c.putPair s d (c.g.pairS a.toNat + y)) s)

/-- A 54-bit address: bits 63:54 zero. -/
def mod54 (x : DWord) : DWord := (x.setWidth 54).setWidth 64

def execLea64 (h : Hdr) (d : SReg) (form : LeaForm) (s : State) : Res :=
  .next (issue (.lea64 h d form) (fun s c =>
    c.putPair s d (match form with
      | .abs x => x.setWidth 64
      | .rel off => mod54 (c.g.pc + off.signExtend 64)
      | .base a off => mod54 (c.g.pairS a.toNat + off.signExtend 64))) s)

/-! ## Select, compare, lane instructions (R71-R77, R113) -/

/-- With a scalar destination `SEL` chooses by "some executing lane" (R74). -/
def execSel (h : Hdr) (d : Dst) (a b : Opnd) (k : PReg) (n : Bool) (s : State) : Res :=
  .next (issue (.sel h d a b k n) (fun s c =>
    let pick := fun l => c.g.rdP k.toNat l != n
    let any := (lanesOf c.m).any pick
    c.alu s d fun l => (if (if c.uni then any else pick l) then c.g.opnd a l else c.g.opnd b l, 0)) s)

def icmpOp (i : Instr) (d : CmpDst) (cc : Cond) (uns : Bool) (w : IWidth) (a : Opnd) (b : Opnd ⊕ Word) (s : State) :
    State :=
  issue i (fun s c =>
    c.cmp s d fun l => (icond cc (narrow w uns (c.g.opnd a l)) (narrow w uns (c.g.opndI b l)), 0)) s

def execIcmp (h : Hdr) (d : CmpDst) (cc : Cond) (uns : Bool) (w : IWidth) (a b : Opnd) (s : State) : Res :=
  .next (icmpOp (.icmp h d cc uns w a b) d cc uns w a (.inl b) s)
def execIcmpImm (h : Hdr) (d : CmpDst) (cc : Cond) (uns : Bool) (w : IWidth) (a : Opnd) (imm : Word) (s : State) : Res :=
  .next (icmpOp (.icmpImm h d cc uns w a imm) d cc uns w a (.inr imm) s)

/-- Source lane of `LANE` (R77). -/
def laneSrc (mode : LaneMode) (w i : Nat) (b : Word) : Nat :=
  match mode with
  | .idx => b.toNat % w
  | .xor => (i ^^^ b.toNat) % w
  | .rot => (i + b.toNat) % w

def execLane (h : Hdr) (d : Dst) (mode : LaneMode) (a b : Opnd) (s : State) : Res :=
  .next (issue (.lane h d mode a b) (fun s c =>
    c.alu s d fun l => (c.g.opnd a (laneSrc mode c.g.width l (c.g.opnd b l)), 0)) s)

def execBallot (h : Hdr) (d : Dst) (b64 : Bool) (k : PReg) (n : Bool) (s : State) : Res :=
  .next (issue (.ballot h d b64 k n) (fun s c =>
    let x := maskFilter c.m fun l => c.g.rdP k.toNat l != n
    match d, b64 with
    | .s r, true => c.putPair s r x
    | _, _ => c.put s d 0 fun _ => loW x) s)

def execVote (h : Hdr) (d : CmpDst) (f : VoteForm) (s : State) : Res :=
  .next (issue (.vote h d f) (fun s c =>
    let ls := lanesOf c.m
    let r := match f with
      | .all j => ls.all fun l => c.g.rdP j.toNat l
      | .any j => ls.any fun l => c.g.rdP j.toNat l
      | .uni a => ls.all fun l => c.g.opnd a l == c.g.opnd a (ls.headD 0)
    if c.ug then c.goG s (c.g.okPred d r c.t) else c.skip s) s)

/-- Reduction of words (R113, R175): the first value starts it. -/
def redWord (op : RedOp) (n32 : Bool) (a b : Word) : Word :=
  match op with
  | .add => a + b
  | .min => (minF n32 a b).1
  | .max => (maxF n32 a b).1
  | .and => a &&& b
  | .or => a ||| b
  | .xor => a ^^^ b

def execGred (h : Hdr) (d : Dst) (op : RedOp) (n32 : Bool) (a : Opnd) (s : State) : Res :=
  .next (issue (.gred h d op n32 a) (fun s c =>
    let ws := (lanesOf c.m).map fun l => c.g.opnd a l
    c.put s d 0 fun _ => ws.tail.foldl (redWord op n32) (ws.headD 0)) s)

end Sys2Proof.Machine
end

