-- ==== Sys2Proof/Machine/Local.lean ====
section
/-! DEFINITION. Local loads and stores with their undo log (R131-R134, R296), and the path instructions (R140). -/

namespace Sys2Proof.Machine

/-! ## The undo log (R296) -/

/-- Slots that some entry for a line or tile already holds. -/
def covered (l : List Undo) (same : UndoWhat → Bool) : Tags :=
  l.foldl (fun a u => if same u.what then a ||| u.tags else a) 0

def sameLine (b : Buf) (line : Nat) : UndoWhat → Bool
  | .line b' l _ _ => b' == b && l == line
  | .tile .. => false
def sameTile (b : Buf) (tile : Nat) : UndoWhat → Bool
  | .line .. => false
  | .tile b' l _ => b' == b && l == tile

/-- Whether a write under `tag` needs an entry for a line. -/
def Team.needLine (t : Team) (b : Buf) (tag : Tags) (line : Nat) : Bool :=
  (tag &&& ~~~(covered t.undo (sameLine b line))) != 0
def Team.needTile (t : Team) (b : Buf) (tag : Tags) (tile : Nat) : Bool :=
  (tag &&& ~~~(covered t.undo (sameTile b tile))) != 0

/-- Records a line's prior state if needed. -/
def Team.logLine (t : Team) (b : Buf) (tag : Tags) (line : Nat) : Team :=
  if t.needLine b tag line then
    { t with undo := t.undo ++ [⟨.line b line (t.rdBytes b (64 * line) 64) (t.lineTag b line), tag⟩] }
  else t
def Team.logTile (t : Team) (b : Buf) (tag : Tags) (tile : Nat) (prior : Owner) : Team :=
  if t.needTile b tag tile then { t with undo := t.undo ++ [⟨.tile b tile prior, tag⟩] } else t

/-- Entries that local stores on their way may still need. -/
def State.undoDue (s : State) (tid : Nat) : Nat :=
  ((s.lacc.filter fun l => l.tid == tid && l.store && l.tag != 0).map fun l =>
    (l.lanes.flatMap fun x => unitsOf 64 x.2.1 (ltySize l.ty)).eraseDups.length).foldl (· + ·) 0

/-- Whether `n` more entries fit (R296). -/
def State.undoRoom (s : State) (t : Team) (n : Nat) : Bool :=
  n = 0 || decide (t.undo.length + s.undoDue t.tid + n ≤ 512)

/-- A tagged store of bytes: logged, written, its lines' masks grown (R287, R296). -/
def Team.store (t : Team) (b : Buf) (o : Nat) (bs : List Byte) (tag : Tags) : Team :=
  let ls := unitsOf 64 o bs.length
  let t := ls.foldl (fun t l => t.logLine b tag l) t
  let t := t.wr b o bs
  if tag = 0 then t else ls.foldl (fun t l => t.setLineTag b l (t.lineTag b l ||| tag)) t

/-! ## Checks of a local access (R132) -/

/-- Class, subcode and lanes of the first failing check over the addresses of the lanes. -/
def locCheck (t : Team) (b : Buf) (sz : Nat) (ls : List (Nat × Int)) : Option (Nat × Nat × Mask) :=
  let bad := fun (p : Int → Bool) => maskOf 64 fun i => ls.any fun x => x.1 == i && p x.2
  let c1 := bad fun e => decide (e < 0) || decide ((t.size b : Int) < e + sz)
  let c2 := bad fun e => e % sz != 0
  let c3 := bad fun e => t.owner b (e.toNat / 4096) != .group
  if c1 != 0 then some (3, if b = .x then 0x01 else 0x02, c1)
  else if c2 != 0 then some (2, 0x11, c2)
  else if c3 != 0 then some (2, 0x10, c3)
  else none

/-- Lane words of a local trap: the offsets, 32 bits wide (R209). -/
def locWords (ls : List (Nat × Int)) (m : Mask) : Sparse DWord :=
  ls.foldl (fun a x => if m.getLsbD x.1 then sset 0 a x.1 ((BitVec.ofInt 32 x.2).setWidth 64) else a) []

/-- Addresses of the lanes that access. -/
def IC.locAddrs (c : IC) (base off : Opnd) : List (Nat × Int) :=
  c.evalLanes.map fun i => (i, c.g.locAddr base off i)

/-- The chain index that a load's result will take (R52). -/
def IC.chainIx (c : IC) : Option Nat := if c.f.hdr.ch then some c.g.latches.length else none

/-- Cycles from issue to performance (R133). -/
def latency : Buf → Nat
  | .x => 4
  | .w => 6

/-- A local load or store at issue: checked, then on its way (R132, R133). -/
def localOp (i : Instr) (b : Buf) (st : Bool) (ty : LTy) (data : Opnd) (d : Dst) (base off : Opnd) (s : State) : State :=
  issue i (fun s c =>
    match s.team? c.g.tid with
    | none => c.skip s
    | some t =>
      let sz := ltySize ty
      let ls := c.locAddrs base off
      match locCheck t b sz ls with
      | some (cls, sub, m) => .trap cls sub m (locWords ls m) 0
      | none =>
        let lines := (ls.flatMap fun x => unitsOf 64 x.2.toNat sz).eraseDups
        let lt := if st then 0 else ls.foldl (fun a x => a ||| t.rangeTag b x.2.toNat sz) 0
        let need := if st then (lines.filter (t.needLine b c.t)).length else 0
        if st && !s.undoRoom t need then .wait
        else
          let a : LAcc :=
            { id := s.nextId, due := s.cycleOf c.g + latency b, gid := c.g.gid, tid := c.g.tid, core := c.g.core
              sub := c.g.num % 4, buf := b, store := st, ty := ty, atom := none
              lanes := ls.map fun x => (x.1, x.2.toNat, c.g.opnd data x.1)
              dst := d, chain := if st then none else c.chainIx, tag := c.t ||| lt, pre := c.pre, suppressed := false }
          let g := if st then c.g else c.g.bring c.pre lt
          let s := if ls.isEmpty then s else { s.fresh with lacc := s.lacc ++ [a] }
          let res : Option LatchV :=
            if st then none
            else some (if c.uni then .scalar (match d with | .s n => c.g.rdS n.toNat | _ => 0)
                       else match d with
                         | .v n => latchVec c.g.width fun l => c.g.rdV n.toNat l
                         | _ => .vector [])
          .go (s.setG g) none res) s

def execLdx (h : Hdr) (d : Dst) (ty : LTy) (base off : Opnd) (s : State) : Res :=
  .next (localOp (.ldx h d ty base off) .x false ty (.imm 0) d base off s)
def execStx (h : Hdr) (data : Opnd) (ty : LTy) (base off : Opnd) (s : State) : Res :=
  .next (localOp (.stx h data ty base off) .x true ty data .none base off s)
def execLdw (h : Hdr) (d : Dst) (ty : LTy) (base off : Opnd) (s : State) : Res :=
  .next (localOp (.ldw h d ty base off) .w false ty (.imm 0) d base off s)
def execStw (h : Hdr) (data : Opnd) (ty : LTy) (base off : Opnd) (s : State) : Res :=
  .next (localOp (.stw h data ty base off) .w true ty data .none base off s)

/-! ## Performance (R133) -/

/-- Updates the latch with chain index `k` of a list of latches, newest first. -/
def latchSet (ls : List Latch) (k : Nat) (f : Latch → Latch) : List Latch :=
  if k < ls.length then ls.modify (ls.length - 1 - k) f else ls

/-- A load's result enters the latch that waits for it (R52, R54). -/
def Group.fillLatch (g : Group) (ch : Option Nat) (vals : List (Nat × Word)) (tag : Tags) : Group :=
  let upd := fun (l : Latch) => match l.val with
    | .scalar _ => { val := .scalar ((vals.headD (0, 0)).2), tag := tag }
    | .vector ws => { val := .vector (vals.foldl (fun a x => sset 0 a x.1 x.2) ws), tag := tag }
  match ch with
  | none => g
  | some k =>
    if k < 8 then { g with latches := latchSet g.latches k upd }
    else { g with sb := { g.sb with latches := latchSet g.sb.latches (k - 8) upd } }

/-- Writes lane results to a destination (R133, R178, R241, R326). -/
def Group.putLanes (g : Group) (d : Dst) (vals : List (Nat × Word)) (t : Tags) : Group :=
  let m := maskOf 64 fun i => vals.any fun x => x.1 == i
  let f := fun i => ((vals.find? fun x => x.1 == i).map (·.2)).getD 0
  match d with
  | .s n => if vals.isEmpty then g else g.wrS n.toNat ((vals.headD (0, 0)).2) t
  | .v n => g.wrV n.toNat m f t
  | .none => g

/-- A load is performed: its bytes go to the destination and the latch; a poisoned granule makes a class 12 fall due
and nothing is written (R222). -/
def runLoad (a : LAcc) (t : Team) (g : Group) : Group :=
  let sz := ltySize a.ty
  let bad := a.lanes.filter fun x => t.poisoned a.buf x.2.1 sz
  let lt := a.lanes.foldl (fun m x => m ||| t.rangeTag a.buf x.2.1 sz) 0
  let tag := a.tag ||| lt
  let vals := a.lanes.map fun x => (x.1, ltyExt a.ty (leNat (t.rdBytes a.buf x.2.1 sz)))
  if !bad.isEmpty then
    g.landed a.id fun g => g.addPend ⟨12, 0x02, maskOf 64 fun i => bad.any fun x => x.1 == i, a.pre.pc,
      bad.foldl (fun m x => sset 0 m x.1 (BitVec.ofNat 64 x.2.1)) [], 0, 0, 8⟩
  else (g.bringLate a.pre lt).landed a.id (fun g => (g.putLanes a.dst vals tag).fillLatch a.chain vals tag) tag

/-- Granules of 64 bytes of which the lanes of a store replace every byte (R222). -/
def LAcc.whole (a : LAcc) : List Nat :=
  let bs := a.lanes.flatMap fun x => (List.range (ltySize a.ty)).map (x.2.1 + ·)
  ((a.lanes.map fun x => x.2.1 / 64).eraseDups).filter fun k => (List.range 64).all fun i => bs.contains (64 * k + i)

/-- A store is performed, lanes ascending: the highest lane's byte remains (R132). -/
def runStore (a : LAcc) (t : Team) : Team :=
  let t := a.lanes.foldl (fun t x => t.store a.buf x.2.1 (natBytes (ltySize a.ty) x.2.2.toNat) a.tag) t
  if (t.poisonOf a.buf).isEmpty then t else t.clearPoison a.buf a.whole

/-- A plain local access is performed. -/
def runLacc (a : LAcc) (s : State) : State :=
  if a.suppressed then s
  else if a.store then s.updT a.tid (runStore a)
  else match s.team? a.tid with
    | none => s
    | some t => s.updG a.gid (runLoad a t)

/-- Order of instants: due cycle, then sub-core, then issue order (R133). -/
def LAcc.before (a b : LAcc) : Bool :=
  decide (a.due < b.due) || (a.due == b.due && (decide (a.sub < b.sub) || (a.sub == b.sub && decide (a.id < b.id))))

/-- The access of a core whose instant comes first. -/
def firstLacc (core : Nat) (l : List LAcc) : Option LAcc :=
  l.foldl (fun m a =>
    if a.core != core then m
    else match m with
      | none => some a
      | some b => if a.before b then some a else some b) none

/-! ## Paths (R140) -/

def execWaitp (h : Hdr) (path : Path) (t : Opnd) (s : State) : Res :=
  .next (issue (.waitp h path t) (fun s c =>
    if !c.ug || c.g.pathCount path ≤ c.u t then c.skip s
    else c.goG s { c.g with park := some (.waitp path (c.u t)) }) s)

def execPcnt (h : Hdr) (d : Dst) (path : Path) (s : State) : Res :=
  .next (issue (.pcnt h d path) (fun s c => c.put s d 0 fun _ => BitVec.ofNat 32 (c.g.pathCount path)) s)

end Sys2Proof.Machine
end

