-- ==== Sys2Proof/Machine/Race.lean ====
section
/-! DEFINITION. The vector-clock unit and the race log of checked grids (R349-R351). -/

namespace Sys2Proof.Machine

/-- The record of a grid. -/
def State.grid? (s : State) (ctx gid : Nat) : Option Grid :=
  match s.ctx? ctx with
  | some c => c.grids.find? fun g => g.gid == gid
  | none => none
def State.updGrid (s : State) (ctx gid : Nat) (f : Grid → Grid) : State :=
  s.updC ctx fun c => { c with grids := c.grids.map fun g => if g.gid = gid then f g else g }

/-- The checked grid that a team belongs to, if the unit watches the team (R349). -/
def State.checked (s : State) (t : Team) : Option Nat :=
  match t.kind with
  | .grid g =>
    match s.grid? t.ctx g with
    | some x => if x.rcd.det && x.rcd.check && t.num < 1024 then some g else none
    | none => none
  | _ => none

def RaceUnit.new (g : Nat) : RaceUnit := ⟨g, [], []⟩
def State.raceUnit (s : State) (g : Nat) : RaceUnit := (s.race.find? fun u => u.grid == g).getD (RaceUnit.new g)
def State.setRace (s : State) (u : RaceUnit) : State :=
  { s with race := u :: s.race.filter fun x => x.grid != u.grid }

/-- A team's clock vector. -/
def RaceUnit.clock (u : RaceUnit) (team : Nat) : Sparse Nat :=
  ((u.clocks.find? fun x => x.1 == team).map (·.2)).getD []
def RaceUnit.setClock (u : RaceUnit) (team : Nat) (c : Sparse Nat) : RaceUnit :=
  { u with clocks := (team, c) :: u.clocks.filter fun x => x.1 != team }

/-- A team's own component advances (R349). -/
def State.raceTick (s : State) (tid : Nat) : State :=
  match s.team? tid with
  | none => s
  | some t =>
    match s.checked t with
    | none => s
    | some g =>
      let u := s.raceUnit g
      let c := u.clock t.num
      s.setRace (u.setClock t.num (sset 0 c t.num (sget 0 c t.num + 1)))

/-- The greater of two clock vectors, component by component. -/
def joinClock (a b : Sparse Nat) : Sparse Nat := b.foldl (fun c x => sset 0 c x.1 (max (sget 0 c x.1) x.2)) a

/-- A phase of the cluster barrier joins the vectors of the cluster's teams, those that have ended included (R349). -/
def State.raceJoin (s : State) (clid : Nat) : State :=
  match s.clu? clid with
  | none => s
  | some cl =>
    let ts := s.teams.filter fun t => cl.has t.tid
    match ts.findSome? s.checked with
    | none => s
    | some g =>
      let u := s.raceUnit g
      let j := cl.nums.foldl (fun c n => joinClock c (u.clock n)) []
      s.setRace (cl.nums.foldl (fun u n => u.setClock n j) u)

/-- Whether the access of clock `a` by team `n` comes before one of clock `b`. -/
def clockBefore (a b : Sparse Nat) (n : Nat) : Bool := decide (sget 0 a n < sget 0 b n)

/-- Kinds of access that do not race with one another (R349). -/
def kindsAgree (a b : Nat) : Bool := ((a = 1 || a = 3) && (b = 1 || b = 3)) || ((a = 2 || a = 3) && (b = 2 || b = 3))

/-- Whether the recorded access `a` races with the new access `b`. -/
def RaceAcc.races (a b : RaceAcc) : Bool :=
  a.team != b.team && (a.write || b.write) && !kindsAgree a.kind b.kind
    && !clockBefore a.clock b.clock a.team && !clockBefore b.clock a.clock b.team

/-- Bytes that the device stores at a VA as one access at its home (R312, R350). -/
def State.storeVA (s : State) (ctx va : Nat) (bs : List Byte) : State :=
  match s.xlate 0 ctx va .write true with
  | .bad _ => s
  | .pa a =>
    match s.home a bs.length false with
    | .far f => s.sendFar f 0 0 0 (.put ⟨bs, []⟩)
    | h => match s.homePa h bs.length .wr with | some (.pa p) => s.homeWrite p bs | _ => s

/-- One race-log entry (R350): the count rises, and the entry is on its way (R351). A line that only remote operations touched has
no VA: a free one (log entry 23). -/
def State.raceLog (s : State) (g ctx : Nat) (a b : RaceAcc) : State :=
  match s.ctx? ctx with
  | none => s
  | some c =>
    let n := c.raceCount.toNat
    let (s, va) := match b.va.or a.va with
      | some k => (s, k * 64)
      | none => (s.draw, fld (Config.freeWord s.free).toNat 6 48 * 64)
    let lw := BitVec.ofNat 64 (va + (if a.write then 1 else 0) + (if b.write then 2 else 0))
    let ws := [loW a.pc, hiW a.pc, loW b.pc, hiW b.pc, loW lw, hiW lw,
      BitVec.ofNat 32 (a.team % 1024 + b.team % 1024 * 65536), c.raceCount]
    let e : RaceEntry := ⟨ctx, g, c.raceBase.toNat + 32 * (n % 2048), wordsBytes ws⟩
    let s := if c.raceBase = 0 then s else { s with raceq := s.raceq ++ [e] }
    s.updC ctx fun c => { c with raceCount := c.raceCount + 1 }

/-- The entries on their way that `pick` names, by position, reach the ring; of two for one place the older comes first. -/
def State.logEntries (s : State) (pick : Nat → RaceEntry → Bool) : State :=
  let (s, rest) := s.raceq.zipIdx.foldl (fun (a : State × List RaceEntry) x =>
    if pick x.2 x.1 && !a.2.any fun e => e.ctx == x.1.ctx && e.va == x.1.va then (a.1.storeVA x.1.ctx x.1.va x.1.bytes, a.2)
    else (a.1, a.2 ++ [x.1])) (s, [])
  { s with raceq := rest }

/-- Every entry of a grid reaches the ring, and what is due at its places before it (R351). -/
def State.logGrid (s : State) (g : Grid) : State :=
  let mine := s.raceq.filter fun e => e.grid == g.gid
  s.logEntries fun _ e => e.grid == g.gid || (e.ctx == g.ctx && mine.any fun x => x.va == e.va)

/-- Lines that the unit tracks per grid. -/
def raceLines : Nat := 2 ^ 20

/-- One checked access to the line at a location. -/
def State.raceLine (s : State) (g ctx : Nat) (b : RaceAcc) (line : Loc) : State :=
  let u := s.raceUnit g
  let old := ((u.lines.find? fun x => x.1 == line).map (·.2)).getD []
  let s := (old.filter fun a => a.races b).foldl (fun s a => s.raceLog g ctx a b) s
  s.setRace { u with lines := ((line, old ++ [b]) :: u.lines.filter fun x => x.1 != line).take raceLines }

/-- An external access of `n` bytes within one page or window, as the unit sees it (R349): its VA, or for a remote operation
its window offset; the location of its first byte; whether it writes; and its kind. -/
def State.raceAt (s : State) (tid : Nat) (pc : DWord) (o : Nat) (hasVA : Bool) (l : Loc) (n : Nat) (write : Bool) (kind : Nat) :
    State :=
  match s.team? tid with
  | none => s
  | some t =>
    match s.checked t with
    | none => s
    | some g =>
      let clk := (s.raceUnit g).clock t.num
      (unitsOf 64 o n).foldl (fun s k =>
        s.raceLine g t.ctx ⟨t.num, if hasVA then some k else none, pc, write, kind, clk⟩ (l.line o k)) s

/-- The same for an access at a VA that translates to `pa`. -/
def State.raceAccess (s : State) (tid : Nat) (pc : DWord) (va pa n : Nat) (write : Bool) (kind : Nat) : State :=
  s.raceAt tid pc va true (s.loc pa) n write kind

end Sys2Proof.Machine
end

