-- ==== Sys2Proof/Machine/Async.lean ====
section
/-! DEFINITION. Operations that outlive their instruction: how they start, are held (R297) or staged (R345), and complete
(R69, R139, R220). -/

namespace Sys2Proof.Machine

/-! ## Starting -/

def State.addOp (s : State) (o : Op) : State := { s with ops := s.ops ++ [o] }

/-- A lane of an operation that has not been performed. -/
def lane0 (i va : Nat) (data cmp : DWord) : Lane := ⟨i, va, 0, 0, data, cmp, .pending, 0, false, false, none⟩

/-- An operation of the current instruction. -/
def IC.mkOp (c : IC) (s : State) (cmd : Cmd) : Op where
  id := s.nextId
  gid := c.g.gid
  tid := c.g.tid
  ctx := s.ctxOfG c.g
  path := c.f.path
  pc := c.g.pc
  cmd := cmd
  st := .active
  lanes := []
  sect := []
  carry := []
  dst := .none
  wregs := []
  p := ⟨0, 0⟩
  exec := c.m
  act := c.g.mask
  uni := c.uni
  tag := c.t
  stamp := s.q
  sup := c.g.sup
  suppressed := false
  flags := 0
  status := 0
  pre := none

/-- The group with its path counter raised for an operation (R69). -/
def Group.upFor (g : Group) (o : Op) : Group := match o.path with | some p => g.pathUp p o.id | none => g

/-- Entries of a held-store log (R297). -/
def heldMax : Nat := 256

/-- Hands an operation over: held when its tag set is not empty (R297), else begun by `act`. `g` is the issuing group,
`extra` the tags of its local range. -/
def IC.submit (c : IC) (s : State) (g : Group) (o : Op) (extra : Tags) (act : State → Op → State) : Act :=
  let tags := g.dep ||| c.t ||| extra
  let s1 := (s.fresh.setG (g.upFor o))
  if tags = 0 then .go (act (s1.addOp o) o) none none
  else match s.team? g.tid with
    | none => c.skip s
    | some t =>
      if heldMax ≤ t.held.length then .wait
      else
        let o := { o with st := .held }
        .go ((s1.addOp o).updT t.tid fun t => { t with held := t.held ++ [⟨o.id, g.gid, tags⟩] }) none none

/-- Hands over an operation that is never held. -/
def IC.launch (_ : IC) (s : State) (g : Group) (o : Op) (act : State → Op → State) : Act :=
  .go (act ((s.fresh.setG (g.upFor o)).addOp o) o) none none

/-- A path-counted instruction whose guard is false in every lane: it is counted, makes no access, and completes in the
issue order of its path (R69). It completes in its issue step where nothing of its path is before it (log entry 108). -/
def IC.noop (c : IC) (s : State) : Act :=
  match c.f.path with
  | none => c.skip s
  | some p => .go (s.fresh.setG ((c.g.pathUp p s.nextId).pathDone s.nextId)) none none

/-! ## Completing -/

/-- Registers, predicates and flags that an operation writes when it completes (R220, R287, R304 step 7). -/
def Op.land (o : Op) (vals : List (Nat × Word)) (pm x : Mask) (g : Group) : Group :=
  let g := g.raise o.flags
  if o.suppressed then g else (g.putLanes o.dst vals o.tag).wrCmp o.p pm x o.tag

/-- An operation completes: its results are written and its counter falls. -/
def State.complete (s : State) (o : Op) (vals : List (Nat × Word)) (pm x : Mask) : State :=
  (s.landed o.gid o.id (o.land vals pm x) o.tag).opDone o

/-- A uniform operation's outcome bit, in every lane that was active at issue. -/
def State.completeOk (s : State) (o : Op) (ok : Bool) : State := s.complete o [] o.act (if ok then o.act else 0)

/-- A uniform operation that writes scalars from `n` up and an outcome bit. -/
def State.completeWords (s : State) (o : Op) (n : Nat) (ws : List Word) (ok : Bool) : State :=
  let s := if o.suppressed then s else s.landed o.gid o.id (fun g => wrSs g n ws o.tag) o.tag
  s.completeOk o ok

/-- A lane with its state. -/
def Op.setLane (o : Op) (i : Nat) (f : Lane → Lane) : Op :=
  { o with lanes := o.lanes.map fun l => if l.lane = i then f l else l }
def Op.lane? (o : Op) (i : Nat) : Option Lane := o.lanes.find? fun l => l.lane == i

def LaneSt.ended : LaneSt → Bool
  | .done | .settled _ => true
  | _ => false
def LaneSt.open_ : LaneSt → Bool
  | .pending => true
  | _ => false

/-- Whether every lane has been performed or settled. -/
def Op.lanesEnded (o : Op) : Bool := o.lanes.all fun l => l.st.ended

/-- Results of the performed lanes. -/
def Op.results (o : Op) (f : DWord → Word) : List (Nat × Word) :=
  (o.lanes.filter fun l => l.st = .done).map fun l => (l.lane, f l.res)

/-- The executing lanes whose access was performed and passes a test. -/
def Op.okMask (o : Op) (f : Lane → Bool) : Mask :=
  let ok := fun i => o.lanes.any fun l => l.lane == i && l.st == .done && f l
  if o.uni then (if ok 0 then o.exec else 0) else maskOf 64 ok

/-! ## Staging (R345-R347) -/

/-- Whether a team belongs to a deterministic grid. -/
def State.isDet (s : State) (tid : Nat) : Bool := match s.team? tid with | some t => t.det | none => false

/-- Runs of one lane or sector number among the captured parts of an operation. -/
def runsOf : List Lane → Nat
  | [] => 0
  | [_] => 1
  | a :: b :: ls => (if a.lane = b.lane then 0 else 1) + runsOf (b :: ls)

/-- Bytes that an operation's capture holds: eight of address and eight of data per lane or sector, and its source bytes
(log entry 15). -/
def stagedBytes (x : Staged) : Nat := 16 * runsOf x.op.lanes + x.src.length

/-- Sum of numbers. -/
def sumNat (l : List Nat) : Nat := l.foldl (· + ·) 0

/-- Bytes that an operation of a deterministic team has still to capture: while it is held (R298), and for a suspended sector
or a held lane (R345). -/
def Op.toStage (o : Op) : Nat :=
  match o.cmd with
  | .copy c =>
    if c.out then sumNat ((List.range c.shape.sectors).map fun n => match sget .pending o.sect n with
      | .pending | .suspended _ => c.shape.lenOf n + 16
      | _ => 0)
    else 0
  | .scatter _ none => if o.st = .held then 16 * o.lanes.length else 0
  | .atomic a => if a.loc.isNone then 16 * (o.lanes.filter fun l => match l.st with
      | .pending | .held _ | .retry => true
      | _ => false).length else 0
  | .remote k _ => match k with
    | .get _ => 0
    | _ => if o.st = .held then 16 * o.lanes.length else 0
  | _ => 0

/-- Bytes a team has staged, or has still to stage for what it has issued. -/
def State.stagedOf (s : State) (t : Team) : Nat :=
  sumNat ((s.ops.filter fun o => o.tid == t.tid).map Op.toStage) + match t.kind with
  | .grid g =>
    match s.grid? t.ctx g with
    | some x => sumNat ((x.staged.filter fun y => y.1 == t.num).map fun y => stagedBytes y.2)
    | none => 0
  | _ => 0

/-- Most bytes a team may stage (R347). -/
def stageMax : Nat := 2 ^ 24

/-- Whether `n` more bytes would pass the limit. -/
def State.stageFull (s : State) (tid n : Nat) : Bool :=
  match s.team? tid with
  | some t => t.det && decide (stageMax < s.stagedOf t + n)
  | none => false

/-- The capture of an operation: it joins its team's staged operations with the stamp of now (R345); it no longer counts for
its issuer. -/
def State.stage (s : State) (o : Op) (src : List Byte) : State :=
  match s.team? o.tid with
  | none => s
  | some t =>
    match t.kind with
    | .grid g => s.updGrid t.ctx g fun x => { x with staged := x.staged ++ [(t.num, ⟨{ o with st := .staged, stamp := s.q }, src⟩)] }
    | _ => s

/-! ## Deferred traps (R212) -/

/-- Deferred traps fall due in the issuing group, unless a rollback took the operation back. -/
def State.deferTraps (s : State) (o : Op) (ts : List (Option TrapRec)) : State :=
  if o.suppressed then s
  else s.landed o.gid o.id fun g => ts.foldl (fun g t => match t with | some t => g.addPend t | none => g) g

/-- A held operation that would trap if it were issued now: it acts on nothing, its counter falls, and its issuer takes the
trap as a deferred one (R298; log entry 83). -/
def State.refuseHeld (s : State) (o : Op) (cls sub : Nat) (m : Mask) (lw : Sparse DWord) : State :=
  (s.opDone o).deferTraps o [some ⟨cls, sub, m, o.pc, lw, 0, 0, 8⟩]

/-! ## Messages that engines post (R247) -/

/-- A message on its way to a mailbox of this rank, sent by an engine: it is an operation of path none. Its lanes name the ranks
that the operation it tells of went to, by which R244 orders it (log entry 60). -/
def State.postMsg (s : State) (o : Op) (ranks : List Nat) (m : Msg) : State :=
  let ls := ranks.map fun r => { lane0 0 0 0 0 with rank := r, st := .done }
  let p : Op := { o with id := s.nextId, path := none, cmd := .msend s.rank m, st := .active, lanes := ls, sect := [], carry := []
                         wregs := [], flags := 0, pre := none }
  s.fresh.addOp p

end Sys2Proof.Machine
end

