-- ==== Sys2Proof/Machine/Order.lean ====
section
/-! DEFINITION. Where the accesses of copies and remote operations go, and the order of one source's operations between ranks
(R170, R233-R235, R244). -/

namespace Sys2Proof.Machine

/-! ## Sectors and pages (R166, R170) -/

/-- The parts of `n` external bytes that lie in one page each: VA, offset in the range, bytes. -/
def pageParts (va n : Nat) : List (Nat × Nat × Nat) :=
  let k := 4096 - va % 4096
  if n ≤ k then [(va, 0, n)] else [(va, 0, k), (va + k, k, n - k)]

/-- External address of a sector; R167 keeps it in range. -/
def CopyCmd.extOf (c : CopyCmd) (n : Nat) : Nat := (c.shape.extOf c.ext n).toNat
def CopyCmd.core (c : CopyCmd) : Nat := c.id.toNat / 2 ^ 24

/-- What a copy's access needs of an export. -/
def CopyCmd.need (c : CopyCmd) : Need := if c.red.isSome then .upd else if c.out then .wr else .rd

/-- The record a copy goes through. -/
def State.recOf (s : State) (tid id : Nat) : Option LayoutRec :=
  match s.team? tid with
  | some t => t.recs.find? fun r => r.id == id
  | none => none

/-- Translates one external address of a copy: through its record's pinned frames, or as its issuer's mode allows
(R170, R195). -/
def State.copyXlate (s : State) (o : Op) (c : CopyCmd) (va : Nat) : Tr :=
  match c.lrec with
  | some id =>
    match s.recOf c.tid id with
    | some r =>
      match r.pins.find? fun p => p.1 == va / 4096 with
      | some p => .pa (p.2 + va % 4096)
      | none => .bad 0x01
    | none => .bad 0x01
  | none => s.xlate c.core o.ctx va (if c.out then .write else .read) o.sup

/-- States of a copy's sectors, ascending. -/
def Op.sectors (o : Op) (c : CopyCmd) : List (Nat × SecSt) :=
  (List.range c.shape.sectors).map fun n => (n, sget .pending o.sect n)

/-- Its sectors still to land, ascending. -/
def Op.pendingSectors (o : Op) (c : CopyCmd) : List Nat := ((o.sectors c).filter fun x => x.2 == .pending).map (·.1)

/-- Where the parts of a sector lie: offset, bytes and home. -/
def State.sectorHomes (s : State) (o : Op) (c : CopyCmd) (n : Nat) : List (Nat × Nat × Home) :=
  (pageParts (c.extOf n) (c.shape.lenOf n)).map fun p =>
    (p.2.1, p.2.2, match s.copyXlate o c p.1 with | .pa a => s.home a p.2.2 c.red.isSome | .bad _ => .none)

/-! ## Accesses of remote operations -/

/-- Bytes and right of an access. -/
def raNeed : RAct → Nat × Need
  | .put d => (d.bytes.length, .wr)
  | .fetch n => (n, .rd)
  | .write sz _ => (sz, .wr)
  | .read sz => (sz, .rd)
  | .reduce _ ty _ _ => (credSize ty, .upd)
  | .atomic _ _ _ => (4, .upd)
  | .cas sz _ _ => (sz, .upd)

/-- The access of one lane. -/
def remAct (k : RemKind) (l : Lane) : RAct :=
  match k with
  | .put sz => .write sz l.data
  | .get ty => .read (ltySize ty)
  | .red op ty => .reduce op (credTyOf ty) (loW l.data) false

/-! ## One source's operations (R240, R244) -/

/-- The rank that a home makes an access go to, if the access goes through an import window. -/
def State.homeRank (s : State) : Home → Option Nat
  | .far (.gfp r _ _) => some r
  | .own _ _ => some s.rank
  | _ => none

/-- Ranks that a begun sector goes to. -/
def State.carryRanks (s : State) (k : Carry) : List Nat :=
  (if k.own.isEmpty then [] else [s.rank]) ++ k.parts.filterMap fun p => match p.2.2 with | .far (.gfp r _ _) => some r | _ => none

/-- Ranks that a pending sector goes to: as its lookups decided when it began, else as they would now (R235). -/
def State.sectorRanks (s : State) (o : Op) (c : CopyCmd) (n : Nat) : List Nat :=
  match o.carry.find? fun k => k.sector == n with
  | some k => s.carryRanks k
  | none => if s.windows.isEmpty then [] else (s.sectorHomes o c n).filterMap fun p => s.homeRank p.2.2

/-- Ranks that a copy's sectors have reached or would reach now. -/
def State.copyRanks (s : State) (o : Op) (c : CopyCmd) : List Nat :=
  c.ranks ++ (o.pendingSectors c).flatMap fun n => s.sectorRanks o c n

/-- Ranks an operation goes to. -/
def State.dests (s : State) (o : Op) : List Nat :=
  match o.cmd with
  | .remote _ _ => o.lanes.map (·.rank)
  | .msend r _ => [r]
  | .mcst m => m.members
  | .copy c => s.copyRanks o c
  | _ => []

/-- Whether an operation is one that R244 orders. -/
def Op.ordered (o : Op) : Bool := o.path == some .F || match o.cmd with | .copy _ => true | _ => false

/-- Earlier operations of the same source under way, among those that R244 orders. -/
def State.earlier (s : State) (o : Op) : List Op :=
  s.ops.filter fun p => p.gid == o.gid && decide (p.id < o.id) && p.st == .active && p.ordered

/-- Whether an operation has an effect at a rank still to come (R244). -/
def State.effectDue (s : State) (o : Op) (rank : Nat) : Bool :=
  match o.cmd with
  | .remote _ _ | .mcst _ => o.lanes.any fun l => l.rank == rank && l.st == .pending
  | .msend r _ => r == rank && o.status == 0
  | .copy c => (o.pendingSectors c).any fun n => (s.sectorRanks o c n).contains rank
  | _ => false

/-- Whether an earlier operation of the same source still has an event to signal at this rank (R244). -/
def State.srcBlocked (s : State) (o : Op) : Bool := (s.earlier o).any fun p => s.effectDue p s.rank

/-- Whether an earlier operation of the same source to one of its destinations has not completed (R244). -/
def State.endBlocked (s : State) (o : Op) : Bool :=
  let ds := s.dests o
  !ds.isEmpty && (s.earlier o).any fun p => (s.dests p).any ds.contains

/-- Whether an earlier message that an engine posted for this source, of an operation to one of the same ranks, has still to
arrive (R244; log entry 60). -/
def State.postBlocked (s : State) (o : Op) : Bool :=
  o.path.isNone && s.ops.any fun p => p.gid == o.gid && decide (p.id < o.id) && p.path.isNone &&
    (match p.cmd with | .msend .. => true | _ => false) && p.lanes.any fun l => o.lanes.any fun k => k.rank == l.rank

/-- The access that a lookup has let pass for a lane of this rank's own operation, if it is still to be performed. -/
def State.decided (s : State) (op lane : Nat) : Option Foreign :=
  s.foreign.find? fun f => f.req.src == s.rank && f.req.op == op && f.req.lane == lane

/-- The physical address at which a pending lane aimed at this rank is, or would be, performed. -/
def State.lanePA (s : State) (o : Op) (l : Lane) (win off sz : Nat) (n : Need) : Option Nat :=
  match s.decided o.id l.lane with
  | some f => some f.pa
  | none => match s.export_ win off sz n with | .pa a => some a | .bad _ => none

/-- Physical ranges of this rank that a pending sector reaches through a window: as its lookups decided when it began, else as
they would now. -/
def State.sectorDue (s : State) (o : Op) (c : CopyCmd) (n : Nat) : List (Nat × Nat) :=
  match o.carry.find? fun k => k.sector == n with
  | some k => k.parts.filterMap fun p => match p.2.2 with
      | .here a => if k.own.contains p.1 then some (a, p.2.1) else none
      | .far _ => none
  | none =>
    if s.windows.isEmpty then []
    else (s.sectorHomes o c n).filterMap fun p => match p.2.2 with
      | .own w off => (match s.export_ w off p.2.1 c.need with | .pa a => some (a, p.2.1) | .bad _ => none)
      | _ => none

/-- Physical ranges that an operation has still to reach at this rank, with their lanes (a sector's number for a copy). -/
def State.dueRanges (s : State) (o : Op) : List (Nat × Nat × Nat) :=
  match o.cmd with
  | .remote k win => (o.lanes.filter fun l => l.rank == s.rank && l.st == .pending).filterMap fun l =>
      let (sz, n) := raNeed (remAct k l)
      (s.lanePA o l win l.va sz n).map fun a => (l.lane, a, sz)
  | .mcst m => (o.lanes.filter fun l => l.rank == s.rank && l.st == .pending).filterMap fun l =>
      (s.lanePA o l m.win m.roff m.n .wr).map fun a => (l.lane, a, m.n)
  | .copy c => (o.pendingSectors c).flatMap fun n => (s.sectorDue o c n).map fun p => (n, p)
  | _ => []

/-- Whether two byte ranges share a byte. -/
def overlap (a n b m : Nat) : Bool := decide (a < b + m) && decide (b < a + n)

/-- Whether a lane must wait for an earlier access of its source to the same bytes at this rank: of the same instruction by
ascending lane (R240), of earlier operations in issue order (R244). -/
def State.remBlocked (s : State) (o : Op) (lane : Nat) : Bool :=
  let mine := s.dueRanges o
  (mine.filter fun x => x.1 == lane).any fun x =>
    ((match o.cmd with | .copy _ => false | _ => true) && mine.any fun y => decide (y.1 < lane) && overlap y.2.1 y.2.2 x.2.1 x.2.2)
      || (s.earlier o).any fun p => (s.dueRanges p).any fun y => overlap y.2.1 y.2.2 x.2.1 x.2.2

/-! ## Other ranks' sources (R244) -/

/-- Whether an event of a later operation of the same source has been signalled here: nothing of operation `op` is still to come
then. -/
def State.past (s : State) (src : Nat) (sends : Bool) (num op : Nat) : Bool :=
  s.heard.any fun h => h.src == src && h.sends == sends && h.num == num && decide (op ≤ h.op)

/-- An event of a source's operation is signalled; what operations up to it have reached is of no more account. -/
def State.hear (s : State) (src : Nat) (sends : Bool) (num op : Nat) : State :=
  { s with
    heard := ⟨src, sends, num, op⟩ :: s.heard.filter fun h => !(h.src == src && h.sends == sends && h.num == num)
    reached := s.reached.filter fun x => !(x.src == src && x.sends == sends && x.num == num && decide (x.op ≤ op)) }

/-- Whether a later operation of the same source has reached some of the bytes here: an access of operation `op` to them comes no
more (R244, item 3). -/
def State.overtaken (s : State) (src : Nat) (sends : Bool) (num op pa n : Nat) : Bool :=
  s.reached.any fun x => x.src == src && x.sends == sends && x.num == num && decide (op < x.op) && overlap x.pa x.len pa n

/-- An operation of another rank's source reaches bytes here. -/
def State.reach (s : State) (src : Nat) (sends : Bool) (num op pa n : Nat) : State :=
  if src = s.rank then s else { s with reached := ⟨src, sends, num, op, pa, n⟩ :: s.reached }

/-- Whether an access of an earlier operation of another rank's source has been decided here and not performed. -/
def State.foreignDue (s : State) (src grp op : Nat) : Bool :=
  s.foreign.any fun f => f.req.ord && f.req.src == src && f.req.grp == grp && decide (f.req.op < op)

end Sys2Proof.Machine
end

