-- ==== Sys2Proof/Machine/FloatAlu.lean ====
section
/-! DEFINITION. Floating instructions, floating compares and conversions (R71-R73, R116-R127). -/

namespace Sys2Proof.Machine

/-- A result pattern as a 32-bit word. -/
def fw (r : Nat × BitVec 7) : Word × BitVec 7 := (BitVec.ofNat 32 r.1, r.2)

/-- A two-source floating instruction (R117, R118). -/
def f2Op (i : Instr) (d : Dst) (t : FTy) (a : Opnd) (b : Opnd ⊕ Word) (m : FMods)
    (f : Group → FVal → FVal → Nat × BitVec 7) (s : State) : State :=
  aluOp i d (fun g l => fw (f g (g.fvalOf t (.inl a) m.negA m.absA l) (g.fvalOf t b m.negB m.absB l))) s

/-- A packed two-source instruction: both halves, flags united (R122). -/
def h2Op (i : Instr) (d : Dst) (bf : Bool) (a : Opnd) (b : Opnd ⊕ Word) (m : FMods)
    (f : Group → FVal → FVal → Nat × BitVec 7) (s : State) : State :=
  aluOp i d (fun g l =>
    let t := packTy bf
    let half := fun hi => f g (g.hvalOf t (.inl a) m.negA m.absA hi l) (g.hvalOf t b m.negB m.absB hi l)
    (BitVec.ofNat 32 ((half true).1 * 65536 + (half false).1), (half true).2 ||| (half false).2)) s

def gAdd (t : FTy) (g : Group) (x y : FVal) : Nat × BitVec 7 := fadd (ffmt t) g.rnd g.fz x y
def gSub (t : FTy) (g : Group) (x y : FVal) : Nat × BitVec 7 := fadd (ffmt t) g.rnd g.fz x y.neg
def gMul (ac : AC) (t : FTy) (g : Group) (x y : FVal) : Nat × BitVec 7 := fmul (ffmt t) g.rnd g.fz ac x y
def gMin (t : FTy) (_ : Group) (x y : FVal) : Nat × BitVec 7 := (fminmax (ffmt t) false x y, 0)
def gMax (t : FTy) (_ : Group) (x y : FVal) : Nat × BitVec 7 := (fminmax (ffmt t) true x y, 0)

def execFadd (h : Hdr) (d : Dst) (t : FTy) (a b : Opnd) (m : FMods) (s : State) : Res :=
  .next (f2Op (.fadd h d t a b m) d t a (.inl b) m (gAdd t) s)
def execFaddImm (h : Hdr) (d : Dst) (t : FTy) (a : Opnd) (imm : Word) (m : FMods) (s : State) : Res :=
  .next (f2Op (.faddImm h d t a imm m) d t a (.inr imm) m (gAdd t) s)
def execFsub (h : Hdr) (d : Dst) (t : FTy) (a b : Opnd) (m : FMods) (s : State) : Res :=
  .next (f2Op (.fsub h d t a b m) d t a (.inl b) m (gSub t) s)
def execFsubImm (h : Hdr) (d : Dst) (t : FTy) (a : Opnd) (imm : Word) (m : FMods) (s : State) : Res :=
  .next (f2Op (.fsubImm h d t a imm m) d t a (.inr imm) m (gSub t) s)
def execFmul (h : Hdr) (ac : AC) (d : Dst) (t : FTy) (a b : Opnd) (m : FMods) (s : State) : Res :=
  .next (f2Op (.fmul h ac d t a b m) d t a (.inl b) m (gMul ac t) s)
def execFmulImm (h : Hdr) (ac : AC) (d : Dst) (t : FTy) (a : Opnd) (imm : Word) (m : FMods) (s : State) : Res :=
  .next (f2Op (.fmulImm h ac d t a imm m) d t a (.inr imm) m (gMul ac t) s)
def execFfma (h : Hdr) (ac : AC) (d : Dst) (t : FTy) (a b e : Opnd) (m : FMods) (negC absC : Bool) (s : State) : Res :=
  .next (aluOp (.ffma h ac d t a b e m negC absC) d (fun g l =>
    fw (ffma (ffmt t) g.rnd g.fz ac (g.fvalOf t (.inl a) m.negA m.absA l) (g.fvalOf t (.inl b) m.negB m.absB l)
      (g.fvalOf t (.inl e) negC absC l))) s)
def execFmin (h : Hdr) (d : Dst) (t : FTy) (a b : Opnd) (m : FMods) (s : State) : Res :=
  .next (f2Op (.fmin h d t a b m) d t a (.inl b) m (gMin t) s)
def execFminImm (h : Hdr) (d : Dst) (t : FTy) (a : Opnd) (imm : Word) (m : FMods) (s : State) : Res :=
  .next (f2Op (.fminImm h d t a imm m) d t a (.inr imm) m (gMin t) s)
def execFmax (h : Hdr) (d : Dst) (t : FTy) (a b : Opnd) (m : FMods) (s : State) : Res :=
  .next (f2Op (.fmax h d t a b m) d t a (.inl b) m (gMax t) s)
def execFmaxImm (h : Hdr) (d : Dst) (t : FTy) (a : Opnd) (imm : Word) (m : FMods) (s : State) : Res :=
  .next (f2Op (.fmaxImm h d t a imm m) d t a (.inr imm) m (gMax t) s)

/-- A floating compare (R72, R73). -/
def fcmpOp (i : Instr) (d : CmpDst) (cc : Cond) (t : FTy) (a : Opnd) (b : Opnd ⊕ Word) (s : State) : State :=
  issue i (fun s c =>
    c.cmp s d fun l => fcond cc (c.g.fvalOf t (.inl a) false false l) (c.g.fvalOf t b false false l)) s

def execFcmp (h : Hdr) (d : CmpDst) (cc : Cond) (t : FTy) (a b : Opnd) (s : State) : Res :=
  .next (fcmpOp (.fcmp h d cc t a b) d cc t a (.inl b) s)
def execFcmpImm (h : Hdr) (d : CmpDst) (cc : Cond) (t : FTy) (a : Opnd) (imm : Word) (s : State) : Res :=
  .next (fcmpOp (.fcmpImm h d cc t a imm) d cc t a (.inr imm) s)

/-- A function of R120. -/
def funOp (i : Instr) (d : Dst) (t : FTy) (fn : FFun) (a : Opnd) (neg abs : Bool) (s : State) : State :=
  aluOp i d (fun g l => fw (ffun (ffmt t) g.fz fn (g.fvalOf t (.inl a) neg abs l))) s

def execFrcp (h : Hdr) (d : Dst) (t : FTy) (a : Opnd) (neg abs : Bool) (s : State) : Res :=
  .next (funOp (.frcp h d t a neg abs) d t .rcp a neg abs s)
def execFrsq (h : Hdr) (d : Dst) (t : FTy) (a : Opnd) (neg abs : Bool) (s : State) : Res :=
  .next (funOp (.frsq h d t a neg abs) d t .rsq a neg abs s)
def execFsqrt (h : Hdr) (d : Dst) (t : FTy) (a : Opnd) (neg abs : Bool) (s : State) : Res :=
  .next (funOp (.fsqrt h d t a neg abs) d t .sqrt a neg abs s)
def execFexp2 (h : Hdr) (d : Dst) (t : FTy) (a : Opnd) (neg abs : Bool) (s : State) : Res :=
  .next (funOp (.fexp2 h d t a neg abs) d t .exp2 a neg abs s)
def execFlog2 (h : Hdr) (d : Dst) (t : FTy) (a : Opnd) (neg abs : Bool) (s : State) : Res :=
  .next (funOp (.flog2 h d t a neg abs) d t .log2 a neg abs s)
def execFtanh (h : Hdr) (d : Dst) (t : FTy) (a : Opnd) (neg abs : Bool) (s : State) : Res :=
  .next (funOp (.ftanh h d t a neg abs) d t .tanh a neg abs s)
def execFclass (h : Hdr) (d : Dst) (t : FTy) (a : Opnd) (neg abs : Bool) (s : State) : Res :=
  .next (aluOp (.fclass h d t a neg abs) d (fun g l =>
    (BitVec.ofNat 32 (fclass (ffmt t) (fmod (ffmt t) neg abs (g.fopnd t (.inl a) l))), 0)) s)

/-! ## Packed pairs (R122) -/

def execHadd2 (h : Hdr) (d : Dst) (bf : Bool) (a b : Opnd) (m : FMods) (s : State) : Res :=
  .next (h2Op (.hadd2 h d bf a b m) d bf a (.inl b) m (gAdd (packTy bf)) s)
def execHadd2Imm (h : Hdr) (d : Dst) (bf : Bool) (a : Opnd) (imm : Word) (m : FMods) (s : State) : Res :=
  .next (h2Op (.hadd2Imm h d bf a imm m) d bf a (.inr imm) m (gAdd (packTy bf)) s)
def execHmul2 (h : Hdr) (ac : AC) (d : Dst) (bf : Bool) (a b : Opnd) (m : FMods) (s : State) : Res :=
  .next (h2Op (.hmul2 h ac d bf a b m) d bf a (.inl b) m (gMul ac (packTy bf)) s)
def execHmul2Imm (h : Hdr) (ac : AC) (d : Dst) (bf : Bool) (a : Opnd) (imm : Word) (m : FMods) (s : State) : Res :=
  .next (h2Op (.hmul2Imm h ac d bf a imm m) d bf a (.inr imm) m (gMul ac (packTy bf)) s)
def execHfma2 (h : Hdr) (ac : AC) (d : Dst) (bf : Bool) (a b e : Opnd) (m : FMods) (negC absC : Bool) (s : State) :
    Res :=
  .next (aluOp (.hfma2 h ac d bf a b e m negC absC) d (fun g l =>
    let t := packTy bf
    let half := fun hi => ffma (ffmt t) g.rnd g.fz ac (g.hvalOf t (.inl a) m.negA m.absA hi l)
      (g.hvalOf t (.inl b) m.negB m.absB hi l) (g.hvalOf t (.inl e) negC absC hi l)
    (BitVec.ofNat 32 ((half true).1 * 65536 + (half false).1), (half true).2 ||| (half false).2)) s)
def execHmin2 (h : Hdr) (d : Dst) (bf : Bool) (a b : Opnd) (m : FMods) (s : State) : Res :=
  .next (h2Op (.hmin2 h d bf a b m) d bf a (.inl b) m (gMin (packTy bf)) s)
def execHmin2Imm (h : Hdr) (d : Dst) (bf : Bool) (a : Opnd) (imm : Word) (m : FMods) (s : State) : Res :=
  .next (h2Op (.hmin2Imm h d bf a imm m) d bf a (.inr imm) m (gMin (packTy bf)) s)
def execHmax2 (h : Hdr) (d : Dst) (bf : Bool) (a b : Opnd) (m : FMods) (s : State) : Res :=
  .next (h2Op (.hmax2 h d bf a b m) d bf a (.inl b) m (gMax (packTy bf)) s)
def execHmax2Imm (h : Hdr) (d : Dst) (bf : Bool) (a : Opnd) (imm : Word) (m : FMods) (s : State) : Res :=
  .next (h2Op (.hmax2Imm h d bf a imm m) d bf a (.inr imm) m (gMax (packTy bf)) s)

/-- A packed compare: under `.lo` and `.hi` only that half is compared (R73). -/
def hcmpOp (i : Instr) (d : CmpDst) (cc : Cond) (bf : Bool) (comb : Comb) (a : Opnd) (b : Opnd ⊕ Word) (s : State) :
    State :=
  issue i (fun s c =>
    let half := fun hi l => fcond cc (c.g.hvalOf (packTy bf) (.inl a) false false hi l)
      (c.g.hvalOf (packTy bf) b false false hi l)
    c.cmp s d fun l =>
      match comb with
      | .lo => half false l
      | .hi => half true l
      | .all => ((half false l).1 && (half true l).1, (half false l).2 ||| (half true l).2)
      | .any => ((half false l).1 || (half true l).1, (half false l).2 ||| (half true l).2)) s

def execHcmp2 (h : Hdr) (d : CmpDst) (cc : Cond) (bf : Bool) (comb : Comb) (a b : Opnd) (s : State) : Res :=
  .next (hcmpOp (.hcmp2 h d cc bf comb a b) d cc bf comb a (.inl b) s)
def execHcmp2Imm (h : Hdr) (d : CmpDst) (cc : Cond) (bf : Bool) (comb : Comb) (a : Opnd) (imm : Word) (s : State) : Res :=
  .next (hcmpOp (.hcmp2Imm h d cc bf comb a imm) d cc bf comb a (.inr imm) s)

/-- `FSUM` (R123): one exact sum, rounded once to FP32. -/
def execFsum (h : Hdr) (d : Dst) (t : FTy) (a : Opnd) (s : State) : Res :=
  .next (issue (.fsum h d t a) (fun s c =>
    let vs := (lanesOf c.m).map fun l => c.g.fvalOf t (.inl a) false false l
    let r := rndWith (ffmt .f32) c.g.rnd c.g.fz (sumAll (c.g.rnd == .rdn) vs)
    c.put s d (if c.ug then r.2 else 0) fun _ => BitVec.ofNat 32 r.1) s)

/-! ## Conversions (R124-R127) -/

/-- Floating type of a conversion code. -/
def ctyF : CTy → Option FTy
  | .f32 => some .f32 | .f16 => some .f16 | .bf16 => some .bf16
  | _ => none
/-- Width and signedness of an integer conversion code. -/
def ctyI : CTy → Nat × Bool
  | .i32 => (32, true) | .n32 => (32, false) | .i16 => (16, true) | .n16 => (16, false)
  | .i8 => (8, true) | _ => (8, false)
def ctyLo (t : CTy) : Int := if (ctyI t).2 then -(2 ^ ((ctyI t).1 - 1) : Nat) else 0
def ctyHi (t : CTy) : Int := if (ctyI t).2 then (2 ^ ((ctyI t).1 - 1) : Nat) - 1 else (2 ^ (ctyI t).1 : Nat) - 1

/-- The integer a source word holds (R125). -/
def cvtInt (t : CTy) (x : Word) : Int :=
  let w := (ctyI t).1
  let y := x.toNat % 2 ^ w
  if (ctyI t).2 && 2 ^ (w - 1) ≤ y then (y : Int) - (2 ^ w : Nat) else (y : Int)

/-- A float converted to an integer type (R125). -/
def cvtToInt (t : CTy) (mode : RMode) (v : FVal) : Int × BitVec 7 :=
  match v with
  | .nan => (0, fInvalid)
  | .inf s => (if s then ctyLo t else ctyHi t, fInvalid)
  | .zero _ => (0, 0)
  | .fin s m e =>
    let (z, inx) := toInteger mode s m e
    if z < ctyLo t then (ctyLo t, fInvalid) else if ctyHi t < z then (ctyHi t, fInvalid)
    else (z, flagIf inx fInexact)

/-- `CVT` of one lane (R125). A 16-bit floating source is in bits 15:0. -/
def cvtF (dst src : CTy) (mode : RMode) (fz : Bool) (x : Word) : Word × BitVec 7 :=
  let v := fun t => fval (ffmt t) fz (x.toNat % 2 ^ (ffmt t).width)
  match ctyF dst, ctyF src with
  | none, none => let (y, fl) := satclamp (cvtInt src x) (ctyLo dst) (ctyHi dst); (BitVec.ofInt 32 y, fl)
  | none, some t => let (y, fl) := cvtToInt dst mode (v t); (BitVec.ofInt 32 y, fl)
  | some f, none => fw (frnd (ffmt f) mode fz (ofInt false (cvtInt src x) 0))
  | some f, some t => fw (frnd (ffmt f) mode fz (v t))

/-- Every source is read with `opnd`: a short immediate of a floating source stands for its sign-extended bits (R125). -/
def execCvt (h : Hdr) (d : Dst) (dst src : CTy) (mode : Option RMode) (a : Opnd) (s : State) : Res :=
  .next (aluOp (.cvt h d dst src mode a) d (fun g l =>
    cvtF dst src (mode.getD g.rnd) g.fz (g.opnd a l)) s)

def execPack (h : Hdr) (d : Dst) (mode : PackMode) (a b : Opnd) (s : State) : Res :=
  .next (aluOp (.pack h d mode a b) d (fun g l =>
    let cv := fun (t : FTy) =>
      let r := fun o => frnd (ffmt t) g.rnd g.fz (fval (ffmt .f32) g.fz (g.fopnd .f32 (.inl o) l))
      (BitVec.ofNat 32 ((r b).1 * 65536 + (r a).1), (r a).2 ||| (r b).2)
    match mode with
    | .b16 => (BitVec.ofNat 32 (fld (g.opnd b l).toNat 0 16 * 65536 + fld (g.opnd a l).toNat 0 16), 0)
    | .f16x2 => cv .f16
    | .bf16x2 => cv .bf16) s)

/-- `UNPACK` of one half (R127). -/
def unpackF (kind : UnpackKind) (fz : Bool) (x : Nat) : Word :=
  match kind with
  | .b16 => BitVec.ofNat 32 x
  | .i16 => (BitVec.ofNat 16 x).signExtend 32
  | .f16 => BitVec.ofNat 32 (fenc (ffmt .f32) (fval (ffmt .f16) fz x))
  | .bf16 => BitVec.ofNat 32 (fenc (ffmt .f32) (fval (ffmt .bf16) fz x))

def execUnpack (h : Hdr) (d : Dst) (kind : UnpackKind) (hi : Bool) (a : Opnd) (s : State) : Res :=
  .next (aluOp (.unpack h d kind hi a) d (fun g l =>
    (unpackF kind g.fz (fld (g.opnd a l).toNat (if hi then 16 else 0) 16), 0)) s)

end Sys2Proof.Machine
end

