-- ==== Sys2Proof/Machine/Matrix.lean ====
section
/-! DEFINITION. Matrix quads, sets, K-steps, resets (R141-R157) and the block-format instructions (R158-R162). -/

namespace Sys2Proof.Machine

/-! ## Quads (R141) -/

/-- Whether a group can be a quad member. -/
def Group.quadable (g : Group) : Bool := g.role == .computer && g.width == 64

/-- A group put into a list in ascending order of numbers. -/
def intoNums (g : Group) : List Group → List Group
  | [] => [g]
  | x :: xs => if g.num ≤ x.num then g :: x :: xs else x :: intoNums g xs

/-- Computer groups of width 64 of a team on a sub-core, ascending by number. -/
def State.quadCol (s : State) (tid sub : Nat) : List Group :=
  ((s.teamGroups tid).filter fun g => g.quadable && g.num % 4 == sub).foldr intoNums []

/-- The four members of quad `j`, by quarter index; fewer when it does not exist. -/
def State.quadMembers (s : State) (tid j : Nat) : List Group :=
  (List.range 4).filterMap fun q => (s.quadCol tid q)[j]?

/-- Quad number of a group, if it belongs to one. -/
def State.quadOf (s : State) (g : Group) : Option Nat :=
  if !g.quadable then none
  else
    let j := ((s.quadCol g.tid (g.num % 4)).takeWhile fun x => x.gid != g.gid).length
    if (s.quadMembers g.tid j).length = 4 then some j else none

def Quad.empty (j : Nat) : Quad := ⟨j, [], [0, 0, 0, 0], [], 0, none, none⟩
def Team.quad (t : Team) (j : Nat) : Quad := (t.quads.find? fun q => q.num == j).getD (Quad.empty j)
def Team.setQuad (t : Team) (q : Quad) : Team :=
  if t.quads.any fun x => x.num == q.num then
    { t with quads := t.quads.map fun x => if x.num = q.num then q else x }
  else { t with quads := t.quads ++ [q] }

/-! ## Issue (R146, R147) -/

/-- The 256 map bits; the empty map when none is named (R145, R146). -/
def Group.mapBits (g : Group) (m : Option SReg) : BitVec 256 :=
  match m with
  | none => 0
  | some r => BitVec.ofNat 256 ((List.range 8).foldl (fun a w => a + (g.rdS (r.toNat + w)).toNat * 2 ^ (32 * w)) 0)

/-- The issue of one member. -/
def IC.mIssue (c : IC) (id quarter : Nat) (m : MOps) (bstep : Nat) (step : Bool) : MIssue where
  gid := c.g.gid
  op := id
  quarter := quarter
  null := !c.ug
  partGuard := c.ug && c.m != c.g.mask
  step := step
  ac := m.ac
  af := match m.ovr with | some o => o.af | none => afmtOf c.g.fmt
  bf := match m.ovr with | some o => o.bf | none => bfmtOf c.g.fmt
  acc := match m.ovr with | some o => o.acc | none => accOf c.g.fmt
  vc := m.vc.toNat
  vb := m.vb.toNat
  bstep := bstep
  aaddr := c.u m.a
  astride := c.u m.astride
  n := c.u m.n
  map := c.g.mapBits m.map
  klen := m.klen.toNat
  pc := c.g.pc
  tag := c.t
  pre := c.pre
  suppressed := false
  flags := 0

/-- The range check of R147. -/
def MIssue.rangeOk (m : MIssue) (vregs : Nat) : Bool :=
  decide (m.vc + 15 < vregs) &&
    (if m.step then decide (m.vb + rbOf m.bf ≤ vregs)
     else m.n = 0 || decide (m.vb + (m.n - 1) * m.bstep + rbOf m.bf ≤ vregs))

/-- An issue joins its quad's set (R148), or is discarded at once when the set is gone (R150). -/
def Quad.join (q : Quad) (m : MIssue) : Quad × Bool :=
  let ix := q.nextSet.getD m.quarter 0
  let q := { q with nextSet := q.nextSet.set m.quarter (ix + 1) }
  if q.dead.contains ix then (q, false)
  else if q.sets.any fun x => x.index == ix then
    ({ q with sets := q.sets.map fun x => if x.index = ix then { x with issues := x.issues ++ [m] } else x }, true)
  else ({ q with sets := q.sets ++ [⟨ix, [m], false, 0, 0⟩] }, true)

/-! ## A-fetch (R143-R145) -/

/-- Set map bits below `n`. -/
def mapCount (map : BitVec 256) (n : Nat) : Nat := ((List.range (min n 256)).filter fun c => map.getLsbD c).length

/-- K-steps an issue performs, in order (R149). -/
def MIssue.ks (m : MIssue) : List Nat := if m.step then [m.n] else List.range m.n

/-- The expanded length Kx (R145). -/
def MIssue.kx (m : MIssue) : Nat :=
  if m.klen != 0 then m.klen + mapCount m.map m.klen
  else 16 * (if m.step then m.n + 1 else m.n)

/-- `orig(p)` (R145), from column `c` at expanded position `e`. -/
def origFrom (map : BitVec 256) (p : Nat) : Nat → Nat → Nat → Nat
  | 0, c, _ => c
  | fuel + 1, c, e =>
    let w := if c < 256 && map.getLsbD c then 2 else 1
    if p < e + w then c else origFrom map p fuel (c + 1) (e + w)
def orig (map : BitVec 256) (p : Nat) : Nat := origFrom map p (p + 1) 0 0

/-- Row offset and bytes that hold original column `c` (R144). -/
def colBytes (af : MFmt) (c : Nat) : Nat × Nat :=
  if isBlock af then (c / 16 * blockBytes af, blockBytes af)
  else (c * (blockBytes af / 16), blockBytes af / 16)

/-- Original columns of one K-step, with their positions (R145). -/
def MIssue.cols (m : MIssue) (k : Nat) : List Nat :=
  (((List.range 16).map fun j => 16 * k + j).filter fun p => decide (p < m.kx)).map fun p => orig m.map p

/-- Byte ranges of W that A-fetch reads for the K-steps `ks`. -/
def MIssue.fetch (m : MIssue) (ks : List Nat) : List (Nat × Nat) :=
  let cs := ((ks.flatMap fun k => m.cols k).map (colBytes m.af)).eraseDups
  (List.range 16).flatMap fun r => cs.map fun x => (m.aaddr + r * m.astride + x.1, x.2)

/-- Tiles of W that an outstanding matrix issue covers (R135). -/
def MIssue.tiles (m : MIssue) : List Nat :=
  if m.null then [] else ((m.fetch m.ks).flatMap fun x => unitsOf 4096 x.1 x.2).eraseDups

/-- Tags of the W lines that A-fetch reads for the K-steps `ks` (R287). -/
def MIssue.lineTags (m : MIssue) (t : Team) (ks : List Nat) : Tags :=
  if m.null then 0 else (m.fetch ks).foldl (fun a x => a ||| t.rangeTag .w x.1 x.2) 0

/-! ## Issue (R141, R146, R147, R287) -/

/-- `MLOOP` and `MSTEP` at issue: the range check, then the wait for the registers of its C and B ranges (R18, R147), and a
poisoned line of them (R222). The masks of the W lines it will read join T (R287). The ranges are checked of a null issue too (log
entry 113). -/
def mIssueOp (i : Instr) (m : MOps) (bstep : Nat) (step : Bool) (s : State) : State :=
  issue i (fun s c =>
    match s.team? c.g.tid, s.quadOf c.g with
    | some t, some j =>
      let x := c.mIssue s.nextId (c.g.num % 4) m bstep step
      if !x.rangeOk c.g.vregs then .trp 2 0x01 (if c.ug then c.m else c.g.mask)
      else if !(s.regsFree c.g x.cRegs && s.regsRead c.g x.bRegs) then .wait
      else if c.g.readsPoison (x.cRegs ++ x.bRegs) then .trp 12 0x01 c.g.mask
      else
        let lt := if x.n ≤ 32 then x.lineTags t x.ks else 0
        let (q, live) := (t.quad j).join { x with tag := c.t ||| lt }
        let g := (c.g.pathUp .M x.op).bring c.pre lt
        let g := if live then g else g.pathDone x.op
        .go ((s.fresh.updT t.tid fun t => t.setQuad q).setG g) none none
    | _, _ => .trp 11 0x02 c.g.mask) s

def execMloop (h : Hdr) (m : MOps) (bstep : BitVec 8) (s : State) : Res :=
  .next (mIssueOp (.mloop h m bstep) m bstep.toNat false s)
def execMstep (h : Hdr) (m : MOps) (s : State) : Res :=
  .next (mIssueOp (.mstep h m) m 0 true s)

/-! ## Starting and discarding sets (R148, R150) -/

/-- Whether R142 accepts the formats. -/
def fmtsOk (m : MIssue) : Bool :=
  match m.acc with
  | .int32 => m.af == .int8 && m.bf == .int8
  | .fp32 => (m.af == .int8) == (m.bf == .int8)

/-- Whether a member's C range meets its own B range. -/
def MIssue.overlap (m : MIssue) : Bool := m.cRegs.any fun r => m.bRegs.contains r

/-- The first failing check of a set whose issues are not all null (R148). -/
def setCheck (t : Team) (ms : List MIssue) : Option Nat :=
  match ms with
  | [] => none
  | m0 :: _ =>
    let same := ms.all fun m => m.step == m0.step && m.null == m0.null && m.n == m0.n && m.ac == m0.ac && m.af == m0.af
      && m.bf == m0.bf && m.acc == m0.acc && m.map == m0.map && m.klen == m0.klen
    if !same then some 0x01
    else if ms.any (·.partGuard) then some 0x0A
    else if !fmtsOk m0 then some 0x03
    else if (if m0.step then 31 < m0.n else 32 < m0.n) then some 0x04
    else if ms.any MIssue.overlap then some 0x05
    else if !m0.step && m0.n = 0 then none
    else if ms.any fun m => m.aaddr % 4 != 0 || m.astride % 4 != 0
        || (m.fetch m.ks).any fun x => decide (t.wbytes < x.1 + x.2) then some 0x06
    else if ms.any fun m => (m.fetch m.ks).any fun x => (unitsOf 4096 x.1 x.2).any fun k => t.owner .w k != .engine
    then some 0x07
    else none

/-- A deferred class 11 or 12 of a member; the PC is that of its own matrix instruction (R150). -/
def matTrap (cls sub : Nat) (g : Group) (ms : List MIssue) (lw : Sparse DWord) : TrapRec :=
  let pc := match ms.find? fun m => m.gid == g.gid with | some m => m.pc | none => g.pc
  ⟨cls, sub, fullMask g.width, pc, lw, 0, 0, 16⟩

/-- Sets of the quad that some member has not issued into are remembered as gone (R150). -/
def Quad.discard (q : Quad) : Quad :=
  { q with sets := [], stall := 0, dead := q.dead ++ (q.sets.filter fun x => x.issues.length != 4).map (·.index) }

/-- Every issue of the sets leaves path M. -/
def dropIssues (ms : List MIssue) (s : State) : State :=
  ms.foldl (fun s m => s.updG m.gid fun g => g.pathDone m.op) s

/-- Discards the quad's oldest set and every later one; each member takes the trap (R150). -/
def State.discardSets (s : State) (tid j cls sub : Nat) (lw : Sparse DWord) : State :=
  match s.team? tid with
  | none => s
  | some t =>
    let q := t.quad j
    let first := match q.sets with | x :: _ => x.issues | [] => []
    let s := s.updT tid fun t => t.setQuad q.discard
    let s := dropIssues (q.sets.flatMap (·.issues)) s
    (s.quadMembers tid j).foldl (fun s g => s.landed g.gid 0 fun g => g.addPend (matTrap cls sub g first lw)) s

/-- The oldest set has updated every accumulator (R150): its flags reach its members (R220) and path M falls. -/
def State.completeSet (s : State) (tid j : Nat) : State :=
  match s.team? tid with
  | none => s
  | some t =>
    let q := t.quad j
    match q.sets with
    | [] => s
    | x :: rest =>
      let s := s.updT tid fun t => t.setQuad { q with sets := rest }
      let s := x.issues.foldl (fun s m => s.landed m.gid m.op fun g => g.raise m.flags) s
      dropIssues x.issues s

/-- `SET_START` (R148). -/
def execSetStart (tid quad : Nat) (s : State) : Res :=
  .next (match s.team? tid with
    | none => s
    | some t =>
      let q := t.quad quad
      match q.sets with
      | [] => s
      | x :: rest =>
        if x.started || x.issues.length != 4 || !s.resident t.ctx then s
        else if x.issues.all (·.null) then s.completeSet tid quad
        else match setCheck t x.issues with
          | some sub => s.discardSets tid quad 11 sub []
          | none =>
            if x.issues.all fun m => m.ks.isEmpty then s.completeSet tid quad
            else s.updT tid fun t => t.setQuad { q with sets := { x with started := true } :: rest })

/-! ## K-steps (R149, R152) -/

/-- The column string of column `c` from register `base` (R143), as a number. -/
def Group.colString (g : Group) (base rb c : Nat) : Nat :=
  (List.range rb).foldl (fun a t =>
    (List.range 4).foldl (fun a u => a + (g.rdV (base + t) (4 * c + u)).toNat * 2 ^ (8 * (16 * t + 4 * u))) a) 0

/-- A zero element (R145). -/
def zeroElem : Elem := ⟨false, false, false, 0, 0⟩

/-- The A elements of one row for K-step `k` (R144, R149). -/
def aRow (t : Team) (m : MIssue) (row k : Nat) : List Elem :=
  (List.range 16).map fun j =>
    let p := 16 * k + j
    if m.kx ≤ p then zeroElem
    else
      let c := orig m.map p
      let bb := blockBytes m.af
      elemOf m.af (leNat (t.rdBytes .w (m.aaddr + row * m.astride + c / 16 * bb) bb)) (c % 16)

/-- The B elements of one column for K-step `k`. -/
def bCol (g : Group) (m : MIssue) (c k : Nat) : List Elem :=
  let x := g.colString (m.vb + if m.step then 0 else k * m.bstep) (rbOf m.bf) c
  (List.range 16).map fun j => if m.kx ≤ 16 * k + j then zeroElem else elemOf m.bf x j

/-- One accumulator updated from sixteen products (R100, R102). -/
def kUpdate (m : MIssue) (acc : Word) (as bs : List Elem) : Word × BitVec 7 :=
  let ps := (as.zip bs).map fun x => elemProd m.ac (magBits m.af) (magBits m.bf) x.1 x.2
  match m.acc with
  | .fp32 => kAccF acc ps
  | .int32 => (kAccI acc ps, 0)

/-- A member's C rows after K-step `k`, with the flags raised; `bcols` are the quad's 64 columns. -/
def memberRows (t : Team) (m : MIssue) (bcols : List (List Elem)) (k : Nat) (g : Group) : List (List (Word × BitVec 7)) :=
  (List.range 16).map fun row =>
    let as := aRow t m row k
    (List.range 64).map fun col => kUpdate m (g.rdV (m.vc + row) col) as (bcols.getD col [])

/-- Flags of a member's rows. -/
def rowFlags (rows : List (List (Word × BitVec 7))) : BitVec 7 :=
  rows.foldl (fun a rs => rs.foldl (fun a r => a ||| r.2) a) 0

/-- A member's C rows written with their mask (R287), unless a denial took its issue back (R304 step 7). -/
def putRows (m : MIssue) (tag : Tags) (rows : List (List (Word × BitVec 7))) (g : Group) : Group :=
  if m.suppressed then g
  else (List.range 16).foldl (fun g row =>
    g.wrV (m.vc + row) (fullMask 64) (fun i => ((rows.getD row []).getD i (0, 0)).1) tag) g

/-- One member's part of K-step `k`: its C rows, under the masks of T and of the lines it has read so far (R287), and its flags,
which wait for the set's completion. -/
def State.memberStep (s : State) (t : Team) (bcols : List (List Elem)) (k : Nat) (m : MIssue) : State × MIssue :=
  match s.grp? m.gid with
  | none => (s, m)
  | some g =>
    let rows := memberRows t m bcols k g
    let tag := m.tag ||| m.lineTags t [k]
    (s.updG m.gid fun g => (if m.suppressed then g else g.bringLate m.pre tag).landed m.op (putRows m tag rows) tag,
      { m with flags := m.flags ||| rowFlags rows, tag := tag })

/-- A member's C range wiped by a reset or a data error (R151, R152). -/
def wipeC (m : MIssue) (g : Group) : Group :=
  if m.null || m.suppressed then g
  else (List.range 16).foldl (fun g r => g.wrV (m.vc + r) (fullMask 64) (fun _ => 0x7FC00000) (g.vtagOf (m.vc + r))) g

/-- First poisoned W byte that A-fetch meets in K-step `k`. -/
def poisonAt (t : Team) (ms : List MIssue) (k : Nat) : Option Nat :=
  (ms.flatMap fun m => m.fetch [k]).findSome? fun x => if t.poisoned .w x.1 x.2 then some x.1 else none

/-- Whether a K-step reads a poisoned register line: of a member's C range, or of its B string for K-step `k` (R149, R222). -/
def State.regPoison (s : State) (ms : List MIssue) (k : Nat) : Bool :=
  ms.any fun m => match s.grp? m.gid with
    | none => false
    | some g =>
      let b := m.vb + if m.step then 0 else k * m.bstep
      g.readsPoison (m.cRegs ++ if m.null then [] else (List.range (rbOf m.bf)).map fun i => .v (b + i))

/-- K-steps of a set: those of its first issue (R148 makes them equal). -/
def MSet.ks (x : MSet) : List Nat := match x.issues with | m :: _ => m.ks | [] => []

/-- A set stops at a K-step that reads an uncorrectable error: the C range of every member becomes a NaN, the set and later ones
are discarded, and all members take class 12 (R152; for a register line, log entry 107). -/
def State.dataError (s : State) (tid quad : Nat) (ms : List MIssue) (sub : Nat) (lw : Sparse DWord) : State :=
  (ms.foldl (fun s m => s.landed m.gid m.op (wipeC m)) s).discardSets tid quad 12 sub lw

/-- `K_STEP` (R149): one K-step of the quad's oldest set, which must have started. -/
def execKStep (tid quad : Nat) (s : State) : Res :=
  .next (match s.team? tid with
    | none => s
    | some t =>
      let q := t.quad quad
      match q.sets with
      | [] => s
      | x :: rest =>
        match x.ks[x.kdone]? with
        | none => s
        | some k =>
          if !x.started || !s.resident t.ctx then s
          else match poisonAt t x.issues k with
            | some off => s.dataError tid quad x.issues 0x05 (sset 0 [] 0 (BitVec.ofNat 64 off))
            | none =>
              if s.regPoison x.issues k then s.dataError tid quad x.issues 0x01 []
              else
              let byQ := fun n => x.issues.find? fun m => m.quarter == n
              let bcols := (List.range 64).map fun col =>
                match byQ (col / 16) with
                | some m => match s.grp? m.gid with | some g => bCol g m (col % 16) k | none => []
                | none => []
              let (s, ms) := x.issues.foldl (fun (a : State × List MIssue) m =>
                let (s, m) := a.1.memberStep t bcols k m
                (s, a.2 ++ [m])) (s, [])
              let s := s.updT tid fun t =>
                t.setQuad { q with sets := { x with issues := ms, kdone := x.kdone + 1 } :: rest, stall := 0 }
              if x.kdone + 1 = x.ks.length
              then s.completeSet tid quad else s)

/-! ## Resets (R151, R157) -/

/-- A reset of a quad's arrays begins: C ranges of non-null issues wiped, sets discarded, four traps (R151). `by_`: the
group whose `MRESET` waits for its end (R157). -/
def State.resetQuad (s : State) (tid j sub : Nat) (by_ : Option Nat) : State :=
  match s.team? tid with
  | none => s
  | some t =>
    let ms := (t.quad j).sets.flatMap (·.issues)
    let s := (ms.foldl (fun s m => s.landed m.gid m.op (wipeC m)) s).discardSets tid j 11 sub []
    s.updT tid fun t => t.setQuad { t.quad j with reset := some ((s.quadMembers tid j).map (·.gid)), resetBy := by_ }

/-- Cycles without progress after which the arrays are reset. -/
def stallLimit : Nat := 2 ^ 20

/-- The stall count (R151): of the oldest set, from the first issue into it or from the last K-step of the quad, whichever is
later. -/
def Quad.stallCount (q : Quad) : Nat := match q.sets with | x :: _ => min x.waited q.stall | [] => 0

/-- `ARRAY_RESET` (R151): a reset in progress ends, or a stalled quad's begins. -/
def execArrayReset (tid quad : Nat) (s : State) : Res :=
  .next (match s.team? tid with
    | none => s
    | some t =>
      let q := t.quad quad
      if q.reset.isSome then s.updT tid fun t => t.setQuad { t.quad quad with reset := none, resetBy := none }
      else if stallLimit ≤ q.stallCount && s.resident t.ctx then s.resetQuad tid quad 0x08 none
      else s)

/-- What `MRESET` by group `by_` does to a group slot of a core (R157). -/
def State.mreset (s : State) (core slot by_ : Nat) : State :=
  match s.groups.find? fun g => g.core == core && g.slot == slot && !g.ended && s.holds g.tid with
  | none => s
  | some g =>
    match s.quadOf g, s.team? g.tid with
    | some j, some t => if (t.quad j).sets.isEmpty then s else s.resetQuad g.tid j 0x09 (some by_)
    | _, _ => s

/-! ## Helpers (R154-R156) -/

def execMzero (h : Hdr) (d : VReg) (n : Opnd) (s : State) : Res :=
  .next (issue (.mzero h d n) (fun s c =>
    let k := c.u n
    if !c.ug then c.skip s
    else if 2 ^ 31 ≤ k || c.g.vregs < d.toNat + k then .trp 2 0x01 c.m
    else if !s.regsFree c.g ((List.range k).map fun i => .v (d.toNat + i)) then .wait
    else c.goG s ((List.range k).foldl (fun g i => g.wrV (d.toNat + i) c.m (fun _ => 0) c.t) c.g)) s)

def execMdup (h : Hdr) (d : Dst) (pos : Bool) (m : SReg) (b : Opnd) (s : State) : Res :=
  .next (issue (.mdup h d pos m b) (fun s c =>
    let n := c.u b
    let z := mapCount (c.g.mapBits (some m)) n
    c.put s d 0 fun _ => BitVec.ofNat 32 (if pos then n + z else ceilDiv (n + z) 16)) s)

/-- The word of `MQRY` (R156). -/
def State.mqry (s : State) (g : Group) : Word :=
  match s.quadOf g, s.team? g.tid with
  | some j, some t =>
    let x := (t.quad j).sets.find? fun x => x.issues.any fun m => m.gid == g.gid
    let w := match x with
      | some x => (if x.started then x.kdone else 64)
      | none => 0
    BitVec.ofNat 32 (w + (if (t.quad j).reset.isSome then 128 else 0) + (g.num % 4) * 256 + 1024 + j * 2048)
  | _, _ => BitVec.ofNat 32 ((g.num % 4) * 256)

def execMqry (h : Hdr) (d : Dst) (s : State) : Res :=
  .next (issue (.mqry h d) (fun s c => c.put s d 0 fun _ => s.mqry c.g) s)

/-! ## Block-format instructions (R158-R162) -/

/-- The guard rule of column-wise instructions (R158): `none` for a partial guard. -/
def IC.colGuard (c : IC) : Option Bool :=
  if c.m = 0 then some false else if c.m = fullMask c.g.width then some true else none

/-- Sixteen source values of column `c` (R158, R161). -/
def Group.srcVals (g : Group) (base : Nat) (src : FTy) (n c : Nat) : List FVal :=
  let w := (ffmt src).width
  let per := rsOf src
  (List.range n).map fun k =>
    let x := g.colString (base + k / 16 * per) per c
    fval (ffmt src) g.fz (fld x (w * (k % 16)) w)

/-- A register of a column-string destination: lane `i` holds word `4t + i mod 4` of column `i / 4`. -/
def strLane (strs : List Nat) (t i : Nat) : Word :=
  BitVec.ofNat 32 (fld (strs.getD (i / 4) 0) (128 * t + 32 * (i % 4)) 32)

/-- Column strings written to `rb` registers from `d`. -/
def Group.putStrs (g : Group) (d rb : Nat) (strs : List Nat) (t : Tags) : Group :=
  (List.range rb).foldl (fun g k => g.wrV (d + k) (fullMask g.width) (strLane strs k) t) g

/-- A column-wise instruction with strings per column, and its flags. -/
def colOp (i : Instr) (d : Option VReg) (rb : Nat) (f : Group → Nat → Nat × BitVec 7) (s : State) : State :=
  issue i (fun s c =>
    match c.colGuard with
    | none => .trp 2 0x13 c.m
    | some false =>
      .go s none (if rb = 1 then
        some (match d with
          | some v => latchVec c.g.width fun l => c.g.rdV v.toNat l
          | none => .vector []) else none)
    | some true =>
      let rs := (List.range (c.g.width / 4)).map (f c.g)
      let strs := rs.map (·.1)
      let g := c.g.raise (rs.foldl (fun a r => a ||| r.2) 0)
      let g := match d with | some v => g.putStrs v.toNat rb strs c.t | none => g
      .go (s.setG g) none (if rb = 1 then some (latchVec c.g.width fun l => strLane strs 0 l) else none)) s

def execQuant (h : Hdr) (d : Option VReg) (fmt : MFmt) (src : FTy) (a : VReg) (s : State) : Res :=
  .next (colOp (.quant h d fmt src a) d (rbOf fmt)
    (fun g c => blockEncode fmt (g.srcVals a.toNat src 16 c)) s)

/-- One decoded element rounded to the destination (R162). -/
def dequantOne (g : Group) (dst : FTy) (x : Elem) : Nat × BitVec 7 := frnd (ffmt dst) g.rnd g.fz x.val

def execDequant (h : Hdr) (d : Option VReg) (dst : FTy) (fmt : MFmt) (a : VReg) (s : State) : Res :=
  .next (colOp (.dequant h d dst fmt a) d (rsOf dst)
    (fun g c =>
      let x := g.colString a.toNat (rbOf fmt) c
      (List.range 16).foldl (fun (acc : Nat × BitVec 7) j =>
        let r := dequantOne g dst (elemOf fmt x j)
        (acc.1 + r.1 * 2 ^ ((ffmt dst).width * j), acc.2 ||| r.2)) (0, 0)) s)

/-- An exact half (R161). -/
def FVal.half : FVal → FVal
  | .fin s m e => .fin s m (e - 1)
  | x => x

/-- Whether a channel's largest magnitude reaches the threshold, NaN values ignored (R161). -/
def outlier (t : FVal) (xs : List FVal) : Bool :=
  let ys := xs.filter fun x => !x.isNan
  !t.isNan && ys.any fun x => !(x.abs.lt t)

def execQsplit (h : Hdr) (d : Option VReg) (src : FTy) (a : VReg) (thr : Opnd) (v : VReg) (nb1 : BitVec 4) (s : State) :
    Res :=
  .next (match s.grp? s.cur with
    | none => s
    | some g0 =>
      -- the BFMT check comes before the register-range check, which then is not made (R60, R161)
      let i : Instr := .qsplit h d src a thr v nb1
      let f := infoOf g0.fmt i
      if !isBlock (bfmtOf g0.fmt) && s.ready g0 f then
        let c := s.icOf g0 f
        if c.ug then s.settle c (.trp 2 0x12 c.m)
        else match s.issueTrap g0 { f with reads := rOp thr, writes := [] } with
          | some (cls, sub) => s.settle c (.trp cls sub g0.mask)
          | none => s.settle c (c.skip (s.setG c.g))
      else issue i (fun s c =>
        let nb := nb1.toNat + 1
        let fmt := bfmtOf c.g.fmt
        match c.colGuard with
        | none => .trp 2 0x13 c.m
        | some false => c.skip s
        | some true =>
          let t := fval (ffmt .f32) c.g.fz (c.g.fopnd .f32 (.inl thr) 0)
          let xs := (List.range (c.g.width / 4)).map fun col => c.g.srcVals a.toNat src (16 * nb) col
          let mapIn := (List.range 8).foldl (fun m w => m + (c.g.rdV v.toNat w).toNat * 2 ^ (32 * w)) 0
          let mapOut := (List.range (16 * nb)).foldl (fun m ch =>
            if outlier t (xs.map fun x => x.getD ch .nan) then m ||| 2 ^ ch else m) mapIn
          let rs := xs.map fun x =>
            let e := (List.range (16 * nb)).flatMap fun ch =>
              let y := x.getD ch (.zero false)
              if mapOut.testBit ch then [y.half, y.half] else [y]
            let e := e ++ List.replicate (32 * nb - e.length) (.zero false)
            (List.range (2 * nb)).map fun b => blockEncode fmt ((e.drop (16 * b)).take 16)
          let fl := rs.foldl (fun a r => r.foldl (fun a x => a ||| x.2) a) 0
          let g := c.g.raise fl
          let g := match d with
            | none => g
            | some dv => (List.range (2 * nb)).foldl (fun g b =>
                g.putStrs (dv.toNat + b * rbOf fmt) (rbOf fmt) (rs.map fun (r : List (Nat × BitVec 7)) => (r.getD b (0, 0)).1) c.t) g
          let m8 : Mask := 0xFF
          c.goG s (g.wrV v.toNat m8 (fun w => BitVec.ofNat 32 (fld mapOut (32 * w) 32)) c.t)) s)

end Sys2Proof.Machine
end

