-- ==== Sys2Proof/Machine/Tiles.lean ====
section
/-! DEFINITION. Tile ownership: `TGIVE`, `TTAKE` and the flips (R134-R136). -/

namespace Sys2Proof.Machine

/-! ## Engine accesses in progress -/

/-- Bytes of one element of an operation's lanes. -/
def Cmd.size : Cmd → Nat
  | .gather ty _ | .scatter ty _ => ltySize ty
  | .atomic a => a.sz
  | .remote (.put sz) _ => sz
  | .remote (.get ty) _ => ltySize ty
  | _ => 4

/-- Whether an operation is reading or writing bytes of a team's tile; suspended sectors are not in progress (R168). -/
def Op.touches (o : Op) (tid : Nat) (b : Buf) (tile : Nat) : Bool :=
  o.st == .active &&
    match o.cmd with
    | .copy c =>
      c.tid == tid && c.buf == b && (List.range c.shape.sectors).any fun n =>
        sget .pending o.sect n == .pending && (unitsOf 4096 (c.shape.locOf c.d n) (c.shape.lenOf n)).contains tile
    | .gather ty (some t) | .scatter ty (some t) =>
      t == tid && b == .x && o.lanes.any fun l => l.st == .pending && (unitsOf 4096 l.va (ltySize ty)).contains tile
    | .mcst m =>
      o.tid == tid && b == .x && ((unitsOf 4096 m.a m.n).contains tile || (unitsOf 4096 m.b 256).contains tile)
    | _ => false

/-- Whether an engine or a matrix issue still uses a tile (R135). -/
def State.tileBusy (s : State) (t : Team) (b : Buf) (tile : Nat) : Bool :=
  (s.ops.any fun o => o.touches t.tid b tile)
    || (b == .w && t.quads.any fun q => q.sets.any fun x => x.issues.any fun m => m.tiles.contains tile)

/-- Local accesses on their way to a tile. -/
def State.tileAccs (s : State) (tid : Nat) (b : Buf) (tile : Nat) : List Nat :=
  (s.lacc.filter fun a => a.tid == tid && a.buf == b &&
    a.lanes.any fun x => (unitsOf 4096 x.2.1 (ltySize a.ty)).contains tile).map (·.id)

/-! ## Waiters in issue order (R136) -/

/-- A waiter: its number, buffer, first tile, count and whether it gives. -/
structure Flip where
  seq : Nat
  buf : Buf
  first : Nat
  n : Nat
  give : Bool
  deriving DecidableEq, Repr

def Group.flip? (g : Group) : Option Flip :=
  match g.park with
  | some (.tgive b f n _ q) => some ⟨q, b, f, n, true⟩
  | some (.ttake b f n q) => some ⟨q, b, f, n, false⟩
  | _ => none

def Flip.tiles (f : Flip) : List Nat := (List.range f.n).map (· + f.first)
def Flip.target (f : Flip) : Owner := if f.give then .engine else .group
def Flip.pending (f : Flip) : Owner := if f.give then .pendingEngine else .pendingGroup

/-- Waiters of a team. -/
def State.flips (s : State) (tid : Nat) : List Flip := (s.teamGroups tid).filterMap Group.flip?

/-- Whether a waiter issued before `seq` names the tile. -/
def flipBefore (fs : List Flip) (seq : Nat) (b : Buf) (tile : Nat) : Bool :=
  fs.any fun f => decide (f.seq < seq) && f.buf == b && f.tiles.contains tile

/-- Owner of a tile once every waiter issued before `seq` has had its turn (R136). -/
def ownerAfter (fs : List Flip) (seq : Nat) (t : Team) (b : Buf) (tile : Nat) : Owner :=
  match fs.foldl (fun (a : Option Flip) f =>
      if decide (f.seq < seq) && f.buf == b && f.tiles.contains tile && (match a with | some x => decide (x.seq < f.seq) | none => true)
      then some f else a) none with
  | some f => f.target
  | none => t.owner b tile

/-- Tiles of a waiter whose turn has come and that do not have the target owner become pending (R135, R136). -/
def Flip.mark (fs : List Flip) (f : Flip) (t : Team) : Team :=
  f.tiles.foldl (fun t k =>
    if flipBefore fs f.seq f.buf k || t.owner f.buf k == f.target then t else t.setOwner f.buf k f.pending) t

/-- The accesses that a give waits for: those on its tiles when they became pending. -/
def State.giveAccs (s : State) (fs : List Flip) (f : Flip) (t : Team) : List Nat :=
  f.tiles.flatMap fun k =>
    if flipBefore fs f.seq f.buf k || t.owner f.buf k == .engine || t.owner f.buf k == .pendingEngine then []
    else s.tileAccs t.tid f.buf k

/-- A parked give takes note of the accesses it waits for. -/
def Group.noteAccs (g : Group) (acc : List Nat) : Group :=
  match g.park with
  | some (.tgive b f n a q) => { g with park := some (.tgive b f n (a ++ acc) q) }
  | _ => g

/-- Lets every waiter of a team whose turn has come begin its wait. -/
def State.beginFlips (s : State) (tid : Nat) : State :=
  let fs := s.flips tid
  (s.teamGroups tid).foldl (fun s g =>
    match g.flip?, s.team? tid with
    | some f, some t =>
      let acc := if f.give then s.giveAccs fs f t else []
      (s.updG g.gid fun g => g.noteAccs acc).updT tid (f.mark fs)
    | _, _ => s) s

/-- `TGIVE` and `TTAKE` at issue (R135, R296). -/
def flipOp (i : Instr) (give : Bool) (b : Buf) (base n : Opnd) (s : State) : State :=
  issue i (fun s c =>
    match s.team? c.g.tid with
    | none => c.skip s
    | some t =>
      let k := c.u n
      let first := c.u base / 4096
      if !c.ug then c.skip s
      else if c.u base % 4096 != 0 then .trpU 2 0x11
      else if k = 0 then c.skip s
      else if 2 ^ 31 ≤ k || t.size b < (first + k) * 4096 then
        .trap 3 (if b = .x then 0x01 else 0x02) 1 (sset 0 [] 0 (BitVec.ofNat 64 (c.u base))) 0
      else
        let f : Flip := ⟨s.nextId, b, first, k, give⟩
        let fs := s.flips t.tid
        let prior := fun k => ownerAfter fs f.seq t b k
        let need := (f.tiles.filter fun k => prior k != f.target && t.needTile b c.g.dep k).length
        if c.g.dep != 0 && !s.undoRoom t need then .wait
        else
          if f.tiles.all fun k => t.owner b k == f.target && !flipBefore fs f.seq b k then c.skip s
          else
            let s := s.updT t.tid fun t =>
              if c.g.dep = 0 then t
              else f.tiles.foldl (fun t k => if prior k == f.target then t else t.logTile b c.g.dep k (prior k)) t
            let p : Park := if give then .tgive b first k [] f.seq else .ttake b first k f.seq
            .go ((s.fresh.setG { c.g with park := some p }).beginFlips t.tid) none none) s

def execTgive (h : Hdr) (buf : Buf) (base n : Opnd) (s : State) : Res :=
  .next (flipOp (.tgive h buf base n) true buf base n s)
def execTtake (h : Hdr) (buf : Buf) (base n : Opnd) (s : State) : Res :=
  .next (flipOp (.ttake h buf base n) false buf base n s)

/-- The tiles flip, the group leaves its wait, and the next waiters begin theirs. -/
def State.doFlip (s : State) (g : Group) (f : Flip) : State :=
  let s := s.updT g.tid fun t => f.tiles.foldl (fun t k => t.setOwner f.buf k f.target) t
  (s.updG g.gid fun g => { g with park := none }).beginFlips g.tid

/-- `TGIVE_FLIP` (R135): every access issued before the give is performed. -/
def execTgiveFlip (gid : Nat) (s : State) : Res :=
  .next (match s.grp? gid with
    | none => s
    | some g =>
      match g.park, g.flip? with
      | some (.tgive _ _ _ acc _), some f =>
        if (f.tiles.any fun k => flipBefore (s.flips g.tid) f.seq f.buf k)
          || s.lacc.any (fun a => acc.contains a.id) then s
        else s.doFlip g f
      | _, _ => s)

/-- `TTAKE_FLIP` (R135): no engine access in progress and no covering matrix issue outstanding. A saved context's wait
goes on after its restore (R218). -/
def execTtakeFlip (gid : Nat) (s : State) : Res :=
  .next (match s.grp? gid with
    | none => s
    | some g =>
      match g.park, g.flip?, s.team? g.tid with
      | some (.ttake ..), some f, some t =>
        if !s.holds g.tid then s
        else if f.tiles.any fun k => flipBefore (s.flips g.tid) f.seq f.buf k
            || (t.owner f.buf k != .group && s.tileBusy t f.buf k) then s
        else s.doFlip g f
      | _, _, _ => s)

end Sys2Proof.Machine
end

