-- ==== Sys2Proof/Machine/Copy.lean ====
section
/-! DEFINITION. Copies, layout records, replay and `CRED` (R165-R176). -/

namespace Sys2Proof.Machine

/-! ## Sectors at their homes (R168, R202, R235) -/

/-- Faulting pages of a sector: the first faulting byte and the cause. -/
def State.sectorFaults (s : State) (o : Op) (c : CopyCmd) (n : Nat) : List (Nat × BitVec 8) :=
  (pageParts (c.extOf n) (c.shape.lenOf n)).filterMap fun p =>
    match s.copyXlate o c p.1 with
    | .bad k => some (p.1, BitVec.ofNat 8 k)
    | .pa _ => none

/-- The cause with which this package refuses an access at a home, if it does (R233, R234). -/
def State.refusal (s : State) (h : Home) (sz : Nat) (need : Need) : Option Nat :=
  match s.homePa h sz need with
  | some (.bad k) => some k
  | _ => none

/-- The cause with which this package refuses a sector, if it does. -/
def State.sectorRefusal (s : State) (o : Op) (c : CopyCmd) (n : Nat) : Option Nat :=
  (s.sectorHomes o c n).findSome? fun p => s.refusal p.2.2 p.2.1 c.need

/-- The location that an access is decided to reach, unless it is refused. -/
def State.resolve (s : State) (h : Home) (sz : Nat) (need : Need) : Option Loc :=
  match h with
  | .far f => some (.far f)
  | h => match s.homePa h sz need with | some (.pa a) => some (.here a) | _ => none

/-- Moves a location on by `d` bytes. -/
def Loc.shift (l : Loc) (d : Nat) : Loc :=
  match l with
  | .here pa => .here (pa + d)
  | .far (.gfp rank win off) => .far (.gfp rank win (off + d))
  | .far (.uet peer addr key) => .far (.uet peer (addr + d) key)

def Loc.isFar : Loc → Bool | .far _ => true | _ => false

/-- A sector as it was begun, or as it would begin now: none while a page faults or a part is refused. -/
def State.carryOf (s : State) (o : Op) (c : CopyCmd) (n : Nat) : Option Carry :=
  match o.carry.find? fun k => k.sector == n with
  | some k => some k
  | none =>
    if !(s.sectorFaults o c n).isEmpty || (s.sectorRefusal o c n).isSome then none
    else
      let hs := s.sectorHomes o c n
      some ⟨n, hs.filterMap fun p => (s.resolve p.2.2 p.2.1 c.need).map fun l => (p.1, p.2.1, l),
        (hs.filter fun p => p.2.2.isOwn).map (·.1), 0, 0⟩

/-- Whether a sector has been begun. -/
def Op.begun (o : Op) (n : Nat) : Bool := o.carry.any fun k => k.sector == n

/-- A begun sector's progress is stored; the ranks it reaches are noted with its beginning (R244). -/
def State.putCarry (s : State) (o : Op) (c : CopyCmd) (k : Carry) : State :=
  let rs := if o.begun k.sector || s.windows.isEmpty then [] else
    (s.sectorHomes o c k.sector).filterMap fun p => s.homeRank p.2.2
  s.updOp o.id fun o => { o with
    carry := k :: o.carry.filter fun x => x.sector != k.sector
    cmd := match o.cmd with | .copy c => .copy { c with ranks := (c.ranks ++ rs).eraseDups } | x => x }

/-- Elements of a `CRED` in sector `n`. -/
def CopyCmd.elems (c : CopyCmd) (sz n : Nat) : List Nat := (List.range (c.shape.lenOf n / sz)).map (· + 256 / sz * n)

/-! ## Ends (R168, R172) -/

/-- The copy with its command changed. -/
def State.updCopy (s : State) (op : Nat) (f : CopyCmd → CopyCmd) : State :=
  s.updOp op fun o => match o.cmd with | .copy c => { o with cmd := .copy (f c) } | _ => o

/-- A copy ends with a code and a cause word: path C falls, then the arrival, the message and a waiting replay. -/
def State.endCopyNow (s : State) (o : Op) (c : CopyCmd) (code cause : Nat) : State :=
  let ranks := s.copyRanks o c
  let s := (s.landed o.gid o.id fun g => g.raise o.flags).opDone o
  let s := match c.bar with
    | some b => s.arrive c.tid b (if code = 0 then .engine else .error) c.stamp
    | none => s
  let s := match c.mbx with
    | some m =>
      s.postMsg o ranks {
        ctx := o.ctx, mbx := m, words := [c.id, BitVec.ofNat 32 code, BitVec.ofNat 32 c.landed, BitVec.ofNat 32 cause]
        sender := BitVec.ofNat 32 (2 ^ 30 + s.rank), aids := [], src := s.rank, grp := o.gid }
    | none => s
  match c.replayBy with
  | some r => match s.op? r with | some x => s.opDone x | none => s
  | none => s

/-- A copy has come to its end: it ends, or is kept back by an earlier operation of its source that goes to one of its ranks
(R244). -/
def State.endCopy (s : State) (o : Op) (c : CopyCmd) (code cause : Nat) : State :=
  if s.endBlocked o then s.updCopy o.id fun c => { c with ending := some (code, cause), busy := true, faulted := false }
  else s.endCopyNow o c code cause

/-- The end of a copy that R244 kept back. -/
def State.endKept (s : State) (op : Nat) : State :=
  match s.op? op with
  | none => s
  | some o =>
    match o.cmd with
    | .copy c => (match c.ending with | some (code, cause) => s.endCopy o c code cause | none => s)
    | _ => s

/-- The suspended sectors with their faults. -/
def Op.suspended (o : Op) (c : CopyCmd) : List (Nat × List (Nat × BitVec 8)) :=
  (o.sectors c).filterMap fun x => match x.2 with | .suspended fs => some (x.1, fs) | _ => none

/-- The fault records of a faulted copy: one for each faulting page and window of 32 sectors (R171, R198). -/
def faultRecs (c : CopyCmd) (sus : List (Nat × List (Nat × BitVec 8))) : List FaultRec :=
  let all := sus.flatMap fun x => x.2.map fun f => (f.1 / 4096, x.1 / 32, x.1, f.1, f.2)
  ((all.map fun x => (x.1, x.2.1)).eraseDups).filterMap fun k =>
    let mine := all.filter fun x => x.1 == k.1 && x.2.1 == k.2
    match mine with
    | [] => none
    | x :: _ =>
      some { id := c.id, cause := x.2.2.2.2.setWidth 32, va := BitVec.ofNat 64 x.2.2.2.1
             first := BitVec.ofNat 32 x.2.2.1
             map := mine.foldl (fun m y => m ||| (1#32 <<< (y.2.2.1 % 32))) 0, pc := 0 }

/-- What follows when every sector has landed, been suspended or been refused (R171-R173). -/
def State.copyCheck (s : State) (op : Nat) : State :=
  match s.op? op with
  | none => s
  | some o =>
    match o.cmd with
    | .copy c =>
      if (o.sectors c).any fun x => x.2 == .pending then s
      else
        let refused := (o.sectors c).findSome? fun x => match x.2 with | .refused k => some k.toNat | _ => none
        match refused, o.suspended c with
        | some k, _ => s.endCopy o c 1 (0x100 + k)
        | none, [] => s.endCopy o c 0 0
        | none, sus@((_, fs) :: _) =>
          if c.busy then s.endCopy o c 1 (0x200 + ((fs.headD (0, 0)).2).toNat)
          else
            let s := s.updCopy op fun c => { c with faulted := true }
            (faultRecs c sus).foldl (fun s r => s.postFault o.ctx r) s
    | _ => s

/-- A sector has landed: its bytes count, on the barrier too if the stamp is current (R168). -/
def State.sectorLanded (s : State) (o : Op) (c : CopyCmd) (n : Nat) : State :=
  let len := c.shape.lenOf n
  let s := s.updOp o.id fun o =>
    { o with sect := sset .pending o.sect n .landed, carry := o.carry.filter fun k => k.sector != n }
  let s := s.updCopy o.id fun c => { c with landed := c.landed + len }
  match c.bar, s.team? c.tid with
  | some b, some t =>
    if (t.bar b).generation = c.stamp then
      s.putBar c.tid b { t.bar b with bytes := (t.bar b).bytes + BitVec.ofNat 32 len }
    else s
  | _, _ => s

/-- A sector is suspended: the barrier becomes faulted if the stamp is current (R171). -/
def State.sectorSuspended (s : State) (o : Op) (c : CopyCmd) (n : Nat) (fs : List (Nat × BitVec 8)) : State :=
  let s := s.updOp o.id fun o => { o with sect := sset .pending o.sect n (.suspended fs) }
  match c.bar, s.team? c.tid with
  | some b, some t =>
    if (t.bar b).generation = c.stamp then s.putBar c.tid b { t.bar b with status := 1 } else s
  | _, _ => s

/-! ## Capture by a deterministic team (R345) -/

/-- Whether a copy is staged: outbound, or a `CRED`, of a deterministic team. -/
def State.staged (s : State) (c : CopyCmd) : Bool := c.out && s.isDet c.tid

/-- One captured part: sector, VA, PA, offset of its bytes in the capture and their number. -/
def capLane (n va pa off len : Nat) : Lane :=
  ⟨n, va, pa, 0, BitVec.ofNat 64 off, BitVec.ofNat 64 len, .pending, 0, false, false, none⟩

/-- The parts of a captured sector; poisoned parts come once more, marked so (R222). -/
def State.capParts (s : State) (t : Team) (o : Op) (c : CopyCmd) (n off : Nat) : List Lane :=
  (pageParts (c.extOf n) (c.shape.lenOf n)).flatMap fun p =>
    match s.copyXlate o c p.1 with
    | .bad _ => []
    | .pa a =>
      { capLane n p.1 a (off + p.2.1) p.2.2 with via := s.viaOf a p.2.2 c.red.isSome } ::
        (poisonParts (t.poisonOf c.buf) (c.shape.locOf c.d n + p.2.1) p.2.2).map fun q =>
          { capLane n (p.1 + q.1) (a + q.1) (off + p.2.1 + q.1) q.2 with poison := true }

/-- A sector's accesses, as the vector-clock unit sees them. -/
def State.raceSector (s : State) (o : Op) (c : CopyCmd) (n : Nat) : State :=
  (pageParts (c.extOf n) (c.shape.lenOf n)).foldl (fun s p => match s.copyXlate o c p.1 with
    | .pa a => s.raceAccess c.tid o.pc p.1 a p.2.2 c.out (if c.red.isSome then 2 else 0)
    | .bad _ => s) s

/-- Whether a `CRED` has still to update an element at bytes `lo … lo + sz - 1` of its external range. -/
def Op.elemDue (p : Op) (c : CopyCmd) (ty : CredTy) (lo sz : Nat) : Bool :=
  let u := credSize ty
  ((List.range 5).map (· + (lo - c.ext) / u)).any fun e =>
    decide (u * (e + 1) ≤ c.shape.len) && overlap (c.ext + u * e) u lo sz && !(p.lanes.any fun l => l.lane == e)
      && match sget .pending p.sect (u * e / 256) with | .refused _ | .landed => false | _ => true

/-- The aligned 8 bytes around a location: no aligned access of 8 bytes or fewer crosses them. -/
def Loc.block (l : Loc) : Loc :=
  match l with
  | .here pa => .here (pa / 8 * 8)
  | .far (.gfp rank win off) => .far (.gfp rank win (off / 8 * 8))
  | .far (.uet peer addr key) => .far (.uet peer (addr / 8 * 8) key)

/-- Whether an earlier operation of the group has still to update bytes of the location `l`, whose VA is `va` (R176, R328). -/
def State.elemBlocked (s : State) (o : Op) (va : Nat) (l : Loc) (sz : Nat) : Bool :=
  let blk := l.block
  s.ops.any fun p => p.gid == o.gid && decide (p.id < o.id) && p.st == .active &&
    match p.cmd with
    | .copy c =>
      match c.red with
      | some (_, ty) =>
        (unitsOf 4096 c.ext c.shape.len).any fun k =>
          let b := k * 4096 + va % 4096 / 8 * 8
          (match s.copyXlate p c b with | .pa a => (s.loc a).block == blk | .bad _ => b == va / 8 * 8) && p.elemDue c ty (b + va % 8) sz
      | none => false
    | .atomic a => a.loc.isNone && p.lanes.any fun k =>
        (match k.st with
          | .pending => (s.laneLoc k).block == blk
          | .held _ | .retry => k.va / 8 == va / 8
          | _ => false) && overlap (k.va % 8) a.sz (va % 8) sz
    | _ => false

/-- Whether an earlier operation of the group keeps a sector of a `CRED` from being captured (R328). -/
def State.capBlocked (s : State) (o : Op) (c : CopyCmd) (n : Nat) : Bool :=
  match c.red with
  | none => false
  | some (_, ty) => (c.elems (credSize ty) n).any fun e =>
      let va := c.ext + credSize ty * e
      match s.copyXlate o c va with | .pa a => s.elemBlocked o va (s.loc a) (credSize ty) | .bad _ => false

/-- Captures the pending sectors of a staged copy: each lands, is suspended or is refused at once, but for those of a `CRED` that an
earlier update keeps back (R328). -/
def State.captureCopy (s : State) (op : Nat) : State :=
  match s.op? op with
  | none => s
  | some o =>
    match o.cmd with
    | .copy c =>
      let pend := (o.pendingSectors c).filter fun n => !s.capBlocked o c n
      let (s, ls, src) := pend.foldl (fun (a : State × List Lane × List Byte) n =>
        let (s, ls, src) := a
        match s.sectorFaults o c n, s.sectorRefusal o c n, s.team? c.tid with
        | [], none, some t =>
          ((s.sectorLanded o c n).raceSector o c n, ls ++ s.capParts t o c n src.length,
            src ++ t.rdBytes c.buf (c.shape.locOf c.d n) (c.shape.lenOf n))
        | [], some k, _ => (s.updOp op fun o => { o with sect := sset .pending o.sect n (.refused (BitVec.ofNat 8 k)) }, ls, src)
        | fs, _, _ => (s.sectorSuspended o c n fs, ls, src)) (s, [], [])
      let s := if ls.isEmpty then s else s.stage { o with lanes := ls } src
      s.copyCheck op
    | _ => s

/-- Whether a copy may carry sectors now: not before its record is ready (R170). -/
def State.copyGo (s : State) (c : CopyCmd) : Bool :=
  match c.lrec with
  | some id => match s.recOf c.tid id with | some r => r.ready | none => false
  | none => true

/-- The event that moves on a copy under way names a staged one with pending sectors. -/
def State.captureMore (s : State) (op : Nat) : State :=
  match s.op? op with
  | none => s
  | some o =>
    match o.cmd with
    | .copy c => if o.st == .active && s.staged c && s.copyGo c && c.ending.isNone && !(o.pendingSectors c).isEmpty then s.captureCopy op
      else s
    | _ => s

/-! ## Starting (R167, R170) -/

/-- Whether some tile of the copy's local bytes is not ENGINE-owned. -/
def CopyCmd.tileBad (c : CopyCmd) (t : Team) : Bool := (c.shape.tiles c.d).any fun k => t.owner c.buf k != .engine

/-- A copy or `CRED` is handed to the streamer: it takes its ID and stamps. -/
def beginCopy (s : State) (o : Op) : State :=
  match o.cmd, s.team? o.tid, s.grp? o.gid with
  | .copy c, some t, some g =>
    let n := sget 0 s.seqs g.core
    let c := { c with
      id := BitVec.ofNat 32 (g.core * 2 ^ 24 + n.toNat)
      stamp := match c.bar with | some b => (t.bar b).generation | none => 0 }
    let o := { o with cmd := .copy c, st := .active, stamp := s.q }
    let s := { s with seqs := sset 0 s.seqs g.core (n + 1) }
    let s := s.updOp o.id fun _ => o
    if c.lrec.any fun r => !t.recs.any fun x => x.id == r && !x.dead then s.refuseHeld o 2 0x16 1 []
    else if c.tileBad t then s.endCopy o c 2 0
    else match c.lrec.bind fun r => (s.recOf c.tid r).map (·.failed) with
      | some (some k) => s.endCopy o c 1 (0x200 + k.toNat)
      | _ =>
        if !s.copyGo c then s
        else if s.staged c then s.captureCopy o.id else s.copyCheck o.id
  | _, _, _ => s

/-- Copies and `CRED`s that the streamer of a core holds. -/
def State.streamed (s : State) (core : Nat) : Nat :=
  (s.ops.filter fun o => match o.cmd, s.grp? o.gid with
    | .copy _, some g => g.core == core
    | _, _ => false).length

/-- The external address with which class 8 names a shape that leaves the address space. -/
def badExt (sh : Shape) (e : Nat) : Nat :=
  if 2 ^ 54 ≤ e then e
  else match (List.range sh.sectors).find? fun n =>
      decide (sh.extOf e n < 0) || decide ((2 : Int) ^ 54 < sh.extOf e n + sh.lenOf n) with
    | some n => (sh.extOf e n % 2 ^ 64).toNat
    | none => e

/-- The shape, alignment and external-range checks of R167; `u` is the alignment unit. -/
def shapeCheck (sh : Shape) (rsv : Word) (e d u : Nat) : Option Act :=
  if rsv != 0 || !sh.ok then some (.trpU 2 0x15)
  else if d % u != 0 || e % u != 0 || sh.len % u != 0 || sh.ers % u != 0 || sh.eps % u != 0 || sh.lrs % u != 0
    || sh.lps % u != 0 then some (.trpU 2 0x11)
  else if 2 ^ 54 ≤ e || !sh.extIn e then some (.trpA 8 0x05 (badExt sh e))
  else none

/-- The local checks of R167. -/
def localCheck (t : Team) (c : CopyCmd) : Option Act :=
  if t.size c.buf < c.shape.locEnd c.d then some (.trpA 3 (if c.buf = .x then 0x01 else 0x02) c.d)
  else if c.tileBad t then some (.trpU 2 0x14)
  else none

/-- The shared part of `COPY` and `CRED` (R167): `base` answers the external base, shape, reserved word and record. -/
def copyOp (i : Instr) (d : Opnd) (buf : Buf) (out : Bool) (bar : Option (BitVec 4)) (mbx : BitVec 12) (post : Bool)
    (red : Option (RedOp × CredTy)) (base : Team → IC → Option (Nat × Shape × Word × Option Nat)) (s : State) : State :=
  issue i (fun s c =>
    match s.team? c.g.tid with
    | none => c.skip s
    | some t =>
      if !c.ug then c.noop s
      else if (match bar with | some b => (t.bar b.toNat).expected == 0 | none => false) then .trpU 7 0x12
      else match base t c with
        | none => .trpU 2 0x16
        | some (e, sh, rsv, lr) =>
          let u := match red with | some (_, ty) => credSize ty | none => 4
          let cc : CopyCmd :=
            { id := 0, tid := t.tid, d := c.u d, ext := e, buf := buf, out := out, shape := sh, bar := bar.map (·.toNat)
              stamp := 0, mbx := if post then some mbx.toNat else none, lrec := lr, red := red, faulted := false
              busy := false, replayBy := none, landed := 0, ranks := [], ending := none }
          match shapeCheck sh rsv e (c.u d) u with
          | some a => a
          | none =>
            match localCheck t cc with
            | some a => a
            | none =>
              if s.staged cc && s.stageFull t.tid (sh.rows * sh.planes * sh.len + 16 * sh.sectors) then .trpU 2 0x2B
              else if 1024 ≤ s.streamed c.g.core then .wait
              else c.submit s c.g (c.mkOp s (.copy cc)) (sh.lineTags t buf (c.u d)) beginCopy) s

def execCopy (h : Hdr) (d : Opnd) (ext : SReg) (buf : Buf) (out : Bool) (shape : CopyShape) (bar : Option (BitVec 4))
    (mbx : BitVec 12) (post : Bool) (s : State) : Res :=
  .next (copyOp (.copy h d ext buf out shape bar mbx post) d buf out bar mbx post none (fun t c =>
    let e := (c.g.pairS ext.toNat).toNat
    match shape with
    | .d1 n => some (e, shape1 (copyLenVal c n), 0, none)
    | .d2 m => some (e, c.g.shape8 m.toNat false, c.g.rdS (m.toNat + 7), none)
    | .d3 m => some (e, c.g.shape8 m.toNat true, c.g.rdS (m.toNat + 7), none)
    | .layout =>
      match t.recs.find? fun r => r.id == (c.g.rdS ext.toNat).toNat && !r.dead with
      | some r => some (r.base, r.shape, 0, some r.id)
      | none => none) s)

def execCred (h : Hdr) (d : Opnd) (ext : SReg) (buf : Buf) (op : RedOp) (ty : CredTy) (n : CopyLen)
    (bar : Option (BitVec 4)) (mbx : BitVec 12) (post : Bool) (s : State) : Res :=
  .next (copyOp (.cred h d ext buf op ty n bar mbx post) d buf true bar mbx post (some (op, ty)) (fun _ c =>
    some ((c.g.pairS ext.toNat).toNat, shape1 (copyLenVal c n), 0, none)) s)

/-! ## Sectors (R168, R171, R313) -/

/-- Part of what a far home sent: bytes `off … off + n - 1`, and the marks within them. -/
def sliceData (d : FarData) (off n : Nat) : FarData where
  bytes := ((d.bytes ++ List.replicate (off + n) 0).drop off).take n
  bad := (d.bad.filter fun p => overlap p.1 p.2 off n).map fun p =>
    (max p.1 off - off, min (p.1 + p.2) (off + n) - max p.1 off)

/-- Words `lo … hi - 1`. -/
def wordRange (lo hi : Nat) : BitVec 64 := maskOf 64 fun k => decide (lo ≤ k) && decide (k < hi)

/-- Runs of neighbouring words in a mask, ascending: the first word of each and how many there are. -/
def wordRuns (m : BitVec 64) : List (Nat × Nat) :=
  ((lanesOf m).foldl (fun rs k => match rs with
    | (a, n) :: r => if a + n = k then (a, n + 1) :: r else (k, 1) :: rs
    | [] => [(k, 1)]) []).reverse

/-- Words of a sector that a marked part touches. -/
def badWords (off : Nat) (ps : List (Nat × Nat)) : BitVec 64 :=
  ps.foldl (fun m p => m ||| wordRange ((off + p.1) / 4) (ceilDiv (off + p.1 + p.2) 4)) 0

/-- Marked parts of a sector, from its marked words. -/
def badParts (m : BitVec 64) : List (Nat × Nat) := (wordRuns m).map fun r => (4 * r.1, 4 * r.2)

/-- `n` bytes of a sector from offset `off` up are moved, all in the part `p`: the state, and the marks that came with them. -/
def State.moveRun (s : State) (o : Op) (c : CopyCmd) (n : Nat) (far : FarData) (p : Nat × Nat × Loc) (off len : Nat) :
    State × List (Nat × Nat) :=
  let loc := c.shape.locOf c.d n + off
  match s.team? c.tid with
  | none => (s, [])
  | some t =>
    if c.out then
      let d : FarData := ⟨t.rdBytes c.buf loc len, poisonParts (t.poisonOf c.buf) loc len⟩
      (match p.2.2.shift (off - p.1) with
        | .here pa => s.putData pa d
        | .far f => s.sendFar f o.gid o.id n (.put d) true, d.bad)
    else
      let (s, d) := match p.2.2.shift (off - p.1) with
        | .here pa => s.seeData pa len
        | .far f => (s.sendFar f o.gid o.id n (.fetch len) true, sliceData far off len)
      (s.updT c.tid fun t => (t.wr c.buf loc d.bytes).carryPoison c.buf loc d.bad, d.bad)

/-- The words of a mask are performed, part by part: the state and the progress of the sector. -/
def State.moveWords (s : State) (o : Op) (c : CopyCmd) (k : Carry) (far : FarData) (m : BitVec 64) : State × Carry :=
  k.parts.foldl (fun a p =>
    (wordRuns (m &&& wordRange (p.1 / 4) ((p.1 + p.2.1) / 4))).foldl (fun a r =>
      let (s, bad) := a.1.moveRun o c k.sector far p (4 * r.1) (4 * r.2)
      (s, { a.2 with bad := a.2.bad ||| badWords (4 * r.1) bad })) a) (s, { k with done := k.done ||| m })

/-- A sector whose bytes have all been replaced: units replaced whole keep only the marks that came with the bytes (R222). -/
def State.settleMarks (s : State) (c : CopyCmd) (k : Carry) : State :=
  let bad := badParts k.bad
  if c.out then k.parts.foldl (fun s p => match p.2.2 with
    | .here pa => s.replaced pa p.2.1 (sliceData ⟨[], bad⟩ p.1 p.2.1).bad
    | .far _ => s) s
  else s.updT c.tid fun t => t.replaced c.buf (c.shape.locOf c.d k.sector) (c.shape.lenOf k.sector) bad

/-- Whether every element of a `CRED` sector has been updated. -/
def Op.elemsDone (o : Op) (c : CopyCmd) (sz n : Nat) : Bool :=
  (c.elems sz n).all fun e => o.lanes.any fun l => l.lane == e

/-- The copy under way that an event names, with a pending sector. -/
def State.sectorOf (s : State) (op n : Nat) : Option (Op × CopyCmd) :=
  match s.op? op with
  | some o =>
    match o.cmd with
    | .copy c =>
      if o.st == .active && decide (n < c.shape.sectors) && sget .pending o.sect n == .pending && s.copyGo c && !s.staged c
        && c.ending.isNone then some (o, c)
      else none
    | _ => none
  | none => none

/-- A sector lands. -/
def State.land (s : State) (o : Op) (c : CopyCmd) (n : Nat) : State := (s.sectorLanded o c n).copyCheck o.id

/-- Words of a sector that go with those of a mask: both halves of an aligned 8-byte word of the management page that the copy reads
are read at once (R395). -/
def State.fieldWords (s : State) (c : CopyCmd) (k : Carry) (m : BitVec 64) : BitVec 64 :=
  if c.out then m
  else k.parts.foldl (fun m p => match p.2.2 with
    | .here pa =>
      if s.target pa = .device && decide (pa % 2 ^ 48 < 0x1000) then
        let word := fun j => (pa + (4 * j - p.1)) / 8
        m ||| maskOf 64 fun j => decide (p.1 ≤ 4 * j) && decide (4 * j < p.1 + p.2.1) &&
          (lanesOf m).any fun i => decide (p.1 ≤ 4 * i) && decide (4 * i < p.1 + p.2.1) && word i == word j
      else m
    | .far _ => m) m

/-- The words of a copy's sector that an event names are performed; with the last of them the sector lands. A part behind a
window is performed whole, once its home has answered. -/
def State.carrySector (s : State) (o : Op) (c : CopyCmd) (k : Carry) (words : BitVec 64) (far : Option FarData) : State :=
  let isFar := k.parts.any fun p => p.2.2.isFar
  if (isFar && far.isNone) || s.remBlocked o k.sector then s
  else
    let all := wordRange 0 (ceilDiv (c.shape.lenOf k.sector) 4)
    let (s, k') := s.moveWords o c k (far.getD ⟨[], []⟩) ((if isFar then all else s.fieldWords c k (words &&& all)) &&& ~~~k.done)
    let s := s.updOp o.id fun o => { o with carry := k' :: o.carry.filter fun x => x.sector != k.sector }
    if k'.done != all then s
    else
      let s := if k.done = all then s else (s.settleMarks c k').raceSector o c k.sector
      match s.op? o.id with
      | some o => (match o.cmd with | .copy c => s.land o c k.sector | _ => s)
      | none => s

/-- `SECTOR_LAND` (R168, R313): the sector begins, if it has not, and the words that its mask names are performed.
`far` holds the bytes that a far home returned, or nothing but its acknowledgement of a write. A staged copy captures what it
can (R345), and a copy whose end R244 kept back ends. -/
def execSectorLand (op : Nat) (part : SectorPart) (far : Option FarData) (s : State) : Res :=
  let sector := part.sector
  .next (match s.sectorOf op sector with
    | none => s.captureMore op |>.endKept op
    | some (o, c) =>
      match s.carryOf o c sector with
      | none => s
      | some k =>
        let s := s.putCarry o c k
        match c.red with
        | some (_, ty) => if o.elemsDone c (credSize ty) sector then s.land o c sector else s
        | none => s.carrySector o c k part.words far)

/-- `SECTOR_SUSPEND` (R171): the translation of a sector that has not begun fails. -/
def execSectorSuspend (op sector : Nat) (s : State) : Res :=
  .next (match s.sectorOf op sector with
    | none => s
    | some (o, c) =>
      if o.begun sector then s
      else match s.sectorFaults o c sector with
        | [] => s
        | fs => (s.sectorSuspended o c sector fs).copyCheck op)

/-- Whether a far home may refuse a sector that has begun: nothing of it is known to be performed. Through a window that leads
back to this rank only the response limit ends it so (R236). -/
def State.farOpen (s : State) (o : Op) (c : CopyCmd) (n : Nat) (cause : BitVec 8) : Bool :=
  o.carry.any fun k => k.sector == n && k.done == 0 && (k.parts.any (fun p => p.2.2.isFar)
    || (cause == noReply && (s.sectorHomes o c n).any fun p => p.2.2.isOwn))

/-- `SECTOR_REFUSED` (R171, R233): by this package before it begins, or by a far home with a cause of R237. -/
def execSectorRefused (op sector : Nat) (far : Option LaneAns) (s : State) : Res :=
  .next (match s.sectorOf op sector with
    | none => s
    | some (o, c) =>
      let s := match s.carryOf o c sector with | some k => s.putCarry o c k | none => s
      let farOpen := fun k => match s.op? op with | some o => s.farOpen o c sector k | none => false
      let own := if o.begun sector || !(s.sectorFaults o c sector).isEmpty then none else s.sectorRefusal o c sector
      let cause := match own, far with
        | some k, _ => some (BitVec.ofNat 8 k)
        | none, some a => if !a.ok && farOpen a.cause then some a.cause else none
        | none, none => none
      match cause with
      | some k =>
        (s.updOp op fun o => { o with sect := sset .pending o.sect sector (.refused k)
                                      carry := o.carry.filter fun x => x.sector != sector }).copyCheck op
      | none => s)

/-! ## Element updates (R176) -/

/-- An update at an address of this package; poisoned data has no stated value, and its mark stays or comes along (log entry
18). -/
def State.updateAt (s : State) (pa : Nat) (op : RedOp) (ty : CredTy) (v : Nat) (bad : Bool) : State × BitVec 7 :=
  let sz := credSize ty
  let (s, old) := s.homeVal pa sz
  let r := credUpd op ty old v
  let s := s.homeWrite pa (natBytes sz r.1)
  (if bad then s.setPoison pa sz else s, r.2)

/-- A value of a local buffer, and whether it is poisoned: then a free one (log entry 18). -/
def State.localVal (s : State) (t : Team) (b : Buf) (o sz : Nat) : State × Nat × Bool :=
  if t.poisoned b o sz then (s.draw, (Config.freeWord s.free).toNat % 2 ^ (8 * sz), true)
  else (s, leNat (t.rdBytes b o sz), false)

/-- An element has been updated. -/
def elemLane (e va : Nat) : Lane := { lane0 e va 0 0 with st := .done }

/-- The location of an element, in the part of its sector that holds it. -/
def Carry.elemLoc (k : Carry) (off : Nat) : Option Loc :=
  (k.parts.find? fun p => decide (p.1 ≤ off) && decide (off < p.1 + p.2.1)).map fun p => p.2.2.shift (off - p.1)

/-- `CRED_UPDATE` (R176): one element's atomic update at its home. A sector that is suspended or refused performs no
update (R171, R176). -/
def execCredUpdate (op elem : Nat) (far : Option LaneAns) (s : State) : Res :=
  .next (match s.op? op with
    | none => s
    | some o =>
      match o.cmd with
      | .copy c =>
        match c.red, s.team? c.tid with
        | some (f, ty), some t =>
          let sz := credSize ty
          let va := c.ext + sz * elem
          let n := sz * elem / 256
          if (s.sectorOf op n).isNone || c.shape.len < sz * (elem + 1) || o.lanes.any fun l => l.lane == elem then s
          else match (s.carryOf o c n).bind fun k => (k.elemLoc (sz * elem - 256 * n)).map fun l => (k, l) with
            | none => s
            | some (k, l) =>
              if s.elemBlocked o va l sz then s
              else
                let s := s.putCarry o c k
                let (s', v, bad) := s.localVal t c.buf (c.d + sz * elem) sz
                let note := fun (s : State) (fl : BitVec 7) =>
                  (s.updOp op fun o => { o with lanes := o.lanes ++ [elemLane elem va], flags := o.flags ||| fl }).raceAt
                    c.tid o.pc va true l sz true 2
                match l, far with
                | .here p, _ =>
                  let (s, fl) := s'.updateAt p f ty v bad
                  note s fl
                | .far x, some a =>
                  if a.ok then note (s'.sendFar x o.gid op elem (.reduce f ty (BitVec.ofNat 32 v) bad) true) (a.data.setWidth 7) else s
                | .far _, none => s
        | _, _ => s
      | _ => s)

/-! ## Layout records (R169, R170) -/

/-- The least record ID not in use. -/
def Team.freeRec (t : Team) : Option Nat := ((List.range 64).map (· + 1)).find? fun k => t.recs.all fun r => r.id != k

/-- A scalar result written by an operation when it acts. -/
def Op.putS (o : Op) (x : Word) (s : State) : State :=
  if o.suppressed then s else s.landed o.gid o.id (fun g => g.putLanes o.dst [(0, x)] o.tag) o.tag

/-- `CREG` acts: a slot and its ID, or 0. -/
def beginCreg (s : State) (o : Op) : State :=
  match o.cmd, s.team? o.tid with
  | .creg _ base sh d, some t =>
    match t.freeRec with
    | none => (o.putS 0 s).opDone o
    | some k =>
      let s := o.putS (BitVec.ofNat 32 k) s
      let s := s.updOp o.id fun o => { o with cmd := .creg k base sh d, st := .active, wregs := [], stamp := s.q }
      s.updT o.tid fun t => { t with recs := t.recs ++ [⟨k, base, sh, false, none, false, []⟩] }
  | _, _ => s

def execCreg (h : Hdr) (d : Dst) (ext : SReg) (shape : RegShape) (s : State) : Res :=
  .next (issue (.creg h d ext shape) (fun s c =>
    if !c.ug then c.noop s
    else
      let e := (c.g.pairS ext.toNat).toNat
      let (sh, rsv) := match shape with
        | .d1 n => (shape1 (copyLenVal c n), 0)
        | .d2 m => (c.g.shape8 m.toNat false, c.g.rdS (m.toNat + 7))
        | .d3 m => (c.g.shape8 m.toNat true, c.g.rdS (m.toNat + 7))
      match shapeCheck sh rsv e 0 4 with
      | some a => a
      | none =>
        let o := { c.mkOp s (.creg 0 e sh d) with dst := d, wregs := rDst d }
        c.submit s c.g o 0 beginCreg) s)

/-- Pages that a shape covers, in order of its sectors. -/
def Shape.pages (sh : Shape) (e : Nat) : List Nat :=
  ((List.range sh.sectors).flatMap fun n => unitsOf 4096 (sh.extOf e n).toNat (sh.lenOf n)).eraseDups

/-- Pages a record may cover. -/
def recPages : Nat := 65536

/-- `RECORD_READY` (R169): the record becomes ready with its pages pinned, or failed; `CREG` completes. -/
def execRecordReady (op : Nat) (s : State) : Res :=
  .next (match s.op? op with
    | none => s
    | some o =>
      match o.cmd, s.grp? o.gid with
      | .creg k base sh _, some g =>
        if o.st != .active then s
        else
          let tr := (sh.pages base).map fun p => (p, s.xlate g.core o.ctx (p * 4096) .read o.sup)
          let bad := tr.findSome? fun x => match x.2 with | .bad c => some c | .pa _ => none
          let failed : Option (BitVec 8) :=
            if recPages < tr.length then some 0 else bad.map fun c => BitVec.ofNat 8 c
          let pins := if failed.isSome then [] else
            tr.filterMap fun x => match x.2 with | .pa a => some (x.1, a) | .bad _ => none
          let s := s.updT o.tid fun t => { t with recs := t.recs.map fun r =>
            if r.id = k then { r with ready := failed.isNone, failed := failed, pins := pins } else r }
          let s := s.opDone o
          match failed with
          | none => (s.ops.filter fun x => match x.cmd with | .copy c => c.lrec == some k && c.tid == o.tid | _ => false).foldl
              (fun s x => match x.cmd with
                | .copy c =>
                  if x.st != .active then s else if s.staged c then s.captureCopy x.id else s.copyCheck x.id
                | _ => s) s
          | some f => (s.ops.filter fun x => x.st == .active).foldl (fun s x => match x.cmd with
              | .copy c => if c.lrec == some k && c.tid == o.tid then s.endCopy x c 1 (0x200 + f.toNat) else s
              | _ => s) s
      | _, _ => s)

/-- The operations under way on a record: copies through it, and the `CREG` that makes it. -/
def State.recUses (s : State) (tid id : Nat) : List Nat :=
  (s.ops.filter fun x => x.tid == tid && x.st == .active && match x.cmd with
    | .copy c => c.lrec == some id
    | .creg k _ _ _ => k == id
    | _ => false).map (·.id)

/-- `CUNREG` acts: an ID that is not live completes at once. -/
def beginCunreg (s : State) (o : Op) : State :=
  match o.cmd, s.team? o.tid with
  | .cunreg id _, some t =>
    if t.recs.any fun r => r.id == id.toNat && !r.dead then
      let s := s.updOp o.id fun o => { o with st := .active, cmd := .cunreg id (s.recUses o.tid id.toNat) }
      s.updT o.tid fun t => { t with recs := t.recs.map fun r => if r.id = id.toNat then { r with dead := true } else r }
    else s.opDone o
  | _, _ => s

def execCunreg (h : Hdr) (a : SReg) (s : State) : Res :=
  .next (issue (.cunreg h a) (fun s c =>
    if !c.ug then c.noop s
    else c.submit s c.g (c.mkOp s (.cunreg (c.g.rdS a.toNat) [])) 0 beginCunreg) s)

/-- `CUNREG_COMPLETE` (R169): every copy through the record issued before it has ended, and every one begun before it acted,
where it was held meanwhile (R298). -/
def execCunregComplete (op : Nat) (s : State) : Res :=
  .next (match s.op? op with
    | none => s
    | some o =>
      match o.cmd with
      | .cunreg id under =>
        let uses := s.ops.any fun x => under.contains x.id || (decide (x.id < o.id) && x.tid == o.tid && match x.cmd with
          | .copy c => c.lrec == some id.toNat
          | _ => false)
        if o.st != .active || uses then s
        else (s.updT o.tid fun t => { t with recs := t.recs.filter fun r => r.id != id.toNat }).opDone o
      | _ => s)

/-! ## Replay (R173) -/

/-- The faulted copy with an ID, if it is not busy. -/
def State.faultedCopy (s : State) (id : Word) : Option (Op × CopyCmd) :=
  s.ops.findSome? fun o => match o.cmd with
    | .copy c => if c.id == id && o.st == .active && c.faulted && !c.busy then some (o, c) else none
    | _ => none

/-- `CREPLAY` and `CREPLAY.drop` act. -/
def beginCreplay (s : State) (r : Op) : State :=
  match r.cmd with
  | .creplay id drop _ =>
    match s.faultedCopy id with
    | none => s.opDone r
    | some (o, c) =>
      let endIt := fun (code cause : Nat) =>
        let s := s.updOp r.id fun r => { r with st := .active }
        let c := { c with replayBy := some r.id }
        (s.updCopy o.id fun _ => c).endCopy o c code cause
      if drop then endIt 1 0x300
      else
        let bad := match s.team? c.tid with
          | some t => (o.suspended c).any fun (x : Nat × List (Nat × BitVec 8)) =>
              (unitsOf 4096 (c.shape.locOf c.d x.1) (c.shape.lenOf x.1)).any fun k => t.owner c.buf k != Owner.engine
          | none => true
        if bad then endIt 2 0
        else
          let s := s.updOp r.id fun r => { r with st := .active }
          let s := s.updOp o.id fun o =>
            { o with stamp := s.q, sect := (o.suspended c).foldl (fun m x => sset .pending m x.1 .pending) o.sect }
          let s := s.updCopy o.id fun c => { c with busy := true, faulted := false, replayBy := some r.id }
          if s.staged c then s.captureCopy o.id else s
  | _ => s

/-- Whether a copy with this ID was issued by another team. -/
def State.foreignCopy (s : State) (id : Word) (tid : Nat) : Bool :=
  s.ops.any fun o => match o.cmd with | .copy c => c.id == id && o.st == .active && c.tid != tid | _ => false

/-- Tags of the lines that a replay would reach in its issuer's own team (R297; log entry 84). -/
def State.replayTags (s : State) (id : Word) (tid : Nat) : Tags :=
  match s.faultedCopy id, s.team? tid with
  | some (o, c), some t =>
    if c.tid != tid then 0
    else (o.suspended c).foldl (fun m x => m ||| t.rangeTag c.buf (c.shape.locOf c.d x.1) (c.shape.lenOf x.1)) 0
  | _, _ => 0

/-- `CREPLAY` at issue. -/
def creplayOp (i : Instr) (a : SReg) (drop : Bool) (s : State) : State :=
  issue i (fun s c =>
    let id := c.g.rdS a.toNat
    if !c.ug then c.noop s
    else if !c.g.sup && s.foreignCopy id c.g.tid then .trpU 1 0x03
    else c.submit s c.g (c.mkOp s (.creplay id drop c.g.sup)) (s.replayTags id c.g.tid) beginCreplay) s

def execCreplay (h : Hdr) (a : SReg) (s : State) : Res := .next (creplayOp (.creplay h a) a false s)
def execCreplayDrop (h : Hdr) (a : SReg) (s : State) : Res := .next (creplayOp (.creplayDrop h a) a true s)

end Sys2Proof.Machine
end

