-- ==== Sys2Proof/Machine/Slots.lean ====
section
/-! DEFINITION. Assumption identifiers, the home and import tables, and binding an identifier to a team slot (R282-R285,
R299, R300). -/

namespace Sys2Proof.Machine

/-- Fields of an AID (R282). -/
def aidHome (a : Word) : Nat := fld a.toNat 22 10
def aidIndex (a : Word) : Nat := fld a.toNat 10 12
def aidGen (a : Word) : Nat := fld a.toNat 0 10
def aidOf (home index gen : Nat) : Word := BitVec.ofNat 32 (home * 2 ^ 22 + index * 2 ^ 10 + gen)
/-- What instructions write where no assumption was made. -/
def noAid : Word := 0xFFFFFFFF

/-- A home entry at boot (R284). -/
def NEntry.zero : NEntry := ⟨0, .free, false, 0, 0, [], [], [], 0, 0, 0, 0, none, 0, 0⟩
def State.home? (s : State) (i : Nat) : NEntry := sget NEntry.zero s.homes i
def State.setHome (s : State) (i : Nat) (e : NEntry) : State := { s with homes := sset NEntry.zero s.homes i e }

/-- Nanoseconds of `n` milliseconds. -/
def msNs (n : Nat) : Nat := n * 1000000
/-- Nanoseconds after its resolution in which a message can still carry an AID (R284). -/
def State.aidSpan (s : State) : Nat := 2 * msNs s.mgmt.resplim.toNat

/-- Whether what this rank knows of a remote AID still counts: an outcome does while a message can carry the AID. -/
def State.knows (s : State) (e : IEntry) : Bool := e.outcome.isNone || decide (s.clock.toNat < e.known.toNat + s.aidSpan)
/-- What this rank knows of a remote AID. -/
def State.import? (s : State) (a : Word) : Option IEntry := s.imports.find? fun e => e.aid == a && s.knows e

/-- What this home says of an AID: `none` while it is live, else whether it was affirmed (R283, R300). -/
def State.homeSays (s : State) (a : Word) : Option Bool :=
  let e := s.home? (aidIndex a)
  if e.gen = aidGen a && (e.st == .live || e.st == .affirmPending) then none
  else some (!sget false e.outcome (aidGen a))

/-- What the device knows of an AID: `none` while it is live, else whether it was affirmed (R300). -/
def State.resolved (s : State) (a : Word) : Option Bool :=
  if aidHome a = s.rank then s.homeSays a
  else match s.import? a with
    | some e => e.outcome
    | none => none

/-- The query of R300 to the home of an AID that this rank knows nothing of: one lookup there answers it and makes this rank
an importer. The answer is the other package's, so it is a free value (log entry 19): live, live and a child, affirmed, or
denied. -/
def State.askAid (s : State) (a : Word) : State :=
  if aidHome a = s.rank || (s.import? a).isSome then s
  else
    let w := Config.freeWord s.free
    let out : Option Bool := if w.getLsbD 0 then some (w.getLsbD 1) else none
    let e : IEntry := ⟨a, w.getLsbD 1, [], out, s.clock⟩
    let s : State := { s with imports := s.imports.filter (fun x => x.aid != a) ++ [e] }
    (s.emit (.importAsk (aidHome a) a)).draw
def State.askAids (s : State) (as : List Word) : State := as.foldl State.askAid s

/-- Whether an AID names the current generation of an entry of this home. -/
def State.ownAid (s : State) (a : Word) : Bool := aidHome a == s.rank && (s.home? (aidIndex a)).gen == aidGen a

/-- A query of another rank at this home (R300): the answer leaves, and the rank imports an AID that is live. -/
def State.answerAsk (s : State) (rank : Nat) (a : Word) : State :=
  let e := s.home? (aidIndex a)
  let s := s.emit (.importAns rank a (s.homeSays a))
  if (s.homeSays a).isSome || e.importers.contains rank then s
  else s.setHome (aidIndex a) { e with importers := rank :: e.importers }

/-- The slot a team has bound to an AID. -/
def Team.slotOf (t : Team) (a : Word) : Option Nat :=
  (List.range 8).find? fun k => match t.slots[k]? with | some x => x.st != .free && x.aid == a | none => false
/-- The lowest free slot. -/
def Team.freeSlot (t : Team) : Option Nat :=
  (List.range 8).find? fun k => match t.slots[k]? with | some x => x.st == .free | none => false
def Team.setSlot (t : Team) (k : Nat) (x : TSlot) : Team := { t with slots := t.slots.set k x }
/-- The AID of a slot. -/
def Team.aidAt (t : Team) (k : Nat) : Word :=
  match t.slots[k]? with | some x => if x.st = .free then noAid else x.aid | none => noAid
/-- Whether a slot is bound. A resolution reaches a team at one instant (R305): until then the slot counts as live there. -/
def Team.liveAt (t : Team) (k : Nat) : Bool :=
  match t.slots[k]? with | some x => x.st != .free | none => false
/-- AIDs of the live slots in a mask, by ascending slot (R299). -/
def Team.aidsIn (t : Team) (m : Tags) : List Word := ((slotsOf m).filter t.liveAt).map t.aidAt

/-- Entries of the import table. -/
def importMax : Nat := 4096

/-- Entries of the import table in use. -/
def State.importsUsed (s : State) : Nat := (s.imports.filter fun e => e.outcome.isNone && !e.teams.isEmpty).length

/-- Whether an AID names a child assumption (R301): its home knows it from the minting team's slot, an importer from the
home's answer. -/
def State.isChild (s : State) (a : Word) : Bool :=
  if aidHome a = s.rank then
    match s.team? (s.home? (aidIndex a)).tid with
    | some t => (t.slotOf a).any fun k => t.slots[k]?.any (·.child)
    | none => false
  else (s.import? a).any (·.child)

/-- Binds a live AID to a team's slot, or finds the slot it has (R300): `none` where no slot or entry is free. -/
def State.bindAid (s : State) (tid : Nat) (a : Word) : Option (State × Nat) :=
  match s.team? tid with
  | none => none
  | some t =>
    match t.slotOf a with
    | some k => some (s, k)
    | none =>
      match t.freeSlot with
      | none => none
      | some k =>
        let s' := s.updT tid fun t => t.setSlot k ⟨.imported, a, s.isChild a⟩
        if aidHome a = s.rank then some (s', k)
        else match s.import? a with
          | none => none
          | some e =>
            if e.teams.isEmpty && decide (importMax ≤ s.importsUsed) then none
            else
              some ({ s' with imports := s'.imports.map fun x => if x.aid = a then { x with teams := x.teams ++ [tid] } else x }, k)

/-- Binds a list of AIDs: the mask of their slots. -/
def State.bindAids (s : State) (tid : Nat) : List Word → Option (State × Tags)
  | [] => some (s, 0)
  | a :: as =>
    match s.bindAid tid a with
    | none => none
    | some (s, k) =>
      match s.bindAids tid as with
      | none => none
      | some (s, m) => some (s, m ||| (1#8 <<< k))

/-- What becomes of a message's AIDs at delivery, once this rank has asked for those it does not know: `none` where one was
denied, else those still live (R300). -/
def State.examine (s : State) (as : List Word) : Option (List Word) :=
  if as.any fun a => s.resolved a = some false then none
  else some (as.filter fun a => s.resolved a = none)

end Sys2Proof.Machine
end

