-- ==== Sys2Proof/Machine/Gather.lean ====
section
/-! DEFINITION. Gathers and scatters (R177-R180). -/

namespace Sys2Proof.Machine

/-! ## Checks over lanes (R178) -/

/-- Lanes for which a test holds. -/
def lanesWhere (ls : List (Nat × Nat)) (p : Nat → Bool) : Mask := maskOf 64 fun i => ls.any fun x => x.1 == i && p x.2
/-- The 64-bit words of the named lanes. -/
def laneWords (ls : List (Nat × Nat)) (m : Mask) : Sparse DWord :=
  ls.foldl (fun a x => if m.getLsbD x.1 then sset 0 a x.1 (BitVec.ofNat 64 x.2) else a) []
/-- A trap that names lanes with their addresses. -/
def laneTrap (cls sub : Nat) (ls : List (Nat × Nat)) (m : Mask) : Act := .trap cls sub m (laneWords ls m) 0

/-- Alignment, then the address range (R178, R322). -/
def addrCheck (ls : List (Nat × Nat)) (sz : Nat) : Option Act :=
  let m1 := lanesWhere ls fun a => a % sz != 0
  let m2 := lanesWhere ls fun a => decide (2 ^ 54 ≤ a)
  if m1 != 0 then some (laneTrap 2 0x11 ls m1)
  else if m2 != 0 then some (laneTrap 8 0x05 ls m2)
  else none

/-- Translations of the lanes, and the trap of those that fail (R178 check 3). -/
def State.xlateLanes (s : State) (g : Group) (ls : List (Nat × Nat)) (acc : Acc) : List (Nat × Nat × Tr) :=
  ls.map fun x => (x.1, x.2, s.xlate g.core (s.ctxOfG g) x.2 acc g.sup)
def xlateTrap (ls : List (Nat × Nat)) (ts : List (Nat × Nat × Tr)) : Option Act :=
  let bad := ts.filterMap fun x => match x.2.2 with | .bad c => some (x.1, c) | .pa _ => none
  match bad with
  | [] => none
  | (_, c) :: _ => some (laneTrap 8 c ls (maskOf 64 fun i => bad.any fun x => x.1 == i))

/-- Lanes that the local window tests refuse (R178 check 4). -/
def State.windowTrap (s : State) (ls : List (Nat × Nat)) (ts : List (Nat × Nat × Tr)) (sz : Nat) : Option Act :=
  let m := maskOf 64 fun i => ts.any fun x => x.1 == i && match x.2.2 with
    | .pa a => match s.home a sz false with | .refused _ => true | _ => false
    | .bad _ => false
  if m = 0 then none else some (laneTrap 8 0x08 ls m)

/-- The target team of a `.clu` form, by position (R180). -/
def State.cluTeam (s : State) (t : Team) (pos : Nat) : Option Team :=
  match t.clid with
  | none => if pos = 0 then some t else none
  | some k =>
    match s.clu? k with
    | none => none
    | some cl => if cl.cols * cl.rows ≤ pos then none else s.teams.find? fun x => cl.has x.tid && x.clpos == pos

/-- The checks of R180 over the executing lanes. -/
def cluCheck (x : Team) (ls : List (Nat × Nat)) (sz : Nat) : Option Act :=
  let m1 := lanesWhere ls fun a => decide (x.xbytes < a + sz)
  let m2 := lanesWhere ls fun a => x.owner .x (a / 4096) != .engine
  if m1 != 0 then some (laneTrap 3 0x01 ls m1)
  else if m2 != 0 then some (laneTrap 2 0x14 ls m2)
  else none

/-- Alignment of the lanes. -/
def alignCheck (ls : List (Nat × Nat)) (sz : Nat) : Option Act :=
  let m := lanesWhere ls fun a => a % sz != 0
  if m != 0 then some (laneTrap 2 0x11 ls m) else none

/-- The lanes of a gather or scatter after its checks, with the target team of a `.clu` form; or its trap. -/
def State.gatherLanes (s : State) (c : IC) (t : Team) (sz : Nat) (base : GBase) (off : Opnd) (acc : Acc) :
    Act ⊕ (List (Nat × Nat × Nat) × Option Nat) :=
  match base with
  | .ext p =>
    let ls := c.evalLanes.map fun i => (i, (c.g.pairS p.toNat).toNat + (c.g.opnd off i).toNat)
    let ts := s.xlateLanes c.g ls acc
    match addrCheck ls sz with
    | some a => .inl a
    | none =>
      match xlateTrap ls ts with
      | some a => .inl a
      | none =>
        match s.windowTrap ls ts sz with
        | some a => .inl a
        | none => .inr (ts.map fun x => (x.1, x.2.1, match x.2.2 with | .pa a => a | .bad _ => 0), none)
  | .clu a =>
    let ls := c.evalLanes.map fun i => (i, (c.g.opnd off i).toNat)
    match alignCheck ls sz with
    | some a => .inl a
    | none =>
      match s.cluTeam t (c.g.rdS a.toNat).toNat with
      | none => .inl (laneTrap 3 0x03 ls (maskOf 64 fun i => c.evalLanes.contains i))
      | some x =>
        match cluCheck x ls sz with
        | some a => .inl a
        | none => .inr (ls.map fun y => (y.1, y.2, y.2), some x.tid)

/-! ## Issue -/

/-- Captured lanes; one that leads through a window keeps what the window's tests decided (R235). -/
def State.gLane (s : State) (clu : Option Nat) (sz : Nat) (x : Nat × Nat × Nat) (data : DWord) : Lane :=
  { lane0 x.1 x.2.1 data 0 with pa := x.2.2, via := if clu.isSome then none else s.viaOf x.2.2 sz false }

def execGath (h : Hdr) (d : Dst) (ty : LTy) (base : GBase) (off : Opnd) (s : State) : Res :=
  .next (issue (.gath h d ty base off) (fun s c =>
    match s.team? c.g.tid with
    | none => c.skip s
    | some t =>
      if !c.ug then c.noop s
      else match s.gatherLanes c t (ltySize ty) base off .read with
        | .inl a => a
        | .inr (ls, clu) =>
          let o := { c.mkOp s (.gather ty clu) with
            lanes := ls.map fun x => s.gLane clu (ltySize ty) x 0
            dst := d
            wregs := rDst d
            pre := if clu.isSome then some c.pre else none }
          c.launch s c.g o (fun s _ => s)) s)

/-- A scatter acts: on its way, or staged (R345). -/
def beginScat (s : State) (o : Op) : State :=
  match o.cmd with
  | .scatter ty none =>
    if s.isDet o.tid then
      let s := o.lanes.foldl (fun s l => s.raceAt o.tid o.pc l.va true (s.laneLoc l) (ltySize ty) true 0) s
      (s.stage o []).opDone o
    else s.updOp o.id fun o => { o with st := .active }
  | _ => s.updOp o.id fun o => { o with st := .active }

/-- What a trap at issue answers, made of a held operation. -/
def State.refuseAct (s : State) (o : Op) : Act → State
  | .trap cls sub m lw _ => s.refuseHeld o cls sub m lw
  | _ => s

/-- A held scatter is released: it translates and checks its lanes as though issued now (R298). -/
def releaseScat (s : State) (o : Op) : State :=
  match o.cmd, s.grp? o.gid with
  | .scatter ty none, some g =>
    let ls := o.lanes.map fun l => (l.lane, l.va)
    let ts := ls.map fun x => (x.1, x.2, s.xlate g.core o.ctx x.2 .write o.sup)
    match xlateTrap ls ts, s.windowTrap ls ts (ltySize ty) with
    | some a, _ | none, some a => s.refuseAct o a
    | none, none =>
      let o := { o with lanes := o.lanes.map fun l => match ts.find? fun x => x.1 == l.lane with
        | some (_, _, .pa a) => { l with pa := a, via := s.viaOf a (ltySize ty) false }
        | _ => l }
      beginScat (s.updOp o.id fun _ => o) o
  | .scatter ty (some tid), _ =>
    match s.team? tid with
    | none => beginScat s o
    | some x => match cluCheck x (o.lanes.map fun l => (l.lane, l.va)) (ltySize ty) with
      | some a => s.refuseAct o a
      | none => beginScat s o
  | _, _ => beginScat s o

/-- Tags of the lines that a cluster scatter writes in its own team. -/
def cluTags (t : Team) (clu : Option Nat) (ls : List (Nat × Nat × Nat)) (sz : Nat) : Tags :=
  if clu = some t.tid then ls.foldl (fun m x => m ||| t.rangeTag .x x.2.1 sz) 0 else 0

def execScat (h : Hdr) (data : Opnd) (ty : LTy) (base : GBase) (off : Opnd) (s : State) : Res :=
  .next (issue (.scat h data ty base off) (fun s c =>
    match s.team? c.g.tid with
    | none => c.skip s
    | some t =>
      if !c.ug then c.noop s
      else match s.gatherLanes c t (ltySize ty) base off .write with
        | .inl a => a
        | .inr (ls, clu) =>
          if clu.isNone && s.stageFull t.tid (16 * ls.length) then .trp 2 0x2B c.lanes
          else
            let o := { c.mkOp s (.scatter ty clu) with
              lanes := ls.map fun x => s.gLane clu (ltySize ty) x ((c.g.opnd data x.1).setWidth 64) }
            c.submit s c.g o (cluTags t clu ls (ltySize ty)) beginScat) s)

/-! ## Lanes (R178, R179) -/

/-- Whether a lane must wait for an earlier access of its group's path G to the same bytes (R178). -/
def State.gatherBlocked (s : State) (o : Op) (l : Lane) (sz : Nat) : Bool :=
  (s.ops.any fun p => p.gid == o.gid && p.path == some .G && decide (p.id < o.id) && p.st == .active &&
      p.lanes.any fun k => k.st == .pending && k.pa < l.pa + sz && l.pa < k.pa + p.cmd.size)
    || (o.lanes.any fun k => decide (k.lane < l.lane) && k.st == .pending && k.pa < l.pa + sz && l.pa < k.pa + sz)

/-- A lane's end recorded. -/
def State.endLane (s : State) (op lane : Nat) (st : LaneSt) (res : DWord) (ok poison : Bool) : State :=
  s.updOp op fun o => o.setLane lane fun l => { l with st := st, res := res, ok := ok, poison := poison }

/-- A read of external memory at its home; poisoned data has no stated value (log entry 18). -/
def State.laneRead (s : State) (op lane pa sz : Nat) : State :=
  if s.poisoned pa sz then (s.endLane op lane .done (Config.freeWord s.free) true true).draw
  else
    let (s, bs) := s.seeHome pa sz
    s.endLane op lane .done (BitVec.ofNat 64 (leNat bs)) true false

/-- A lane of a `.clu` gather: the word and, from a tagged line, its AIDs (R299). Their slots come into the group with the
word, so that a denial before the completion restores the group and takes the word back (R289, R304). -/
def State.cluRead (s : State) (o : Op) (x : Team) (l : Lane) (sz : Nat) : State :=
  let m := if o.suppressed then 0 else x.rangeTag .x l.va sz
  let got : Option (State × Tags) :=
    if x.tid = o.tid then some (s, m)
    else s.bindAids o.tid (x.aidsIn m)
  match got with
  | none => s
  | some (s, tag) =>
    let s := s.updOp o.id fun o => { o with tag := o.tag ||| tag }
    let s := match o.pre with | some p => s.updG o.gid fun g => g.bringLate p tag | none => s
    if x.poisoned .x l.va sz then (s.endLane o.id l.lane .done (Config.freeWord s.free) true true).draw
    else s.endLane o.id l.lane .done (BitVec.ofNat 64 (leNat (x.rdBytes .x l.va sz))) true false

/-- The one lookup of a lane at this rank's export (R234, R235): refused with a cause, or let pass to an address. -/
def State.lookLane (s : State) (o : Op) (l : Lane) (w off sz : Nat) (n : Need) : State :=
  match s.export_ w off sz n with
  | .pa p => s.updOp o.id fun o => o.setLane l.lane fun l => { l with via := some (.mem p) }
  | .bad k => s.endLane o.id l.lane (.settled (BitVec.ofNat 8 k)) 0 false false

/-- A gather or scatter lane at its home; through a window that leads back to this rank its lookup is one turn and its
performance another (R235). An answer for such a window says that the response limit passed: a store may have been performed
(R179, R236). In a cluster, a target team that has ended takes no store and gives 0 (log entry 95). -/
def State.gatherLane (s : State) (o : Op) (l : Lane) (far : Option LaneAns) : State :=
  let sz := o.cmd.size
  let store := match o.cmd with | .scatter _ _ => true | _ => false
  let clu := match o.cmd with | .scatter _ c => c | .gather _ c => c | _ => none
  let data := natBytes sz l.data.toNat
  match clu with
  | some tid =>
    match s.team? tid with
    | none => s.endLane o.id l.lane .done 0 true false
    | some x =>
      if store then (s.updT tid fun t => t.wr .x l.va data).endLane o.id l.lane .done 0 true false
      else s.cluRead o x l sz
  | none =>
    let s1 := s.raceAt o.tid o.pc l.va true (s.laneLoc l) sz store 0
    let need := if store then Need.wr else .rd
    match s.laneHome l sz false, far with
    | .own w off, none => s.lookLane o l w off sz need
    | .far f, _ =>
      match far with
      | none => s
      | some a =>
        let s1 := s1.sendFar f o.gid o.id l.lane (if store then .write sz l.data else .read sz)
        if a.ok then s1.endLane o.id l.lane .done a.data true (a.poison && !store)
        else s1.endLane o.id l.lane (.settled a.cause) 0 false false
    | h, _ =>
      match s.homePa h sz need with
      | some (.pa p) =>
        if l.via.isSome && far.isSome then
          (if store && (Config.freeWord s.free).getLsbD 0 then s1.homeWrite p data else s1).draw.endLane o.id l.lane
            (.settled noReply) 0 false false
        else if store then (s1.homeWrite p data).endLane o.id l.lane .done 0 true false
        else s1.laneRead o.id l.lane p sz
      | some (.bad k) => s1.endLane o.id l.lane (.settled (BitVec.ofNat 8 k)) 0 false false
      | none => s

/-- Whether an operation is a gather or scatter. -/
def Cmd.isGather : Cmd → Bool
  | .gather _ _ | .scatter _ _ => true
  | _ => false

/-- `GATHER_LANE_PERFORMED` (R178, R179). -/
def execGatherLanePerformed (op lane : Nat) (far : Option LaneAns) (s : State) : Res :=
  .next (match s.op? op with
    | none => s
    | some o =>
      match o.lane? lane with
      | none => s
      | some l =>
        if !o.cmd.isGather || o.st != .active || l.st != .pending || s.gatherBlocked o l o.cmd.size then s
        else s.gatherLane o l far)

/-- The lanes of an operation that were settled, and the deferred trap they cause (R179). -/
def Op.settledTrap (o : Op) : Option TrapRec :=
  let bad := o.lanes.filterMap fun l => match l.st with | .settled k => some (l.lane, l.va, k) | _ => none
  match bad with
  | [] => none
  | (_, _, k) :: _ =>
    some ⟨8, 0x09, maskOf 64 fun i => bad.any fun x => x.1 == i, o.pc,
      bad.foldl (fun m x => sset 0 m x.1 (BitVec.ofNat 64 x.2.1)) [], k.setWidth 32, 0, 8⟩

/-- The deferred data error of the lanes that carry poison (R222). -/
def Op.poisonTrap (o : Op) (len : Nat) : Option TrapRec :=
  let bad := o.lanes.filter fun l => l.st = .done && l.poison
  if bad.isEmpty then none
  else some ⟨12, 0x03, maskOf 64 fun i => bad.any fun l => l.lane == i, o.pc,
    bad.foldl (fun m l => sset 0 m l.lane (BitVec.ofNat 64 l.va)) [], 0, 0, len⟩

/-- `GATHER_COMPLETE` (R178, R179): every lane performed or settled. -/
def execGatherComplete (op : Nat) (s : State) : Res :=
  .next (match s.op? op with
    | none => s
    | some o =>
      if !o.cmd.isGather || o.st != .active || !o.lanesEnded then s
      else
        let ext := match o.cmd with | .gather ty _ => ltyExt ty | _ => ltyExt .n32
        (s.complete o (o.results fun x => ext x.toNat) 0 0).deferTraps o [o.poisonTrap 8, o.settledTrap])

end Sys2Proof.Machine
end

