-- ==== Sys2Proof/Machine/Barriers.lean ====
section
/-! DEFINITION. Named barriers and the cluster barrier (R181-R189). -/

namespace Sys2Proof.Machine

/-- The fields of a barrier that a group names. -/
def State.barOf (s : State) (t : Team) (b : Bar) : Barrier :=
  match b with
  | .b n => t.bar n.toNat
  | .bcl =>
    match t.clid with
    | some k => match s.clu? k with | some c => c.bar | none => Barrier.zero
    | none => Barrier.zero

/-- Stores the fields and releases waiters; a phase of the cluster barrier joins the teams' clocks (R188, R349). -/
def State.storeBar (s : State) (t : Team) (b : Bar) (x : Barrier) : State :=
  match b with
  | .b n => s.putBar t.tid n.toNat x
  | .bcl =>
    match t.clid with
    | none => s
    | some k =>
      let s' := s.putBcl k x
      if x.generation = (s.barOf t .bcl).generation then s' else s'.raceJoin k

/-- Waiters of a barrier (R181). -/
def State.waiters (s : State) (t : Team) (b : Bar) : Nat :=
  (s.groups.filter fun g =>
    (match b, t.clid with
      | .b _, _ => g.tid == t.tid
      | .bcl, some k => (match s.clu? k with | some c => c.has g.tid | none => false)
      | .bcl, none => false)
    && (match g.park with | some (.bwait b' _ _ _) => b' == b | _ => false)).length

/-- Outstanding engine arrivals of a team barrier (R181). -/
def State.outstanding (s : State) (t : Team) (n : Nat) : Nat :=
  (s.ops.filter fun o => o.st == .active && match o.cmd with
    | .copy c => c.tid == t.tid && c.bar == some n && c.stamp == (t.bar n).generation
    | _ => false).length

/-- `BINIT` (R184). -/
def binit (c : IC) (s : State) (b : BitVec 4) (n : Nat) : Act :=
  match s.team? c.g.tid with
  | none => c.skip s
  | some t =>
    if !c.ug then c.skip s
    else if 65535 < n then .trpU 7 0x13
    else if s.waiters t (.b b) != 0 || s.outstanding t b.toNat != 0 then .trpU 7 0x11
    else .go (s.putBar t.tid b.toNat { t.bar b.toNat with expected := BitVec.ofNat 16 n, arrived := 0, bytes := 0, status := 0 })
      none none

def execBinit (h : Hdr) (b : BitVec 4) (n : Opnd) (s : State) : Res :=
  .next (issue (.binit h b n) (fun s c => binit c s b (c.u n)) s)
def execBinitImm (h : Hdr) (b : BitVec 4) (imm : Word) (s : State) : Res :=
  .next (issue (.binitImm h b imm) (fun s c => binit c s b imm.toNat) s)

/-- Whether a group's arrival must wait: earlier local accesses, and path G on `bcl` (R185). -/
def State.arriveWait (s : State) (g : Group) (b : Bar) : Bool :=
  (s.lacc.any fun a => a.gid == g.gid) || (b == .bcl && g.pathCount .G != 0)

/-- `BARR` (R185). -/
def execBarr (h : Hdr) (b : Bar) (s : State) : Res :=
  .next (issue (.barr h b) (fun s c =>
    match s.team? c.g.tid with
    | none => c.skip s
    | some t =>
      if !c.ug then c.skip s
      else if (s.barOf t b).expected = 0 then .trpU 7 0x12
      else if s.arriveWait c.g b then .wait
      else
        let s := s.raceTick t.tid
        .go (s.storeBar t b ((s.barOf t b).arrive .group 0)) none none) s)

/-- The predicates that a waiter writes: c := (outcome = 0) (R182). -/
def outcomeOk (b : Barrier) : Bool := b.outcome == 0

/-- `BWAIT` (R185). -/
def execBwait (h : Hdr) (d : CmpDst) (b : Bar) (g : Opnd) (s : State) : Res :=
  .next (issue (.bwait h d b g) (fun s c =>
    match s.team? c.g.tid with
    | none => c.skip s
    | some t =>
      if !c.ug then c.skip s
      else
        let x := s.barOf t b
        if x.generation = c.op g then c.goG s { c.g with park := some (.bwait b x.generation d c.t) }
        else c.goG s (c.g.okPred d (outcomeOk x) c.t)) s)

/-- `BARW` (R185): parked on the generation read just before its own arrival. -/
def execBarw (h : Hdr) (d : CmpDst) (b : Bar) (s : State) : Res :=
  .next (issue (.barw h d b) (fun s c =>
    match s.team? c.g.tid with
    | none => c.skip s
    | some t =>
      if !c.ug then c.skip s
      else if (s.barOf t b).expected = 0 then .trpU 7 0x12
      else if s.arriveWait c.g b then .wait
      else
        let x := s.barOf t b
        let y := x.arrive .group 0
        let s := s.raceTick t.tid
        if y.generation = x.generation then
          c.goG (s.storeBar t b y) { c.g with park := some (.bwait b x.generation d c.t) }
        else c.goG (s.storeBar t b y) (c.g.okPred d (outcomeOk y) c.t)) s)

/-- `BINV` (R186). -/
def execBinv (h : Hdr) (b : BitVec 4) (s : State) : Res :=
  .next (issue (.binv h b) (fun s c =>
    match s.team? c.g.tid with
    | none => c.skip s
    | some t =>
      if !c.ug then c.skip s
      else .go (s.putBar t.tid b.toNat ((t.bar b.toNat).complete 3)) none none) s)

/-- The field that `BQRY` reads (R187). -/
def State.barField (s : State) (t : Team) (sel : BSel) (b : Bar) : Word :=
  let x := s.barOf t b
  match sel with
  | .exp => x.expected.setWidth 32
  | .arr => x.arrived.setWidth 32
  | .gen => x.generation
  | .bytes => x.bytes
  | .stat => x.status.setWidth 32
  | .out => x.outcome.setWidth 32
  | .wait => BitVec.ofNat 32 (s.waiters t b)
  | .pend => match b with | .b n => BitVec.ofNat 32 (s.outstanding t n.toNat) | .bcl => 0

def execBqry (h : Hdr) (d : Dst) (sel : BSel) (b : Bar) (s : State) : Res :=
  .next (issue (.bqry h d sel b) (fun s c =>
    match s.team? c.g.tid with
    | none => c.skip s
    | some t => if !c.ug then c.skip s else c.put s d 0 fun _ => s.barField t sel b) s)

end Sys2Proof.Machine
end

