-- ==== Sys2Proof/Machine/Atomics.lean ====
section
/-! DEFINITION. Atomics (R319-R329), the performance of local accesses (R133), fences (R316-R318) and the race log
(R351). -/

namespace Sys2Proof.Machine

/-! ## The access at the home (R323, R326) -/

/-- What one lane makes of the old value: new value, whether it writes, and flags. -/
def AtomCmd.apply (a : AtomCmd) (l : Lane) (old : Nat) : Nat × Bool × BitVec 7 :=
  if a.cas then (l.data.toNat % 2 ^ (8 * a.sz), decide (old = l.cmp.toNat % 2 ^ (8 * a.sz)), 0)
  else
    let r := atomUpd a.op a.ty (BitVec.ofNat 32 old) (loW l.data)
    (r.1.toNat, true, r.2)

/-- What a remote home is asked to do for a lane. -/
def AtomCmd.request (a : AtomCmd) (l : Lane) : RAct :=
  if a.cas then .cas a.sz l.cmp l.data else .atomic a.op a.ty (loW l.data)

/-- One lane performed at a physical address; a poisoned old value has no stated value (log entry 18). -/
def State.atomAt (s : State) (op : Nat) (a : AtomCmd) (l : Lane) (pa : Nat) : State :=
  let (s, old) := s.homeVal pa a.sz
  let bad := s.poisoned pa a.sz
  let (x, wr, fl) := a.apply l old
  let s := if wr then s.homeWrite pa (natBytes a.sz x) else s
  let s := s.updOp op fun o => { o with flags := o.flags ||| fl }
  s.endLane op l.lane .done (BitVec.ofNat 64 old) (wr || !a.cas) bad

/-- Kind of an atomic for the vector-clock unit (R349). -/
def AtomCmd.raceKind (a : AtomCmd) : Nat := if a.ret || a.cas then 1 else 3

/-! ## Holding (R327) -/

/-- A kind-1 record of a lane (R198). -/
def State.atomFault (s : State) (o : Op) (l : Lane) (cause : Nat) : State :=
  match s.grp? o.gid with
  | none => s
  | some g =>
    s.postFault o.ctx
      { id := faultId g, cause := BitVec.ofNat 32 (0x100 + cause), va := BitVec.ofNat 64 l.va
        first := if l.lane < 32 then 1#32 <<< l.lane else 0, map := if l.lane < 32 then 0 else 1#32 <<< (l.lane - 32), pc := o.pc }

/-- A lane that its target refuses: nothing is performed, a record is posted, the lane is settled. -/
def State.atomRefused (s : State) (o : Op) (l : Lane) (cause : BitVec 8) : State :=
  (s.endLane o.id l.lane (.settled cause) 0 false false).atomFault o l 0x08

/-- Whether an earlier ordered atomic of the group, in any space, is still to be performed (R328). -/
def State.ordBlocked (s : State) (o : Op) (a : AtomCmd) : Bool :=
  a.ord && s.ops.any fun p => p.gid == o.gid && decide (p.id < o.id) && match p.cmd with
    | .atomic b => b.ord && p.lanes.any fun k => !k.st.ended
    | _ => false

/-- Whether a translated lane must wait for an earlier operation (R328). -/
def State.atomBlocked (s : State) (o : Op) (a : AtomCmd) (l : Lane) : Bool :=
  s.elemBlocked o l.va (s.laneLoc l) a.sz || s.ordBlocked o a

/-- A lane reaches its service group (R322, R327): its translation is kept, with what the window it leads through decides, or
the lane is held with a fault record. -/
def State.atomXlate (s : State) (o : Op) (l : Lane) : State :=
  match s.grp? o.gid with
  | none => s
  | some g =>
    match s.xlate g.core o.ctx l.va .write o.sup with
    | .bad c => (s.endLane o.id l.lane (.held (BitVec.ofNat 8 c)) 0 false false).atomFault o l c
    | .pa pa =>
      match s.viaOf pa o.cmd.size true with
      | some (.refused c) => s.atomRefused o { l with pa := pa } (BitVec.ofNat 8 c)
      | v => s.updOp o.id fun o => o.setLane l.lane fun l => { l with pa := pa, via := v, st := .pending }

/-- A pending lane of an external atomic is performed, or refused; through a window that leads back to this rank its lookup is
one turn and its performance another (R235). An answer for such a window says that the response limit passed: the access may
have been performed (R236). -/
def State.atomLane (s : State) (o : Op) (a : AtomCmd) (l : Lane) (far : Option LaneAns) : State :=
  let s1 := s.raceAt o.tid o.pc l.va true (s.laneLoc l) a.sz true a.raceKind
  match s.laneHome l a.sz true, far with
  | .far _, none => s
  | .own w off, none =>
    (match s.export_ w off a.sz .upd with
      | .pa p => s.updOp o.id fun o => o.setLane l.lane fun l => { l with via := some (.mem p) }
      | .bad k => s.atomRefused o l (BitVec.ofNat 8 k))
  | .far f, some ans =>
    let s1 := s1.sendFar f o.gid o.id l.lane (a.request l)
    if ans.ok then
      let s1 := s1.updOp o.id fun o =>
        { o with flags := o.flags ||| (if a.cas then (0 : BitVec 7) else (ans.data >>> 32).setWidth 7) }
      s1.endLane o.id l.lane .done (if a.sz = 8 then ans.data else (loW ans.data).setWidth 64)
        (!a.cas || decide (ans.data.toNat % 2 ^ (8 * a.sz) = l.cmp.toNat % 2 ^ (8 * a.sz))) ans.poison
    else s1.atomRefused o l ans.cause
  | h, _ =>
    match s.homePa h a.sz .upd with
    | some (.pa p) =>
      if l.via.isSome && far.isSome then
        (if (Config.freeWord s.free).getLsbD 0 then s1.atomAt o.id a l p else s1).draw.atomRefused o l noReply
      else s1.atomAt o.id a l p
    | some (.bad k) => s1.atomRefused o l (BitVec.ofNat 8 k)
    | none => s

/-- Whether a lane `x` of the instruction that has not ended goes to the location of its pending lane `l`: as translated, or for
a held lane as it would be now. -/
def State.sameSpot (s : State) (o : Op) (l x : Lane) : Bool :=
  match x.st with
  | .pending => s.laneLoc x == s.laneLoc l
  | .held _ | .retry => x.va == l.va || (match s.grp? o.gid with
      | some g => (match s.xlate g.core o.ctx x.va .write o.sup with | .pa p => s.loc p == s.laneLoc l | .bad _ => false)
      | none => false)
  | .done | .settled _ => false

/-- Lanes of an instruction to the location of lane `l`, ascending up to the first that is held: one access follows the other
with nothing in between (R324). A far home answers lane by lane. -/
def State.atomRun (s : State) (o : Op) (l : Lane) : List Lane :=
  match s.laneLoc l with
  | .far _ => [l]
  | .here _ => (o.lanes.filter (s.sameSpot o l)).takeWhile fun x => x.st == .pending

/-- Whether a lower lane of the instruction has still to reach the same location (R324). -/
def State.lowerLane (s : State) (o : Op) (l : Lane) : Bool :=
  o.lanes.any fun x => decide (x.lane < l.lane) && s.sameSpot o l x

/-- Pending lanes are performed one after another. -/
def State.atomLanes (s : State) (op : Nat) (a : AtomCmd) (ls : List Lane) (far : Option LaneAns) : State :=
  ls.foldl (fun s l => match s.op? op with | some o => s.atomLane o a l far | none => s) s

/-- Whether a lane has still to be looked up at this rank's export. -/
def State.unlooked (s : State) (a : AtomCmd) (l : Lane) : Bool := (s.laneHome l a.sz true).isOwn

/-- Lanes of a run that go on together: those to be looked up first, then all of them. -/
def State.atomNext (s : State) (a : AtomCmd) (run : List Lane) : List Lane :=
  if run.any (s.unlooked a) then run.filter (s.unlooked a) else run

/-- Lanes of a deterministic grid's atomic are captured together (R345). -/
def State.captureLanes (s : State) (o : Op) (a : AtomCmd) (ls : List Lane) : State :=
  if ls.isEmpty then s
  else
    let s := ls.foldl (fun s l => s.raceAt o.tid o.pc l.va true (s.laneLoc l) a.sz true a.raceKind) s
    ls.foldl (fun s l => s.endLane o.id l.lane .done 0 true false) (s.stage { o with lanes := ls } [])

/-- `ATOMIC_PERFORMED` (R323, R324, R327, R328): the lane, with every pending lane of its instruction to the same location; in a
deterministic grid they are captured (R345). -/
def execAtomicPerformed (op lane : Nat) (far : Option LaneAns) (s : State) : Res :=
  .next (match s.op? op with
    | none => s
    | some o =>
      match o.cmd, o.lane? lane with
      | .atomic a, some l =>
        if o.st != .active || a.loc.isSome || l.st != .pending || s.atomBlocked o a l || s.lowerLane o l then s
        else if s.isDet o.tid then s.captureLanes o a (s.atomRun o l)
        else s.atomLanes op a (s.atomNext a (s.atomRun o l)) far
      | _, _ => s)

/-- `ATOMIC_RETRY` (R201, R327): a held lane is translated again after a `VINV` that covers its page, and with it the lanes of
its instruction that were held at the same address. -/
def execAtomicRetry (op lane : Nat) (s : State) : Res :=
  .next (match s.op? op with
    | none => s
    | some o =>
      match o.cmd, o.lane? lane with
      | .atomic a, some l =>
        if o.st != .active || a.loc.isSome || l.st != .retry then s
        else (o.lanes.filter fun x => x.st == .retry && x.va == l.va).foldl (fun s x => s.atomXlate o x) s
      | _, _ => s)

/-- Old values, outcome bits and flags reach the group; path A falls (R323, R326). -/
def State.atomEnd (s : State) (o : Op) (a : AtomCmd) : State :=
  let s := if o.suppressed then s
    else s.landed o.gid o.id (fun g => g.putLanes a.hi (o.results hiW) o.tag) o.tag
  let ok := o.okMask fun l => l.ok
  (s.complete o (if a.ret then o.results loW else []) (if a.cas then o.exec else 0) ok).deferTraps o
    [if a.ret || a.cas then o.poisonTrap a.len else none]

/-- `ATOMIC_COMPLETE` (R323). -/
def execAtomicComplete (op : Nat) (s : State) : Res :=
  .next (match s.op? op with
    | none => s
    | some o =>
      match o.cmd with
      | .atomic a => if o.st != .active || a.loc.isSome || !o.lanesEnded then s else s.atomEnd o a
      | _ => s)

/-! ## Issue (R320, R322, R325) -/

/-- The lanes of a deterministic grid's atomic that nothing holds up are captured at once (R345). -/
def State.captureAtomic (s : State) (op : Nat) (a : AtomCmd) : State :=
  match s.op? op with
  | none => s
  | some o =>
    let free := fun (l : Lane) => l.st == .pending && !s.atomBlocked o a l
      && !o.lanes.any fun x => decide (x.lane < l.lane) && x.st != .pending && s.sameSpot o l x
    let s := s.captureLanes o a (o.lanes.filter free)
    match s.op? op with
    | some x => if x.lanesEnded then s.atomEnd x a else s
    | none => s

/-- An external atomic acts: its lanes translate (R322); a deterministic grid captures them (R345). -/
def beginAtomic (s : State) (o : Op) : State :=
  match o.cmd with
  | .atomic a =>
    let s := s.updOp o.id fun o => { o with st := .active }
    let s := o.lanes.foldl (fun s l => s.atomXlate o l) s
    if s.isDet o.tid then s.captureAtomic o.id a else s
  | _ => s

/-- Lanes of an external atomic that a window refuses (R322 check 5). -/
def State.atomWindow (s : State) (g : Group) (ls : List (Nat × Nat)) (sz : Nat) : Mask :=
  lanesWhere ls fun a => match s.xlate g.core (s.ctxOfG g) a .write g.sup with
    | .pa p => match s.home p sz true with | .refused _ => true | _ => false
    | .bad _ => false

/-- Low and high destination registers of `ACAS`. -/
def acasDst (d : AcasDst) : Dst × Dst :=
  match d with
  | .one x => (x, .none)
  | .pairS r => (.s r, .s (r + 1))
  | .pairV r => (.v r, .v (r + 1))
  | .none64 => (.none, .none)

/-- The mask that an atomic brings into its group from the lines it reads (R289): none where it writes no register and no
predicate, as `ARED` and an `ATOM` to `_` do. -/
def Op.brought (o : Op) (lt : Tags) : Tags := if o.wregs.isEmpty then 0 else lt

/-- An atomic on X or W: on its way to the buffer's ALU (R329). One that carries `.ord` is not ready while an earlier ordered
atomic of the group is outstanding (R328; log entry 85). -/
def atomLocal (c : IC) (s : State) (t : Team) (b : Buf) (base off : Opnd) (o : Op) (a : AtomCmd) : Act :=
  let ls := c.locAddrs base off
  let bad := maskOf 64 fun i => ls.any fun x => x.1 == i && x.2 % a.sz != 0
  if bad != 0 then .trap 2 0x11 bad (locWords ls bad) 0
  else match locCheck t b a.sz ls with
    | some (cls, sub, m) => .trap cls sub m (locWords ls m) 0
    | none =>
      let lines := (ls.flatMap fun x => unitsOf 64 x.2.toNat a.sz).eraseDups
      let lt := ls.foldl (fun m x => m ||| t.rangeTag b x.2.toNat a.sz) 0
      let tag := c.t ||| lt
      if (tag != 0 && !s.undoRoom t ((lines.filter (t.needLine b tag)).length)) || s.ordBlocked o a then .wait
      else
        let s := s.raceTick t.tid
        let lanes := ls.map fun x =>
          match o.lane? x.1 with | some l => { l with va := x.2.toNat } | none => lane0 x.1 x.2.toNat 0 0
        let o := { o with cmd := .atomic a, lanes := lanes, tag := tag }
        let acc : LAcc :=
          { id := s.nextId + 1, due := s.cycleOf c.g + latency b, gid := c.g.gid, tid := c.g.tid, core := c.g.core
            sub := c.g.num % 4, buf := b, store := true, ty := .n32, atom := some o.id
            lanes := ls.map fun x => (x.1, x.2.toNat, 0), dst := .none, chain := none, tag := tag, pre := c.pre
            suppressed := false }
        let g := (c.g.upFor o).bring c.pre (o.brought lt)
        let s := ((s.fresh.fresh).setG g).addOp o
        .go { s with lacc := s.lacc ++ [acc] } none none

/-- An atomic on external memory, at issue (R322). -/
def atomExt (c : IC) (s : State) (t : Team) (ls : List (Nat × Nat)) (o : Op) (a : AtomCmd) : Act :=
  match addrCheck ls a.sz with
  | some x => x
  | none =>
    let m := s.atomWindow c.g ls a.sz
    if m != 0 then laneTrap 8 0x08 ls m
    else if t.det && (a.ret || a.cas) then .trp 2 0x2A c.lanes
    else if s.stageFull t.tid (16 * ls.length) then .trp 2 0x2B c.lanes
    else
      let s := s.raceTick t.tid
      c.submit s c.g o 0 beginAtomic

/-- `ATOM`, `ACAS` and `ARED`: `data` and `cmp` answer a lane's operands. -/
def atomOp (i : Instr) (d hi : Dst) (p : CmpDst) (base : ABase) (off : Opnd) (a : AtomCmd)
    (data cmp : Group → Nat → DWord) (s : State) : State :=
  issue i (fun s c =>
    match s.team? c.g.tid with
    | none => c.skip s
    | some t =>
      if !c.ug then c.noop s
      else
        let a := { a with hi := hi }
        let mk := fun (ls : List (Nat × Nat)) =>
          { c.mkOp s (.atomic a) with
            lanes := ls.map fun x => lane0 x.1 x.2 (data c.g x.1) (cmp c.g x.1)
            dst := d, wregs := rDst d ++ rDst hi ++ rCmp p, p := p }
        match base with
        | .ext q =>
          let ls := c.evalLanes.map fun i => (i, (c.g.pairS q.toNat).toNat + (c.g.opnd off i).toNat)
          atomExt c s t ls (mk ls) a
        | .loc b base =>
          atomLocal c s t b base off (mk (c.evalLanes.map fun i => (i, 0))) { a with loc := some b }) s

/-- The fields of an `ATOM` or `ARED`. -/
def atomCmd (op : AOp) (ty : ATy) (ord ret : Bool) : AtomCmd := ⟨op, ty, false, 4, none, ord, ret, .none, 12⟩

/-- A value operand of 32 bits, and of 64 for a pair. -/
def val32 (o : Opnd) (g : Group) (i : Nat) : DWord := (g.opnd o i).setWidth 64
def val64 (o : Opnd) (g : Group) (i : Nat) : DWord :=
  match o with
  | .s n => g.pairS n.toNat
  | .v n => pairOf (g.rdV n.toNat i) (g.rdV (n.toNat + 1) i)
  | .imm x => x.signExtend 64
  | .l _ => (g.opnd o i).setWidth 64

/-- Whether a destination is written. -/
def Dst.some_ (d : Dst) : Bool := match d with | .none => false | _ => true

def execAtom (h : Hdr) (d : Dst) (op : AOp) (ty : ATy) (base : ABase) (off : Opnd) (scope : Scope) (val : Opnd) (ord : Bool)
    (s : State) : Res :=
  .next (atomOp (.atom h d op ty base off scope val ord) d .none ⟨0, 0⟩ base off
    (atomCmd op ty ord (Dst.some_ d)) (val32 val) (fun _ _ => 0) s)
def execAred (h : Hdr) (op : AOp) (ty : ATy) (base : ABase) (off : Opnd) (scope : Scope) (val : Opnd) (ord : Bool)
    (s : State) : Res :=
  .next (atomOp (.ared h op ty base off scope val ord) .none .none ⟨0, 0⟩ base off
    (atomCmd op ty ord false) (val32 val) (fun _ _ => 0) s)
def execAcas (h : Hdr) (d : AcasDst) (base : ABase) (off : Opnd) (cmp new : Opnd) (p : CmpDst) (scope : Scope) (ord : Bool)
    (s : State) : Res :=
  let b64 := match d with | .one _ => false | _ => true
  .next (atomOp (.acas h d base off cmp new p scope ord) (acasDst d).1 (acasDst d).2 p base off
    ⟨.exch, .n32, true, if b64 then 8 else 4, none, ord, Dst.some_ (acasDst d).1, .none, 16⟩
    (if b64 then val64 new else val32 new) (if b64 then val64 cmp else val32 cmp) s)

/-! ## Local accesses performed (R133, R329) -/

/-- The lanes of a local atomic, ascending: the team, and the operation with its results. -/
def runAtom (b : Buf) (a : AtomCmd) (tag : Tags) : List Lane → Team → Nat → Team × List Lane × BitVec 7 × Nat
  | [], t, free => (t, [], 0, free)
  | l :: ls, t, free =>
    let bad := t.poisoned b l.va a.sz
    let old := if bad then (Config.freeWord free).toNat % 2 ^ (8 * a.sz) else leNat (t.rdBytes b l.va a.sz)
    let (x, wr, fl) := a.apply l old
    let t := if wr then t.store b l.va (natBytes a.sz x) tag else t
    let (t, rs, fl', free) := runAtom b a tag ls t (if bad then free + 1 else free)
    (t, { l with st := .done, res := BitVec.ofNat 64 old, ok := wr || !a.cas, poison := bad } :: rs, fl ||| fl', free)

/-- A local atomic is performed and completes. -/
def State.runLocalAtom (s : State) (x : LAcc) (id : Nat) : State :=
  match s.op? id with
  | none => s
  | some o =>
    match o.cmd, s.team? x.tid with
    | .atomic a, some t =>
      if x.suppressed then s.atomEnd { o with suppressed := true } a
      else
        let lt := x.lanes.foldl (fun m y => m ||| t.rangeTag x.buf y.2.1 a.sz) 0
        let tag := x.tag ||| lt
        let (t', ls, fl, free) := runAtom x.buf a tag o.lanes t s.free
        let s := { (s.updT x.tid fun _ => t') with free := free }
        let s := s.updG x.gid fun g => if o.suppressed then g else g.bringLate x.pre (o.brought lt)
        s.atomEnd { o with lanes := ls, tag := tag, flags := fl } a
    | _, _ => s

/-- `LOCAL_ACCESS_PERFORMED` (R133): the access of a core whose instant comes first. -/
def execLocalAccessPerformed (core : Nat) (s : State) : Res :=
  .next (match firstLacc core s.lacc with
    | none => s
    | some a =>
      if sget 0 s.cycles (a.core * 4 + a.sub) < a.due then s
      else
        let s := { s with lacc := s.lacc.filter fun x => x.id != a.id }
        match a.atom with
        | some id => s.runLocalAtom a id
        | none => runLacc a s)

/-! ## Fences (R316-R318) -/

/-- Whether every named path counter of a group is 0. -/
def Group.drained (g : Group) (ps : List Path) : Bool := ps.all fun p => g.pathCount p == 0

/-- The condition a fence waits for (R317). -/
def State.fenceMet (s : State) (g : Group) (kind : FenceKind) (scope : Scope) : Bool :=
  let loc := !(s.lacc.any fun a => a.gid == g.gid)
  match scope with
  | .grp | .team => loc
  | .clu => loc && g.drained [.G]
  | .dev | .sys =>
    loc && g.drained [.G, .A, .F, .S] && (match kind with | .acq => true | _ => g.drained [.C])

def execFence (h : Hdr) (kind : FenceKind) (scope : Scope) (s : State) : Res :=
  .next (issue (.fence h kind scope) (fun s c =>
    if !c.ug then c.skip s
    else if !s.fenceMet c.g kind scope then .wait
    else .go (s.raceTick c.g.tid) none none) s)

/-- `FENCE.code` (R318): the core's instruction cache is discarded. -/
def execFenceCode (h : Hdr) (s : State) : Res :=
  .next (issue (.fenceCode h) (fun s c =>
    if !c.ug then c.skip s
    else if !s.fenceMet c.g .rel .dev then .wait
    else
      let s := s.raceTick c.g.tid
      let s : State := { s with icache := s.icache.filter fun l => l.core != c.g.core }
      c.goG s { c.g with codeAt := s.free }) s)

/-! ## The race log (R351) -/

def execRaceqHead (h : Hdr) (d : Dst) (s : State) : Res :=
  .next (issue (.raceqHead h d) (fun s c =>
    if !c.ug then c.skip s
    else c.put s d 0 fun _ => match s.ctx? (s.ctxOfG c.g) with | some x => x.raceCount | none => 0) s)

def execRaceqBase (h : Hdr) (a : SReg) (s : State) : Res :=
  .next (issue (.raceqBase h a) (fun s c =>
    let va := c.g.pairS a.toNat
    if !c.ug then c.skip s
    else if va.toNat % 4096 != 0 then .trpA 2 0x11 va.toNat
    else if 2 ^ 54 ≤ va.toNat then .trpA 8 0x05 va.toNat
    else .go (s.updC (s.ctxOfG c.g) fun x => { x with raceBase := va, raceCount := 0 }) none none) s)

end Sys2Proof.Machine
end

