-- ==== Sys2Proof/Machine/Mailbox.lean ====
section
/-! DEFINITION. Mailboxes: `MBREG`, `MSEND`, `MRECV` and the delivery of messages (R246-R250, R299, R300). -/

namespace Sys2Proof.Machine

/-! ## Delivery (R246, R247, R300) -/

def Mbox.zero : Mbox := ⟨.closed, []⟩
def Ctx.mboxAt (c : Ctx) (n : Nat) : Mbox := sget Mbox.zero c.mbox n
def Ctx.setMbox (c : Ctx) (n : Nat) (m : Mbox) : Ctx := { c with mbox := sset Mbox.zero c.mbox n m }

/-- Messages that a context's open and closed queues hold. -/
def Ctx.queued (c : Ctx) : Nat := (c.mbox.map fun m => m.2.queue.length).foldl (· + ·) 0
/-- Messages that they may hold. -/
def queueMax : Nat := 1024

/-- Words padded with zeros to `n`. -/
def padTo (n : Nat) (ws : List Word) : List Word := ws ++ List.replicate (n - ws.length) 0

/-- s0 … s17 of a launched handler (R247). -/
def msgRegs (m : Msg) : List Word := padTo 16 m.words ++ [BitVec.ofNat 32 m.words.length, m.sender]

/-- The team that a message launches at a bound mailbox. -/
def msgPend (m : Msg) (b : Binding) (aids : List Word) : PendTeam := ⟨.mailbox, b, msgRegs m, none, aids, none⟩

/-- What becomes of an arriving message: delivered (dropped by a denial counts so), refused, or held at its sender. -/
inductive Delivery where
  | done (s : State)
  | refused (cause : Nat)
  | held

/-- A message reaches a mailbox of this rank. Its AIDs are examined before the mailbox's state (R246, R300; log entry 116). -/
def State.deliver (s : State) (m : Msg) : Delivery :=
  match s.ctx? m.ctx with
  | none => .refused 0x08
  | some c =>
    let s := s.askAids m.aids
    match s.examine m.aids with
    | none => .done s
    | some aids =>
      let x := c.mboxAt m.mbx
      match x.st with
      | .closed => .refused 0x07
      | .bound b => .done (s.addPend m.ctx (msgPend m b aids))
      | .opened =>
        if queueMax ≤ c.queued then .held
        else .done (s.updC m.ctx fun c => c.setMbox m.mbx { x with queue := x.queue ++ [{ m with aids := aids }] })

/-- Status of an operation that its target has accepted; a refusal is 2 and the cause. -/
def accepted : Nat := 1
def refusedBy (cause : Nat) : Nat := 2 + cause

/-- `MESSAGE_ARRIVAL` (R246): a message of this rank's operation `op`, or one from another rank, which waits for what its source
issued before it (R244). A message posted by an engine is discarded where it is refused. -/
def execMessageArrival (m : Msg) (op : Nat) (s : State) : Res :=
  .next (
    if m.src != s.rank then
      if !s.mgmt.booted || s.past m.src false m.grp op || s.foreignDue m.src m.grp op then s
      else match s.deliver m with
        | .done s => (s.hear m.src false m.grp op).emit (.resp m.src op (yesAns 0 0))
        | .refused c => (s.hear m.src false m.grp op).emit (.resp m.src op (noAns 0 c))
        | .held => s
    else match s.op? op with
    | none => s
    | some o =>
      match o.cmd with
      | .msend r m' =>
        if r != s.rank || o.st != .active || o.status != 0 || s.srcBlocked o || s.postBlocked o then s
        else
          let fin := fun (s : State) (st : Nat) =>
            if o.path.isNone then s.dropOp op else s.updOp op fun o => { o with status := st }
          match s.deliver m' with
          | .done s => fin s accepted
          | .refused c => fin s (refusedBy c)
          | .held => s
      | _ => s)

/-! ## `MSEND` (R249) -/

/-- AIDs that a message may carry (R299). -/
def aidMax : Nat := 4

/-- Whether a message to this rank would be held for want of a place (R18, R246). -/
def State.noPlace (s : State) (rank : Nat) (m : Msg) : Bool :=
  rank == s.rank && match s.deliver m with | .held => true | _ => false

/-- `MSEND` (R249): not ready while its mailbox, at this rank, is full (R18; log entry 106). -/
def execMsend (h : Hdr) (p : CmpDst) (w : SReg) (rank mbx : Opnd) (n1 : BitVec 4) (s : State) : Res :=
  .next (issue (.msend h p w rank mbx n1) (fun s c =>
    match s.team? c.g.tid with
    | none => c.skip s
    | some t =>
      let n := n1.toNat + 1
      let aids := t.aidsIn c.t
      if !c.ug then c.noop s
      else if c.g.sregs ≤ w.toNat + n - 1 then .trpU 2 0x01
      else if 1024 ≤ c.u rank then .trpU 2 0x20
      else if 4096 ≤ c.u mbx then .trpU 2 0x21
      else if aidMax < aids.length then .wait
      else
        let m : Msg :=
          { ctx := t.ctx, mbx := c.u mbx, words := (List.range n).map fun i => c.g.rdS (w.toNat + i)
            sender := BitVec.ofNat 32 s.rank, aids := aids, src := s.rank, grp := c.g.gid }
        let o := { c.mkOp s (.msend (c.u rank) m) with p := p, wregs := rCmp p }
        if s.noPlace (c.u rank) m then .wait
        else c.launch s c.g o fun s _ => if c.u rank = s.rank then s else s.emit (.msg (c.u rank) m)) s)

/-- Whether an answer says that the response limit passed (R236). -/
def lateAns (far : Option LaneAns) : Bool := match far with | some a => !a.ok && a.cause == noReply | none => false

/-- `MSEND_COMPLETE` (R249): the target has queued, launched or refused; `far` is a far target's answer, or says that the
response limit passed (R236), which it does not for a message held at its sender (R246; log entry 106). -/
def execMsendComplete (op : Nat) (far : Option LaneAns) (s : State) : Res :=
  .next (match s.op? op with
    | none => s
    | some o =>
      match o.cmd with
      | .msend r m =>
        if o.st != .active || o.path.isNone || s.endBlocked o then s
        else if r = s.rank then
          if lateAns far then if o.status = 0 && s.noPlace r m then s else s.completeOk o false
          else if o.status = 0 then s
          else s.completeOk o (o.status == accepted)
        else match far with
          | some a => s.completeOk o a.ok
          | none => s
      | _ => s)

/-! ## `MRECV` (R250, R300) -/

/-- What a taker finds: nothing, a message it cannot bind yet, or a message bound with its mask. -/
inductive Taken where
  | empty (s : State)
  | stuck
  | msg (s : State) (m : Msg) (tag : Tags)

/-- Takes the oldest message that no denial drops. -/
def takeMsg (ctx mbx tid : Nat) : List Msg → State → Taken
  | [], s => .empty s
  | m :: ms, s =>
    let s' := s.updC ctx fun c => c.setMbox mbx { c.mboxAt mbx with queue := ms }
    match s.examine m.aids with
    | none => takeMsg ctx mbx tid ms s'
    | some aids =>
      match s'.bindAids tid aids with
      | none => .stuck
      | some (s'', tag) => .msg s'' { m with aids := aids } tag

/-- The queue of a mailbox. -/
def State.mboxOf (s : State) (ctx mbx : Nat) : Mbox :=
  match s.ctx? ctx with | some c => c.mboxAt mbx | none => Mbox.zero

/-- A message's words enter a group: its snapshots are taken first. The message is remembered while the group holds a snapshot, or may
still take one of an earlier point (R304 step 5). -/
def State.receive (s : State) (g : Group) (pre : Snapshot) (p : CmpDst) (d : Nat) (m : Msg) (t tag : Tags) : State :=
  let g := g.bring pre tag
  let g := (wrSs g d (msgRegs m) (t ||| tag)).okPred p true t
  let s := s.setG g
  if g.dep = 0 && (s.lateSnaps g.gid).isEmpty then s
  else (s.updT g.tid fun x => { x with taken := x.taken ++ [(g.gid, s.nextId, m)] }).fresh

def execMrecv (h : Hdr) (wait : Bool) (p : CmpDst) (d : SReg) (mbx : Opnd) (s : State) : Res :=
  .next (issue (.mrecv h wait p d mbx) (fun s c =>
    let ctx := s.ctxOfG c.g
    if !c.ug then c.skip s
    else if c.g.sregs ≤ d.toNat + 17 then .trpU 2 0x01
    else if 4096 ≤ c.u mbx then .trpU 2 0x21
    else
      let x := s.mboxOf ctx (c.u mbx)
      match takeMsg ctx (c.u mbx) c.g.tid x.queue s with
      | .stuck => .wait
      | .msg s m tag => .go (s.receive c.g c.pre p d.toNat m c.t tag) none none
      | .empty s =>
        if wait && x.st == .opened then c.goG s { c.g with park := some (.mrecv p d (c.u mbx) c.g.pc c.t) }
        else c.goG s (c.g.okPred p false c.t)) s)

/-- `MRECV_WAKE` (R250): the queue is non-empty, or the mailbox has left the open state. -/
def execMrecvWake (gid : Nat) (s : State) : Res :=
  .next (match s.grp? gid with
    | none => s
    | some g =>
      match g.park with
      | some (.mrecv p d mbx pc t) =>
        let ctx := s.ctxOfG g
        let x := s.mboxOf ctx mbx
        let g' := { g with park := none }
        match takeMsg ctx mbx g.tid x.queue s with
        | .stuck => s
        | .msg s m tag => s.receive g' { g.snap 0 .other s.nextId with pc := pc } p d.toNat m t tag
        | .empty s => if x.st == .opened then s else s.setG (g'.okPred p false t)
      | _ => s)

/-! ## `MBREG` (R248) -/

/-- The binding that `MBREG.bind` makes. -/
def bindingOf (f : BindF) (entry : DWord) : Binding where
  entry := entry
  width := 8 * 2 ^ f.width.toNat
  vregs := f.vregs1.toNat + 1
  sregs := f.sregs1.toNat + 1
  xbytes := 4096 * f.xtiles.toNat
  wbytes := 4096 * f.wtiles.toNat
  barriers := f.barriers.toNat
  sup := f.sup

/-- `MBREG` acts: what 0 binds, 1 opens, 2 closes. -/
def actMbreg (s : State) (ctx mbx what : Nat) (entry : DWord) (f : BindF) : State :=
  match what with
  | 0 =>
    let b := bindingOf f entry
    let q := (s.mboxOf ctx mbx).queue
    let s := s.updC ctx fun c => c.setMbox mbx ⟨.bound b, []⟩
    q.foldl (fun s m =>
      match s.examine m.aids with
      | none => s
      | some aids => s.addPend ctx (msgPend m b aids)) s
  | 1 => s.updC ctx fun c => c.setMbox mbx { c.mboxAt mbx with st := .opened }
  | _ => s.updC ctx fun c => c.setMbox mbx { c.mboxAt mbx with st := .closed }

def beginMbreg (s : State) (o : Op) : State :=
  match o.cmd with
  | .mbreg mbx what entry f => (actMbreg s o.ctx mbx what entry f).dropOp o.id
  | _ => s

/-- The checks of `MBREG.bind` after the mailbox number (R248). -/
def bindCheck (c : IC) (entry : DWord) (f : BindF) : Option Act :=
  if f.sup && !c.g.sup then some (.trpU 1 0x01)
  else if f.sregs1.toNat + 1 < 18 || 512 < f.xtiles.toNat || 1024 < f.wtiles.toNat || 16 < f.barriers.toNat
      || badTarget entry then some (.trpU 2 0x22)
  else if 2 ^ 54 ≤ entry.toNat then some (.trpA 8 0x05 entry.toNat)
  else none

/-- The fields that `.open` and `.close` do not use. -/
def noBind : BindF := ⟨0, 0, 0, 0, 0, 0, false⟩

def mbregOp (i : Instr) (mbx : Opnd) (what : Nat) (entry : IC → DWord) (f : BindF) (s : State) : State :=
  issue i (fun s c =>
    if !c.ug then c.skip s
    else if 4096 ≤ c.u mbx then .trpU 2 0x21
    else match (if what = 0 then bindCheck c (entry c) f else none) with
      | some a => a
      | none => c.submit s c.g (c.mkOp s (.mbreg (c.u mbx) what (entry c) f)) 0 beginMbreg) s

def execMbregBind (h : Hdr) (mbx : Opnd) (entry : SReg) (f : BindF) (s : State) : Res :=
  .next (mbregOp (.mbregBind h mbx entry f) mbx 0 (fun c => c.g.pairS entry.toNat) f s)
def execMbregOpen (h : Hdr) (mbx : Opnd) (s : State) : Res :=
  .next (mbregOp (.mbregOpen h mbx) mbx 1 (fun _ => 0) noBind s)
def execMbregClose (h : Hdr) (mbx : Opnd) (s : State) : Res :=
  .next (mbregOp (.mbregClose h mbx) mbx 2 (fun _ => 0) noBind s)

end Sys2Proof.Machine
end

