-- ==== Sys2Proof/Machine/Handles.lean ====
section
/-! DEFINITION. Handles, invocations, forwarding and continuations (R354-R364). -/

namespace Sys2Proof.Machine

/-! ## Handles (R354, R355) -/

def hHome (h : DWord) : Nat := fld h.toNat 0 10
def hIndex (h : DWord) : Nat := fld h.toNat 10 16
def hGen (h : DWord) : Nat := fld h.toNat 26 14
def hKind (h : DWord) : Nat := fld h.toNat 40 4
def handleOf (rank index gen kind : Nat) : DWord :=
  BitVec.ofNat 64 (rank + index * 2 ^ 10 + gen * 2 ^ 26 + kind * 2 ^ 40)

/-- Whether a pair names a handle at all. -/
def isHandle (h : DWord) : Bool := 1 ≤ hKind h && hKind h ≤ 3 && hGen h != 0 && fld h.toNat 44 20 == 0
/-- Whether two pairs name one entry at one generation. -/
def sameEntry (a b : DWord) : Bool := hHome a == hHome b && hIndex a == hIndex b && hGen a == hGen b

/-- A handle entry at boot. -/
def HEntry.zero : HEntry := ⟨0, .free, 0, 0, 0, [], [], 0, false, [], false⟩
def State.hent (s : State) (i : Nat) : HEntry := sget HEntry.zero s.handles i
def State.setHent (s : State) (i : Nat) (e : HEntry) : State := { s with handles := sset HEntry.zero s.handles i e }

/-- The entry that a handle names at this home, for a context; none where the handle is stale. -/
def State.hLive (s : State) (h : DWord) (ctx : Nat) : Option HEntry :=
  let e := s.hent (hIndex h)
  if isHandle h && hHome h == s.rank && e.gen == hGen h && e.st != .free && e.ctx == ctx && !e.dropped then some e else none

/-- A rank that no entry names. -/
def noRank : Nat := 1024

/-- Mints a handle: the lowest free entry, its generation raised (R355). -/
def State.mintHandle (s : State) (ctx kind loc : Nat) : Option (State × DWord) :=
  match (List.range 65536).find? fun i => (s.hent i).st == .free with
  | none => none
  | some i =>
    let g := if (s.hent i).gen = 16383 then 1 else (s.hent i).gen + 1
    some (s.setHent i ⟨g, .pending, BitVec.ofNat 4 kind, ctx, 0, [], [], loc, false, [], false⟩, handleOf s.rank i g kind)

/-- The answer of an entry. -/
def HEntry.ans (e : HEntry) : HomeAns :=
  match e.st with
  | .free => ⟨0, 0x15, 0, [], []⟩
  | .pending => ⟨1, 0, e.kind, [], []⟩
  | .resolved => ⟨2, 0, e.kind, e.words, e.elems⟩
  | .broken => ⟨3, e.cause, e.kind, [], []⟩

/-- The answer to a stale handle, and to a waiter whose home does not answer (R361). -/
def staleAns : HomeAns := ⟨0, 0x15, 0, [], []⟩
def silentAns : HomeAns := ⟨3, 0x05, 0, [], []⟩

/-- What this home answers. -/
def State.askHome (s : State) (h : DWord) (ctx : Nat) : HomeAns :=
  match s.hLive h ctx with | some e => e.ans | none => staleAns

/-- The actual value of R292, and whether the assumption is denied whatever its presumed value. -/
def actualOf (a : HomeAns) (w : Nat) : Word × Bool :=
  if a.state != 2 then (0, true)
  else if a.kind = 2 then
    if a.words.getD 0 0 = 0 then (a.elems.getD w 0, false) else (0, true)
  else (a.words.getD w 0, false)

/-! ## Waiters (R359, R361) -/

/-- A waiter in `HWAIT` is released (R361). -/
def State.releaseWait (s : State) (g : Group) (form : HWForm) (p : CmpDst) (pc : DWord) (tag : Tags) (a : HomeAns) : State :=
  let ok := a.state == 2
  let g := { g with park := none }
  if form = .trap && !ok then s.syncTrap { g with pc := pc } ⟨10, a.cause.toNat, 1, pc, [], 0, 0, 8⟩
  else s.setG (g.okPred p ok tag)

/-- A `GUESS` that waited for its handle continues with the actual value (R291). -/
def Group.guessed (g : Group) (d i : SReg) (w : Nat) (a : HomeAns) : Group :=
  { (g.wrS d.toNat (actualOf a w).1 g.ctl).wrS i.toNat noAid g.ctl with park := none }

/-- A waiter on a handle of this home, served. -/
def State.serve (s : State) (h : DWord) (a : HomeAns) (g : Group) : State :=
  match g.park with
  | some (.hwait _ form p hnd pc tag) => if sameEntry hnd h then s.releaseWait g form p pc tag a else s
  | some (.guess _ _ d i hnd w _ _ _) => if sameEntry hnd h then s.setG (g.guessed d i w a) else s
  | _ => s

/-- A continuation record becomes runnable. -/
def contDone (h : DWord) (ok : Bool) (c : Ctx) : Ctx :=
  { c with conts := c.conts.map fun r =>
      if sameEntry r.handle h && r.outcome.isNone then { r with outcome := some ok } else r }

/-- Nougat's home entries take note of how a handle ended (R292). -/
def noteHandle (h : DWord) (a : HomeAns) (x : Nat × NEntry) : Nat × NEntry :=
  if x.2.st == .live && !x.2.kindN && sameEntry x.2.handle h && x.2.ans.isNone then (x.1, { x.2 with ans := some a }) else x

/-- A dropped entry that has settled and served its waiters is freed (R364). -/
def HEntry.reap (e : HEntry) : HEntry :=
  if e.dropped && (e.st == .resolved || e.st == .broken) && e.fwd.isEmpty then { e with st := .free } else e

/-- Everyone who waits for a handle learns how it ended: parked groups, continuation records, assumptions (R359). -/
def State.announce (s : State) (h : DWord) (a : HomeAns) : State :=
  let s := s.groups.foldl (fun s g => match s.grp? g.gid with | some g => s.serve h a g | none => s) s
  { s with
    ctxs := s.ctxs.map (contDone h (a.state == 2))
    homes := s.homes.map (noteHandle h a) }

/-- A pending entry of this home resolves or breaks. -/
def State.settleHandle (s : State) (h : DWord) (st : HSt) (cause : BitVec 8) (words elems : List Word) (loc : Nat) : State :=
  let i := hIndex h
  let e := s.hent i
  if e.gen != hGen h || e.st != .pending then s
  else
    let e := { e with st := st, cause := cause, words := words, elems := elems, loc := loc }
    ((s.setHent i e).announce h e.ans).setHent i e.reap

/-- Breaks a handle, wherever its home is; a message without one has none to break. -/
def State.breakHandle (s : State) (h : DWord) (cause : Nat) : State :=
  if h = 0 then s
  else if hHome h = s.rank then s.settleHandle h .broken (BitVec.ofNat 8 cause) [] [] noRank
  else s.emit (.invEnd (hHome h) h (.broken (BitVec.ofNat 8 cause)))

/-- A pending entry of this home is freed without resolving (R359). -/
def State.freeHandle (s : State) (h : DWord) : State :=
  let e := s.hent (hIndex h)
  if e.gen == hGen h && e.st == .pending then s.setHent (hIndex h) { e with st := .free, fwd := [], fwdBusy := false } else s

/-- The entry of an invocation whose message or team a denial removes is freed, wherever its home is (R359). -/
def State.freeInv (s : State) (h : DWord) : State :=
  if h = 0 then s
  else if hHome h = s.rank then s.freeHandle h
  else s.emit (.invEnd (hHome h) h .freed)

/-! ## Invocations at their target (R359) -/

/-- Registers of an invocation team: words, count, sender word of kind 11, and the upstream handle. -/
def invRegs (m : InvMsg) (sregs : Nat) : List Word :=
  padTo 16 m.words ++ [BitVec.ofNat 32 m.words.length, BitVec.ofNat 32 (m.src % 1024 + 3 * 2 ^ 30)]
    ++ (if 20 ≤ sregs then [loW m.upstream, hiW m.upstream] else [])

/-- An invocation reaches a mailbox of this rank; a message that a denial drops counts as delivered (R300). -/
def State.acceptInv (s : State) (m : InvMsg) : State ⊕ Nat :=
  match s.ctx? m.ctx with
  | none => .inr 0x08
  | some c =>
    match (c.mboxAt m.mbx).st with
    | .bound b =>
      let s := s.askAids m.aids
      match s.examine m.aids with
      | none => .inl (s.freeInv m.handle)
      | some aids => .inl (s.addPend m.ctx ⟨.invocation m.handle m.src m.upstream, b, invRegs m b.sregs, m.core, aids, none⟩)
    | _ => .inr 0x07

/-- Whether an earlier invocation or drop of the same group still travels to this rank (R244, R364). -/
def State.invBlocked (s : State) (o : Op) : Bool :=
  s.ops.any fun p => p.gid == o.gid && decide (p.id < o.id) && p.st == .active && match p.cmd with
    | .invoke r _ => r == s.rank && p.status == 0
    | .invh m => hHome m.upstream == s.rank && p.status == 0
    | .hdrop h => hHome h == s.rank
    | _ => false

/-- An answer to a foreign sender. -/
def State.answer (s : State) (src op : Nat) (r : State ⊕ Nat) : State :=
  match r with
  | .inl s => s.emit (.resp src op (yesAns 0 0))
  | .inr c => s.emit (.resp src op (noAns 0 c))

/-- `INVOCATION_ARRIVAL` (R359): the message of this rank's operation `op`, or one from another rank. -/
def execInvocationArrival (m : InvMsg) (op : Nat) (s : State) : Res :=
  .next (
    if m.src != s.rank then if s.mgmt.booted then s.answer m.src op (s.acceptInv m) else s
    else match s.op? op with
    | none => s
    | some o =>
      match o.cmd with
      | .invoke r m' =>
        if r != s.rank || o.st != .active || o.status != 0 || s.invBlocked o then s
        else match s.acceptInv m' with
          | .inl s => s.updOp op fun o => { o with status := accepted }
          | .inr c => s.updOp op fun o => { o with status := refusedBy c }
      | _ => s)

/-- Messages that wait in an entry's forward queue: the one under way at the location has left it. -/
def HEntry.waiting (e : HEntry) : Nat := e.fwd.length - (if e.fwdBusy then 1 else 0)
/-- Messages in all forward queues. -/
def State.forwards (s : State) : Nat := (s.handles.map fun x => x.2.waiting).foldl (· + ·) 0
def forwardMax : Nat := 4096

/-- Whether an `INVH` message finds no place at its upstream's home, this rank (R360). -/
def State.fwdFull (s : State) (up : DWord) (ctx : Nat) : Bool :=
  match s.hLive up ctx with
  | some e => (e.st == .pending || (e.st == .resolved && !e.fwd.isEmpty)) && decide (forwardMax ≤ s.forwards)
  | none => false

/-- `INVOCATION_COMPLETION` (R358, R360): path I falls; a refusal breaks the handle, and so does the response limit (R236), which does
not pass for an `INVH` held for want of a place (log entry 106). -/
def execInvocationCompletion (op : Nat) (far : Option LaneAns) (s : State) : Res :=
  .next (match s.op? op with
    | none => s
    | some o =>
      let target : Option (Nat × DWord × Bool) := match o.cmd with
        | .invoke r m => some (r, m.handle, false)
        | .invh m => some (hHome m.upstream, m.handle, s.fwdFull m.upstream m.ctx)
        | _ => none
      match target with
      | none => s
      | some (r, h, full) =>
        if o.st != .active then s
        else if r = s.rank then
          if lateAns far then if o.status = 0 && full then s else (s.breakHandle h noReply.toNat).opDone o
          else if o.status = 0 then s
          else if o.status = accepted then s.opDone o
          else (s.breakHandle h (o.status - 2)).opDone o
        else match far with
          | none => s
          | some a => if a.ok then s.opDone o else (s.breakHandle h a.cause.toNat).opDone o)

/-- The message that `INVOKE` and `INVH` send; its words are read after the handle has been written (R358). -/
def IC.invMsg (c : IC) (g : Group) (t : Team) (mbx : BitVec 12) (w : SReg) (n1 : BitVec 4) (h up : DWord) (core : Option Nat)
    (rank : Nat) : InvMsg where
  ctx := t.ctx
  mbx := mbx.toNat
  words := (List.range (n1.toNat + 1)).map fun i => g.rdS (w.toNat + i)
  src := rank
  handle := h
  upstream := up
  core := core
  aids := t.aidsIn c.t

/-- The part `INVOKE` and `INVH` share (R358, R360): the handle, the predicates, and the message handed over by `send`. -/
def invokeTail (c : IC) (s : State) (t : Team) (d : Option SReg) (kind loc : Nat) (p : CmpDst) (mk : DWord → Group → Cmd)
    (send : State → Op → State) : Act :=
  if aidMax < (t.aidsIn c.t).length then .wait
  else
    let minted : Option (State × DWord) := match d with
      | none => some (s, 0)
      | some _ => s.mintHandle t.ctx kind loc
    match minted with
    | none =>
      let g := (c.g.pathUp .I s.nextId).pathDone s.nextId
      .go (s.fresh.setG (g.okPred p false c.t)) none none
    | some (s, h) =>
      let g := match d with | some r => c.g.wrPair r.toNat h c.t | none => c.g
      c.launch s (g.okPred p true c.t) (c.mkOp s (mk h g)) send

def execInvoke (h : Hdr) (d : Option SReg) (w : SReg) (rank : Opnd) (mbx : BitVec 12) (n1 : BitVec 4) (p : CmpDst)
    (core : Option (BitVec 8)) (s : State) : Res :=
  .next (issue (.invoke h d w rank mbx n1 p core) (fun s c =>
    match s.team? c.g.tid with
    | none => c.skip s
    | some t =>
      let r := c.u rank
      if !c.ug then c.noop s
      else if 1024 ≤ r then .trpU 2 0x20
      else
        let mk := fun hd g => Cmd.invoke r (c.invMsg g t mbx w n1 hd 0 (core.map (·.toNat)) s.rank)
        invokeTail c s t d 1 r p mk fun s o => match o.cmd with
          | .invoke r m => if r = s.rank then s else s.emit (.inv r m)
          | _ => s) s)

/-- `INVH` (R360): not ready while the forward queues of its upstream's home, this rank, are full (R18; log entry 106). -/
def execInvh (h : Hdr) (d : Option SReg) (w : SReg) (up : SReg) (mbx : BitVec 12) (n1 : BitVec 4) (p : CmpDst)
    (s : State) : Res :=
  .next (issue (.invh h d w up mbx n1 p) (fun s c =>
    match s.team? c.g.tid with
    | none => c.skip s
    | some t =>
      let u := c.g.pairS up.toNat
      if !c.ug then c.noop s
      else if s.fwdFull u t.ctx then .wait
      else
        let mk := fun hd g => Cmd.invh (c.invMsg g t mbx w n1 hd u none s.rank)
        invokeTail c s t d 3 noRank p mk fun s o => match o.cmd with
          | .invh m =>
            if !isHandle m.upstream then (s.breakHandle m.handle 0x15).opDone o
            else if hHome m.upstream = s.rank then s
            else s.emit (.inv (hHome m.upstream) m)
          | _ => s) s)

/-! ## Forwarding at the upstream's home (R360) -/

/-- Whether a team launched by the head of an entry's queue still runs at this rank, or waits to be placed. -/
def State.forwardRuns (s : State) (up : DWord) : Bool :=
  (s.teams.any fun t => !t.ended && match t.kind with | .invocation _ _ u => sameEntry u up && u != 0 | _ => false)
    || s.ctxs.any fun c => c.pendTeams.any fun p => match p.kind with
        | .invocation _ _ u => sameEntry u up && u != 0
        | _ => false

/-- Whether the forwarded message at the head has ended: its handle has settled, or its team at the location is gone. -/
def State.forwardEnded (s : State) (e : HEntry) (m : InvMsg) : Bool :=
  if m.handle != 0 && hHome m.handle == s.rank then
    let x := s.hent (hIndex m.handle)
    x.gen != hGen m.handle || x.st != .pending
  else if e.loc = s.rank then !s.forwardRuns m.upstream
  else true

/-- The head of a forward queue has ended, or has been refused. -/
def State.popForward (s : State) (index : Nat) : State :=
  let e := s.hent index
  s.setHent index ({ e with fwd := e.fwd.drop 1, fwdBusy := false }.reap)

/-- A refusal at the location: an unreachable location, or no such context there, is a revoked one (R356). -/
def revoked (c : Nat) : Nat := if c = 0x06 || c = 0x08 then 0x13 else c

/-- The message at the head of a settled entry's queue leaves for the location, and waits there until it has ended; where the
entry has broken, the message breaks. -/
def State.forwardHead (s : State) (index : Nat) : State :=
  let e := s.hent index
  match e.fwd with
  | [] => s
  | (m, _) :: _ =>
    let busy := fun (s : State) =>
      let s := s.setHent index { s.hent index with fwdBusy := true }
      if m.handle != 0 && hHome m.handle == s.rank then
        let i := hIndex m.handle
        s.setHent i { s.hent i with loc := e.loc }
      else s
    if e.fwdBusy then s
    else match e.st with
      | .free | .pending => s
      | .broken => (s.breakHandle m.handle 0x11).popForward index
      | .resolved =>
        if e.loc = s.rank then
          match s.acceptInv m with
          | .inl s => busy s
          | .inr c => (s.breakHandle m.handle (revoked c)).popForward index
        else busy (s.emit (.invFwd e.loc m))

/-- `FORWARD_INVOCATION` (R360): the entry's queue moves on by one happening. `far` is the cause with which a far
location has refused the message under way there; without one the event itself says that that message has ended. -/
def execForwardInvocation (index : Nat) (far : Option (BitVec 8)) (s : State) : Res :=
  .next (
    let e := s.hent index
    match e.fwd with
    | [] => s
    | (m, _) :: _ =>
      if !e.fwdBusy then s.forwardHead index
      else match (if e.loc = s.rank then none else far) with
        | some c => (s.breakHandle m.handle (revoked c.toNat)).popForward index
        | none => if s.forwardEnded e m then s.popForward index else s)

/-- An `INVH` message at its upstream's home (R360): what the home answers its sender, or nothing while there is no room. A
message that finds its upstream resolved and nothing before it is forwarded at once. -/
def State.receiveInvh (s : State) (m : InvMsg) (op : Nat) : Option (State ⊕ Nat) :=
  match s.hLive m.upstream m.ctx with
  | none => some (.inr 0x15)
  | some e =>
    let s' := s.setHent (hIndex m.upstream) { e with fwd := e.fwd ++ [(m, op)] }
    if e.st = .broken then some (.inr 0x11)
    else if e.st = .resolved && e.fwd.isEmpty then some (.inl (s'.forwardHead (hIndex m.upstream)))
    else if s.fwdFull m.upstream m.ctx then none
    else some (.inl s')

/-- `INVH_ARRIVAL` (R360). -/
def execInvhArrival (m : InvMsg) (op : Nat) (s : State) : Res :=
  .next (
    if m.src != s.rank then
      if !s.mgmt.booted then s
      else match s.receiveInvh m op with
        | none => s
        | some (.inl s') => s.answer m.src op (.inl s')
        | some (.inr c) => (s.breakHandle m.handle c).answer m.src op (.inl (s.breakHandle m.handle c))
    else match s.op? op with
    | none => s
    | some o =>
      match o.cmd with
      | .invh m' =>
        if hHome m'.upstream != s.rank || o.st != .active || o.status != 0 || s.invBlocked o then s
        else match s.receiveInvh m' op with
          | none => s
          | some (.inl s) => s.updOp op fun o => { o with status := accepted }
          | some (.inr c) => s.updOp op fun o => { o with status := refusedBy c }
      | _ => s)

/-! ## Results (R359) -/

/-- An invocation's end leaves the executing rank, this one. -/
def State.sendEnd (s : State) (h : DWord) (ctx : Nat) (e : InvEnd) : State :=
  if h = 0 then s
  else if hHome h != s.rank then s.emit (.invEnd (hHome h) h e)
  else
    let o : Op :=
      { id := s.nextId, gid := 0, tid := 0, ctx := ctx, path := none, pc := 0, cmd := .result h e, st := .active, lanes := []
        sect := [], carry := [], dst := .none, wregs := [], p := ⟨0, 0⟩, exec := 0, act := 0, uni := true, tag := 0, stamp := s.q
        sup := false, suppressed := false, flags := 0, status := 0, pre := none }
    s.fresh.addOp o

/-- An end applied at the handle's home. -/
def State.applyEnd (s : State) (h : DWord) (e : InvEnd) : State :=
  match e with
  | .result ws loc => s.settleHandle h .resolved 0 ws [] loc
  | .broken c => s.settleHandle h .broken c [] [] noRank
  | .freed => s.freeHandle h

/-- Whether the invocation of a handle runs, or waits to be placed, at this rank. -/
def State.runsHere (s : State) (h : DWord) : Bool :=
  (s.teams.any fun t => !t.ended && match t.kind with | .invocation x _ _ => x == h | _ => false)
    || s.ctxs.any fun c => c.pendTeams.any fun p => match p.kind with | .invocation x _ _ => x == h | _ => false

/-- `INVOCATION_RESULT` (R359): a result of this rank's own, or one that another rank sends to this home. -/
def execInvocationResult (handle : DWord) (e : InvEnd) (s : State) : Res :=
  .next (
    let own := s.ops.find? fun o => match o.cmd with | .result h _ => h == handle | _ => false
    match own with
    | some o =>
      match o.cmd with
      | .result h e' => (s.dropOp o.id).applyEnd h e'
      | _ => s
    | none =>
      let x := s.hent (hIndex handle)
      if !s.mgmt.booted || hHome handle != s.rank || !isHandle handle || (x.kind != 1 && x.kind != 3) || s.runsHere handle then s
      else s.applyEnd handle e)

/-- `EXECUTING_RANK_ABORT` (R356): handles whose invocation runs at a rank that has aborted break. -/
def execExecutingRankAbort (rank : Nat) (s : State) : Res :=
  .next (
    let hs := s.handles.filter fun x => x.2.st == .pending && x.2.loc == rank && (x.2.kind == 1 || x.2.kind == 3)
    if rank = s.rank then s
    else hs.foldl (fun s x => s.breakHandle (handleOf s.rank x.1 x.2.gen x.2.kind.toNat) 0x12) s)

/-! ## Waiting (R361, R362) -/

/-- Whether a drop of this group still travels to a handle's home (R364). -/
def State.dropDue (s : State) (g : Group) (h : DWord) : Bool :=
  s.ops.any fun o => o.gid == g.gid && o.st == .active && match o.cmd with
    | .hdrop x => hHome x == hHome h && hHome h == s.rank
    | _ => false

/-- A question to a far home. -/
def State.ask (s : State) (c : IC) (h : DWord) (cmd : Cmd) : State × Nat :=
  let o := { c.mkOp s cmd with path := none, st := .active }
  (((s.fresh).addOp o).emit (.ask (hHome h) h o.id), o.id)

/-- Whether a handle's home is another rank. -/
def State.isFar (s : State) (h : DWord) : Bool := isHandle h && hHome h != s.rank

/-- `HWAIT` and `HWAIT.trap` once the home has answered at issue, or is asked. -/
def hwaitAct (c : IC) (s : State) (form : HWForm) (p : CmpDst) (h : DWord) : Act :=
  if s.dropDue c.g h then .wait
  else if s.isFar h then
    let (s, id) := s.ask c h (.hwait h)
    c.goG s { c.g with park := some (.hwait id form p h c.g.pc c.t) }
  else
    let a := s.askHome h (s.ctxOfG c.g)
    if a.state = 1 then c.goG s { c.g with park := some (.hwait 0 form p h c.g.pc c.t) }
    else if form = .trap && a.state != 2 then .trpU 10 a.cause.toNat
    else c.goG s (c.g.okPred p (a.state == 2) c.t)

def execHwait (h : Hdr) (form : HWForm) (p : CmpDst) (hnd : SReg) (s : State) : Res :=
  .next (issue (.hwait h form p hnd) (fun s c =>
    if !c.ug then c.skip s else hwaitAct c s form p (c.g.pairS hnd.toNat)) s)

/-- Continuation records a context may hold. -/
def contMax : Nat := 4096

/-- Whether a context holds all the continuation records it may. -/
def State.contFull (s : State) (ctx : Nat) : Bool :=
  match s.ctx? ctx with | some k => decide (contMax ≤ k.conts.length) | none => true

/-- The record of a group that retires at `pc` (R362). -/
def contOf (g : Group) (t : Team) (id : Nat) (pc h : DWord) (p : CmpDst) (m n : Nat) : ContRec where
  id := id
  pc := pc
  handle := h
  width := g.width
  role := g.role
  sup := g.sup
  vregs := g.vregs
  sregs := g.sregs
  m := m
  live := (List.range n).map fun i => g.rdS (m + i)
  p := p
  fmt := g.fmt
  flg := g.flg
  team := t.num
  grid := t.grid
  outcome := none

/-- The group leaves its core: the record, numbered `id`, is written, the group ends (R362). -/
def State.retireGroup (s : State) (g : Group) (t : Team) (id : Nat) (pc h : DWord) (p : CmpDst) (m n : Nat) : State :=
  let r := contOf g t id pc h p m n
  (s.updC t.ctx fun c => { c with conts := c.conts ++ [r] }).setG (g.end_ true)

/-- The group's question to a far home that has answered that the handle is pending, and will tell when it ends. -/
def State.heldPending (s : State) (gid : Nat) (h : DWord) : Option Nat :=
  (s.ops.find? fun o => o.gid == gid && o.cmd == .hwait h && o.status == 1).map (·.id)

/-- `HWAIT.park` (R362). A far home is asked first: only its answer that the handle is pending makes the group wait for its
counters and DEP. -/
def execHwaitPark (h : Hdr) (p : CmpDst) (hnd m : SReg) (n : BitVec 5) (s : State) : Res :=
  .next (issue (.hwaitPark h p hnd m n) (fun s c =>
    match s.team? c.g.tid with
    | none => c.skip s
    | some t =>
      let x := c.g.pairS hnd.toNat
      let full := s.contFull t.ctx
      let settled := !s.isFar x && (s.askHome x t.ctx).state != 1
      if !c.ug then c.skip s
      else if n != 0 && c.g.sregs < m.toNat + n.toNat then .trpU 2 0x01
      else if !c.g.stack.isEmpty || c.g.mask != fullMask c.g.width then .trpU 7 0x06
      else if s.dropDue c.g x then .wait
      else if settled || full then hwaitAct c s .plain p x
      else
        let told := s.heldPending c.g.gid x
        if s.isFar x && told.isNone then
          let (s, id) := s.ask c x (.hwait x)
          c.goG s { c.g with park := some (.hwaitPark id p x m.toNat n.toNat c.t) }
        else if !c.g.inFlight.isEmpty || c.g.dep != 0 then .wait
        else .go (s.fresh.retireGroup c.g t (told.getD s.nextId) c.next x p m.toNat n.toNat) none none) s)

/-! ## Reading and dropping (R363, R364) -/

/-- The status word of R363. -/
def statusWord (a : HomeAns) : Word :=
  if a.state = 0 then 0x1500
  else BitVec.ofNat 32 (a.state.toNat + (if a.state = 3 then a.cause.toNat * 256 else 0) + a.kind.toNat * 65536)

/-- What `HGET` writes: words from sD up, and its outcome. -/
def hgetWords (stat : Bool) (n : Nat) (a : HomeAns) : List Word × Bool :=
  if stat then ([statusWord a], a.state != 0)
  else if a.state = 2 then ((padTo 16 a.words).take n, true)
  else ([], false)

def execHget (h : Hdr) (stat : Bool) (p : CmpDst) (d hnd : SReg) (n : Opnd) (s : State) : Res :=
  .next (issue (.hget h stat p d hnd n) (fun s c =>
    let k := if stat then 1 else c.u n
    let x := c.g.pairS hnd.toNat
    if !c.ug then c.skip s
    else if k < 1 || 16 < k then .trpU 2 0x33
    else if c.g.sregs < d.toNat + k then .trpU 2 0x01
    else if s.dropDue c.g x || !s.regsFree c.g (sN d k) then .wait
    else if s.isFar x then
      let o := { c.mkOp s (.hget x stat d k) with path := none, p := p }
      let s := ((s.fresh).addOp o).emit (.ask (hHome x) x o.id)
      c.goG s { c.g with park := some (.answer o.id) }
    else
      let (ws, ok) := hgetWords stat k (s.askHome x (s.ctxOfG c.g))
      c.goG s ((wrSs c.g d.toNat ws c.t).okPred p ok c.t)) s)

/-- A drop at the handle's home. -/
def State.dropAt (s : State) (h : DWord) (ctx : Nat) : State :=
  match s.hLive h ctx with
  | none => s
  | some e => s.setHent (hIndex h) ({ e with dropped := true }.reap)

/-- `HDROP` acts: the drop is sent. -/
def beginHdrop (s : State) (o : Op) : State :=
  match o.cmd with
  | .hdrop h =>
    if !isHandle h then s.dropOp o.id
    else if hHome h = s.rank then s.updOp o.id fun o => { o with st := .active }
    else (s.emit (.drop (hHome h) h)).dropOp o.id
  | _ => s

def execHdrop (h : Hdr) (hnd : SReg) (s : State) : Res :=
  .next (issue (.hdrop h hnd) (fun s c =>
    if !c.ug then c.skip s
    else c.submit s c.g (c.mkOp s (.hdrop (c.g.pairS hnd.toNat))) 0 beginHdrop) s)

/-- `HOME_DROP` (R364): a drop of this rank's own, or one from another rank. -/
def execHomeDrop (handle : DWord) (ctx : Nat) (s : State) : Res :=
  .next (
    let own := s.ops.find? fun o => o.ctx == ctx && o.st == .active && match o.cmd with | .hdrop h => h == handle | _ => false
    match own with
    | some o => if s.invBlocked o then s else (s.dropOp o.id).dropAt handle ctx
    | none => if s.mgmt.booted then s.dropAt handle ctx else s)

/-- `CONTINUATION_RESUME` (R362): a runnable record becomes a team that the distributor will place; the record is freed. -/
def execContinuationResume (ctx record : Nat) (s : State) : Res :=
  .next (match s.ctx? ctx with
    | none => s
    | some c =>
      match c.conts.find? fun r => r.id == record with
      | none => s
      | some r =>
        if r.outcome.isNone then s
        else
          let b : Binding := ⟨r.pc, r.width, r.vregs, r.sregs, 0, 0, 0, r.sup⟩
          let s := s.updC ctx fun c => { c with conts := c.conts.filter fun x => x.id != record }
          s.addPend ctx ⟨.continuation, b, [], none, [], some r⟩)

end Sys2Proof.Machine
end

