-- ==== Sys2Proof/Machine/Launch.lean ====
section
/-! DEFINITION. Launch records: their layout (R21), acceptance (R22, R23), and what the distributor knows of each core's
capacity (R2, R26, R319, R394). -/

namespace Sys2Proof.Machine

/-! ## The record (R21) -/

/-- The record that 320 bytes hold. -/
def parseLaunch (bs : List Byte) : LaunchRec :=
  let x := leNat bs
  let f := fun off n => fld x (8 * off) n
  { entry := BitVec.ofNat 64 (f 0 64)
    width := BitVec.ofNat 8 (f 8 8)
    groups := f 9 8
    vregs := f 10 16
    sregs := f 12 16
    barriers := f 14 8
    det := x.testBit (8 * 15)
    check := x.testBit (8 * 15 + 1)
    roles := BitVec.ofNat 32 (f 16 32)
    xbytes := f 20 32
    wbytes := f 24 32
    cols := f 28 8
    rows := f 29 8
    nparam := f 30 8
    ccnt := BitVec.ofNat 6 (f 31 6)
    cen := x.testBit (8 * 31 + 7)
    gridsize := f 32 32
    ximglen := f 36 32
    ximg := BitVec.ofNat 64 (f 40 64)
    wimglen := f 48 32
    wimg := BitVec.ofNat 64 (f 56 64)
    params := (List.range 64).map fun k => BitVec.ofNat 32 (f (64 + 4 * k) 32)
    rsvZero := fld x (8 * 15 + 2) 6 == 0 && !x.testBit (8 * 31 + 6) && f 52 32 == 0 }

/-- The role of group `g`: none for code 11. -/
def LaunchRec.role (r : LaunchRec) (g : Nat) : Option Role :=
  match fld r.roles.toNat (2 * g) 2 with
  | 0 => some .computer
  | 1 => some .loader
  | 2 => some .storer
  | _ => none

/-- Whether an image's address and length are within the limits. -/
def imgOk (len bytes : Nat) (va : DWord) : Bool :=
  decide (len ≤ bytes) && len % 64 == 0 && (len == 0 || (va.toNat % 64 == 0 && decide (va.toNat < 2 ^ 54)))

/-- Whether every field is within its limits. -/
def LaunchRec.fieldsOk (r : LaunchRec) : Bool :=
  r.rsvZero && decide (r.width.toNat ≤ 3) && decide (1 ≤ r.groups ∧ r.groups ≤ 16) && decide (1 ≤ r.vregs ∧ r.vregs ≤ 256)
    && decide (1 ≤ r.sregs ∧ r.sregs ≤ 1024) && decide (r.nparam ≤ r.sregs) && decide (r.barriers ≤ 16)
    && (!r.check || r.det)
    && ((List.range 16).all fun g => if g < r.groups then (r.role g).isSome else fld r.roles.toNat (2 * g) 2 == 0)
    && r.xbytes % 4096 == 0 && decide (r.xbytes ≤ 2 ^ 21) && r.wbytes % 4096 == 0 && decide (r.wbytes ≤ 2 ^ 22)
    && decide (1 ≤ r.cols ∧ r.cols ≤ 8) && decide (1 ≤ r.rows ∧ r.rows ≤ 6) && decide (r.cols * r.rows ≤ 12)
    && decide (r.nparam ≤ 64) && decide (1 ≤ r.gridsize) && r.gridsize % (r.cols * r.rows) == 0
    && imgOk r.ximglen r.xbytes r.ximg && imgOk r.wimglen r.wbytes r.wimg
    && !badTarget r.entry && decide (r.entry.toNat < 2 ^ 54)

/-! ## Cores (R2, R26, R319) -/

/-- Whether a core works and is not reserved for persistent collective groups. -/
def Mgmt.usable (m : Mgmt) (core : Nat) : Bool := m.coremap.getLsbD core && !m.collmap.getLsbD core

/-- Quadrant of a core within its die. -/
def quadOf (core : Nat) : Nat := core % 48 / 8 / 3 * 2 + core % 8 / 4

/-- The service core of a quadrant: its lowest usable core, or the lowest of its die. -/
def Mgmt.svcCore (m : Mgmt) (die q : Nat) : Option Nat :=
  let cores := ((List.range 48).map (· + 48 * die)).filter m.usable
  match cores.find? fun c => quadOf c == q with
  | some c => some c
  | none => cores.head?

/-- The core that service group `h` runs on; the groups of a die that is mapped out run on the lowest usable die. -/
def Mgmt.svcOf (m : Mgmt) (h : Nat) : Option Nat :=
  match m.svcCore (h / 4) (h % 4) with
  | some c => some c
  | none => (List.range 4).findSome? fun d => m.svcCore d (h % 4)

/-- Service cores of the 16 groups. -/
def Mgmt.svcCores (m : Mgmt) : List Nat := (List.range 16).filterMap m.svcOf

/-- The slot of service group `h`: 63, and below it where its core runs several, those of its own die first. -/
def Mgmt.svcSlot (m : Mgmt) (h : Nat) : Nat :=
  let key := fun k => ((m.svcOf k).map fun c => if c / 48 = k / 4 then k else 16 + k).getD 32
  63 - ((List.range 16).filter fun k => m.svcOf k == m.svcOf h && decide (key k < key h)).length

/-- The index of the service group that owns the line of a physical address. -/
def svcIndex (pa : Nat) : Nat := fld pa 6 4 ^^^ fld pa 10 4 ^^^ fld pa 14 4 ^^^ fld pa 18 4

/-- What a core has left: free slots by sub-core (lowest first), bytes of X, W and C, and barriers. -/
structure Free where
  core : Nat
  slots : List (List Nat)
  x : Nat
  w : Nat
  c : Nat
  bars : Nat
  deriving DecidableEq, Repr

/-- Slots of sub-core `j` that service groups leave (R319). -/
def slotsLeft (svc j : Nat) (used : List Nat) : List Nat :=
  ((List.range 16).map (· + 16 * j)).filter fun k => !used.contains k && !decide (64 ≤ k + svc)

/-- A core with nothing resident. -/
def Mgmt.cap (_m : Mgmt) (svcs : List Nat) (core : Nat) : Free :=
  let n := svcs.count core
  ⟨core, (List.range 4).map fun j => slotsLeft n j [], 2 ^ 21, 2 ^ 22, 2 ^ 21 - n * 2 ^ 18, 64⟩

/-- What one team needs (R26). -/
structure Demand where
  groups : Nat
  x : Nat
  w : Nat
  bars : Nat
  deriving DecidableEq, Repr

/-- Bytes of C that a team of `g` groups takes. -/
def cBytes (g : Nat) : Nat := 8192 + 2048 * g

/-- Whether a core fits a team. -/
def Free.fits (f : Free) (n : Demand) : Bool :=
  ((List.range 4).all fun j => decide (ceilDiv (n.groups - j) 4 ≤ (f.slots.getD j []).length))
    && decide (n.x ≤ f.x) && decide (n.w ≤ f.w) && decide (cBytes n.groups ≤ f.c) && decide (n.bars ≤ f.bars)

/-- Free group slots of a core. -/
def Free.total (f : Free) : Nat := (f.slots.map List.length).foldl (· + ·) 0

/-- Cores of a rectangle by cluster position (R14, R27). -/
def rectCores (origin cols rows : Nat) : List Nat :=
  (List.range (cols * rows)).map fun k => origin + k / cols * 8 + k % cols

/-- Origins of the rectangles of a shape, ascending. -/
def origins (cols rows : Nat) : List Nat :=
  (List.range 192).filter fun o => decide (o % 48 / 8 + rows ≤ 6) && decide (o % 8 + cols ≤ 8)

/-- The demand of a record's team. -/
def LaunchRec.demand (r : LaunchRec) : Demand := ⟨r.groups, r.xbytes, r.wbytes, r.barriers⟩

/-! ## Acceptance (R22, R23) -/

/-- Pages that an image covers. -/
def imgPages (va : DWord) (len : Nat) : List Nat := unitsOf 4096 va.toNat len

/-- A translation of the device in user mode, as the grid's start makes it (R22). -/
def State.pagePA (s : State) (core ctx page : Nat) (acc : Acc) : Option Nat :=
  match s.xlate core ctx (page * 4096) acc false with | .pa a => some a | .bad _ => none

/-- The status of R22. -/
def State.launchStatus (s : State) (core : Nat) (c : Ctx) (r : LaunchRec) : Nat :=
  let m := s.mgmt
  let svcs := m.svcCores
  let fitsX := fun k => m.usable k && decide (r.xbytes ≤ 2 ^ 21) && decide (r.wbytes ≤ 2 ^ 22)
    && decide (cBytes r.groups ≤ (m.cap svcs k).c)
  if !r.fieldsOk then 1
  else if !(List.range 192).any fitsX then 2
  else if !(origins r.cols r.rows).any fun o => (rectCores o r.cols r.rows).all m.usable then 3
  else if !((imgPages r.ximg r.ximglen ++ imgPages r.wimg r.wimglen).all fun p => (s.pagePA core c.num p .read).isSome)
      || (s.pagePA core c.num (r.entry.toNat / 4096) .exec).isNone then 4
  else if 256 ≤ (c.grids.filter (·.queued)).length then 5
  else 0

/-- A record is accepted or refused as a whole: the state, and the status. -/
def State.acceptLaunch (s : State) (core ctx : Nat) (r : LaunchRec) : State × Nat :=
  match s.ctx? ctx with
  | none => (s, 5)
  | some c =>
    let st := s.launchStatus core c r
    if st != 0 then (s, st)
    else
      let pins := (imgPages r.ximg r.ximglen ++ imgPages r.wimg r.wimglen).eraseDups.filterMap fun p =>
        (s.pagePA core ctx p .read).map fun a => (p, a)
      let g : Grid :=
        { gid := s.nextId, ctx := ctx, rcd := r, placed := 0, ended := 0, finished := [], released := 0, staged := []
          queued := true, pins := pins }
      (s.fresh.updC ctx fun c => { c with grids := c.grids ++ [g] }, 0)

/-! ## Synchronous reads of a record or bitmap (R259, R367) -/

/-- A byte at a physical address, read by an instruction. Data that another rank or a refusing window would answer is a
free value (log entry 22); poisoned data reads as memory holds it (log entry 118). -/
def State.syncByte (s : State) (pa : Nat) : Byte :=
  match s.home pa 1 false with
  | .mem a => (s.homeRead a 1).headD 0
  | .own w off => match s.export_ w off 1 .rd with
    | .pa a => (s.homeRead a 1).headD 0
    | .bad _ => (Config.freeWord (s.free + pa)).setWidth 8
  | _ => (Config.freeWord (s.free + pa)).setWidth 8

/-- Bytes read synchronously by a group's instruction, or the first address that does not translate with its cause. -/
def State.syncRead (s : State) (core ctx va n : Nat) (sup : Bool) : List Byte ⊕ (Nat × Nat) :=
  let trs := (List.range n).map fun i => (va + i, s.xlate core ctx (va + i) .read sup)
  match trs.findSome? fun x => match x.2 with | .bad c => some (x.1, c) | .pa _ => none with
  | some f => .inr f
  | none => .inl (trs.map fun x => match x.2 with | .pa a => s.syncByte a | .bad _ => 0)

end Sys2Proof.Machine
end

