-- ==== Sys2Proof/Machine/Queues.lean ====
section
/-! DEFINITION. Work queues, `NOTIFY` and `LAUNCH` (R365-R367). -/

namespace Sys2Proof.Machine

/-- The checks of a queue number (R366). -/
def queueCheck (c : IC) (s : State) (q : Nat) : Option Act :=
  if 64 ≤ q then some (.trpU 2 0x31)
  else if (s.queue q).ctx != some (s.ctxOfG c.g) then some (.trpU 2 0x32)
  else none

/-- Records appended at the queue unit, if they all fit. -/
def State.pushRecs (s : State) (q : Nat) (rs : List (List Word)) : Option State :=
  let x := s.queue q
  if x.recs.length + rs.length ≤ x.cap then some ((s.setQueue q { x with recs := x.recs ++ rs }).wakeChan q) else none

/-- Whether all that a group issued before an operation meets the condition of `FENCE.rel.dev` (R317, R366). -/
def State.fenceBefore (s : State) (o : Op) : Bool :=
  match s.grp? o.gid with
  | none => true
  | some g =>
    (s.lacc.all fun a => a.gid != o.gid || decide (o.id < a.id))
      && g.inFlight.all fun e => decide (o.id < e.op) || !([.G, .A, .F, .S, .C] : List Path).contains e.path

/-- A push at the queue unit, with its outcome; a released one first waits as `FENCE.rel.dev` does (R298, R366). -/
def beginQpush (s : State) (o : Op) : State :=
  match o.cmd with
  | .qpush q ws =>
    if !s.fenceBefore o then s
    else match s.pushRecs q [ws] with
    | some s => s.completeOk o true
    | none => s.completeOk o false
  | _ => s

/-- Released pushes whose fence's condition has come to hold go to the queue unit. -/
def State.pushDue (s : State) : State :=
  (s.ops.filter fun o => o.st == .active && match o.cmd with | .qpush .. => true | _ => false).foldl beginQpush s

/-- `QPUSH` (R366): a tainted one is held instead of acting, so it does not wait for the accesses before it (R297). -/
def execQpush (h : Hdr) (p : CmpDst) (m : SReg) (q : Opnd) (s : State) : Res :=
  .next (issue (.qpush h p m q) (fun s c =>
    if !c.ug then c.skip s
    else match queueCheck c s (c.u q) with
      | some a => a
      | none =>
        if c.g.dep ||| c.t == 0 && !s.fenceMet c.g .rel .dev then .wait
        else
          let ws := (List.range 16).map fun i => c.g.rdS (m.toNat + i)
          c.submit s c.g { c.mkOp s (.qpush (c.u q) ws) with p := p, wregs := rCmp p } 0 beginQpush) s)

/-- `QPOP` (R366): it pops, and then completes as `FENCE.acq.dev` does: the group waits until that fence's condition
holds. -/
def execQpop (h : Hdr) (p : CmpDst) (d : SReg) (q : Opnd) (s : State) : Res :=
  .next (issue (.qpop h p d q) (fun s c =>
    if !c.ug then c.skip s
    else match queueCheck c s (c.u q) with
      | some a => a
      | none =>
        let x := s.queue (c.u q)
        let g := { c.g with park := if s.fenceMet c.g .acq .dev then none else some .fence }
        match x.recs with
        | [] => c.goG s (g.okPred p false c.t)
        | r :: rs =>
          c.goG (s.setQueue (c.u q) { x with recs := rs }) ((wrSs g d.toNat (padTo 16 r) c.t).okPred p true c.t)) s)

/-- `QWAIT` (R366): it does not park when the queue holds a record. -/
def execQwait (h : Hdr) (q : Opnd) (s : State) : Res :=
  .next (issue (.qwait h q) (fun s c =>
    if !c.ug then c.skip s
    else match queueCheck c s (c.u q) with
      | some a => a
      | none =>
        if (s.queue (c.u q)).recs.isEmpty then c.goG s { c.g with park := some (.qwait (c.u q)) } else c.skip s) s)

def beginNotify (s : State) (o : Op) : State :=
  match o.cmd with
  | .notify c => (s.wakeChan c).dropOp o.id
  | _ => s

def execNotify (h : Hdr) (c : Opnd) (s : State) : Res :=
  .next (issue (.notify h c) (fun s k =>
    if !k.ug then k.skip s
    else if 64 ≤ k.u c then .trpU 2 0x31
    else k.submit s k.g (k.mkOp s (.notify (k.u c))) 0 beginNotify) s)

/-! ## `LAUNCH` (R367) -/

/-- Bytes of a launch record. -/
def recBytes : Nat := 320

/-- A launch acts: the record is read and enters the launch queue; the status and the predicates are written. -/
def beginLaunch (s : State) (o : Op) : State :=
  match o.cmd, s.grp? o.gid with
  | .launch va d sup, some g =>
    match s.syncRead g.core o.ctx va recBytes sup with
    | .inr (a, cause) =>
      (s.landed o.gid o.id fun g => g.addPend ⟨8, cause, 1, o.pc, sset 0 [] 0 (BitVec.ofNat 64 a), 0, 0, 16⟩).opDone o
    | .inl bs =>
      let (s, st) := s.acceptLaunch g.core o.ctx (parseLaunch bs)
      s.completeWords o d.toNat [BitVec.ofNat 32 st] (st == 0)
  | _, _ => s

/-- The record's address. -/
def launchVA (c : IC) (at_ : LaunchAt) : Nat :=
  match at_ with
  | .pair a => (c.g.pairS a.toNat).toNat
  | .label off => ((c.g.pc + off.signExtend 64).toNat) % 2 ^ 54

def execLaunch (h : Hdr) (p : CmpDst) (d : SReg) (at_ : LaunchAt) (s : State) : Res :=
  .next (issue (.launch h p d at_) (fun s c =>
    let va := launchVA c at_
    if !c.ug then c.skip s
    else if va % 8 != 0 then .trpA 2 0x11 va
    else if 2 ^ 54 ≤ va then .trpA 8 0x05 va
    else match s.syncRead c.g.core (s.ctxOfG c.g) va recBytes c.g.sup with
      | .inr (a, cause) => .trpA 8 cause a
      | .inl _ =>
        let o := { c.mkOp s (.launch va d c.g.sup) with p := p, wregs := .s d.toNat :: rCmp p }
        c.submit s c.g o 0 beginLaunch) s)

end Sys2Proof.Machine
end

