-- ==== Sys2Proof/Machine/Counters.lean ====
section
/-! DEFINITION. Event counters and triggered sends (R274-R278). -/

namespace Sys2Proof.Machine

/-! ## Firing (R277, R278) -/

/-- The source bytes of a send, or the cause that a page of it takes. -/
def State.sendData (s : State) (a : Armed) : List Byte ⊕ Nat :=
  match s.syncRead 0 a.ctx a.src (4 * a.f.n4.toNat) a.sup with
  | .inl bs => .inl bs
  | .inr (_, cause) => .inr cause

/-- The parts of a range by page: VA, offset, bytes. -/
def allParts (va n : Nat) : List (Nat × Nat × Nat) :=
  (unitsOf 4096 va n).map fun p =>
    let lo := max (p * 4096) va
    (lo, lo - va, min (p * 4096 + 4096) (va + n) - lo)

/-- Poisoned 64-byte units of a send's source, as parts of the data: offset and length (R222). -/
def State.sendPoison (s : State) (a : Armed) : List Lane :=
  (allParts a.src (4 * a.f.n4.toNat)).flatMap fun p =>
    match s.xlate 0 a.ctx p.1 .read a.sup with
    | .bad _ => []
    | .pa pa => (poisonParts s.poison pa p.2.2).map fun q =>
        { lane0 0 0 (BitVec.ofNat 64 (p.2.1 + q.1)) (BitVec.ofNat 64 q.2) with poison := true }

/-- Such parts as marks on the data. -/
def marksOf (ls : List Lane) : List (Nat × Nat) := ls.map fun l => (l.data.toNat, l.cmp.toNat)

/-- A context's operation that no group waits for. -/
def engineOp (s : State) (ctx : Nat) (cmd : Cmd) : Op where
  id := s.nextId
  gid := 0
  tid := 0
  ctx := ctx
  path := none
  pc := 0
  cmd := cmd
  st := .active
  lanes := []
  sect := []
  carry := []
  dst := .none
  wregs := []
  p := ⟨0, 0⟩
  exec := 0
  act := 0
  uni := true
  tag := 0
  stamp := s.q
  sup := false
  suppressed := false
  flags := 0
  status := 0
  pre := none

/-- A due send fires: its bytes are read, and it leaves for its target (R277). -/
def State.fire (s : State) (a : Armed) : State :=
  let (data, bad) := match s.sendData a with | .inl bs => (bs, none) | .inr c => ([], some c)
  let marks := s.sendPoison a
  let s' := s.fresh.addOp { engineOp s a.ctx (.tsend a data bad) with lanes := marks }
  if a.rank = s.rank || bad.isSome then s'
  else s'.emit (.tsend a.rank a.f.win.toNat a.roff ⟨data, marksOf marks⟩ a.ctx (if a.f.ctOn then some a.f.ct else none))

/-! ## Changes (R274, R275) -/

def Ctx.counter (c : Ctx) (n : Nat) : Word := sget 0 c.counters n
def State.counter (s : State) (ctx n : Nat) : Word := match s.ctx? ctx with | some c => c.counter n | none => 0

/-- A group parked in `CTWAIT` continues once the counter reaches its bound (R275). -/
def Group.recount (g : Group) (n : Nat) (v : Word) : Group :=
  match g.park with
  | some (.ctwait n' t) => if n' = n && t.toNat ≤ v.toNat then { g with park := none } else g
  | _ => g

/-- Armed sends of counter `n` that a value makes due. -/
def dueAt (n : Nat) (v : Word) (x : Nat × Armed) : Bool := x.2.f.cn.toNat == n && decide (x.2.thr.toNat ≤ v.toNat)

/-- A change of a counter: waiters are released and due sends fire in arming order (R274). -/
def State.counterChange (s : State) (ctx n : Nat) (v : Word) : State :=
  match s.ctx? ctx with
  | none => s
  | some c =>
    let due := c.armed.filter (dueAt n v)
    let s := s.updC ctx fun c =>
      { c with counters := sset 0 c.counters n v, armed := c.armed.filter fun x => !dueAt n v x }
    let s := { s with groups := s.groups.map fun g => if s.ctxOfG g = ctx then g.recount n v else g }
    due.foldl (fun s x => s.fire x.2) s

/-- A counter raised by 1. -/
def State.raiseCounter (s : State) (ctx n : Nat) : State := s.counterChange ctx n (s.counter ctx n + 1)

/-! ## The counter instructions -/

def beginCtset (s : State) (o : Op) : State :=
  match o.cmd with
  | .ctset n add v => (s.counterChange o.ctx n (if add then s.counter o.ctx n + v else v)).dropOp o.id
  | _ => s

def ctsetOp (i : Instr) (n : BitVec 6) (add : Bool) (v : IC → Word) (s : State) : State :=
  issue i (fun s c =>
    if !c.ug then c.skip s else c.submit s c.g (c.mkOp s (.ctset n.toNat add (v c))) 0 beginCtset) s

def execCtset (h : Hdr) (n : BitVec 6) (add : Bool) (v : Opnd) (s : State) : Res :=
  .next (ctsetOp (.ctset h n add v) n add (fun c => c.op v) s)
def execCtsetImm (h : Hdr) (n : BitVec 6) (add : Bool) (imm : Word) (s : State) : Res :=
  .next (ctsetOp (.ctsetImm h n add imm) n add (fun _ => imm) s)

/-- What `CTRD` reads (R275). -/
def Ctx.counterField (c : Ctx) (sel : CSel) (n : Nat) : Word :=
  match sel with
  | .val => c.counter n
  | .fail => c.fails
  | .cause => c.failCause
  | .armed => BitVec.ofNat 32 (c.armed.filter fun x => x.2.f.cn.toNat == n).length

def execCtrd (h : Hdr) (d : Dst) (sel : CSel) (n : BitVec 6) (s : State) : Res :=
  .next (issue (.ctrd h d sel n) (fun s c =>
    if !c.ug then c.skip s
    else c.put s d 0 fun _ =>
      match s.ctx? (s.ctxOfG c.g) with | some x => x.counterField sel n.toNat | none => 0) s)

def execCtwait (h : Hdr) (n : BitVec 6) (t : Opnd) (s : State) : Res :=
  .next (issue (.ctwait h n t) (fun s c =>
    if !c.ug || (c.op t).toNat ≤ (s.counter (s.ctxOfG c.g) n.toNat).toNat then c.skip s
    else c.goG s { c.g with park := some (.ctwait n.toNat (c.op t)) }) s)

/-! ## `TSEND` (R276) -/

/-- Armed sends that a context may hold. -/
def armedMax : Nat := 4096

/-- A send is armed; where the counter already satisfies its threshold it fires at once. -/
def beginArm (s : State) (o : Op) : State :=
  match o.cmd with
  | .arm _ a =>
    let s := s.dropOp o.id
    if a.thr.toNat ≤ (s.counter a.ctx a.f.cn.toNat).toNat then s.fire a
    else s.updC a.ctx fun c => { c with armed := c.armed ++ [(o.id, a)] }
  | _ => s

def execTsend (h : Hdr) (f : TSendF) (thr rank roff : Opnd) (src : SReg) (s : State) : Res :=
  .next (issue (.tsend h f thr rank roff src) (fun s c =>
    let ctx := s.ctxOfG c.g
    let va := (c.g.pairS src.toNat).toNat
    let held := match s.ctx? ctx with | some x => x.armed.length | none => 0
    if !c.ug then c.skip s
    else if 1024 ≤ c.u rank then .trpU 2 0x20
    else if c.u roff % 4 != 0 || va % 4 != 0 then .trpU 2 0x11
    else if 2 ^ 54 ≤ va then .trpA 8 0x05 va
    else if armedMax ≤ held then .trpU 2 0x24
    else
      let a : Armed := ⟨ctx, f, c.op thr, c.u rank, c.u roff, va, c.g.sup⟩
      c.submit s c.g (c.mkOp s (.arm f.cn.toNat a)) 0 beginArm) s)

/-- Bytes of one packet of a triggered send (R227). -/
def packetMax : Nat := 4096

/-- Whether an entry is for the send of `src` numbered `op`. -/
def Landing.is (e : Landing) (src op : Nat) : Bool := e.src == src && e.op == op

/-- The send of `src` numbered `op` as far as it has arrived here. -/
def State.landing (s : State) (src ctx op win roff len : Nat) : Landing :=
  (s.landings.find? fun e => e.is src op).getD ⟨src, ctx, op, win, roff, len, 0, [], none⟩

/-- A send's progress is stored, in the order in which the sends began. -/
def State.putLanding (s : State) (e : Landing) : State :=
  if s.landings.any fun x => x.is e.src e.op then
    { s with landings := s.landings.map fun x => if x.is e.src e.op then e else x }
  else { s with landings := s.landings ++ [e] }

/-- Packets of a send have still to be looked up. -/
def Landing.more (e : Landing) : Bool := e.stop.isNone && decide (e.next < e.len)

/-- Sends of the same source that were fired before and have begun here (R278). -/
def State.landBefore (s : State) (e : Landing) : List Landing :=
  s.landings.filter fun x => x.src == e.src && x.ctx == e.ctx && decide (x.op < e.op)

/-- Whether a send has still to write some of the bytes `pa … pa + n - 1`. -/
def Landing.reaches (x : Landing) (s : State) (pa n : Nat) : Bool :=
  (x.due.any fun p => overlap p.1 p.2.1.bytes.length pa n)
    || (x.more && overlap (wBase (s.window x.win).eff + x.roff + x.next) (x.len - x.next) pa n)

/-- The next packet of a send is looked up at this rank's export (R227, R234); a refusal is the send's last lookup (R277). -/
def State.lookPacket (s : State) (e : Landing) (d : FarData) : Landing :=
  let p := sliceData d e.next (min packetMax (e.len - e.next))
  match s.export_ e.win (e.roff + e.next) p.bytes.length .wr with
  | .bad c => { e with stop := some c }
  | .pa a =>
    if s.overtaken e.src true e.ctx e.op a p.bytes.length then e
    else { e with next := e.next + p.bytes.length, due := e.due ++ [(a, p, s.q)] }

/-- One packet of a send is looked up or performed, each at a turn of its own (R235); which, where both could be, is a free value.
It is performed after what earlier sends of its source write to the same bytes (R244). -/
def State.landPacket (s : State) (e : Landing) (d : FarData) : State × Landing :=
  match e.due with
  | [] => (s, if e.more then s.lookPacket e d else e)
  | (a, p, _) :: rest =>
    if (s.landBefore e).any fun x => x.reaches s a p.bytes.length then (s, if e.more then s.lookPacket e d else e)
    else
      let s' := if e.more then s.draw else s
      if e.more && (Config.freeWord s.free).getLsbD 0 then (s', s.lookPacket e d)
      else ((s'.putData a p).reach e.src true e.ctx e.op a p.bytes.length, { e with due := rest })

/-- An arriving send goes on by one packet. Answers how the send ended, once all that passed has been performed and the earlier sends
of its source have ended (R244, R278): with nothing, or the cause of a refusal. The target's counter is raised where all of it was
performed (R277; log entry 111). -/
def State.landSend (s : State) (src op ctx win roff : Nat) (d : FarData) (ct : Option (BitVec 6)) : State × Option (Option Nat) :=
  let (s, e) := s.landPacket (s.landing src ctx op win roff d.bytes.length) d
  if !e.due.isEmpty || e.more || !(s.landBefore e).isEmpty then (s.putLanding e, none)
  else
    let s := { s with landings := s.landings.filter fun x => !x.is src op }
    match e.stop, ct with
    | some c, _ => (s, some (some c))
    | none, some n => (s.raiseCounter ctx n.toNat, some none)
    | none, none => (s, some none)

/-- Sends of one context to one rank that were fired before an operation and have not ended (R278). -/
def State.sendsBefore (s : State) (o : Op) (ctx rank : Nat) (p : Op → Bool) : Bool :=
  s.ops.any fun x => decide (x.id < o.id) && p x && match x.cmd with | .tsend b _ _ => b.ctx == ctx && b.rank == rank | _ => false

/-- `TSEND_ARRIVAL` (R235, R277): a packet of a send of this rank's operation `op`, or of one from another rank, which is
answered when the send has ended. -/
def execTsendArrival (ctx win roff : Nat) (data : FarData) (ct : Option (BitVec 6)) (src op : Nat) (s : State) : Res :=
  .next (
    if src != s.rank then
      if !s.mgmt.booted || s.past src true ctx op then s
      else match s.landSend src op ctx win roff data ct with
        | (s, none) => s
        | (s, some none) => (s.hear src true ctx op).emit (.resp src op (yesAns 0 0))
        | (s, some (some c)) => (s.hear src true ctx op).emit (.resp src op (noAns 0 c))
    else match s.op? op with
      | none => s
      | some o =>
        match o.cmd with
        | .tsend a own bad =>
          if a.rank != s.rank || o.status != 0 || bad.isSome
              || s.sendsBefore o a.ctx a.rank (fun x => x.status == 0 && match x.cmd with | .tsend _ _ b => b.isNone | _ => false)
          then s
          else
            let (s, r) := s.landSend s.rank op a.ctx a.f.win.toNat a.roff ⟨own, marksOf o.lanes⟩
              (if a.f.ctOn then some a.f.ct else none)
            (match r with
              | none => s
              | some r => s.updOp op fun o => { o with status := match r with | some c => refusedBy c | none => accepted })
        | _ => s)

/-- A send ends, with the cause word of a failure (R277). -/
def State.endSend (s : State) (o : Op) (a : Armed) (fail : Option Word) : State :=
  let s := s.dropOp o.id
  let s := match fail with
    | none => s
    | some w => s.updC a.ctx fun c => { c with fails := c.fails + 1, failCause := w }
  if a.f.clOn then s.raiseCounter a.ctx a.f.cl.toNat else s

/-- `TSEND_END` (R277); `far` is a far target's answer, or says that the response limit passed (R236). -/
def execTsendEnd (op : Nat) (far : Option LaneAns) (s : State) : Res :=
  .next (match s.op? op with
    | none => s
    | some o =>
      match o.cmd with
      | .tsend a _ bad =>
        if s.sendsBefore o a.ctx a.rank (fun _ => true) then s
        else match bad with
          | some c => s.endSend o a (some (BitVec.ofNat 32 (256 + c)))
          | none =>
            if a.rank = s.rank then
              if lateAns far then
                ({ s with landings := s.landings.filter fun e => !e.is s.rank op }).endSend o a (some (noReply.setWidth 32))
              else if o.status = 0 then s
              else s.endSend o a (if o.status = accepted then none else some (BitVec.ofNat 32 (o.status - 2)))
            else match far with
              | none => s
              | some x => s.endSend o a (if x.ok then none else some (x.cause.setWidth 32))
      | _ => s)

end Sys2Proof.Machine
end

