-- ==== Sys2Proof/Machine/Fabric.lean ====
section
/-! DEFINITION. Remote put, get and reduce, multicast, remote accesses at their target, and the fabric's own steps
(R226-R245). -/

namespace Sys2Proof.Machine

/-! ## A remote access at its target (R228, R234, R235, R240) -/

/-- What a performed access answers: a value, flags, whether the value is poisoned, and the bytes of a read packet. -/
structure Performed where
  val : Nat
  flags : BitVec 7
  poison : Bool
  data : FarData
  deriving DecidableEq, Repr

def noData : FarData := ⟨[], []⟩

/-- An access performed at its home. -/
def State.perform (s : State) (pa : Nat) (a : RAct) : State × Performed :=
  match a with
  | .put d => (s.putData pa d, ⟨0, 0, false, noData⟩)
  | .fetch n =>
    let (s', d) := s.seeData pa n
    (s', ⟨0, 0, false, d⟩)
  | .write sz x => (s.homeWrite pa (natBytes sz x.toNat), ⟨0, 0, false, noData⟩)
  | .read sz =>
    if s.poisoned pa sz then
      let (s', v) := s.homeVal pa sz
      (s', ⟨v, 0, true, noData⟩)
    else
      let (s', bs) := s.seeHome pa sz
      (s', ⟨leNat bs, 0, false, noData⟩)
  | .reduce op ty x bad =>
    let (s, fl) := s.updateAt pa op ty x.toNat bad
    (s, ⟨0, fl, false, noData⟩)
  | .atomic op ty x =>
    let (s', v) := s.homeVal pa 4
    let r := atomUpd op ty (BitVec.ofNat 32 v) x
    (s'.homeWrite pa (natBytes 4 r.1.toNat), ⟨v, r.2, s.poisoned pa 4, noData⟩)
  | .cas sz cmp new =>
    let (s', v) := s.homeVal pa sz
    (if v = cmp.toNat % 2 ^ (8 * sz) then s'.homeWrite pa (natBytes sz new.toNat) else s', ⟨v, 0, s.poisoned pa sz, noData⟩)

/-- What a response carries: the value, with the flags above a 32-bit one, or in the low bits where no value returns. -/
def respData (a : RAct) (p : Performed) : DWord :=
  match a with
  | .reduce .. => p.flags.setWidth 64
  | .atomic .. => BitVec.ofNat 64 (p.val % 2 ^ 32 + p.flags.toNat * 2 ^ 32)
  | _ => BitVec.ofNat 64 p.val

/-- The response to a performed access. -/
def response (r : RemoteReq) (p : Performed) : Out :=
  match r.act with
  | .fetch _ => .respBytes r.src r.op r.lane p.data
  | _ => .resp r.src r.op ⟨r.lane, true, 0, respData r.act p, p.poison⟩

/-- The one lookup of another rank's access (R234, R235): refused with a cause, or let pass with the Q of now as its stamp.
A packet carries at most 4096 bytes (R227). Nothing of a source comes after the event of a later operation, nor after its access to the same bytes (R244). -/
def State.lookup (s : State) (r : RemoteReq) (pkt : Option (Nat × Nat)) : State :=
  let (sz, need) := raNeed r.act
  if packetMax < sz || (r.ord && s.past r.src false r.grp r.op) then s
  else match s.export_ r.win r.off sz need with
    | .pa pa =>
      if s.overtaken r.src false r.grp r.op pa sz then s else { s with foreign := s.foreign ++ [⟨r, pkt, pa, s.q⟩] }
    | .bad c =>
      let s := s.emit (.resp r.src r.op (noAns r.lane c))
      match pkt with
      | some (stream, seq) => { s with rxSeq := ⟨r.src, stream, seq, some (BitVec.ofNat 8 c)⟩ :: s.rxSeq }
      | none => s

/-- Bytes that a decided access reaches. -/
def Foreign.size (f : Foreign) : Nat := (raNeed f.req.act).1

/-- Whether a decided access of an earlier operation of the same source reaches some of the same bytes (R244; log entry 86). -/
def State.foreignBlocked (s : State) (f : Foreign) : Bool :=
  s.foreign.any fun x => x.req.src == f.req.src && x.req.grp == f.req.grp && decide (x.req.op < f.req.op)
    && overlap x.pa x.size f.pa f.size

/-- Decided accesses of the same instruction to the same location, ascending by lane (R240, R324). -/
def State.foreignRun (s : State) (f : Foreign) : List Foreign :=
  (List.range 64).filterMap fun i => s.foreign.find? fun x =>
    x.req.src == f.req.src && x.req.op == f.req.op && x.pa == f.pa && x.size == f.size && x.req.lane == i

/-- Another rank's decided access is performed, answered, and its packet acknowledged (R228). -/
def State.performForeign (s : State) (f : Foreign) : State :=
  let (s, p) := { s with foreign := s.foreign.erase f }.perform f.pa f.req.act
  let s := s.reach f.req.src false f.req.grp f.req.op f.pa f.size
  let s := s.emit (response f.req p)
  match f.pkt with
  | some (stream, seq) =>
    let s : State := { s with rxSeq := ⟨f.req.src, stream, seq, none⟩ :: s.rxSeq }
    s.emit (.ack f.req.src stream seq)
  | none => s

/-- Another rank's access: looked up when it arrives, performed at a later turn. -/
def State.foreignAccess (s : State) (r : RemoteReq) : State :=
  match s.foreign.find? fun f => f.req == r with
  | none => s.lookup r none
  | some f =>
    if s.foreignBlocked f then s
    else match s.foreignRun f with
      | [] => s.performForeign f
      | fs => fs.foldl (fun s f => s.performForeign f) s

/-! ## `RPUT`, `RGET`, `RRED` (R238-R241) -/

/-- Whether a deterministic grid stages the operation. -/
def RemKind.stages : RemKind → Bool
  | .get _ => false
  | _ => true

/-- The location at offset `off` of a rank's window. -/
def State.remoteLoc (s : State) (rank win off : Nat) : Loc :=
  if rank = s.rank then .here (wBase (s.window win).eff + off) else .far (.gfp rank win off)

/-- A remote operation acts: staged (R345), or sent. Outcome bits of a staged one have no stated value (log entry 24). -/
def beginRemote (s : State) (o : Op) : State :=
  match o.cmd with
  | .remote k win =>
    let sz := o.cmd.size
    let s := o.lanes.foldl (fun s l => s.raceAt o.tid o.pc l.va false (s.remoteLoc l.rank win l.va) sz k.stages 0) s
    if k.stages && s.isDet o.tid then
      ((s.stage o []).draw).complete o [] o.exec (if o.uni then (if (Config.freeWord s.free).getLsbD 0 then o.exec else 0)
        else Config.freeWord s.free)
    else
      let s := s.updOp o.id fun o => { o with st := .active, stamp := s.q }
      o.lanes.foldl (fun s l => if l.rank = s.rank then s else s.sendFar (.gfp l.rank win l.va) o.gid o.id l.lane (remAct k l) true) s
  | _ => s

/-- The shared part of the three instructions. -/
def remoteOp (i : Instr) (p : CmpDst) (d : Dst) (k : RemKind) (win : BitVec 12) (rank off : Opnd) (val : Option Opnd)
    (s : State) : State :=
  issue i (fun s c =>
    match s.team? c.g.tid with
    | none => c.skip s
    | some t =>
      let cmd := Cmd.remote k win.toNat
      let ls := c.evalLanes.map fun i => (i, (c.g.opnd rank i).toNat, (c.g.opnd off i).toNat)
      let far := lanesWhere (ls.map fun x => (x.1, x.2.1)) fun r => decide (1024 ≤ r)
      let offs := ls.map fun x => (x.1, x.2.2)
      if !c.ug then c.noop s
      else if far != 0 then .trp 2 0x20 far
      else match alignCheck offs cmd.size with
        | some a => a
        | none =>
          if k.stages && s.stageFull t.tid (16 * ls.length) then .trp 2 0x2B c.lanes
          else
            let lanes := ls.map fun x =>
              { lane0 x.1 x.2.2 (match val with | some v => (c.g.opnd v x.1).setWidth 64 | none => 0) 0 with rank := x.2.1 }
            let o := { c.mkOp s cmd with lanes := lanes, dst := d, p := p, wregs := rDst d ++ rCmp p }
            if k.stages then c.submit s c.g o 0 beginRemote else c.launch s c.g o beginRemote) s

def execRput (h : Hdr) (p : CmpDst) (ty : LTy) (win : BitVec 12) (rank off val : Opnd) (s : State) : Res :=
  .next (remoteOp (.rput h p ty win rank off val) p .none (.put (ltySize ty)) win rank off (some val) s)
def execRget (h : Hdr) (p : CmpDst) (d : Dst) (ty : LTy) (win : BitVec 12) (rank off : Opnd) (s : State) : Res :=
  .next (remoteOp (.rget h p d ty win rank off) p d (.get ty) win rank off none s)
def execRred (h : Hdr) (p : CmpDst) (op : RedOp) (ty : ATy) (win : BitVec 12) (rank off val : Opnd) (s : State) : Res :=
  .next (remoteOp (.rred h p op ty win rank off val) p .none (.red op ty) win rank off (some val) s)

/-! ## This rank's own accesses -/

/-- What a lane of this rank's own operation asks of this rank. -/
def State.ownReq (s : State) (o : Op) (l : Lane) : Option RemoteReq :=
  match o.cmd with
  | .remote k win => some ⟨s.rank, o.gid, true, o.id, l.lane, win, l.va, remAct k l⟩
  | .mcst m => some ⟨s.rank, o.gid, true, o.id, l.lane, m.win, m.roff, .put ⟨m.data, m.bad⟩⟩
  | _ => none

/-- The one lookup of a lane of this rank's own operation (R235). -/
def State.ownLookup (s : State) (o : Op) (l : Lane) : State :=
  match s.ownReq o l with
  | none => s
  | some r =>
    match s.export_ r.win r.off (raNeed r.act).1 (raNeed r.act).2 with
    | .bad c => s.endLane o.id l.lane (.settled (BitVec.ofNat 8 c)) 0 false false
    | .pa pa => { s with foreign := s.foreign ++ [⟨r, none, pa, s.q⟩] }

/-- A decided lane of this rank's own operation is performed; a response after the limit is discarded (R236). -/
def State.ownPerform (s : State) (f : Foreign) : State :=
  let (s, p) := { s with foreign := s.foreign.erase f }.perform f.pa f.req.act
  match s.op? f.req.op with
  | none => s
  | some o =>
    match o.lane? f.req.lane with
    | none => s
    | some l =>
      if l.st != .pending then s
      else (s.updOp o.id fun o => { o with flags := o.flags ||| p.flags }).endLane o.id l.lane .done (BitVec.ofNat 64 p.val) true
        p.poison

/-- A lane of this rank's own operation: its lookup, then its performance when nothing earlier of its source is due at the
same bytes (R235, R240, R244). -/
def State.ownAccess (s : State) (op lane : Nat) : State :=
  match s.decided op lane with
  | some f => if (match s.op? op with | some o => s.remBlocked o lane | none => false) then s else s.ownPerform f
  | none =>
    match s.op? op with
    | none => s
    | some o =>
      match o.lane? lane with
      | none => s
      | some l => if o.st != .active || l.st != .pending || l.rank != s.rank then s else s.ownLookup o l

/-- `REMOTE_ACCESS_ARRIVAL` (R234, R235, R240, R243): a lane of this rank's operation `r.op`, or an access of another rank. It
is decided at its first turn and performed at a later one. -/
def execRemoteAccessArrival (r : RemoteReq) (s : State) : Res :=
  .next (if r.src != s.rank then if s.mgmt.booted then s.foreignAccess r else s else s.ownAccess r.op r.lane)

/-- The lanes with the answers of far homes entered; a lane aimed at this rank ends so only when the response limit passes
(R236). -/
def Op.answered (o : Op) (far : List LaneAns) (rank : Nat) : Op :=
  far.foldl (fun o a => o.setLane a.lane fun l =>
    if l.st != .pending || (l.rank = rank && (a.ok || a.cause != noReply)) then l
    else if a.ok then { l with st := .done, ok := true, res := a.data, poison := a.poison }
    else { l with st := .settled a.cause }) o

/-- Flags that far reductions answered. -/
def farFlags (k : RemKind) (o : Op) (rank : Nat) : BitVec 7 :=
  match k with
  | .red _ _ => o.lanes.foldl (fun f l => if l.rank != rank && l.st = .done then f ||| l.res.setWidth 7 else f) 0
  | _ => 0

/-- Register lines of the lanes of a destination. -/
def Group.dstLines (g : Group) (d : Dst) (i : Nat) : List Nat :=
  match d with
  | .v n => [((n.toNat * g.width + i) * 4) / 256]
  | .s n => [(g.vregs * g.width * 4 + n.toNat * 4) / 256]
  | .none => []

/-- Register lines that poisoned replies reach are poisoned (R222; log entry 18). -/
def Group.markLanes (g : Group) (d : Dst) (ls : List Lane) : Group :=
  { g with poison := ((ls.filter fun l => l.st = .done && l.poison).flatMap (fun l => g.dstLines d l.lane) ++ g.poison).eraseDups }

/-- `REMOTE_OP_COMPLETE` (R241): every lane performed, refused or reported. -/
def execRemoteOpComplete (op : Nat) (far : List LaneAns) (s : State) : Res :=
  .next (match s.op? op with
    | none => s
    | some o =>
      match o.cmd with
      | .remote k _ =>
        let o := o.answered far s.rank
        if o.st != .active || !o.lanesEnded || s.endBlocked o then s
        else
          let o := { o with flags := o.flags ||| farFlags k o s.rank }
          let vals := match k with | .get ty => o.results fun x => ltyExt ty (x.toNat % 2 ^ (8 * ltySize ty)) | _ => []
          let s := s.complete o vals o.exec (o.okMask fun _ => true)
          if o.suppressed then s else s.updG o.gid fun g => g.markLanes o.dst o.lanes
      | _ => s)

/-! ## `MCST` (R242, R243) -/

/-- An entry of the group table at context creation (R258). -/
def GEntry.init (rank : Nat) : GEntry := ⟨0, rank, 0, 0, 0xFFFFFFFF, 0, 0, []⟩
def State.gent (s : State) (ctx e : Nat) : GEntry :=
  match s.ctx? ctx with | some c => sget (GEntry.init s.rank) c.gtable e | none => GEntry.init s.rank
def State.setGent (s : State) (ctx e : Nat) (x : GEntry) : State :=
  s.updC ctx fun c => { c with gtable := sset (GEntry.init s.rank) c.gtable e x }

/-- Members of an entry, ascending. -/
def membersOf (m : BitVec 1024) : List Nat := (List.range 1024).filter fun r => m.getLsbD r

/-- A multicast acts: the data is read once, and each member's copy leaves. -/
def beginMcst (s : State) (o : Op) : State :=
  match o.cmd, s.team? o.tid with
  | .mcst m, some t =>
    let m := { m with data := t.rdBytes .x m.a m.n, bad := poisonParts t.xpoison m.a m.n }
    let s := s.updOp o.id fun o => { o with
      cmd := .mcst m, st := .active, stamp := s.q, lanes := m.members.map fun r => { lane0 r m.roff 0 0 with rank := r } }
    m.members.foldl (fun s r => if r = s.rank then s else s.emit (.req r ⟨s.rank, o.gid, true, o.id, r, m.win, m.roff, .put ⟨m.data, m.bad⟩⟩)) s
  | _, _ => s

/-- A held multicast is released: the tiles are as they are now (R136, R298). -/
def releaseMcst (s : State) (o : Op) : State :=
  match o.cmd, s.team? o.tid with
  | .mcst m, some t =>
    if (unitsOf 4096 m.a m.n ++ unitsOf 4096 m.b 256).any fun k => t.owner .x k != .engine then s.refuseHeld o 2 0x14 1 []
    else beginMcst s o
  | _, _ => s

def execMcst (h : Hdr) (d : Dst) (entry : BitVec 8) (win : BitVec 12) (roff : BitVec 30) (a : Opnd) (n : BitVec 13)
    (b : Opnd) (s : State) : Res :=
  .next (issue (.mcst h d entry win roff a n b) (fun s c =>
    match s.team? c.g.tid with
    | none => c.skip s
    | some t =>
      let a' := c.u a
      let b' := c.u b
      let n' := n.toNat
      if !c.ug then c.noop s
      else if a' % 4 != 0 then .trpA 2 0x11 a'
      else if b' % 64 != 0 then .trpA 2 0x11 b'
      else if t.xbytes < a' + n' then .trpA 3 0x01 a'
      else if t.xbytes < b' + 256 then .trpA 3 0x01 b'
      else if (unitsOf 4096 a' n' ++ unitsOf 4096 b' 256).any fun k => t.owner .x k != .engine then .trpU 2 0x14
      else if overlap a' n' b' 256 then .trpU 2 0x23
      else if t.det then .trpU 2 0x2A
      else
        let ms := membersOf (s.gent t.ctx entry.toNat).members
        let m : McstCmd := ⟨entry.toNat, win.toNat, roff.toNat * 64, a', n', b', ms, [], []⟩
        let o := { c.mkOp s (.mcst m) with dst := d, wregs := rDst d }
        c.submit s c.g o (t.rangeTag .x a' n' ||| t.rangeTag .x b' 256) beginMcst) s)

/-- Ranks that answered negatively, ascending, with their causes. -/
def Op.negatives (o : Op) : List (Nat × Nat) :=
  o.lanes.filterMap fun l => match l.st with | .settled c => some (l.lane, c.toNat) | _ => none

/-- The failure record of R243. -/
def mcstRecord (bad : List (Nat × Nat)) : List Byte :=
  let pairs := bad.take 8
  natBytes 4 bad.length ++ natBytes 4 pairs.length
    ++ pairs.flatMap (fun x => natBytes 4 x.1 ++ natBytes 4 x.2)
    ++ List.replicate (64 - 8 * pairs.length + 56) 0
    ++ natBytes 128 (bad.foldl (fun m x => m + 2 ^ x.1) 0)

/-- `MCST_COMPLETE` (R243). -/
def execMcstComplete (op : Nat) (far : List LaneAns) (s : State) : Res :=
  .next (match s.op? op with
    | none => s
    | some o =>
      match o.cmd with
      | .mcst m =>
        let o := o.answered far s.rank
        if o.st != .active || !o.lanesEnded || s.endBlocked o then s
        else
          let s := s.updT o.tid fun t => t.wr .x m.b (mcstRecord o.negatives)
          let pos := (o.lanes.filter fun l => l.st == .done).length
          s.complete o [(0, BitVec.ofNat 32 pos)] 0 0
      | _ => s)

/-! ## GFP and UET packets (R227, R230) -/

/-- `GFP_PACKET_RECEIVE` (R227, R228): a packet is decided once, and acknowledged when it has been performed or refused; a
duplicate of such a packet gets the same answer again. -/
def execGfpPacketReceive (src stream seq : Nat) (req : Option RemoteReq) (s : State) : Res :=
  .next (
    if src = s.rank || !s.mgmt.booted then s
    else match s.rxSeq.find? fun p => p.src == src && p.stream == stream && p.seq == seq, req with
      | some p, some r => (match p.refused with
        | some c => s.emit (.resp src r.op (noAns r.lane c.toNat))
        | none => s.emit (.ack src stream seq))
      | some _, none => s.emit (.ack src stream seq)
      | none, some r =>
        if s.foreign.any fun f => f.req.src == src && f.pkt == some (stream, seq) then s
        else s.lookup { r with src := src } (some (stream, seq))
      | none, none => State.emit { s with rxSeq := ⟨src, stream, seq, none⟩ :: s.rxSeq } (.ack src stream seq))

/-- Whether something sent to a rank has not been acknowledged. -/
def State.unacked (s : State) (rank : Nat) : Bool :=
  s.ops.any fun o => o.st == .active && match o.cmd with
    | .remote _ _ | .mcst _ => o.lanes.any fun l => l.rank == rank && l.st == .pending
    | .msend r _ | .invoke r _ => r == rank
    | .invh m => hHome m.upstream == rank
    | .tsend a _ _ => a.rank == rank
    | .gather _ _ | .scatter _ _ | .atomic _ | .copy _ => true
    | _ => false

/-- `GFP_RETRANSMIT` (R227): a packet to rank `src` that has not been acknowledged is sent again. -/
def execGfpRetransmit (src stream seq : Nat) (s : State) : Res :=
  .next (if src != s.rank && s.unacked src then s.emit (.resend src stream seq) else s)

/-- `UET_TRIM_RETRANSMIT` (R230, R231): never reported to a program. -/
def execUetTrimRetransmit (conn packet : Nat) (s : State) : Res := .next (s.emit (.uetResend conn packet))

/-- A port's state changed; only working ports (R394) come up. -/
def State.setPort (s : State) (port : Nat) (up : Bool) : State :=
  let m := s.mgmt
  let bit : BitVec 16 := 1#16 <<< port
  { s with mgmt := { m with portsUp := if up then m.portsUp ||| (bit &&& m.portmap) else m.portsUp &&& ~~~bit } }

/-- `PORT_DOWN` and `PORT_UP` (R226): traffic moves; programs see time only. -/
def execPortDown (port : Nat) (s : State) : Res := .next (s.setPort port false)
def execPortUp (port : Nat) (s : State) : Res := .next (s.setPort port true)

end Sys2Proof.Machine
end

