-- ==== Sys2Proof/Machine/Praline.lean ====
section
/-! DEFINITION. The Praline search-tree engines (R369-R388). -/

namespace Sys2Proof.Machine

/-! ## Trees (R369) -/

def treeEng (t : Word) : Nat := fld t.toNat 0 2
def treeSlot (t : Word) : Nat := fld t.toNat 2 10
def treeGen (t : Word) : Nat := fld t.toNat 12 20
def treeId (eng slot gen : Nat) : Word := BitVec.ofNat 32 (eng + slot * 4 + gen * 4096)

/-- A tree-table entry at boot. -/
def PTree.zero : PTree := ⟨0, false, 0, 0, [], 0⟩
def State.treeAt (s : State) (k : Nat) : PTree := sget PTree.zero s.trees k
def State.setTree (s : State) (k : Nat) (t : PTree) : State := { s with trees := sset PTree.zero s.trees k t }

/-- Key of an entry. -/
def treeKey (t : Word) : Nat := treeEng t * 1024 + treeSlot t

/-- Whether an engine works (R394). -/
def Mgmt.engine (m : Mgmt) (e : Nat) : Bool := m.diemap.getLsbD (4 + e)

/-- The tree of an ID, unless it is stale for a context. -/
def State.tree? (s : State) (t : Word) (ctx : Nat) : Option PTree :=
  let e := s.treeAt (treeKey t)
  if e.live && e.gen == treeGen t && e.ctx == ctx && s.mgmt.engine (treeEng t) then some e else none

/-! ## Pools and nodes (R370, R371) -/

/-- No node. -/
def nil32 : Nat := 0xFFFFFFFF

/-- VA and PA of a pool byte; a pool's pages are pinned. -/
def PTree.va (t : PTree) (off : Nat) : Nat := t.pool + off
def PTree.pa (t : PTree) (off : Nat) : Nat :=
  let va := t.pool + off
  match t.pins.find? fun p => p.1 == va / 4096 with
  | some p => p.2 + va % 4096
  | none => 0

/-- Header fields, by offset and bytes. -/
def State.hdrF (s : State) (t : PTree) (off n : Nat) : Nat := s.rdNat (t.pa off) n
def State.setHdrF (s : State) (t : PTree) (off n v : Nat) : State := s.wrNat (t.pa off) n v

def hFREE : Nat := 0x04
def hROOT : Nat := 0x08
def hCOUNT : Nat := 0x0C
def hC : Nat := 0x10
def hVL : Nat := 0x14
def hQINIT : Nat := 0x18
def hBATCH : Nat := 0x20

/-- Node indices that an operation may reach: no byte beyond the pool (R372). -/
def State.capOf (s : State) (t : PTree) : Nat := min t.cap (s.hdrF t 0 4)

/-- A node (R371). -/
structure PNode where
  n : Nat
  l : Nat
  flags : Nat
  w : Nat
  p : Nat
  parent : Nat
  first : Nat
  nch : Nat
  depth : Nat
  act : Nat
  pid : Nat
  deriving DecidableEq, Repr

def PNode.terminal (x : PNode) : Bool := x.flags.testBit 0
def PNode.pending (x : PNode) : Bool := x.flags.testBit 1
def PNode.free (x : PNode) : Bool := x.flags.testBit 15
/-- FLAGS with a bit set or cleared. -/
def setFlag (f k : Nat) (b : Bool) : Nat := if f.testBit k = b then f else if b then f + 2 ^ k else f - 2 ^ k

/-- Offset of a node in its pool. -/
def nodeOff (x : Nat) : Nat := 64 + 64 * x

def State.node (s : State) (t : PTree) (x : Nat) : PNode :=
  let v := s.rdNat (t.pa (nodeOff x)) 36
  let f := fun off n => fld v (8 * off) (8 * n)
  ⟨f 0 4, f 4 2, f 6 2, f 8 4, f 12 4, f 16 4, f 20 4, f 24 2, f 26 2, f 28 4, f 32 4⟩

def PNode.bytes (x : PNode) : List Byte :=
  natBytes 4 x.n ++ natBytes 2 x.l ++ natBytes 2 x.flags ++ natBytes 4 x.w ++ natBytes 4 x.p ++ natBytes 4 x.parent
    ++ natBytes 4 x.first ++ natBytes 2 x.nch ++ natBytes 2 x.depth ++ natBytes 4 x.act ++ natBytes 4 x.pid

def State.setNode (s : State) (t : PTree) (i : Nat) (x : PNode) : State := s.wrBytes (t.pa (nodeOff i)) x.bytes
/-- A node with its reserved bytes. -/
def State.newNode (s : State) (t : PTree) (i : Nat) (x : PNode) : State :=
  s.wrBytes (t.pa (nodeOff i)) (x.bytes ++ List.replicate 28 0)

/-- A free node: every byte zero but FLAGS bit 15 and the link. -/
def freeNode (next : Nat) : PNode := ⟨0, 0, 2 ^ 15, 0, 0, next, 0, 0, 0, 0, 0⟩

def State.nodeFree (s : State) (t : PTree) (x : Nat) : Bool := (s.node t x).free

/-- Why an operation stops: a status, and the VA of a node that carries an uncorrectable error. -/
abbrev PErr := Nat × Option Nat

/-- A node read (R387): status 12 on poison. -/
def State.readNode (s : State) (t : PTree) (x : Nat) : Except PErr PNode :=
  if s.poisoned (t.pa (nodeOff x)) 64 then .error (12, some (t.va (nodeOff x))) else .ok (s.node t x)

/-- A node operand (R371): none where it is not valid. -/
def State.operand (s : State) (t : PTree) (x : Nat) : Except PErr (Option PNode) :=
  if s.capOf t ≤ x then .ok none
  else match s.readNode t x with
    | .error e => .error e
    | .ok n => .ok (if n.free then none else some n)

/-- A node reached through a link (R372). -/
def State.link (s : State) (t : PTree) (x : Nat) : Except PErr PNode :=
  if s.capOf t ≤ x then .error (11, none)
  else match s.readNode t x with
    | .error e => .error e
    | .ok n => if n.free then .error (11, none) else .ok n

/-- Nodes that one walk may visit (R372). -/
def walkMax : Nat := 65536

/-! ## Allocation (R372) -/

/-- The lowest run of `n` free nodes. -/
def State.freeRun (s : State) (t : PTree) (n : Nat) : Option Nat :=
  (List.range (s.capOf t)).find? fun i =>
    decide (i + n ≤ s.capOf t) && (List.range n).all fun j => s.nodeFree t (i + j)

/-- The lowest free node at or above `i`. -/
def State.nextFree (s : State) (t : PTree) (i : Nat) : Nat :=
  (((List.range (s.capOf t)).find? fun x => decide (i ≤ x) && s.nodeFree t x).getD nil32)

/-- The nodes that an allocation of `n` reads: the free nodes up to the end of its run, or all of them where there is none. One
that carries an error stops it (R387; log entry 88). -/
def State.allocate (s : State) (t : PTree) (n : Nat) : Except PErr (Option Nat) :=
  let run := s.freeRun t n
  let hi := match run with | some i => i + n | none => s.capOf t
  match (List.range hi).find? fun y => s.nodeFree t y && s.poisoned (t.pa (nodeOff y)) 64 with
  | some y => .error (12, some (t.va (nodeOff y)))
  | none => .ok run

/-- The free nodes linked again in ascending order, from the one before `i` on. -/
def State.unlink (s : State) (t : PTree) (i n : Nat) : State :=
  let next := s.nextFree t (i + n)
  match ((List.range i).reverse.find? fun x => s.nodeFree t x) with
  | none => s.setHdrF t hFREE 4 next
  | some b => s.setNode t b { s.node t b with parent := next }

/-! ## The score (R376) -/

def f32 : FFmt := ffmt .f32
/-- `rne(f32, ·)` and back to a value. -/
def r32 (y : FVal) : FVal := fval f32 false (fenc f32 y)
def v32 (x : Nat) : FVal := fval f32 false x
def nat32 (n : Nat) : FVal := ofInt false n 0
def add32 (x y : FVal) : FVal := r32 (fsum false x y).1
def mul32 (x y : FVal) : FVal := r32 (fprod .x 24 x y).1

/-- An IEEE quotient of exact values, before its rounding. -/
def fquot (x y : FVal) : FVal :=
  let s := x.sgn != y.sgn
  match x, y with
  | .nan, _ | _, .nan => .nan
  | .inf _, .inf _ | .zero _, .zero _ => .nan
  | .inf _, _ | _, .zero _ => .inf s
  | .zero _, _ | _, .inf _ => .zero s
  | .fin _ a e, .fin _ b e' =>
    let k := bitLen b + 60
    sticky s (a * 2 ^ k / b) (e - e' - k) (a * 2 ^ k % b != 0)
def div32 (x y : FVal) : FVal := r32 (fquot x y)

/-- The rounded root of R376. -/
def rootOf (x : PNode) : FVal := v32 (ffun f32 false .sqrt (nat32 (max 1 (x.n + x.l)))).1

/-- Constants of the header that a score uses. -/
structure PConst where
  c : FVal
  vl : FVal
  qinit : FVal
  deriving DecidableEq, Repr

def State.pconst (s : State) (t : PTree) : PConst := ⟨v32 (s.hdrF t hC 4), v32 (s.hdrF t hVL 4), v32 (s.hdrF t hQINIT 4)⟩

def score (k : PConst) (root : FVal) (ch : PNode) : FVal :=
  let n := r32 (nat32 (ch.n + ch.l))
  let q := if ch.n + ch.l = 0 then k.qinit
    else div32 (add32 (v32 ch.w) (mul32 k.vl (nat32 ch.l)).neg) n
  let u := div32 (mul32 (mul32 k.c (v32 ch.p)) root) (add32 (nat32 1) n)
  add32 q u

/-- Whether a value ranks above the best so far: a NaN ranks lowest. -/
def above (best v : FVal) : Bool := !v.isNan && (best.isNan || best.lt v)

/-- The winning child among `FIRST + j, …`. -/
def bestChild (s : State) (t : PTree) (k : PConst) (root : FVal) :
    Nat → Nat → Option (Nat × FVal) → Except PErr (Option (Nat × FVal))
  | 0, _, b => .ok b
  | n + 1, x, b =>
    match s.link t x with
    | .error e => .error e
    | .ok ch =>
      let v := score k root ch
      let b := match b with
        | none => some (x, v)
        | some (y, w) => if above w v then some (x, v) else some (y, w)
      bestChild s t k root n (x + 1) b

/-- A descent from `x` down: the nodes visited, leaf first (R381). -/
def descend (s : State) (t : PTree) (k : PConst) : Nat → Nat → List Nat → Except PErr (List Nat)
  | 0, _, _ => .error (11, none)
  | n + 1, x, path =>
    match s.link t x with
    | .error e => .error e
    | .ok nd =>
      if nd.nch = 0 || nd.terminal then .ok (x :: path)
      else match bestChild s t k (rootOf nd) nd.nch nd.first none with
        | .error e => .error e
        | .ok none => .ok (x :: path)
        | .ok (some (y, _)) => descend s t k n y (x :: path)

/-! ## Operations at the home -/

/-- What an operation answers: per-lane words (low and high register), its outcome bit, the first status, and a data
error's lane and VA. -/
structure PRes where
  s : State
  lanes : List (Nat × Word × Word)
  ok : Bool
  st : Nat
  err : Option (Nat × Nat)
  deriving DecidableEq, Repr

def pDone (s : State) : PRes := ⟨s, [], true, 0, none⟩
/-- An operation that ends with a status. -/
def pFail (s : State) (st : Nat) : PRes := ⟨s, [], false, st, none⟩
def pErr (s : State) (lane : Nat) (e : PErr) : PRes := ⟨s, [], false, e.1, e.2.map fun va => (lane, va)⟩

/-- One descent (R381): the state with its losses, the leaf and its flags. -/
def State.oneDescent (s : State) (t : PTree) (batch : Nat) : Except PErr (State × Nat × Nat) :=
  match descend s t (s.pconst t) walkMax (s.hdrF t hROOT 4) [] with
  | .error e => .error e
  | .ok [] => .error (11, none)
  | .ok (x :: up) =>
    let nd := s.node t x
    let s := (x :: up).foldl (fun s y => let n := s.node t y; s.setNode t y { n with l := min (n.l + 1) 65535 }) s
    let n := s.node t x
    let s := if nd.pending then s.setNode t x { n with flags := setFlag n.flags 2 true }
      else s.setNode t x { n with flags := setFlag n.flags 1 true, pid := batch }
    .ok (s, x, (if nd.terminal then 1 else 0) + 2 + (if nd.pending then 4 else 0))

/-- The descents of a batch, in lane order. -/
def descents (t : PTree) (batch : Nat) : Nat → Nat → State → List (Nat × Word × Word) → PRes
  | 0, _, s, out => ⟨s, out, true, 0, none⟩
  | n + 1, j, s, out =>
    match s.oneDescent t batch with
    | .error e => pErr s j e
    | .ok (s, x, fl) => descents t batch n (j + 1) s (out ++ [(j, BitVec.ofNat 32 x, BitVec.ofNat 32 fl)])

def State.prDesc (s : State) (t : PTree) (k : Nat) : PRes :=
  let b := (s.hdrF t hBATCH 4 + 1) % 2 ^ 32
  let batch := if b = 0 then 1 else b
  descents t batch k 0 (s.setHdrF t hBATCH 4 batch) []

/-- Children written from node `i` up (R382). -/
def expandFrom (t : PTree) (x depth : Nat) : State → Nat → Nat → List Word → State
  | s, _, _, [] => s
  | s, i, j, p :: ps =>
    expandFrom t x depth (s.newNode t i ⟨0, 0, 0, 0, p.toNat, x, nil32, 0, depth, j, 0⟩) (i + 1) (j + 1) ps

def State.prExp (s : State) (t : PTree) (leaf : Nat) (priors : List Word) : PRes :=
  match s.operand t leaf with
    | .error e => pErr s 0 e
    | .ok none => pFail s 4
    | .ok (some x) =>
      let n := priors.length
      if 0 < x.nch || x.terminal then pFail s 5
      else if s.hdrF t 0x1E 2 < n then pFail s 6
      else if n = 0 then pDone (s.setNode t leaf { x with flags := setFlag x.flags 0 true })
      else match s.allocate t n with
        | .error e => pErr s 0 e
        | .ok none => pFail s 2
        | .ok (some i) =>
          let s := s.unlink t i n
          let s := expandFrom t leaf (min (x.depth + 1) 65535) s i 0 priors
          let s := s.setNode t leaf { x with first := i, nch := n }
          pDone (s.setHdrF t hCOUNT 4 ((s.hdrF t hCOUNT 4 + n) % 2 ^ 32))

/-- One backup from `y` up to the root (R383); `u` is the value, none for a duplicate. -/
def backWalk (t : PTree) (alt : Bool) : Nat → Nat → Option FVal → State → State × Option PErr
  | 0, _, _, s => (s, some (11, none))
  | n + 1, y, u, s =>
    match s.link t y with
    | .error e => (s, some e)
    | .ok x =>
      let x := { x with l := x.l - 1 }
      let x := match u with
        | none => x
        | some u => { x with n := min (x.n + 1) (2 ^ 32 - 1), w := fenc f32 (fsum false (v32 x.w) u).1 }
      let s := s.setNode t y x
      if x.parent = nil32 then (s, none)
      else backWalk t alt n x.parent (if alt then u.map FVal.neg else u) s

/-- The lanes of a backup, ascending: (lane, leaf, DUP, value). -/
def backups (t : PTree) (alt : Bool) : List (Nat × Word × Bool × Word) → Nat → State → PRes
  | [], st, s => ⟨s, [], true, st, none⟩
  | (i, leaf, dup, v) :: ls, st, s =>
    let x := leaf.toNat
    let stop := fun (s : State) e => let r := pErr s i e; { r with st := if st = 0 then r.st else st }
    match s.operand t x with
    | .error e => stop s e
    | .ok none => backups t alt ls (if st = 0 then 4 else st) s
    | .ok (some n) =>
      let s := if dup then s else s.setNode t x { n with flags := setFlag (setFlag n.flags 1 false) 2 false, pid := 0 }
      match backWalk t alt walkMax x (if dup then none else some (v32 v.toNat)) s with
      | (s, some e) => stop s e
      | (s, none) => backups t alt ls st s

/-- The best child of the root (R384). -/
def bestFrom (s : State) (t : PTree) (q0 : FVal) : Nat → Nat → Option (Nat × Nat × FVal) → Except PErr (Option (Nat × Nat × FVal))
  | 0, _, b => .ok b
  | n + 1, x, b =>
    match s.link t x with
    | .error e => .error e
    | .ok ch =>
      let q := if ch.n = 0 then q0 else div32 (v32 ch.w) (nat32 ch.n)
      let b := match b with
        | none => some (x, ch.n, q)
        | some (y, m, w) => if m < ch.n || (m == ch.n && above w q) then some (x, ch.n, q) else some (y, m, w)
      bestFrom s t q0 n (x + 1) b

def State.prBest (s : State) (t : PTree) : PRes :=
  match s.link t (s.hdrF t hROOT 4) with
  | .error e => { pErr s 0 e with lanes := [(0, 0xFFFFFFFF, 0)] }
  | .ok r =>
    if r.nch = 0 then { pFail s 8 with lanes := [(0, 0xFFFFFFFF, 0)] }
    else match bestFrom s t (s.pconst t).qinit r.nch r.first none with
      | .error e => { pErr s 0 e with lanes := [(0, 0xFFFFFFFF, 0)] }
      | .ok none => { pFail s 8 with lanes := [(0, 0xFFFFFFFF, 0)] }
      | .ok (some (x, _, _)) => { pDone s with lanes := [(0, BitVec.ofNat 32 x, 0)] }

/-- Whether node `y` lies in the subtree of `x`, by its links up. -/
def inSub (s : State) (t : PTree) (x : Nat) : Nat → Nat → Except PErr Bool
  | 0, _ => .error (11, none)
  | n + 1, y =>
    if y = x then .ok true
    else match s.link t y with
      | .error e => .error e
      | .ok nd => if nd.parent = nil32 then .ok false else inSub s t x n nd.parent

/-- The nodes below `n` that stay, or why the walk stopped. -/
def keepers (s : State) (t : PTree) (x : Nat) : Nat → Except PErr (List Nat)
  | 0 => .ok []
  | n + 1 =>
    match keepers s t x n with
    | .error e => .error e
    | .ok ks =>
      if s.nodeFree t n then .ok ks
      else match inSub s t x walkMax n with
        | .error e => .error e
        | .ok b => .ok (if b then n :: ks else ks)

/-- Nodes made free, the highest first; `next` is the free node above. -/
def freeAll (t : PTree) (keep : List Nat) : Nat → Nat → State → State
  | 0, next, s => s.setHdrF t hFREE 4 next
  | n + 1, next, s =>
    if keep.contains n then freeAll t keep n next s else freeAll t keep n n (s.newNode t n (freeNode next))

/-- Why a rerooting stops before it begins: the first node, in ascending order, that carries an error or a loss. -/
def State.prBusy (s : State) (t : PTree) : Option PErr :=
  (List.range (s.capOf t)).findSome? fun y => match s.readNode t y with
    | .error e => some e
    | .ok n => if n.l != 0 && !n.free then some (3, none) else none

def State.prRoot (s : State) (t : PTree) (child : Nat) : PRes :=
  let cap := s.capOf t
  match s.prBusy t with
  | some e => pErr s 0 e
  | none =>
    match s.operand t child with
    | .error e => pErr s 0 e
    | .ok none => pFail s 7
    | .ok (some x) =>
      if x.parent != s.hdrF t hROOT 4 then pFail s 7
      else match keepers s t child cap with
        | .error e => pErr s 0 e
        | .ok ks =>
          let s := freeAll t ks cap nil32 s
          let s := s.setNode t child { x with parent := nil32 }
          pDone ((s.setHdrF t hROOT 4 child).setHdrF t hCOUNT 4 ks.length)

/-- A field of a node (R386). -/
def PNode.field (x : PNode) : PSel → Nat
  | .n => x.n
  | .l => x.l
  | .flags => x.flags
  | .w => x.w
  | .p => x.p
  | .parent => x.parent
  | .first => x.first
  | .cnt => x.nch
  | .depth => x.depth
  | .act => x.act
  | .pid => x.pid

/-- The lanes of a node query. -/
def queries (s : State) (t : PTree) (sel : PSel) : List (Nat × Word) → List (Nat × Word × Word) → Nat → PRes
  | [], out, st => ⟨s, out, true, st, none⟩
  | (i, x) :: ls, out, st =>
    if s.capOf t ≤ x.toNat then queries s t sel ls (out ++ [(i, 0xFFFFFFFF, 0)]) (if st = 0 then 4 else st)
    else match s.readNode t x.toNat with
      | .error e =>
        let r := pErr s i e
        { r with st := if st = 0 then r.st else st }
      | .ok n => queries s t sel ls (out ++ [(i, BitVec.ofNat 32 (n.field sel), 0)]) st

/-! ## Creating and freeing (R379, R380) -/

/-- The die whose LPDDR holds a physical address (R394). -/
def Mgmt.dieOf (m : Mgmt) (pa : Nat) : Nat :=
  (((List.range 4).filter fun d => m.diemap.getLsbD d && decide ((sget 0 m.diebase d).toNat ≤ pa)).getLast?).getD 0

/-- The engine that places a tree whose pool begins on a die. -/
def Mgmt.engineFor (m : Mgmt) (die : Nat) : Nat :=
  if m.engine die then die else ((List.range 4).find? m.engine).getD 0

/-- The pages of a pool with their frames, or none where the pool is unusable. -/
def State.poolPins (s : State) (core ctx : Nat) (sup : Bool) (pool cap : Nat) : Option (List (Nat × Nat)) :=
  (unitsOf 4096 pool (64 * (cap + 1))).foldr (fun p acc =>
    match acc, s.xlate core ctx (p * 4096) .write sup with
    | some ps, .pa a => if s.target a = .lpddr then some ((p, a) :: ps) else none
    | _, _ => none) (some [])

/-- The header, the root and the free nodes of a new tree. -/
def State.fillPool (s : State) (t : PTree) (id : Word) (c vl qinit : Word) (mode maxch : Nat) : State :=
  let s := s.wrBytes (t.pa 0) (natBytes 4 t.cap ++ natBytes 4 (if t.cap = 1 then nil32 else 1) ++ natBytes 4 0 ++ natBytes 4 1
    ++ natBytes 4 c.toNat ++ natBytes 4 vl.toNat ++ natBytes 4 qinit.toNat ++ natBytes 1 mode ++ natBytes 1 0
    ++ natBytes 2 maxch ++ natBytes 4 0 ++ natBytes 4 id.toNat ++ List.replicate 24 0)
  let s := s.newNode t 0 ⟨0, 0, 0, 0, 0, nil32, nil32, 0, 0, 0, 0⟩
  ((List.range t.cap).drop 1).foldl (fun s i => s.newNode t i (freeNode (if i + 1 < t.cap then i + 1 else nil32))) s

def State.prNew (s : State) (core ctx : Nat) (sup : Bool) (pool cap : Nat) (c vl qinit : Word) (mode maxch : Nat) : PRes :=
  let fail := fun st => { pFail s st with lanes := [(0, 0, 0)] }
  match s.poolPins core ctx sup pool cap with
  | none => fail 9
  | some pins =>
    let eng := s.mgmt.engineFor (s.mgmt.dieOf ((pins.headD (0, 0)).2))
    match (List.range 1024).find? fun k => !(s.treeAt (eng * 1024 + k)).live with
    | none => fail 10
    | some slot =>
      let g := (s.treeAt (eng * 1024 + slot)).gen
      let gen := if g = 2 ^ 20 - 1 then 1 else g + 1
      let t : PTree := ⟨gen, true, ctx, cap, pins, pool⟩
      let id := treeId eng slot gen
      let s := (s.setTree (eng * 1024 + slot) t).fillPool t id c vl qinit mode maxch
      { pDone s with lanes := [(0, id, 0)] }

/-- An entry freed: its pins are released, its generation stays (R380). -/
def State.freeTree (s : State) (k : Nat) : State := s.setTree k { s.treeAt k with live := false, pins := [] }

/-! ## The home engine's step (R373) -/

/-- The tree an operation names. -/
def PrCmd.tree : PrCmd → Option Word
  | .desc t _ _ | .exp t _ _ | .back t _ | .root t _ | .best t | .qryNode t _ _ | .qryHdr t _ _ | .free t => some t
  | .new .. | .stat _ => none

/-- Whether an operation changes nothing (R381, R383). -/
def PrCmd.null : PrCmd → Bool
  | .desc _ _ n => n
  | .back _ ls => ls.isEmpty
  | _ => false

/-- What a stale ID answers (R369). -/
def pStale (s : State) (c : PrCmd) : PRes :=
  let ones := fun (ls : List Nat) => ls.map fun i => (i, (0xFFFFFFFF : Word), (0 : Word))
  { pFail s 1 with lanes := match c with
      | .best _ => ones [0]
      | .qryNode _ _ ns => ones (ns.map (·.1))
      | .qryHdr _ _ ls => ones ls
      | _ => [] }

/-- One operation performed. -/
def State.prPerform (s : State) (o : Op) (c : PrCmd) : PRes :=
  if c.null then pDone s
  else match c with
    | .new pool cap k vl q mode maxch sup =>
      s.prNew ((s.grp? o.gid).map (·.core) |>.getD 0) o.ctx sup pool cap k vl q mode maxch
    | .stat ls =>
      let w := ((s.grp? o.gid).map (·.pst)).getD 0
      { pDone s with lanes := ls.map fun i => (i, w, 0) }
    | c =>
      match c.tree with
      | none => pDone s
      | some id =>
        match s.tree? id o.ctx with
        | none => pStale s c
        | some t =>
          match c with
          | .desc _ k _ => s.prDesc t k
          | .exp _ leaf ps => s.prExp t leaf.toNat ps
          | .back _ ls => backups t (s.hdrF t 0x1C 1 = 1) ls 0 s
          | .root _ x => s.prRoot t x.toNat
          | .best _ => s.prBest t
          | .qryNode _ sel ns => queries s t sel ns [] 0
          | .qryHdr _ f ls =>
            let off := match f with | 0 => hROOT | 1 => hCOUNT | 2 => hFREE | _ => 0
            { pDone s with lanes := ls.map fun i => (i, BitVec.ofNat 32 (s.hdrF t off 4), 0) }
          | .free _ => pDone (s.freeTree (treeKey id))
          | _ => pDone s

/-- Whether an earlier Praline operation of the group must come first: on the same tree at the home (R373), or, for
`.stat`, any at all (R386). -/
def State.prBlocked (s : State) (o : Op) (c : PrCmd) : Bool :=
  s.ops.any fun p => p.gid == o.gid && decide (p.id < o.id) && match p.cmd with
    | .praline d => match c with
      | .stat _ => true
      | _ => p.st == .active && p.status == 0 && d.tree == c.tree
    | _ => false

/-- The results of an operation, kept until it completes: status 1 + the status code. -/
def Op.withRes (o : Op) (r : PRes) : Op :=
  let base := r.lanes.map fun x => { lane0 x.1 0 0 0 with st := .done, res := pairOf x.2.1 x.2.2, ok := r.ok }
  let bad := match r.err with
    | some (i, va) => [{ lane0 i va 0 0 with st := .done, poison := true }]
    | none => []
  { o with status := 1 + r.st, flags := 0, lanes := (lane0 64 0 0 0 |> fun l => { l with st := .done, ok := r.ok }) :: base ++ bad }

/-- Words in which two memories differ, ascending; each list of cells is in its canonical form. -/
def diffWords : Nat → List Host.Cell → List Host.Cell → List Nat
  | 0, _, _ => []
  | _, [], bs => bs.map (·.1 / 4)
  | _, as, [] => as.map (·.1 / 4)
  | n + 1, a :: as, b :: bs =>
    if a == b then diffWords n as bs
    else if a.1 < b.1 then a.1 / 4 :: diffWords n as (b :: bs)
    else if b.1 < a.1 then b.1 / 4 :: diffWords n (a :: as) bs
    else a.1 / 4 :: diffWords n as bs
/-- A sorted list without its repeats. -/
def uniq : List Nat → List Nat
  | a :: b :: l => if a = b then uniq (b :: l) else a :: uniq (b :: l)
  | l => l

/-- The operation that a reader may still see in part: its words with what they held. An earlier one of the tree is over, and
is seen whole (R373). -/
def State.noteLate (s : State) (o : Op) (c : PrCmd) (r : PRes) : State :=
  let tree := match c with
    | .new .. => (r.lanes.head?.map (·.2.1)).getD 0
    | c => c.tree.getD 0
  let ws := uniq (diffWords (s.mem.length + r.s.mem.length) s.mem r.s.mem)
  { r.s with late := (s.late.filter fun e => e.tree != tree)
      ++ ws.map fun w => ⟨o.id, tree, w, s.rdBytes (4 * w) 4, r.s.rdBytes (4 * w) 4⟩ }

/-- `PRALINE_OPERATION` (R373). -/
def execPralineOperation (op : Nat) (s : State) : Res :=
  .next (match s.op? op with
    | none => s
    | some o =>
      match o.cmd with
      | .praline c =>
        if o.st != .active || o.status != 0 || s.prBlocked o c then s
        else
          let r := s.prPerform o c
          (s.noteLate o c r).updOp op fun o => o.withRes r
      | _ => s)

/-- Low four bits of an operation's OP (R374). -/
def PrCmd.opLow : PrCmd → Nat
  | .new .. => 0
  | .desc .. => 1
  | .exp .. => 2
  | .back .. => 3
  | .root .. => 4
  | .best _ => 5
  | .qryNode .. | .qryHdr .. | .stat _ => 6
  | .free _ => 7

/-- Whether an operation writes a predicate pair. -/
def PrCmd.preds : PrCmd → Bool
  | .exp .. | .root .. => true
  | _ => false

/-- `PRALINE_COMPLETE` (R374): results, PST and path S, in the group's issue order. -/
def execPralineComplete (op : Nat) (s : State) : Res :=
  .next (match s.op? op with
    | none => s
    | some o =>
      match o.cmd with
      | .praline c =>
        if o.st != .active || o.status = 0
            || s.ops.any (fun p => p.gid == o.gid && decide (p.id < o.id) && match p.cmd with | .praline _ => true | _ => false)
        then s
        else
          let s := { s with late := s.late.filter fun e => e.op != op }
          let bad := o.lanes.filter (·.poison)
          let rs := if bad.isEmpty then o.lanes.filter fun l => decide (l.lane < 64) else []
          let ok := o.lanes.any fun l => l.lane == 64 && l.ok
          let pm := if c.preds && bad.isEmpty then o.act else 0
          let pst := BitVec.ofNat 32 (o.status - 1 + c.opLow * 256)
          let s := s.landed o.gid o.id (t := o.tag) fun g =>
            let g := match c with | .stat _ => g | _ => if o.suppressed then g else { g with pst := pst }
            match c, o.dst with
            | .desc _ _ _, .v d => if o.suppressed then g else g.putLanes (.v (d + 1)) (rs.map fun l => (l.lane, hiW l.res)) o.tag
            | _, _ => g
          let s := s.complete o (rs.map fun l => (l.lane, loW l.res)) pm (if ok then pm else 0)
          if bad.isEmpty || o.suppressed then s
          else s.landed o.gid o.id fun g => g.addPend
            ⟨12, 0x07, bad.foldl (fun m l => m ||| (1#64 <<< l.lane)) 0, o.pc,
              bad.foldl (fun m l => sset 0 m l.lane (BitVec.ofNat 64 l.va)) [], 0, 0, 8⟩
      | _ => s)

/-! ## The instructions (R377-R386) -/

/-- A Praline operation is sent to its engine. -/
def beginPraline (s : State) (o : Op) : State := s.updOp o.id fun o => { o with st := .active, stamp := s.q }

/-- A Praline operation handed over, held while tainted (R387). -/
def prSubmit (c : IC) (s : State) (k : PrCmd) (d : Dst) (p : CmpDst) (w : List Reg) (extra : Tags) : Act :=
  let o := c.mkOp s (.praline k)
  c.submit s c.g { o with dst := d, p := p, wregs := w, tag := o.tag ||| extra } extra beginPraline

def noP : CmpDst := ⟨0, 0⟩

def execPrnew (h : Hdr) (d : Dst) (pool : SReg) (cap : Opnd) (m : SReg) (s : State) : Res :=
  .next (issue (.prnew h d pool cap m) (fun s c =>
    let va := (c.g.pairS pool.toNat).toNat
    let n := c.u cap
    let r := fun k => c.g.rdS (m.toNat + k)
    if !c.ug then c.noop s
    else if c.g.sregs ≤ m.toNat + 4 then .trpU 2 0x01
    else if va % 64 != 0 then .trpA 2 0x11 va
    else if 2 ^ 54 ≤ va then .trpA 8 0x05 va
    else if n < 1 || 2 ^ 26 < n || 1 < (r 3).toNat || (r 4).toNat < 1 || 256 < (r 4).toNat then .trpU 2 0x40
    else prSubmit c s (.new va n (r 0) (r 1) (r 2) (r 3).toNat (r 4).toNat c.g.sup) d noP (rDst d) 0) s)

def execPrdesc (h : Hdr) (d : VReg) (t : SReg) (k : Opnd) (s : State) : Res :=
  .next (issue (.prdesc h d t k) (fun s c =>
    let n := c.u k
    let need := maskOf 64 fun i => decide (i < n)
    if c.ug && min c.g.width 64 < n then .trp 2 0x40 c.m
    else if c.g.vregs ≤ d.toNat + 1 then .trp 2 0x01 c.g.mask
    else if c.ug && need &&& ~~~c.m != 0 then .trp 2 0x13 (need &&& ~~~c.m)
    else if !c.ug || n = 0 then prSubmit c s (.desc (c.g.rdS t.toNat) 0 true) .none noP [] 0
    else prSubmit c s (.desc (c.g.rdS t.toNat) n false) (.v d) noP (vN d 2) 0) s)

/-- Registers that hold the priors of `n` children. -/
def priorRegs (vp : VReg) (n w : Nat) : List Reg := vN vp (ceilDiv n w)

def execPrexp (h : Hdr) (p : CmpDst) (t : SReg) (leaf count : Opnd) (vp : VReg) (s : State) : Res :=
  .next (issue (.prexp h p t leaf count vp) (fun s c =>
    let n := c.u count
    let w := c.g.width
    let rs := priorRegs vp n w
    if !c.ug then c.noop s
    else if 256 < n then .trpU 2 0x40
    else if 0 < n && c.g.vregs ≤ vp.toNat + ceilDiv n w - 1 then .trpU 2 0x01
    else if rs.any (s.busy c.g.gid).contains || (s.mIssues c.g).any (fun m => rs.any m.cRegs.contains) then .wait
    else
      let ps := (List.range n).map fun j => c.g.rdV (vp.toNat + j / w) (j % w)
      prSubmit c s (.exp (c.g.rdS t.toNat) (c.op leaf) ps) .none p (rCmp p) (c.g.tagsOf rs)) s)

def execPrback (h : Hdr) (t : SReg) (vl vv : VReg) (s : State) : Res :=
  .next (issue (.prback h t vl vv) (fun s c =>
    if c.g.vregs ≤ vl.toNat + 1 then .trp 2 0x01 c.g.mask
    else
      let ls := (lanesOf c.m).map fun i =>
        (i, c.g.rdV vl.toNat i, (c.g.rdV (vl.toNat + 1) i).getLsbD 2, c.g.rdV vv.toNat i)
      prSubmit c s (.back (c.g.rdS t.toNat) ls) .none noP [] 0) s)

def execPrroot (h : Hdr) (p : CmpDst) (t : SReg) (child : Opnd) (s : State) : Res :=
  .next (issue (.prroot h p t child) (fun s c =>
    if !c.ug then c.noop s
    else prSubmit c s (.root (c.g.rdS t.toNat) (c.op child)) .none p (rCmp p) 0) s)

def execPrbest (h : Hdr) (d : Dst) (t : SReg) (s : State) : Res :=
  .next (issue (.prbest h d t) (fun s c =>
    if !c.ug then c.noop s else prSubmit c s (.best (c.g.rdS t.toNat)) d noP (rDst d) 0) s)

def execPrqry (h : Hdr) (d : Dst) (f : PQForm) (s : State) : Res :=
  .next (issue (.prqry h d f) (fun s c =>
    let id := fun (t : SReg) => c.g.rdS t.toNat
    let k : PrCmd := match f with
      | .node sel t n => .qryNode (id t) sel (c.evalLanes.map fun i => (i, c.g.opnd n i))
      | .root t => .qryHdr (id t) 0 c.evalLanes
      | .count t => .qryHdr (id t) 1 c.evalLanes
      | .free t => .qryHdr (id t) 2 c.evalLanes
      | .cap t => .qryHdr (id t) 3 c.evalLanes
      | .stat => .stat c.evalLanes
    if !c.ug then c.noop s
    else c.launch s c.g { c.mkOp s (.praline k) with dst := d, wregs := rDst d } beginPraline) s)

def execPrfree (h : Hdr) (t : SReg) (s : State) : Res :=
  .next (issue (.prfree h t) (fun s c =>
    if !c.ug then c.noop s else prSubmit c s (.free (c.g.rdS t.toNat)) .none noP [] 0) s)

end Sys2Proof.Machine
end

