-- ==== Sys2Proof/Machine/Collective.lean ====
section
/-! DEFINITION. The group table and collectives (R258-R273). -/

namespace Sys2Proof.Machine

/-! ## The group table (R258-R260) -/

/-- Whether an entry has a collective instance or an `MCST` that has not completed at this rank. -/
def State.entryBusy (s : State) (ctx e : Nat) : Bool :=
  (s.colls.any fun i => i.ctx == ctx && i.entry == e)
    || s.ops.any fun o => o.ctx == ctx && o.st == .active && match o.cmd with | .mcst m => m.entry == e | _ => false

/-- `GSET` acts: what 0 full, 1 sequence, 2 clear. A restart forgets the abort tokens of the entry (log entry 25). -/
def beginGset (s : State) (o : Op) : State :=
  match o.cmd with
  | .gset e what members seq mcid =>
    let x := s.gent o.ctx e
    let y := match what with
      | 0 => { x with members := members, own := s.rank, seq := seq, mcid := mcid }
      | 1 => { x with seq := seq }
      | _ => { x with members := 0, seq := 0, mcid := 0 }
    let s := { s with tokens := s.tokens.filter fun t => !(t.ctx == o.ctx && t.entry == e && t.applied) }
    (s.setGent o.ctx e y).dropOp o.id
  | _ => s

/-- The shared part of the three forms; `bits` reads the member bitmap of `.full`. -/
def gsetOp (i : Instr) (e : Opnd) (what : Nat) (seq : Option Opnd) (mcid : BitVec 16) (va : IC → Option Nat) (s : State) :
    State :=
  issue i (fun s c =>
    let ctx := s.ctxOfG c.g
    let k := c.u e
    let go := fun m => c.submit s c.g
      (c.mkOp s (.gset k what m (match seq with | some q => c.op q | none => 0) mcid)) 0 beginGset
    if !c.ug then c.skip s
    else if 256 ≤ k then .trpU 2 0x25
    else if s.entryBusy ctx k then .trpU 2 0x29
    else match va c with
      | none => go 0
      | some a =>
        match s.syncRead c.g.core ctx a 128 c.g.sup with
        | .inr (x, cause) => .trpA 8 cause x
        | .inl bs => go (BitVec.ofNat 1024 (leNat bs))) s

def execGsetFull (h : Hdr) (e : Opnd) (p : SReg) (seq : Opnd) (mcid : BitVec 16) (s : State) : Res :=
  .next (gsetOp (.gsetFull h e p seq mcid) e 0 (some seq) mcid (fun c => some (c.g.pairS p.toNat).toNat) s)
def execGsetSeq (h : Hdr) (e seq : Opnd) (s : State) : Res :=
  .next (gsetOp (.gsetSeq h e seq) e 1 (some seq) 0 (fun _ => none) s)
def execGsetClear (h : Hdr) (e : Opnd) (s : State) : Res :=
  .next (gsetOp (.gsetClear h e) e 2 none 0 (fun _ => none) s)

/-- What `GQRY` reads (R260). -/
def GEntry.field (x : GEntry) (sel : GSel) (k : Nat) : Word :=
  match sel with
  | .seq => x.seq
  | .own => BitVec.ofNat 32 x.own
  | .mcid => x.mcid.setWidth 32
  | .word => if 32 ≤ k then 0 else BitVec.ofNat 32 (fld x.members.toNat (32 * k) 32)
  | .count => BitVec.ofNat 32 (popcount x.members)
  | .abort => x.abseq
  | .frank => BitVec.ofNat 32 (x.abrank % 1024 + x.abcause.toNat * 2 ^ 16)
  | .path => if 256 ≤ k then 0 else sget 0 x.paths k

def execGqry (h : Hdr) (d : Dst) (sel : GSel) (e k : Opnd) (s : State) : Res :=
  .next (issue (.gqry h d sel e k) (fun s c =>
    if !c.ug then c.skip s
    else if 256 ≤ c.u e then .trpU 2 0x25
    else c.put s d 0 fun _ => (s.gent (s.ctxOfG c.g) (c.u e)).field sel (c.u k)) s)

/-! ## Sizes and data (R262, R267, R268) -/

def collSize : CollTy → Nat
  | .i32 | .f32 => 4
  | .bf16 | .f16 => 2

/-- Elements of the source and of the destination at a member; `n` members, `c` elements. -/
def collElems (op : CollOp) (n c : Nat) : Nat × Nat :=
  match op with
  | .allreduce | .bcast => (c, c)
  | .redscat => (n * c, c)
  | .allgather => (c, n * c)
  | .alltoall => (n * c, n * c)
  | .barrier => (0, 0)

/-- Elements of a byte string. -/
def elemsOf (sz : Nat) : Nat → List Byte → List Nat
  | 0, _ => []
  | n + 1, bs => leNat (bs.take sz) :: elemsOf sz n (bs.drop sz)

/-- `op` of R267 on one type. -/
def collOp (ty : CollTy) (red : RedOp) (a b : Nat) : Nat × BitVec 7 :=
  match ty with
  | .i32 => ((iUpd false red (BitVec.ofNat 32 a) (BitVec.ofNat 32 b)).toNat, 0)
  | .f32 => fUpd (ffmt .f32) red a b
  | .bf16 => fUpd (ffmt .bf16) red a b
  | .f16 => fUpd (ffmt .f16) red a b

/-- One block of 16 values across an SB7 wire (R268), with FZ as 0 (log entry 117). -/
def wireBlock (b : List Nat) : List Nat × BitVec 7 :=
  let vs := b.map fun x => fval (ffmt .f32) false x
  if vs.any fun v => v.isNan || v.isInf then (b, 0)
  else
    let (x, fl) := sbEncode 7 vs
    ((List.range b.length).map fun j => fenc (ffmt .f32) (elemOf .sb7 x j).val, fl)

/-- `wire` on a segment, block by block. -/
def wireSeg : Nat → List Nat → List Nat × BitVec 7
  | 0, xs => (xs, 0)
  | n + 1, xs =>
    if xs.isEmpty then ([], 0)
    else
      let (a, f) := wireBlock (xs.take 16)
      let (r, g) := wireSeg n (xs.drop 16)
      (a ++ r, f ||| g)

/-- Two segments combined element by element. -/
def combine (f : CollF) (a b : List Nat) : List Nat × BitVec 7 :=
  let (w, fl) := if f.sb7 then wireSeg (b.length + 1) b else (b, 0)
  let rs := (a.zip w).map fun x => collOp f.ty f.red x.1 x.2
  (rs.map (·.1), rs.foldl (fun g x => g ||| x.2) fl)

/-- One level of the tree: neighbours combined, the odd tail carried unchanged. -/
def treeLevel (f : CollF) : List (List Nat) → List (List Nat) × BitVec 7
  | a :: b :: rest =>
    let (x, fl) := combine f a b
    let (r, fl') := treeLevel f rest
    (x :: r, fl ||| fl')
  | r => (r, 0)

/-- The fixed tree over the members' segments, in position order (R267). -/
def reduceTree (f : CollF) : Nat → List (List Nat) → List Nat × BitVec 7
  | 0, ts => (ts.headD [], 0)
  | n + 1, ts =>
    if ts.length ≤ 1 then (ts.headD [], 0)
    else
      let (r, fl) := treeLevel f ts
      let (x, fl') := reduceTree f n r
      (x, fl ||| fl')

/-- Segment `p` of `c` elements. -/
def segment (c p : Nat) (xs : List Nat) : List Nat := (xs.drop (c * p)).take c

/-- A member's destination and the flags of the whole reduction, from all sources in position order; `root` is the
root's position. -/
def collResult (f : CollF) (n c pos root : Nat) (src : List (List Nat)) : List Nat × BitVec 7 :=
  match f.op with
  | .allreduce => reduceTree f n src
  | .redscat =>
    let rs := (List.range n).map fun p => reduceTree f n (src.map (segment c p))
    ((rs.getD pos ([], 0)).1, rs.foldl (fun g x => g ||| x.2) 0)
  | .allgather => (src.flatten, 0)
  | .bcast => (src.getD root [], 0)
  | .alltoall => ((src.map (segment c pos)).flatten, 0)
  | .barrier => ([], 0)

/-! ## Instances (R263-R266, R269, R270) -/

/-- Whether a sequence lies above another, counted modulo 2^32. -/
def seqAbove (a b : Word) : Bool := 0 < (a - b).toNat && (a - b).toNat < 2 ^ 31

def CollInst.members (i : CollInst) (s : State) : List Nat := membersOf (s.gent i.ctx i.entry).members
def CollInst.is (i : CollInst) (ctx entry : Nat) : Bool := i.ctx == ctx && i.entry == entry

/-- The instance of an entry that is carried out now. -/
def State.headInst (s : State) (ctx entry : Nat) : Option CollInst := s.colls.find? fun i => i.is ctx entry
def State.updInst (s : State) (ctx entry : Nat) (seq : Word) (f : CollInst → CollInst) : State :=
  { s with colls := s.colls.map fun i => if i.is ctx entry && i.seq == seq then f i else i }
def State.dropInst (s : State) (i : CollInst) : State :=
  { s with colls := s.colls.filter fun j => !(j.is i.ctx i.entry && j.seq == i.seq) }

/-- An instance's signature (R265). -/
def CollInst.sig (i : CollInst) : Signature :=
  ⟨i.f.op, i.f.ty, i.f.red, i.f.sb7, BitVec.ofNat 32 i.count, i.f.root, i.seq⟩

/-- The sixteen words of a resolved handle (R270). -/
def collWords (status : Nat) (i : CollInst) (paths : List Word) (s6 s7 : Word) : List Word :=
  let sum := (paths.map (·.toNat)).foldl (· + ·) 0
  let ns := paths.map (·.toNat)
  let skew := ns.foldl max 0 - ns.foldl min (ns.headD 0)
  padTo 16 [BitVec.ofNat 32 status, i.seq, BitVec.ofNat 32 sum, BitVec.ofNat 32 (sum / 2 ^ 32),
    BitVec.ofNat 32 (2 ^ i.f.slog.toNat), BitVec.ofNat 32 skew, s6, s7]

/-- Path words: one for each entropy value of the instance; none elsewhere. -/
def pathTable (ps : List Word) : Sparse Word :=
  (ps.zip (List.range ps.length)).foldl (fun t x => sset 0 t x.2 x.1) []

/-- Entropy value of an instance's `k`-th packet (R270). -/
def CollInst.entropy (i : CollInst) (k : Nat) : Nat := (i.f.sbase.toNat + k % 2 ^ i.f.slog.toNat) % 256

/-- Bytes sent on each path of an instance, from the payload bytes of its packets in the order of their first sending
(R270). -/
def CollInst.paths (i : CollInst) (packets : List Nat) : List Word :=
  let ks := packets.zip (List.range packets.length)
  (List.range (2 ^ i.f.slog.toNat)).map fun j =>
    BitVec.ofNat 32 (sumNat ((ks.filter fun x => i.entropy x.2 == i.entropy j).map (·.1)))

/-- Packets of an instance that ends without its event saying what was sent: their number and sizes are free (log entry
26). -/
def freePackets (s : State) : List Nat :=
  (List.range (Config.freeWord s.free).toNat).map fun k => (Config.freeWord (s.free + 1 + k)).toNat % (packetMax + 1)
def State.drawPackets (s : State) : State := { s with free := s.free + 1 + (freePackets s).length }

/-- An instance completes at this member: handle, PATHS, flags and counter, in that order (R269). -/
def State.finish (s : State) (i : CollInst) (status : Nat) (paths : List Word) (elems : List Word) (fl : BitVec 7) : State :=
  let s := s.dropInst i
  let s := s.settleHandle i.handle .resolved 0 (collWords status i paths 0 0) elems s.rank
  let s := s.setGent i.ctx i.entry { s.gent i.ctx i.entry with paths := pathTable paths }
  let s := s.landed i.gid i.op fun g => g.raise fl
  if i.f.raise then s.raiseCounter i.ctx i.f.cn.toNat else s

/-- The first elements of a destination, as `GUESS` compares them (R292). -/
def elemWords (xs : List Nat) : List Word := (xs.take 16).map fun x => BitVec.ofNat 32 x

/-- An instance's window access at this rank, as its lookup decided it, or as it would now (R235): a physical address, or a cause. -/
def State.collPa (s : State) (i : CollInst) (at_ : Option Nat) (off n : Nat) (need : Need) : Tr :=
  match at_ with
  | some a => .pa a
  | none => s.export_ i.f.win.toNat off n need

/-- Bytes that a member reads of its own source, and those of its destination (R262). -/
def CollInst.srcLen (i : CollInst) (rank n : Nat) : Nat :=
  if i.f.op = .bcast && i.f.root.toNat != rank then 0 else (collElems i.f.op n i.count).1 * collSize i.f.ty
def CollInst.dstLen (i : CollInst) (n : Nat) : Nat := (collElems i.f.op n i.count).2 * collSize i.f.ty

/-- This member's source bytes, or what makes them a fatal fault (R271). -/
def State.ownSource (s : State) (i : CollInst) (n : Nat) : List Byte ⊕ Nat :=
  let len := i.srcLen s.rank n
  if len = 0 then .inl []
  else match s.collPa i i.from_ i.src len .rd with
    | .bad c => .inr c
    | .pa a => if s.poisoned a len then .inr 0x10 else .inl (s.homeRead a len)

/-- This member's destination, or what refuses it. -/
def State.ownDest (s : State) (i : CollInst) (n : Nat) : Option Nat ⊕ Nat :=
  let len := i.dstLen n
  if len = 0 then .inl none
  else match s.collPa i i.to_ i.dst len .wr with
    | .bad c => .inr c
    | .pa a => .inl (some a)

/-- The next lookup of an instance's own accesses (R235): none when both are decided, or are of no bytes; else the instance with an
access let pass, or unchanged where it is refused, which is a fatal fault (R271). -/
def State.collLook (s : State) (i : CollInst) (n : Nat) : Option CollInst :=
  if i.srcLen s.rank n != 0 && i.from_.isNone then
    some (match s.export_ i.f.win.toNat i.src (i.srcLen s.rank n) .rd with | .pa a => { i with from_ := some a } | .bad _ => i)
  else if i.dstLen n != 0 && i.to_.isNone then
    some (match s.export_ i.f.win.toNat i.dst (i.dstLen n) .wr with | .pa a => { i with to_ := some a } | .bad _ => i)
  else none

/-- A fatal fault of this member's own accesses (R271). -/
def State.ownFault (s : State) (i : CollInst) : Option Nat :=
  let n := (i.members s).length
  match s.ownSource i n, s.ownDest i n with
  | .inr c, _ => some c
  | _, .inr c => some c
  | _, _ => none

/-! ## Aborts (R271, R272) -/

/-- An asynchronous or deferred trap's record with nothing the spec fixes but class, subcode and CODE; its CPC is free
(log entry 27). -/
def asyncTrap (s : State) (cls sub : Nat) (code : Word) : TrapRec :=
  ⟨cls, sub, 0, Config.freeWord s.free, [], code, 0, 0⟩

/-- Whether element `j` of a member's destination depends on that member's own source (R262). -/
def CollInst.needsOwn (i : CollInst) (root : Bool) (pos j : Nat) : Bool :=
  match i.f.op with
  | .bcast => root
  | .allgather | .alltoall => decide (i.count * pos ≤ j) && decide (j < i.count * (pos + 1))
  | _ => true

/-- The sources of all members in position order, with this member's own; what others sent is free (log entry 28). -/
def State.someSources (s : State) (i : CollInst) (own : List Nat) (draw : Nat) : List (List Nat) :=
  let ms := i.members s
  let ks := (collElems i.f.op ms.length i.count).1
  (ms.zip (List.range ms.length)).map fun x =>
    if i.f.op = .bcast && x.1 != i.f.root.toNat then []
    else if x.1 = s.rank then own
    else (List.range ks).map fun j => (Config.freeWord (draw + x.2 * ks + j)).toNat % 2 ^ (8 * collSize i.f.ty)

/-- Elements of an aborted destination: each holds its old value or its final one, and no rule says which (R272; log entry
28). The final values are those that some sources of the other members give; without this member's own source what depends on
it has none. -/
def State.mixDest (s : State) (i : CollInst) : State :=
  let ms := i.members s
  let n := ms.length
  let (ks, k) := collElems i.f.op n i.count
  let sz := collSize i.f.ty
  let pos := ms.idxOf s.rank
  let own : Option (List Nat) := match s.ownSource i n with | .inl bs => some (elemsOf sz ks bs) | .inr _ => none
  let xs := (collResult i.f n i.count pos (ms.idxOf i.f.root.toNat)
    (s.someSources i (own.getD (List.replicate ks 0)) (s.free + k))).1
  match s.ownDest i n with
  | .inl (some pa) =>
    let s' := (List.range k).foldl (fun (t : State) j =>
      if (Config.freeWord (s.free + j)).getLsbD 0 && (own.isSome || !i.needsOwn (i.f.root.toNat == s.rank) pos j) then
        t.homeWrite (pa + sz * j) (natBytes sz (xs.getD j 0)) else t) s
    { s' with free := s.free + k + n * ks }
  | _ => s

/-- One aborted instance's handle; bytes it had sent are free. -/
def State.endAborted (s : State) (st : Word) (ab : Word) (i : CollInst) : State :=
  let s := match i.ph with | .data => s.mixDest i | _ => s
  let ps := i.paths (match i.ph with | .queued => [] | _ => freePackets s)
  let s := match i.ph with | .queued => s | _ => s.drawPackets
  (s.dropInst i).settleHandle i.handle .resolved 0 (collWords 2 i ps st ab) [] s.rank

/-- What a member does once per failed sequence `seq` (R272). -/
def State.applyAbort (s : State) (ctx entry : Nat) (seq : Word) (rank : Nat) (cause : BitVec 8) : State :=
  let st := seq - 1
  let ab := BitVec.ofNat 32 (rank % 1024 + cause.toNat * 2 ^ 16)
  let hit := s.colls.filter fun i => i.is ctx entry && seqAbove i.seq st
  let s := hit.foldl (fun s i => s.endAborted st ab i) s
  let s := s.setGent ctx entry { s.gent ctx entry with seq := st, abseq := st, abrank := rank, abcause := cause }
  let t := asyncTrap s 13 0x01 (BitVec.ofNat 32 entry)
  let s := s.draw
  let s := { s with
    sigs := s.sigs.filter fun x => !(x.ctx == ctx && x.entry == entry)
    groups := s.groups.map fun g =>
      match hit.find? fun i => i.gid == g.gid with
      | some i => g.landed i.op fun g => g.addPend t
      | none => g }
  hit.foldl (fun s i => if i.f.raise then s.raiseCounter ctx i.f.cn.toNat else s) s

/-- A token taken: applied now, kept for a sequence not yet issued here, or discarded as a second one. -/
def State.takeToken (s : State) (ctx entry : Nat) (seq : Word) (rank : Nat) (cause : BitVec 8) : State :=
  if s.tokens.any fun t => t.ctx == ctx && t.entry == entry && t.seq == seq then s
  else
    let later := seqAbove seq (s.gent ctx entry).seq
    let s := { s with tokens := ⟨ctx, entry, seq, rank, cause, !later⟩ :: s.tokens }
    if later then s else s.applyAbort ctx entry seq rank cause

/-- A fault that this member detects: it applies the token and sends it to every other member. -/
def State.raiseFault (s : State) (i : CollInst) (rank : Nat) (cause : BitVec 8) : State :=
  let ms := i.members s
  let s := ms.foldl (fun s m => if m = s.rank then s else s.emit (.abort m i.ctx i.entry i.seq rank cause)) s
  s.takeToken i.ctx i.entry i.seq rank cause

/-! ## The handshake (R265, R266) -/

def State.sigsOf (s : State) (ctx entry : Nat) : List (Nat × Signature) :=
  match s.sigs.find? fun x => x.ctx == ctx && x.entry == entry with | some x => x.sigs | none => []
def State.setSigs (s : State) (ctx entry : Nat) (l : List (Nat × Signature)) : State :=
  { s with sigs := ⟨ctx, entry, l⟩ :: s.sigs.filter fun x => !(x.ctx == ctx && x.entry == entry) }

/-- The anchor judges once every member's signature is there: the verdict goes to every member (R265). -/
def State.judge (s : State) (ctx entry : Nat) : State :=
  let l := s.sigsOf ctx entry
  let ms := membersOf (s.gent ctx entry).members
  let firsts := ms.map fun m => (m, l.find? fun x => x.1 == m)
  if ms.isEmpty || firsts.any fun x => x.2.isNone then s
  else
    let sg := firsts.filterMap fun x => x.2.map (·.2)
    let equal := sg.all fun x => some x == sg.head?
    let s := s.setSigs ctx entry (firsts.foldl (fun l x => match x.2 with | some y => l.erase y | none => l) l)
    (ms.zip sg).foldl (fun s x =>
      if x.1 = s.rank then s.updInst ctx entry x.2.seq fun i => if i.ph = .signed then { i with ph := .verdict equal } else i
      else s.emit (.verdict x.1 ctx entry x.2.seq equal)) s

/-- A signature on its way to the anchor. -/
def State.sign (s : State) (i : CollInst) : State :=
  let anchor := (i.members s).headD s.rank
  if anchor = s.rank then
    (s.setSigs i.ctx i.entry (s.sigsOf i.ctx i.entry ++ [(s.rank, i.sig)])).judge i.ctx i.entry
  else s.emit (.signature anchor i.ctx i.entry i.sig)

/-- An instance of no bytes completes locally at once; with other members, its signature still leaves (R266). -/
def State.localComplete (s : State) (i : CollInst) : State :=
  let s := if (i.members s).length = 1 then s else s.sign i
  s.finish i 0 (i.paths []) [] 0

/-- The entry's next instance begins: one of no elements, and a barrier of one member, completes at once; one member's own data is
moved with no handshake; any other signs (R264-R266). -/
def collAdvance (ctx entry : Nat) : Nat → State → State
  | 0, s => s
  | n + 1, s =>
    match s.headInst ctx entry with
    | none => s
    | some i =>
      if i.ph != .queued then s
      else if i.count = 0 && (i.f.op != .barrier || (i.members s).length = 1) then
        collAdvance ctx entry n (s.localComplete i)
      else if (i.members s).length = 1 then s.updInst ctx entry i.seq fun i => { i with ph := .data }
      else (s.updInst ctx entry i.seq fun i => { i with ph := .signed }).sign i

/-- The same, as far as it goes. -/
def State.advance (s : State) (ctx entry : Nat) : State := collAdvance ctx entry (s.colls.length + 1) s

/-! ## `COLL` (R261, R263) -/

/-- Instances of a context that may be outstanding on a rank. -/
def collMax : Nat := 64

/-- A collective is issued: the sequence advances and the instance is queued (R263); a token that waited for it applies
(R272). -/
def beginColl (s : State) (o : Op) : State :=
  match o.cmd with
  | .coll i =>
    let x := s.gent i.ctx i.entry
    let seq := x.seq + 1
    let i := { i with seq := seq, ph := .queued }
    let s := (s.dropOp o.id).setGent i.ctx i.entry { x with seq := seq }
    let s := { s with colls := s.colls ++ [i] }
    match s.tokens.find? fun t => t.ctx == i.ctx && t.entry == i.entry && t.seq == seq && !t.applied with
    | some t =>
      let s := { s with tokens := s.tokens.map fun y => if y = t then { y with applied := true } else y }
      s.applyAbort i.ctx i.entry seq t.rank t.cause
    | none => s.advance i.ctx i.entry
  | _ => s

/-- The checks of R263, in order. -/
def collCheck (s : State) (x : GEntry) (f : CollF) (n src dst count : Nat) : Option Act :=
  let sz := collSize f.ty
  let a := (collElems f.op n count).1 * sz
  let b := (collElems f.op n count).2 * sz
  let reads := !(f.op = .bcast && f.root.toNat != s.rank)
  let e := (s.window f.win.toNat).eff
  if x.members = 0 || !x.members.getLsbD x.own || (f.op = .bcast && !x.members.getLsbD f.root.toNat) then some (.trpU 2 0x25)
  else if f.op = .barrier && (count != 0 || src != 0 || dst != 0) then some (.trpU 2 0x25)
  else if src % 4 != 0 || dst % 4 != 0 then some (.trpU 2 0x11)
  else if wKind e != 1 || !wRd e || !wWr e || wRev e || (reads && wLength e < src + a) || wLength e < dst + b then
    some (.trpU 2 0x26)
  else if reads && overlap src a dst b && !(src = dst && a = b && (f.op = .allreduce || f.op = .bcast)) then
    some (.trpU 2 0x27)
  else none

def execColl (h : Hdr) (d : SReg) (f : CollF) (src dst count : Opnd) (s : State) : Res :=
  .next (issue (.coll h d f src dst count) (fun s c =>
    let ctx := s.ctxOfG c.g
    let x := s.gent ctx f.entry.toNat
    if !c.ug then c.skip s
    else if collMax ≤ (s.colls.filter fun i => i.ctx == ctx).length then .wait
    else match collCheck s x f (popcount x.members) (c.u src) (c.u dst) (c.u count) with
      | some a => a
      | none =>
        match s.mintHandle ctx 2 s.rank with
        | none => .trpU 2 0x28
        | some (s, hd) =>
          let i : CollInst := ⟨ctx, f.entry.toNat, 0, c.g.gid, s.nextId, f, c.u src, c.u dst, c.u count, hd, .queued, none, none⟩
          c.submit s (c.g.wrPair d.toNat hd c.t) (c.mkOp s (.coll i)) 0 beginColl) s)

/-! ## The engines' steps -/

/-- `HANDSHAKE_SIGNATURE` (R265): another member's signature reaches this rank as the entry's anchor. -/
def execHandshakeSignature (ctx entry member : Nat) (sig : Signature) (s : State) : Res :=
  .next (
    let ms := membersOf (s.gent ctx entry).members
    if !s.mgmt.booted || (s.ctx? ctx).isNone || ms.headD noRank != s.rank || member = s.rank || !ms.contains member then s
    else (s.setSigs ctx entry (s.sigsOf ctx entry ++ [(member, sig)])).judge ctx entry)

/-- `VERDICT` (R265, R269): the data phase begins, a barrier completes, or the instance ends MISMATCH. -/
def execVerdict (ctx entry : Nat) (seq : Word) (equal : Bool) (s : State) : Res :=
  .next (match s.headInst ctx entry with
    | none => s
    | some i =>
      let anchor := (i.members s).headD s.rank
      let v : Option Bool := match i.ph with
        | .verdict e => some e
        | .signed => if anchor != s.rank && seq = i.seq then some equal else none
        | _ => none
      let ps := i.paths (freePackets s)
      match v with
      | none => s
      | some false => (s.drawPackets.finish i 1 ps [] 0).advance ctx entry
      | some true =>
        if i.f.op = .barrier then (s.drawPackets.finish i 0 ps [] 0).advance ctx entry
        else s.updInst ctx entry i.seq fun i => { i with ph := .data })

/-- The sources in position order: this member's own, and what the others sent. -/
def State.sources (s : State) (i : CollInst) (own : List Byte) (far : List (Nat × List Byte)) : Option (List (List Nat)) :=
  let ms := i.members s
  let k := (collElems i.f.op ms.length i.count).1
  ms.foldr (fun m acc =>
    match acc with
    | none => none
    | some l =>
      if i.f.op = .bcast && m != i.f.root.toNat then some ([] :: l)
      else if m = s.rank then some (elemsOf (collSize i.f.ty) k own :: l)
      else match far.find? fun x => x.1 == m with
        | some x => some (elemsOf (collSize i.f.ty) k x.2 :: l)
        | none => none) (some [])

/-- `COLL_COMPLETE` (R269): this member's own accesses are looked up, one at a turn (R235); then the destination is performed and
everything sent is acknowledged. `far` holds the other members' source bytes and `packets` the payload bytes of each packet this
member sent, in order (R270): none where it is the only one (R266). When the engine reads and writes is log entry 109. -/
def execCollComplete (ctx entry : Nat) (seq : Word) (far : List (Nat × List Byte)) (packets : List Nat) (s : State) : Res :=
  .next (match s.headInst ctx entry with
    | none => s
    | some i =>
      let ms := i.members s
      if i.ph != .data || i.seq != seq then s
      else match s.collLook i ms.length with
      | some i' => s.updInst ctx entry seq fun _ => i'
      | none =>
        match s.ownSource i ms.length, s.ownDest i ms.length with
        | .inl own, .inl a =>
          match s.sources i own far with
          | none => s
          | some src =>
            let (xs, fl) := collResult i.f ms.length i.count (ms.idxOf s.rank) (ms.idxOf i.f.root.toNat) src
            let s := match a with | some pa => s.homeWrite pa (xs.flatMap fun x => natBytes (collSize i.f.ty) x) | none => s
            let ps := if ms.length = 1 then [] else packets.map (min packetMax)
            (s.finish i 0 (i.paths ps) (elemWords xs) fl).advance ctx entry
        | _, _ => s)

/-- Whether an instance makes accesses at a member now (R265, R271): in the handshake only a member and its anchor exchange
messages. -/
def CollInst.reaches (i : CollInst) (s : State) (rank : Nat) : Bool :=
  let ms := i.members s
  let anchor := ms.headD s.rank
  ms.contains rank && match i.ph with
    | .queued => false
    | .data => true
    | _ => rank == anchor || s.rank == anchor

/-- `FATAL_FAULT` (R271): of an access to this member's own memory, which the response limit may end too (R236), or of one at
another member that refuses it with a cause of R237, in the handshake too. -/
def execFatalFault (ctx entry : Nat) (seq : Word) (rank : Nat) (cause : BitVec 8) (s : State) : Res :=
  .next (match s.headInst ctx entry with
    | none => s
    | some i =>
      if i.seq != seq then s
      else if rank = s.rank then
        match i.ph, s.ownFault i with
        | .data, some c => s.raiseFault i s.rank (BitVec.ofNat 8 c)
        | _, _ => if cause == noReply && i.reaches s rank then s.raiseFault i rank cause else s
      else if i.reaches s rank && 1 ≤ cause.toNat && cause.toNat ≤ 8 then s.raiseFault i rank cause
      else s)

/-- `ABORT_TOKEN` (R272): a token of another member. -/
def execAbortToken (ctx entry : Nat) (seq : Word) (rank : Nat) (cause : BitVec 8) (s : State) : Res :=
  .next (if !s.mgmt.booted || (s.ctx? ctx).isNone then s else s.takeToken ctx entry seq rank cause)

end Sys2Proof.Machine
end

