-- ==== Sys2Proof/Machine/Control.lean ====
section
/-! DEFINITION. Control transfers, the mark-join stack, pausing, format and debug (R78-R86). -/

namespace Sys2Proof.Machine

/-- A target formed from an offset: (PC + sint(imm)) mod 2^54 (R78). -/
def offTarget (pc : DWord) (imm : Word) : DWord := mod54 (pc + imm.signExtend 64)

def execNop (s : State) : Res := .next (issue .nop (fun s c => c.skip s) s)

/-- `BRA` (R79). -/
def execBra (h : Hdr) (off : Word) (s : State) : Res :=
  .next (issue (.bra h off) (fun s c =>
    let g := c.g
    let e := c.m
    let n := g.mask &&& ~~~e
    let tgt := offTarget g.pc off
    if e = 0 then c.skip s
    else if badTarget tgt then .trp 0 0x0A e
    else if n = 0 then .go s (some tgt) none
    else match g.stack with
      | [] => .trp 7 0x02 e
      | top :: rest =>
        if top.pmask != 0 then .trp 7 0x03 e
        else .go (s.setG { g with
            stack := { top with pmask := n, ppc := c.next, pfmt := g.fmt } :: rest
            mask := e }) (some tgt) none) s)

/-- A transfer of the whole group (R81): `link` is written first. A pair with bits 63:54 set holds no address (R63, R191). -/
def jumpAll (c : IC) (s : State) (tgt : DWord) (link : Option SReg) : Act :=
  if c.m = 0 then c.skip s
  else if c.m != c.g.mask then .trpU 7 0x05
  else if badTarget tgt then .trpU 0 0x0A
  else if 2 ^ 54 ≤ tgt.toNat then .trpA 8 0x05 tgt.toNat
  else
    let g := match link with | some d => c.g.wrPair d.toNat c.next c.t | none => c.g
    .go (s.setG g) (some tgt) none

def execBrx (h : Hdr) (a : SReg) (s : State) : Res :=
  .next (issue (.brx h a) (fun s c => jumpAll c s (c.g.pairS a.toNat) none) s)
def execCall (h : Hdr) (d : SReg) (off : Word) (s : State) : Res :=
  .next (issue (.call h d off) (fun s c => jumpAll c s (offTarget c.g.pc off) (some d)) s)
def execCallx (h : Hdr) (d a : SReg) (s : State) : Res :=
  .next (issue (.callx h d a) (fun s c => jumpAll c s (c.g.pairS a.toNat) (some d)) s)
def execRet (h : Hdr) (a : SReg) (s : State) : Res :=
  .next (issue (.ret h a) (fun s c => jumpAll c s (c.g.pairS a.toNat) none) s)

/-- `MARK` (R80). -/
def execMark (off : Word) (s : State) : Res :=
  .next (issue (.mark off) (fun s c =>
    let j := offTarget c.g.pc off
    if badTarget j then .trpU 0 0x0A
    else if c.g.stack.length = 32 then .trpU 7 0x01
    else c.goG s { c.g with stack := ⟨j, c.g.mask, c.g.fmt, 0, 0, 0⟩ :: c.g.stack }) s)

/-- `JOIN` (R80): switch to the pending path, or reconverge. -/
def execJoin (s : State) : Res :=
  .next (issue .join (fun s c =>
    match c.g.stack with
    | [] => .trpU 7 0x04
    | top :: rest =>
      if c.g.pc != top.join then .trpU 7 0x04
      else if top.pmask != 0 then
        if badTarget top.ppc then .trpU 0 0x0A
        else .go (s.setG { c.g with
            mask := top.pmask
            fmt := top.pfmt
            stack := { top with pmask := 0 } :: rest }) (some top.ppc) none
      else c.goG s { c.g with mask := top.mask, fmt := top.fmt, stack := rest }) s)

/-- `EXIT` (R80); a tainted group parks first (R306). -/
def execExit (h : Hdr) (s : State) : Res :=
  .next (issue (.exit h) (fun s c =>
    if c.m = 0 then c.skip s
    else if c.g.dep != 0 then c.goG s { c.g with park := some (.exitTainted c.m) }
    else
      let g := c.g.exitLanes c.m c.next
      .go (s.setG g) (some g.pc) none) s)

/-- `YIELD` (R83). -/
def execYield (h : Hdr) (s : State) : Res :=
  .next (issue (.yield h) (fun s c =>
    if c.ug then c.goG s { c.g with park := some .yielded } else c.skip s) s)

/-- `SLEEP` for `n` nanoseconds of `%clock` (R84). -/
def sleepFor (c : IC) (s : State) (n : Word) : Act :=
  if !c.ug then c.skip s
  else if n = 0 then c.goG s { c.g with park := some .yielded }
  else c.goG s { c.g with park := some (.sleep (s.clock + n.setWidth 64)) }

def execSleep (h : Hdr) (b : Opnd) (s : State) : Res :=
  .next (issue (.sleep h b) (fun s c => sleepFor c s (c.op b)) s)
def execSleepImm (h : Hdr) (imm : Word) (s : State) : Res :=
  .next (issue (.sleepImm h imm) (fun s c => sleepFor c s imm) s)

/-- A sleeper's deadline has come (R84). -/
def execSleepDeadline (gid : Nat) (s : State) : Res :=
  .next (s.updG gid fun g =>
    match g.park with
    | some (.sleep dl) => if dl.toNat ≤ s.clock.toNat then { g with park := none } else g
    | _ => g)

/-- Bits of `%fmt` that a selection of fields writes (R65, R85). -/
def fmtMask (sel : BitVec 5) : Word :=
  (if sel.getLsbD 0 then 0x00F else 0) ||| (if sel.getLsbD 1 then 0x0F0 else 0)
    ||| (if sel.getLsbD 2 then 0x300 else 0) ||| (if sel.getLsbD 3 then 0xC00 else 0)
    ||| (if sel.getLsbD 4 then 0x1000 else 0)

/-- Whether a write of the selected fields places a reserved code (R65). -/
def fmtBad (sel : BitVec 5) (x : Word) : Bool :=
  (sel.getLsbD 0 && decide (9 ≤ fld x.toNat 0 4)) || (sel.getLsbD 1 && decide (9 ≤ fld x.toNat 4 4))
    || (sel.getLsbD 2 && decide (2 ≤ fld x.toNat 8 2))

/-- A write of `%fmt` fields (R65, R85, R207). -/
def writeFmt (c : IC) (s : State) (sel : BitVec 5) (x : Word) : Act :=
  if !c.ug then c.skip s
  else if fmtBad sel x then .trpU 2 0x06
  else c.goG s { c.g with fmt := (c.g.fmt &&& ~~~(fmtMask sel)) ||| (x &&& fmtMask sel) }

def execSetfmt (h : Hdr) (sel : BitVec 5) (b : Opnd) (s : State) : Res :=
  .next (issue (.setfmt h sel b) (fun s c => writeFmt c s sel (c.op b)) s)
def execSetfmtImm (h : Hdr) (sel : BitVec 5) (imm : Word) (s : State) : Res :=
  .next (issue (.setfmtImm h sel imm) (fun s c => writeFmt c s sel imm) s)
def execGetfmt (h : Hdr) (d : Dst) (s : State) : Res :=
  .next (issue (.getfmt h d) (fun s c => c.put s d 0 fun _ => c.g.fmt) s)

/-- `BREAK` (R86). -/
def execBreak (h : Hdr) (code : BitVec 8) (s : State) : Res :=
  .next (issue (.brk h code) (fun s c =>
    if c.ug then .trap 14 code.toNat 1 [] (code.setWidth 32) else c.skip s) s)

end Sys2Proof.Machine
end

