-- ==== Sys2Proof/Machine/Fetch.lean ====
section
/-! DEFINITION. Fetching an instruction's bytes (R37, R38, R318), the traps of a fetch, and what the step does before an
instruction: pending traps (R212) and illegal encodings (R57). -/

namespace Sys2Proof.Machine

/-- What a fetch finds: the block offset with the bytes from there to the block's end, a fault, or poison. -/
inductive Fetched where
  | code (off : Nat) (bytes : List Byte)
  | bad (cause : Nat)
  | poison
  deriving DecidableEq, Repr

/-- The cached copy of a block, if the cache still holds it (log entry 5), whatever has been stored there since; never one
that was read before the group's last `FENCE.code`, on whatever core it now runs (R40, R318). -/
def State.cached (s : State) (g : Group) (pa : Nat) : Option ICLine :=
  (s.icache.find? fun l => l.core == g.core && l.pa == pa).filter fun l => decide (g.codeAt ≤ l.filled) && Config.freeKeep s.free

/-- The cache after a block was read from memory. -/
def State.fill (s : State) (core pa : Nat) (bs : List Byte) : State :=
  { s with icache := ⟨core, pa, bs, s.free⟩ :: s.icache.filter fun l => !(l.core == core && l.pa == pa) }

/-- Fetches the block at a group's PC, through the same translation as data, when the group is to issue there: no fetch runs
ahead, so a page fault on fetch is met only by a group that is due to issue (R40). -/
def State.fetch (s : State) (g : Group) : State × Fetched :=
  let va := g.pc.toNat
  match s.xlate g.core (s.ctxOfG g) va .exec g.sup with
  | .bad c => (s, .bad c)
  | .pa a =>
    let off := a % 32
    let blk := a - off
    match s.cached g blk with
    | some l => (s.draw, .code off (l.bytes.drop off))
    | none =>
      if s.poisoned blk 32 then (s.draw, .poison)
      else
        let bs := s.rdBytes blk 32
        ((s.fill g.core blk bs).draw, .code off (bs.drop off))

/-- A trap of the fetch itself; the fetch address is the lane word (R222, R224). -/
def State.fetchTrap (s : State) (g : Group) (cls sub : Nat) : State :=
  s.syncTrap g ⟨cls, sub, 1, g.pc, sset 0 [] 0 g.pc, 0, 0, 0⟩

/-- Length by the first byte's low bits; 4 where they are 11 (R37, R214). -/
def rawLen (bs : List Byte) : Nat :=
  let l := ((bs.headD 0).toNat) % 4
  if l = 3 then 4 else lenBytes l

/-- Illegal Instruction (R57): class 0 at issue, no other effect. -/
def State.illegal (s : State) (g : Group) (sub : Nat) (bs : List Byte) : State :=
  s.syncTrap (g.issued (s.cycleOf g)) ⟨0, sub, g.mask, g.pc, [], 0, 0, rawLen bs⟩

/-- Whether a context still issues for a group: it is resident, or is being saved while the group is inside a chain
(R218). -/
def State.issues (s : State) (g : Group) : Bool :=
  match s.ctx? (s.ctxOfG g) with
  | some c => c.st == .resident || (c.st == .saving && g.chpos != 0)
  | none => false

/-- Whether a group may issue at all: its context issues, it is neither parked nor ended, and no array reset holds it back. -/
def State.live (s : State) (g : Group) : Bool :=
  s.issues g && sget .active s.power g.core == .active && g.park.isNone && !g.exited && !g.ended && !s.resetHolds g

/-- Takes a pending trap if the boundary allows one (R212). -/
def State.takeDue (s : State) (g : Group) : Option State :=
  if g.chpos != 0 || g.sb.valid || g.dep != 0 then none
  else match takePend g.pend with
    | none => none
    | some (t, rest) =>
      let g := { g with pend := rest }
      some (s.enterTrap g t g.pc false)

/-- The next instruction of a group, without fetching it: for the readiness that R19 asks about. -/
def State.peek (s : State) (g : Group) : Option Instr :=
  match (s.fetch g).2 with
  | .code off bs => match decodeBytes off bs with | .ok i _ => some i | .ill _ => none
  | _ => none

/-- Whether a row is a step of an engine, a home, the firmware or the outside world, and no encoded instruction. -/
def isEvent (i : Instr) : Bool :=
  match i with
  | .issueCycle ..
  | .aged ..
  | .sleepDeadline ..
  | .setStart ..
  | .kStep ..
  | .arrayReset ..
  | .localAccessPerformed ..
  | .tgiveFlip ..
  | .ttakeFlip ..
  | .sectorLand ..
  | .sectorSuspend ..
  | .sectorRefused ..
  | .recordReady ..
  | .cunregComplete ..
  | .credUpdate ..
  | .gatherLanePerformed ..
  | .gatherComplete ..
  | .atomicPerformed ..
  | .atomicComplete ..
  | .atomicRetry ..
  | .homeResolveRequest ..
  | .resolveAnswer ..
  | .handleAssumptionCheck ..
  | .affirmation ..
  | .denial ..
  | .homeEntryFree ..
  | .invocationArrival ..
  | .invocationResult ..
  | .invhArrival ..
  | .forwardInvocation ..
  | .continuationResume ..
  | .homeDrop ..
  | .messageArrival ..
  | .msendComplete ..
  | .mrecvWake ..
  | .remoteAccessArrival ..
  | .remoteOpComplete ..
  | .mcstComplete ..
  | .handshakeSignature ..
  | .verdict ..
  | .collComplete ..
  | .fatalFault ..
  | .abortToken ..
  | .tsendArrival ..
  | .tsendEnd ..
  | .pralineOperation ..
  | .pralineComplete ..
  | .timerExpiry ..
  | .walkComplete ..
  | .preempt ..
  | .restore ..
  | .sliceExpiry ..
  | .distributorPlace ..
  | .groupSlotFree ..
  | .detTeamRelease ..
  | .hostQappend ..
  | .hostLaunch ..
  | .hostNotify ..
  | .hostMsg ..
  | .notifyApertureStore ..
  | .wakeDelivery ..
  | .windowEntryWrite ..
  | .resplimWrite ..
  | .cecountClear ..
  | .deviceRegisterWrite ..
  | .responseLimitExpiry ..
  | .gfpPacketReceive ..
  | .gfpRetransmit ..
  | .uetTrimRetransmit ..
  | .portDown ..
  | .powerOnReset ..
  | .passComponentTable ..
  | .updateComponent ..
  | .firmwareData ..
  | .imageVerify ..
  | .bankSwitch ..
  | .attestationRequest ..
  | .clockGate ..
  | .powerGate ..
  | .ungate ..
  | .throttleStep ..
  | .portUp ..
  | .contextCreation ..
  | .contextDestruction ..
  | .invocationCompletion ..
  | .homeAnswer ..
  | .executingRankAbort ..
  | .malformedCommand ..
  | .safeState
  | .controlPairReload
  | .queryDeviceIdentifiers
  | .getFirmwareParameters
  | .requestUpdate
  | .activateFirmware
  | .getStatus
  | .cancelUpdateComponent
  | .cancelUpdate
  | .powerLoss => true
  | _ => false

end Sys2Proof.Machine
end

