-- ==== Sys2Proof/Machine/System.lean ====
section
/-! DEFINITION. Supervisor calls and returns, special registers, clocks and timers, translation maintenance, the fault
queue and `CTXSW` (R197-R221). -/

namespace Sys2Proof.Machine

/-! ## `SCALL`, `RFT` (R214, R215) -/

/-- `SCALL` (R215): class 5 over the lanes that execute. -/
def execScall (h : Hdr) (d : VReg) (code : BitVec 8) (a : Opnd) (s : State) : Res :=
  .next (issue (.scall h d code a) (fun s c =>
    if c.m = 0 then c.skip s
    else
      let lw := (lanesOf c.m).foldl (fun m i => sset 0 m i ((c.g.opnd a i).setWidth 64)) []
      .done (s.syncTrap { c.g with ctl := c.pre.ctl } ⟨5, 0, c.m, c.g.pc, lw, code.setWidth 32, d, c.f.len⟩)) s)

/-- What the forms of `RFT` share (R214). The checks after the first are double traps, since the side buffer entry is
valid. The pair of `.to` with bits 63:54 set holds no address (R63). -/
def rftOp (i : Instr) (f : IC → RftForm) (s : State) : State :=
  issue i (fun s c =>
    let g := c.g
    let f := f c
    let isRep := match f with | .rep _ => true | _ => false
    let far := match f with | .to t => decide (2 ^ 54 ≤ t.toNat) | _ => false
    if !c.ug then c.skip s
    else if !g.sb.valid then .trpU 2 0x18
    else if isRep && g.sb.cls != 5 then .trpU 2 0x18
    else if badTarget (s.rftTarget g f) then .trpU 0 0x0A
    else if far then .trpA 8 0x05 (s.rftTarget g f).toNat
    else if g.stack.length < g.sb.depth.toNat then .trpU 7 0x04
    else if isRep && !s.regsFree g [.v g.sb.scallD.toNat] then .wait
    else .done ((s.rftDone g f c.t).draw)) s

def execRft (h : Hdr) (s : State) : Res := .next (rftOp (.rft h) (fun _ => .plain) s)
def execRftNext (h : Hdr) (s : State) : Res := .next (rftOp (.rftNext h) (fun _ => .next) s)
def execRftTo (h : Hdr) (a : SReg) (s : State) : Res := .next (rftOp (.rftTo h a) (fun c => .to (c.g.pairS a.toNat)) s)
def execRftRep (h : Hdr) (a : VReg) (s : State) : Res := .next (rftOp (.rftRep h a) (fun _ => .rep a.toNat) s)

/-! ## Special registers (R16, R64, R207-R209, R308) -/

/-- `%tags` (R308). -/
def State.tags (s : State) (g : Group) : DWord :=
  match s.team? g.tid with
  | none => 0
  | some t =>
    let bits := fun (p : TSlot → Bool) =>
      ((List.range 8).map fun k => match t.slots[k]? with | some x => if p x then 2 ^ k else 0 | none => 0).foldl (· + ·) 0
    BitVec.ofNat 64 (g.ctl.toNat + g.dep.toNat * 2 ^ 8 + bits (fun x => x.st != .free) * 2 ^ 16
      + bits (fun x => x.st != .free && x.child) * 2 ^ 24 + g.snaps.length * 2 ^ 32
      + bits (fun x => x.st == .pending) * 2 ^ 40 + t.held.length * 2 ^ 48)

/-- A special register, as `MFS` reads it in lane `i`. -/
def State.spVal (s : State) (g : Group) (r : SpReg) (i : Nat) : DWord :=
  let ofT := fun (f : Team → Nat) => BitVec.ofNat 64 ((s.team? g.tid).elim 0 f)
  match r with
  | .lane => BitVec.ofNat 64 i
  | .width => BitVec.ofNat 64 g.width
  | .group => BitVec.ofNat 64 g.num
  | .team => ofT (·.num)
  | .core => BitVec.ofNat 64 g.core
  | .die => BitVec.ofNat 64 (g.core / 48)
  | .rank => BitVec.ofNat 64 s.rank
  | .cluster => ofT (·.cluster)
  | .clpos => ofT (·.clpos)
  | .grid => ofT (·.grid)
  | .fmt => g.fmt.setWidth 64
  | .flg => g.flg.setWidth 64
  | .tags => s.tags g
  | .clock => s.clock
  | .gtime => g.gtime
  | .pc => g.pc
  | .hbase => s.hbase (s.ctxOfG g)
  | .ctx => match s.ctx? (s.ctxOfG g) with | some c => c.saveVA | none => 0
  | .fqbase => match s.ctx? (s.ctxOfG g) with | some c => BitVec.ofNat 64 (s.desc c 0x10 8) | none => 0

/-- A field of the side buffer entry, as `MFS.tr` reads it in lane `i` (R209). -/
def Group.trVal (g : Group) (f : TrField) (i : Nat) : DWord :=
  let lw := if g.sb.lanes.getLsbD i then sget 0 g.sb.lw i else 0
  match f with
  | .cls => g.sb.cls.setWidth 64
  | .sub => g.sb.sub.setWidth 64
  | .lanes => g.sb.lanes
  | .epc => g.sb.epc
  | .cpc => g.sb.cpc
  | .mode => if g.sb.sup then 1 else 0
  | .lwlo => (loW lw).setWidth 64
  | .lwhi => (hiW lw).setWidth 64
  | .code => g.sb.code.setWidth 64
  | .chpos => g.sb.chpos.setWidth 64
  | .cmask => g.sb.cmask
  | .depth => g.sb.depth.setWidth 64
  | .scr n => (sget 0 g.sb.scr n.toNat).setWidth 64

def execMfs (h : Hdr) (f : MfsForm) (s : State) : Res :=
  .next (issue (.mfs h f) (fun s c =>
    match f with
    | .sp r d => c.put s d 0 fun i => loW (s.spVal c.g r i)
    | .sp64 r d => c.putPair s d (s.spVal c.g r 0)
    | .tr f d => c.put s d 0 fun i => loW (c.g.trVal f i)
    | .tr64 f d => c.putPair s d (c.g.trVal f 0)) s)

/-- A write of `%hbase` or `%fqbase` acts: a field of the descriptor. -/
def beginMtsBase (s : State) (o : Op) : State :=
  let wr := fun off (v : DWord) => match s.ctx? o.ctx with | some c => s.wrDesc c off 8 v.toNat | none => s
  match o.cmd with
  | .mtsHbase v => (wr 0x08 v).dropOp o.id
  | .mtsFqbase v => (wr 0x10 v).dropOp o.id
  | _ => s

/-- Bits 11:0 or 63:54 of a base are not zero (R207). -/
def badBase (v : DWord) : Bool := v.toNat % 4096 != 0 || decide (2 ^ 54 ≤ v.toNat)

/-- Whether a context's fault queue holds an unpopped record. -/
def State.faultsLeft (s : State) (ctx : Nat) : Bool :=
  match s.ctx? ctx with | some c => !c.faults.isEmpty || s.ringUsed c != 0 | none => false

def execMts (h : Hdr) (f : MtsForm) (s : State) : Res :=
  .next (issue (.mts h f) (fun s c =>
    if !c.ug then c.skip s
    else match f with
      | .fmt a => writeFmt c s 0x1F (c.op a)
      | .flg a => c.goG s { c.g with flg := c.op a &&& 0x7F }
      | .scr n a => c.goG s { c.g with sb := { c.g.sb with scr := sset 0 c.g.sb.scr n.toNat (c.op a) } }
      | .hbase a =>
        let v := c.g.pairS a.toNat
        if badBase v then .trpU 2 0x06 else c.submit s c.g (c.mkOp s (.mtsHbase v)) 0 beginMtsBase
      | .fqbase a =>
        let v := c.g.pairS a.toNat
        if badBase v || s.faultsLeft (s.ctxOfG c.g) then .trpU 2 0x06
        else c.submit s c.g (c.mkOp s (.mtsFqbase v)) 0 beginMtsBase) s)

def execRdclk (h : Hdr) (d : SReg) (s : State) : Res :=
  .next (issue (.rdclk h d) (fun s c => c.putPair s d s.clock) s)
def execRdtim (h : Hdr) (d : SReg) (s : State) : Res :=
  .next (issue (.rdtim h d) (fun s c => c.putPair s d c.g.gtime) s)

/-! ## The timer (R216) -/

/-- A deadline of `n` cycles of `%gtime` from now; 0 disarms. -/
def setTimer (c : IC) (s : State) (n : Word) : Act :=
  if !c.ug then c.skip s
  else c.goG s { c.g with timer := if n = 0 then none else some (c.g.gtime + n.setWidth 64) }

def execSettim (h : Hdr) (b : Opnd) (s : State) : Res :=
  .next (issue (.settim h b) (fun s c => setTimer c s (c.op b)) s)
def execSettimImm (h : Hdr) (imm : Word) (s : State) : Res :=
  .next (issue (.settimImm h imm) (fun s c => setTimer c s imm) s)

/-- Whether a group's deadline has been reached. -/
def Group.timerDue (g : Group) : Bool := match g.timer with | some t => decide (t.toNat ≤ g.gtime.toNat) | none => false

/-- A deadline reached: class 6 falls due and the timer disarms; a group that has ended takes nothing. -/
def State.expire (s : State) (gid : Nat) : State :=
  match s.grp? gid with
  | none => s
  | some g =>
    if !g.timerDue then s
    else if g.exited then s.setG { g with timer := none }
    else (s.setG ({ g with timer := none }.addPend (asyncTrap s 6 0x01 0))).draw

/-- `TIMER_EXPIRY` (R216). -/
def execTimerExpiry (gid : Nat) (s : State) : Res := .next (s.expire gid)

/-! ## Translation maintenance (R196, R197, R201-R203) -/

/-- Entries of a core's translation cache. -/
def tlbMax : Nat := 2048

/-- Level-4 entry at index `k` of the aligned group of 16 that covers a VA. -/
def State.groupEntry (s : State) (c : Ctx) (va k : Nat) : Walk := s.walk c (va / 2 ^ 16 * 2 ^ 16 + 4096 * k)

/-- Whether the aligned group of 16 that covers a VA may be held as one 64 KiB entry (R196). -/
def State.contiguous (s : State) (c : Ctx) (va : Nat) : Bool :=
  match s.groupEntry c va 0 with
  | .leaf _ 4096 pa wr us ex true =>
    pa % 2 ^ 16 == 0 && (List.range 16).all fun k => match s.groupEntry c va k with
      | .leaf _ 4096 pa' wr' us' ex' true => pa' == pa + 4096 * k && wr' == wr && us' == us && ex' == ex
      | _ => false
  | _ => false

/-- `WALK_COMPLETE` (R193-R197): a walk that found a leaf fills the core's cache; any other caches nothing. -/
def execWalkComplete (core ctx va : Nat) (s : State) : Res :=
  .next (match s.ctx? ctx with
    | none => s
    | some c =>
      match s.walk c va with
      | .bad _ => s
      | .leaf base size pa wr us ex ct =>
        let big := ct && s.contiguous c va
        let e : TlbEnt := ⟨core, ctx, if big then base / 2 ^ 16 * 2 ^ 16 else base, if big then 2 ^ 16 else size,
          if big then pa / 2 ^ 16 * 2 ^ 16 else pa, wr, us, ex⟩
        let mine := s.tlb.filter fun x => x.core == core && !(x.ctx == ctx && x.va == e.va && x.size == e.size)
        { s with tlb := e :: (mine.take (tlbMax - 1) ++ s.tlb.filter fun x => x.core != core) })

/-- First byte and size of the page that a context's tables map at a VA now, a run of 16 that one entry may hold being one
page (R193, R196). -/
def State.pageAt (s : State) (c : Ctx) (va : Nat) : Option (Nat × Nat) :=
  match s.walk c va with
  | .leaf base size _ _ _ _ ct => some (if ct && s.contiguous c va then (base / 2 ^ 16 * 2 ^ 16, 2 ^ 16) else (base, size))
  | .bad _ => none

/-- Whether a `VINV` covers an address of a context (R201, R202): scope 0 is a page of the issuing context, 1 the issuing
context, 2 the device. -/
def State.covers (s : State) (scope ictx va ctx a : Nat) : Bool :=
  match scope with
  | 0 => ctx == ictx && (a / 4096 == va / 4096 || (match (s.ctx? ctx).bind fun c => s.pageAt c a with
    | some (base, size) => decide (base ≤ va) && decide (va < base + size)
    | none => false))
  | 1 => ctx == ictx
  | _ => true

/-- A held lane that a `VINV` covers will be retried. -/
def coverLane (p : Nat → Bool) (l : Lane) : Lane :=
  match l.st with | .held _ => if p l.va then { l with st := .retry } else l | _ => l
def coverOp (p : Nat → Nat → Bool) (o : Op) : Op := { o with lanes := o.lanes.map (coverLane (p o.ctx)) }

/-- `VINV` acts: cached translations go, Q rises, held atomics on the pages are to be retried. -/
def beginVinv (s : State) (o : Op) : State :=
  match o.cmd with
  | .vinv scope va =>
    let gone := fun (e : TlbEnt) => match scope with
      | 0 => e.ctx == o.ctx && decide (e.va ≤ va) && decide (va < e.va + e.size)
      | 1 => e.ctx == o.ctx
      | _ => true
    let s := { s with tlb := s.tlb.filter fun e => !gone e, q := s.q + 1 }
    State.dropOp { s with ops := s.ops.map (coverOp (s.covers scope o.ctx va)) } o.id
  | _ => s

def execVinv (h : Hdr) (x : VScope) (s : State) : Res :=
  .next (issue (.vinv h x) (fun s c =>
    let go := fun scope va => c.submit s c.g (c.mkOp s (.vinv scope va)) 0 beginVinv
    if !c.ug then c.skip s
    else match x with
      | .page a =>
        let va := (c.g.pairS a.toNat).toNat
        if 2 ^ 54 ≤ va then .trpA 8 0x05 va else go 0 va
      | .ctx => go 1 0
      | .dev => go 2 0) s)

/-- Whether an operation has an external access in flight: neither performed nor refused (R203; log entry 29). -/
def Op.inFlight (o : Op) : Bool :=
  o.st == .active && match o.cmd with
    | .copy c => (o.sectors c).any fun x => x.2 == .pending
    | .gather _ none | .scatter _ none | .remote .. | .mcst _ => o.lanes.any fun l => !l.st.ended
    | .atomic a => a.loc.isNone && o.lanes.any fun l => !l.st.ended
    | .praline _ | .creg .. => true
    | _ => false

/-- Stamps of the accesses in flight, with staged ones (R345) and those decided at this rank's exports (R234). -/
def State.stamps (s : State) : List DWord :=
  (s.ops.filter Op.inFlight).map (·.stamp) ++ s.foreign.map (·.stamp) ++ (s.landings.flatMap fun e => e.due.map (·.2.2))
    ++ s.ctxs.flatMap fun c => c.grids.flatMap fun g => g.staged.map fun x => x.2.op.stamp

/-- The least stamp in flight, or Q. -/
def State.oldest (s : State) : DWord := s.stamps.foldl (fun a b => if b.toNat < a.toNat then b else a) s.q

def execQuiesOld (h : Hdr) (d : SReg) (s : State) : Res :=
  .next (issue (.quiesOld h d) (fun s c => c.putPair s d s.oldest) s)
def execQuiesCur (h : Hdr) (d : SReg) (s : State) : Res :=
  .next (issue (.quiesCur h d) (fun s c => c.putPair s d s.q) s)

/-! ## The fault queue (R200) -/

/-- The record at FQHEAD is popped; the next record that waited for room is appended (R199). -/
def State.popFault (s : State) (c : Ctx) : State × List Word :=
  let head := s.desc c 0x18 4
  let ws := match s.rdVA 0 c.num (s.desc c 0x10 8 + 32 * (head % 4096)) 32 true with
    | some bs => bytesWords 8 bs
    | none => match c.faults with | r :: _ => r.words | [] => List.replicate 8 0
  let s := (s.wrDesc c 0x18 4 (head + 1)).updC c.num fun c => { c with faults := c.faults.drop 1 }
  let rest := c.faults.drop 1
  match rest[s.ringUsed c]? with
  | some r => (s.appendRing c r, ws)
  | none => (s, ws)

def beginFltq (s : State) (o : Op) : State :=
  match o.cmd, s.ctx? o.ctx with
  | .fltq d, some c =>
    if s.ringUsed c = 0 then s.completeWords o d.toNat (List.replicate 8 0) true
    else
      let (s, ws) := s.popFault c
      s.completeWords o d.toNat ws true
  | _, _ => s

def execFltq (h : Hdr) (d : SReg) (s : State) : Res :=
  .next (issue (.fltq h d) (fun s c =>
    if !c.ug then c.skip s
    else c.submit s c.g { c.mkOp s (.fltq d) with wregs := sN d 8 } 0 beginFltq) s)

/-! ## `CTXSW` and `MRESET` (R157, R218, R221) -/

/-- Codes of R218. -/
def CtxSt.code : CtxSt → Nat
  | .free => 0 | .resident => 1 | .saving => 2 | .saved => 3 | .restoring => 4

/-- A context enters a state, which its descriptor shows. -/
def State.setCtxSt (s : State) (n : Nat) (st : CtxSt) : State :=
  match s.ctx? n with
  | none => s
  | some c => (s.updC n fun c => { c with st := st }).wrDesc c 0x3A 1 st.code

/-- Contexts that may be resident at one time (R191). -/
def residentMax : Nat := 64

/-- Whether a context takes up one of the 64 places: one being saved or restored does too (log entry 114). -/
def Ctx.placed (c : Ctx) : Bool := c.st == .resident || c.st == .saving || c.st == .restoring
def State.residents (s : State) : Nat := (s.ctxs.filter Ctx.placed).length

/-- What `CTXSW` answers, and the state it leads to: operation 0 saves, 1 restores, 2 queries. -/
def State.ctxswAns (s : State) (own what n : Nat) : Nat × Option CtxSt :=
  match s.ctx? n with
  | none => (if what = 2 then 0 else if s.mgmt.safe then 1 else 2, none)
  | some c =>
    if what = 2 then (c.st.code, none)
    else if s.mgmt.safe || c.st = .saving || c.st = .restoring then (1, none)
    else if c.st = .free then (2, none)
    else if what = 0 then (if n = own || c.st != .resident then (3, none) else (0, some .saving))
    else if c.st != .saved then (3, none)
    else if residentMax ≤ s.residents then (4, none)
    else (0, some .restoring)

def beginCtxsw (s : State) (o : Op) : State :=
  match o.cmd with
  | .ctxsw what n _ =>
    let (v, st) := s.ctxswAns o.ctx what n
    let s := match st with | some st => s.setCtxSt n st | none => s
    s.complete o [(0, BitVec.ofNat 32 v)] 0 0
  | _ => s

def ctxswOp (i : Instr) (what : Nat) (d : Dst) (a : Opnd) (s : State) : State :=
  issue i (fun s c =>
    if !c.ug then c.skip s
    else c.submit s c.g { c.mkOp s (.ctxsw what (c.u a) d) with dst := d, wregs := rDst d } 0 beginCtxsw) s

def execCtxswSave (h : Hdr) (d : Dst) (a : Opnd) (s : State) : Res := .next (ctxswOp (.ctxswSave h d a) 0 d a s)
def execCtxswRest (h : Hdr) (d : Dst) (a : Opnd) (s : State) : Res := .next (ctxswOp (.ctxswRest h d a) 1 d a s)
def execCtxswQry (h : Hdr) (d : Dst) (a : Opnd) (s : State) : Res := .next (ctxswOp (.ctxswQry h d a) 2 d a s)

def beginMreset (s : State) (o : Op) : State :=
  match o.cmd, s.grp? o.gid with
  | .mreset slot, some g => (s.mreset g.core slot g.gid).dropOp o.id
  | _, _ => s

def execMreset (h : Hdr) (a : Opnd) (s : State) : Res :=
  .next (issue (.mreset h a) (fun s c =>
    if !c.ug then c.skip s
    else c.submit s c.g (c.mkOp s (.mreset (c.u a))) 0 beginMreset) s)

end Sys2Proof.Machine
end

