-- ==== Sys2Proof/Machine/Place.lean ====
section
/-! DEFINITION. Free resources, placement and team start (R24-R28, R33), and how teams and grids end (R29, R346). -/

namespace Sys2Proof.Machine

/-! ## What cores have left (R26, R319) -/

/-- What a core has left. -/
def State.freeOf (s : State) (core : Nat) : Free :=
  let svc := s.mgmt.svcCores.count core
  let gs := s.groups.filter fun g => g.core == core && !g.ended && s.holds g.tid
  let ts := s.teams.filter fun t => t.core == core && !t.ended && s.holds t.tid
  let sum := fun (f : Team → Nat) => (ts.map f).foldl (· + ·) 0
  { core := core
    slots := (List.range 4).map fun j => slotsLeft svc j (gs.map (·.slot))
    x := 2 ^ 21 - sum (·.xbytes)
    w := 2 ^ 22 - sum (·.wbytes)
    c := 2 ^ 21 - svc * 2 ^ 18 - sum fun t => cBytes t.groups.length
    bars := 64 - sum (·.nbars) }

/-- The better of two cores that fit (R27). -/
def Free.better (a b : Free) : Bool :=
  decide (b.total < a.total)
    || (a.total == b.total && (decide (b.x < a.x) || (a.x == b.x && decide (a.core < b.core))))

/-- The core that R27 chooses for one team. -/
def State.pickCore (s : State) (n : Demand) : Option Nat :=
  let fits := (((List.range 192).filter s.mgmt.usable).map s.freeOf).filter fun f => f.fits n
  (fits.foldl (fun (m : Option Free) f => match m with
    | none => some f
    | some b => if f.better b then some f else some b) none).map (·.core)

/-- The origin that R27 chooses for a cluster. -/
def State.pickRect (s : State) (n : Demand) (cols rows : Nat) : Option Nat :=
  let ok := (origins cols rows).filter fun o => (rectCores o cols rows).all fun c => s.mgmt.usable c && (s.freeOf c).fits n
  let score := fun o => ((rectCores o cols rows).map fun c => (s.freeOf c).total).foldl (· + ·) 0
  (ok.foldl (fun (m : Option (Nat × Nat)) o => match m with
    | none => some (o, score o)
    | some (b, x) => if x < score o then some (o, score o) else some (b, x)) none).map (·.1)

/-- The slot of group `i` on a core: the lowest free ones of its sub-core, in group order. -/
def Free.slotFor (f : Free) (i : Nat) : Nat := ((f.slots.getD (i % 4) []).getD (i / 4) 0)

/-! ## Starting a team (R24) -/

/-- A group at its start. -/
def newGroup (gid tid num core slot : Nat) (role : Role) (b : Binding) (cycle : Nat) : Group where
  gid := gid
  tid := tid
  num := num
  core := core
  slot := slot
  role := role
  width := b.width
  vregs := b.vregs
  sregs := b.sregs
  sup := b.sup
  pc := b.entry
  mask := fullMask b.width
  v := []
  s := []
  p := []
  vtag := []
  stag := []
  ptag := []
  ctl := 0
  dep := 0
  snaps := []
  stack := []
  fmt := 0
  flg := 0
  gtime := 0
  timer := none
  inFlight := []
  sb := SideBuf.empty
  pend := []
  park := none
  latches := []
  chpos := 0
  pst := 0
  exited := false
  ended := false
  byExit := false
  age := 0
  agedAt := none
  lastIssue := issueRank cycle
  codeAt := 0
  poison := []

/-- A team at its start, with empty buffers. -/
def newTeam (tid ctx : Nat) (kind : TeamKind) (core : Nat) (groups : List Nat) (b : Binding) : Team where
  tid := tid
  ctx := ctx
  kind := kind
  num := 0
  grid := 1
  cluster := 0
  clpos := 0
  clid := none
  core := core
  groups := groups
  xbytes := b.xbytes
  wbytes := b.wbytes
  x := []
  w := []
  xown := []
  wown := []
  xtag := []
  wtag := []
  xpoison := []
  wpoison := []
  nbars := b.barriers
  bars := []
  slots := List.replicate 8 ⟨.free, 0, false⟩
  held := []
  undo := []
  recs := []
  quads := []
  taken := []
  aids := []
  det := false
  ended := false

/-- Starts a team of `n` groups on a core: `t` and `g` finish the team and group `i`. -/
def State.startTeam (s : State) (ctx : Nat) (kind : TeamKind) (core n : Nat) (b : Binding) (role : Nat → Role)
    (t : Team → Team) (g : Nat → Group → Group) : State :=
  let f := s.freeOf core
  let tid := s.nextId
  let cyc := fun i => sget 0 s.cycles (core * 4 + i % 4)
  { s with
    nextId := tid + 1 + n
    teams := s.teams ++ [t (newTeam tid ctx kind core ((List.range n).map (tid + 1 + ·)) b)]
    groups := s.groups ++ (List.range n).map fun i =>
      g i (newGroup (tid + 1 + i) tid i core (f.slotFor i) (role i) b (cyc i)) }

/-- What a record's groups start with. -/
def LaunchRec.binding (r : LaunchRec) : Binding :=
  ⟨r.entry, 8 * 2 ^ r.width.toNat, r.vregs, r.sregs, r.xbytes, r.wbytes, r.barriers, false⟩

/-- Bytes of a launch image from its pinned frames, with its poisoned parts (R23). -/
def State.image (s : State) (g : Grid) (va len : Nat) : List Byte × List (Nat × Nat) :=
  let parts := (allParts va len).map fun p =>
    match g.pins.find? fun q => q.1 == p.1 / 4096 with
    | some q => (p.2.1, p.2.2, some (q.2 + p.1 % 4096))
    | none => (p.2.1, p.2.2, none)
  (parts.flatMap fun p => match p.2.2 with
      | some a => (List.range p.2.1).map fun i => s.syncByte (a + i)
      | none => List.replicate p.2.1 0,
   parts.flatMap fun p => match p.2.2 with
      | some a => (poisonParts s.poison a p.2.1).map fun q => (p.1 + q.1, q.2)
      | none => [])

/-- Team number `n` of a grid starts on a core (R24). -/
def State.startGridTeam (s : State) (g : Grid) (n core : Nat) (clid : Option Nat) : State :=
  let r := g.rcd
  let c := r.cols * r.rows
  let (xi, xp) := s.image g r.ximg.toNat r.ximglen
  let (wi, wp) := s.image g r.wimg.toNat r.wimglen
  let bad : Option Nat := match xp, wp with
    | p :: _, _ => some (r.ximg.toNat + p.1)
    | [], p :: _ => some (r.wimg.toNat + p.1)
    | [], [] => none
  let s' := s.startTeam g.ctx (.grid g.gid) core r.groups r.binding (fun i => (r.role i).getD .computer)
    (fun t => Team.carryPoison (Team.carryPoison { t with
        num := n, grid := r.gridsize, cluster := if c = 1 then 0 else n / c, clpos := if c = 1 then 0 else n % c
        clid := clid, det := r.det, x := putBytes [] 0 xi, w := putBytes [] 0 wi } .x 0 xp) .w 0 wp)
    (fun _ x =>
      let x := wrSs x 0 (r.params.take r.nparam) 0
      match bad with
      | some va => x.addPend ⟨12, 0x06, 1, x.pc, sset 0 [] 0 (BitVec.ofNat 64 va), 0, 0, 0⟩
      | none => x)
  { s' with free := s'.free + 1 }

/-- A grid has `k` more teams placed; the last one lets the record and its pins go (R23, R28). -/
def Grid.advance (g : Grid) (k : Nat) : Grid :=
  let n := g.placed + k
  if g.rcd.gridsize ≤ n then { g with placed := n, queued := false, pins := [] } else { g with placed := n }

/-- The next team or cluster of a grid is placed, if it fits somewhere (R27). -/
def State.placeGrid (s : State) (g : Grid) : Option State :=
  let r := g.rcd
  let c := r.cols * r.rows
  if c = 1 then
    (s.pickCore r.demand).map fun core => (s.startGridTeam g g.placed core none).updGrid g.ctx g.gid fun g => g.advance 1
  else
    (s.pickRect r.demand r.cols r.rows).map fun o =>
      let clid := s.nextId
      let s := s.fresh
      let first := s.nextId
      let s := (List.range c).foldl (fun s k =>
        s.startGridTeam g (g.placed + k) ((rectCores o r.cols r.rows).getD k 0) (some clid)) s
      let ts := (List.range c).map fun k => first + k * (1 + r.groups)
      let cl : Cluster := ⟨clid, r.cols, r.rows, o, ts, (List.range c).map (g.placed + ·), { Barrier.zero with expected := BitVec.ofNat 16 (c * r.groups) }⟩
      { s with clusters := s.clusters ++ [cl] }.updGrid g.ctx g.gid fun g => g.advance c

/-- A group resumed from its record (R362). -/
def ContRec.resume (r : ContRec) (g : Group) : Group :=
  let g := wrSs g r.m r.live 0
  { g.okPred r.p (r.outcome == some true) 0 with fmt := r.fmt, flg := r.flg }

/-- The team at the head of a context's events is placed, if a core fits it (R30, R359, R362). -/
def State.placePend (s : State) (ctx : Nat) (p : PendTeam) : Option State :=
  let d : Demand := ⟨1, p.b.xbytes, p.b.wbytes, p.b.barriers⟩
  let core := match p.core with
    | some k => if s.mgmt.usable k && (s.freeOf k).fits d then some k else none
    | none => s.pickCore d
  match core with
  | none => none
  | some k =>
    let role := match p.cont with | some r => r.role | none => .loader
    let tid := s.nextId
    let s' := s.startTeam ctx p.kind k 1 p.b (fun _ => role)
      (fun t => match p.cont with
        | some r => { t with num := r.team, grid := r.grid }
        | none => { t with aids := p.aids })
      (fun _ g => match p.cont with
        | some r => r.resume g
        | none => wrSs g 0 (p.words.take p.b.sregs) 0)
    let s' := s'.updC ctx fun c => { c with pendTeams := c.pendTeams.drop 1 }
    match s.examine p.aids with
    | none => some (s.updC ctx fun c => { c with pendTeams := c.pendTeams.drop 1 })
    | some aids =>
      match s'.bindAids tid aids with
      | none => none
      | some (s', tag) =>
        some (s'.updG (tid + 1) fun g =>
          let g := g.bring (g.snap 0 .other s.nextId) tag
          wrSs g 0 ((List.range (min 18 g.sregs)).map g.rdS) tag)

/-- The next unit of a context's work is placed, if it fits: events before records (R28). -/
def State.placeNext (s : State) (c : Ctx) : Option State :=
  match c.pendTeams with
  | p :: _ => s.placePend c.num p
  | [] => match c.grids.find? (·.queued) with
    | some g => s.placeGrid g
    | none => none

/-! ## Ends (R29, R346, R356) -/

/-- A grid completes: its race-log entries are all in the ring (R351), and CCNT rises (R29). -/
def State.completeGrid (s : State) (g : Grid) : State :=
  let s := (s.logGrid g).updC g.ctx fun c => { c with grids := c.grids.filter fun x => x.gid != g.gid }
  let s := { s with race := s.race.filter fun u => u.grid != g.gid }
  if g.rcd.cen then s.raiseCounter g.ctx g.rcd.ccnt.toNat else s

/-- One more team of a grid has ended. -/
def State.gridEnded (s : State) (ctx gid : Nat) : State :=
  let s := s.updGrid ctx gid fun g => { g with ended := g.ended + 1 }
  match s.grid? ctx gid with
  | some g => if g.ended = g.rcd.gridsize then s.completeGrid g else s
  | none => s

/-- A team's places and records go; a cluster goes with its last team. -/
def State.removeTeam (s : State) (tid : Nat) : State :=
  let left := fun t => t != tid && s.teams.any fun x => x.tid == t
  { s with
    teams := s.teams.filter fun t => t.tid != tid
    groups := s.groups.filter fun g => g.tid != tid
    lacc := s.lacc.filter fun a => a.tid != tid
    clusters := s.clusters.filter fun c => !c.has tid || c.teams.any left }

/-- The end of an invocation team: its result, or a broken handle where it ended without `EXIT` (R359). -/
def State.invEnded (s : State) (t : Team) (h : DWord) : State :=
  match s.teamGroups t.tid with
  | g :: _ =>
    s.sendEnd h t.ctx (if g.byExit then .result ((List.range 16).map fun i => if i < g.sregs then g.rdS i else 0) s.rank
      else .broken 0x10)
  | [] => s

/-- A team ends when all its groups have ended, none is tainted, and its logs are empty (R29, R306). A team of a deterministic grid finishes only
where every group of it has executed `EXIT` (R213, R346; log entry 87). -/
def State.checkTeam (s : State) (tid : Nat) : State :=
  match s.team? tid with
  | none => s
  | some t =>
    let byExit := (s.teamGroups tid).all (·.byExit)
    if !(s.teamGroups tid).all (fun g => g.ended && g.dep == 0) || !t.held.isEmpty || !t.undo.isEmpty then s
    else match t.kind with
      | .grid g =>
        let s := s.removeTeam tid
        if !t.det then s.gridEnded t.ctx g
        else if byExit then s.updGrid t.ctx g fun x => { x with finished := t.num :: x.finished }
        else s
      | .invocation h _ _ => (s.invEnded t h).removeTeam tid
      | _ => s.removeTeam tid

end Sys2Proof.Machine
end

