-- ==== Sys2Proof/Machine/Nougat.lean ====
section
/-! DEFINITION. Assumptions: minting, resolution, affirmation, denial, release of held operations (R282-R310). -/

namespace Sys2Proof.Machine

/-! ## The home table (R283, R284) -/

/-- Entries of the home table. -/
def homeMax : Nat := 4096

/-- Whether the home may allocate an entry now: it is free, and its previous generation was resolved at least twice the
response limit ago, or it was never used. -/
def State.allocatable (s : State) (i : Nat) : Bool :=
  let e := s.home? i
  e.st == .free && (e.resolvedAt == 0 || decide (e.resolvedAt.toNat + s.aidSpan ≤ s.clock.toNat))

/-- A free entry; which of several, the spec leaves open (log entry 30). -/
def State.freeHome (s : State) : Option Nat :=
  let k := (Config.freeWord s.free).toNat % homeMax
  ((List.range homeMax).map fun i => (k + i) % homeMax).find? s.allocatable

/-- A fresh generation of an entry. -/
def NEntry.mint (e : NEntry) (kindN : Bool) (ctx tid : Nat) (parents : List Word) (h : DWord) (w : Nat) (val : Word)
    (ask : Nat) : NEntry :=
  let g := (e.gen + 1) % 1023
  { gen := g, st := .live, kindN := kindN, ctx := ctx, tid := tid, parents := parents, importers := []
    outcome := sset false e.outcome g false, resolvedAt := e.resolvedAt, handle := h, word := w, val := val, ans := none
    rno := 0, ask := ask }

/-- Sends a resolution to the importers. -/
def State.sendResolution (s : State) (i : Nat) (affirmed : Bool) : State :=
  let e := s.home? i
  e.importers.foldl (fun s r => s.emit (.resolution r (aidOf s.rank i e.gen) affirmed)) s

/-- Slots bound to an AID of this home whose resolution has still to reach their teams (R285, R305). -/
def State.markSlots (s : State) (a : Word) (affirmed : Bool) : State :=
  { s with teams := s.teams.map fun t => { t with slots := t.slots.map fun x =>
      if x.st != .free && x.aid == a then { x with st := if affirmed then .draining else .rollingBack } else x } }

/-- An entry is resolved; its number says in which order this rank's teams will learn it (R305). -/
def State.resolveEntry (s : State) (i : Nat) (affirmed : Bool) : State :=
  let e := s.home? i
  let e := { e with
    st := if affirmed then .affirmed else .denied
    outcome := sset false e.outcome e.gen (!affirmed)
    resolvedAt := s.clock
    rno := s.nextId + 1 }
  ((s.fresh.setHome i e).markSlots (aidOf s.rank i e.gen) affirmed).sendResolution i affirmed

/-- Whether every parent of an entry has been affirmed. -/
def State.parentsDone (s : State) (e : NEntry) : Bool := e.parents.all fun a => s.resolved a == some true

/-- The slot of an entry in its minting team becomes pending (R302). -/
def State.slotPending (s : State) (tid : Nat) (aid : Word) : State :=
  s.updT tid fun t => match t.slotOf aid with
    | some k => t.setSlot k { t.slots.getD k ⟨.free, 0, false⟩ with st := .pending }
    | none => t

/-- A child's value, or an assumption without parents, is confirmed (R302). -/
def State.confirm (s : State) (i : Nat) : State :=
  let e := s.home? i
  if s.parentsDone e then s.resolveEntry i true
  else (s.setHome i { e with st := .affirmPending }).slotPending e.tid (aidOf s.rank i e.gen)

/-! ## Clearing a slot (R303) -/

def clrTag (b t : Tags) : Tags := t &&& ~~~b
def clrMap (b : Tags) (m : Sparse Tags) : Sparse Tags := (m.map fun x => (x.1, clrTag b x.2)).filter fun x => x.2 != 0
def clrLatch (b : Tags) (l : Latch) : Latch := { l with tag := clrTag b l.tag }

def Snapshot.clr (b : Tags) (x : Snapshot) : Snapshot :=
  { x with
    vtag := clrMap b x.vtag
    stag := clrMap b x.stag
    ptag := clrMap b x.ptag
    latches := x.latches.map (clrLatch b)
    ctl := clrTag b x.ctl }

def Park.clr (b : Tags) (p : Park) : Park :=
  match p with
  | .bwait x g d t => .bwait x g d (clrTag b t)
  | .hwait o f d h pc t => .hwait o f d h pc (clrTag b t)
  | .hwaitPark o d h m n t => .hwaitPark o d h m n (clrTag b t)
  | .mrecv p d m pc t => .mrecv p d m pc (clrTag b t)
  | .guess o n d i h w v pc t => .guess o n d i h w v pc (clrTag b t)
  | p => p

/-- A group without slot `k`. -/
def Group.clrSlot (k : Nat) (g : Group) : Group :=
  let b : Tags := 1#8 <<< k
  { g with
    vtag := clrMap b g.vtag
    stag := clrMap b g.stag
    ptag := clrMap b g.ptag
    latches := g.latches.map (clrLatch b)
    sb := { g.sb with latches := g.sb.latches.map (clrLatch b) }
    ctl := clrTag b g.ctl
    dep := clrTag b g.dep
    snaps := (g.snaps.filter fun x => x.slot != k).map (Snapshot.clr b)
    park := g.park.map (Park.clr b) }

/-- The line mask that an undo entry would put back, without the slots `b`. -/
def UndoWhat.clr (b : Tags) (u : UndoWhat) : UndoWhat :=
  match u with
  | .line buf l bs m => .line buf l bs (clrTag b m)
  | .tile buf k o => .tile buf k o
def Undo.clr (b : Tags) (u : Undo) : Undo := { u with what := u.what.clr b, tags := clrTag b u.tags }

/-- A matrix quad's issued sets without the slots `b`. -/
def MIssue.clr (b : Tags) (m : MIssue) : MIssue := { m with tag := clrTag b m.tag, pre := m.pre.clr b }
def Quad.clr (b : Tags) (q : Quad) : Quad :=
  { q with sets := q.sets.map fun x => { x with issues := x.issues.map (MIssue.clr b) } }

/-- A team without slot `k`: line masks (those of undo entries too), undo and held entries, matrix issues not completed,
and the slot itself. No mask of the team names the slot any longer (R285). -/
def Team.clrSlot (k : Nat) (t : Team) : Team :=
  let b : Tags := 1#8 <<< k
  { t with
    xtag := clrMap b t.xtag
    wtag := clrMap b t.wtag
    undo := (t.undo.map (Undo.clr b)).filter fun u => u.tags != 0
    held := t.held.map fun h => { h with tags := clrTag b h.tags }
    quads := t.quads.map (Quad.clr b)
    slots := t.slots.set k ⟨.free, 0, false⟩ }

def Op.clrSlot (k : Nat) (o : Op) : Op :=
  let b : Tags := 1#8 <<< k
  { o with tag := clrTag b o.tag, pre := o.pre.map (Snapshot.clr b) }
def LAcc.clrSlot (k : Nat) (a : LAcc) : LAcc :=
  let b : Tags := 1#8 <<< k
  { a with tag := clrTag b a.tag, pre := a.pre.clr b }

/-- Slot `k` of a team cleared everywhere. -/
def State.clrSlot (s : State) (tid k : Nat) : State :=
  { s with
    groups := s.groups.map fun g => if g.tid = tid then g.clrSlot k else g
    teams := s.teams.map fun t => if t.tid = tid then t.clrSlot k else t
    ops := s.ops.map fun o => if o.tid = tid then o.clrSlot k else o
    lacc := s.lacc.map fun a => if a.tid = tid then a.clrSlot k else a }

/-- Whether a snapshot of a message's taker could still return it. -/
def State.returnable (s : State) (x : Nat × Nat × Msg) : Bool :=
  s.groups.any fun g => g.gid == x.1 && (g.snaps ++ s.lateSnaps g.gid).any fun p => decide (p.opMark ≤ x.2.1)

/-- Messages taken that no snapshot could return are forgotten. -/
def State.forgetTaken (s : State) (tid : Nat) : State :=
  s.updT tid fun t => { t with taken := t.taken.filter s.returnable }

/-- Groups that have become untainted leave the parks that waited for it (R306, R310). -/
def State.untaint (s : State) (g : Group) : State :=
  if g.dep != 0 then s
  else
    let g' := { g with park := none }
    match g.park with
    | some .twait => s.setG g'
    | some (.exitTainted x) => s.setG (g'.exitLanes x g.pc)
    | some (.trapTainted t) => s.enterTrap g' t t.cpc true
    | _ => s
def State.untaintTeam (s : State) (tid : Nat) : State :=
  (s.teamGroups tid).foldl (fun s g => match s.grp? g.gid with | some g => s.untaint g | none => s) s

/-! ## Held operations (R297, R298) -/

/-- Whether an operation may be made with its issuer in this state: it holds no snapshot taken before the entry, its own
slot of a request apart (R294; log entry 32). -/
def State.heldFree (s : State) (t : Team) (o : Op) : Bool :=
  match s.grp? o.gid with
  | none => true
  | some g =>
    let own := match o.cmd with | .resolve a _ => t.slotOf a | _ => none
    !g.snaps.any fun x => decide (x.opMark ≤ o.id) && some x.slot != own

/-- A request is on its way to its home (R294). -/
def beginResolve (s : State) (o : Op) : State :=
  match o.cmd with
  | .resolve a f => if aidHome a = s.rank then s else s.emit (.resolveReq (aidHome a) a f o.ctx o.id)
  | _ => s

/-- A released operation acts, as though issued now. -/
def performCmd (s : State) (o : Op) : State :=
  match o.cmd with
  | .copy _ => beginCopy s o
  | .creplay .. => beginCreplay s o
  | .creg .. => beginCreg s o
  | .cunreg .. => beginCunreg s o
  | .scatter .. => releaseScat s o
  | .atomic _ => beginAtomic s o
  | .remote .. => beginRemote s o
  | .mcst _ => releaseMcst s o
  | .coll _ => beginColl s o
  | .arm .. => beginArm s o
  | .ctset .. => beginCtset s o
  | .qpush .. => beginQpush s o
  | .notify _ => beginNotify s o
  | .launch .. => beginLaunch s o
  | .mbreg .. => beginMbreg s o
  | .hdrop _ => beginHdrop s o
  | .resolve .. => beginResolve s o
  | .praline _ => beginPraline s o
  | .gset .. => beginGset s o
  | .vinv .. => beginVinv s o
  | .fltq _ => beginFltq s o
  | .ctxsw .. => beginCtxsw s o
  | .mreset _ => beginMreset s o
  | .mtsHbase _ | .mtsFqbase _ => beginMtsBase s o
  | .gather .. | .msend .. | .invoke .. | .invh _ | .matrix | .tsend .. | .result .. | .hget .. | .hwait _ => s

/-- Releases what it can from the head of a team's log, in log order. -/
def releaseHeld : Nat → Nat → State → State
  | 0, _, s => s
  | n + 1, tid, s =>
    match s.team? tid with
    | none => s
    | some t =>
      match t.held with
      | [] => s
      | h :: hs =>
        let s' := s.updT tid fun t => { t with held := hs }
        match s.op? h.op with
        | none => releaseHeld n tid s'
        | some o =>
          if h.tags != 0 || !s.heldFree t o then s
          else
            let o := { o with st := .active, stamp := s.q }
            releaseHeld n tid (performCmd (s'.updOp o.id fun _ => o) o)

/-- Whatever a team's log now allows; the team may end with its last entry. -/
def State.settleTeam (s : State) (tid : Nat) : State :=
  let s := s.untaintTeam tid
  (releaseHeld (heldMax + 1) tid s).checkTeam tid

/-! ## Affirmation (R303) -/

/-- Messages on their way to a team lose an AID that was affirmed. -/
def Msg.dropAid (a : Word) (m : Msg) : Msg := { m with aids := m.aids.erase a }
def Ctx.dropAid (a : Word) (c : Ctx) : Ctx :=
  { c with
    mbox := c.mbox.map fun x => (x.1, { x.2 with queue := x.2.queue.map (Msg.dropAid a) })
    pendTeams := c.pendTeams.map fun p => { p with aids := p.aids.erase a } }
def HEntry.dropAid (a : Word) (e : HEntry) : HEntry :=
  { e with fwd := e.fwd.map fun x => ({ x.1 with aids := x.1.aids.erase a }, x.2) }
def Team.dropAid (a : Word) (t : Team) : Team :=
  { t with aids := t.aids.erase a, taken := t.taken.map fun x => (x.1, x.2.1, Msg.dropAid a x.2.2) }

/-- An affirmation reaches one team. -/
def State.affirmTeam (s : State) (tid : Nat) (a : Word) : State :=
  match s.team? tid with
  | none => s
  | some t =>
    match t.slotOf a with
    | none => s
    | some k => ((s.clrSlot tid k).forgetTaken tid).settleTeam tid

/-- Teams that bind an AID. -/
def State.binders (s : State) (a : Word) : List Nat := (s.teams.filter fun t => (t.slotOf a).isSome).map (·.tid)

/-- An entry of this home has reached its teams, or a far home learns that it has; what the far home said is remembered as
long as a message can carry the AID (R284, R300). -/
def State.applied (s : State) (a : Word) (affirmed : Bool) : State :=
  if aidHome a = s.rank then s.setHome (aidIndex a) { s.home? (aidIndex a) with rno := 0 }
  else
    let e : IEntry := ⟨a, false, [], some affirmed, s.clock⟩
    let s : State := { s with imports := s.imports.filter (fun x => x.aid != a && s.knows x) ++ [e] }
    s.emit (.resAck (aidHome a) a)

/-- An affirmation reaches every team, queue and message of this rank. -/
def State.affirmAll (s : State) (a : Word) : State :=
  let s : State := { s with
    ctxs := s.ctxs.map (Ctx.dropAid a)
    handles := s.handles.map fun (i, e) => (i, e.dropAid a)
    teams := s.teams.map (Team.dropAid a)
    homes := s.homes.map fun (i, e) => (i, { e with parents := e.parents.erase a }) }
  ((s.binders a).foldl (fun s tid => s.affirmTeam tid a) s).applied a true

/-- Whether every group of the teams that bind an AID stands between chains (R305). -/
def State.between (s : State) (as : List Word) : Bool :=
  s.groups.all fun g => g.chpos == 0 || g.park.isSome || g.exited
    || !as.any fun a => (s.binders a).contains g.tid

/-- Entries of this home whose parents name an AID. -/
def State.children (s : State) (a : Word) : List Nat :=
  (s.homes.filter fun x => (x.2.st == .live || x.2.st == .affirmPending) && x.2.parents.contains a).map (·.1)
/-- The AID of an entry's current generation. -/
def State.aidAt (s : State) (i : Nat) : Word := aidOf s.rank i (s.home? i).gen

/-- Whether a resolution of this home is the next to reach this rank's teams (R305). -/
def State.nextApplied (s : State) (a : Word) : Bool :=
  let e := s.home? (aidIndex a)
  e.gen == aidGen a && e.rno != 0 && s.homes.all fun x => x.2.rno == 0 || decide (e.rno ≤ x.2.rno)

/-- `AFFIRMATION` (R303, R305): of this home's AID once it is affirmed, or of another home's, which has sent it. -/
def execAffirmation (aid : Word) (s : State) : Res :=
  .next (
    let due := if aidHome aid = s.rank then s.nextApplied aid && (s.home? (aidIndex aid)).st == .affirmed else s.mgmt.booted
    let kids := s.children aid
    if !due || !s.between (aid :: kids.map s.aidAt) then s
    else
      let s := s.affirmAll aid
      kids.foldl (fun s i =>
        let e := s.home? i
        if e.st == .affirmPending && s.parentsDone e then
          let s := s.resolveEntry i true
          s.affirmAll (s.aidAt i)
        else s) s)

/-! ## Denial (R304) -/

/-- A group put back to a snapshot; the snapshot and those taken after it are gone, and so are the traps that fell due
since (R306, log entry 78). A group that has executed `EXIT` since goes on (R304 step 2). -/
def Group.restore (g : Group) (x : Snapshot) : Group :=
  let rest := (g.snaps.dropWhile fun y => y.slot != x.slot).drop 1
  { g with
    v := x.v
    s := x.s
    p := x.p
    vtag := x.vtag
    stag := x.stag
    ptag := x.ptag
    latches := x.latches
    chpos := x.chpos
    ctl := x.ctl
    mask := x.mask
    stack := x.stack
    fmt := x.fmt
    flg := x.flg
    timer := x.timer
    pc := x.pc
    pend := x.pend
    snaps := rest
    dep := snapSlots rest
    exited := false
    byExit := false
    park := none }

/-- Bytes of a `GUESS` (R290). -/
def guessLen : Nat := 16

/-- How a restored group goes on (R304 step 2). -/
def Group.resumeAt (g : Group) (x : Snapshot) (actual : Word) : Group :=
  match x.kind with
  | .guess d i aid =>
    { (g.wrS d.toNat actual x.ctl).wrS i.toNat aid x.ctl with pc := seqNext x.pc guessLen, chpos := 0, latches := [] }
  | .guessN label => { g with pc := label, chpos := 0, latches := [] }
  | .other => g

/-- Groups of a team that depend on slot `k`, with the snapshots they go back to. -/
def State.rolled (s : State) (tid k : Nat) : List (Nat × Snapshot) :=
  (s.teamGroups tid).filterMap fun g => (g.snaps.find? fun x => x.slot == k).map fun x => (g.gid, x)

/-- Whether two undo entries are for one line or tile. -/
def sameUndo (u w : UndoWhat) : Bool :=
  match u, w with
  | .line b l _ _, .line b2 m _ _ => b == b2 && l == m
  | .tile b l _, .tile b2 m _ => b == b2 && l == m
  | _, _ => false

/-- One undo entry written back. A tile that another group's `TGIVE` or `TTAKE`, one of `fs`, still waits for stays
pending, and takes that one's owner. -/
def Team.putBack (fs : List Flip) (t : Team) (u : UndoWhat) : Team :=
  match u with
  | .line b l bs m => (t.wr b (64 * l) bs).setLineTag b l m
  | .tile b k o =>
    if (t.owner b k == .pendingEngine || t.owner b k == .pendingGroup) && fs.any fun f => f.buf == b && f.tiles.contains k
    then t else t.setOwner b k o

/-- The oldest entries with slot `b` are written back; they and later entries of their line or tile go (step 3). -/
def Team.undoSlot (fs : List Flip) (b : Tags) : List UndoWhat → List Undo → Team → List Undo × Team
  | _, [], t => ([], t)
  | cut, u :: us, t =>
    if cut.any (sameUndo u.what) then Team.undoSlot fs b cut us t
    else if u.tags &&& b != 0 then Team.undoSlot fs b (u.what :: cut) us (Team.putBack fs t u.what)
    else
      let (l, t) := Team.undoSlot fs b cut us t
      (u :: l, t)

/-- A held entry is discarded: it acts on nothing, and its counter falls (R298, R295). -/
def State.discardHeld (s : State) (h : Held) : State :=
  match s.op? h.op with
  | none => s
  | some o =>
    let s := match o.cmd with | .coll i => s.breakHandle i.handle 0x14 | _ => s
    s.opDone o

/-- Held entries that a denial of slot `b` discards (step 4). -/
def heldGone (b : Tags) (rolled : List (Nat × Snapshot)) (h : Held) : Bool :=
  h.tags &&& b != 0 || rolled.any fun x => x.1 == h.gid && decide (x.2.opMark ≤ h.op)

/-- A message goes back to the head of its queue; a mailbox bound since launches its handler (step 5). -/
def State.returnMsg (s : State) (m : Msg) : State :=
  match (s.mboxOf m.ctx m.mbx).st with
  | .bound b => s.addPend m.ctx (msgPend m b m.aids)
  | _ => s.updC m.ctx fun c =>
    let x := c.mboxAt m.mbx
    c.setMbox m.mbx { x with queue := m :: x.queue }

/-- Messages that restored groups had taken are returned, unless they carry the AID. -/
def State.returnTaken (s : State) (tid : Nat) (a : Word) (rolled : List (Nat × Snapshot)) : State :=
  match s.team? tid with
  | none => s
  | some t =>
    let back := fun (x : Nat × Nat × Msg) => rolled.any fun r => r.1 == x.1 && decide (r.2.opMark ≤ x.2.1)
    let s := s.updT tid fun t => { t with taken := t.taken.filter fun x => !back x }
    ((t.taken.filter back).reverse.filter fun x => !x.2.2.aids.contains a).foldl (fun s x => s.returnMsg x.2.2) s

/-- What a gather issued before the restored snapshot has read under the denied slot it reads again: its result is none of an
operation that step 7 suppresses, and nothing may depend on the slot any longer. -/
def Op.reread (o : Op) : Op :=
  match o.cmd with
  | .gather .. => { o with lanes := o.lanes.map fun l => if l.st == .done then { l with st := .pending } else l }
  | _ => o

/-- Operations and local accesses of restored groups complete without writing registers; accesses under slot `b` are not
performed at all (step 7). -/
def State.suppress (s : State) (tid : Nat) (b : Tags) (rolled : List (Nat × Snapshot)) : State :=
  let after := fun gid id => rolled.any fun r => r.1 == gid && decide (r.2.opMark ≤ id)
  { s with
    ops := s.ops.map fun o =>
      if after o.gid o.id then { o with suppressed := true }
      else if o.tid == tid && o.tag &&& b != 0 then o.reread
      else o
    teams := s.teams.map fun t => { t with quads := t.quads.map fun q => { q with sets := q.sets.map fun x =>
      { x with issues := x.issues.map fun m => if after m.gid m.op then { m with suppressed := true } else m } } }
    lacc := s.lacc.map fun a =>
      if a.tid = tid && (a.tag &&& b != 0 || (after a.gid a.id && !a.store && a.atom.isNone)) then { a with suppressed := true }
      else a }

/-- Messages that carry a denied AID go from the queues of this rank. -/
def Ctx.killAid (a : Word) (c : Ctx) : Ctx :=
  { c with
    mbox := c.mbox.map fun x => (x.1, { x.2 with queue := x.2.queue.filter fun m => !m.aids.contains a })
    pendTeams := c.pendTeams.filter fun p => !p.aids.contains a }

/-- What becomes of an entry's forward queue: a message that carries a denied AID goes, unless it is under way (R304 step 5). -/
def HEntry.killAid (a : Word) (e : HEntry) : HEntry :=
  let k := if e.fwdBusy then 1 else 0
  { e with fwd := e.fwd.take k ++ (e.fwd.drop k).filter fun x => !x.1.aids.contains a }
/-- Handles of the messages that go so. -/
def HEntry.killed (a : Word) (e : HEntry) : List DWord :=
  ((e.fwd.drop (if e.fwdBusy then 1 else 0)).filter fun x => x.1.aids.contains a).map (·.1.handle)

/-- The invocation that a team runs, if any. -/
def TeamKind.handle (k : TeamKind) : DWord := match k with | .invocation h _ _ => h | _ => 0

/-- Whether an operation is a local atomic, whose accesses go with its team. -/
def Op.isLocal (o : Op) : Bool := match o.cmd with | .atomic a => a.loc.isSome | _ => false

/-- A handler team that a message with the AID launched is dissolved (step 6); messages that its group took go back
(step 5). -/
def State.dissolve (s : State) (t : Team) (a : Word) : State :=
  let s := (t.taken.reverse.filter fun x => !x.2.2.aids.contains a).foldl (fun s x => s.returnMsg x.2.2) s
  let s := t.held.foldl (fun s h => s.discardHeld h) s
  let ops : List Op := s.ops.filter fun o => !(o.tid == t.tid && o.isLocal)
  let s : State := { s with ops := ops.map fun o => if o.tid = t.tid then { o with suppressed := true } else o }
  (s.freeInv t.kind.handle).removeTeam t.tid

/-- A denial reaches one team; `actual` is the value of the handle, for the group that minted the assumption. -/
def State.denyTeam (s : State) (tid : Nat) (a actual : Word) : State :=
  match s.team? tid with
  | none => s
  | some t =>
    match t.slotOf a with
    | none => s
    | some k =>
      if t.aids.contains a then s.dissolve t a
      else
        let b : Tags := 1#8 <<< k
        let rolled := s.rolled tid k
        let s := s.suppress tid b rolled
        let s := rolled.foldl (fun s x => s.updG x.1 fun g => (g.restore x.2).resumeAt x.2 actual) s
        let fs := s.flips tid
        let s := s.updT tid fun t =>
          let (u, t) := Team.undoSlot fs b [] t.undo t
          { t with undo := u }
        let s := s.beginFlips tid
        let gone := t.held.filter (heldGone b rolled)
        let s := s.updT tid fun t => { t with held := t.held.filter fun h => !heldGone b rolled h }
        let s := gone.foldl (fun s h => s.discardHeld h) s
        let s := s.returnTaken tid a rolled
        (s.clrSlot tid k).settleTeam tid

/-- A denial reaches every team, queue and message of this rank. A child denied with its parent before its handle has
ended has no actual value; what is written for it goes again when its group returns to the parent's snapshot. -/
def State.denyAll (s : State) (a : Word) : State :=
  let e := s.home? (aidIndex a)
  let actual := if s.ownAid a then (match e.ans with | some x => (actualOf x e.word).1 | none => 0) else 0
  let pend := s.ctxs.flatMap fun c => c.pendTeams.filter fun p => p.aids.contains a
  let gone := pend.map (·.kind.handle) ++ s.handles.flatMap fun x => x.2.killed a
  let s := { s with ctxs := s.ctxs.map (Ctx.killAid a), handles := s.handles.map fun (i, e) => (i, e.killAid a) }
  let s := gone.foldl State.freeInv s
  ((s.binders a).foldl (fun s tid => s.denyTeam tid a actual) s).applied a false

/-- `DENIAL` (R302, R304, R305): of this home's AID once it is denied, or of another home's, which has sent it. Every
child is denied first. -/
def execDenial (aid : Word) (s : State) : Res :=
  .next (
    let due := if aidHome aid = s.rank then s.nextApplied aid && (s.home? (aidIndex aid)).st == .denied else s.mgmt.booted
    let kids := s.children aid
    if !due || !s.between (aid :: kids.map s.aidAt) then s
    else
      let s := kids.foldl (fun s i =>
        let s := s.resolveEntry i false
        s.denyAll (s.aidAt i)) s
      s.denyAll aid)

/-! ## `GUESS` (R290-R292, R301) -/

/-- Whether a mask holds the slot of a child assumption. -/
def Team.hasChild (t : Team) (m : Tags) : Bool :=
  (slotsOf m).any fun k => match t.slots[k]? with | some x => x.child | none => false

/-- Mints an assumption in team slot `k` and home entry `i`: the snapshot `pre` is taken, D and I are written. -/
def Group.mint (g : Group) (s : State) (t : Team) (pre : Snapshot) (tag : Tags) (k i : Nat) (d ireg : SReg) (val : Word)
    (kind : Word → SnapKind) (kindN : Bool) (h : DWord) (w ask : Nat) : State × Group :=
  let parents := t.aidsIn g.dep
  let e := (s.home? i).mint kindN t.ctx t.tid parents h w val ask
  let aid := aidOf s.rank i e.gen
  let ctl := g.ctl
  let g := g.bring { pre with kind := kind aid } (1#8 <<< k)
  let g := (g.wrS d.toNat val ((1#8 <<< k) ||| tag)).wrS ireg.toNat aid ctl
  (((s.setHome i e).updT t.tid fun t => t.setSlot k ⟨.loc, aid, !parents.isEmpty⟩).draw, g)

/-- Whether a handle of another rank has resolved or broken when a `GUESS` on it issues: its home knows, this rank does not
(log entry 46). -/
def State.farEnded (s : State) : Bool := (Config.freeWord s.free).getLsbD 31

/-- `GUESS` (R291): a place and an unresolved handle mint, whatever the handle's home, which is asked to tell when the
handle ends; else the group waits for the handle. -/
def execGuess (h : Hdr) (d : SReg) (val : Opnd) (hnd : SReg) (i : SReg) (w : BitVec 4) (s : State) : Res :=
  .next (issue (.guess h d val hnd i w) (fun s c =>
    match s.team? c.g.tid with
    | none => c.skip s
    | some t =>
      let x := c.g.pairS hnd.toNat
      let a := s.askHome x t.ctx
      let park := fun op full => some (.guess op full d i x w.toNat (c.op val) c.g.pc c.t)
      if !c.ug then c.skip s
      else if t.hasChild c.g.dep then .trpU 9 0x01
      else if !s.isFar x && a.state != 1 then c.goG s (c.g.guessed d i w.toNat a)
      else
        let (s', op) := if s.isFar x then s.ask c x (.hwait x) else (s, 0)
        match t.freeSlot, s.freeHome with
        | some k, some e =>
          if s.isFar x && s.farEnded then c.goG s'.draw { c.g with park := park op false }
          else
            let (s, g) := c.g.mint s' t c.pre c.t k e d i (c.op val) (fun aid => .guess d i aid) false x w.toNat op
            c.goG s g
        | _, _ => c.goG s' { c.g with park := park op true }) s)

/-- The far home of a `GUESS` that waits with a place answers that the handle is pending after all: the assumption is minted. -/
def State.guessPending (s : State) (g : Group) (op : Nat) (d i : SReg) (h : DWord) (w : Nat) (val : Word) (pc : DWord)
    (tag : Tags) : State :=
  match s.team? g.tid with
  | none => s
  | some t =>
    match t.freeSlot, s.freeHome with
    | some k, some e =>
      let g := { g with park := none }
      let pre := { g.snap 0 .other s.nextId with pc := pc }
      let (s, g) := g.mint s t pre tag k e d i val (fun aid => .guess d i aid) false h w op
      s.setG g
    | _, _ => s

def execGuessN (h : Hdr) (d : SReg) (val : Opnd) (i : SReg) (off : Word) (s : State) : Res :=
  .next (issue (.guessN h d val i off) (fun s c =>
    match s.team? c.g.tid with
    | none => c.skip s
    | some t =>
      let l := offTarget c.g.pc off
      if !c.ug then c.skip s
      else if badTarget l then .trpU 0 0x0A
      else if t.hasChild c.g.dep then .trpU 9 0x01
      else match t.freeSlot, s.freeHome with
        | some k, some e =>
          let (s, g) := c.g.mint s t c.pre c.t k e d i (c.op val) (fun _ => .guessN l) true 0 0 0
          c.goG s g
        | _, _ => .trpU 9 0x02) s)

/-! ## A far home's answer (R361, R363) -/

/-- A question whose group does not wait in it: the continuation record or the assumption that put it learns how the handle
ended, and nobody else does (R361). -/
def State.tellAsker (s : State) (op : Nat) (a : HomeAns) : State :=
  if a.state = 1 then s
  else
    let s := s.dropOp op
    { s with
      ctxs := s.ctxs.map fun c => { c with conts := c.conts.map fun r =>
        if r.id = op && r.outcome.isNone then { r with outcome := some (a.state == 2) } else r }
      homes := s.homes.map fun x =>
        if x.2.ask = op && x.2.st == .live && x.2.ans.isNone then (x.1, { x.2 with ans := some a }) else x }

/-- `HOME_ANSWER`: the answer to an operation's question; none is silence until the response limit (R361). -/
def execHomeAnswer (op : Nat) (far : Option HomeAns) (s : State) : Res :=
  .next (match s.op? op with
    | none => s
    | some o =>
      let a := far.getD silentAns
      match o.cmd with
      | .hget _ stat d n =>
        let (ws, ok) := hgetWords stat n a
        let s := s.updG o.gid fun g =>
          if g.park = some (.answer op) then { (wrSs g d.toNat ws o.tag).okPred o.p ok o.tag with park := none } else g
        s.dropOp op
      | .hwait _ =>
        let pending := a.state == 1
        match s.grp? o.gid with
        | none => s.tellAsker op a
        | some g =>
          match g.park, s.team? g.tid with
          | some (.hwait id form p _ pc tag), _ =>
            if id != op then s.tellAsker op a else if pending then s else (s.dropOp op).releaseWait g form p pc tag a
          | some (.hwaitPark id p x m n tag), some t =>
            if id != op then s.tellAsker op a
            else if !pending then (s.dropOp op).releaseWait g .plain p g.pc tag a
            else if s.contFull t.ctx then s.setG { g with park := some (.hwait op .plain p x g.pc tag) }
            else if !g.inFlight.isEmpty || g.dep != 0 then
              (s.updOp op fun o => { o with status := 1 }).setG { g with park := none, pc := o.pc }
            else s.retireGroup { g with park := none } t op g.pc x p m n
          | some (.guess id full d i h w val pc tag), _ =>
            if id != op then s.tellAsker op a
            else if pending then if full then s else s.guessPending g op d i h w val pc tag
            else (s.dropOp op).setG (g.guessed d i w a)
          | _, _ => s.tellAsker op a
      | _ => s)

/-! ## Assumptions on handles, and the end of home entries (R284, R292) -/

/-- `HANDLE_ASSUMPTION_CHECK` (R292): the handle of a live H assumption has ended, and the home compares. -/
def execHandleAssumptionCheck (aid : Word) (s : State) : Res :=
  .next (
    let i := aidIndex aid
    let e := s.home? i
    if !s.ownAid aid || e.st != .live || e.kindN then s
    else match e.ans with
      | none => s
      | some a =>
        let (actual, deny) := actualOf a e.word
        if !deny && actual == e.val then s.confirm i else s.resolveEntry i false)

/-- `HOME_ENTRY_FREE` (R284): queries of other ranks, each a rank and a generation, are answered (R300), and importers
acknowledge; the entry is free once all have and its team has no slot for it. -/
def execHomeEntryFree (index : Nat) (told : HomeTold) (s : State) : Res :=
  .next (
    let asks := told.asks.filter fun x => x.1 != s.rank && decide (x.1 < 1024) && decide (x.2 < 1024)
    let s := if homeMax ≤ index || !s.mgmt.booted then s else asks.foldl (fun s x => s.answerAsk x.1 (aidOf s.rank index x.2)) s
    let e := s.home? index
    let e := { e with importers := e.importers.filter fun r => !told.acks.contains r }
    let used := match s.team? e.tid with | some t => (t.slotOf (aidOf s.rank index e.gen)).isSome | none => false
    if homeMax ≤ index || (e.st != .affirmed && e.st != .denied) then s
    else if e.importers.isEmpty && e.rno == 0 && !used then s.setHome index { e with st := .free }
    else s.setHome index e)

/-! ## `AFFIRM` and `DENY` (R293, R294) -/

/-- The home judges a request. -/
def State.judgeReq (s : State) (a : Word) (affirm : Bool) (ctx : Nat) : State × Bool :=
  let i := aidIndex a
  let e := s.home? i
  if s.ownAid a && e.st == .live && e.kindN && e.ctx == ctx then
    (if affirm then s.confirm i else s.resolveEntry i false, true)
  else (s, false)

/-- `HOME_RESOLVE_REQUEST` (R294): the request of this rank's operation `op`, or one from another rank. -/
def execHomeResolveRequest (aid : Word) (affirm : Bool) (ctx src op : Nat) (s : State) : Res :=
  .next (
    if src != s.rank then
      if !s.mgmt.booted || aidHome aid != s.rank then s
      else
        let (s, ok) := s.judgeReq aid affirm ctx
        s.emit (.resolveAns src op ok)
    else match s.op? op with
    | none => s
    | some o =>
      match o.cmd with
      | .resolve a f =>
        if aidHome a != s.rank || o.st != .active || o.status != 0 then s
        else
          let (s, ok) := s.judgeReq a f o.ctx
          s.updOp op fun o => { o with status := if ok then accepted else refusedBy 0 }
      | _ => s)

/-- `RESOLVE_ANSWER` (R294): the home's answer returns; `far` is that of another rank. -/
def execResolveAnswer (op : Nat) (far : Option Bool) (s : State) : Res :=
  .next (match s.op? op with
    | none => s
    | some o =>
      match o.cmd with
      | .resolve a _ =>
        let ans : Option Bool :=
          if aidHome a = s.rank then (if o.status = 0 then none else some (o.status == accepted)) else far
        match ans with
        | none => s
        | some ok =>
          if o.st != .active then s
          else
            let s := s.updG o.gid fun g => if g.park = some (.answer op) then { g with park := none } else g
            s.completeOk o ok
      | _ => s)

/-- `AFFIRM` and `DENY` at issue: sent, or held while another slot taints the group (R294). -/
def resolveOp (i : Instr) (affirm : Bool) (p : CmpDst) (a : Opnd) (s : State) : State :=
  issue i (fun s c =>
    match s.team? c.g.tid with
    | none => c.skip s
    | some t =>
      let aid := c.op a
      let own : Tags := match t.slotOf aid with | some k => 1#8 <<< k | none => 0
      let o := { c.mkOp s (.resolve aid affirm) with p := p, wregs := rCmp p }
      if !c.ug then c.skip s
      else if clrTag own c.g.dep = 0 then
        c.launch s { c.g with park := some (.answer s.nextId) } o beginResolve
      else if heldMax ≤ t.held.length then .wait
      else
        let h : Held := ⟨o.id, c.g.gid, clrTag own (c.g.dep ||| c.t)⟩
        .go (((s.fresh.setG c.g).addOp { o with st := .held }).updT t.tid fun t => { t with held := t.held ++ [h] })
          none none) s

def execAffirm (h : Hdr) (p : CmpDst) (a : Opnd) (s : State) : Res := .next (resolveOp (.affirm h p a) true p a s)
def execDeny (h : Hdr) (p : CmpDst) (a : Opnd) (s : State) : Res := .next (resolveOp (.deny h p a) false p a s)

/-! ## `TQRY`, `TWAIT` (R309, R310) -/

/-- State codes of R285. -/
def SlotSt.code : SlotSt → Nat
  | .free => 0 | .loc => 1 | .imported => 2 | .pending => 3 | .draining => 4 | .rollingBack => 5

def tagWord (t : Tags) : Word := t.setWidth 32

/-- What `TQRY` reads, or the trap it takes. -/
def tqryVal (c : IC) (t : Team) (sel : TQSel) : Act ⊕ Word :=
  let line := fun (b : Buf) (a : Opnd) =>
    if t.size b ≤ c.u a then .inl (.trpA 3 (if b = .x then 0x01 else 0x02) (c.u a))
    else Sum.inr (tagWord (t.lineTag b (c.u a / 64)))
  match sel with
  | .regS n => .inr (tagWord (c.g.stagOf n.toNat))
  | .regV n => .inr (tagWord (c.g.vtagOf n.toNat))
  | .pred k => .inr (tagWord (c.g.ptagOf k.toNat))
  | .xline a => line .x a
  | .wline a => line .w a
  | .slot a => .inr (if 8 ≤ c.u a then noAid else t.aidAt (c.u a))
  | .state a => .inr (match t.slots[c.u a]? with | some x => BitVec.ofNat 32 x.st.code | none => 0)
  | .undo => .inr (BitVec.ofNat 32 t.undo.length)
  | .held => .inr (BitVec.ofNat 32 t.held.length)

/-- The register that `.reg` names lies within the launch counts (R25). -/
def Group.tqHas (g : Group) (sel : TQSel) : Bool :=
  match sel with
  | .regS n => g.has (.s n.toNat)
  | .regV n => g.has (.v n.toNat)
  | _ => true

def execTqry (h : Hdr) (d : Dst) (sel : TQSel) (s : State) : Res :=
  .next (issue (.tqry h d sel) (fun s c =>
    match s.team? c.g.tid with
    | none => c.skip s
    | some t =>
      if !c.g.tqHas sel then .trpU 2 0x01
      else if !c.ug then c.skip s
      else match tqryVal c t sel with
        | .inl a => a
        | .inr x => c.put s d 0 fun _ => x) s)

def execTwait (h : Hdr) (s : State) : Res :=
  .next (issue (.twait h) (fun s c =>
    if c.ug && c.g.dep != 0 then c.goG s { c.g with park := some .twait } else c.skip s) s)

end Sys2Proof.Machine
end

