-- ==== Sys2Proof/Machine/Ready.lean ====
section
/-! DEFINITION. Which groups can issue in a cycle (R18, R35): readiness, with what an instruction's own description makes it
wait for. -/

namespace Sys2Proof.Machine

/-- The instruction as the current group would issue it, where its own description can make it wait: a place to hold it in, an
answer, work in flight, an engine that takes no more. -/
def waiterOf (i : Instr) (s : State) : Option Res :=
  match i with
  | .mloop a0 a1 a2 => some (execMloop a0 a1 a2 s)
  | .mstep a0 a1 => some (execMstep a0 a1 s)
  | .mzero a0 a1 a2 => some (execMzero a0 a1 a2 s)
  | .mreset a0 a1 => some (execMreset a0 a1 s)
  | .ldx a0 a1 a2 a3 a4 => some (execLdx a0 a1 a2 a3 a4 s)
  | .stx a0 a1 a2 a3 a4 => some (execStx a0 a1 a2 a3 a4 s)
  | .ldw a0 a1 a2 a3 a4 => some (execLdw a0 a1 a2 a3 a4 s)
  | .stw a0 a1 a2 a3 a4 => some (execStw a0 a1 a2 a3 a4 s)
  | .tgive a0 a1 a2 a3 => some (execTgive a0 a1 a2 a3 s)
  | .ttake a0 a1 a2 a3 => some (execTtake a0 a1 a2 a3 s)
  | .copy a0 a1 a2 a3 a4 a5 a6 a7 a8 => some (execCopy a0 a1 a2 a3 a4 a5 a6 a7 a8 s)
  | .creg a0 a1 a2 a3 => some (execCreg a0 a1 a2 a3 s)
  | .cunreg a0 a1 => some (execCunreg a0 a1 s)
  | .creplay a0 a1 => some (execCreplay a0 a1 s)
  | .creplayDrop a0 a1 => some (execCreplayDrop a0 a1 s)
  | .cred a0 a1 a2 a3 a4 a5 a6 a7 a8 a9 => some (execCred a0 a1 a2 a3 a4 a5 a6 a7 a8 a9 s)
  | .scat a0 a1 a2 a3 a4 => some (execScat a0 a1 a2 a3 a4 s)
  | .barr a0 a1 => some (execBarr a0 a1 s)
  | .barw a0 a1 a2 => some (execBarw a0 a1 a2 s)
  | .atom a0 a1 a2 a3 a4 a5 a6 a7 a8 => some (execAtom a0 a1 a2 a3 a4 a5 a6 a7 a8 s)
  | .acas a0 a1 a2 a3 a4 a5 a6 a7 a8 => some (execAcas a0 a1 a2 a3 a4 a5 a6 a7 a8 s)
  | .ared a0 a1 a2 a3 a4 a5 a6 a7 => some (execAred a0 a1 a2 a3 a4 a5 a6 a7 s)
  | .fence a0 a1 a2 => some (execFence a0 a1 a2 s)
  | .fenceCode a0 => some (execFenceCode a0 s)
  | .affirm a0 a1 a2 => some (execAffirm a0 a1 a2 s)
  | .deny a0 a1 a2 => some (execDeny a0 a1 a2 s)
  | .invoke a0 a1 a2 a3 a4 a5 a6 a7 => some (execInvoke a0 a1 a2 a3 a4 a5 a6 a7 s)
  | .invh a0 a1 a2 a3 a4 a5 a6 => some (execInvh a0 a1 a2 a3 a4 a5 a6 s)
  | .hwait a0 a1 a2 a3 => some (execHwait a0 a1 a2 a3 s)
  | .hwaitPark a0 a1 a2 a3 a4 => some (execHwaitPark a0 a1 a2 a3 a4 s)
  | .hget a0 a1 a2 a3 a4 a5 => some (execHget a0 a1 a2 a3 a4 a5 s)
  | .hdrop a0 a1 => some (execHdrop a0 a1 s)
  | .mbregBind a0 a1 a2 a3 => some (execMbregBind a0 a1 a2 a3 s)
  | .mbregOpen a0 a1 => some (execMbregOpen a0 a1 s)
  | .mbregClose a0 a1 => some (execMbregClose a0 a1 s)
  | .msend a0 a1 a2 a3 a4 a5 => some (execMsend a0 a1 a2 a3 a4 a5 s)
  | .mrecv a0 a1 a2 a3 a4 => some (execMrecv a0 a1 a2 a3 a4 s)
  | .qpush a0 a1 a2 a3 => some (execQpush a0 a1 a2 a3 s)
  | .notify a0 a1 => some (execNotify a0 a1 s)
  | .launch a0 a1 a2 a3 => some (execLaunch a0 a1 a2 a3 s)
  | .rput a0 a1 a2 a3 a4 a5 a6 => some (execRput a0 a1 a2 a3 a4 a5 a6 s)
  | .rget a0 a1 a2 a3 a4 a5 a6 => some (execRget a0 a1 a2 a3 a4 a5 a6 s)
  | .rred a0 a1 a2 a3 a4 a5 a6 a7 => some (execRred a0 a1 a2 a3 a4 a5 a6 a7 s)
  | .mcst a0 a1 a2 a3 a4 a5 a6 a7 => some (execMcst a0 a1 a2 a3 a4 a5 a6 a7 s)
  | .coll a0 a1 a2 a3 a4 a5 => some (execColl a0 a1 a2 a3 a4 a5 s)
  | .tsend a0 a1 a2 a3 a4 a5 => some (execTsend a0 a1 a2 a3 a4 a5 s)
  | .ctset a0 a1 a2 a3 => some (execCtset a0 a1 a2 a3 s)
  | .ctsetImm a0 a1 a2 a3 => some (execCtsetImm a0 a1 a2 a3 s)
  | .gsetFull a0 a1 a2 a3 a4 => some (execGsetFull a0 a1 a2 a3 a4 s)
  | .gsetSeq a0 a1 a2 => some (execGsetSeq a0 a1 a2 s)
  | .gsetClear a0 a1 => some (execGsetClear a0 a1 s)
  | .prnew a0 a1 a2 a3 a4 => some (execPrnew a0 a1 a2 a3 a4 s)
  | .prdesc a0 a1 a2 a3 => some (execPrdesc a0 a1 a2 a3 s)
  | .prexp a0 a1 a2 a3 a4 a5 => some (execPrexp a0 a1 a2 a3 a4 a5 s)
  | .prback a0 a1 a2 a3 => some (execPrback a0 a1 a2 a3 s)
  | .prroot a0 a1 a2 a3 => some (execPrroot a0 a1 a2 a3 s)
  | .prbest a0 a1 a2 => some (execPrbest a0 a1 a2 s)
  | .prfree a0 a1 => some (execPrfree a0 a1 s)
  | .mts a0 a1 => some (execMts a0 a1 s)
  | .rftRep a0 a1 => some (execRftRep a0 a1 s)
  | .vinv a0 a1 => some (execVinv a0 a1 s)
  | .fltq a0 a1 => some (execFltq a0 a1 s)
  | .ctxswSave a0 a1 a2 => some (execCtxswSave a0 a1 a2 s)
  | .ctxswRest a0 a1 a2 => some (execCtxswRest a0 a1 a2 s)
  | .ctxswQry a0 a1 a2 => some (execCtxswQry a0 a1 a2 s)
  | _ => none

/-- Whether an instruction of a group that R18's common items let issue would wait instead of issuing: its meaning then leaves
the group as it was. -/
def State.stalls (s : State) (g : Group) (i : Instr) : Bool :=
  match waiterOf i { s with cur := g.gid } with
  | some (.next t) => t.grp? g.gid == s.grp? g.gid
  | _ => false

/-- Whether a group can issue this cycle (R18). A trap it would take counts as an issue. -/
def State.canIssue (s : State) (g : Group) : Bool :=
  s.live g && ((s.takeDue g).isSome || match s.peek g with
    | some i => s.ready g (infoOf g.fmt i) && !s.stalls g i
    | none => true)

end Sys2Proof.Machine
end

