-- ==== Sys2Proof/Machine/Distributor.lean ====
section
/-! DEFINITION. The issue slot (R18-R20, R35), the distributor's turns (R28), freed slots and released deterministic teams
(R29, R346), pre-emption and restore (R33, R218, R391). -/

namespace Sys2Proof.Machine

/-! ## The issue slot (R19, R20, R35) -/

/-- Cycles counted by a sub-core. -/
def State.cycleAt (s : State) (core sub : Nat) : Nat := sget 0 s.cycles (core * 4 + sub)

/-- The four sub-cores of a core keep one clock: the lowest with the least count is next. -/
def State.subTurn (s : State) (core sub : Nat) : Bool :=
  (List.range 4).all fun j =>
    if j < sub then decide (s.cycleAt core sub < s.cycleAt core j) else decide (s.cycleAt core sub ≤ s.cycleAt core j)

/-- Whether a group is resident: its context is on the device (R32, R35). -/
def State.isResident (s : State) (g : Group) : Bool := !g.ended && s.holds g.tid

/-- Groups resident on a sub-core. -/
def State.onSub (s : State) (core sub : Nat) : List Group :=
  s.groups.filter fun g => g.core == core && g.num % 4 == sub && s.isResident g

def Role.rank : Role → Nat
  | .loader => 0 | .storer => 1 | .computer => 2

/-- Place of a group in the order of R19: class, then the numbers that decide within it. -/
def Group.issueKey (g : Group) : Nat × Nat × Nat × Nat :=
  if g.chpos != 0 then (0, 0, 0, g.slot)
  else match g.agedAt with
    | some t => (1, 0, t, g.slot)
    | none => (2, g.role.rank, g.lastIssue, g.slot)

def keyBefore (a b : Nat × Nat × Nat × Nat) : Bool :=
  decide (a.1 < b.1) || (a.1 == b.1 && (decide (a.2.1 < b.2.1) || (a.2.1 == b.2.1 &&
    (decide (a.2.2.1 < b.2.2.1) || (a.2.2.1 == b.2.2.1 && decide (a.2.2.2 < b.2.2.2))))))

def insertGroup (g : Group) : List Group → List Group
  | [] => [g]
  | x :: xs => if keyBefore g.issueKey x.issueKey then g :: x :: xs else x :: insertGroup g xs

/-- Groups in the order of R19. -/
def issueOrder (gs : List Group) : List Group := gs.foldl (fun a g => insertGroup g a) []

/-- The walk of R19: a group issues where its width fits the lanes left and a decoder is left. A group inside a chain holds
its decoder though it does not fit (R51). -/
def walkOrder : Nat → Nat → List Group → List Group
  | _, _, [] => []
  | lanes, dec, g :: gs =>
    if dec = 0 then []
    else if g.width ≤ lanes then g :: walkOrder (lanes - g.width) (dec - 1) gs
    else walkOrder lanes (if g.chpos != 0 then dec - 1 else dec) gs

/-- Addresses at this rank of an atomic's lanes that are to be performed. -/
def Op.svcLanes (o : Op) (s : State) : List Nat :=
  match o.cmd with
  | .atomic a =>
    if a.loc.isSome then []
    else (o.lanes.filter fun l => l.st == .pending).filterMap fun l => match s.laneLoc l with | .here pa => some pa | .far _ => none
  | _ => []

/-- Whether a remote access is an atomic. -/
def isAtomicAct : RAct → Bool
  | .atomic .. | .cas .. => true
  | _ => false

/-- Addresses of the requests in the queue of service group `h` (R319): lanes of this rank's atomics, captured ones of the team
whose release is next, and other ranks' atomics that a lookup has let pass. Which of them it performs next is what the next
event says. -/
def State.svcRequests (s : State) (h : Nat) : List Nat :=
  let own := (s.ops.filter fun o => o.st == .active).flatMap fun o => o.svcLanes s
  let staged := s.ctxs.flatMap fun c => c.grids.flatMap fun g =>
    if g.finished.contains g.released then (g.staged.filter fun x => x.1 == g.released).flatMap fun x => x.2.op.svcLanes s else []
  let far := (s.foreign.filter fun f => isAtomicAct f.req.act).map (·.pa)
  (own ++ staged ++ far).filter fun pa => svcIndex pa == h

/-- Ready cycles after which a group is aged. -/
def ageLimit : Nat := 1024

/-- What R19 counts for a service group; before its first issue it counts from cycle 0, when it was placed. -/
def State.svcRank (s : State) (h : Nat) : SvcRank := sget ⟨0, none, 0⟩ s.svc h

/-- Service groups that could issue in this cycle: on sub-core 3 of their cores, while their queues hold requests. In which of these
cycles the code they run is ready is free (log entry 89). -/
def State.svcReady (s : State) (core sub : Nat) : List Nat :=
  (List.range 16).filter fun h =>
    sub == 3 && !(s.svcRequests h).isEmpty && (Config.freeWord s.free).getLsbD h && s.mgmt.svcOf h == some core

/-- A ready cycle of a service group: the 1024th without issue ages it (R19). -/
def SvcRank.ready (r : SvcRank) (cycle : Nat) : SvcRank :=
  ⟨r.age + 1, if r.agedAt.isNone && decide (ageLimit ≤ r.age + 1) then some cycle else r.agedAt, r.lastIssue⟩

/-- A service group as it stands in the order of R19: a loader in its slot (R319). Its width is free (log entry 89). -/
def State.svcGroup (s : State) (core cycle h : Nat) : Group :=
  let r := (s.svcRank h).ready cycle
  let b : Binding := ⟨0, 8 * 2 ^ (Config.svcWidth h).toNat, 0, 0, 0, 0, 0, true⟩
  { newGroup (s.nextId + h) s.nextId 3 core (s.mgmt.svcSlot h) .loader b 0 with
    age := r.age, agedAt := r.agedAt, lastIssue := r.lastIssue }

/-- The cycle counted by the service groups that were ready in it; those of `picked` have issued. -/
def State.svcTick (s : State) (cycle : Nat) (ready picked : List Nat) : State :=
  { s with svc := ready.foldl (fun m h => sset ⟨0, none, 0⟩ m h
      (if picked.contains h then ⟨0, none, issueRank (cycle + 1)⟩ else (s.svcRank h).ready cycle)) s.svc }

/-- Free values that one cycle draws. -/
def cycleDraws : Nat := 1

/-- One cycle of a resident group; its count of R19 starts again when it issues. A `YIELD` is over and ranks after every
issue of this cycle (R83). `met`: an acquire fence of the group would complete. -/
def Group.tick (cycle : Nat) (ready met : Bool) (g : Group) : Group :=
  let g := { g with gtime := g.gtime + 1, age := if ready then g.age + 1 else g.age }
  match g.park with
  | some .yielded => { g with park := none, lastIssue := issueRank (cycle + 1) + 1 }
  | some .fence => if met then { g with park := none } else g
  | _ => g

/-- Stall counts of the quads on a core (R151). -/
def Team.stallTick (t : Team) : Team :=
  { t with quads := t.quads.map fun q =>
      { q with stall := q.stall + 1, sets := q.sets.map fun x => { x with waited := x.waited + 1 } } }

/-- Turns that a cycle brings about besides the issues: deadlines of `%gtime` and stalled arrays. -/
def State.cycleTurns (s : State) (core sub : Nat) : List Turn :=
  (((s.onSub core sub).filter Group.timerDue).map fun g => .event (.timerExpiry g.gid))
    ++ ((s.teams.filter fun t => t.core == core && s.holds t.tid).flatMap fun t =>
        (t.quads.filter fun q => stallLimit ≤ q.stallCount).map fun q => .event (.arrayReset t.tid q.num))

/-- Whether a group becomes aged in this cycle: with it, its ready cycles without issue are 1024 (R19). -/
def State.ageDue (s : State) (g : Group) : Bool := g.agedAt.isNone && decide (ageLimit ≤ g.age + 1) && s.canIssue g

/-- The cycle itself: the slot chooses among the ready groups, every resident group counts the cycle, and those chosen
issue in the order of the walk (R19, R20). -/
def State.slotCycle (s : State) (core sub : Nat) : State :=
  let gs := s.onSub core sub
  let ready := gs.filter s.canIssue
  let stalled := (gs.filter fun g => g.chpos != 0 && !g.exited && !ready.any fun r => r.gid == g.gid).length
  let cycle := s.cycleAt core sub
  let svc := s.svcReady core sub
  let walk := walkOrder 64 (4 - stalled) (issueOrder (ready ++ svc.map (s.svcGroup core cycle)))
  let picks := (walk.map (·.gid)).filter fun i => gs.any fun g => g.gid == i
  let tickG := fun (g : Group) =>
    if gs.any fun x => x.gid == g.gid then
      g.tick (s.cycleAt core sub) (ready.any fun r => r.gid == g.gid) (s.fenceMet g .acq .dev)
    else g
  let tickT := fun (t : Team) => if sub = 0 && t.core = core && s.holds t.tid then t.stallTick else t
  let s := s.svcTick cycle svc (svc.filter fun h => walk.any fun g => g.gid == s.nextId + h)
  let s : State := { s with
    cycles := sset 0 s.cycles (core * 4 + sub) (s.cycleAt core sub + 1)
    clock := s.clock + BitVec.ofNat 64 (Config.freeTicks s.free)
    groups := s.groups.map tickG
    teams := s.teams.map tickT
    free := s.free + cycleDraws }
  { s with turns := picks.map Turn.issue ++ s.cycleTurns core sub ++ s.turns }

/-- `ISSUE_CYCLE` (R19): one cycle of a sub-core, with the soft errors and the race-log entries that happen in it (R222, R351), and the
released pushes that no longer wait (R366). Local accesses whose instant has come are performed first, and groups whose ready cycles
are up become aged; then the slot chooses. -/
def execIssueCycle (core : Nat) (turn : SlotTurn) (s : State) : Res :=
  let sub := turn.sub
  let s := ((turn.soft.foldl State.softError s).logEntries fun k _ => turn.logged.contains k).pushDue
  .next (
    if 192 ≤ core || 4 ≤ sub || !s.subTurn core sub || sget .active s.power core != .active then s
    else if s.lacc.any fun a => a.core == core && a.sub == sub && decide (a.due ≤ s.cycleAt core sub) then
      { s with turns := .event (.localAccessPerformed core) :: .event (.issueCycle core ⟨sub, [], []⟩) :: s.turns }
    else match (s.onSub core sub).filter s.ageDue with
      | [] => s.slotCycle core sub
      | gs => { s with turns := (gs.map fun g => Turn.event (.aged g.gid)) ++ .event (.issueCycle core ⟨sub, [], []⟩) :: s.turns })

/-- `AGED` (R19): a group whose 1024th ready cycle without issue this is becomes aged. -/
def execAged (gid : Nat) (s : State) : Res :=
  .next (s.updG gid fun g => if s.ageDue g then { g with agedAt := some (s.cycleOf g) } else g)

/-! ## The distributor (R28) -/

/-- Contexts that could have something placed now, ascending. -/
def State.placeable (s : State) : List Nat :=
  ((List.range 4096).filter fun n => match s.ctx? n with
    | some c => c.st == .resident && (s.placeNext c).isSome
    | none => false)

/-- The context whose turn it is: the next one up, in turn. -/
def State.nextServed (s : State) : Option Nat :=
  match s.placeable.find? fun n => decide (s.served < n) with
  | some n => some n
  | none => s.placeable.head?

/-- `DISTRIBUTOR_PLACE` (R27, R28): one team or cluster of the context whose turn it is. -/
def execDistributorPlace (ctx : Nat) (s : State) : Res :=
  .next (match s.ctx? ctx with
    | none => s
    | some c =>
      if s.nextServed != some ctx then s
      else match s.placeNext c with
        | some s' => { s' with served := ctx }
        | none => s)

/-- `GROUP_SLOT_FREE` (R29): the group has exited, every path counter is zero, and it is not tainted by what it awaited (R306). -/
def execGroupSlotFree (gid : Nat) (s : State) : Res :=
  .next (match s.grp? gid with
    | none => s
    | some g =>
      if !g.exited || g.ended || g.dep != 0 || !g.inFlight.isEmpty || s.lacc.any fun a => a.gid == gid then s
      else (s.setG { g with ended := true }).checkTeam g.tid)

/-! ## Released teams (R345, R346) -/

/-- An access of a staged operation at its home; none while a far home has still to answer. A refused one has no effect. -/
def State.stagedAct (s : State) (o : Op) (l : Lane) (h : Home) (act : RAct) (far : Option LaneAns) : Option State :=
  match h, far with
  | .far _, none => none
  | .far f, some _ => some (s.sendFar f o.gid o.id l.lane act (match o.cmd with | .copy _ => true | _ => false))
  | h, _ => some (match s.homePa h (raNeed act).1 (raNeed act).2 with
    | some (.pa p) => (s.perform p act).1
    | _ => s)

/-- Marked ranges of a capture's source bytes. -/
def Staged.marks (x : Staged) : List (Nat × Nat) := marksOf (x.op.lanes.filter (·.poison))

/-- Captured lanes or parts still to be performed. -/
def Staged.todo (x : Staged) : List Lane := x.op.lanes.filter fun l => !l.poison

/-- Words of one captured part of a copy are performed: `res` holds those performed so far. Answers the state and what is left
of the part; none while a far home has still to answer. -/
def State.stagedWords (s : State) (x : Staged) (l : Lane) (h : Home) (words : BitVec 64) (far : Option LaneAns) :
    Option (State × List Lane) :=
  let off := l.data.toNat
  let len := l.cmp.toNat
  let all := wordRange 0 (len / 4)
  let m := (match h with | .far _ => all | _ => words &&& all) &&& ~~~l.res
  let cut := fun a n => sliceData ⟨x.src, x.marks⟩ (off + a) n
  let r := (wordRuns m).foldl (fun (s : Option State) r => s.bind fun s =>
    s.stagedAct x.op l (h.shift (4 * r.1)) (.put (cut (4 * r.1) (4 * r.2))) far) (some s)
  r.map fun s =>
    if l.res ||| m != all then (s, [{ l with res := l.res ||| m }])
    else (match s.homePa h len .wr with
      | some (.pa p) => s.replaced p len (cut 0 len).bad
      | _ => s, [])

/-- The next element of one captured part of a `CRED`: `res` counts the bytes performed so far. -/
def State.stagedElem (s : State) (x : Staged) (l : Lane) (h : Home) (op : RedOp) (ty : CredTy) (far : Option LaneAns) :
    Option (State × List Lane) :=
  let sz := credSize ty
  let k := l.res.toNat
  let d := sliceData ⟨x.src, x.marks⟩ (l.data.toNat + k) sz
  let bad := !d.bad.isEmpty
  let v := if bad then (Config.freeWord s.free).toNat % 2 ^ (8 * sz) else leNat d.bytes
  let s := if bad then s.draw else s
  (s.stagedAct x.op l (h.shift k) (.reduce op ty (BitVec.ofNat 32 v) bad) far).map fun s =>
    (s, if k + sz < l.cmp.toNat then [{ l with res := BitVec.ofNat 64 (k + sz) }] else [])

/-- Where a captured lane or part goes, its bytes, and what its access needs of an export. -/
def State.stagedHome (s : State) (x : Staged) (l : Lane) : Home × Nat × Need :=
  match x.op.cmd with
  | .copy c => (s.laneHome l l.cmp.toNat c.red.isSome, l.cmp.toNat, c.need)
  | .scatter ty _ => (s.laneHome l (ltySize ty) false, ltySize ty, .wr)
  | .atomic a => (s.laneHome l a.sz true, a.sz, .upd)
  | .remote k win => (l.via.getD (if l.rank = s.rank then .own win l.va else .far (.gfp l.rank win l.va)), raNeed (remAct k l))
  | _ => (.none, 0, .rd)

/-- One captured lane or part goes on: the state, and what is left of it. Through a window that leads back to this rank its
lookup is one step and its performance another (R235). -/
def State.stagedPart (s : State) (x : Staged) (l : Lane) (words : BitVec 64) (far : Option LaneAns) :
    Option (State × List Lane) :=
  let once := fun (r : Option State) => r.map fun s => (s, ([] : List Lane))
  let (h, sz, need) := s.stagedHome x l
  match h with
  | .own w off => some (s, match s.export_ w off sz need with | .pa p => [{ l with via := some (.mem p) }] | .bad _ => [])
  | _ =>
    match x.op.cmd with
    | .copy c => (match c.red with
      | some (op, ty) => s.stagedElem x l h op ty far
      | none => s.stagedWords x l h words far)
    | .scatter ty _ => once (s.stagedAct x.op l h (.write (ltySize ty) l.data) far)
    | .atomic a => once (s.stagedAct x.op l h (a.request l) far)
    | .remote k _ => once (s.stagedAct x.op l h (remAct k l) far)
    | _ => some (s, [])

/-- The captured lanes that go on with `l`: those of an atomic to one location here, which nothing may part (R324). -/
def State.stagedRun (s : State) (x : Staged) (l : Lane) : List Lane :=
  match x.op.cmd, s.laneLoc l with
  | .atomic _, .here _ => x.todo.filter fun k => s.laneLoc k == s.laneLoc l
  | _, _ => [l]

/-- Which of them goes on: of a copy any one (R168), of anything else the first. -/
def Staged.pick (x : Staged) (part : Nat) : Nat := match x.op.cmd with | .copy _ => part | _ => 0

/-- The oldest staged operation of a team goes on. -/
def State.stagedStep (s : State) (x : Staged) (part : Nat) (words : BitVec 64) (far : Option LaneAns) :
    Option (State × Option Staged) :=
  let i := x.pick part
  match x.todo[i]? with
  | none => if x.todo.isEmpty then some (s, none) else none
  | some l =>
    let run := s.stagedRun x l
    let rest := match x.op.cmd with
      | .atomic _ => x.todo.filter fun k => !run.contains k
      | _ => x.todo.drop (i + 1)
    (run.foldl (fun (r : Option (State × List Lane)) k => r.bind fun r =>
        (r.1.stagedPart x k words far).map fun q => (q.1, r.2 ++ q.2)) (some (s, []))).map fun r =>
      let ls := x.todo.take i ++ r.2 ++ rest
      (r.1, if ls.isEmpty then none else some { x with op := { x.op with lanes := ls ++ x.op.lanes.filter (·.poison) } })

/-- The oldest staged operation of a team replaced by what is left of it. -/
def putFirst (team : Nat) (y : Option Staged) : List (Nat × Staged) → List (Nat × Staged)
  | [] => []
  | e :: es => if e.1 = team then (match y with | some y => (team, y) :: es | none => es) else e :: putFirst team y es

/-- `DET_TEAM_RELEASE` (R346): the next team in ascending number, once it has finished, performs its staged operations one
after another; when the last is performed it has been released. `far` is a far home's answer. -/
def execDetTeamRelease (grid : Nat) (r : ReleaseStep) (s : State) : Res :=
  .next (match s.ctxs.findSome? fun c => c.grids.find? fun g => g.gid == grid with
    | none => s
    | some g =>
      if g.released != r.team || !g.finished.contains r.team then s
      else match g.staged.find? fun x => x.1 == r.team with
        | none => (s.updGrid g.ctx grid fun g => { g with released := r.team + 1 }).gridEnded g.ctx grid
        | some x =>
          match s.stagedStep x.2 r.part r.words r.far with
          | none => s
          | some (s, y) => s.updGrid g.ctx grid fun g => { g with staged := putFirst r.team y g.staged })

/-! ## Pre-emption and restore (R33, R153, R218, R391) -/

/-- Whether an operation is one whose landing a save waits for (R218 step 2). -/
def Op.saveWaits (o : Op) : Bool :=
  o.st == .active && match o.cmd with
    | .copy c => (o.sectors c).any fun x => x.2 == .pending
    | .gather .. | .scatter .. => !o.lanesEnded
    | _ => false

/-- Whether everything that a save waits for has taken effect: chains, local accesses, gives, copies, gathers. -/
def State.drainedCtx (s : State) (n : Nat) : Bool :=
  (s.groups.all fun g => s.ctxOfT g.tid != n || g.exited || ((g.chpos == 0 || g.park.isSome) && (match g.park with
      | some (.tgive ..) => false
      | _ => true)))
    && (s.lacc.all fun a => s.ctxOfT a.tid != n)
    && s.ops.all fun o => o.ctx != n || !o.saveWaits

/-- Saved quads restart their stall counts (R153). -/
def Team.stallReset (t : Team) : Team := { t with quads := t.quads.map fun q => { q with stall := 0 } }

/-- Bytes of the image region, whose layout is not architectural, once a context's state has been written to it (R217,
R218 step 4): free values in every page of it that the context's tables map (log entry 81). -/
def State.writeImage (s : State) (c : Ctx) : State :=
  (allParts (s.desc c 0x40 8) (s.desc c 0x48 8)).foldl (fun s p =>
    match s.walk c p.1 with
    | .leaf base _ pa _ _ _ _ =>
      let a := pa + (p.1 - base)
      if s.target a = .lpddr || s.target a = .cxl then { s.wrBytes a (freeBytes s.free p.2.2) with free := s.free + p.2.2 } else s
    | .bad _ => s) s

/-- Whether a context has work pending: a team, a grid or a launch that waits. -/
def State.hasWork (s : State) (c : Ctx) : Bool :=
  s.teams.any (fun t => t.ctx == c.num && !t.ended) || !c.grids.isEmpty || !c.pendTeams.isEmpty || !c.conts.isEmpty

/-- Slices of any context that may end before a saved context with pending work is restored (R391). -/
def sliceMax : Nat := 64

/-- Whether a context waits for its restore. -/
def State.awaitsRestore (s : State) (c : Ctx) : Bool := (c.st == .saved || c.st == .restoring) && s.hasWork c

/-- Whether a context's slice has lasted as long as it may. -/
def State.spent (s : State) (c : Ctx) : Bool := decide (c.since.toNat + 1000 * s.mgmt.cfg.sliceUs ≤ s.clock.toNat)

/-- Whether no more slices may still end before a saved context with pending work is restored than contexts are on the device: from
then on a slice ends only by a pre-emption, which makes room for it (R391; log entry 98). -/
def State.urgentFor (s : State) (x : Ctx) : Bool := s.awaitsRestore x && decide (sliceMax ≤ x.waited + s.residents)
def State.urgent (s : State) : Bool := s.ctxs.any s.urgentFor

/-- Whether another slice may end: none of the contexts that wait has waited for all of its 64. -/
def State.sliceLeft (s : State) : Bool := s.ctxs.all fun x => !(s.awaitsRestore x && decide (sliceMax ≤ x.waited))

/-- A slice of context `ctx` has ended: one more for each saved context with pending work. -/
def State.countSlice (s : State) (ctx : Nat) : State :=
  { s with ctxs := s.ctxs.map fun x => if x.num != ctx && s.awaitsRestore x then { x with waited := x.waited + 1 } else x }

/-- Whether firmware may pick a saved context to restore: where some wait for their last slices, one that has waited longest. -/
def State.restorable (s : State) (c : Ctx) : Bool :=
  s.ctxs.all fun x => !s.urgentFor x || (s.awaitsRestore c && decide (x.waited ≤ c.waited))

/-- `PREEMPT` (R218): the next step of taking a context out: issue stops at the instant that ends its slice (R391), which where a context
waits for its last slices is the pre-emption itself; then, when all that was issued has taken effect, it is saved and its places are
free. Nothing happens in the safe state (R390). -/
def execPreempt (ctx : Nat) (s : State) : Res :=
  .next (match s.ctx? ctx with
    | none => s
    | some c =>
      if s.mgmt.safe then s
      else match c.st with
        | .resident =>
          if c.slice && s.clock == c.since then s.setCtxSt ctx .saving
          else if s.spent c && s.urgent && s.sliceLeft then (s.countSlice ctx).setCtxSt ctx .saving
          else s
        | .saving =>
          if s.drainedCtx ctx then
            let s := { s.writeImage c with teams := s.teams.map fun (t : Team) => if t.ctx = ctx then t.stallReset else t }
            (s.setCtxSt ctx .saved).updC ctx fun c => { c with waited := 0 }
          else s
        | _ => s)

/-- Teams of a context as units of placement: clusters whole, in order of their first team. -/
def State.units (s : State) (ctx : Nat) : List (List Team × Option Cluster) :=
  let ts := s.teams.filter fun t => t.ctx == ctx && !t.ended
  ts.filterMap fun t => match t.clid with
    | none => some ([t], none)
    | some k =>
      match s.clu? k with
      | none => some ([t], none)
      | some c =>
        let ms := ts.filter fun x => x.clid == some k
        if ms.head?.map (·.tid) = some t.tid then some (ms, some c) else none

def Team.demand (t : Team) : Demand := ⟨t.groups.length, t.xbytes, t.wbytes, t.nbars⟩

/-- A team moved to a core: each group takes the lowest free slot of its sub-core again. -/
def State.moveTeam (s : State) (t : Team) (core : Nat) : State :=
  let f := s.freeOf core
  { s with
    teams := s.teams.map fun x => if x.tid = t.tid then { x with core := core } else x
    groups := s.groups.map fun g =>
      if g.tid = t.tid then
        { g with core := core, slot := f.slotFor g.num, lastIssue := issueRank (s.cycleAt core (g.num % 4))
                 agedAt := g.agedAt.map fun _ => s.cycleAt core (g.num % 4) }
      else g }

/-- One unit placed again. -/
def State.placeUnit (s : State) (u : List Team × Option Cluster) : Option State :=
  match u.2 with
  | none =>
    match u.1 with
    | t :: _ => (s.pickCore t.demand).map fun k => s.moveTeam t k
    | [] => some s
  | some c =>
    match u.1 with
    | [] => some s
    | t :: _ =>
      (s.pickRect t.demand c.cols c.rows).map fun o =>
        let s := u.1.foldl (fun s x => s.moveTeam x ((rectCores o c.cols c.rows).getD x.clpos 0)) s
        s.updClu c.clid fun c => { c with origin := o }

/-- A core number that names no core: where a context's teams are while it is out. -/
def noCore : Nat := 192

/-- Every unit of a context placed, or none. -/
def State.placeAll (s : State) (ctx : Nat) : Option State :=
  let us := s.units ctx
  let mine := fun tid => s.ctxOfT tid == ctx
  let s : State := { s with
    teams := s.teams.map fun t => if t.ctx = ctx then { t with core := noCore } else t
    groups := s.groups.map fun g => if mine g.tid then { g with core := noCore } else g }
  us.foldl (fun (r : Option State) u => r.bind fun s => s.placeUnit u) (some (s.setCtxSt ctx .resident))

/-- A group after a restore: a deadline of `SLEEP` that has passed meanwhile no longer parks it (R84). -/
def Group.woken (clock : DWord) (g : Group) : Group :=
  match g.park with
  | some (.sleep dl) => if dl.toNat ≤ clock.toNat then { g with park := none } else g
  | _ => g

/-- `RESTORE` (R218): the next step of bringing a context back: firmware picks a saved one, then its teams are placed
together and issue goes on. -/
def execRestore (ctx : Nat) (s : State) : Res :=
  .next (match s.ctx? ctx with
    | none => s
    | some c =>
      if s.mgmt.safe then s
      else match c.st with
        | .saved => if s.residents < residentMax && s.restorable c then s.setCtxSt ctx .restoring else s
        | .restoring =>
          match s.placeAll ctx with
          | some s' =>
            let s' : State := { s' with groups := s'.groups.map fun g => if s'.ctxOfG g = ctx then g.woken s'.clock else g }
            s'.updC ctx fun c => { c with slice := false, since := s.clock }
          | none => s
        | _ => s)

/-- `SLICE_EXPIRY` (R391): a context has had its time slice, and the next one begins at this instant unless it is taken out at it.
Where a saved context with pending work waits for its last slices, none ends so. -/
def execSliceExpiry (ctx : Nat) (s : State) : Res :=
  .next (match s.ctx? ctx with
    | none => s
    | some c =>
      if c.st != .resident || !s.spent c || s.urgent then s
      else (s.countSlice ctx).updC ctx fun x => { x with slice := true, since := s.clock })

end Sys2Proof.Machine
end

