-- ==== Sys2Proof/Machine/Host.lean ====
section
/-! DEFINITION. Host commands (R251-R253), stores to the device pages by the device or another master (R232, R254, R395),
the delivery of latched wakes (R255), and the response limit (R236). -/

namespace Sys2Proof.Machine

/-! ## Commands (R251, R252) -/

/-- Bytes of payload that a well-formed command carries. -/
def hostLen (c : HostCmd) : Nat :=
  match c.opc.toNat with
  | 1 => 64 * c.count.toNat
  | 2 => recBytes
  | 4 => 4 * c.count.toNat
  | _ => 0

/-- Whether COUNT is within its range. -/
def hostCountOk (c : HostCmd) : Bool :=
  match c.opc.toNat with
  | 1 => decide (1 ≤ c.count.toNat ∧ c.count.toNat ≤ 64)
  | 4 => decide (1 ≤ c.count.toNat ∧ c.count.toNat ≤ 16)
  | _ => c.count == 0

/-- Whether a command is well formed (R252 status 9). -/
def hostFormOk (c : HostCmd) : Bool :=
  decide (1 ≤ c.opc.toNat ∧ c.opc.toNat ≤ 4) && hostCountOk c && c.rsv0 == 0 && c.rsvZero
    && decide (c.payload.length = hostLen c) && !(c.opc == 4 && decide (4096 ≤ c.arg.toNat))

/-- Whether a command's peer may command its context. -/
def State.authorised (s : State) (c : HostCmd) : Bool :=
  (s.ctx? c.ctx.toNat).isSome && s.mgmt.cfg.peers.contains (c.peer, c.ctx.toNat)

/-- The status that refuses a command before its effect: authorisation, then form. -/
def State.hostRefusal (s : State) (c : HostCmd) : Option Nat :=
  if !s.authorised c then some 8 else if !hostFormOk c then some 9 else none

/-- Whether a queue is assigned to a context. -/
def State.assigned (s : State) (q ctx : Nat) : Bool := decide (q < 64) && (s.queue q).ctx == some ctx

/-- Records of a QAPPEND. -/
def hostRecs (c : HostCmd) : List (List Word) :=
  (List.range c.count.toNat).map fun i => bytesWords 16 ((c.payload.drop (64 * i)).take 64)

/-- The message of a MSG command: kind 10 with the peer index (R247). -/
def hostMsg (c : HostCmd) (rank : Nat) : Msg where
  ctx := c.ctx.toNat
  mbx := c.arg.toNat
  words := bytesWords c.count.toNat c.payload
  sender := BitVec.ofNat 32 (2 ^ 31 + c.peer % 2 ^ 16)
  aids := []
  src := rank
  grp := 0

/-- A well-formed command's effect and status (R253); none while it must wait: a message for which there is no room, or a
LAUNCH that needs the control pair while it is in its safe state (R246, R390). -/
def State.hostEffect (s : State) (c : HostCmd) : Option (State × Nat) :=
  let ctx := c.ctx.toNat
  match c.opc.toNat with
  | 1 =>
    if !s.assigned c.arg.toNat ctx then some (s, 7)
    else match s.pushRecs c.arg.toNat (hostRecs c) with
      | some s => some (s, 0)
      | none => some (s, 6)
  | 2 => if s.mgmt.safe && !s.resident ctx then none else some (s.acceptLaunch 0 ctx (parseLaunch c.payload))
  | 3 => if s.assigned c.arg.toNat ctx then some (s.wakeChan c.arg.toNat, 0) else some (s, 7)
  | _ =>
    match s.deliver (hostMsg c s.rank) with
    | .done s => some (s, 0)
    | .refused _ => some (s, 10)
    | .held => none

/-- A command carried out as a whole: its effect, if any, and its status. -/
def State.hostDo (s : State) (c : HostCmd) : Option (State × Nat) :=
  match s.hostRefusal c with
  | some st => some (s, st)
  | none => s.hostEffect c

/-- The reply; DETAIL has no stated value: a free one (log entry 33). -/
def State.hostReply (s : State) (c : HostCmd) (st : Nat) : State :=
  (s.emit (.reply c.peer c.tag (BitVec.ofNat 32 st) (loW (Config.freeWord s.free)))).draw

/-- The oldest command of a peer that waits. -/
def State.waiting (s : State) (peer : Nat) : Option HostCmd := s.hostq.find? fun c => c.peer == peer

/-- A command carried out with its reply, or kept waiting by `wait`. -/
def State.hostTry (s : State) (c : HostCmd) (done wait : State → State) : State :=
  match s.hostDo c with
  | some (s', st) => done (s'.hostReply c st)
  | none => wait s

/-- A command at the front end (R252): the oldest of its peer is carried out and answered, or waits; a later one waits
behind it. -/
def State.front (s : State) (c : HostCmd) : State :=
  match s.waiting c.peer with
  | none => s.hostTry c id fun s => { s with hostq := s.hostq ++ [c] }
  | some h =>
    if h = c then s.hostTry c (fun s => { s with hostq := s.hostq.erase c }) id
    else { s with hostq := s.hostq ++ [c] }

/-- A command of one OPC. A package that has not booted answers none (R393). -/
def hostOp (n : Nat) (c : HostCmd) (s : State) : State := if s.mgmt.booted && c.opc.toNat == n then s.front c else s

def execHostQappend (c : HostCmd) (s : State) : Res := .next (hostOp 1 c s)
def execHostLaunch (c : HostCmd) (s : State) : Res := .next (hostOp 2 c s)
def execHostNotify (c : HostCmd) (s : State) : Res := .next (hostOp 3 c s)
def execHostMsg (c : HostCmd) (s : State) : Res := .next (hostOp 4 c s)

/-- `MALFORMED_COMMAND` (R252): a command that authorisation or form refuses. -/
def execMalformedCommand (c : HostCmd) (s : State) : Res :=
  .next (if s.mgmt.booted && (s.hostRefusal c).isSome then s.front c else s)

/-! ## Device pages -/

/-- First physical address of the aperture's channels (R254). -/
def apertureBase : Nat := 0xF000000200000

/-- `NOTIFY_APERTURE_STORE` (R254): a store of any value to a channel's word. -/
def execNotifyApertureStore (pa : Nat) (s : State) : Res :=
  .next (if apertureBase ≤ pa && pa < apertureBase + 512 then s.wakeChan ((pa - apertureBase) / 8) else s)

/-- `WAKE_DELIVERY` (R255): a latched wake reaches its channel once the aperture runs. -/
def execWakeDelivery (chan : Nat) (s : State) : Res :=
  .next (if s.aperture = .active && decide (chan < 64) && s.wake.getLsbD chan then s.deliverWake chan else s)

/-- `WINDOW_ENTRY_WRITE` (R232): an entry's 32 bytes, the word that holds byte 0 last. -/
def execWindowEntryWrite (w : Nat) (bytes : List Byte) (s : State) : Res :=
  .next (
    if 4096 ≤ w || bytes.length != 32 then s
    else
      let put := fun (s : State) k => s.wrWindow w (8 * k) ((bytes.drop (8 * k)).take 8)
      put (put (put (put s 1) 2) 3) 0)

/-- `RESPLIM_WRITE` (R236, R395). -/
def execResplimWrite (v : Word) (s : State) : Res := .next (s.setResplim v)

/-- `CECOUNT_CLEAR` (R395). -/
def execCecountClear (die : Nat) (s : State) : Res := .next (if die < 4 then s.clearCe die 0 8 else s)

/-- `DEVICE_REGISTER_WRITE` (R192): bytes stored in a device page. -/
def execDeviceRegisterWrite (pa : Nat) (bytes : List Byte) (s : State) : Res :=
  .next (if s.target pa = .device then s.homeWrite pa bytes else s)

/-! ## The response limit (R236) -/

/-- An answer that never came. -/
def noAnswer (lane : Nat) : LaneAns := ⟨lane, false, noReply, 0, false⟩

/-- `RESPONSE_LIMIT_EXPIRY`: a lane, packet or member is reported with cause 0x05. -/
def execResponseLimitExpiry (op lane : Nat) (s : State) : Res :=
  match s.op? op with
  | none => .next s
  | some o =>
    let a := noAnswer lane
    match o.cmd with
    | .remote _ _ | .mcst _ => .next (if o.st = .active then s.updOp op fun o => o.answered [a] s.rank else s)
    | .copy _ => execSectorRefused op lane (some a) s
    | .gather _ _ | .scatter _ _ => execGatherLanePerformed op lane (some a) s
    | .atomic _ => execAtomicPerformed op lane (some a) s
    | .msend _ _ => execMsendComplete op (some a) s
    | .invoke _ _ | .invh _ => execInvocationCompletion op (some a) s
    | .tsend _ _ _ => execTsendEnd op (some a) s
    | .hwait _ | .hget _ _ _ _ => execHomeAnswer op none s
    | _ => .next s

end Sys2Proof.Machine
end

