-- ==== Sys2Proof/Machine/Firmware.lean ====
section
/-! DEFINITION. Boot and its record (R392-R396), the control pair (R390), contexts created and destroyed (R191, R271),
firmware update (R397, R398), attestation (R399), power states and throttling (R400, R401). -/

namespace Sys2Proof.Machine

/-! ## The boot record (R392, R393) -/

/-- A resource's number in the boot record (log entry 36). -/
def resNum : Resource → Nat
  | .package => 0
  | .link n => 8 + n
  | .channel n => 16 + n
  | .port n => 160 + n
  | .cxl n => 180 + n
  | .core n => 200 + n
  | .engine n => 400 + n
  | .bank n => 410 + n

/-- Whether a failure maps the resource out: neither the package nor a flash bank is ever mapped out. -/
def mappable : Resource → Bool
  | .package => false
  | .bank _ => false
  | _ => true

/-- What the physical package shows of a resource. -/
def tryOf (tries : List BootTry) (r : Resource) : BootTry := (tries.find? fun t => t.res = r).getD ⟨r, true, true⟩

/-- The status that this boot leaves, from the one that the previous boot left. -/
def bootStatus (t : BootTry) (old : Nat) : Nat :=
  if old = 3 then 3
  else if old = 1 then (if t.passAlt then 2 else if mappable t.res then 3 else 1)
  else if t.pass then 0 else 1

/-- One resource tried, with its result in the boot record. -/
def bootTry (tries : List BootTry) (st : Sparse Nat) (r : Resource) : Sparse Nat :=
  sset 0 st (resNum r) (bootStatus (tryOf tries r) (sget 0 st (resNum r)))

/-- Whether a resource works after it has been tried. -/
def works (st : Sparse Nat) (r : Resource) : Bool := sget 0 st (resNum r) == 0 || sget 0 st (resNum r) == 2

/-- Resources of boot steps 2 to 6, in order. -/
def bootOrder : List Resource :=
  (List.range 8).map .link ++ (List.range 128).map .channel ++ (List.range 16).map .port ++ (List.range 4).map .cxl
    ++ (List.range 192).map .core ++ (List.range 4).map .engine

/-! ## What the capacity report holds (R394, R395) -/

/-- A compute die works while its link to HD does; link `d` is the one of die `d` (log entry 36). -/
def dieOk (st : Sparse Nat) (d : Nat) : Bool := works st (.link d)

/-- Bytes of LPDDR of one channel. -/
def channelBytes : Nat := 12 * 2 ^ 30

/-- Usable LPDDR bytes of a die, whose channels are 32 in number. -/
def dieBytes (st : Sparse Nat) (d : Nat) : Nat :=
  if dieOk st d then ((List.range 32).filter fun n => works st (.channel (32 * d + n))).length * channelBytes else 0

/-- First physical address of a die's LPDDR; with `d` = 4, the capacity. -/
def dieBase (st : Sparse Nat) (d : Nat) : Nat := ((List.range d).map (dieBytes st)).foldl (· + ·) 0

/-- A bit vector from a test on bit numbers. -/
def bitsOf (w : Nat) (p : Nat → Bool) : BitVec w :=
  BitVec.ofNat w (((List.range w).map fun i => if p i then 2 ^ i else 0).foldl (· + ·) 0)

def coreOk (st : Sparse Nat) (k : Nat) : Bool := dieOk st (k / 48) && works st (.core k)

/-- Cores reserved on a die for persistent collective groups: its highest-numbered usable ones (R264). -/
def reservedCores (st : Sparse Nat) (n d : Nat) : List Nat :=
  (((List.range 48).reverse.map (· + 48 * d)).filter (coreOk st)).take n

/-- Whether anything is mapped out. -/
def reduced (st : Sparse Nat) : Bool := !bootOrder.all (works st)

/-! ## Configuration (R396) -/

/-- A capacity that a work queue may have: a power of two from 64 to 65536 (R365). -/
def capOk (n : Nat) : Bool := ((List.range 11).map fun i => 64 * 2 ^ i).contains n

/-- Whether every item of a configuration record is in its range. -/
def CfgRec.ok (c : CfgRec) : Bool :=
  decide (1 ≤ c.reserved ∧ c.reserved ≤ 8) && decide (1 ≤ c.resplim ∧ c.resplim ≤ 1000)
    && decide (100 ≤ c.sliceUs ∧ c.sliceUs ≤ 100000) && c.queues.all fun q => decide (q.1 < 64) && capOk q.2.2

/-- The configuration in force: the record that passes its checks, or the defaults. -/
def cfgOf (r : Option CfgRec) : CfgRec :=
  match r with
  | some c => if CfgRec.ok c then c else CfgRec.default
  | none => CfgRec.default

/-- The work queues as firmware assigns them. -/
def cfgQueues (c : CfgRec) : Sparse WQueue :=
  c.queues.foldl (fun m q => sset WQueue.default m q.1 ⟨q.2.1, q.2.2, []⟩) []

/-! ## Power-on reset (R392-R394) -/

/-- A flash bank. -/
def Bank.empty : Bank := ⟨false, 0, [], 0⟩
def Mgmt.bank (m : Mgmt) (b : Nat) : Bank := sget Bank.empty m.banks b
def Mgmt.setBank (m : Mgmt) (b : Nat) (k : Bank) : Mgmt := { m with banks := sset Bank.empty m.banks b k }
/-- The bank that an update writes. -/
def Mgmt.inactive (m : Mgmt) : Bank := m.bank (1 - m.bankSel)
def Mgmt.setInactive (m : Mgmt) (k : Bank) : Mgmt := m.setBank (1 - m.bankSel) k
/-- Whether the package has power and firmware answers its management controller (R393). -/
def Mgmt.answers (m : Mgmt) : Bool := m.booted || m.safe

/-- What lies in flash: the boot record, the banks and the configuration record set. -/
def Mgmt.flash (m : Mgmt) : Mgmt :=
  { Mgmt.reset with status := m.status, banks := m.banks, bankSel := m.bankSel, cfgImage := m.cfgImage
                    cfgLen := m.cfgLen, cfgRec := m.cfgRec }

/-- The package without power: flash stays, with the rank and the model's own counters. -/
def State.off (s : State) : State :=
  { State.reset with turns := s.turns, free := s.free, cur := s.cur, nextId := s.nextId, rank := s.rank, out := s.out
                     mgmt := s.mgmt.flash }

/-- Step 7: the bank that boots, and the boot record; none where both fail. -/
def handOff (tries : List BootTry) (m : Mgmt) (st : Sparse Nat) : Sparse Nat × Option Nat :=
  let a := m.bankSel
  let b := 1 - a
  let st1 := bootTry tries st (.bank a)
  if (m.bank a).valid && works st1 (.bank a) then (st1, some a)
  else
    let st2 := bootTry tries st1 (.bank b)
    if (m.bank b).valid && works st2 (.bank b) then (st2, some b) else (st2, none)

/-- Bytes of CXL memory enumerated: none without a working port, else at most 8 TiB (log entry 34). -/
def cxlBytes (st : Sparse Nat) (free : DWord) : Nat :=
  if (List.range 4).any fun p => works st (.cxl p) then free.toNat % (2 ^ 43 + 1) else 0

/-- The management state after boot: `b` is the bank that has taken over, none where both have failed. -/
def bootMgmt (m : Mgmt) (st : Sparse Nat) (b : Option Nat) (cfg : CfgRec) (free : DWord) : Mgmt :=
  { m.flash with
    booted := b.isSome
    safe := b.isNone
    status := st
    bankSel := b.getD m.bankSel
    lpddrcap := BitVec.ofNat 64 (dieBase st 4)
    cxlcap := BitVec.ofNat 64 (cxlBytes st free)
    coremap := bitsOf 192 (coreOk st)
    portmap := bitsOf 16 fun p => works st (.port p)
    cxlmap := bitsOf 4 fun p => works st (.cxl p)
    diemap := bitsOf 8 fun i => if i < 4 then dieOk st i else dieOk st (i - 4) && works st (.engine (i - 4))
    bootstat := BitVec.ofNat 32 ((if reduced st then 1 else 0) + (if b.isSome && b != some m.bankSel then 2 else 0))
    resplim := BitVec.ofNat 32 cfg.resplim
    diebase := (List.range 4).foldl (fun t d => sset 0 t d (BitVec.ofNat 64 (dieBase st d))) []
    collmap := bitsOf 192 fun k => (reservedCores st cfg.reserved (k / 48)).contains k
    portsUp := bitsOf 16 fun p => works st (.port p)
    cfg := cfg }

/-- `POWER_ON_RESET` (R392): the boot steps in order, in a package to which the supervisor has assigned a rank (R3; log entry
6). The configuration is the verified record set in flash (R396). Where step 1 fails the package stays powered down and
reports. -/
def execPowerOnReset (tries : List BootTry) (rank : BitVec 10) (s : State) : Res :=
  .next (
    let s0 := { s.off with rank := rank.toNat }
    let st1 := bootTry tries s.mgmt.status .package
    if !works st1 .package then ({ s0 with mgmt := { s0.mgmt with status := st1 } }).emit (.report [1])
    else
      let c := cfgOf s.mgmt.cfgRec
      let (st, b) := handOff tries s.mgmt (bootOrder.foldl (bootTry tries) st1)
      { s0 with free := s.free + 1, queues := cfgQueues c, mgmt := bootMgmt s.mgmt st b c (Config.freeWord s.free) })

/-! ## The control pair (R390) -/

/-- `SAFE_STATE` (R390): the control cores disagree. -/
def execSafeState (s : State) : Res :=
  .next (if s.mgmt.booted then { s with mgmt := { s.mgmt with safe := true } } else s)

/-- `CONTROL_PAIR_RELOAD` (R390): the pair has reloaded the active bank. Without a bank that boots it stays as it is. -/
def execControlPairReload (s : State) : Res :=
  .next (if s.mgmt.booted then { s with mgmt := { s.mgmt with safe := false } } else s)

/-! ## Contexts (R191, R217, R246, R258, R274) -/

/-- A context at its creation: counters 0, mailboxes closed, the group table in its creation state. -/
def newCtx (ctx saveVA savePA : Nat) (since : DWord) : Ctx where
  num := ctx
  st := .resident
  saveVA := BitVec.ofNat 64 saveVA
  savePA := savePA
  counters := []
  fails := 0
  failCause := 0
  armed := []
  gtable := []
  mbox := []
  grids := []
  pendTeams := []
  conts := []
  faults := []
  raceBase := 0
  raceCount := 0
  slice := false
  since := since
  waited := 0

/-- Bytes of a context's descriptor (R217). -/
def descBytes : Nat := 256

/-- Whether firmware can create a context: the control pair runs, the number is free, there is room, the save area is a
page of LPDDR. -/
def State.canCreate (s : State) (ctx saveVA savePA : Nat) : Bool :=
  s.mgmt.booted && !s.mgmt.safe && decide (ctx < 4096) && (s.ctx? ctx).isNone && decide (s.residents < residentMax)
    && saveVA % 4096 == 0 && decide (saveVA < 2 ^ 54) && savePA % 4096 == 0 && s.target savePA == .lpddr

/-- `CONTEXT_CREATION`: firmware writes the descriptor `desc`, with CTXNO and STATE, and the context is resident. -/
def execContextCreation (ctx saveVA savePA : Nat) (desc : List Byte) (s : State) : Res :=
  .next (
    if !s.canCreate ctx saveVA savePA then s
    else
      let c := newCtx ctx saveVA savePA s.clock
      let s := s.wrBytes savePA ((desc ++ List.replicate descBytes 0).take descBytes)
      let s : State := { s with ctxs := s.ctxs ++ [c] }
      (s.wrDesc c 0x38 2 ctx).wrDesc c 0x3A 1 c.st.code)

/-- Cause of an instance's abort by the destruction of a member's context (R258). -/
def destroyCause : BitVec 8 := 0x11

/-- Each entry's outstanding instance meets its fatal fault (R271). -/
def State.abortColls (s : State) (ctx : Nat) : State :=
  (((s.colls.filter fun i => i.ctx == ctx).map (·.entry)).eraseDups).foldl (fun s e =>
    match s.headInst ctx e with
    | some i => s.raiseFault i s.rank destroyCause
    | none => s) s

/-- The trees of a context are freed (R380, R387). -/
def State.freeTrees (s : State) (ctx : Nat) : State :=
  (s.trees.filter fun t => t.2.live && t.2.ctx == ctx).foldl (fun s t => s.freeTree t.1) s

/-- Handles of a context's invocations that run or wait to be placed here (R356). -/
def State.invHandles (s : State) (ctx : Nat) : List DWord :=
  let of := fun (k : TeamKind) => match k with | .invocation h _ _ => some h | _ => none
  (s.teams.filter fun t => t.ctx == ctx).filterMap (fun t => of t.kind)
    ++ (match s.ctx? ctx with | some c => c.pendTeams.filterMap fun p => of p.kind | none => [])

/-- Everything of a context leaves the package. -/
def State.dropCtx (s : State) (n : Nat) : State :=
  let mine := fun tid => s.ctxOfT tid == n
  { s with
    ctxs := s.ctxs.filter fun c => c.num != n
    teams := s.teams.filter fun t => t.ctx != n
    groups := s.groups.filter fun g => !mine g.tid
    lacc := s.lacc.filter fun a => !mine a.tid
    clusters := s.clusters.filter fun c => !c.teams.any mine
    ops := s.ops.filter fun o => o.ctx != n
    colls := s.colls.filter fun i => i.ctx != n
    sigs := s.sigs.filter fun x => x.ctx != n
    tokens := s.tokens.filter fun x => x.ctx != n
    raceq := s.raceq.filter fun e => e.ctx != n
    race := s.race.filter fun u => !s.ctxs.any fun c => c.num == n && c.grids.any fun g => g.gid == u.grid }

/-- `CONTEXT_DESTRUCTION`: collectives abort, trees are freed, invocation teams break their handles, armed sends are
cancelled, and the context goes. -/
def execContextDestruction (ctx : Nat) (s : State) : Res :=
  .next (
    if (s.ctx? ctx).isNone || s.mgmt.safe then s
    else
      let hs := s.invHandles ctx
      let s := ((s.abortColls ctx).freeTrees ctx).setCtxSt ctx .free
      hs.foldl (fun s h => s.sendEnd h ctx (.broken 0x10)) (s.dropCtx ctx))

/-! ## Firmware update (R397, R398)

Command codes are those of DSP0267 (log entry 37). -/

/-- A reply of the firmware device, or a request that it makes. -/
def State.pldm (s : State) (code : Nat) (ok : Bool) (bytes : List Byte) : State := s.emit (.pldm code ok bytes)

/-- A step of an update, at a package whose firmware runs, be it in the safe state with both banks failed (R393). -/
def State.fw (s : State) (f : State → State) : Res := .next (if s.mgmt.answers then f s else s)

/-- The update moves on. -/
def State.setUpd (s : State) (u : UpdSt) : State := { s with mgmt := { s.mgmt with upd := u } }

/-- A code for where the update stands. -/
def UpdSt.code : UpdSt → Nat
  | .idle => 0 | .requested => 1 | .tabled _ => 2 | .receiving .. => 3 | .received .. => 4 | .verified _ => 5
  | .activating => 6

def execQueryDeviceIdentifiers (s : State) : Res := s.fw fun s => s.pldm 0x01 true Config.deviceIds

def execGetFirmwareParameters (s : State) : Res :=
  s.fw fun s => s.pldm 0x02 true (natBytes 4 (s.mgmt.fwVersion s.mgmt.bankSel).toNat
    ++ natBytes 4 (s.mgmt.fwVersion (1 - s.mgmt.bankSel)).toNat)

/-- The completion code with which a device in an update refuses another (log entry 37). -/
def inUpdate : Byte := 0x81

/-- `REQUEST_UPDATE` (R397): refused as busy while one runs. -/
def execRequestUpdate (s : State) : Res :=
  s.fw fun s => match s.mgmt.upd with
    | .idle => (s.setUpd .requested).pldm 0x10 true []
    | _ => s.pldm 0x10 false [inUpdate]

def execPassComponentTable (comps : List FwComp) (s : State) : Res :=
  s.fw fun s => match s.mgmt.upd with
    | .requested => if comps.isEmpty then s.pldm 0x13 false [] else (s.setUpd (.tabled false)).pldm 0x13 true []
    | _ => s.pldm 0x13 false []

/-- `UPDATE_COMPONENT`: the device takes a component and requests its first data. -/
def execUpdateComponent (c : FwComp) (s : State) : Res :=
  let take := fun (s : State) (img : Bool) => ((s.setUpd (.receiving c img false)).pldm 0x14 true []).pldm 0x15 true []
  s.fw fun s => match s.mgmt.upd with
    | .tabled img => take s img
    | .verified img => take s img
    | _ => s.pldm 0x14 false []

/-- Bytes of an image into the inactive bank, which the first byte makes invalid. -/
def Mgmt.putImage (m : Mgmt) (begun : Bool) (p : FwPiece) : Mgmt :=
  if p.bytes.isEmpty then m
  else
    let k := m.inactive
    let (old, n) := if begun then (k.image, k.len) else ([], 0)
    m.setInactive ⟨false, k.version, putBytes old p.offset p.bytes, max n (p.offset + p.bytes.length)⟩

/-- Bytes of the configuration record set, whose check is to be made again. -/
def Mgmt.putCfg (m : Mgmt) (begun : Bool) (p : FwPiece) : Mgmt :=
  if p.bytes.isEmpty then m
  else
    let (old, n) := if begun then (m.cfgImage, m.cfgLen) else ([], 0)
    { m with cfgImage := putBytes old p.offset p.bytes, cfgLen := max n (p.offset + p.bytes.length), cfgRec := none }

/-- `FIRMWARE_DATA` (R398 step 1): a piece of the component arrives, and the next is requested; the last one completes the
transfer. -/
def execFirmwareData (p : FwPiece) (s : State) : Res :=
  s.fw fun s => match s.mgmt.upd with
    | .receiving c img begun =>
      let m := match c with | .image => s.mgmt.putImage begun p | .config => s.mgmt.putCfg begun p
      let s : State := { s with mgmt := m }
      if p.last then (s.setUpd (.received c img)).pldm 0x16 true []
      else (s.setUpd (.receiving c img (begun || !p.bytes.isEmpty))).pldm 0x15 true []
    | _ => s

/-- The image that this update had verified, if it still stands: another transfer may have made its bank invalid. -/
def Mgmt.kept (m : Mgmt) (img : Bool) : Bool := img && m.inactive.valid

/-- A component is given up, or fails its check; the update goes on. -/
def State.giveUp (s : State) (img : Bool) : State := s.setUpd (.tabled (s.mgmt.kept img))

/-- `IMAGE_VERIFY` (R398 step 2): signature and version; VerifyComplete reports, and on success ApplyComplete follows. `cfg` is
what the record set says. -/
def execImageVerify (sigOk : Bool) (version : Word) (cfg : Option CfgRec) (s : State) : Res :=
  let pass := fun (s : State) (m : Mgmt) (img : Bool) =>
    ((State.setUpd { s with mgmt := m } (.verified img)).pldm 0x17 true []).pldm 0x18 true []
  s.fw fun s => match s.mgmt.upd with
    | .received .image img =>
      if sigOk && decide (s.mgmt.cfg.minFw.toNat ≤ version.toNat) then
        pass s (s.mgmt.setInactive { s.mgmt.inactive with valid := true, version := version }) true
      else (s.giveUp img).pldm 0x17 false []
    | .received .config img =>
      if sigOk && (cfg.elim false CfgRec.ok) then pass s { s.mgmt with cfgRec := cfg } (s.mgmt.kept img)
      else (s.giveUp img).pldm 0x17 false []
    | _ => s

/-- `ACTIVATE_FIRMWARE` (R398 step 3): a verified image waits for the next quiesce boundary; a record set alone is in force
from the next boot. -/
def execActivateFirmware (s : State) : Res :=
  s.fw fun s => match s.mgmt.upd with
    | .verified true => (s.setUpd .activating).pldm 0x1A true []
    | .verified false => (s.setUpd .idle).pldm 0x1A true []
    | _ => s.pldm 0x1A false []

/-- Whether a pre-emption or a restore is in progress. -/
def State.moving (s : State) : Bool := s.ctxs.any fun c => c.st == .saving || c.st == .restoring

/-- `BANK_SWITCH` (R398 step 3): at a quiesce boundary the banks change places and the pair reloads; an image that fails its
first hand-off leaves the other bank booted (R393). -/
def execBankSwitch (handoffOk : Bool) (s : State) : Res :=
  .next (
    let m := s.mgmt
    if m.upd != .activating || !m.booted || m.safe || s.moving then s
    else if handoffOk && m.inactive.valid then { s with mgmt := { m with bankSel := 1 - m.bankSel, upd := .idle, safe := true } }
    else { s with mgmt := { m with upd := .idle, safe := true, bootstat := m.bootstat ||| 2 } })

def execGetStatus (s : State) : Res := s.fw fun s => s.pldm 0x1B true [BitVec.ofNat 8 s.mgmt.upd.code]

/-- `CANCEL_UPDATE_COMPONENT`: the component under way is given up; what it wrote stays invalid. -/
def execCancelUpdateComponent (s : State) : Res :=
  s.fw fun s => match s.mgmt.upd with
    | .receiving _ img _ => (s.giveUp img).pldm 0x1C true []
    | .received _ img => (s.giveUp img).pldm 0x1C true []
    | _ => s.pldm 0x1C false []

/-- Whether this update has verified an image that has not been activated. -/
def UpdSt.hasImage : UpdSt → Bool
  | .tabled i => i | .receiving _ i _ => i | .received _ i => i | .verified i => i | _ => false

/-- An update given up before its activation: an image it had verified is invalid again. -/
def Mgmt.abandon (m : Mgmt) : Mgmt :=
  if m.upd.hasImage then { m.setInactive { m.inactive with valid := false } with upd := .idle } else { m with upd := .idle }

/-- `CANCEL_UPDATE` (R398). -/
def execCancelUpdate (s : State) : Res :=
  s.fw fun s =>
    if s.mgmt.upd = .idle || s.mgmt.upd = .activating then s.pldm 0x1D false []
    else State.pldm { s with mgmt := s.mgmt.abandon } 0x1D true []

/-- `POWER_LOSS` (R398): everything but flash is lost; an update that was not activated leaves the inactive bank invalid. -/
def execPowerLoss (s : State) : Res := .next (State.off { s with mgmt := s.mgmt.abandon })

/-! ## Attestation (R399) -/

/-- The part number, GS9-4816, as ASCII. -/
def partNumber : List Byte := [0x47, 0x53, 0x39, 0x2D, 0x34, 0x38, 0x31, 0x36]

/-- The `n` bytes of a sparse image. -/
def imageBytes (m : Sparse Byte) (n : Nat) : List Byte := (List.range n).map (sget 0 m)
/-- The digest of a bank's image. -/
def Bank.digest (b : Bank) : List Byte := Config.shake256 (imageBytes b.image b.len)

/-- The report's contents, in the order of R399 (log entry 38). -/
def Mgmt.attest (m : Mgmt) (nonce : List Byte) : List Byte :=
  partNumber ++ (Config.serial ++ List.replicate 16 0).take 16
    ++ natBytes 4 (m.fwVersion m.bankSel).toNat ++ natBytes 4 (m.fwVersion (1 - m.bankSel)).toNat
    ++ (m.bank 0).digest ++ (m.bank 1).digest
    ++ Config.shake256 (imageBytes m.cfgImage m.cfgLen) ++ m.page.take 0x30 ++ nonce

/-- `ATTESTATION_REQUEST` (R399): a report with a 32-byte nonce, signed over its digest. -/
def execAttestationRequest (nonce : List Byte) (s : State) : Res :=
  .next (
    if !s.mgmt.booted || nonce.length != 32 then s
    else
      let r := s.mgmt.attest nonce
      s.emit (.report (r ++ Config.mldsaSign (Config.shake256 r))))

/-! ## Power (R400, R401) -/

def State.pwr (s : State) (u : PowerUnit) : PwrSt :=
  match u with | none => s.aperture | some k => sget .active s.power k
def State.setPwr (s : State) (u : PowerUnit) (p : PwrSt) : State :=
  match u with
  | none => { s with aperture := p }
  | some k => if k < 192 then { s with power := sset .active s.power k p } else s

/-- Whether nothing is resident on a core: no team, whose groups and engine work it would hold, and no service or persistent
collective group (R264, R319). -/
def State.idleCore (s : State) (k : Nat) : Bool :=
  !(s.teams.any fun t => t.core == k && !t.ended && s.holds t.tid) && !s.mgmt.svcCores.contains k && !s.mgmt.collmap.getLsbD k

/-- Whether a unit has no work: the aperture's state follows no rule but its own. -/
def State.idleUnit (s : State) (u : PowerUnit) : Bool := match u with | none => true | some k => s.idleCore k

/-- `CLOCK_GATE` (R400). -/
def execClockGate (u : PowerUnit) (s : State) : Res :=
  .next (if s.pwr u = .active && s.idleUnit u then s.setPwr u .clockGated else s)

/-- `POWER_GATE` (R400): the buffers hold no context state. -/
def execPowerGate (u : PowerUnit) (s : State) : Res :=
  .next (if s.pwr u = .clockGated && s.idleUnit u then s.setPwr u .powerGated else s)

/-- Turns that deliver the latched wakes (R255). -/
def State.wakeTurns (s : State) : List Turn :=
  ((List.range 64).filter fun c => s.wake.getLsbD c).map fun c => .event (.wakeDelivery c)

/-- `UNGATE` (R400, R255): the unit runs again; an aperture then delivers what its latch holds. -/
def execUngate (u : PowerUnit) (s : State) : Res :=
  .next (
    if s.pwr u = .active then s
    else
      let s := s.setPwr u .active
      match u with
      | none => { s with turns := s.wakeTurns ++ s.turns }
      | some _ => s)

/-- `THROTTLE_STEP` (R401): 25 MHz down to a floor of 500 MHz, or back up to 1.75 GHz; an episode begins with its first
step down and ends at full rate. -/
def execThrottleStep (down : Bool) (s : State) : Res :=
  .next (
    let m := s.mgmt
    if down then
      { s with mgmt := { m with
        clk := max Config.clkMin (m.clk - Config.clkStep), throttled := true
        thrcount := if m.throttled then m.thrcount else m.thrcount + 1 } }
    else
      let clk := min Config.clkMax (m.clk + Config.clkStep)
      { s with mgmt := { m with clk := clk, throttled := m.throttled && clk != Config.clkMax } })

end Sys2Proof.Machine
end

