-- ==== Sys2Proof/Machine/Dispatch.lean ====
section
/-! DEFINITION. One arm per constructor of `Instr`: a direct call of its meaning. -/

namespace Sys2Proof.Machine

def exec (i : Instr) (s : State) : Host.Outcome State Fault Refusal :=
  match i with
  | .nop => Sys2Proof.Machine.execNop s
  | .bra a0 a1 => Sys2Proof.Machine.execBra a0 a1 s
  | .brx a0 a1 => Sys2Proof.Machine.execBrx a0 a1 s
  | .call a0 a1 a2 => Sys2Proof.Machine.execCall a0 a1 a2 s
  | .callx a0 a1 a2 => Sys2Proof.Machine.execCallx a0 a1 a2 s
  | .ret a0 a1 => Sys2Proof.Machine.execRet a0 a1 s
  | .mark a0 => Sys2Proof.Machine.execMark a0 s
  | .join => Sys2Proof.Machine.execJoin s
  | .exit a0 => Sys2Proof.Machine.execExit a0 s
  | .yield a0 => Sys2Proof.Machine.execYield a0 s
  | .sleep a0 a1 => Sys2Proof.Machine.execSleep a0 a1 s
  | .sleepImm a0 a1 => Sys2Proof.Machine.execSleepImm a0 a1 s
  | .setfmt a0 a1 a2 => Sys2Proof.Machine.execSetfmt a0 a1 a2 s
  | .setfmtImm a0 a1 a2 => Sys2Proof.Machine.execSetfmtImm a0 a1 a2 s
  | .getfmt a0 a1 => Sys2Proof.Machine.execGetfmt a0 a1 s
  | .brk a0 a1 => Sys2Proof.Machine.execBreak a0 a1 s
  | .iadd a0 a1 a2 a3 a4 a5 => Sys2Proof.Machine.execIadd a0 a1 a2 a3 a4 a5 s
  | .iaddImm a0 a1 a2 a3 a4 a5 => Sys2Proof.Machine.execIaddImm a0 a1 a2 a3 a4 a5 s
  | .isub a0 a1 a2 a3 a4 a5 => Sys2Proof.Machine.execIsub a0 a1 a2 a3 a4 a5 s
  | .isubImm a0 a1 a2 a3 a4 a5 => Sys2Proof.Machine.execIsubImm a0 a1 a2 a3 a4 a5 s
  | .imul a0 a1 a2 a3 a4 a5 a6 => Sys2Proof.Machine.execImul a0 a1 a2 a3 a4 a5 a6 s
  | .imulImm a0 a1 a2 a3 a4 a5 a6 => Sys2Proof.Machine.execImulImm a0 a1 a2 a3 a4 a5 a6 s
  | .imulh a0 a1 a2 a3 a4 a5 => Sys2Proof.Machine.execImulh a0 a1 a2 a3 a4 a5 s
  | .imulhImm a0 a1 a2 a3 a4 a5 => Sys2Proof.Machine.execImulhImm a0 a1 a2 a3 a4 a5 s
  | .imad a0 a1 a2 a3 a4 a5 a6 a7 => Sys2Proof.Machine.execImad a0 a1 a2 a3 a4 a5 a6 a7 s
  | .idiv a0 a1 a2 a3 a4 a5 => Sys2Proof.Machine.execIdiv a0 a1 a2 a3 a4 a5 s
  | .idivImm a0 a1 a2 a3 a4 a5 => Sys2Proof.Machine.execIdivImm a0 a1 a2 a3 a4 a5 s
  | .irem a0 a1 a2 a3 a4 a5 => Sys2Proof.Machine.execIrem a0 a1 a2 a3 a4 a5 s
  | .iremImm a0 a1 a2 a3 a4 a5 => Sys2Proof.Machine.execIremImm a0 a1 a2 a3 a4 a5 s
  | .imin a0 a1 a2 a3 a4 => Sys2Proof.Machine.execImin a0 a1 a2 a3 a4 s
  | .iminImm a0 a1 a2 a3 a4 => Sys2Proof.Machine.execIminImm a0 a1 a2 a3 a4 s
  | .imax a0 a1 a2 a3 a4 => Sys2Proof.Machine.execImax a0 a1 a2 a3 a4 s
  | .imaxImm a0 a1 a2 a3 a4 => Sys2Proof.Machine.execImaxImm a0 a1 a2 a3 a4 s
  | .iabs a0 a1 a2 a3 => Sys2Proof.Machine.execIabs a0 a1 a2 a3 s
  | .ineg a0 a1 a2 a3 => Sys2Proof.Machine.execIneg a0 a1 a2 a3 s
  | .and a0 a1 a2 a3 => Sys2Proof.Machine.execAnd a0 a1 a2 a3 s
  | .andImm a0 a1 a2 a3 => Sys2Proof.Machine.execAndImm a0 a1 a2 a3 s
  | .or a0 a1 a2 a3 => Sys2Proof.Machine.execOr a0 a1 a2 a3 s
  | .orImm a0 a1 a2 a3 => Sys2Proof.Machine.execOrImm a0 a1 a2 a3 s
  | .xor a0 a1 a2 a3 => Sys2Proof.Machine.execXor a0 a1 a2 a3 s
  | .xorImm a0 a1 a2 a3 => Sys2Proof.Machine.execXorImm a0 a1 a2 a3 s
  | .not a0 a1 a2 => Sys2Proof.Machine.execNot a0 a1 a2 s
  | .shl a0 a1 a2 a3 => Sys2Proof.Machine.execShl a0 a1 a2 a3 s
  | .shr a0 a1 a2 a3 => Sys2Proof.Machine.execShr a0 a1 a2 a3 s
  | .sar a0 a1 a2 a3 => Sys2Proof.Machine.execSar a0 a1 a2 a3 s
  | .rotl a0 a1 a2 a3 => Sys2Proof.Machine.execRotl a0 a1 a2 a3 s
  | .popc a0 a1 a2 => Sys2Proof.Machine.execPopc a0 a1 a2 s
  | .clz a0 a1 a2 => Sys2Proof.Machine.execClz a0 a1 a2 s
  | .bfx a0 a1 a2 a3 a4 a5 => Sys2Proof.Machine.execBfx a0 a1 a2 a3 a4 a5 s
  | .bfi a0 a1 a2 a3 a4 => Sys2Proof.Machine.execBfi a0 a1 a2 a3 a4 s
  | .sel a0 a1 a2 a3 a4 a5 => Sys2Proof.Machine.execSel a0 a1 a2 a3 a4 a5 s
  | .icmp a0 a1 a2 a3 a4 a5 a6 => Sys2Proof.Machine.execIcmp a0 a1 a2 a3 a4 a5 a6 s
  | .icmpImm a0 a1 a2 a3 a4 a5 a6 => Sys2Proof.Machine.execIcmpImm a0 a1 a2 a3 a4 a5 a6 s
  | .add64 a0 a1 a2 a3 a4 => Sys2Proof.Machine.execAdd64 a0 a1 a2 a3 a4 s
  | .lea64 a0 a1 a2 => Sys2Proof.Machine.execLea64 a0 a1 a2 s
  | .mov a0 a1 a2 => Sys2Proof.Machine.execMov a0 a1 a2 s
  | .movi a0 a1 a2 => Sys2Proof.Machine.execMovi a0 a1 a2 s
  | .lane a0 a1 a2 a3 a4 => Sys2Proof.Machine.execLane a0 a1 a2 a3 a4 s
  | .ballot a0 a1 a2 a3 a4 => Sys2Proof.Machine.execBallot a0 a1 a2 a3 a4 s
  | .vote a0 a1 a2 => Sys2Proof.Machine.execVote a0 a1 a2 s
  | .gred a0 a1 a2 a3 a4 => Sys2Proof.Machine.execGred a0 a1 a2 a3 a4 s
  | .fadd a0 a1 a2 a3 a4 a5 => Sys2Proof.Machine.execFadd a0 a1 a2 a3 a4 a5 s
  | .faddImm a0 a1 a2 a3 a4 a5 => Sys2Proof.Machine.execFaddImm a0 a1 a2 a3 a4 a5 s
  | .fsub a0 a1 a2 a3 a4 a5 => Sys2Proof.Machine.execFsub a0 a1 a2 a3 a4 a5 s
  | .fsubImm a0 a1 a2 a3 a4 a5 => Sys2Proof.Machine.execFsubImm a0 a1 a2 a3 a4 a5 s
  | .fmul a0 a1 a2 a3 a4 a5 a6 => Sys2Proof.Machine.execFmul a0 a1 a2 a3 a4 a5 a6 s
  | .fmulImm a0 a1 a2 a3 a4 a5 a6 => Sys2Proof.Machine.execFmulImm a0 a1 a2 a3 a4 a5 a6 s
  | .ffma a0 a1 a2 a3 a4 a5 a6 a7 a8 a9 => Sys2Proof.Machine.execFfma a0 a1 a2 a3 a4 a5 a6 a7 a8 a9 s
  | .fmin a0 a1 a2 a3 a4 a5 => Sys2Proof.Machine.execFmin a0 a1 a2 a3 a4 a5 s
  | .fminImm a0 a1 a2 a3 a4 a5 => Sys2Proof.Machine.execFminImm a0 a1 a2 a3 a4 a5 s
  | .fmax a0 a1 a2 a3 a4 a5 => Sys2Proof.Machine.execFmax a0 a1 a2 a3 a4 a5 s
  | .fmaxImm a0 a1 a2 a3 a4 a5 => Sys2Proof.Machine.execFmaxImm a0 a1 a2 a3 a4 a5 s
  | .fcmp a0 a1 a2 a3 a4 a5 => Sys2Proof.Machine.execFcmp a0 a1 a2 a3 a4 a5 s
  | .fcmpImm a0 a1 a2 a3 a4 a5 => Sys2Proof.Machine.execFcmpImm a0 a1 a2 a3 a4 a5 s
  | .frcp a0 a1 a2 a3 a4 a5 => Sys2Proof.Machine.execFrcp a0 a1 a2 a3 a4 a5 s
  | .frsq a0 a1 a2 a3 a4 a5 => Sys2Proof.Machine.execFrsq a0 a1 a2 a3 a4 a5 s
  | .fsqrt a0 a1 a2 a3 a4 a5 => Sys2Proof.Machine.execFsqrt a0 a1 a2 a3 a4 a5 s
  | .fexp2 a0 a1 a2 a3 a4 a5 => Sys2Proof.Machine.execFexp2 a0 a1 a2 a3 a4 a5 s
  | .flog2 a0 a1 a2 a3 a4 a5 => Sys2Proof.Machine.execFlog2 a0 a1 a2 a3 a4 a5 s
  | .ftanh a0 a1 a2 a3 a4 a5 => Sys2Proof.Machine.execFtanh a0 a1 a2 a3 a4 a5 s
  | .fclass a0 a1 a2 a3 a4 a5 => Sys2Proof.Machine.execFclass a0 a1 a2 a3 a4 a5 s
  | .hadd2 a0 a1 a2 a3 a4 a5 => Sys2Proof.Machine.execHadd2 a0 a1 a2 a3 a4 a5 s
  | .hadd2Imm a0 a1 a2 a3 a4 a5 => Sys2Proof.Machine.execHadd2Imm a0 a1 a2 a3 a4 a5 s
  | .hmul2 a0 a1 a2 a3 a4 a5 a6 => Sys2Proof.Machine.execHmul2 a0 a1 a2 a3 a4 a5 a6 s
  | .hmul2Imm a0 a1 a2 a3 a4 a5 a6 => Sys2Proof.Machine.execHmul2Imm a0 a1 a2 a3 a4 a5 a6 s
  | .hfma2 a0 a1 a2 a3 a4 a5 a6 a7 a8 a9 => Sys2Proof.Machine.execHfma2 a0 a1 a2 a3 a4 a5 a6 a7 a8 a9 s
  | .hmin2 a0 a1 a2 a3 a4 a5 => Sys2Proof.Machine.execHmin2 a0 a1 a2 a3 a4 a5 s
  | .hmin2Imm a0 a1 a2 a3 a4 a5 => Sys2Proof.Machine.execHmin2Imm a0 a1 a2 a3 a4 a5 s
  | .hmax2 a0 a1 a2 a3 a4 a5 => Sys2Proof.Machine.execHmax2 a0 a1 a2 a3 a4 a5 s
  | .hmax2Imm a0 a1 a2 a3 a4 a5 => Sys2Proof.Machine.execHmax2Imm a0 a1 a2 a3 a4 a5 s
  | .hcmp2 a0 a1 a2 a3 a4 a5 a6 => Sys2Proof.Machine.execHcmp2 a0 a1 a2 a3 a4 a5 a6 s
  | .hcmp2Imm a0 a1 a2 a3 a4 a5 a6 => Sys2Proof.Machine.execHcmp2Imm a0 a1 a2 a3 a4 a5 a6 s
  | .fsum a0 a1 a2 a3 => Sys2Proof.Machine.execFsum a0 a1 a2 a3 s
  | .cvt a0 a1 a2 a3 a4 a5 => Sys2Proof.Machine.execCvt a0 a1 a2 a3 a4 a5 s
  | .pack a0 a1 a2 a3 a4 => Sys2Proof.Machine.execPack a0 a1 a2 a3 a4 s
  | .unpack a0 a1 a2 a3 a4 => Sys2Proof.Machine.execUnpack a0 a1 a2 a3 a4 s
  | .quant a0 a1 a2 a3 a4 => Sys2Proof.Machine.execQuant a0 a1 a2 a3 a4 s
  | .qsplit a0 a1 a2 a3 a4 a5 a6 => Sys2Proof.Machine.execQsplit a0 a1 a2 a3 a4 a5 a6 s
  | .dequant a0 a1 a2 a3 a4 => Sys2Proof.Machine.execDequant a0 a1 a2 a3 a4 s
  | .mloop a0 a1 a2 => Sys2Proof.Machine.execMloop a0 a1 a2 s
  | .mstep a0 a1 => Sys2Proof.Machine.execMstep a0 a1 s
  | .mzero a0 a1 a2 => Sys2Proof.Machine.execMzero a0 a1 a2 s
  | .mdup a0 a1 a2 a3 a4 => Sys2Proof.Machine.execMdup a0 a1 a2 a3 a4 s
  | .mqry a0 a1 => Sys2Proof.Machine.execMqry a0 a1 s
  | .mreset a0 a1 => Sys2Proof.Machine.execMreset a0 a1 s
  | .ldx a0 a1 a2 a3 a4 => Sys2Proof.Machine.execLdx a0 a1 a2 a3 a4 s
  | .stx a0 a1 a2 a3 a4 => Sys2Proof.Machine.execStx a0 a1 a2 a3 a4 s
  | .ldw a0 a1 a2 a3 a4 => Sys2Proof.Machine.execLdw a0 a1 a2 a3 a4 s
  | .stw a0 a1 a2 a3 a4 => Sys2Proof.Machine.execStw a0 a1 a2 a3 a4 s
  | .tgive a0 a1 a2 a3 => Sys2Proof.Machine.execTgive a0 a1 a2 a3 s
  | .ttake a0 a1 a2 a3 => Sys2Proof.Machine.execTtake a0 a1 a2 a3 s
  | .waitp a0 a1 a2 => Sys2Proof.Machine.execWaitp a0 a1 a2 s
  | .pcnt a0 a1 a2 => Sys2Proof.Machine.execPcnt a0 a1 a2 s
  | .copy a0 a1 a2 a3 a4 a5 a6 a7 a8 => Sys2Proof.Machine.execCopy a0 a1 a2 a3 a4 a5 a6 a7 a8 s
  | .creg a0 a1 a2 a3 => Sys2Proof.Machine.execCreg a0 a1 a2 a3 s
  | .cunreg a0 a1 => Sys2Proof.Machine.execCunreg a0 a1 s
  | .creplay a0 a1 => Sys2Proof.Machine.execCreplay a0 a1 s
  | .creplayDrop a0 a1 => Sys2Proof.Machine.execCreplayDrop a0 a1 s
  | .cred a0 a1 a2 a3 a4 a5 a6 a7 a8 a9 => Sys2Proof.Machine.execCred a0 a1 a2 a3 a4 a5 a6 a7 a8 a9 s
  | .gath a0 a1 a2 a3 a4 => Sys2Proof.Machine.execGath a0 a1 a2 a3 a4 s
  | .scat a0 a1 a2 a3 a4 => Sys2Proof.Machine.execScat a0 a1 a2 a3 a4 s
  | .binit a0 a1 a2 => Sys2Proof.Machine.execBinit a0 a1 a2 s
  | .binitImm a0 a1 a2 => Sys2Proof.Machine.execBinitImm a0 a1 a2 s
  | .barr a0 a1 => Sys2Proof.Machine.execBarr a0 a1 s
  | .bwait a0 a1 a2 a3 => Sys2Proof.Machine.execBwait a0 a1 a2 a3 s
  | .barw a0 a1 a2 => Sys2Proof.Machine.execBarw a0 a1 a2 s
  | .binv a0 a1 => Sys2Proof.Machine.execBinv a0 a1 s
  | .bqry a0 a1 a2 a3 => Sys2Proof.Machine.execBqry a0 a1 a2 a3 s
  | .atom a0 a1 a2 a3 a4 a5 a6 a7 a8 => Sys2Proof.Machine.execAtom a0 a1 a2 a3 a4 a5 a6 a7 a8 s
  | .acas a0 a1 a2 a3 a4 a5 a6 a7 a8 => Sys2Proof.Machine.execAcas a0 a1 a2 a3 a4 a5 a6 a7 a8 s
  | .ared a0 a1 a2 a3 a4 a5 a6 a7 => Sys2Proof.Machine.execAred a0 a1 a2 a3 a4 a5 a6 a7 s
  | .fence a0 a1 a2 => Sys2Proof.Machine.execFence a0 a1 a2 s
  | .fenceCode a0 => Sys2Proof.Machine.execFenceCode a0 s
  | .raceqHead a0 a1 => Sys2Proof.Machine.execRaceqHead a0 a1 s
  | .raceqBase a0 a1 => Sys2Proof.Machine.execRaceqBase a0 a1 s
  | .guess a0 a1 a2 a3 a4 a5 => Sys2Proof.Machine.execGuess a0 a1 a2 a3 a4 a5 s
  | .guessN a0 a1 a2 a3 a4 => Sys2Proof.Machine.execGuessN a0 a1 a2 a3 a4 s
  | .affirm a0 a1 a2 => Sys2Proof.Machine.execAffirm a0 a1 a2 s
  | .deny a0 a1 a2 => Sys2Proof.Machine.execDeny a0 a1 a2 s
  | .tqry a0 a1 a2 => Sys2Proof.Machine.execTqry a0 a1 a2 s
  | .twait a0 => Sys2Proof.Machine.execTwait a0 s
  | .invoke a0 a1 a2 a3 a4 a5 a6 a7 => Sys2Proof.Machine.execInvoke a0 a1 a2 a3 a4 a5 a6 a7 s
  | .invh a0 a1 a2 a3 a4 a5 a6 => Sys2Proof.Machine.execInvh a0 a1 a2 a3 a4 a5 a6 s
  | .hwait a0 a1 a2 a3 => Sys2Proof.Machine.execHwait a0 a1 a2 a3 s
  | .hwaitPark a0 a1 a2 a3 a4 => Sys2Proof.Machine.execHwaitPark a0 a1 a2 a3 a4 s
  | .hget a0 a1 a2 a3 a4 a5 => Sys2Proof.Machine.execHget a0 a1 a2 a3 a4 a5 s
  | .hdrop a0 a1 => Sys2Proof.Machine.execHdrop a0 a1 s
  | .mbregBind a0 a1 a2 a3 => Sys2Proof.Machine.execMbregBind a0 a1 a2 a3 s
  | .mbregOpen a0 a1 => Sys2Proof.Machine.execMbregOpen a0 a1 s
  | .mbregClose a0 a1 => Sys2Proof.Machine.execMbregClose a0 a1 s
  | .msend a0 a1 a2 a3 a4 a5 => Sys2Proof.Machine.execMsend a0 a1 a2 a3 a4 a5 s
  | .mrecv a0 a1 a2 a3 a4 => Sys2Proof.Machine.execMrecv a0 a1 a2 a3 a4 s
  | .qpush a0 a1 a2 a3 => Sys2Proof.Machine.execQpush a0 a1 a2 a3 s
  | .qpop a0 a1 a2 a3 => Sys2Proof.Machine.execQpop a0 a1 a2 a3 s
  | .qwait a0 a1 => Sys2Proof.Machine.execQwait a0 a1 s
  | .notify a0 a1 => Sys2Proof.Machine.execNotify a0 a1 s
  | .launch a0 a1 a2 a3 => Sys2Proof.Machine.execLaunch a0 a1 a2 a3 s
  | .rput a0 a1 a2 a3 a4 a5 a6 => Sys2Proof.Machine.execRput a0 a1 a2 a3 a4 a5 a6 s
  | .rget a0 a1 a2 a3 a4 a5 a6 => Sys2Proof.Machine.execRget a0 a1 a2 a3 a4 a5 a6 s
  | .rred a0 a1 a2 a3 a4 a5 a6 a7 => Sys2Proof.Machine.execRred a0 a1 a2 a3 a4 a5 a6 a7 s
  | .mcst a0 a1 a2 a3 a4 a5 a6 a7 => Sys2Proof.Machine.execMcst a0 a1 a2 a3 a4 a5 a6 a7 s
  | .coll a0 a1 a2 a3 a4 a5 => Sys2Proof.Machine.execColl a0 a1 a2 a3 a4 a5 s
  | .tsend a0 a1 a2 a3 a4 a5 => Sys2Proof.Machine.execTsend a0 a1 a2 a3 a4 a5 s
  | .ctset a0 a1 a2 a3 => Sys2Proof.Machine.execCtset a0 a1 a2 a3 s
  | .ctsetImm a0 a1 a2 a3 => Sys2Proof.Machine.execCtsetImm a0 a1 a2 a3 s
  | .ctrd a0 a1 a2 a3 => Sys2Proof.Machine.execCtrd a0 a1 a2 a3 s
  | .ctwait a0 a1 a2 => Sys2Proof.Machine.execCtwait a0 a1 a2 s
  | .gsetFull a0 a1 a2 a3 a4 => Sys2Proof.Machine.execGsetFull a0 a1 a2 a3 a4 s
  | .gsetSeq a0 a1 a2 => Sys2Proof.Machine.execGsetSeq a0 a1 a2 s
  | .gsetClear a0 a1 => Sys2Proof.Machine.execGsetClear a0 a1 s
  | .gqry a0 a1 a2 a3 a4 => Sys2Proof.Machine.execGqry a0 a1 a2 a3 a4 s
  | .prnew a0 a1 a2 a3 a4 => Sys2Proof.Machine.execPrnew a0 a1 a2 a3 a4 s
  | .prdesc a0 a1 a2 a3 => Sys2Proof.Machine.execPrdesc a0 a1 a2 a3 s
  | .prexp a0 a1 a2 a3 a4 a5 => Sys2Proof.Machine.execPrexp a0 a1 a2 a3 a4 a5 s
  | .prback a0 a1 a2 a3 => Sys2Proof.Machine.execPrback a0 a1 a2 a3 s
  | .prroot a0 a1 a2 a3 => Sys2Proof.Machine.execPrroot a0 a1 a2 a3 s
  | .prbest a0 a1 a2 => Sys2Proof.Machine.execPrbest a0 a1 a2 s
  | .prqry a0 a1 a2 => Sys2Proof.Machine.execPrqry a0 a1 a2 s
  | .prfree a0 a1 => Sys2Proof.Machine.execPrfree a0 a1 s
  | .scall a0 a1 a2 a3 => Sys2Proof.Machine.execScall a0 a1 a2 a3 s
  | .rft a0 => Sys2Proof.Machine.execRft a0 s
  | .rftNext a0 => Sys2Proof.Machine.execRftNext a0 s
  | .rftTo a0 a1 => Sys2Proof.Machine.execRftTo a0 a1 s
  | .rftRep a0 a1 => Sys2Proof.Machine.execRftRep a0 a1 s
  | .mfs a0 a1 => Sys2Proof.Machine.execMfs a0 a1 s
  | .mts a0 a1 => Sys2Proof.Machine.execMts a0 a1 s
  | .rdclk a0 a1 => Sys2Proof.Machine.execRdclk a0 a1 s
  | .rdtim a0 a1 => Sys2Proof.Machine.execRdtim a0 a1 s
  | .settim a0 a1 => Sys2Proof.Machine.execSettim a0 a1 s
  | .settimImm a0 a1 => Sys2Proof.Machine.execSettimImm a0 a1 s
  | .vinv a0 a1 => Sys2Proof.Machine.execVinv a0 a1 s
  | .quiesOld a0 a1 => Sys2Proof.Machine.execQuiesOld a0 a1 s
  | .quiesCur a0 a1 => Sys2Proof.Machine.execQuiesCur a0 a1 s
  | .fltq a0 a1 => Sys2Proof.Machine.execFltq a0 a1 s
  | .ctxswSave a0 a1 a2 => Sys2Proof.Machine.execCtxswSave a0 a1 a2 s
  | .ctxswRest a0 a1 a2 => Sys2Proof.Machine.execCtxswRest a0 a1 a2 s
  | .ctxswQry a0 a1 a2 => Sys2Proof.Machine.execCtxswQry a0 a1 a2 s
  | .issueCycle a0 a1 => Sys2Proof.Machine.execIssueCycle a0 a1 s
  | .aged a0 => Sys2Proof.Machine.execAged a0 s
  | .timerExpiry a0 => Sys2Proof.Machine.execTimerExpiry a0 s
  | .wakeDelivery a0 => Sys2Proof.Machine.execWakeDelivery a0 s
  | .sleepDeadline a0 => Sys2Proof.Machine.execSleepDeadline a0 s
  | .setStart a0 a1 => Sys2Proof.Machine.execSetStart a0 a1 s
  | .kStep a0 a1 => Sys2Proof.Machine.execKStep a0 a1 s
  | .arrayReset a0 a1 => Sys2Proof.Machine.execArrayReset a0 a1 s
  | .localAccessPerformed a0 => Sys2Proof.Machine.execLocalAccessPerformed a0 s
  | .tgiveFlip a0 => Sys2Proof.Machine.execTgiveFlip a0 s
  | .ttakeFlip a0 => Sys2Proof.Machine.execTtakeFlip a0 s
  | .sectorLand a0 a1 a2 => Sys2Proof.Machine.execSectorLand a0 a1 a2 s
  | .sectorSuspend a0 a1 => Sys2Proof.Machine.execSectorSuspend a0 a1 s
  | .sectorRefused a0 a1 a2 => Sys2Proof.Machine.execSectorRefused a0 a1 a2 s
  | .recordReady a0 => Sys2Proof.Machine.execRecordReady a0 s
  | .cunregComplete a0 => Sys2Proof.Machine.execCunregComplete a0 s
  | .credUpdate a0 a1 a2 => Sys2Proof.Machine.execCredUpdate a0 a1 a2 s
  | .gatherLanePerformed a0 a1 a2 => Sys2Proof.Machine.execGatherLanePerformed a0 a1 a2 s
  | .gatherComplete a0 => Sys2Proof.Machine.execGatherComplete a0 s
  | .atomicPerformed a0 a1 a2 => Sys2Proof.Machine.execAtomicPerformed a0 a1 a2 s
  | .atomicComplete a0 => Sys2Proof.Machine.execAtomicComplete a0 s
  | .atomicRetry a0 a1 => Sys2Proof.Machine.execAtomicRetry a0 a1 s
  | .homeResolveRequest a0 a1 a2 a3 a4 => Sys2Proof.Machine.execHomeResolveRequest a0 a1 a2 a3 a4 s
  | .resolveAnswer a0 a1 => Sys2Proof.Machine.execResolveAnswer a0 a1 s
  | .handleAssumptionCheck a0 => Sys2Proof.Machine.execHandleAssumptionCheck a0 s
  | .affirmation a0 => Sys2Proof.Machine.execAffirmation a0 s
  | .denial a0 => Sys2Proof.Machine.execDenial a0 s
  | .homeEntryFree a0 a1 => Sys2Proof.Machine.execHomeEntryFree a0 a1 s
  | .invocationArrival a0 a1 => Sys2Proof.Machine.execInvocationArrival a0 a1 s
  | .invocationResult a0 a1 => Sys2Proof.Machine.execInvocationResult a0 a1 s
  | .invhArrival a0 a1 => Sys2Proof.Machine.execInvhArrival a0 a1 s
  | .forwardInvocation a0 a1 => Sys2Proof.Machine.execForwardInvocation a0 a1 s
  | .continuationResume a0 a1 => Sys2Proof.Machine.execContinuationResume a0 a1 s
  | .homeDrop a0 a1 => Sys2Proof.Machine.execHomeDrop a0 a1 s
  | .messageArrival a0 a1 => Sys2Proof.Machine.execMessageArrival a0 a1 s
  | .msendComplete a0 a1 => Sys2Proof.Machine.execMsendComplete a0 a1 s
  | .mrecvWake a0 => Sys2Proof.Machine.execMrecvWake a0 s
  | .remoteAccessArrival a0 => Sys2Proof.Machine.execRemoteAccessArrival a0 s
  | .remoteOpComplete a0 a1 => Sys2Proof.Machine.execRemoteOpComplete a0 a1 s
  | .mcstComplete a0 a1 => Sys2Proof.Machine.execMcstComplete a0 a1 s
  | .handshakeSignature a0 a1 a2 a3 => Sys2Proof.Machine.execHandshakeSignature a0 a1 a2 a3 s
  | .verdict a0 a1 a2 a3 => Sys2Proof.Machine.execVerdict a0 a1 a2 a3 s
  | .collComplete a0 a1 a2 a3 a4 => Sys2Proof.Machine.execCollComplete a0 a1 a2 a3 a4 s
  | .fatalFault a0 a1 a2 a3 a4 => Sys2Proof.Machine.execFatalFault a0 a1 a2 a3 a4 s
  | .abortToken a0 a1 a2 a3 a4 => Sys2Proof.Machine.execAbortToken a0 a1 a2 a3 a4 s
  | .tsendArrival a0 a1 a2 a3 a4 a5 a6 => Sys2Proof.Machine.execTsendArrival a0 a1 a2 a3 a4 a5 a6 s
  | .tsendEnd a0 a1 => Sys2Proof.Machine.execTsendEnd a0 a1 s
  | .pralineOperation a0 => Sys2Proof.Machine.execPralineOperation a0 s
  | .pralineComplete a0 => Sys2Proof.Machine.execPralineComplete a0 s
  | .walkComplete a0 a1 a2 => Sys2Proof.Machine.execWalkComplete a0 a1 a2 s
  | .preempt a0 => Sys2Proof.Machine.execPreempt a0 s
  | .restore a0 => Sys2Proof.Machine.execRestore a0 s
  | .sliceExpiry a0 => Sys2Proof.Machine.execSliceExpiry a0 s
  | .distributorPlace a0 => Sys2Proof.Machine.execDistributorPlace a0 s
  | .groupSlotFree a0 => Sys2Proof.Machine.execGroupSlotFree a0 s
  | .detTeamRelease a0 a1 => Sys2Proof.Machine.execDetTeamRelease a0 a1 s
  | .hostQappend a0 => Sys2Proof.Machine.execHostQappend a0 s
  | .hostLaunch a0 => Sys2Proof.Machine.execHostLaunch a0 s
  | .hostNotify a0 => Sys2Proof.Machine.execHostNotify a0 s
  | .hostMsg a0 => Sys2Proof.Machine.execHostMsg a0 s
  | .notifyApertureStore a0 => Sys2Proof.Machine.execNotifyApertureStore a0 s
  | .windowEntryWrite a0 a1 => Sys2Proof.Machine.execWindowEntryWrite a0 a1 s
  | .resplimWrite a0 => Sys2Proof.Machine.execResplimWrite a0 s
  | .cecountClear a0 => Sys2Proof.Machine.execCecountClear a0 s
  | .deviceRegisterWrite a0 a1 => Sys2Proof.Machine.execDeviceRegisterWrite a0 a1 s
  | .responseLimitExpiry a0 a1 => Sys2Proof.Machine.execResponseLimitExpiry a0 a1 s
  | .gfpPacketReceive a0 a1 a2 a3 => Sys2Proof.Machine.execGfpPacketReceive a0 a1 a2 a3 s
  | .gfpRetransmit a0 a1 a2 => Sys2Proof.Machine.execGfpRetransmit a0 a1 a2 s
  | .uetTrimRetransmit a0 a1 => Sys2Proof.Machine.execUetTrimRetransmit a0 a1 s
  | .portDown a0 => Sys2Proof.Machine.execPortDown a0 s
  | .powerOnReset a0 a1 => Sys2Proof.Machine.execPowerOnReset a0 a1 s
  | .passComponentTable a0 => Sys2Proof.Machine.execPassComponentTable a0 s
  | .updateComponent a0 => Sys2Proof.Machine.execUpdateComponent a0 s
  | .firmwareData a0 => Sys2Proof.Machine.execFirmwareData a0 s
  | .imageVerify a0 a1 a2 => Sys2Proof.Machine.execImageVerify a0 a1 a2 s
  | .bankSwitch a0 => Sys2Proof.Machine.execBankSwitch a0 s
  | .attestationRequest a0 => Sys2Proof.Machine.execAttestationRequest a0 s
  | .clockGate a0 => Sys2Proof.Machine.execClockGate a0 s
  | .powerGate a0 => Sys2Proof.Machine.execPowerGate a0 s
  | .ungate a0 => Sys2Proof.Machine.execUngate a0 s
  | .throttleStep a0 => Sys2Proof.Machine.execThrottleStep a0 s
  | .portUp a0 => Sys2Proof.Machine.execPortUp a0 s
  | .contextCreation a0 a1 a2 a3 => Sys2Proof.Machine.execContextCreation a0 a1 a2 a3 s
  | .contextDestruction a0 => Sys2Proof.Machine.execContextDestruction a0 s
  | .invocationCompletion a0 a1 => Sys2Proof.Machine.execInvocationCompletion a0 a1 s
  | .homeAnswer a0 a1 => Sys2Proof.Machine.execHomeAnswer a0 a1 s
  | .executingRankAbort a0 => Sys2Proof.Machine.execExecutingRankAbort a0 s
  | .malformedCommand a0 => Sys2Proof.Machine.execMalformedCommand a0 s
  | .safeState => Sys2Proof.Machine.execSafeState s
  | .controlPairReload => Sys2Proof.Machine.execControlPairReload s
  | .queryDeviceIdentifiers => Sys2Proof.Machine.execQueryDeviceIdentifiers s
  | .getFirmwareParameters => Sys2Proof.Machine.execGetFirmwareParameters s
  | .requestUpdate => Sys2Proof.Machine.execRequestUpdate s
  | .activateFirmware => Sys2Proof.Machine.execActivateFirmware s
  | .getStatus => Sys2Proof.Machine.execGetStatus s
  | .cancelUpdateComponent => Sys2Proof.Machine.execCancelUpdateComponent s
  | .cancelUpdate => Sys2Proof.Machine.execCancelUpdate s
  | .powerLoss => Sys2Proof.Machine.execPowerLoss s

end Sys2Proof.Machine
end

