-- ==== Sys2Proof/Machine/Step.lean ====
section
/-! DEFINITION. One step of the package: whoever moves next moves (R19, R34, R36), and the load of one instruction. -/

namespace Sys2Proof.Machine

/-- A group issues: its pending trap, its fetch, which may raise class 8 (R40), and its instruction. -/
def stepGroup (gid : Nat) (s : State) : Host.Outcome State Fault Refusal :=
  let s := { s with cur := gid }
  match s.grp? gid with
  | none => .next s
  | some g =>
    if !s.live g then .next s
    else match s.takeDue g with
      | some s' => .next s'
      | none =>
        match s.fetch g with
        | (s', .bad c) => .next (s'.fetchTrap g 8 c)
        | (s', .poison) => .next (s'.fetchTrap g 12 0x04)
        | (s', .code off bs) =>
          match decodeBytes off bs with
          | .ill sub => .next (s'.illegal g sub bs)
          | .ok i _ => exec i s'

/-- One turn. A turn that names an encoded instruction as an event is used up and does nothing (log entry 3). -/
def runTurn (t : Turn) (s : State) : Host.Outcome State Fault Refusal :=
  match t with
  | .issue gid => stepGroup gid s
  | .event e => if isEvent e then exec e s else .next s

/-- One step: the first turn of the schedule in State, or a free one when there is none (log entry 3). -/
def step (s : State) : Host.Outcome State Fault Refusal :=
  match s.turns with
  | t :: ts => runTurn t { s with turns := ts }
  | [] =>
    match Config.freeEvent s.free with
    | some e => runTurn (.event e) s.draw
    | none => .next s.draw

/-- Address at which `withFetchWord` places the instruction: VA and PA. -/
def loadAddr : Nat := 0x2000

/-- The group that runs the loaded instruction: width 8, every register, loader, supervisor mode. -/
def loadGroup : Group where
  gid := 0
  tid := 0
  num := 0
  core := 0
  slot := 0
  role := .loader
  width := 8
  vregs := 256
  sregs := 1024
  sup := true
  pc := BitVec.ofNat 64 loadAddr
  mask := 0xFF
  v := []
  s := []
  p := []
  vtag := []
  stag := []
  ptag := []
  ctl := 0
  dep := 0
  snaps := []
  stack := []
  fmt := 0
  flg := 0
  gtime := 0
  timer := none
  inFlight := []
  sb := SideBuf.empty
  pend := []
  park := none
  latches := []
  chpos := 0
  pst := 0
  exited := false
  ended := false
  byExit := false
  age := 0
  agedAt := none
  lastIssue := 0
  codeAt := 0
  poison := []

/-- Its team: one group, whole buffers of four tiles, sixteen barriers. -/
def loadTeam : Team where
  tid := 0
  ctx := 0
  kind := .mailbox
  num := 0
  grid := 1
  cluster := 0
  clpos := 0
  clid := none
  core := 0
  groups := [0]
  xbytes := 16384
  wbytes := 16384
  x := []
  w := []
  xown := []
  wown := []
  xtag := []
  wtag := []
  xpoison := []
  wpoison := []
  nbars := 16
  bars := []
  slots := List.replicate 8 ⟨.free, 0, false⟩
  held := []
  undo := []
  recs := []
  quads := []
  taken := []
  aids := []
  det := false
  ended := false

/-- Its context, resident. -/
def loadCtx : Ctx where
  num := 0
  st := .resident
  saveVA := 0
  savePA := 0
  counters := []
  fails := 0
  failCause := 0
  armed := []
  gtable := []
  mbox := []
  grids := []
  pendTeams := []
  conts := []
  faults := []
  raceBase := 0
  raceCount := 0
  slice := false
  since := 0
  waited := 0

/-- The instruction whose bits are `w % 2^nbits`, loaded where the next step fetches (log entry 13): one resident context
with one group, a translation for its page, and the turn that issues it. -/
def State.withFetchWord (s : State) (nbits w : Nat) : State :=
  let s := { s with
    turns := [.issue 0]
    ctxs := [loadCtx]
    teams := [loadTeam]
    groups := [loadGroup]
    tlb := [⟨0, 0, loadAddr, 4096, loadAddr, true, true, true⟩]
    icache := []
    nextId := s.nextId + 1
    mgmt := { s.mgmt with lpddrcap := 0x18000000000 } }
  s.wrBytes loadAddr (natBytes 16 (w % 2 ^ nbits))

end Sys2Proof.Machine
end

