-- ==== Sys2Proof/WellFormed.lean ====
section
/-! DEFINITION. Which instruction terms an encoding exists for: the operand classes, pairs and value ranges of spec/03
R42-R50 and of each chapter's encoding table. A step that no word encodes has nothing to check. -/

namespace Sys2Proof

/-! ## Checks -/

/-- An even register names a pair (R44). -/
def pairOk (n : SReg) : Bool := n.toNat % 2 == 0
/-- A register s8k. -/
def s8Ok (n : SReg) : Bool := n.toNat % 8 == 0
/-- A scalar register or short immediate. -/
def siOk : Opnd → Bool
  | .s _ => true | .imm _ => true | _ => false
/-- Anything but a vector register. -/
def noVec : Opnd → Bool
  | .v _ => false | _ => true
/-- A scalar register or latch. -/
def slOk : Opnd → Bool
  | .s _ => true | .l _ => true | _ => false
/-- A vector register or latch. -/
def vlOk : Opnd → Bool
  | .v _ => true | .l _ => true | _ => false
/-- Anything but a latch. -/
def noLatch : Opnd → Bool
  | .l _ => false | _ => true
/-- A scalar destination or none (R45). -/
def dstS : Dst → Bool
  | .v _ => false | _ => true
/-- A scalar destination that is written. -/
def dstS0 : Dst → Bool
  | .s _ => true | _ => false
/-- A scalar pair as destination. -/
def dstPair : Dst → Bool
  | .s n => pairOk n | _ => false
/-- A destination that is written. -/
def dstSome : Dst → Bool
  | .none => false | _ => true
/-- An optional pair as destination. -/
def optPair : Option SReg → Bool
  | some n => pairOk n | none => true
/-- No vector source goes with a scalar destination (R49). -/
def vsOk (d : Dst) (src : List Opnd) : Bool := !(dstS0 d && src.any fun a => !noVec a)
/-- A compare destination writes two different predicates, unless it writes p0 (R46). -/
def cmpOk (p : CmpDst) : Bool := p.c == 0 || p.c != p.k
/-- Integer comparisons have no unordered or ordered condition (R72). -/
def intCond : Cond → Bool
  | .un => false | .ord => false | _ => true
/-- `.n32` goes with `.sat` only (R105). -/
def satOk (n32 sat : Bool) : Bool := !n32 || sat
/-- A 16-bit pattern in IMM32 has bits 31:16 zero (R42). -/
def imm16Ok (t : FTy) (i : Word) : Bool := t == .f32 || decide (i.toNat < 65536)
/-- A 1D length (R165). -/
def lenOk : CopyLen → Bool
  | .opnd n => siOk n | .ext _ => true
/-- A copy's shape with its external operand (R165). -/
def shapeOk (e : SReg) : CopyShape → Bool
  | .d1 n => pairOk e && lenOk n
  | .d2 m => pairOk e && s8Ok m
  | .d3 m => pairOk e && s8Ok m
  | .layout => true
def rshapeOk : RegShape → Bool
  | .d1 n => lenOk n
  | .d2 m => s8Ok m
  | .d3 m => s8Ok m
/-- Bitwise operations need an integer type (R175, R238, R321). -/
def bitwise : RedOp → Bool
  | .and => true | .or => true | .xor => true | _ => false
/-- A gather's or scatter's base (R177). -/
def gbaseOk : GBase → Bool
  | .ext p => pairOk p | .clu _ => true
/-- An atomic's base with its scope (R320). -/
def abaseOk (b : ABase) (sc : Scope) : Bool :=
  match b with
  | .ext p => pairOk p
  | .loc _ a => siOk a && (sc == .grp || sc == .team)
/-- An atomic operation with its type (R321). -/
def aopOk (op : AOp) (ty : ATy) : Bool :=
  match op with
  | .and | .or | .xor | .exch => ty != .f32
  | .inc | .dec => ty == .n32
  | _ => true
/-- An operand of `ACAS.b64` (R325). -/
def evenOk : Opnd → Bool
  | .s n => n.toNat % 2 == 0
  | .v n => n.toNat % 2 == 0
  | .l _ => false
  | .imm _ => true
/-- The destination, compare and new value of `ACAS` (R325). -/
def acasOk (d : AcasDst) (off cm nw : Opnd) : Bool :=
  match d with
  | .one d => vsOk d [off, cm, nw]
  | .pairS n => pairOk n && vsOk (.s n) [off, cm, nw] && evenOk cm && evenOk nw
  | .pairV n => n.toNat % 2 == 0 && evenOk cm && evenOk nw
  | .none64 => evenOk cm && evenOk nw
/-- Operands of a matrix instruction (R146). -/
def mopsOk (m : MOps) : Bool :=
  siOk m.a && siOk m.astride && siOk m.n && (m.map.elim true s8Ok) && decide (m.klen.toNat ≤ 512)
/-- A quantised format (R159). -/
def blockFmt : MFmt → Bool
  | .sb2 => true | .sb4 => true | .sb7 => true | .hs4 => true | .hs8 => true | _ => false
/-- Integer types of `CVT` (R124). -/
def intTy : CTy → Bool
  | .f32 => false | .f16 => false | .bf16 => false | _ => true
/-- The selector of `TQRY` (R309). -/
def tqOk : TQSel → Bool
  | .xline a => siOk a
  | .wline a => siOk a
  | .slot a => siOk a
  | .state a => siOk a
  | _ => true
/-- The constant fields of `COLL` (R261). -/
def collOk (f : CollF) : Bool :=
  let reduces := f.op == .allreduce || f.op == .redscat
  decide (f.slog.toNat ≤ 8) && (f.red == .add || reduces) && (!bitwise f.red || f.ty == .i32)
    && (f.root == 0 || f.op == .bcast) && (!f.sb7 || (f.ty == .f32 && reduces && !bitwise f.red))
/-- Registers that `MFS` reads as pairs (R64, R209). -/
def sp64 (r : SpReg) : Bool := decide (0x0C ≤ encSp r ∧ encSp r ≤ 0x12)
def tr64 : TrField → Bool
  | .lanes => true | .epc => true | .cpc => true | .cmask => true | _ => false
/-- Sources that differ by lane need a vector destination (R207, R209). -/
def perLane : TrField → Bool
  | .lwlo => true | .lwhi => true | _ => false
def mfsOk : MfsForm → Bool
  | .sp r d => !sp64 r && r != .fqbase && !(r == .lane && dstS0 d)
  | .sp64 r d => sp64 r && pairOk d
  | .tr f d => !tr64 f && !(perLane f && dstS0 d)
  | .tr64 f d => tr64 f && pairOk d
def mtsOk : MtsForm → Bool
  | .fmt a => noVec a
  | .flg a => noVec a
  | .hbase a => pairOk a
  | .fqbase a => pairOk a
  | .scr _ a => noVec a

/-- A chain bit only where the opcode admits one (R50). -/
def chainOk (i : Instr) : Bool := match encRaw i with | some r => r.ch == 0 || chOk r.op | none => true

/-- The operands of an instruction. -/
def operandsOk : Instr → Bool
  | .brx _ a => pairOk a
  | .call _ d _ => pairOk d
  | .callx _ d a => pairOk d && pairOk a
  | .ret _ a => pairOk a
  | .sleep _ b => noVec b
  | .setfmt _ sel b => sel != 0 && noVec b
  | .setfmtImm _ sel _ => sel != 0
  | .getfmt _ d => dstS d
  | .iadd _ d a b n t => vsOk d [a, b] && satOk n t
  | .iaddImm _ d a _ n t => vsOk d [a] && satOk n t
  | .isub _ d a b n t => vsOk d [a, b] && satOk n t
  | .isubImm _ d a _ n t => vsOk d [a] && satOk n t
  | .imul _ _ d a b n t => vsOk d [a, b] && satOk n t
  | .imulImm _ _ d a _ n t => vsOk d [a] && satOk n t
  | .imulh _ _ d a b _ => vsOk d [a, b]
  | .imulhImm _ _ d a _ _ => vsOk d [a]
  | .imad _ _ d a b c n t => vsOk d [a, b, c] && satOk n t
  | .idiv _ d a b _ _ => vsOk d [a, b]
  | .idivImm _ d a _ _ _ => vsOk d [a]
  | .irem _ d a b _ _ => vsOk d [a, b]
  | .iremImm _ d a _ _ _ => vsOk d [a]
  | .imin _ d a b _ => vsOk d [a, b]
  | .iminImm _ d a _ _ => vsOk d [a]
  | .imax _ d a b _ => vsOk d [a, b]
  | .imaxImm _ d a _ _ => vsOk d [a]
  | .iabs _ d a _ => vsOk d [a]
  | .ineg _ d a _ => vsOk d [a]
  | .and _ d a b => vsOk d [a, b]
  | .andImm _ d a _ => vsOk d [a]
  | .or _ d a b => vsOk d [a, b]
  | .orImm _ d a _ => vsOk d [a]
  | .xor _ d a b => vsOk d [a, b]
  | .xorImm _ d a _ => vsOk d [a]
  | .not _ d a => vsOk d [a]
  | .shl _ d a b => vsOk d [a, b]
  | .shr _ d a b => vsOk d [a, b]
  | .sar _ d a b => vsOk d [a, b]
  | .rotl _ d a b => vsOk d [a, b]
  | .popc _ d a => vsOk d [a]
  | .clz _ d a => vsOk d [a]
  | .bfx _ d a b c _ => vsOk d [a, b, c]
  | .bfi _ d a b c => vsOk d [a, b, c]
  | .sel _ d a b _ _ => vsOk d [a, b]
  | .icmp _ p cc _ _ _ _ => cmpOk p && intCond cc
  | .icmpImm _ p cc _ _ _ _ => cmpOk p && intCond cc
  | .add64 _ d a b p => pairOk d && pairOk a && (if p then (match b with | .s n => pairOk n | _ => false) else noVec b)
  | .lea64 _ d f => pairOk d && (match f with | .base a _ => pairOk a | _ => true)
  | .mov _ d a => vsOk d [a]
  | .lane _ d m a b => vlOk a && vsOk d [b] && (!dstS0 d || m == .idx)
  | .ballot _ d b _ _ => if b then dstPair d else dstS0 d
  | .vote _ p f => cmpOk p && (match f with | .uni a => vlOk a | _ => true)
  | .gred _ d op n a => dstS d && vlOk a && (!n || op == .min || op == .max)
  | .fadd _ d _ a b _ => vsOk d [a, b]
  | .faddImm _ d t a i _ => vsOk d [a] && imm16Ok t i
  | .fsub _ d _ a b _ => vsOk d [a, b]
  | .fsubImm _ d t a i _ => vsOk d [a] && imm16Ok t i
  | .fmul _ _ d _ a b _ => vsOk d [a, b]
  | .fmulImm _ _ d t a i _ => vsOk d [a] && imm16Ok t i
  | .ffma _ _ d _ a b c _ _ _ => vsOk d [a, b, c]
  | .fmin _ d _ a b _ => vsOk d [a, b]
  | .fminImm _ d t a i _ => vsOk d [a] && imm16Ok t i
  | .fmax _ d _ a b _ => vsOk d [a, b]
  | .fmaxImm _ d t a i _ => vsOk d [a] && imm16Ok t i
  | .fcmp _ p _ _ _ _ => cmpOk p
  | .fcmpImm _ p _ t _ i => cmpOk p && imm16Ok t i
  | .frcp _ d _ a _ _ => vsOk d [a]
  | .frsq _ d _ a _ _ => vsOk d [a]
  | .fsqrt _ d _ a _ _ => vsOk d [a]
  | .fexp2 _ d _ a _ _ => vsOk d [a]
  | .flog2 _ d _ a _ _ => vsOk d [a]
  | .ftanh _ d _ a _ _ => vsOk d [a]
  | .fclass _ d _ a _ _ => vsOk d [a]
  | .hadd2 _ d _ a b _ => vsOk d [a, b]
  | .hadd2Imm _ d _ a _ _ => vsOk d [a]
  | .hmul2 _ _ d _ a b _ => vsOk d [a, b]
  | .hmul2Imm _ _ d _ a _ _ => vsOk d [a]
  | .hfma2 _ _ d _ a b c _ _ _ => vsOk d [a, b, c]
  | .hmin2 _ d _ a b _ => vsOk d [a, b]
  | .hmin2Imm _ d _ a _ _ => vsOk d [a]
  | .hmax2 _ d _ a b _ => vsOk d [a, b]
  | .hmax2Imm _ d _ a _ _ => vsOk d [a]
  | .hcmp2 _ p _ _ _ _ _ => cmpOk p
  | .hcmp2Imm _ p _ _ _ _ _ => cmpOk p
  | .fsum _ d _ a => dstS d && vlOk a
  | .cvt _ d dt st m a => vsOk d [a] && (!(intTy dt && intTy st) || m == none)
  | .pack _ d _ a b => vsOk d [a, b]
  | .unpack _ d _ _ a => vsOk d [a]
  | .quant _ _ f _ _ => blockFmt f
  | .qsplit _ _ _ _ thr _ _ => noVec thr
  | .dequant _ _ _ f _ => blockFmt f || f == .int8
  | .mloop _ m _ => mopsOk m
  | .mstep _ m => mopsOk m
  | .mzero _ _ n => siOk n
  | .mdup _ d _ m b => dstS d && s8Ok m && siOk b
  | .mqry _ d => dstS d
  | .mreset _ a => siOk a
  | .ldx _ d _ a b => siOk a && vsOk d [b]
  | .stx _ _ _ a _ => siOk a
  | .ldw _ d _ a b => siOk a && vsOk d [b]
  | .stw _ _ _ a _ => siOk a
  | .tgive _ _ a n => siOk a && siOk n
  | .ttake _ _ a n => siOk a && siOk n
  | .waitp _ _ t => noVec t
  | .pcnt _ d _ => dstS d
  | .copy _ d e _ _ sh _ _ _ => siOk d && shapeOk e sh
  | .creg _ d e sh => dstS d && pairOk e && rshapeOk sh
  | .cred _ d e _ op ty n _ _ _ => siOk d && pairOk e && lenOk n && (!bitwise op || ty == .i32 || ty == .n32)
  | .gath _ d _ b off => dstSome d && vsOk d [off] && gbaseOk b
  | .scat _ x _ b _ => noLatch x && gbaseOk b
  | .binit _ _ n => noVec n
  | .bwait _ p _ g => cmpOk p && siOk g
  | .barw _ p _ => cmpOk p
  | .bqry _ d _ _ => dstS d
  | .atom _ d op ty b off sc v _ => vsOk d [off, v] && abaseOk b sc && aopOk op ty
  | .acas _ d b off cm nw p sc _ => acasOk d off cm nw && abaseOk b sc && cmpOk p
  | .ared _ op ty b _ sc _ _ => abaseOk b sc && aopOk op ty
  | .raceqHead _ d => dstS d
  | .raceqBase _ a => pairOk a
  | .guess _ _ v n _ _ => noVec v && pairOk n
  | .guessN _ _ v _ _ => noVec v
  | .affirm _ p a => cmpOk p && slOk a
  | .deny _ p a => cmpOk p && slOk a
  | .tqry _ d sel => dstS d && tqOk sel
  | .invoke _ d _ rank _ _ p core => optPair d && siOk rank && cmpOk p && (core.elim true fun k => decide (k.toNat < 192))
  | .invh _ d _ up _ _ p => optPair d && pairOk up && cmpOk p
  | .hwait _ _ p a => cmpOk p && pairOk a
  | .hwaitPark _ p a _ n => cmpOk p && pairOk a && decide (n.toNat ≤ 16)
  | .hget _ st p _ a n => cmpOk p && pairOk a && (if st then n == .imm 0 else siOk n)
  | .hdrop _ a => pairOk a
  | .mbregBind _ m e _ => siOk m && pairOk e
  | .mbregOpen _ m => siOk m
  | .mbregClose _ m => siOk m
  | .msend _ p _ rank mbx _ => cmpOk p && siOk rank && siOk mbx
  | .mrecv _ _ p _ m => cmpOk p && siOk m
  | .qpush _ p _ q => cmpOk p && siOk q
  | .qpop _ p _ q => cmpOk p && siOk q
  | .qwait _ q => siOk q
  | .notify _ c => siOk c
  | .launch _ p _ at_ => cmpOk p && (match at_ with | .pair a => pairOk a | .label _ => true)
  | .rput _ p _ _ _ _ _ => cmpOk p
  | .rget _ p d _ _ r off => cmpOk p && vsOk d [r, off]
  | .rred _ p op ty _ _ _ _ => cmpOk p && (!bitwise op || ty != .f32)
  | .mcst _ d _ _ _ a n b =>
    dstS d && siOk a && siOk b && decide (4 ≤ n.toNat ∧ n.toNat ≤ 4096) && n.toNat % 4 == 0
  | .coll _ d f a b n => pairOk d && siOk a && siOk b && siOk n && collOk f
  | .tsend _ f thr r roff src => siOk thr && siOk r && siOk roff && pairOk src && f.n4 != 0
  | .ctset _ _ _ v => siOk v
  | .ctrd _ d sel n => dstS d && (!(sel == .fail || sel == .cause) || n == 0)
  | .ctwait _ _ t => noVec t
  | .gsetFull _ e p q _ => siOk e && pairOk p && siOk q
  | .gsetSeq _ e q => siOk e && siOk q
  | .gsetClear _ e => siOk e
  | .gqry _ d _ e k => dstS d && siOk e && siOk k
  | .prnew _ d pool cap _ => dstS0 d && pairOk pool && siOk cap
  | .prdesc _ _ _ k => siOk k
  | .prexp _ p _ leaf n _ => cmpOk p && siOk leaf && siOk n
  | .prroot _ p _ c => cmpOk p && siOk c
  | .prbest _ d _ => dstS0 d
  | .prqry _ d f => (match f with | .node _ _ n => vsOk d [n] | _ => true)
  | .rftTo _ a => pairOk a
  | .mfs _ f => mfsOk f
  | .mts _ f => mtsOk f
  | .rdclk _ d => pairOk d
  | .rdtim _ d => pairOk d
  | .settim _ b => siOk b
  | .vinv _ x => (match x with | .page a => pairOk a | _ => true)
  | .quiesOld _ d => pairOk d
  | .quiesCur _ d => pairOk d
  | .ctxswSave _ d a => dstS d && siOk a
  | .ctxswRest _ d a => dstS d && siOk a
  | .ctxswQry _ d a => dstS d && siOk a
  | _ => true

/-- A well-formed instruction term. -/
def Instr.wf (i : Instr) : Bool := chainOk i && operandsOk i

end Sys2Proof
end

