-- ==== Sys2Proof/Safety.lean ====
section
/-! DEFINITION. The terms claims use: when an instruction runs, what an instruction leaves alone, what a write of a
destination leaves, and the invariant that every step keeps. -/

namespace Sys2Proof.Machine

/-- The instruction `i` of group `g`, the current one, runs: its group is ready (R18) and no cause of R60 is met at
issue. Where a meaning has further checks of its own, a claim names them beside this. -/
def runs (s : State) (g : Group) (i : Instr) : Bool :=
  decide (s.grp? s.cur = some g) && s.ready g (infoOf g.fmt i) && (s.issueTrap g (infoOf g.fmt i)).isNone

/-- The instruction's length in bytes (R37). -/
def ilen (g : Group) (i : Instr) : Nat := (infoOf g.fmt i).len

/-- Some lane executes: `uguard()` (R62). -/
def guarded (g : Group) (h : Hdr) : Bool := g.execMask h != 0

/-- Whether an instruction is uniform (R49). -/
def isUni (g : Group) (i : Instr) : Bool := g.uniform (infoOf g.fmt i)

/-- A step that touches only the current group, and the latches that its loads in flight will fill. -/
def onlyGroup (s t : State) (gid : Nat) : Prop :=
  t = { s with groups := t.groups, lacc := t.lacc } ∧ ∀ k, k ≠ gid → t.grp? k = s.grp? k

/-- A step that touches no memory, buffer, context or unit; groups, operations and the model's numbers may change. -/
def onlyGroups (s t : State) : Prop :=
  t = { s with groups := t.groups, lacc := t.lacc, ops := t.ops, nextId := t.nextId, free := t.free }

/-- A group that keeps everything but vector and scalar registers with their tags and poison, CTL, flags, and what issuing
an instruction always sets (PC, chain, issue age). -/
def keepsAlu (g g' : Group) : Prop :=
  g' = { g with v := g'.v, vtag := g'.vtag, s := g'.s, stag := g'.stag, poison := g'.poison, ctl := g'.ctl, flg := g'.flg
                pc := g'.pc, chpos := g'.chpos, latches := g'.latches, age := g'.age, agedAt := g'.agedAt, lastIssue := g'.lastIssue }

/-- The same, with predicates in place of registers. -/
def keepsCmp (g g' : Group) : Prop :=
  g' = { g with p := g'.p, ptag := g'.ptag, ctl := g'.ctl, flg := g'.flg, pc := g'.pc
                chpos := g'.chpos, latches := g'.latches, age := g'.age, agedAt := g'.agedAt, lastIssue := g'.lastIssue }

/-- A group that keeps every register, predicate and flag. -/
def keepsRegs (g g' : Group) : Prop := g'.v = g.v ∧ g'.s = g.s ∧ g'.p = g.p ∧ g'.flg = g.flg

/-- Poisoned register lines after lanes `m` of vector register `n` are written (R222): a write of all 64 lanes replaces its
line and clears its poison. -/
def cleared (g : Group) (n : Nat) (m : Mask) : List Nat :=
  if g.width = 64 ∧ m = fullMask 64 then g.poison.filter fun k => k != n else g.poison

/-- What writing the results `f` to a destination leaves (R45, R49, R62): a vector register changes in the executing lanes
only, a scalar one takes lane 0's result when some lane executes; every other register keeps its value, and a register line
its poison unless it is replaced whole (R222). -/
def wrote (g g' : Group) (h : Hdr) (d : Dst) (f : Nat → Word) : Prop :=
  match d with
  | .s n =>
    (∀ k l, g'.rdV k l = g.rdV k l) ∧ (∀ k, g'.rdS k = if k = n.toNat ∧ guarded g h = true then f 0 else g.rdS k) ∧
      g'.poison = g.poison
  | .v n =>
    (∀ k, g'.rdS k = g.rdS k) ∧ (∀ k l, l < 64 → g'.rdV k l =
      if k = n.toNat ∧ (g.execMask h).getLsbD l = true then f l else g.rdV k l) ∧
      g'.poison = cleared g n.toNat (g.execMask h)
  | .none => (∀ k, g'.rdS k = g.rdS k) ∧ (∀ k l, g'.rdV k l = g.rdV k l) ∧ g'.poison = g.poison

/-- Lanes in which an instruction evaluates: lane 0 once when it is uniform and some lane executes, else the executing
lanes (R49). -/
def evalsIn (g : Group) (i : Instr) (h : Hdr) : List Nat :=
  if isUni g i then (if guarded g h then [0] else []) else lanesOf (g.execMask h)

/-- What writing a condition `f` to a predicate pair leaves (R46, R73): the first predicate takes the condition and the
second its complement, in the executing lanes; in every active lane, as lane 0 decides, when the instruction is uniform.
p0 ignores writes. -/
def wroteCmp (g g' : Group) (i : Instr) (h : Hdr) (d : CmpDst) (f : Nat → Bool) : Prop :=
  ∀ k l, l < 64 → g'.rdP k l =
    let m := if isUni g i then (if guarded g h then g.mask else 0) else g.execMask h
    let x := if isUni g i then f 0 else f l
    if k ≠ 0 ∧ m.getLsbD l = true ∧ (k = d.c.toNat ∨ k = d.k.toNat) then (if k = d.k.toNat then !x else x)
    else g.rdP k l

/-- What completing an instruction does to its group beside its result (R38, R50-R52): the PC moves to the next
instruction, and the chain grows by one position or ends. -/
def retires (g g' : Group) (i : Instr) (h : Hdr) : Prop :=
  g'.pc = seqNext g.pc (ilen g i) ∧ g'.chpos = (if h.ch then g.chpos + 1 else 0) ∧ (h.ch = false → g'.latches = [])

/-- What a chained instruction leaves in `l0` (R52): the destination register's value after it, or with `_` the result. Of a
uniform instruction whose guard is false R52 says nothing, and nothing is said here. -/
def fills (g g' : Group) (i : Instr) (h : Hdr) (d : Dst) (f : Nat → Word) : Prop :=
  h.ch = true → (isUni g i = true → guarded g h = true) → ∃ lat, g'.latches = lat :: g.latches ∧ ∀ l, l < g.width →
    lat.val.at l = match d with
      | .s n => g'.rdS n.toNat
      | .v n => g'.rdV n.toNat l
      | .none => if isUni g i then f 0 else if (g.execMask h).getLsbD l then f l else 0

/-- The flags that the evaluating lanes raise join `%flg` (R66, R104). -/
def raises (g g' : Group) (i : Instr) (h : Hdr) (f : Nat → BitVec 7) : Prop :=
  g'.flg = g.flg ||| ((evalsIn g i h).foldl (fun a l => a ||| f l) 0).setWidth 32

/-- The state `t` after an instruction that computes `f` in each lane and writes it to `d`, raising flags (R45, R49, R62,
R66, R104): the destination, the flags, the PC and the chain change, and nothing else in the package. -/
def ranAlu (s t : State) (g : Group) (i : Instr) (h : Hdr) (d : Dst) (f : Nat → Word × BitVec 7) : Prop :=
  ∃ g', t.grp? s.cur = some g' ∧ onlyGroup s t s.cur ∧ keepsAlu g g' ∧ wrote g g' h d (fun l => (f l).1) ∧
    raises g g' i h (fun l => (f l).2) ∧ retires g g' i h ∧ fills g g' i h d (fun l => (f l).1)

/-- The same for an instruction that writes a predicate pair. -/
def ranCmp (s t : State) (g : Group) (i : Instr) (h : Hdr) (d : CmpDst) (f : Nat → Bool × BitVec 7) : Prop :=
  ∃ g', t.grp? s.cur = some g' ∧ onlyGroup s t s.cur ∧ keepsCmp g g' ∧ wroteCmp g g' i h d (fun l => (f l).1) ∧
    raises g g' i h (fun l => (f l).2) ∧ retires g g' i h

/-- An instruction whose group enters its trap handler (R209, R211): class, subcode and lanes are saved, with the PC of the
instruction in both EPC and CPC and the old mode, mask and format; the group goes on in supervisor mode at
`%hbase` + 256 × class with an empty chain; nothing else in the package changes. -/
def tookTrap (s t : State) (g : Group) (cls sub : Nat) (lanes : Mask) : Prop :=
  ∃ g', t.grp? s.cur = some g' ∧ onlyGroup s t s.cur ∧
    g'.sb.valid = true ∧ g'.sb.cls = BitVec.ofNat 32 cls ∧ g'.sb.sub = BitVec.ofNat 32 sub ∧ g'.sb.lanes = lanes ∧
    g'.sb.epc = g.pc ∧ g'.sb.cpc = g.pc ∧ g'.sb.sup = g.sup ∧ g'.sb.cmask = g.mask ∧ g'.sb.fmt = g.fmt ∧
    g'.sb.depth = BitVec.ofNat 32 g.stack.length ∧ g'.sb.scr = g.sb.scr ∧
    g' = { g with sb := g'.sb, sup := true, pc := s.hbase (s.ctxOfG g) + BitVec.ofNat 64 (256 * cls), chpos := 0
                  latches := [], mask := (if cls = 5 then lanes else g.mask), age := 0, agedAt := none
                  lastIssue := g'.lastIssue }

/-- The invariant that every step keeps: memory is in its canonical form. -/
def Inv (s : State) : Prop := Memory.wf s.mem = true

/-- A step that does not stop. -/
def goesOn (r : Host.Outcome State Fault Refusal) : Prop := ∃ t, r = .next t

end Sys2Proof.Machine
end

