-- ==== Sys2Proof/Certificates/Slice0/Obligations.lean ====
section
/-! DEFINITION. The statements for the provers, each with the tables and conditions it is written with. -/

namespace Sys2Proof.Claims

open Sys2Proof Sys2Proof.Machine

/-! ## Tables of lane functions: what each computing instruction writes in a lane, and the flags it raises -/

/-- A lane function: from the group and the lane to the result word and the flags raised. -/
abbrev LaneFn := Group → Nat → Word × BitVec 7

/-- `.sat` of R106: the exact result clamped to the range of the type, saturation raised where it was outside; without
`.sat` the result wraps. -/
def satOr (n32 sat : Bool) (y : Int) : Word × BitVec 7 :=
  let lo : Int := if n32 then 0 else -2 ^ 31
  let hi : Int := if n32 then 2 ^ 32 - 1 else 2 ^ 31 - 1
  if sat = true ∧ y < lo then (BitVec.ofInt 32 lo, 64)
  else if sat = true ∧ hi < y then (BitVec.ofInt 32 hi, 64)
  else (BitVec.ofInt 32 y, 0)

/-- The integer that an operand word stands for: sint for `.i32`, uint for `.n32` (R105). -/
def iv (n32 : Bool) (x : Word) : Int := if n32 then (x.toNat : Int) else x.toInt

/-- The product of R106: sgn(a) · sgn(b) · mulc(|a|, |b|, 32, 16) with sgn(0) = 1; class X multiplies exactly (R114). -/
def prod (ac : AC) (n32 : Bool) (a b : Word) : Int :=
  if ac = .x then iv n32 a * iv n32 b
  else
    (if iv n32 a < 0 then -1 else 1) * (if iv n32 b < 0 then -1 else 1)
      * ((mulc ac (iv n32 a).natAbs (iv n32 b).natAbs 32 16 : Nat) : Int)

/-- R106: `IADD`, `ISUB`, `IMUL`, `IMULH` and `IMAD`. -/
def arith : Instr → Option (Hdr × Dst × LaneFn)
  | .iadd h d a b n t => some (h, d, fun g l => satOr n t (iv n (g.opnd a l) + iv n (g.opnd b l)))
  | .iaddImm h d a w n t => some (h, d, fun g l => satOr n t (iv n (g.opnd a l) + iv n w))
  | .isub h d a b n t => some (h, d, fun g l => satOr n t (iv n (g.opnd a l) - iv n (g.opnd b l)))
  | .isubImm h d a w n t => some (h, d, fun g l => satOr n t (iv n (g.opnd a l) - iv n w))
  | .imul h c d a b n t => some (h, d, fun g l => satOr n t (prod c n (g.opnd a l) (g.opnd b l)))
  | .imulImm h c d a w n t => some (h, d, fun g l => satOr n t (prod c n (g.opnd a l) w))
  | .imulh h c d a b n => some (h, d, fun g l => (BitVec.ofInt 32 (prod c n (g.opnd a l) (g.opnd b l) / 2 ^ 32), 0))
  | .imulhImm h c d a w n => some (h, d, fun g l => (BitVec.ofInt 32 (prod c n (g.opnd a l) w / 2 ^ 32), 0))
  | .imad h c d a b e n t =>
    some (h, d, fun g l => satOr n t (prod c n (g.opnd a l) (g.opnd b l) + iv n (g.opnd e l)))
  | _ => none

/-- Absolute value and negation of R108, with `.sat`. -/
def absNeg (neg sat : Bool) (a : Word) : Word × BitVec 7 :=
  if sat = true ∧ a = 0x80000000 then (0x7FFFFFFF, 64)
  else (BitVec.ofInt 32 (if neg then -a.toInt else ((a.toInt.natAbs : Nat) : Int)), 0)

/-- R108: `IMIN`, `IMAX`, `IABS` and `INEG`. -/
def minMax : Instr → Option (Hdr × Dst × LaneFn)
  | .imin h d a b n => some (h, d, fun g l => (BitVec.ofInt 32 (min (iv n (g.opnd a l)) (iv n (g.opnd b l))), 0))
  | .iminImm h d a w n => some (h, d, fun g l => (BitVec.ofInt 32 (min (iv n (g.opnd a l)) (iv n w)), 0))
  | .imax h d a b n => some (h, d, fun g l => (BitVec.ofInt 32 (max (iv n (g.opnd a l)) (iv n (g.opnd b l))), 0))
  | .imaxImm h d a w n => some (h, d, fun g l => (BitVec.ofInt 32 (max (iv n (g.opnd a l)) (iv n w)), 0))
  | .iabs h d a t => some (h, d, fun g l => absNeg false t (g.opnd a l))
  | .ineg h d a t => some (h, d, fun g l => absNeg true t (g.opnd a l))
  | _ => none

/-- R109: the bit instructions; `n` is all 32 bits of `b`. -/
def bits : Instr → Option (Hdr × Dst × LaneFn)
  | .and h d a b => some (h, d, fun g l => (g.opnd a l &&& g.opnd b l, 0))
  | .andImm h d a w => some (h, d, fun g l => (g.opnd a l &&& w, 0))
  | .or h d a b => some (h, d, fun g l => (g.opnd a l ||| g.opnd b l, 0))
  | .orImm h d a w => some (h, d, fun g l => (g.opnd a l ||| w, 0))
  | .xor h d a b => some (h, d, fun g l => (g.opnd a l ^^^ g.opnd b l, 0))
  | .xorImm h d a w => some (h, d, fun g l => (g.opnd a l ^^^ w, 0))
  | .not h d a => some (h, d, fun g l => (0xFFFFFFFF#32 ^^^ g.opnd a l, 0))
  | .shl h d a b => some (h, d, fun g l =>
      (let n := (g.opnd b l).toNat
       if n < 32 then BitVec.ofNat 32 ((g.opnd a l).toNat * 2 ^ n) else 0, 0))
  | .shr h d a b => some (h, d, fun g l =>
      (let n := (g.opnd b l).toNat
       if n < 32 then BitVec.ofNat 32 ((g.opnd a l).toNat / 2 ^ n) else 0, 0))
  | .sar h d a b => some (h, d, fun g l =>
      (BitVec.ofInt 32 ((g.opnd a l).toInt / 2 ^ min (g.opnd b l).toNat 31), 0))
  | .rotl h d a b => some (h, d, fun g l =>
      (let n := (g.opnd b l).toNat % 32
       (g.opnd a l <<< n) ||| (g.opnd a l >>> (32 - n)), 0))
  | .popc h d a => some (h, d, fun g l =>
      (BitVec.ofNat 32 ((List.range 32).map fun j => ((g.opnd a l).toNat / 2 ^ j) % 2).sum, 0))
  | .clz h d a => some (h, d, fun g l =>
      (BitVec.ofNat 32 (((List.range 32).find? fun j => (g.opnd a l).getLsbD (31 - j)).getD 32), 0))
  | _ => none

/-- R110: `BFX` and `BFI`. -/
def fields : Instr → Option (Hdr × Dst × LaneFn)
  | .bfx h d a b e sg => some (h, d, fun g l =>
      (let p := min (g.opnd b l).toNat 32
       let n := min (g.opnd e l).toNat (32 - p)
       let x := (g.opnd a l).toNat / 2 ^ p % 2 ^ n
       if n = 0 then 0
       else if sg = true ∧ 2 ^ (n - 1) ≤ x then BitVec.ofInt 32 ((x : Int) - 2 ^ n) else BitVec.ofNat 32 x, 0))
  | .bfi h d a b e => some (h, d, fun g l =>
      (let k := (g.opnd e l).toNat
       let p := min (k % 2 ^ 8) 32
       let n := min (k / 2 ^ 8 % 2 ^ 8) (32 - p)
       let r := (g.opnd b l).toNat
       BitVec.ofNat 32 (r % 2 ^ p + (g.opnd a l).toNat % 2 ^ n * 2 ^ p + r / 2 ^ (p + n) * 2 ^ (p + n)), 0))
  | _ => none

/-- What `LANE` puts in lane `l` (R77): its first operand in the source lane. -/
def laneExch (m : LaneMode) (a b : Opnd) : LaneFn := fun g l =>
  (let x := (g.opnd b l).toNat
   g.opnd a ((match m with | .idx => x | .xor => Nat.xor l x | .rot => l + x) % g.width), 0)

/-- Moves, select and lane crossing (R111, R74, R77). A uniform `SEL` takes `a` when the predicate chooses it in some
executing lane. -/
def moves : Instr → Option (Hdr × Dst × LaneFn)
  | .mov h d a => some (h, d, fun g l => (g.opnd a l, 0))
  | .movi h d w => some (h, d, fun _ _ => (w, 0))
  | .sel h d a b k n => some (h, d, fun g l =>
      (let picks := fun j => g.rdP k.toNat j != n
       let yes := if isUni g (.sel h d a b k n) then (lanesOf (g.execMask h)).any picks else picks l
       if yes then g.opnd a l else g.opnd b l, 0))
  | .lane h d m a b => some (h, d, laneExch m a b)
  | _ => none

end Sys2Proof.Claims

open Sys2Proof Sys2Proof.Machine Sys2Proof.Claims

/-- R106, R108: in every lane that executes, `IADD`, `ISUB`, `IMUL`, `IMULH` and `IMAD` write the exact sum, difference or
product of their class, wrapped or clamped as the type and `.sat` say, and `IMIN`, `IMAX`, `IABS` and `INEG` their result;
nothing else changes but flags, PC and chain. -/
def Obligations.IntegerArithmeticResults : Prop :=
  ∀ (s : State) (g : Group) (i : Instr) (h : Hdr) (d : Dst) (f : LaneFn),
    arith i = some (h, d, f) ∨ minMax i = some (h, d, f) → runs s g i = true →
    ∃ t, exec i s = .next t ∧ ranAlu s t g i h d (f g)

/-- R109, R110, with R74, R77 and R111: the bit instructions (shifts by 32 and more included), fields extracted and inserted,
moves, select and lane crossing. -/
def Obligations.BitFieldAndMoveResults : Prop :=
  ∀ (s : State) (g : Group) (i : Instr) (h : Hdr) (d : Dst) (f : LaneFn),
    bits i = some (h, d, f) ∨ fields i = some (h, d, f) ∨ moves i = some (h, d, f) → runs s g i = true →
    ∃ t, exec i s = .next t ∧ ranAlu s t g i h d (f g)

namespace Sys2Proof.Claims

/-! ## Floating point -/

/-- A two-source floating lane: operands modified and read (R117), then `f` in the group's mode and FZ. -/
def f2 (t : FTy) (a : Opnd) (b : Opnd ⊕ Word) (m : FMods) (f : FFmt → RMode → Bool → FVal → FVal → Nat × BitVec 7) : LaneFn :=
  fun g l =>
    let r := f (ffmt t) g.rnd g.fz (g.fvalOf t (.inl a) m.negA m.absA l) (g.fvalOf t b m.negB m.absB l)
    (BitVec.ofNat 32 r.1, r.2)

/-- The functions of R118 and R119 with their two operands. -/
def fSub (f : FFmt) (md : RMode) (fz : Bool) (x y : FVal) : Nat × BitVec 7 := fadd f md fz x y.neg
def fMin (f : FFmt) (_ : RMode) (_ : Bool) (x y : FVal) : Nat × BitVec 7 := (fminmax f false x y, 0)
def fMax (f : FFmt) (_ : RMode) (_ : Bool) (x y : FVal) : Nat × BitVec 7 := (fminmax f true x y, 0)

/-- R117-R119: scalar floating arithmetic. -/
def floats : Instr → Option (Hdr × Dst × LaneFn)
  | .fadd h d t a b m => some (h, d, f2 t a (.inl b) m fadd)
  | .faddImm h d t a w m => some (h, d, f2 t a (.inr w) m fadd)
  | .fsub h d t a b m => some (h, d, f2 t a (.inl b) m fSub)
  | .fsubImm h d t a w m => some (h, d, f2 t a (.inr w) m fSub)
  | .fmul h c d t a b m => some (h, d, f2 t a (.inl b) m fun f md fz => fmul f md fz c)
  | .fmulImm h c d t a w m => some (h, d, f2 t a (.inr w) m fun f md fz => fmul f md fz c)
  | .fmin h d t a b m => some (h, d, f2 t a (.inl b) m fMin)
  | .fminImm h d t a w m => some (h, d, f2 t a (.inr w) m fMin)
  | .fmax h d t a b m => some (h, d, f2 t a (.inl b) m fMax)
  | .fmaxImm h d t a w m => some (h, d, f2 t a (.inr w) m fMax)
  | .ffma h c d t a b e m nc ab => some (h, d, fun g l =>
      let r := ffma (ffmt t) g.rnd g.fz c (g.fvalOf t (.inl a) m.negA m.absA l) (g.fvalOf t (.inl b) m.negB m.absB l)
        (g.fvalOf t (.inl e) nc ab l)
      (BitVec.ofNat 32 r.1, r.2))
  | _ => none

/-- A unary function of R120, and the class of R121. -/
def funs : Instr → Option (Hdr × Dst × LaneFn)
  | .frcp h d t a n b => some (h, d, un .rcp t a n b)
  | .frsq h d t a n b => some (h, d, un .rsq t a n b)
  | .fsqrt h d t a n b => some (h, d, un .sqrt t a n b)
  | .fexp2 h d t a n b => some (h, d, un .exp2 t a n b)
  | .flog2 h d t a n b => some (h, d, un .log2 t a n b)
  | .ftanh h d t a n b => some (h, d, un .tanh t a n b)
  | .fclass h d t a n b => some (h, d, fun g l =>
      (let f := ffmt t
       let x := fmod f n b (g.fopnd t (.inl a) l)
       let ex := x / 2 ^ f.k % 2 ^ f.eb
       let fr := x % 2 ^ f.k
       let neg := x / 2 ^ (f.k + f.eb) % 2 = 1
       if ex = 2 ^ f.eb - 1 then (if fr ≠ 0 then 2 ^ 8 else if neg then 2 ^ 0 else 2 ^ 7)
       else if ex = 0 then
         (if fr = 0 then (if neg then 2 ^ 3 else 2 ^ 4) else if neg then 2 ^ 2 else 2 ^ 5)
       else if neg then 2 ^ 1 else 2 ^ 6, 0))
  | _ => none
where
  un (fn : FFun) (t : FTy) (a : Opnd) (n b : Bool) : LaneFn := fun g l =>
    let r := ffun (ffmt t) g.fz fn (g.fvalOf t (.inl a) n b l)
    (BitVec.ofNat 32 r.1, r.2)

/-- Both halves of a packed lane: each half's result in its place, flags united (R122). -/
def halves (f : Bool → Nat × BitVec 7) : Word × BitVec 7 :=
  (BitVec.ofNat 32 ((f false).1 + 2 ^ 16 * (f true).1), (f false).2 ||| (f true).2)

/-- A two-source packed lane. -/
def h2 (bf : Bool) (a : Opnd) (b : Opnd ⊕ Word) (m : FMods) (f : FFmt → RMode → Bool → FVal → FVal → Nat × BitVec 7) :
    LaneFn := fun g l =>
  halves fun hi => f (ffmt (packTy bf)) g.rnd g.fz (g.hvalOf (packTy bf) (.inl a) m.negA m.absA hi l)
    (g.hvalOf (packTy bf) b m.negB m.absB hi l)

/-- R122: packed arithmetic. -/
def packed : Instr → Option (Hdr × Dst × LaneFn)
  | .hadd2 h d t a b m => some (h, d, h2 t a (.inl b) m fadd)
  | .hadd2Imm h d t a w m => some (h, d, h2 t a (.inr w) m fadd)
  | .hmul2 h c d t a b m => some (h, d, h2 t a (.inl b) m fun f md fz => fmul f md fz c)
  | .hmul2Imm h c d t a w m => some (h, d, h2 t a (.inr w) m fun f md fz => fmul f md fz c)
  | .hmin2 h d t a b m => some (h, d, h2 t a (.inl b) m fMin)
  | .hmin2Imm h d t a w m => some (h, d, h2 t a (.inr w) m fMin)
  | .hmax2 h d t a b m => some (h, d, h2 t a (.inl b) m fMax)
  | .hmax2Imm h d t a w m => some (h, d, h2 t a (.inr w) m fMax)
  | .hfma2 h c d t a b e m nc ab => some (h, d, fun g l => halves fun hi =>
      ffma (ffmt (packTy t)) g.rnd g.fz c (g.hvalOf (packTy t) (.inl a) m.negA m.absA hi l)
        (g.hvalOf (packTy t) (.inl b) m.negB m.absB hi l) (g.hvalOf (packTy t) (.inl e) nc ab hi l))
  | _ => none

/-- Width, signedness, least and greatest value of an integer type of `CVT` (R87, R124). -/
def intTy : CTy → Option (Nat × Int × Int)
  | .i32 => some (32, -2 ^ 31, 2 ^ 31 - 1)
  | .n32 => some (32, 0, 2 ^ 32 - 1)
  | .i16 => some (16, -2 ^ 15, 2 ^ 15 - 1)
  | .n16 => some (16, 0, 2 ^ 16 - 1)
  | .i8 => some (8, -2 ^ 7, 2 ^ 7 - 1)
  | .n8 => some (8, 0, 2 ^ 8 - 1)
  | _ => none

/-- The floating type of a `CVT` code. -/
def floTy : CTy → FTy
  | .f16 => .f16
  | .bf16 => .bf16
  | _ => .f32

/-- The integer an operand holds in its low `w` bits: sint when the type has negative values, uint otherwise. -/
def lowInt (w : Nat) (lo : Int) (x : Word) : Int :=
  let y : Int := ((x.toNat % 2 ^ w : Nat) : Int)
  if lo < 0 ∧ (2 : Int) ^ (w - 1) ≤ y then y - 2 ^ w else y

/-- A value converted to an integer of a range: NaN gives 0, an infinity the nearer limit, a number its rounding (R125). -/
def toInt (md : RMode) (lo hi : Int) : FVal → Int × BitVec 7
  | .nan => (0, 1)
  | .inf s => (if s then lo else hi, 1)
  | .zero _ => (0, 0)
  | .fin s m e =>
    let z := (toInteger md s m e).1
    if z < lo then (lo, 1) else if hi < z then (hi, 1) else (z, if (toInteger md s m e).2 then 16 else 0)

/-- The value that the bits of a floating source of `CVT` stand for: a short immediate is read as its sign-extended bits
(R125). -/
def srcVal (t : FTy) (fz : Bool) (x : Word) : FVal := fval (ffmt t) fz (x.toNat % 2 ^ (ffmt t).width)

/-- R125-R127: conversions, packing and unpacking. -/
def convs : Instr → Option (Hdr × Dst × LaneFn)
  | .cvt h d dst src md a => some (h, d, fun g l =>
      let m := md.getD g.rnd
      match intTy dst, intTy src with
      | some (_, lo, hi), some (w, slo, _) =>
        let v := lowInt w slo (g.opnd a l)
        (BitVec.ofInt 32 (max lo (min hi v)), if v < lo ∨ hi < v then 64 else 0)
      | some (_, lo, hi), none =>
        let r := toInt m lo hi (srcVal (floTy src) g.fz (g.opnd a l))
        (BitVec.ofInt 32 r.1, r.2)
      | none, some (w, slo, _) =>
        let r := frnd (ffmt (floTy dst)) m g.fz (ofInt false (lowInt w slo (g.opnd a l)) 0)
        (BitVec.ofNat 32 r.1, r.2)
      | none, none =>
        let r := frnd (ffmt (floTy dst)) m g.fz (srcVal (floTy src) g.fz (g.opnd a l))
        (BitVec.ofNat 32 r.1, r.2))
  | .pack h d md a b => some (h, d, fun g l =>
      let fl := fun (t : FTy) => halves fun hi =>
        frnd (ffmt t) g.rnd g.fz (g.fvalOf .f32 (.inl (if hi then b else a)) false false l)
      match md with
      | .b16 => (BitVec.ofNat 32 ((g.opnd a l).toNat % 2 ^ 16 + 2 ^ 16 * ((g.opnd b l).toNat % 2 ^ 16)), 0)
      | .f16x2 => fl .f16
      | .bf16x2 => fl .bf16)
  | .unpack h d k hi a => some (h, d, fun g l =>
      let x := (g.opnd a l).toNat / 2 ^ (if hi then 16 else 0) % 2 ^ 16
      (match k with
       | .b16 => BitVec.ofNat 32 x
       | .i16 => BitVec.ofInt 32 (if 2 ^ 15 ≤ x then (x : Int) - 2 ^ 16 else x)
       | .f16 => BitVec.ofNat 32 (frnd (ffmt .f32) .rne false (fval (ffmt .f16) g.fz x)).1
       | .bf16 => BitVec.ofNat 32 (frnd (ffmt .f32) .rne false (fval (ffmt .bf16) g.fz x)).1, 0))
  | _ => none

/-! ### Compares (R72, R73) -/

/-- The real number a finite value stands for. -/
def rat : FVal → ℚ
  | .fin s m e => (if s then -1 else 1) * (m : ℚ) * (2 : ℚ) ^ e
  | _ => 0

/-- Order of values that are not NaN: infinities by sign, the rest as real numbers (R72). -/
def below (x y : FVal) : Bool :=
  match x, y with
  | .inf a, .inf b => a && !b
  | .inf a, _ => a
  | _, .inf b => !b
  | _, _ => decide (rat x < rat y)

/-- A floating condition on two values, and whether it raises invalid (R72). -/
def fcc (cc : Cond) (x y : FVal) : Bool × BitVec 7 :=
  let un := x = .nan ∨ y = .nan
  match cc with
  | .eq => (decide (¬ un ∧ below x y = false ∧ below y x = false), 0)
  | .ne => (decide (un ∨ below x y = true ∨ below y x = true), 0)
  | .lt => (decide (¬ un ∧ below x y = true), if un then 1 else 0)
  | .le => (decide (¬ un ∧ below y x = false), if un then 1 else 0)
  | .gt => (decide (¬ un ∧ below y x = true), if un then 1 else 0)
  | .ge => (decide (¬ un ∧ below x y = false), if un then 1 else 0)
  | .un => (decide un, 0)
  | .ord => (decide (¬ un), 0)

/-- An integer condition (R72). -/
def icc (cc : Cond) (x y : Int) : Bool :=
  match cc with
  | .eq => x == y
  | .ne => x != y
  | .lt => decide (x < y)
  | .le => decide (x ≤ y)
  | .gt => decide (x > y)
  | .ge => decide (x ≥ y)
  | _ => false

/-- An operand of `ICMP` at its width (R71). -/
def icOp (w : IWidth) (uns : Bool) (x : Word) : Int :=
  lowInt (match w with | .w32 => 32 | .w16 => 16 | .w8 => 8) (if uns then 0 else -1) x

/-- `HCMP2`: the halves' conditions combined (R73). -/
def hcc (cb : Comb) (f : Bool → Bool × BitVec 7) : Bool × BitVec 7 :=
  match cb with
  | .lo => f false
  | .hi => f true
  | .all => ((f false).1 && (f true).1, (f false).2 ||| (f true).2)
  | .any => ((f false).1 || (f true).1, (f false).2 ||| (f true).2)

/-- What a compare decides in a lane, and the flags it raises. -/
abbrev LaneCond := Group → Nat → Bool × BitVec 7

/-- R71-R73: the compares. -/
def compares : Instr → Option (Hdr × CmpDst × LaneCond)
  | .icmp h d cc u w a b => some (h, d, fun g l => (icc cc (icOp w u (g.opnd a l)) (icOp w u (g.opnd b l)), 0))
  | .icmpImm h d cc u w a x => some (h, d, fun g l => (icc cc (icOp w u (g.opnd a l)) (icOp w u x), 0))
  | .fcmp h d cc t a b => some (h, d, fun g l =>
      fcc cc (g.fvalOf t (.inl a) false false l) (g.fvalOf t (.inl b) false false l))
  | .fcmpImm h d cc t a x => some (h, d, fun g l =>
      fcc cc (g.fvalOf t (.inl a) false false l) (g.fvalOf t (.inr x) false false l))
  | .hcmp2 h d cc bf cb a b => some (h, d, fun g l => hcc cb fun hi =>
      fcc cc (g.hvalOf (packTy bf) (.inl a) false false hi l) (g.hvalOf (packTy bf) (.inl b) false false hi l))
  | .hcmp2Imm h d cc bf cb a x => some (h, d, fun g l => hcc cb fun hi =>
      fcc cc (g.hvalOf (packTy bf) (.inl a) false false hi l) (g.hvalOf (packTy bf) (.inr x) false false hi l))
  | _ => none

/-- A value with no infinity and no NaN. -/
def finite : FVal → Bool
  | .nan | .inf _ => false
  | _ => true

end Sys2Proof.Claims

/-- R117-R121: scalar floating arithmetic, the unary functions and `FCLASS`, in every executing lane. -/
def Obligations.ScalarFloatResults : Prop :=
  ∀ (s : State) (g : Group) (i : Instr) (h : Hdr) (d : Dst) (f : LaneFn),
    floats i = some (h, d, f) ∨ funs i = some (h, d, f) → runs s g i = true →
    ∃ t, exec i s = .next t ∧ ranAlu s t g i h d (f g)


/-- R122, R125-R127: packed arithmetic on both halves, `CVT`, `PACK` and `UNPACK`.
R72, R73: integer, floating and packed compares. `CVT` to a scalar (its uniform form) follows log entry 91,
the model's choice: R124 names only a vector destination. -/
def Obligations.PackedAndConversionResults : Prop :=
  (∀ (s : State) (g : Group) (i : Instr) (h : Hdr) (d : Dst) (f : LaneFn),
    packed i = some (h, d, f) ∨ convs i = some (h, d, f) → runs s g i = true →
    ∃ t, exec i s = .next t ∧ ranAlu s t g i h d (f g)) ∧
  (∀ (s : State) (g : Group) (i : Instr) (h : Hdr) (d : CmpDst) (f : LaneCond), compares i = some (h, d, f) →
    runs s g i = true → ∃ t, exec i s = .next t ∧ ranCmp s t g i h d (f g))

/-- R118: before rounding, the sum of two finite values is their exact sum and the class X product their exact product, and
neither raises a flag; opposite infinities, and zero times infinity, give NaN and raise invalid.
R90: in every format and every rounding mode, an encoding that is no NaN is what its own value rounds to, and that
rounding raises nothing: no format loses one of its own numbers. -/
def Obligations.SumsAndProductsAreExact : Prop :=
  ((∀ (rdn : Bool) (x y : FVal), finite x = true → finite y = true →
    finite (fsum rdn x y).1 = true ∧ rat (fsum rdn x y).1 = rat x + rat y ∧ (fsum rdn x y).2 = 0) ∧
  (∀ (n : Nat) (x y : FVal), finite x = true → finite y = true →
    finite (fprod .x n x y).1 = true ∧ rat (fprod .x n x y).1 = rat x * rat y ∧ (fprod .x n x y).2 = 0) ∧
  (∀ (rdn b : Bool), fsum rdn (.inf b) (.inf (!b)) = (.nan, 1)) ∧
  (∀ (ac : AC) (n : Nat) (a b : Bool), fprod ac n (.zero a) (.inf b) = (.nan, 1) ∧ fprod ac n (.inf a) (.zero b) = (.nan, 1))) ∧
  (∀ (t : FTy) (md : RMode) (x : Nat), x < 2 ^ (ffmt t).width → fval (ffmt t) false x ≠ .nan →
    frnd (ffmt t) md false (fval (ffmt t) false x) = (x, 0))

namespace Sys2Proof.Claims

/-! ## Division, pairs, and the instructions across lanes -/

/-- A division lane by the table of R107; `rem` chooses the remainder. -/
def divLane (rem n32 : Bool) (a b : Word) : Word × BitVec 7 :=
  if b = 0 then (if rem then a else 0xFFFFFFFF, 2)
  else if n32 = false ∧ a = 0x80000000 ∧ b = 0xFFFFFFFF then (if rem then 0 else 0x80000000, 32)
  else (BitVec.ofInt 32 (if rem then iv n32 a - (iv n32 a).tdiv (iv n32 b) * iv n32 b else (iv n32 a).tdiv (iv n32 b)), 0)

/-- A division: header, destination, `.trap`, whether it is `IREM`, the type, and its two operands in a lane. -/
def divs : Instr → Option (Hdr × Dst × Bool × Bool × Bool × (Group → Nat → Word × Word))
  | .idiv h d a b n t => some (h, d, t, false, n, fun g l => (g.opnd a l, g.opnd b l))
  | .idivImm h d a w n t => some (h, d, t, false, n, fun g l => (g.opnd a l, w))
  | .irem h d a b n t => some (h, d, t, true, n, fun g l => (g.opnd a l, g.opnd b l))
  | .iremImm h d a w n t => some (h, d, t, true, n, fun g l => (g.opnd a l, w))
  | _ => none

/-- A lane meets a case of the first two rows of R107. -/
def corner (n32 : Bool) (x : Word × Word) : Bool := (divLane false n32 x.1 x.2).2 != 0

/-- A pair `sD:sD+1` written when some lane executes (R112): every other register, predicate and flag stays. -/
def wrotePair (g g' : Group) (h : Hdr) (d : SReg) (x : DWord) : Prop :=
  (∀ k l, g'.rdV k l = g.rdV k l) ∧ g'.p = g.p ∧ g'.flg = g.flg ∧
  ∀ k, g'.rdS k =
    if guarded g h = true ∧ k = d.toNat then loW x else if guarded g h = true ∧ k = d.toNat + 1 then hiW x else g.rdS k

/-- The state after an instruction that computes a pair. -/
def ranPair (s t : State) (g : Group) (i : Instr) (h : Hdr) (d : SReg) (x : DWord) : Prop :=
  ∃ g', t.grp? s.cur = some g' ∧ onlyGroup s t s.cur ∧ keepsAlu g g' ∧ wrotePair g g' h d x ∧ retires g g' i h

/-- Pair results of the current state and group: R112, R75 with `.b64`, R64 (64-bit special registers), R35, R203. -/
def pairs : Instr → Option (Hdr × SReg × (State → Group → DWord))
  | .add64 h d a b p => some (h, d, fun _ g =>
      g.pairS a.toNat + (match b, p with
        | .s n, true => g.pairS n.toNat
        | _, _ => BitVec.ofInt 64 (g.opnd b 0).toInt))
  | .lea64 h d (.abs x) => some (h, d, fun _ _ => BitVec.ofNat 64 x.toNat)
  | .lea64 h d (.rel o) => some (h, d, fun _ g => BitVec.ofInt 64 (((g.pc.toNat : Int) + o.toInt) % 2 ^ 54))
  | .lea64 h d (.base a o) => some (h, d, fun _ g => BitVec.ofInt 64 (((g.pairS a.toNat).toNat + o.toInt) % 2 ^ 54))
  | .ballot h (.s d) true k n => some (h, d, fun _ g => maskOf 64 fun j => g.executes h j && decide (j < g.width) && (g.rdP k.toNat j != n))
  | .rdclk h d => some (h, d, fun s _ => s.clock)
  | .rdtim h d => some (h, d, fun _ g => g.gtime)
  | .mfs h (.sp64 .clock d) => some (h, d, fun s _ => s.clock)
  | .mfs h (.sp64 .gtime d) => some (h, d, fun _ g => g.gtime)
  | .mfs h (.sp64 .pc d) => some (h, d, fun _ g => g.pc)
  | .mfs h (.sp64 .hbase d) => some (h, d, fun s g => s.hbase (s.ctxOfG g))
  | .mfs h (.sp64 .tags d) => some (h, d, fun s g =>
      s.tags { g with ctl := g.ctlAfter (infoOf g.fmt (.mfs h (.sp64 .tags d))) })
  | .mfs h (.sp64 .ctx d) => some (h, d, fun s g => ((s.ctx? (s.ctxOfG g)).map (·.saveVA)).getD 0)
  | .mfs h (.sp64 .fqbase d) => some (h, d, fun s g =>
      ((s.ctx? (s.ctxOfG g)).map fun c => BitVec.ofNat 64 (s.rdNat (c.savePA + 0x10) 8)).getD 0)
  | .mfs h (.tr64 .epc d) => some (h, d, fun _ g => g.sb.epc)
  | .mfs h (.tr64 .cpc d) => some (h, d, fun _ g => g.sb.cpc)
  | .mfs h (.tr64 .lanes d) => some (h, d, fun _ g => g.sb.lanes)
  | .mfs h (.tr64 .cmask d) => some (h, d, fun _ g => g.sb.cmask)
  | .quiesCur h d => some (h, d, fun s _ => s.q)
  | _ => none

/-- The executing lanes, ascending. -/
def lanes (g : Group) (h : Hdr) : List Nat := (List.range 64).filter fun j => decide (j < g.width) && g.executes h j

/-- The least or greatest operand word of a list under the type of `GRED` (R113). -/
def pick (big n32 : Bool) : List Word → Word
  | [] => 0
  | w :: ws => ws.foldl (fun a b => if (if big then iv n32 a < iv n32 b else iv n32 b < iv n32 a) then b else a) w

/-- A reduction over words (R113). -/
def reduce (op : RedOp) (n32 : Bool) (ws : List Word) : Word :=
  match op with
  | .add => BitVec.ofNat 32 (ws.map (·.toNat)).sum
  | .min => pick false n32 ws
  | .max => pick true n32 ws
  | .and => ws.foldl (· &&& ·) (if ws = [] then 0 else 0xFFFFFFFF)
  | .or => ws.foldl (· ||| ·) 0
  | .xor => ws.foldl (· ^^^ ·) 0

/-- Whether a destination is a scalar register or `_`. -/
def notVec (d : Dst) : Bool := match d with | .v _ => false | _ => true

/-- Results across lanes with a scalar destination: `BALLOT` (R75), `GRED` (R113) and `FSUM` (R123). -/
def crossing : Instr → Option (Hdr × Dst × (Group → Word × BitVec 7))
  | .ballot h d false k n => some (h, d, fun g =>
      ((maskOf 32 fun j => g.executes h j && decide (j < g.width) && (g.rdP k.toNat j != n)).setWidth 32, 0))
  | .gred h d op n32 a => some (h, d, fun g => (reduce op n32 ((lanes g h).map (g.opnd a)), 0))
  | .fsum h d t a => some (h, d, fun g =>
      let r := rndWith (ffmt .f32) g.rnd g.fz
        (sumAll (g.rnd == .rdn) ((lanes g h).map fun l => g.fvalOf t (.inl a) false false l))
      (BitVec.ofNat 32 r.1, r.2))
  | _ => none

/-- What `VOTE` decides over the executing lanes (R76). -/
def voted (g : Group) (h : Hdr) : VoteForm → Bool
  | .all j => (lanes g h).all fun l => g.rdP j.toNat l
  | .any j => (lanes g h).any fun l => g.rdP j.toNat l
  | .uni a => (lanes g h).all fun l => (lanes g h).all fun m => g.opnd a l == g.opnd a m

end Sys2Proof.Claims

/-- R107: each executing lane takes its row of the table and raises its flag; with `.trap`, where some executing lane meets
a case of the first two rows, the group (not tainted, its side buffer empty) takes class 4 before any lane is written, with
subcode 0x01 if any lane divides by zero and else 0x02, and the lane mask names the lanes that met either case. -/
def Obligations.DivisionResultsAndTrap : Prop :=
  ∀ (s : State) (g : Group) (i : Instr) (h : Hdr) (d : Dst) (tr rem n : Bool) (x : Group → Nat → Word × Word),
    divs i = some (h, d, tr, rem, n, x) → runs s g i = true →
    (tr = false ∨ (evalsIn g i h).any (fun l => corner n (x g l)) = false →
      ∃ t, exec i s = .next t ∧ ranAlu s t g i h d fun l => divLane rem n (x g l).1 (x g l).2) ∧
    (tr = true → (evalsIn g i h).any (fun l => corner n (x g l)) = true → g.dep = 0 → g.sb.valid = false →
      ∃ t, exec i s = .next t ∧
        tookTrap s t g 4 (if (evalsIn g i h).any fun l => (x g l).2 == 0 then 1 else 2)
          (maskOf 64 fun l => (evalsIn g i h).contains l && corner n (x g l)))

/-- R112 and the other instructions that write a pair: the pair when some lane executes, and no other register, predicate or
flag. `%tags` is read after CTL has grown (R288, R308). That `%hbase` and `%fqbase` are read from memory at the physical address of the descriptor is the
model's choice (log entry 7). -/
def Obligations.PairResults : Prop :=
  ∀ (s : State) (g : Group) (i : Instr) (h : Hdr) (d : SReg) (f : State → Group → DWord), pairs i = some (h, d, f) →
    runs s g i = true → ∃ t, exec i s = .next t ∧ ranPair s t g i h d (f s g)

/-- R75, R76, R77, R113, R123: `BALLOT`, `GRED` and `FSUM` write their result once when some lane executes, to a scalar
register or to the chain alone; `LANE` moves each executing lane's source lane, or reads one lane out; `VOTE` writes its
condition and the complement in every active lane, and nothing when no lane executes. -/
def Obligations.CrossLaneResults : Prop :=
  (∀ (s : State) (g : Group) (i : Instr) (h : Hdr) (d : Dst) (f : Group → Word × BitVec 7),
    crossing i = some (h, d, f) → notVec d = true → runs s g i = true →
    ∃ t g', exec i s = .next t ∧ t.grp? s.cur = some g' ∧ onlyGroup s t s.cur ∧ keepsAlu g g' ∧
      wrote g g' h d (fun _ => (f g).1) ∧
      g'.flg = g.flg ||| (if guarded g h then (f g).2 else 0).setWidth 32 ∧ retires g g' i h ∧
      (guarded g h = true → fills g g' i h d fun _ => (f g).1)) ∧
  (∀ (s : State) (g : Group) (h : Hdr) (d : Dst) (m : LaneMode) (a b : Opnd), runs s g (.lane h d m a b) = true →
    ∃ t, exec (.lane h d m a b) s = .next t ∧ ranAlu s t g (.lane h d m a b) h d (laneExch m a b g)) ∧
  (∀ (s : State) (g : Group) (h : Hdr) (d : CmpDst) (f : VoteForm), runs s g (.vote h d f) = true →
    ∃ t g', exec (.vote h d f) s = .next t ∧ t.grp? s.cur = some g' ∧ onlyGroup s t s.cur ∧ keepsCmp g g' ∧
      g'.flg = g.flg ∧ retires g g' (.vote h d f) h ∧
      ∀ k l, l < 64 → g'.rdP k l =
        if guarded g h = true ∧ g.mask.getLsbD l = true ∧ k ≠ 0 ∧ (k = d.c.toNat ∨ k = d.k.toNat) then
          (if k = d.k.toNat then !voted g h f else voted g h f)
        else g.rdP k l)

namespace Sys2Proof.Claims

/-! ## Control -/

/-- After the step the current group is `g1`, but for CTL, the ended chain and its issue age; nothing else changes. -/
def became (s t : State) (g1 : Group) : Prop :=
  ∃ g', t.grp? s.cur = some g' ∧ onlyGroup s t s.cur ∧
    g' = { g1 with ctl := g'.ctl, chpos := 0, latches := [], age := 0, agedAt := none, lastIssue := g'.lastIssue }

/-- A step of `exec` that leaves the current group as `g1`. -/
def goes (i : Instr) (s : State) (g1 : Group) : Prop := ∃ t, exec i s = .next t ∧ became s t g1

/-- A step of `exec` that enters the trap handler. -/
def traps (i : Instr) (s : State) (g : Group) (cls sub : Nat) (ls : Mask) : Prop :=
  ∃ t, exec i s = .next t ∧ tookTrap s t g cls sub ls

/-- (PC + sint(imm)) mod 2^54 (R78). -/
def target (g : Group) (imm : Word) : DWord := BitVec.ofInt 64 (((g.pc.toNat : Int) + imm.toInt) % 2 ^ 54)

/-- A target that R39 allows. -/
def fits (t : DWord) : Prop := t.toNat % 4 = 0 ∧ t.toNat % 32 ≠ 28

/-- Transfers of the whole group: header, where they go, and the link pair (R81). -/
def transfers : Instr → Option (Hdr × (Group → DWord) × Option SReg)
  | .brx h a => some (h, fun g => g.pairS a.toNat, none)
  | .ret h a => some (h, fun g => g.pairS a.toNat, none)
  | .call h d off => some (h, fun g => target g off, some d)
  | .callx h d a => some (h, fun g => g.pairS a.toNat, some d)
  | _ => none

/-- The lanes that leave at an `EXIT` are taken out of the mask and of every entry of the stack (R80), and out of the CMASK
that a return from the handler they are in would bring back (log entry 79). -/
def without (x : Mask) (g : Group) : Group :=
  { g with mask := g.mask &&& ~~~x
           sb := { g.sb with cmask := if g.sb.valid then g.sb.cmask &&& ~~~x else g.sb.cmask }
           stack := g.stack.map fun m => { m with mask := m.mask &&& ~~~x, pmask := m.pmask &&& ~~~x } }

/-- Entries above the first that still holds a lane, after an `EXIT` (R80). -/
def spent (m : Mark) : Bool := m.pmask == 0 && m.mask == 0

/-- Parking for `n` nanoseconds, as `SLEEP` does (R84); with 0 it acts as `YIELD` (R83). -/
def slept (s : State) (g : Group) (n : Word) (len : Nat) : Group :=
  { g with pc := seqNext g.pc len
           park := some (if n = 0 then .yielded else .sleep (s.clock + BitVec.ofNat 64 n.toNat)) }

/-- The fields of `%fmt` named by a selection, taken from `x` (R65, R85). -/
def fmtSet (sel : BitVec 5) (old x : Word) : Word :=
  let take := fun (b lo n : Nat) => if sel.getLsbD b then x.toNat / 2 ^ lo % 2 ^ n * 2 ^ lo else old.toNat / 2 ^ lo % 2 ^ n * 2 ^ lo
  BitVec.ofNat 32 (take 0 0 4 + take 1 4 4 + take 2 8 2 + take 3 10 2 + take 4 12 1 + old.toNat / 2 ^ 13 * 2 ^ 13)

/-- A selection places no reserved code (R65): AFMT and BFMT below 9, ACC below 2. -/
def fmtOk (sel : BitVec 5) (x : Word) : Prop :=
  (sel.getLsbD 0 = true → x.toNat % 16 < 9) ∧ (sel.getLsbD 1 = true → x.toNat / 16 % 16 < 9) ∧
    (sel.getLsbD 2 = true → x.toNat / 256 % 4 < 2)

end Sys2Proof.Claims


/-- R79: `BRA` falls through when no lane takes it, jumps when every active lane does, and otherwise leaves the lanes that
fall through pending in the top entry of the stack and goes on with the others.
R81: `BRX`, `CALL`, `CALLX` and `RET` fall through when no lane executes them, and transfer to a 54-bit target when every
active lane does, the link pair written first with the address of the next instruction.
Both: the causes of class 7 of each. -/
def Obligations.BranchEffects : Prop :=
  (∀ (s : State) (g : Group) (h : Hdr) (off : Word), runs s g (.bra h off) = true → h.ch = false →
    let e := g.execMask h
    let n := g.mask &&& ~~~e
    (e = 0 → goes (.bra h off) s { g with pc := seqNext g.pc 12 }) ∧
    (e ≠ 0 → n = 0 → fits (target g off) → goes (.bra h off) s { g with pc := target g off }) ∧
    (∀ top rest, e ≠ 0 → n ≠ 0 → fits (target g off) → g.stack = top :: rest → top.pmask = 0 →
      goes (.bra h off) s { g with
        pc := target g off
        mask := e
        stack := { top with pmask := n, ppc := seqNext g.pc 12, pfmt := g.fmt } :: rest }) ∧
    (g.dep = 0 → g.sb.valid = false → e ≠ 0 → n ≠ 0 → fits (target g off) →
      (g.stack = [] → traps (.bra h off) s g 7 0x02 e) ∧
      (∀ top rest, g.stack = top :: rest → top.pmask ≠ 0 → traps (.bra h off) s g 7 0x03 e))) ∧
  (∀ (s : State) (g : Group) (i : Instr) (h : Hdr) (dest : Group → DWord) (link : Option SReg),
    transfers i = some (h, dest, link) → runs s g i = true → h.ch = false →
    (g.dep = 0 → g.sb.valid = false → g.execMask h ≠ 0 → g.execMask h ≠ g.mask → traps i s g 7 0x05 1) ∧
    (g.execMask h = 0 → goes i s { g with pc := seqNext g.pc (ilen g i) }) ∧
    (g.execMask h = g.mask → g.mask ≠ 0 → fits (dest g) → (dest g).toNat < 2 ^ 54 →
      ∃ t g', exec i s = .next t ∧ t.grp? s.cur = some g' ∧ onlyGroup s t s.cur ∧ g'.pc = dest g ∧ g'.mask = g.mask ∧
        g'.stack = g.stack ∧ g'.p = g.p ∧ g'.v = g.v ∧ g'.flg = g.flg ∧ g'.fmt = g.fmt ∧
        match link with
        | none => g'.s = g.s
        | some d => ∀ k, g'.rdS k =
            if k = d.toNat then loW (seqNext g.pc (ilen g i)) else if k = d.toNat + 1 then hiW (seqNext g.pc (ilen g i))
            else g.rdS k))

/-- R80: `MARK` pushes an entry with the join address, mask and format; `JOIN` at the top entry's address switches to the
pending path if there is one, and otherwise pops the entry and goes on with its mask and format.
R80: the lanes that execute an `EXIT` leave the mask and the stack for good; that they leave CMASK too is the model's reading
(log entry 79). Where lanes are left in the mask they go
on; else the topmost entry that holds a lane decides: its pending path is taken up, or it is popped and its lanes go on
after its join; with no such entry the group ends. -/
def Obligations.MarkAndJoinEffects : Prop :=
  ((∀ (s : State) (g : Group) (off : Word), runs s g (.mark off) = true → fits (target g off) → g.stack.length ≠ 32 →
    goes (.mark off) s { g with pc := seqNext g.pc 12, stack := ⟨target g off, g.mask, g.fmt, 0, 0, 0⟩ :: g.stack }) ∧
  (∀ (s : State) (g : Group) (top : Mark) (rest : List Mark), runs s g .join = true → g.stack = top :: rest →
    g.pc = top.join →
    (top.pmask ≠ 0 → fits top.ppc → goes .join s { g with
      pc := top.ppc, mask := top.pmask, fmt := top.pfmt, stack := { top with pmask := 0 } :: rest }) ∧
    (top.pmask = 0 → goes .join s { g with
      pc := seqNext g.pc 8, mask := top.mask, fmt := top.fmt, stack := rest }))) ∧
  (∀ (s : State) (g : Group) (h : Hdr), runs s g (.exit h) = true → h.ch = false → g.dep = 0 →
    let x := g.execMask h
    let g1 := without x g
    (x = 0 → goes (.exit h) s { g with pc := seqNext g.pc 8 }) ∧
    (x ≠ 0 → g1.mask ≠ 0 → goes (.exit h) s { g1 with pc := seqNext g.pc 8 }) ∧
    (x ≠ 0 → g1.mask = 0 → ∀ gone m rest, g1.stack = gone ++ m :: rest → gone.all spent = true → spent m = false →
      (m.pmask ≠ 0 → goes (.exit h) s { g1 with
        pc := m.ppc, mask := m.pmask, fmt := m.pfmt, stack := { m with pmask := 0 } :: rest }) ∧
      (m.pmask = 0 → goes (.exit h) s { g1 with
        pc := seqNext m.join 8, mask := m.mask, fmt := m.fmt, stack := rest })) ∧
    (x ≠ 0 → g1.mask = 0 → g1.stack.all spent = true → ∃ t g', exec (.exit h) s = .next t ∧ t.grp? s.cur = some g' ∧
      onlyGroup s t s.cur ∧ g'.exited = true ∧ g'.mask = 0 ∧ g'.stack = [] ∧ keepsRegs g g'))


/-- R57, R83-R85: `NOP` only moves the PC; `YIELD` and `SLEEP` park the group until the next cycle or a deadline; `SETFMT`
writes the selected fields of `%fmt`, and takes class 2 subcode 0x06 on a reserved code; `GETFMT` reads `%fmt`. With no lane
executing they only move the PC. A sleeping group leaves its park when `%clock` has reached its deadline, and not before.
R39, R82: where a transfer has no effect but a trap: a bad target (class 0, subcode 0x0A), and the causes of class 7; a
transfer through a pair with bits 63:54 set takes class 8, cause 0x05. That the target's alignment is judged before its
range, and before the causes of class 7 of `BRA` and `MARK`, is the model's choice (log entry 75). -/
def Obligations.PauseAndFormatEffects : Prop :=
  ((∀ (s : State) (g : Group), runs s g .nop = true → goes .nop s { g with pc := seqNext g.pc 8 }) ∧
  (∀ (s : State) (g : Group) (h : Hdr), runs s g (.yield h) = true → h.ch = false →
    goes (.yield h) s { g with pc := seqNext g.pc 8, park := if guarded g h then some .yielded else none }) ∧
  (∀ (s : State) (g : Group) (h : Hdr) (b : Opnd), runs s g (.sleep h b) = true → h.ch = false →
    goes (.sleep h b) s (if guarded g h then slept s g (g.opnd b 0) 8 else { g with pc := seqNext g.pc 8 })) ∧
  (∀ (s : State) (g : Group) (h : Hdr) (w : Word), runs s g (.sleepImm h w) = true → h.ch = false →
    goes (.sleepImm h w) s (if guarded g h then slept s g w 12 else { g with pc := seqNext g.pc 12 })) ∧
  (∀ (s : State) (g : Group) (h : Hdr) (sel : BitVec 5) (b : Opnd), runs s g (.setfmt h sel b) = true → h.ch = false →
    (fmtOk sel (g.opnd b 0) ∨ guarded g h = false →
      goes (.setfmt h sel b) s { g with
        pc := seqNext g.pc 8, fmt := if guarded g h then fmtSet sel g.fmt (g.opnd b 0) else g.fmt }) ∧
    (¬ fmtOk sel (g.opnd b 0) → guarded g h = true → g.dep = 0 → g.sb.valid = false →
      traps (.setfmt h sel b) s g 2 0x06 1)) ∧
  (∀ (s : State) (g : Group) (h : Hdr) (sel : BitVec 5) (w : Word), runs s g (.setfmtImm h sel w) = true → h.ch = false →
    (fmtOk sel w ∨ guarded g h = false →
      goes (.setfmtImm h sel w) s { g with
        pc := seqNext g.pc 12, fmt := if guarded g h then fmtSet sel g.fmt w else g.fmt }) ∧
    (¬ fmtOk sel w → guarded g h = true → g.dep = 0 → g.sb.valid = false → traps (.setfmtImm h sel w) s g 2 0x06 1)) ∧
  (∀ (s : State) (g : Group) (h : Hdr) (d : Dst), runs s g (.getfmt h d) = true →
    ∃ t, exec (.getfmt h d) s = .next t ∧ ranAlu s t g (.getfmt h d) h d fun _ => (g.fmt, 0)) ∧
  (∀ (s : State) (g : Group) (dl : DWord), s.grp? g.gid = some g → g.park = some (.sleep dl) →
    ∃ t, exec (.sleepDeadline g.gid) s = .next t ∧ onlyGroup s t g.gid ∧ t.lacc = s.lacc ∧
      t.grp? g.gid = some { g with park := if dl.toNat ≤ s.clock.toNat then none else some (.sleep dl) })) ∧
  ((∀ (s : State) (g : Group) (h : Hdr) (off : Word), runs s g (.bra h off) = true → g.dep = 0 → g.sb.valid = false →
    let e := g.execMask h
    e ≠ 0 →
    (¬ fits (target g off) → traps (.bra h off) s g 0 0x0A e) ∧
    (fits (target g off) → g.mask &&& ~~~e ≠ 0 →
      (g.stack = [] → traps (.bra h off) s g 7 0x02 e) ∧
      (∀ top rest, g.stack = top :: rest → top.pmask ≠ 0 → traps (.bra h off) s g 7 0x03 e))) ∧
  (∀ (s : State) (g : Group) (i : Instr) (h : Hdr) (dest : Group → DWord) (link : Option SReg),
    transfers i = some (h, dest, link) → runs s g i = true → g.dep = 0 → g.sb.valid = false → g.execMask h ≠ 0 →
    (g.execMask h ≠ g.mask → traps i s g 7 0x05 1) ∧
    (g.execMask h = g.mask → ¬ fits (dest g) → traps i s g 0 0x0A 1) ∧
    (g.execMask h = g.mask → fits (dest g) → 2 ^ 54 ≤ (dest g).toNat → traps i s g 8 0x05 1)) ∧
  (∀ (s : State) (g : Group) (off : Word), runs s g (.mark off) = true → g.dep = 0 → g.sb.valid = false →
    (¬ fits (target g off) → traps (.mark off) s g 0 0x0A 1) ∧
    (fits (target g off) → g.stack.length = 32 → traps (.mark off) s g 7 0x01 1)) ∧
  (∀ (s : State) (g : Group), runs s g .join = true → g.dep = 0 → g.sb.valid = false →
    (∀ top rest, g.stack = top :: rest → g.pc ≠ top.join) → traps .join s g 7 0x04 1))

namespace Sys2Proof.Claims

/-! ## Traps, special registers, translation, context switch -/

/-- No assumption has reached the group or what the instruction reads (R295, R297): it performs what it issues. -/
def untainted (g : Group) (i : Instr) : Prop := g.dep = 0 ∧ g.tSet (infoOf g.fmt i) = 0

/-- The group after an instruction that wrote nothing in it, but for CTL, chain and issue age. -/
def passed (g g' : Group) (i : Instr) : Prop :=
  g' = { g with pc := seqNext g.pc (ilen g i), ctl := g'.ctl, chpos := 0, latches := [], age := 0, agedAt := none
                lastIssue := g'.lastIssue }

/-- A 32-bit special register in lane `l` (R16, R64). -/
def sp32 (s : State) (g : Group) (r : SpReg) (l : Nat) : Option Word :=
  let ofTeam := fun (f : Team → Nat) => (s.team? g.tid).map fun t => BitVec.ofNat 32 (f t)
  match r with
  | .lane => some (BitVec.ofNat 32 l)
  | .width => some (BitVec.ofNat 32 g.width)
  | .group => some (BitVec.ofNat 32 g.num)
  | .team => ofTeam (·.num)
  | .core => some (BitVec.ofNat 32 g.core)
  | .die => some (BitVec.ofNat 32 (g.core / 48))
  | .rank => some (BitVec.ofNat 32 s.rank)
  | .cluster => ofTeam (·.cluster)
  | .clpos => ofTeam (·.clpos)
  | .grid => ofTeam (·.grid)
  | .fmt => some g.fmt
  | .flg => some g.flg
  | _ => none

/-- A 32-bit or per-lane trap field in lane `l` (R209); words of lanes outside LANES read as zero. -/
def tr32 (g : Group) (f : TrField) (l : Nat) : Option Word :=
  let lw : DWord := if g.sb.lanes.getLsbD l then sget 0 g.sb.lw l else 0
  match f with
  | .cls => some g.sb.cls
  | .sub => some g.sb.sub
  | .mode => some (if g.sb.sup then 1 else 0)
  | .lwlo => some (BitVec.ofNat 32 lw.toNat)
  | .lwhi => some (BitVec.ofNat 32 (lw.toNat / 2 ^ 32))
  | .code => some g.sb.code
  | .chpos => some g.sb.chpos
  | .depth => some g.sb.depth
  | .scr n => some (sget 0 g.sb.scr n.toNat)
  | _ => none

/-- What a read of a special register or trap field gives in a lane. -/
def mfs32 (s : State) (g : Group) : MfsForm → Option (Dst × (Nat → Option Word))
  | .sp r d => some (d, sp32 s g r)
  | .tr f d => some (d, tr32 g f)
  | _ => none

/-- A 54-bit base with its low 12 bits zero, as R207 asks of `%hbase` and `%fqbase`. -/
def baseOk (v : DWord) : Prop := v.toNat % 2 ^ 12 = 0 ∧ v.toNat < 2 ^ 54

/-- Instructions and uses that R206 makes privileged, with their group's class 1 trap in user mode. -/
def privileged : Instr → Bool
  | .rft _ | .rftNext _ | .rftTo _ _ | .rftRep _ _ | .vinv _ _ | .quiesOld _ _ | .quiesCur _ _ | .fltq _ _
  | .ctxswSave _ _ _ | .ctxswRest _ _ _ | .ctxswQry _ _ _ | .gsetFull _ _ _ _ _ | .gsetSeq _ _ _ | .gsetClear _ _
  | .mreset _ _ | .mfs _ (.tr _ _) | .mfs _ (.tr64 _ _) | .mts _ (.scr _ _) | .mts _ (.hbase _) | .mts _ (.fqbase _)
  | .mfs _ (.sp64 .hbase _) | .mfs _ (.sp64 .ctx _) | .mfs _ (.sp64 .fqbase _) => true
  | _ => false

/-- The forms of `RFT`: header and where it returns to; the register of `.rep` (R214). -/
def returns : Instr → Option (Hdr × (State → Group → DWord) × Option VReg)
  | .rft h => some (h, fun _ g => g.sb.epc, none)
  | .rftNext h => some (h, fun s g => if g.sb.sync then seqNext g.sb.cpc (s.causeLen g) else g.sb.epc, none)
  | .rftTo h a => some (h, fun _ g => g.pairS a.toNat, none)
  | .rftRep h a => some (h, fun s g => seqNext g.sb.cpc (s.causeLen g), some a)
  | _ => none

/-- Everything in the package but groups, loads in flight, operations and the model's numbers stays. -/
def onlyCore (s t : State) : Prop :=
  t = { s with groups := t.groups, lacc := t.lacc, ops := t.ops, nextId := t.nextId, free := t.free }

/-- The operations after an instruction whose own operation, numbered as the next one, has come and gone. -/
def sameOps (s t : State) : Prop := t.ops = s.ops.filter fun o => o.id != s.nextId

/-- `VINV`: its scope and, for `.page`, the VA (R202). -/
def vinvHits (ctx : Nat) (g : Group) (x : VScope) (e : TlbEnt) : Bool :=
  match x with
  | .page a => e.ctx == ctx && decide (e.va ≤ (g.pairS a.toNat).toNat ∧ (g.pairS a.toNat).toNat < e.va + e.size)
  | .ctx => e.ctx == ctx
  | .dev => true

/-- `CTXSW`: header, operation (0 save, 1 restore, 2 query), destination and context number (R218). -/
def ctxsws : Instr → Option (Hdr × Nat × Dst × Opnd)
  | .ctxswSave h d a => some (h, 0, d, a)
  | .ctxswRest h d a => some (h, 1, d, a)
  | .ctxswQry h d a => some (h, 2, d, a)
  | _ => none

end Sys2Proof.Claims

/-- R206: a privileged instruction or use in user mode takes class 1, subcode 0x01, whatever its guard, with no other
effect. -/
def Obligations.PrivilegedTrapInUserMode : Prop :=
  ∀ (s : State) (g : Group) (i : Instr), privileged i = true → s.grp? s.cur = some g → s.ready g (infoOf g.fmt i) = true →
    g.sup = false → g.dep = 0 → g.sb.valid = false → ∃ ls, traps i s g 1 0x01 ls

/-- R86, R211, R215: `BREAK` takes class 14 with its code as the subcode; `SCALL` enters class 5 with the executing lanes, its code, its argument of each of those lanes and its
destination saved, and the mask narrowed to those lanes; with no lane executing both only move the PC. -/
def Obligations.SoftwareTraps : Prop :=
  (∀ (s : State) (g : Group) (h : Hdr) (code : BitVec 8), runs s g (.brk h code) = true → h.ch = false →
    (guarded g h = false → goes (.brk h code) s { g with pc := seqNext g.pc 8 }) ∧
    (guarded g h = true → g.dep = 0 → g.sb.valid = false → traps (.brk h code) s g 14 code.toNat 1)) ∧
  (∀ (s : State) (g : Group) (h : Hdr) (d : VReg) (code : BitVec 8) (a : Opnd), runs s g (.scall h d code a) = true →
    let e := g.execMask h
    (e = 0 → h.ch = false → goes (.scall h d code a) s { g with pc := seqNext g.pc 8 }) ∧
    (e ≠ 0 → g.dep = 0 → g.sb.valid = false →
      ∃ t g', exec (.scall h d code a) s = .next t ∧ tookTrap s t g 5 0 e ∧ t.grp? s.cur = some g' ∧
        g'.sb.code = BitVec.ofNat 32 code.toNat ∧ g'.sb.scallD = d ∧
        ∀ l, l < 64 → sget 0 g'.sb.lw l = if e.getLsbD l then BitVec.ofNat 64 (g.opnd a l).toNat else 0))

/-- R214: a return restores mode, format, mask and stack depth from the side buffer entry and clears its valid bit, and the
chain comes back where the target is the causing instruction or the next; `.rep` writes one reply to each lane of LANES in
the destination of the `SCALL`. That a return none of whose lanes is left goes on as `EXIT` does is the model's choice (log entry 79) and is not
stated here. With no trap to return from it takes class 2, subcode 0x18; and with a valid
side buffer entry, a target that R39 refuses, or a pair of `.to` with bits 63:54 set, is a double trap (R213): no lane is left, the group has not executed `EXIT`,
and a kind-2 record naming the second trap is posted. That a target is judged against R39 before its range, and so which
second trap the record names, is the model's choice (log entry 75). -/
def Obligations.ReturnFromTrap : Prop :=
  (∀ (s : State) (g : Group) (i : Instr) (h : Hdr) (dest : State → Group → DWord) (rep : Option VReg),
    returns i = some (h, dest, rep) → runs s g i = true → guarded g h = true → g.sb.valid = true →
    (rep ≠ none → g.sb.cls = 5) → fits (dest s g) → (∀ a, i = .rftTo h a → (dest s g).toNat < 2 ^ 54) →
    g.sb.depth.toNat ≤ g.stack.length → g.sb.cmask ≠ 0 →
    (rep ≠ none → s.regsFree g [.v g.sb.scallD.toNat] = true) →
    ∃ t g', exec i s = .next t ∧ t.grp? s.cur = some g' ∧ onlyCore s t ∧ t.ops = s.ops ∧
      (∀ k, k ≠ s.cur → t.grp? k = s.grp? k) ∧
      g'.pc = dest s g ∧ g'.sup = g.sb.sup ∧ g'.fmt = g.sb.fmt ∧ g'.mask = g.sb.cmask ∧
      g'.stack = g.stack.drop (g.stack.length - g.sb.depth.toNat) ∧ g'.sb = { g.sb with valid := false } ∧
      g'.s = g.s ∧ g'.p = g.p ∧ g'.flg = g.flg ∧
      (let back := dest s g = g.sb.cpc ∨ dest s g = seqNext g.sb.cpc (s.causeLen g)
       (back → g'.latches = g.sb.latches ∧ g'.chpos = g.sb.chpos.toNat) ∧ (¬ back → g'.latches = [] ∧ g'.chpos = 0)) ∧
      ∀ k l, l < 64 → g'.rdV k l = match rep with
        | some a => if k = g.sb.scallD.toNat ∧ g.sb.lanes.getLsbD l = true then g.rdV a.toNat l else g.rdV k l
        | none => g.rdV k l) ∧
  (∀ (s : State) (g : Group) (i : Instr) (h : Hdr) (dest : State → Group → DWord) (rep : Option VReg),
    returns i = some (h, dest, rep) → runs s g i = true → guarded g h = true → g.dep = 0 →
    (g.sb.valid = false → traps i s g 2 0x18 1) ∧
    (g.sb.valid = true → (rep ≠ none → g.sb.cls = 5) →
      (¬ fits (dest s g) ∨ ∃ a, i = .rftTo h a ∧ 2 ^ 54 ≤ (dest s g).toNat) →
      ∃ t g', exec i s = .next t ∧ t.grp? s.cur = some g' ∧ g'.exited = true ∧ g'.byExit = false ∧ g'.mask = 0 ∧
        g'.stack = [] ∧ keepsRegs g g' ∧
        ∀ c, s.ctx? (s.ctxOfG g) = some c → ∃ c' r, t.ctx? (s.ctxOfG g) = some c' ∧ c'.faults = c.faults ++ [r] ∧
          r.cause = 0x20F ∧ r.id = faultId g ∧ r.va = g.pc ∧ (¬ fits (dest s g) → r.first = 0x0A) ∧ (fits (dest s g) → r.first = 0x805)))


/-- R64, R207, R209: a 32-bit special register or trap field reaches every executing lane of the destination. `MTS` writes
`%fmt`, `%flg` (bits 6:0 only), a scratch word of the side buffer, or, when its bits 11:0 and 63:54 are zero, a base in the
context's descriptor; any other base takes class 2, subcode 0x06. That the descriptor's bytes lie at the physical address of
its save area is the model's choice (log entry 7).
R216: `SETTIM` sets the deadline to `%gtime` + b, or disarms the timer with 0; when `%gtime` has reached the deadline of
a group that has not exited, class 6 subcode 0x01 is pending and the timer is disarmed. -/
def Obligations.SpecialRegisterAccess : Prop :=
  ((∀ (s : State) (g : Group) (h : Hdr) (f : MfsForm) (d : Dst) (v : Nat → Option Word), runs s g (.mfs h f) = true →
    mfs32 s g f = some (d, v) → (∀ l, (v l).isSome = true) →
    ∃ t, exec (.mfs h f) s = .next t ∧ ranAlu s t g (.mfs h f) h d fun l => ((v l).getD 0, 0)) ∧
  (∀ (s : State) (g : Group) (h : Hdr) (f : MtsForm), runs s g (.mts h f) = true → h.ch = false →
    let i := Instr.mts h f
    (guarded g h = false → goes i s { g with pc := seqNext g.pc 8 }) ∧
    (guarded g h = true → match f with
      | .fmt a =>
        (fmtOk 0x1F (g.opnd a 0) → goes i s { g with pc := seqNext g.pc 8, fmt := fmtSet 0x1F g.fmt (g.opnd a 0) }) ∧
        (¬ fmtOk 0x1F (g.opnd a 0) → g.dep = 0 → g.sb.valid = false → traps i s g 2 0x06 1)
      | .flg a => goes i s { g with pc := seqNext g.pc 8, flg := BitVec.ofNat 32 ((g.opnd a 0).toNat % 2 ^ 7) }
      | .scr n a => goes i s { g with
          pc := seqNext g.pc 8, sb := { g.sb with scr := sset 0 g.sb.scr n.toNat (g.opnd a 0) } }
      | .hbase a =>
        (∀ c, baseOk (g.pairS a.toNat) → untainted g i → s.ctx? (s.ctxOfG g) = some c →
          ∃ t g', exec i s = .next t ∧ t.grp? s.cur = some g' ∧ passed g g' i ∧ sameOps s t ∧
            ∀ x, t.rd x = if c.savePA + 8 ≤ x ∧ x < c.savePA + 16 then
              BitVec.ofNat 8 ((g.pairS a.toNat).toNat / 2 ^ (8 * (x - (c.savePA + 8)))) else s.rd x) ∧
        (¬ baseOk (g.pairS a.toNat) → g.dep = 0 → g.sb.valid = false → traps i s g 2 0x06 1)
      | .fqbase a =>
        (∀ c, baseOk (g.pairS a.toNat) → s.faultsLeft (s.ctxOfG g) = false → untainted g i →
          s.ctx? (s.ctxOfG g) = some c →
          ∃ t g', exec i s = .next t ∧ t.grp? s.cur = some g' ∧ passed g g' i ∧ sameOps s t ∧
            ∀ x, t.rd x = if c.savePA + 16 ≤ x ∧ x < c.savePA + 24 then
              BitVec.ofNat 8 ((g.pairS a.toNat).toNat / 2 ^ (8 * (x - (c.savePA + 16)))) else s.rd x) ∧
        (¬ baseOk (g.pairS a.toNat) ∨ s.faultsLeft (s.ctxOfG g) = true → g.dep = 0 → g.sb.valid = false →
          traps i s g 2 0x06 1)))) ∧
  ((∀ (s : State) (g : Group) (h : Hdr) (b : Opnd), runs s g (.settim h b) = true → h.ch = false →
    goes (.settim h b) s { g with
      pc := seqNext g.pc 8
      timer := if guarded g h = false then g.timer else if g.opnd b 0 = 0 then none
        else some (g.gtime + BitVec.ofNat 64 (g.opnd b 0).toNat) }) ∧
  (∀ (s : State) (g : Group) (h : Hdr) (w : Word), runs s g (.settimImm h w) = true → h.ch = false →
    goes (.settimImm h w) s { g with
      pc := seqNext g.pc 12
      timer := if guarded g h = false then g.timer else if w = 0 then none
        else some (g.gtime + BitVec.ofNat 64 w.toNat) }) ∧
  (∀ (s : State) (g : Group) (d : DWord), s.grp? g.gid = some g → g.timer = some d → d.toNat ≤ g.gtime.toNat →
    g.exited = false →
    ∃ t g' x, exec (.timerExpiry g.gid) s = .next t ∧ t.grp? g.gid = some g' ∧ onlyCore s t ∧ t.ops = s.ops ∧
      t.lacc = s.lacc ∧ (∀ k, k ≠ g.gid → t.grp? k = s.grp? k) ∧ g' = { g with timer := none, pend := g.pend ++ [x] } ∧ x.cls = 6 ∧ x.sub = 1))

/-- R193, R197, R202, R203: a walk that finds a leaf puts a translation of the address into that core's cache, and one that
finds none changes nothing. An untainted `VINV` removes the translations of its scope from every cache, raises Q by one, and
leaves memory and registers alone; a `.page` address of 2^54 and above takes class 8 with cause 0x05 instead. `QUIES.old`
writes the least stamp of any access in flight, and Q when none is.
R200: `FLTQ` on an empty fault queue writes eight zero words; otherwise it writes the words of the record at FQHEAD mod 4096, and
FQHEAD rises by one. That the descriptor's fields and the ring are bytes of memory, where the model reads and writes them, is
its choice (log entries 7, 50). -/
def Obligations.TranslationMaintenance : Prop :=
  ((∀ (s : State) (core ctx va : Nat) (c : Ctx), s.ctx? ctx = some c →
    (∀ k, s.walk c va = .bad k → exec (.walkComplete core ctx va) s = .next s) ∧
    (∀ base size pa wr us ex ct, s.walk c va = .leaf base size pa wr us ex ct →
      ∃ t e rest, exec (.walkComplete core ctx va) s = .next t ∧ t = { s with tlb := e :: rest } ∧
        e.core = core ∧ e.ctx = ctx ∧ e.wr = wr ∧ e.us = us ∧ e.ex = ex ∧
        (ct = false → e.va = base ∧ e.size = size ∧ e.pa = pa) ∧
        ∀ x, x ∈ rest → x ∈ s.tlb)) ∧
  (∀ (s : State) (g : Group) (h : Hdr) (x : VScope), runs s g (.vinv h x) = true → h.ch = false →
    let i := Instr.vinv h x
    let high := match x with | .page a => decide (2 ^ 54 ≤ (g.pairS a.toNat).toNat) | _ => false
    (guarded g h = false → goes i s { g with pc := seqNext g.pc 8 }) ∧
    (guarded g h = true → high = false → untainted g i →
      ∃ t g', exec i s = .next t ∧ t.grp? s.cur = some g' ∧ passed g g' i ∧ t.q = s.q + 1 ∧ t.mem = s.mem ∧
        t.ops.map (·.id) = (s.ops.map (·.id)).filter (· != s.nextId) ∧ t.tlb = s.tlb.filter fun e => !vinvHits (s.ctxOfG g) g x e) ∧
    (guarded g h = true → high = true → g.dep = 0 → g.sb.valid = false → traps i s g 8 0x05 1)) ∧
  (∀ (s : State) (g : Group) (h : Hdr) (d : SReg), runs s g (.quiesOld h d) = true →
    ∃ x, (x = s.q ∨ x ∈ s.stamps) ∧ x.toNat ≤ s.q.toNat ∧ (∀ y ∈ s.stamps, x.toNat ≤ y.toNat) ∧
      ∃ t, exec (.quiesOld h d) s = .next t ∧ ranPair s t g (.quiesOld h d) h d x)) ∧
  (∀ (s : State) (g : Group) (h : Hdr) (d : SReg) (c : Ctx), runs s g (.fltq h d) = true → h.ch = false →
    guarded g h = true → untainted g (.fltq h d) → s.ctx? (s.ctxOfG g) = some c →
    (s.ringUsed c = 0 →
      ∃ t g', exec (.fltq h d) s = .next t ∧ t.grp? s.cur = some g' ∧ t.mem = s.mem ∧ sameOps s t ∧
        (∀ k, g'.rdS k = if d.toNat ≤ k ∧ k < d.toNat + 8 then 0 else g.rdS k) ∧
        (∀ k l, g'.rdV k l = g.rdV k l) ∧ g'.p = g.p ∧ g'.pc = seqNext g.pc 8) ∧
    (s.ringUsed c ≠ 0 → c.faults.length ≤ s.ringUsed c →
      ∃ t g', exec (.fltq h d) s = .next t ∧ t.grp? s.cur = some g' ∧ sameOps s t ∧
        (∀ bs, s.rdVA 0 c.num (s.rdNat (c.savePA + 0x10) 8 + 32 * (s.rdNat (c.savePA + 0x18) 4 % 4096)) 32 true = some bs →
          ∀ k, k < 8 → g'.rdS (d.toNat + k) = (bytesWords 8 bs).getD k 0) ∧
        t.rdNat (c.savePA + 0x18) 4 = (s.rdNat (c.savePA + 0x18) 4 + 1) % 2 ^ 32 ∧
        (∀ x, ¬ (c.savePA + 0x18 ≤ x ∧ x < c.savePA + 0x1C) → t.rd x = s.rd x) ∧
        (∀ k, ¬ (d.toNat ≤ k ∧ k < d.toNat + 8) → g'.rdS k = g.rdS k) ∧ g'.p = g.p ∧ g'.pc = seqNext g.pc 8))

/-- R218, R221: `CTXSW` answers with the code of its table in the destination, if it has one; a save of a resident context other
than the issuing one starts saving, and a restore of a saved one starts restoring while there is a place for it (a context being saved or restored takes one, log entry
114). A number that names no context is unknown. R390: in the safe state no request is accepted, and `.save` and `.rest` answer 1. -/
def Obligations.ContextSwitchAnswers : Prop :=
  ∀ (s : State) (g : Group) (i : Instr) (h : Hdr) (what : Nat) (d : Dst) (a : Opnd),
    ctxsws i = some (h, what, d, a) → (∀ v, d ≠ .v v) → runs s g i = true → h.ch = false → guarded g h = true → untainted g i →
    let n := (g.opnd a 0).toNat
    let wrote := fun (t : State) (v : Nat) => ∃ g', t.grp? s.cur = some g' ∧ (∀ k l, g'.rdV k l = g.rdV k l) ∧ g'.p = g.p ∧
      g'.pc = seqNext g.pc 8 ∧ match d with
        | .s r => ∀ k, g'.rdS k = if k = r.toNat then BitVec.ofNat 32 v else g.rdS k
        | _ => ∀ k, g'.rdS k = g.rdS k
    (s.ctx? n = none →
      ∃ t, exec i s = .next t ∧ t.ctxs = s.ctxs ∧ wrote t (if what = 2 then 0 else if s.mgmt.safe then 1 else 2)) ∧
    ∀ (c : Ctx), s.ctx? n = some c →
    let answer := fun (v : Nat) (st : CtxSt) => ∃ t c', exec i s = .next t ∧ t.ctx? n = some c' ∧ c'.st = st ∧ wrote t v
    (what = 2 → answer (match c.st with | .free => 0 | .resident => 1 | .saving => 2 | .saved => 3 | .restoring => 4) c.st) ∧
    (what ≠ 2 → s.mgmt.safe = true ∨ c.st = .saving ∨ c.st = .restoring → answer 1 c.st) ∧
    (s.mgmt.safe = false →
      (what ≠ 2 → c.st = .free → answer 2 c.st) ∧
      (what = 0 → c.st = .resident → n ≠ s.ctxOfG g → answer 0 .saving) ∧
      (what = 0 → c.st = .saved ∨ (c.st = .resident ∧ n = s.ctxOfG g) → answer 3 c.st) ∧
      (what = 1 → c.st = .resident → answer 3 c.st) ∧
      (what = 1 → c.st = .saved → s.residents < 64 → answer 0 .restoring) ∧
      (what = 1 → c.st = .saved → 64 ≤ s.residents → answer 4 .saved))

namespace Sys2Proof.Claims

/-! ## Block formats and the matrix engine -/

/-- Every lane of the group executes, as column-wise instructions ask (R158). -/
def everyLane (g : Group) (h : Hdr) : Prop := g.execMask h = fullMask g.width

/-- Column-wise instructions but `QSPLIT`: header, destination, its registers, and the string of a column (R160, R162). -/
def columns : Instr → Option (Hdr × Option VReg × Nat × (Group → Nat → Nat × BitVec 7))
  | .quant h d f src a => some (h, d, rbOf f, fun g c => blockEncode f (g.srcVals a.toNat src 16 c))
  | .dequant h d dst f a => some (h, d, rsOf dst, fun g c =>
      let r := fun j => frnd (ffmt dst) g.rnd g.fz (elemOf f (g.colString a.toNat (rbOf f) c) j).val
      (((List.range 16).map fun j => (r j).1 * 2 ^ ((ffmt dst).width * j)).sum,
        (List.range 16).foldl (fun fl j => fl ||| (r j).2) 0))
  | _ => none

/-- The 16 × nb source values of a column of `QSPLIT` (R161). -/
def chans (g : Group) (a : VReg) (src : FTy) (nb c : Nat) : List FVal := g.srcVals a.toNat src (16 * nb) c

/-- The outlier map after `QSPLIT`, bit `ch` (R161). -/
def splits (g : Group) (a : VReg) (src : FTy) (thr : Opnd) (v : VReg) (nb ch : Nat) : Bool :=
  (g.rdV v.toNat (ch / 32)).getLsbD (ch % 32) ||
    (decide (ch < 16 * nb) && outlier (fval (ffmt .f32) g.fz (g.fopnd .f32 (.inl thr) 0))
      ((List.range (g.width / 4)).map fun c => (chans g a src nb c).getD ch .nan))

/-- The values of a column after splitting, padded with +0 to 32 × nb positions (R161). -/
def splitSeq (g : Group) (a : VReg) (src : FTy) (thr : Opnd) (v : VReg) (nb c : Nat) : List FVal :=
  let e := (List.range (16 * nb)).flatMap fun ch =>
    let y := (chans g a src nb c).getD ch (.zero false)
    if splits g a src thr v nb ch then [y.half, y.half] else [y]
  e ++ List.replicate (32 * nb - e.length) (.zero false)

/-- The matrix instructions: header, operands, register step and whether it is `MSTEP` (R146). -/
def matrices : Instr → Option (Hdr × MOps × Nat × Bool)
  | .mloop h m b => some (h, m, b.toNat, false)
  | .mstep h m => some (h, m, 0, true)
  | _ => none

/-- The state in which the effect of `i` is worked out: CTL has grown (R288). -/
def grown (s : State) (g : Group) (i : Instr) : State := s.setG { g with ctl := g.ctlAfter (infoOf g.fmt i) }

/-- The issue of `i` into its quad by the current group (R147). -/
def mIssueOf (s : State) (g : Group) (i : Instr) (m : MOps) (b : Nat) (step : Bool) : MIssue :=
  (s.icOf g (infoOf g.fmt i)).mIssue s.nextId (g.num % 4) m b step

/-- Every member of a quad that has not exited has the traps `cls`, `sub` pending at the end of its list. -/
def quadTrapped (s t : State) (tid j cls sub : Nat) : Prop :=
  ∀ m ∈ s.quadMembers tid j, ∀ g, s.grp? m.gid = some g → g.exited = false →
    ∃ g' l, t.grp? m.gid = some g' ∧ g'.pend = g.pend ++ l ∧ l ≠ [] ∧ ∀ r ∈ l, r.cls = cls ∧ r.sub = sub

/-- The sets of quad `j` of a team are `qs`. -/
def hasSets (t : State) (tid j : Nat) (qs : List MSet) : Prop := ∃ u, t.team? tid = some u ∧ (u.quad j).sets = qs

/-- Two issues of a set agree in what R148 makes equal. -/
def alike (a b : MIssue) : Prop :=
  a.step = b.step ∧ a.null = b.null ∧ a.n = b.n ∧ a.ac = b.ac ∧ a.af = b.af ∧ a.bf = b.bf ∧ a.acc = b.acc ∧
    a.map = b.map ∧ a.klen = b.klen

/-- An accepted combination of formats (R142). -/
def accepted (m : MIssue) : Prop :=
  match m.acc with
  | .fp32 => m.af = .int8 ↔ m.bf = .int8
  | .int32 => m.af = .int8 ∧ m.bf = .int8

/-- The check of a starting set that has this subcode fails (R148). -/
def failing (u : Team) (ms : List MIssue) (sub : Nat) : Prop :=
  let reads := fun (m : MIssue) => m.step = true ∨ m.n ≠ 0
  match sub with
  | 0x01 => ∃ a ∈ ms, ∃ b ∈ ms, ¬ alike a b
  | 0x0A => ∃ m ∈ ms, m.partGuard = true
  | 0x03 => ∃ m ∈ ms, ¬ accepted m
  | 0x04 => ∃ m ∈ ms, (if m.step then 31 else 32) < m.n
  | 0x05 => ∃ m ∈ ms, ∃ r ∈ m.cRegs, r ∈ m.bRegs
  | 0x06 => ∃ m ∈ ms, reads m ∧ (m.aaddr % 4 ≠ 0 ∨ m.astride % 4 ≠ 0 ∨ ∃ x ∈ m.fetch m.ks, u.wbytes < x.1 + x.2)
  | 0x07 => ∃ m ∈ ms, reads m ∧ ∃ x ∈ m.fetch m.ks, ∃ k ∈ unitsOf 4096 x.1 x.2, u.owner .w k ≠ .engine
  | _ => False

/-- The first check that fails, in the order of R148. -/
def firstFails (u : Team) (ms : List MIssue) (sub : Nat) : Prop :=
  ∃ pre post, [0x01, 0x0A, 0x03, 0x04, 0x05, 0x06, 0x07] = pre ++ sub :: post ∧ failing u ms sub ∧ ∀ x ∈ pre, ¬ failing u ms x

/-- The B elements of one of a quad's 64 columns: those of the member of its quarter (R141, R149). -/
def quadCols (s : State) (x : MSet) (k col : Nat) : List Elem :=
  match (x.issues.find? fun y => y.quarter == col / 16).map fun y => (y, s.grp? y.gid) with
  | some (y, some g) => bCol g y (col % 16) k
  | _ => []

/-- A member's accumulator after K-step `k`, with the flags raised (R149). -/
def stepped (s : State) (u : Team) (x : MSet) (m : MIssue) (g : Group) (k row col : Nat) : Word × BitVec 7 :=
  kUpdate m (g.rdV (m.vc + row) col) (aRow u m row k) (quadCols s x k col)

/-- The flags that a member's part of K-step `k` raises. -/
def stepFlags (s : State) (u : Team) (x : MSet) (m : MIssue) (g : Group) (k : Nat) : BitVec 7 :=
  (List.range 16).foldl (fun a row => (List.range 64).foldl (fun a col => a ||| (stepped s u x m g k row col).2) a) 0

/-- The C ranges of issues that are not null, nor taken back by a denial, read 0x7FC0_0000 in every lane (R151). -/
def wiped (t : State) (ms : List MIssue) : Prop :=
  ∀ m ∈ ms, m.null = false → m.suppressed = false → ∀ g', t.grp? m.gid = some g' → ∀ r l, r < 16 → l < 64 → g'.rdV (m.vc + r) l = 0x7FC00000

end Sys2Proof.Claims


/-- R158, R160-R162: with every lane executing, `QUANT` and `DEQUANT` write each column's string into the destination range;
`QSPLIT` adds to its map the channels that reach the threshold and writes each column's blocks of the split sequence; no other
register changes. With no lane executing nothing changes; with some, the group takes class 2, subcode 0x13; and `QSPLIT`
under a BFMT that is no block format takes class 2, subcode 0x12 where some lane executes.
R154-R156: `MZERO` clears the executing lanes of its registers when they are free, and takes class 2, subcode 0x01 on a
range beyond VREGS; `MDUP` counts the K-steps or the position of a column under the duplication map; `MQRY` reads the quad's
state, with bit 7 while a reset of its arrays is in progress (how long is log entry 56), and of a group in no quad its sub-core
alone. -/
def Obligations.BlockFormatResults : Prop :=
  ((∀ (s : State) (g : Group) (i : Instr) (h : Hdr) (d : Option VReg) (rb : Nat) (f : Group → Nat → Nat × BitVec 7),
    columns i = some (h, d, rb, f) → runs s g i = true →
    (everyLane g h → guarded g h = true → ∃ t g', exec i s = .next t ∧ t.grp? s.cur = some g' ∧ onlyGroup s t s.cur ∧
      keepsAlu g g' ∧ g'.s = g.s ∧ retires g g' i h ∧
      g'.flg = g.flg ||| ((List.range (g.width / 4)).foldl (fun a c => a ||| (f g c).2) 0).setWidth 32 ∧
      (∀ k l, l < 64 → (∀ v, d = some v → ¬ (v.toNat ≤ k ∧ k < v.toNat + rb)) → g'.rdV k l = g.rdV k l) ∧
      ∀ v c, d = some v → c < g.width / 4 → c < 16 → g'.colString v.toNat rb c = (f g c).1 % 2 ^ (128 * rb)) ∧
    (g.execMask h = 0 → ∃ t g', exec i s = .next t ∧ t.grp? s.cur = some g' ∧ onlyGroup s t s.cur ∧ keepsRegs g g' ∧
      retires g g' i h) ∧
    (g.execMask h ≠ 0 → ¬ everyLane g h → g.dep = 0 → g.sb.valid = false → traps i s g 2 0x13 (g.execMask h))) ∧
  (∀ (s : State) (g : Group) (h : Hdr) (d : Option VReg) (src : FTy) (a : VReg) (thr : Opnd) (v : VReg) (nb1 : BitVec 4),
    let i := Instr.qsplit h d src a thr v nb1
    let nb := nb1.toNat + 1
    let rb := rbOf (bfmtOf g.fmt)
    (isBlock (bfmtOf g.fmt) = true → runs s g i = true → everyLane g h → guarded g h = true →
      ∃ t g', exec i s = .next t ∧ t.grp? s.cur = some g' ∧ onlyGroup s t s.cur ∧ keepsAlu g g' ∧ g'.s = g.s ∧
        (∀ ch, ch < 256 → (g'.rdV v.toNat (ch / 32)).getLsbD (ch % 32) = splits g a src thr v nb ch) ∧
        (∀ k l, l < 64 → k ≠ v.toNat → (∀ x, d = some x → ¬ (x.toNat ≤ k ∧ k < x.toNat + 2 * nb * rb)) →
          g'.rdV k l = g.rdV k l) ∧
        ∀ x b c, d = some x → b < 2 * nb → c < g.width / 4 → c < 16 →
          ¬ (x.toNat + b * rb ≤ v.toNat ∧ v.toNat < x.toNat + b * rb + rb) →
          g'.colString (x.toNat + b * rb) rb c =
            (blockEncode (bfmtOf g.fmt) (((splitSeq g a src thr v nb c).drop (16 * b)).take 16)).1 % 2 ^ (128 * rb)) ∧
    (isBlock (bfmtOf g.fmt) = true → runs s g i = true →
      (g.execMask h = 0 → ∃ t g', exec i s = .next t ∧ t.grp? s.cur = some g' ∧ onlyGroup s t s.cur ∧ keepsRegs g g' ∧
        retires g g' i h) ∧
      (g.execMask h ≠ 0 → ¬ everyLane g h → g.dep = 0 → g.sb.valid = false → traps i s g 2 0x13 (g.execMask h))) ∧
    (isBlock (bfmtOf g.fmt) = false → s.grp? s.cur = some g → s.ready g (infoOf g.fmt i) = true →
      (guarded g h = true → g.dep = 0 → g.sb.valid = false → traps i s g 2 0x12 (g.execMask h)) ∧
      (guarded g h = false → s.issueTrap g { infoOf g.fmt i with reads := rOp thr, writes := [] } = none →
        ∃ t g', exec i s = .next t ∧ t.grp? s.cur = some g' ∧ onlyGroup s t s.cur ∧ keepsRegs g g' ∧ retires g g' i h)))) ∧
  ((∀ (s : State) (g : Group) (h : Hdr) (d : VReg) (n : Opnd), runs s g (.mzero h d n) = true → h.ch = false →
    let k := (g.opnd n 0).toNat
    (k < 2 ^ 31 → d.toNat + k ≤ g.vregs → s.regsFree g ((List.range k).map fun i => .v (d.toNat + i)) = true →
      ∃ t g', exec (.mzero h d n) s = .next t ∧ t.grp? s.cur = some g' ∧ onlyGroup s t s.cur ∧ keepsAlu g g' ∧
        g'.s = g.s ∧ g'.flg = g.flg ∧ g'.pc = seqNext g.pc 8 ∧
        ∀ r l, l < 64 → g'.rdV r l =
          if d.toNat ≤ r ∧ r < d.toNat + k ∧ (g.execMask h).getLsbD l = true then 0 else g.rdV r l) ∧
    (2 ^ 31 ≤ k ∨ g.vregs < d.toNat + k → guarded g h = true → g.dep = 0 → g.sb.valid = false →
      traps (.mzero h d n) s g 2 0x01 (g.execMask h))) ∧
  (∀ (s : State) (g : Group) (h : Hdr) (d : Dst) (pos : Bool) (m : SReg) (b : Opnd), runs s g (.mdup h d pos m b) = true →
    let n := (g.opnd b 0).toNat
    let x := n + ((List.range (min n 256)).filter fun c => (g.rdS (m.toNat + c / 32)).getLsbD (c % 32)).length
    ∃ t, exec (.mdup h d pos m b) s = .next t ∧ ranAlu s t g (.mdup h d pos m b) h d fun _ =>
      (BitVec.ofNat 32 (if pos then x else (x + 15) / 16), 0)) ∧
  (∀ (s : State) (g : Group) (h : Hdr) (d : Dst) (u : Team), runs s g (.mqry h d) = true → s.team? g.tid = some u →
    ∃ t, exec (.mqry h d) s = .next t ∧ ranAlu s t g (.mqry h d) h d fun _ =>
      (BitVec.ofNat 32 (match (grown s g (.mqry h d)).quadOf g with
        | none => 2 ^ 8 * (g.num % 4)
        | some j => (match (u.quad j).sets.find? (fun x => x.issues.any fun m => m.gid == g.gid) with
            | some x => if x.started then x.kdone else 2 ^ 6
            | none => 0) + (if (u.quad j).reset.isSome then 2 ^ 7 else 0) + 2 ^ 8 * (g.num % 4) + 2 ^ 10 + 2 ^ 11 * j), 0)))


/-- R141, R147, R148: an `MLOOP` or `MSTEP` of a quad member whose ranges fit, and whose C and B registers no earlier work
holds, issues into the quad's next set of that member, with the masks of the W lines it reads, and is counted on path M; a
group that is in no quad takes class 11, subcode 0x02 (its LANES are log entry 11), and a range beyond VREGS class 2, subcode
0x01, also where no lane executes (log entry 113). No register, flag or memory changes.
R142, R148-R151, R157, R220: a quad's oldest set starts when all four members have issued into it and no check fails, completes
at once when all four issues are null or no K-step is asked for, and is discarded with class 11 at the first check that fails;
a K-step updates every accumulator of every member from the sixteen products of its row and column, in the accumulation
format, and no other register; the flags reach `%flg` with the last K-step; a reset, by the stall count or by `MRESET`, sets
the C ranges to 0x7FC0_0000, drops the sets, leaves class 11 pending in the members, and holds back the other groups of the core
until it ends (its length is log entry 56). R152: a K-step that reads a poisoned W byte, or a register line poisoned since the
issue (log entry 107), writes no accumulator by its products: the C ranges become 0x7FC0_0000, the sets are discarded and the
members take class 12, subcode 0x05 or 0x01. R222: an issue that would read or keep a poisoned line of any of its registers traps with class
12, subcode 0x01, first. -/
def Obligations.MatrixIssueEffects : Prop :=
  (∀ (s : State) (g : Group) (i : Instr) (h : Hdr) (m : MOps) (b : Nat) (step : Bool) (u : Team),
    matrices i = some (h, m, b, step) → runs s g i = true → h.ch = false → s.team? g.tid = some u →
    let x := mIssueOf s g i m b step
    (∀ j, (grown s g i).quadOf g = some j → x.rangeOk g.vregs = true → s.regsFree g x.cRegs = true → s.regsRead g x.bRegs = true →
      g.readsPoison (x.cRegs ++ x.bRegs) = false →
      let lt := if x.n ≤ 32 then x.lineTags u x.ks else 0
      let ix := (u.quad j).nextSet.getD (g.num % 4) 0
      ((u.quad j).dead.contains ix = false →
        ∃ t g' qs, exec i s = .next t ∧ t.grp? s.cur = some g' ∧ keepsRegs g g' ∧ g'.pc = seqNext g.pc 16 ∧
          t.mem = s.mem ∧ g'.pathCount .M = g.pathCount .M + 1 ∧ hasSets t g.tid j qs ∧
          (∀ y ∈ (u.quad j).sets, y.index ≠ ix → y ∈ qs) ∧
          ∃ y ∈ qs, y.index = ix ∧ { x with tag := x.tag ||| lt } ∈ y.issues) ∧
      ((u.quad j).dead.contains ix = true →
        ∃ t g', exec i s = .next t ∧ t.grp? s.cur = some g' ∧ keepsRegs g g' ∧ g'.pc = seqNext g.pc 16 ∧
          t.mem = s.mem ∧ hasSets t g.tid j (u.quad j).sets)) ∧
    (∀ j, (grown s g i).quadOf g = some j → x.rangeOk g.vregs = false → g.dep = 0 → g.sb.valid = false →
      traps i s g 2 0x01 (if guarded g h then g.execMask h else g.mask)) ∧
    (∀ j, (grown s g i).quadOf g = some j → x.rangeOk g.vregs = true → s.regsFree g x.cRegs = true → s.regsRead g x.bRegs = true →
      g.readsPoison (x.cRegs ++ x.bRegs) = true → g.dep = 0 → g.sb.valid = false → traps i s g 12 0x01 g.mask) ∧
    ((grown s g i).quadOf g = none → g.dep = 0 → g.sb.valid = false → traps i s g 11 0x02 g.mask)) ∧
  ((∀ (s : State) (tid j : Nat) (u : Team) (x : MSet) (rest : List MSet), s.team? tid = some u → (u.quad j).sets = x :: rest →
    x.started = false → x.issues.length = 4 → s.resident u.ctx = true →
    (x.issues.all (·.null) = true → ∃ t, exec (.setStart tid j) s = .next t ∧ hasSets t tid j rest ∧ t.mem = s.mem) ∧
    (x.issues.all (·.null) = false → (∀ k, ¬ failing u x.issues k) →
      ((∃ m ∈ x.issues, m.ks ≠ []) → ∃ t, exec (.setStart tid j) s = .next t ∧
        hasSets t tid j ({ x with started := true } :: rest) ∧ t.groups = s.groups ∧ t.mem = s.mem) ∧
      ((∀ m ∈ x.issues, m.ks = []) → ∃ t, exec (.setStart tid j) s = .next t ∧ hasSets t tid j rest ∧ t.mem = s.mem)) ∧
    (∀ sub, x.issues.all (·.null) = false → firstFails u x.issues sub →
      ∃ t, exec (.setStart tid j) s = .next t ∧ hasSets t tid j [] ∧ quadTrapped s t tid j 11 sub ∧ t.mem = s.mem)) ∧
  (∀ (s : State) (tid j k : Nat) (u : Team) (x : MSet) (rest : List MSet) (m0 : MIssue) (ms : List MIssue),
    s.team? tid = some u → (u.quad j).sets = x :: rest → x.started = true → s.resident u.ctx = true →
    x.issues = m0 :: ms → m0.ks[x.kdone]? = some k → (x.issues.map (·.gid)).Nodup →
    (poisonAt u x.issues k ≠ none ∨ s.regPoison x.issues k = true →
      ∃ t, exec (.kStep tid j) s = .next t ∧ hasSets t tid j [] ∧ t.mem = s.mem ∧ wiped t x.issues ∧
        quadTrapped s t tid j 12 (if poisonAt u x.issues k = none then 0x01 else 0x05)) ∧
    (poisonAt u x.issues k = none → s.regPoison x.issues k = false →
    let last := x.kdone + 1 = m0.ks.length
    ∃ t qs, exec (.kStep tid j) s = .next t ∧ t.mem = s.mem ∧ hasSets t tid j qs ∧ (last → qs = rest) ∧
      (¬ last → ∃ y, qs = y :: rest ∧ y.index = x.index ∧ y.started = true ∧ y.kdone = x.kdone + 1 ∧
        y.issues.map (fun m => { m with flags := 0, tag := 0 }) = x.issues.map fun m => { m with flags := 0, tag := 0 }) ∧
      ∀ m ∈ x.issues, ∀ g, s.grp? m.gid = some g → ∃ g', t.grp? m.gid = some g' ∧ g'.s = g.s ∧ g'.p = g.p ∧
        g'.flg = (if last then g.flg ||| (m.flags ||| stepFlags s u x m g k).setWidth 32 else g.flg) ∧
        ∀ r l, l < 64 → g'.rdV r l = if m.suppressed = false ∧ m.vc ≤ r ∧ r < m.vc + 16
          then (stepped s u x m g k (r - m.vc) l).1 else g.rdV r l)) ∧
  (∀ (s : State) (tid j : Nat) (u : Team), s.team? tid = some u →
    ((∃ x rest, (u.quad j).sets = x :: rest ∧ 2 ^ 20 ≤ (u.quad j).stall ∧ 2 ^ 20 ≤ x.waited) → (u.quad j).reset = none → s.resident u.ctx = true →
      ∃ t u', exec (.arrayReset tid j) s = .next t ∧ hasSets t tid j [] ∧ t.mem = s.mem ∧
        wiped t ((u.quad j).sets.flatMap (·.issues)) ∧ quadTrapped s t tid j 11 0x08 ∧
        t.team? tid = some u' ∧ (u'.quad j).reset = some ((s.quadMembers tid j).map (·.gid))) ∧
    (∀ ms, (u.quad j).reset = some ms → ∃ t u', exec (.arrayReset tid j) s = .next t ∧ t.groups = s.groups ∧
      t.team? tid = some u' ∧ u'.quad j = { u.quad j with reset := none, resetBy := none })) ∧
  (∀ (s : State) (g : Group) (f : Info) (u : Team) (q : Quad) (ms : List Nat), u ∈ s.teams → u.core = g.core →
    s.holds u.tid = true → q ∈ u.quads → q.reset = some ms → g.gid ∉ ms ∨ q.resetBy = some g.gid → s.ready g f = false) ∧
  (∀ (s : State) (g : Group) (h : Hdr) (a : Opnd), runs s g (.mreset h a) = true → h.ch = false → guarded g h = true →
    untainted g (.mreset h a) →
    let s0 := grown s g (.mreset h a)
    let there := s0.groups.find? fun y => y.core == g.core && y.slot == (g.opnd a 0).toNat && !y.ended && s0.holds y.tid
    (∀ x j u, there = some x →
      s0.quadOf x = some j → s.team? x.tid = some u → (u.quad j).sets ≠ [] →
      ∃ t g', exec (.mreset h a) s = .next t ∧ t.grp? s.cur = some g' ∧ g'.pc = seqNext g.pc 8 ∧
        hasSets t x.tid j [] ∧ wiped t ((u.quad j).sets.flatMap (·.issues)) ∧ quadTrapped s0 t x.tid j 11 0x09 ∧
        ∃ u', t.team? x.tid = some u' ∧ (u'.quad j).resetBy = some g.gid) ∧
    (there = none ∨ (∃ x, there = some x ∧ s0.quadOf x = none) →
      ∃ t g', exec (.mreset h a) s = .next t ∧ t.grp? s.cur = some g' ∧ passed g g' (.mreset h a) ∧ t.teams = s.teams)))

namespace Sys2Proof.Claims

/-! ## Local buffers -/

/-- Local loads and stores: header, buffer, type, base, offset, and a store's data or a load's destination (R131). -/
def locals : Instr → Option (Hdr × Buf × LTy × Opnd × Opnd × Sum Opnd Dst)
  | .ldx h d ty a b => some (h, .x, ty, a, b, .inr d)
  | .ldw h d ty a b => some (h, .w, ty, a, b, .inr d)
  | .stx h x ty a b => some (h, .x, ty, a, b, .inl x)
  | .stw h x ty a b => some (h, .w, ty, a, b, .inl x)
  | _ => none

/-- Bytes of a local type (R131). -/
def bytesOf : LTy → Nat
  | .n32 => 4
  | .i8 | .n8 => 1
  | .i16 | .n16 => 2

/-- The address of R132: uint(A) of lane 0 + o, where o is sint of a short immediate and uint of a register or latch. -/
def effAddr (g : Group) (a b : Opnd) (l : Nat) : Int :=
  ((g.opnd a 0).toNat : Int) + match b with | .imm x => x.toInt | _ => ((g.opnd b l).toNat : Int)

/-- Evaluating lanes for which a test holds. -/
def lanesThat (g : Group) (i : Instr) (h : Hdr) (p : Nat → Bool) : Mask :=
  maskOf 64 fun l => (evalsIn g i h).contains l && p l

/-- A new local access of the group, due as R133 says; a chain that ends lets the loads before it go on without latches. -/
def queuedAcc (s t : State) (g : Group) (x : LAcc) : Prop :=
  ∃ pre, t.lacc = pre ++ [x] ∧ pre.map (fun y => { y with chain := none }) = s.lacc.map (fun y => { y with chain := none }) ∧
    x.gid = g.gid ∧ x.tid = g.tid ∧ x.core = g.core ∧ x.sub = g.num % 4 ∧ x.suppressed = false

/-- Order of the instants of one core (R133): cycle, then sub-core, then issue order. -/
def comesFirst (a b : LAcc) : Prop :=
  a.due < b.due ∨ (a.due = b.due ∧ (a.sub < b.sub ∨ (a.sub = b.sub ∧ a.id < b.id)))

/-- The next access of a core: its instant has come and no other access of the core comes before it. -/
def nextAcc (s : State) (core : Nat) (a : LAcc) : Prop :=
  a ∈ s.lacc ∧ a.core = core ∧ (∀ b ∈ s.lacc, b.core = core → b = a ∨ comesFirst a b) ∧
    a.due ≤ sget 0 s.cycles (core * 4 + a.sub) ∧ a.suppressed = false

/-- The byte that a store leaves at an offset: that of the highest lane that writes it (R132). -/
def storedByte (a : LAcc) (old : Byte) (o : Nat) : Byte :=
  match a.lanes.reverse.find? fun x => decide (x.2.1 ≤ o ∧ o < x.2.1 + bytesOf a.ty) with
  | some x => BitVec.ofNat 8 (x.2.2.toNat / 2 ^ (8 * (o - x.2.1)))
  | none => old

/-- A loaded element, sign- or zero-extended under its type (R132). -/
def loadedWord (ty : LTy) (t : Team) (b : Buf) (o : Nat) : Word :=
  let v := ((List.range (bytesOf ty)).map fun k => (t.rd b (o + k)).toNat * 2 ^ (8 * k)).sum
  match ty with
  | .i8 => BitVec.ofInt 32 (if v < 2 ^ 7 then (v : Int) else v - 2 ^ 8)
  | .i16 => BitVec.ofInt 32 (if v < 2 ^ 15 then (v : Int) else v - 2 ^ 16)
  | _ => BitVec.ofNat 32 v

/-- No other group of the team waits in `TGIVE` or `TTAKE`. -/
def noWaiter (s : State) (g : Group) : Prop :=
  ∀ y ∈ s.groups, y.tid = g.tid → y = g ∨
    ∀ b f n a q, y.park ≠ some (.tgive b f n a q) ∧ y.park ≠ some (.ttake b f n q)

/-- `TGIVE` and `TTAKE`: header, whether it gives, buffer, base and count. -/
def flips : Instr → Option (Hdr × Bool × Buf × Opnd × Opnd)
  | .tgive h b a n => some (h, true, b, a, n)
  | .ttake h b a n => some (h, false, b, a, n)
  | _ => none

/-- Buffers and everything but tile owners and the undo log of a team stay. -/
def keepsTiles (u u' : Team) : Prop := u' = { u with xown := u'.xown, wown := u'.wown, undo := u'.undo }

/-- A team that keeps everything but its buffers, their tags and poison, and its undo log. -/
def keepsButBuffers (u u' : Team) : Prop :=
  u' = { u with x := u'.x, w := u'.w, xtag := u'.xtag, wtag := u'.wtag, xpoison := u'.xpoison, wpoison := u'.wpoison, undo := u'.undo }

/-- A group that keeps everything but what a load's result and the masks it brings reach: registers with their tags and
poison, latches, DEP and snapshots. -/
def keepsButLoad (g g' : Group) : Prop :=
  g' = { g with v := g'.v, vtag := g'.vtag, s := g'.s, stag := g'.stag, poison := g'.poison, latches := g'.latches
                sb := { g.sb with latches := g'.sb.latches }, snaps := g'.snaps, dep := g'.dep }

end Sys2Proof.Claims

/-- R131-R133: a local access is checked over every evaluating lane before any effect, in the order range (class 3),
alignment (class 2, 0x11), owner (class 2, 0x10); then it is on its way, due 4 cycles later for X and 6 for W, with the
addresses and store data of its lanes, and no register, flag or buffer has changed. -/
def Obligations.LocalAccessIssue : Prop :=
  ∀ (s : State) (g : Group) (i : Instr) (h : Hdr) (b : Buf) (ty : LTy) (x y : Opnd) (what : Sum Opnd Dst) (u : Team),
    locals i = some (h, b, ty, x, y, what) → runs s g i = true → s.team? g.tid = some u →
    let e := effAddr g x y
    let size := if b = .x then u.xbytes else u.wbytes
    let c1 := lanesThat g i h fun l => decide (e l < 0 ∨ (size : Int) < e l + bytesOf ty)
    let c2 := lanesThat g i h fun l => decide (e l % (bytesOf ty : Int) ≠ 0)
    let c3 := lanesThat g i h fun l => decide (u.owner b ((e l).toNat / 4096) ≠ .group)
    (g.dep = 0 → g.sb.valid = false →
      (c1 ≠ 0 → traps i s g 3 (if b = .x then 1 else 2) c1) ∧
      (c1 = 0 → c2 ≠ 0 → traps i s g 2 0x11 c2) ∧
      (c1 = 0 → c2 = 0 → c3 ≠ 0 → traps i s g 2 0x10 c3)) ∧
    (c1 = 0 → c2 = 0 → c3 = 0 → (what.isLeft = true → untainted g i) →
      ∃ t g', exec i s = .next t ∧ t.grp? s.cur = some g' ∧ keepsRegs g g' ∧ retires g g' i h ∧
        t = { s with groups := t.groups, lacc := t.lacc, nextId := t.nextId } ∧ (∀ k, k ≠ s.cur → t.grp? k = s.grp? k) ∧
        (evalsIn g i h = [] → t.lacc.map (·.id) = s.lacc.map (·.id)) ∧
        (evalsIn g i h ≠ [] → ∃ a, queuedAcc s t g a ∧ a.buf = b ∧ a.ty = ty ∧ a.atom = none ∧ a.store = what.isLeft ∧
          a.due = s.cycleOf g + (if b = .x then 4 else 6) ∧
          match what with
          | .inl d => a.lanes = (evalsIn g i h).map fun l => (l, (e l).toNat, g.opnd d l)
          | .inr d => a.dst = d ∧ a.lanes.map (fun z => (z.1, z.2.1)) = (evalsIn g i h).map fun l => (l, (e l).toNat)))


/-- R132, R133: accesses of one core are performed in the order of their instants; a store writes its bytes, the highest
lane's where lanes overlap; a load writes each lane's element as the buffer holds it at that instant; nothing else changes but
tags and poison, and tags only under a tag.
R135, R136: `TGIVE` and `TTAKE` check their base and range, do nothing for a count of 0 or for tiles that have the
target owner, and else make the other tiles pending and wait; the tiles flip and the wait ends when no access or engine
still uses them. That a base off its
4 KiB boundary traps for a count of 0 too is log entry 92, the model's choice. -/
def Obligations.LocalAccessPerformance : Prop :=
  (∀ (s : State) (core : Nat) (a : LAcc) (u : Team), nextAcc s core a → a.atom = none → s.team? a.tid = some u →
    (a.store = true → ∃ t u', exec (.localAccessPerformed core) s = .next t ∧ t.team? a.tid = some u' ∧
      t = { s with teams := t.teams, lacc := s.lacc.filter fun y => y.id != a.id } ∧
      (∀ k, k ≠ a.tid → t.team? k = s.team? k) ∧
      (∀ o, u'.rd a.buf o = storedByte a (u.rd a.buf o) o) ∧ (∀ b o, b ≠ a.buf → u'.rd b o = u.rd b o) ∧
      keepsButBuffers u u' ∧ (a.tag = 0 → u'.xtag = u.xtag ∧ u'.wtag = u.wtag ∧ u'.undo = u.undo) ∧
      ∀ b k, k ∈ u'.poisonOf b → k ∈ u.poisonOf b) ∧
    (∀ g, a.store = false → s.grp? a.gid = some g → (∀ x ∈ a.lanes, u.poisoned a.buf x.2.1 (bytesOf a.ty) = false) →
      ∃ t g', exec (.localAccessPerformed core) s = .next t ∧ t.grp? a.gid = some g' ∧
        t = { s with groups := t.groups, lacc := s.lacc.filter fun y => y.id != a.id } ∧
        (∀ k, k ≠ a.gid → t.grp? k = s.grp? k) ∧ keepsButLoad g g' ∧
        ((∀ x ∈ a.lanes, u.rangeTag a.buf x.2.1 (bytesOf a.ty) = 0) → g'.dep = g.dep) ∧
        (∀ k, g'.rdS k = match a.dst, a.lanes.head? with
          | .s n, some x => if k = n.toNat then loadedWord a.ty u a.buf x.2.1 else g.rdS k
          | _, _ => g.rdS k) ∧
        ∀ k l, l < 64 → g'.rdV k l = match a.dst, a.lanes.find? (fun x => x.1 == l) with
          | .v n, some x => if k = n.toNat then loadedWord a.ty u a.buf x.2.1 else g.rdV k l
          | _, _ => g.rdV k l)) ∧
  ((∀ (s : State) (g : Group) (i : Instr) (h : Hdr) (give : Bool) (b : Buf) (x y : Opnd) (u : Team),
    flips i = some (h, give, b, x, y) → runs s g i = true → h.ch = false → s.team? g.tid = some u →
    let base := (g.opnd x 0).toNat
    let n := (g.opnd y 0).toNat
    let size := if b = .x then u.xbytes else u.wbytes
    let mine := fun k => base / 4096 ≤ k ∧ k < base / 4096 + n
    let target : Owner := if give then .engine else .group
    (guarded g h = false → goes i s { g with pc := seqNext g.pc 8 }) ∧
    (guarded g h = true → g.dep = 0 → g.sb.valid = false →
      (base % 4096 ≠ 0 → traps i s g 2 0x11 1) ∧
      (base % 4096 = 0 → n ≠ 0 → 2 ^ 31 ≤ n ∨ size < base + n * 4096 → traps i s g 3 (if b = .x then 1 else 2) 1)) ∧
    (guarded g h = true → base % 4096 = 0 → n = 0 → goes i s { g with pc := seqNext g.pc 8 }) ∧
    (guarded g h = true → base % 4096 = 0 → n < 2 ^ 31 → base + n * 4096 ≤ size → g.dep = 0 → noWaiter s g →
      ((∀ k, mine k → u.owner b k = target) → goes i s { g with pc := seqNext g.pc 8 }) ∧
      (¬ (∀ k, mine k → u.owner b k = target) → ∃ t g' u', exec i s = .next t ∧ t.grp? s.cur = some g' ∧
        t.team? g.tid = some u' ∧ t = { s with groups := t.groups, lacc := t.lacc, teams := t.teams, nextId := t.nextId } ∧
        keepsTiles u u' ∧ keepsRegs g g' ∧ g'.pc = seqNext g.pc 8 ∧
        (∃ acc q, g'.park = some (if give then .tgive b (base / 4096) n acc q else .ttake b (base / 4096) n q)) ∧
        (∀ k, (mine k → u.owner b k = target) → u'.owner b k = u.owner b k) ∧
        (∀ k, mine k → u.owner b k ≠ target → u'.owner b k = if give then .pendingEngine else .pendingGroup) ∧
        ∀ k c, c ≠ b → u'.owner c k = u.owner c k))) ∧
  (∀ (s : State) (g : Group) (u : Team) (b : Buf) (f n q : Nat), s.grp? g.gid = some g → s.team? g.tid = some u →
    noWaiter s g →
    let flipped := fun (t : State) (o : Owner) => ∃ g' u', t.grp? g.gid = some g' ∧ t.team? g.tid = some u' ∧
      t = { s with groups := t.groups, teams := t.teams } ∧ g' = { g with park := none } ∧ keepsTiles u u' ∧
      ∀ k c, u'.owner c k = if c = b ∧ f ≤ k ∧ k < f + n then o else u.owner c k
    (∀ acc, g.park = some (.tgive b f n acc q) → (∀ a ∈ s.lacc, a.id ∉ acc) →
      ∃ t, exec (.tgiveFlip g.gid) s = .next t ∧ flipped t .engine) ∧
    (g.park = some (.ttake b f n q) → s.holds g.tid = true → (∀ k, f ≤ k → k < f + n → s.tileBusy u b k = false) →
      ∃ t, exec (.ttakeFlip g.gid) s = .next t ∧ flipped t .group)))

/-- R140: `WAITP` goes on at once when the counter of its path is at most its bound, and else parks the group; `PCNT` writes
the counter. -/
def Obligations.PathCounterInstructions : Prop :=
  (∀ (s : State) (g : Group) (h : Hdr) (p : Path) (x : Opnd), runs s g (.waitp h p x) = true → h.ch = false →
    let met := g.pathCount p ≤ (g.opnd x 0).toNat
    (guarded g h = false ∨ met → goes (.waitp h p x) s { g with pc := seqNext g.pc 8 }) ∧
    (guarded g h = true → ¬ met → goes (.waitp h p x) s { g with
      pc := seqNext g.pc 8, park := some (.waitp p (g.opnd x 0).toNat) })) ∧
  (∀ (s : State) (g : Group) (h : Hdr) (d : Dst) (p : Path), runs s g (.pcnt h d p) = true →
    ∃ t, exec (.pcnt h d p) s = .next t ∧ ranAlu s t g (.pcnt h d p) h d fun _ =>
      (BitVec.ofNat 32 (g.inFlight.filter fun e => e.path == p).length, 0))

namespace Sys2Proof.Claims

/-! ## Copies, reductions, gathers -/

/-- The shape in eight scalars from `m` (R166). -/
def shapeAt (g : Group) (m : Nat) (d3 : Bool) : Shape where
  len := (g.rdS m).toNat
  rows := (g.rdS (m + 1)).toNat
  planes := if d3 then (g.rdS (m + 2)).toNat else 1
  ers := (g.rdS (m + 3)).toInt
  eps := if d3 then (g.rdS (m + 4)).toInt else 0
  lrs := (g.rdS (m + 5)).toNat
  lps := if d3 then (g.rdS (m + 6)).toNat else 0

/-- One row of `n` bytes (R166). -/
def oneRow (g : Group) (n : CopyLen) : Shape :=
  ⟨match n with | .opnd o => (g.opnd o 0).toNat | .ext w => w.toNat, 1, 1, 0, 0, 0, 0⟩

/-- External base, shape, reserved scalar and record of a copy; none where `.rec` names no live record (R165-R167). -/
def copyFrom (u : Team) (g : Group) (ext : SReg) : CopyShape → Option (Nat × Shape × Word × Option Nat)
  | .d1 n => some ((g.pairS ext.toNat).toNat, oneRow g n, 0, none)
  | .d2 m => some ((g.pairS ext.toNat).toNat, shapeAt g m.toNat false, g.rdS (m.toNat + 7), none)
  | .d3 m => some ((g.pairS ext.toNat).toNat, shapeAt g m.toNat true, g.rdS (m.toNat + 7), none)
  | .layout =>
    (u.recs.find? fun r => r.id == (g.rdS ext.toNat).toNat && !r.dead).map fun r => (r.base, r.shape, 0, some r.id)

/-- A `COPY` or `CRED`: header, local base, buffer, whether outbound, barrier, alignment unit, reduction, mailbox, and
where its external side comes from (R165, R175). -/
def copies (u : Team) (g : Group) : Instr →
    Option (Hdr × Opnd × Buf × Bool × Option (BitVec 4) × Nat × Option (RedOp × CredTy) × Option Nat ×
      Option (Nat × Shape × Word × Option Nat))
  | .copy h d ext b out sh bar mbx post =>
    some (h, d, b, out, bar, 4, none, if post then some mbx.toNat else none, copyFrom u g ext sh)
  | .cred h d ext b op ty n bar mbx post =>
    some (h, d, b, true, bar, if ty = .bf16 then 2 else 4, some (op, ty), if post then some mbx.toNat else none,
      copyFrom u g ext (.d1 n))
  | _ => none

/-- Stride rules and the reserved scalar (R167). -/
def strides (sh : Shape) (rsv : Word) : Prop :=
  rsv = 0 ∧ (1 < sh.rows → sh.len ≤ sh.lrs) ∧ (1 < sh.planes → sh.lrs * (sh.rows - 1) + sh.len ≤ sh.lps)

/-- Alignment of a copy (R167). -/
def alignedTo (u : Nat) (sh : Shape) (e d : Nat) : Prop :=
  d % u = 0 ∧ e % u = 0 ∧ sh.len % u = 0 ∧ sh.ers % (u : Int) = 0 ∧ sh.eps % (u : Int) = 0 ∧ sh.lrs % u = 0 ∧ sh.lps % u = 0

/-- A byte of a shape: plane, row and byte of the row. -/
def inShape (sh : Shape) (p r b : Nat) : Prop := p < sh.planes ∧ r < sh.rows ∧ b < sh.len

/-- Every external address lies in 0 … 2^54 − 1 (R167). -/
def extFits (sh : Shape) (e : Nat) : Prop :=
  e < 2 ^ 54 ∧ ∀ p r b, inShape sh p r b → 0 ≤ (e : Int) + p * sh.eps + r * sh.ers + b ∧
    (e : Int) + p * sh.eps + r * sh.ers + b < 2 ^ 54

/-- The local offset of a byte (R166). -/
def locAt (sh : Shape) (d p r b : Nat) : Nat := d + p * sh.lps + r * sh.lrs + b

/-- Every local byte lies in the allocation (R167). -/
def locFits (u : Team) (bf : Buf) (sh : Shape) (d : Nat) : Prop :=
  ∀ p r b, inShape sh p r b → locAt sh d p r b < if bf = .x then u.xbytes else u.wbytes

/-- Every local byte lies in an ENGINE tile (R134). -/
def engineOwned (u : Team) (bf : Buf) (sh : Shape) (d : Nat) : Prop :=
  ∀ p r b, inShape sh p r b → u.owner bf (locAt sh d p r b / 4096) = .engine

/-- One new operation, under the next number; the others are as they were. -/
def newOp (s t : State) (o : Op) : Prop :=
  o ∈ t.ops ∧ o.id = s.nextId ∧ t.ops.filter (fun x => x.id != s.nextId) = s.ops.filter fun x => x.id != s.nextId

/-- Nothing but the group's PC, chain, age, CTL and path counters has moved, and one operation is on its way (R69). -/
def handed (s t : State) (g : Group) (i : Instr) (p : Option Path) (o : Op) : Prop :=
  ∃ g', t.grp? s.cur = some g' ∧ newOp s t o ∧ t.nextId = s.nextId + 1 ∧ t.mem = s.mem ∧ t.out = s.out ∧ o.gid = g.gid ∧ o.tid = g.tid ∧ o.path = p ∧ o.st = .active ∧ o.suppressed = false ∧ o.pc = g.pc ∧
    o.exec = g.execMask (infoOf g.fmt i).hdr ∧ o.act = g.mask ∧ o.sup = g.sup ∧ o.ctx = s.ctxOfG g ∧
    g' = { g with pc := seqNext g.pc (ilen g i), ctl := g'.ctl, chpos := 0, latches := [], age := 0, agedAt := none
                  lastIssue := g'.lastIssue
                  inFlight := g.inFlight ++ (match p with | some x => [⟨x, s.nextId, false⟩] | none => []) }

/-- An instruction with no executing lane: nothing but what issue always does to the group (R62, R69); one that is
counted on a path has completed at once (log entry 108). -/
def idles (s t : State) (g : Group) (i : Instr) : Prop :=
  ∃ g', t.grp? s.cur = some g' ∧ onlyGroups s t ∧ t.ops = s.ops ∧ keepsRegs g g' ∧ g'.pc = seqNext g.pc (ilen g i) ∧
    g'.mask = g.mask

/-- An arrival at a barrier by an engine, or an error arrival (R182). -/
def arrivedAt (b : Barrier) (stamp : Word) (err : Bool) : Barrier :=
  if stamp ≠ b.generation then b
  else if err then { b with arrived := 0, generation := b.generation + 1, bytes := 0, status := 2, outcome := 2 }
  else if b.arrived + 1 = b.expected then
    { b with arrived := 0, generation := b.generation + 1, bytes := 0, status := 0, outcome := 0 }
  else { b with arrived := b.arrived + 1 }

/-- An address of this package's own memory. -/
def isMem (s : State) (pa : Nat) : Prop := s.target pa = .lpddr ∨ s.target pa = .cxl

/-- A copy under way with a pending sector, in a team that no vector-clock unit watches, with no operation before it that
R244 could make it wait for. -/
def carrying (s : State) (op n : Nat) (o : Op) (c : CopyCmd) (u : Team) : Prop :=
  s.op? op = some o ∧ o.cmd = .copy c ∧ o.st = .active ∧ n < c.shape.sectors ∧ sget .pending o.sect n = .pending ∧
    s.copyGo c = true ∧ c.ending = none ∧ (c.out = true → u.det = false) ∧ s.team? c.tid = some u ∧ s.checked u = none ∧
    (s.earlier o = [] ∨ (s.windows = [] ∧ c.ranks = []))

/-- No word of a sector has been moved yet: its translation and lookup are still to come (R202, R235). -/
def unbegun (o : Op) (n : Nat) : Prop := ∀ k ∈ o.carry, k.sector ≠ n

/-- Parts that lie one after another from byte `a` to byte `n`, in whole words, all in this package's memory. -/
def laidOut (s : State) (n : Nat) : Nat → List (Nat × Nat × Loc) → Prop
  | a, [] => a = n
  | a, p :: ps => p.1 = a ∧ p.2.1 % 4 = 0 ∧ (∃ pa, p.2.2 = .here pa ∧ ∀ j, j < p.2.1 → isMem s (pa + j)) ∧ laidOut s n (a + p.2.1) ps

/-- Where byte `y` of a sector lies outside. -/
def placeOf : List (Nat × Nat × Loc) → Nat → Option Nat
  | [], _ => none
  | p :: ps, y =>
    if p.1 ≤ y ∧ y < p.1 + p.2.1 then (match p.2.2 with | .here pa => some (pa + (y - p.1)) | .far _ => none)
    else placeOf ps y

/-- Words of a sector of `len` bytes. -/
def wordsOf (len : Nat) : BitVec 64 := maskOf 64 fun k => decide (k < (len + 3) / 4)

/-- No word of a Praline operation that has not completed lies in a range (R373). -/
def unshared (s : State) (pa n : Nat) : Prop := ∀ e ∈ s.late, 4 * e.word + 4 ≤ pa ∨ pa + n ≤ 4 * e.word

/-- The words `w` of a sector have moved between the buffer and external memory, and no other byte of either (R168, R313);
where one byte of memory takes two of the sector, the later stays. -/
def moved (s t : State) (u u' : Team) (c : CopyCmd) (k : Carry) (loc len : Nat) (w : BitVec 64) : Prop :=
  let has := fun y => decide (y < len) && w.getLsbD (y / 4)
  if c.out then
    (∀ a, t.rd a = match (List.range len).reverse.find? (fun y => has y && placeOf k.parts y == some a) with
      | some y => u.rd c.buf (loc + y)
      | none => s.rd a) ∧ ∀ b y, u'.rd b y = u.rd b y
  else
    t.mem = s.mem ∧ ∀ b y, u'.rd b y =
      match (if b = c.buf ∧ loc ≤ y ∧ has (y - loc) = true then placeOf k.parts (y - loc) else none) with
      | some a => s.rd a
      | none => u.rd b y

/-- Some other sector of the copy is still pending. -/
def morePending (o : Op) (c : CopyCmd) (n : Nat) : Prop :=
  ∃ m, m < c.shape.sectors ∧ m ≠ n ∧ sget .pending o.sect m = .pending

/-- Every other sector of the copy has landed. -/
def othersLanded (o : Op) (c : CopyCmd) (n : Nat) : Prop :=
  ∀ m, m < c.shape.sectors → m ≠ n → sget .pending o.sect m = .landed

/-- A copy has ended with a code (R168, R172): its count on path C is released, its arrival made on its barrier as it
stood (`b0`), and its message posted. -/
def copyEnded (s t : State) (op : Nat) (o : Op) (c : CopyCmd) (b0 : Team → Nat → Barrier) (code landed cause : Nat) : Prop :=
  (∀ x ∈ t.ops, x.id = op → x.id = s.nextId) ∧
    (∀ g, s.grp? o.gid = some g → ∃ g', t.grp? o.gid = some g' ∧ ∀ e ∈ g'.inFlight, e.op = op → e.done = true) ∧
    (∀ m, c.mbx = some m → c.replayBy ≠ some s.nextId → ∃ x ∈ t.ops, x.cmd = .msend s.rank
      ⟨o.ctx, m, [c.id, BitVec.ofNat 32 code, BitVec.ofNat 32 landed, BitVec.ofNat 32 cause],
        BitVec.ofNat 32 (2 ^ 30 + s.rank), [], s.rank, o.gid⟩) ∧
    ∀ b u, c.bar = some b → s.team? c.tid = some u → ∃ u', t.team? c.tid = some u' ∧
      u'.bar b = arrivedAt (b0 u b) c.stamp (decide (code ≠ 0))

/-- A barrier after `n` bytes of a copy landed on it (R168). -/
def bytesOn (c : CopyCmd) (n : Nat) (u : Team) (b : Nat) : Barrier :=
  if (u.bar b).generation = c.stamp then { u.bar b with bytes := (u.bar b).bytes + BitVec.ofNat 32 n } else u.bar b

/-- The update of R176 and R321: integers exactly, floating types with FZ taken as 0, rounded to nearest even. -/
def updated (op : RedOp) (ty : CredTy) (old new : Nat) : Nat × BitVec 7 :=
  let i := fun (n32 : Bool) =>
    let a := BitVec.ofNat 32 old
    let b := BitVec.ofNat 32 new
    ((match op with
      | .add => a + b
      | .min => BitVec.ofInt 32 (min (iv n32 a) (iv n32 b))
      | .max => BitVec.ofInt 32 (max (iv n32 a) (iv n32 b))
      | .and => a &&& b
      | .or => a ||| b
      | .xor => a ^^^ b).toNat, (0 : BitVec 7))
  let f := fun (t : FTy) =>
    let x := fval (ffmt t) false old
    let y := fval (ffmt t) false new
    match op with
    | .min => (fminmax (ffmt t) false x y, 0)
    | .max => (fminmax (ffmt t) true x y, 0)
    | _ => fadd (ffmt t) .rne false x y
  match ty with
  | .i32 => i false
  | .n32 => i true
  | .f32 => f .f32
  | .bf16 => f .bf16

/-- Memory after `n` bytes stored at `pa`. -/
def storedAt (s t : State) (pa n : Nat) (f : Nat → Byte) : Prop :=
  ∀ a, t.rd a = if pa ≤ a ∧ a < pa + n then f (a - pa) else s.rd a

/-- Byte `k` of a number, little-endian (R5). -/
def byteOf (x k : Nat) : Byte := BitVec.ofNat 8 (x / 2 ^ (8 * k))

/-- The number in `n` bytes from a physical address. -/
def numAt (s : State) (pa n : Nat) : Nat := ((List.range n).map fun k => (s.rd (pa + k)).toNat * 2 ^ (8 * k)).sum

/-- The check of an export (R234): KIND, REV, the right, LENGTH; then BASE + offset. -/
def exported (s : State) (w off n : Nat) (need : Need) : Tr :=
  let e := (s.window w).eff.toNat
  if e % 4 ≠ 1 then .bad 0x01
  else if e.testBit 2 then .bad 0x03
  else if (match need with | .rd => e.testBit 3 | .wr => e.testBit 4 | .upd => e.testBit 5) = false then .bad 0x04
  else if e / 2 ^ 128 % 2 ^ 37 < off + n then .bad 0x02
  else .pa (e / 2 ^ 64 % 2 ^ 52 + off)

/-- A lane of an operation after the step. -/
def laneIs (t : State) (op lane : Nat) (p : Lane → Prop) : Prop :=
  ∃ o l, t.op? op = some o ∧ o.lane? lane = some l ∧ p l

/-- `CREPLAY` and `CREPLAY.drop`: header, register and whether it drops (R173). -/
def replays : Instr → Option (Hdr × SReg × Bool)
  | .creplay h a => some (h, a, false)
  | .creplayDrop h a => some (h, a, true)
  | _ => none

/-- The header of an instruction on records or replays. -/
def recordHdr : Instr → Option Hdr
  | .creg h _ _ _ | .cunreg h _ | .creplay h _ | .creplayDrop h _ => some h
  | _ => none

/-- Gathers and scatters: header, whether a scatter, type, base and offset (R177). -/
def gathers : Instr → Option (Hdr × Option Opnd × LTy × GBase × Opnd)
  | .gath h _ ty b o => some (h, none, ty, b, o)
  | .scat h x ty b o => some (h, some x, ty, b, o)
  | _ => none

end Sys2Proof.Claims

/-- R165-R167, R175: with no executing lane a `COPY` or `CRED` makes no access; else it is checked in the order of R167 and, when every check
passes, takes its copy ID and stamp, counts on path C and goes to the streamer, which keeps its order of sequence numbers. -/
def Obligations.CopyIssue : Prop :=
  ∀ (s : State) (g : Group) (i : Instr) (u : Team) (h : Hdr) (d : Opnd) (bf : Buf) (out : Bool) (bar : Option (BitVec 4))
    (unit : Nat) (red : Option (RedOp × CredTy)) (mbx : Option Nat) (src : Option (Nat × Shape × Word × Option Nat)),
    s.team? g.tid = some u → copies u g i = some (h, d, bf, out, bar, unit, red, mbx, src) → runs s g i = true →
    h.ch = false →
    let d0 := (g.opnd d 0).toNat
    let noBar := ∃ b, bar = some b ∧ (u.bar b.toNat).expected = 0
    (guarded g h = false → ∃ t, exec i s = .next t ∧ idles s t g i) ∧
    (guarded g h = true → g.dep = 0 → g.sb.valid = false →
      (noBar → traps i s g 7 0x12 1) ∧
      (¬ noBar → src = none → traps i s g 2 0x16 1) ∧
      (∀ e sh rsv lr, ¬ noBar → src = some (e, sh, rsv, lr) →
        (¬ strides sh rsv → traps i s g 2 0x15 1) ∧
        (strides sh rsv → ¬ alignedTo unit sh e d0 → traps i s g 2 0x11 1) ∧
        (strides sh rsv → alignedTo unit sh e d0 → ¬ extFits sh e → traps i s g 8 0x05 1) ∧
        (strides sh rsv → alignedTo unit sh e d0 → extFits sh e → ¬ locFits u bf sh d0 →
          traps i s g 3 (if bf = .x then 1 else 2) 1) ∧
        (strides sh rsv → alignedTo unit sh e d0 → extFits sh e → locFits u bf sh d0 → ¬ engineOwned u bf sh d0 →
          traps i s g 2 0x14 1))) ∧
    (∀ e sh rsv lr, guarded g h = true → ¬ noBar → src = some (e, sh, rsv, lr) → strides sh rsv → alignedTo unit sh e d0 →
      extFits sh e → locFits u bf sh d0 → engineOwned u bf sh d0 → untainted g i → sh.lineTags u bf d0 = 0 →
      s.streamed g.core < 1024 → 0 < sh.sectors → (out = true → u.det = false) →
      (∀ r, lr = some r → ∀ y, s.recOf u.tid r = some y → y.failed = none) →
      ∃ t o c, exec i s = .next t ∧ handed s t g i (some .C) o ∧ o.cmd = .copy c ∧ o.stamp = s.q ∧ o.sect = [] ∧
        c.id = BitVec.ofNat 32 (g.core * 2 ^ 24 + (sget 0 s.seqs g.core).toNat) ∧
        sget 0 t.seqs g.core = sget 0 s.seqs g.core + 1 ∧ c.tid = u.tid ∧ c.d = d0 ∧ c.ext = e ∧ c.buf = bf ∧ c.out = out ∧
        c.shape = sh ∧ c.bar = bar.map (·.toNat) ∧ c.mbx = mbx ∧ c.red = red ∧ c.lrec = lr ∧ c.faulted = false ∧
        c.busy = false ∧ c.landed = 0 ∧ (∀ b, bar = some b → c.stamp = (u.bar b.toNat).generation))

/-- R168, R171, R172, R313: a sector of this package is moved between external memory and the buffer word by word, in any
order, through the translation it began with; when its last word has moved it lands, its bytes
count on the copy and on a barrier of the copy's generation. A sector whose page faults before it begins is suspended and a barrier of that
generation becomes faulted; a sector that a window refuses is refused. A copy whose last pending sector lands ends done; whose last
is suspended it becomes faulted and posts a record, or ends failed if it was replayed; whose last is refused it ends failed. -/
def Obligations.SectorEffects : Prop :=
  ∀ (s : State) (op n : Nat) (o : Op) (c : CopyCmd) (u : Team), carrying s op n o c u →
    let loc := c.shape.locOf c.d n
    let len := c.shape.lenOf n
    let now := fun (t : State) (x : SecSt) => ∃ o', t.op? op = some o' ∧ o'.st = .active ∧
      ∀ m, sget .pending o'.sect m = if m = n then x else sget .pending o.sect m
    (∀ x ∈ s.sectorHomes o c n, ∀ pa, x.2.2 = .mem pa → s.sectorFaults o c n = [] → unbegun o n →
      (∀ y ∈ s.sectorHomes o c n, ∃ q, y.2.2 = .mem q) → ∃ k, s.carryOf o c n = some k ∧ k.done = 0 ∧ (x.1, x.2.1, .here pa) ∈ k.parts) ∧
    (∀ k words, c.red = none → s.carryOf o c n = some k → laidOut s len 0 k.parts → len % 4 = 0 → 0 < len → len ≤ 256 →
      (c.out = false → ∀ o m pa, (o, m, Loc.here pa) ∈ k.parts → unshared s pa m) →
      let w := words &&& wordsOf len &&& ~~~k.done
      ∃ t u', exec (.sectorLand op ⟨n, words⟩ none) s = .next t ∧ t.team? c.tid = some u' ∧ moved s t u u' c k loc len w ∧
        (k.done ||| w ≠ wordsOf len → now t .pending ∧ keepsButBuffers u u' ∧
          ∃ o' k', t.op? op = some o' ∧ o'.carry.find? (fun x => x.sector == n) = some k' ∧ k'.parts = k.parts ∧
            k'.done = k.done ||| w) ∧
        (k.done ||| w = wordsOf len →
          (morePending o c n → now t .landed ∧ (∀ b, c.bar = some b → u'.bar b = bytesOn c len u b) ∧ ∃ o' c',
            t.op? op = some o' ∧ o'.cmd = .copy c' ∧ c'.landed = c.landed + len) ∧
          (othersLanded o c n → copyEnded s t op o c (bytesOn c len) 0 (c.landed + len) 0))) ∧
    (∀ f ty k, c.red = some (f, ty) → s.carryOf o c n = some k → (∀ e ∈ c.elems (credSize ty) n, ∃ l ∈ o.lanes, l.lane = e) →
      (morePending o c n → ∃ t, exec (.sectorLand op ⟨n, 0⟩ none) s = .next t ∧ now t .landed ∧ t.mem = s.mem) ∧
      (othersLanded o c n → ∃ t, exec (.sectorLand op ⟨n, 0⟩ none) s = .next t ∧ t.mem = s.mem ∧
        copyEnded s t op o c (bytesOn c len) 0 (c.landed + len) 0)) ∧
    (s.sectorFaults o c n ≠ [] → unbegun o n →
      (morePending o c n → ∃ t u', exec (.sectorSuspend op n) s = .next t ∧ now t (.suspended (s.sectorFaults o c n)) ∧
        t.team? c.tid = some u' ∧ t.mem = s.mem ∧ (∀ b y, u'.rd b y = u.rd b y) ∧
        ∀ b, c.bar = some b → u'.bar b = if (u.bar b).generation = c.stamp then { u.bar b with status := 1 } else u.bar b) ∧
      (∀ x, othersLanded o c n → c.busy = false → s.ctx? o.ctx = some x →
        ∃ t o' c' x', exec (.sectorSuspend op n) s = .next t ∧ t.op? op = some o' ∧ o'.cmd = .copy c' ∧ c'.faulted = true ∧
          o'.st = .active ∧ t.ctx? o.ctx = some x' ∧ ∃ r ∈ x'.faults, r.id = c.id) ∧
      (∀ va k rest, othersLanded o c n → c.busy = true → s.sectorFaults o c n = (va, k) :: rest →
        ∃ t, exec (.sectorSuspend op n) s = .next t ∧ copyEnded s t op o c (fun u b =>
          if (u.bar b).generation = c.stamp then { u.bar b with status := 1 } else u.bar b) 1 c.landed (0x200 + k.toNat))) ∧
    (∀ k far, (s.sectorFaults o c n = [] ∧ unbegun o n ∧ s.sectorRefusal o c n = some k) ∨
        (∃ x a, s.carryOf o c n = some x ∧ x.done = 0 ∧ (∃ p ∈ x.parts, p.2.2.isFar = true) ∧ far = some a ∧ a.ok = false ∧
          a.cause.toNat = k) →
      (morePending o c n → ∃ t, exec (.sectorRefused op n far) s = .next t ∧ now t (.refused (BitVec.ofNat 8 k)) ∧
        t.mem = s.mem ∧ t.teams = s.teams) ∧
      (othersLanded o c n → k < 256 → ∃ t, exec (.sectorRefused op n far) s = .next t ∧
        copyEnded s t op o c (fun u b => u.bar b) 1 c.landed (0x100 + k)))

/-- R169, R173: `CREG` takes the least free record ID of 1 … 64, or 0 where none is free; the record becomes ready when
every page translates, and failed otherwise; `CUNREG` marks a record dead and frees its slot once no earlier copy uses it. `CREPLAY` re-issues
exactly the suspended sectors of a faulted copy, ends it with ownership lost where a tile has been taken, ends it failed under `.drop`,
and is refused across teams in user mode. With no executing lane none of them has an effect. That the pages of a record
translate as reads is log entry 57, the model's choice. -/
def Obligations.RecordsAndReplay : Prop :=
  (∀ (s : State) (g : Group) (i : Instr) (h : Hdr), recordHdr i = some h → runs s g i = true → h.ch = false → guarded g h = false →
    ∃ t, exec i s = .next t ∧ idles s t g i) ∧
  (∀ (s : State) (g : Group) (h : Hdr) (d : SReg) (ext : SReg) (sh : RegShape) (u : Team),
    let i := Instr.creg h (.s d) ext sh
    runs s g i = true → h.ch = false → s.team? g.tid = some u → guarded g h = true → untainted g i →
    ∀ e y rsv lr, copyFrom u g ext (match sh with | .d1 n => .d1 n | .d2 m => .d2 m | .d3 m => .d3 m) = some (e, y, rsv, lr) →
    strides y rsv → alignedTo 4 y e 0 → extFits y e →
    (∀ k, 1 ≤ k → k ≤ 64 → (∀ r ∈ u.recs, r.id ≠ k) → (∀ j, 1 ≤ j → j < k → ∃ r ∈ u.recs, r.id = j) →
      ∃ t g' u' o, exec i s = .next t ∧ t.grp? s.cur = some g' ∧ (∀ z, g'.rdS z = if z = d.toNat then BitVec.ofNat 32 k else g.rdS z) ∧
        g'.pc = seqNext g.pc 16 ∧ t.team? g.tid = some u' ∧ u'.recs = u.recs ++ [⟨k, e, y, false, none, false, []⟩] ∧
        newOp s t o ∧ o.cmd = .creg k e y (.s d) ∧ o.path = some .C ∧ t.mem = s.mem) ∧
    ((∀ k, 1 ≤ k → k ≤ 64 → ∃ r ∈ u.recs, r.id = k) →
      ∃ t g', exec i s = .next t ∧ t.grp? s.cur = some g' ∧ (∀ z, g'.rdS z = if z = d.toNat then 0 else g.rdS z) ∧
        g'.pc = seqNext g.pc 16 ∧ t.teams = s.teams ∧ sameOps s t ∧ t.mem = s.mem)) ∧
  (∀ (s : State) (op : Nat) (o : Op) (g : Group) (u : Team) (k e : Nat) (y : Shape) (d : Dst), s.op? op = some o →
    o.cmd = .creg k e y d → o.st = .active → s.grp? o.gid = some g → s.team? o.tid = some u →
    (∀ x ∈ s.ops, ∀ c, x.cmd = .copy c → c.lrec ≠ some k) → (y.pages e).length ≤ 65536 →
    let good := ∀ p ∈ y.pages e, ∃ pa, s.xlate g.core o.ctx (p * 4096) .read o.sup = .pa pa
    ∃ t u', exec (.recordReady op) s = .next t ∧ t.team? o.tid = some u' ∧ t.mem = s.mem ∧
      t.ops = s.ops.filter (fun x => x.id != o.id) ∧ u'.recs.map (·.id) = u.recs.map (·.id) ∧
      ∀ r ∈ u'.recs, r.id = k → (good → r.ready = true ∧ r.failed = none ∧ r.pins.map (·.1) = y.pages e) ∧
        (¬ good → r.ready = false ∧ r.failed ≠ none ∧ r.pins = [])) ∧
  (∀ (s : State) (g : Group) (h : Hdr) (a : SReg) (u : Team), runs s g (.cunreg h a) = true → h.ch = false →
    s.team? g.tid = some u → guarded g h = true → untainted g (.cunreg h a) →
    let k := (g.rdS a.toNat).toNat
    let live := ∃ r ∈ u.recs, r.id = k ∧ r.dead = false
    (live → ∃ t u' o, exec (.cunreg h a) s = .next t ∧ handed s t g (.cunreg h a) (some .C) o ∧
      o.cmd = .cunreg (g.rdS a.toNat) (s.recUses g.tid k) ∧ t.team? g.tid = some u' ∧
      u'.recs = u.recs.map fun r => if r.id = k then { r with dead := true } else r) ∧
    (¬ live → ∃ t g', exec (.cunreg h a) s = .next t ∧ t.grp? s.cur = some g' ∧ keepsRegs g g' ∧ t.teams = s.teams ∧
      sameOps s t ∧ t.mem = s.mem ∧ g'.pc = seqNext g.pc 8)) ∧
  (∀ (s : State) (op : Nat) (o : Op) (u : Team) (id : Word) (under : List Nat), s.op? op = some o →
    o.cmd = .cunreg id under → o.st = .active → s.team? o.tid = some u →
    (∀ x ∈ s.ops, x.id ∉ under ∧ ∀ c, x.cmd = .copy c → c.lrec = some id.toNat → x.tid = o.tid → ¬ x.id < o.id) →
    ∃ t u', exec (.cunregComplete op) s = .next t ∧ t.team? o.tid = some u' ∧ t.mem = s.mem ∧
      u'.recs = u.recs.filter (fun r => r.id != id.toNat) ∧ t.ops = s.ops.filter (fun x => x.id != o.id)) ∧
  (∀ (s : State) (g : Group) (i : Instr) (h : Hdr) (a : SReg) (drop : Bool), replays i = some (h, a, drop) →
    runs s g i = true → h.ch = false → guarded g h = true →
    let id := g.rdS a.toNat
    let foreign := ∃ x ∈ s.ops, ∃ c, x.cmd = .copy c ∧ c.id = id ∧ x.st = .active ∧ c.tid ≠ g.tid
    (g.sup = false → foreign → g.dep = 0 → g.sb.valid = false → traps i s g 1 0x03 1) ∧
    (g.sup = true ∨ ¬ foreign → untainted g i →
      ((∀ x ∈ s.ops, ∀ c, x.cmd = .copy c → c.id ≠ id) →
        ∃ t g', exec i s = .next t ∧ t.grp? s.cur = some g' ∧ keepsRegs g g' ∧ t.teams = s.teams ∧ sameOps s t ∧
          t.mem = s.mem ∧ g'.pc = seqNext g.pc 8) ∧
      (∀ o c u, o ∈ s.ops → s.op? o.id = some o → o.id < s.nextId → o.cmd = .copy c → c.id = id → o.st = .active →
        c.faulted = true → c.busy = false → c.replayBy = none → s.team? c.tid = some u →
        (∀ x ∈ s.ops, ∀ c', x.cmd = .copy c' → c'.id = id → x = o) →
        let held := fun m => m < c.shape.sectors ∧ ∃ f, sget .pending o.sect m = .suspended f
        (c.tid = g.tid → ∀ m, held m → u.rangeTag c.buf (c.shape.locOf c.d m) (c.shape.lenOf m) = 0) →
        let taken := ∃ m, held m ∧ ∃ k ∈ unitsOf 4096 (c.shape.locOf c.d m) (c.shape.lenOf m), u.owner c.buf k ≠ .engine
        (drop = true ∨ taken → s.endBlocked o = false) →
        ∃ t g', exec i s = .next t ∧ t.mem = s.mem ∧ t.grp? s.cur = some g' ∧ g'.v = g.v ∧ g'.s = g.s ∧ g'.p = g.p ∧
          g'.pc = seqNext g.pc 8 ∧
          (drop = true → copyEnded s t o.id o c (fun u b => u.bar b) 1 c.landed 0x300) ∧
          (drop = false → taken → copyEnded s t o.id o c (fun u b => u.bar b) 2 c.landed 0) ∧
          (drop = false → ¬ taken → (c.out = true → u.det = false) →
            ∃ o' c', t.op? o.id = some o' ∧ o'.cmd = .copy c' ∧ c'.busy = true ∧ o'.stamp = s.q ∧
              c'.faulted = false ∧ c'.replayBy = some s.nextId ∧
              ∀ m, sget .pending o'.sect m = match sget .pending o.sect m with
                | .suspended f => if m < c.shape.sectors then .pending else .suspended f
                | x => x))))

/-- R177, R178, R180: a gather or scatter is checked over its evaluating lanes before any access — alignment, the address
range, translation, or for `.clu` the position, the target's allocation and its owner bits — and, when all pass, is on its way with the
address and data of each lane, counted on path G. With no executing lane it makes no access. -/
def Obligations.GatherIssue : Prop :=
  ∀ (s : State) (g : Group) (i : Instr) (h : Hdr) (data : Option Opnd) (ty : LTy) (base : GBase) (off : Opnd) (u : Team),
    gathers i = some (h, data, ty, base, off) → runs s g i = true → h.ch = false → s.team? g.tid = some u →
    let ls := evalsIn g i h
    let f := fun l => (match base with | .ext p => (g.pairS p.toNat).toNat | .clu _ => 0) + (g.opnd off l).toNat
    let mis := lanesThat g i h fun l => decide (f l % bytesOf ty ≠ 0)
    let far := lanesThat g i h fun l => decide (2 ^ 54 ≤ f l)
    let acc : Acc := if data.isSome then .write else .read
    let bad := lanesThat g i h fun l => match s.xlate g.core (s.ctxOfG g) (f l) acc g.sup with | .bad _ => true | _ => false
    let going := fun (clu : Option Nat) => ∃ t o, exec i s = .next t ∧ handed s t g i (some .G) o ∧
      o.cmd = (if data.isSome then .scatter ty clu else .gather ty clu) ∧
      o.lanes.map (fun l => (l.lane, l.va)) = ls.map (fun l => (l, f l)) ∧ (∀ l ∈ o.lanes, l.st = .pending) ∧
      (∀ x, data = some x → ∀ l ∈ o.lanes, l.data = (g.opnd x l.lane).setWidth 64)
    (guarded g h = false → ∃ t, exec i s = .next t ∧ idles s t g i) ∧
    (guarded g h = true → g.dep = 0 → g.sb.valid = false →
      (mis ≠ 0 → traps i s g 2 0x11 mis) ∧
      (∀ p, base = .ext p → mis = 0 →
        (far ≠ 0 → traps i s g 8 0x05 far) ∧
        (far = 0 → bad ≠ 0 → ∃ l k, l ∈ ls ∧ s.xlate g.core (s.ctxOfG g) (f l) acc g.sup = .bad k ∧
          (∀ m ∈ ls, m < l → bad.getLsbD m = false) ∧ traps i s g 8 k bad)) ∧
      (∀ a, base = .clu a → mis = 0 →
        (u.clid = none → g.rdS a.toNat ≠ 0 → traps i s g 3 0x03 (maskOf 64 fun l => ls.contains l)) ∧
        (∀ k cl, u.clid = some k → s.clu? k = some cl → cl.cols * cl.rows ≤ (g.rdS a.toNat).toNat →
          traps i s g 3 0x03 (maskOf 64 fun l => ls.contains l)) ∧
        (∀ x, s.cluTeam u (g.rdS a.toNat).toNat = some x →
          let m1 := lanesThat g i h fun l => decide (x.xbytes < f l + bytesOf ty)
          let m2 := lanesThat g i h fun l => decide (x.owner .x (f l / 4096) ≠ .engine)
          (m1 ≠ 0 → traps i s g 3 0x01 m1) ∧ (m1 = 0 → m2 ≠ 0 → traps i s g 2 0x14 m2)))) ∧
    (guarded g h = true → mis = 0 → untainted g i →
      (∀ p, base = .ext p → far = 0 → bad = 0 → (data.isSome = true → u.det = false) →
        (∀ l ∈ ls, ∀ pa, s.xlate g.core (s.ctxOfG g) (f l) acc g.sup = .pa pa → isMem s pa) → going none) ∧
      (∀ a x, base = .clu a → s.cluTeam u (g.rdS a.toNat).toNat = some x →
        (∀ l ∈ ls, f l + bytesOf ty ≤ x.xbytes ∧ x.owner .x (f l / 4096) = .engine ∧ x.rangeTag .x (f l) (bytesOf ty) = 0) →
        going (some x.tid)))

/-- R176, R178, R179: a `CRED` element in this package's memory is updated once by the function of R176 and no other byte
changes; a lane of a gather or scatter is performed at its home, here or in a cluster's X-buffer, or settled by a far home's refusal; a word of a
Praline operation not yet completed reads as it was or as it is, and once read as it is stays so (R373, log entry 97); a lane that
leads back to this rank is looked up once and performed at a later turn (R235); a complete gather writes
the performed lanes, extended under its type, leaves the others, lowers path G, and makes class 8 cause 0x09 fall due for settled lanes. -/
def Obligations.ReductionAndGatherLanes : Prop :=
  (∀ (s : State) (op e pa : Nat) (o : Op) (c : CopyCmd) (k : Carry) (f : RedOp) (ty : CredTy) (u : Team),
    let sz := if ty = .bf16 then 2 else 4
    let n := sz * e / 256
    carrying s op n o c u → c.red = some (f, ty) → sz * (e + 1) ≤ c.shape.len →
    (∀ l ∈ o.lanes, l.lane ≠ e) → s.carryOf o c n = some k → placeOf k.parts (sz * e - 256 * n) = some pa → isMem s pa →
    s.elemBlocked o (c.ext + sz * e) (.here pa) sz = false →
    s.poisoned pa sz = false → u.poisoned c.buf (c.d + sz * e) sz = false →
    let new := ((List.range sz).map fun k => (u.rd c.buf (c.d + sz * e + k)).toNat * 2 ^ (8 * k)).sum
    let r := updated f ty (numAt s pa sz) new
    ∃ t o', exec (.credUpdate op e none) s = .next t ∧ storedAt s t pa sz (byteOf r.1) ∧ t.op? op = some o' ∧
      o'.flags = o.flags ||| r.2 ∧ (∃ l ∈ o'.lanes, l.lane = e) ∧ t.teams = s.teams ∧ t.groups = s.groups) ∧
  (∀ (s : State) (op lane : Nat) (o : Op) (l : Lane) (u : Team), s.op? op = some o → o.lane? lane = some l → o.st = .active →
    l.st = .pending → s.team? o.tid = some u → s.checked u = none → s.gatherBlocked o l o.cmd.size = false →
    (∀ ty, o.cmd = .gather ty none → l.via = none → isMem s l.pa → s.poisoned l.pa (bytesOf ty) = false →
      unshared s l.pa (bytesOf ty) →
      ∃ t, exec (.gatherLanePerformed op lane none) s = .next t ∧ t.mem = s.mem ∧
        laneIs t op lane fun x => x.st = .done ∧ x.res = BitVec.ofNat 64 (numAt s l.pa (bytesOf ty))) ∧
    (∀ ty e, o.cmd = .gather ty none → l.via = none → isMem s l.pa → s.poisoned l.pa 4 = false → bytesOf ty = 4 →
      l.pa = 4 * e.word → (s.late.filter fun x => x.word == e.word) = [e] → e.old.length = 4 →
      ∃ t, exec (.gatherLanePerformed op lane none) s = .next t ∧ t.mem = s.mem ∧ laneIs t op lane fun x => x.st = .done ∧
        (x.res = BitVec.ofNat 64 (leNat e.old) ∨ x.res = BitVec.ofNat 64 (numAt s l.pa 4) ∧ e ∉ t.late)) ∧
    (∀ ty, o.cmd = .scatter ty none → l.via = none → isMem s l.pa →
      ∃ t, exec (.gatherLanePerformed op lane none) s = .next t ∧ storedAt s t l.pa (bytesOf ty) (byteOf l.data.toNat) ∧
        laneIs t op lane fun x => x.st = .done) ∧
    (∀ ty, o.cmd = .scatter ty (some o.tid) →
      ∃ t u', exec (.gatherLanePerformed op lane none) s = .next t ∧ t.mem = s.mem ∧ t.team? o.tid = some u' ∧
        (∀ a, u'.rd .x a = if l.va ≤ a ∧ a < l.va + bytesOf ty then byteOf l.data.toNat (a - l.va) else u.rd .x a) ∧
        laneIs t op lane fun x => x.st = .done) ∧
    (∀ ty, o.cmd = .gather ty (some o.tid) → u.poisoned .x l.va (bytesOf ty) = false →
      ∃ t, exec (.gatherLanePerformed op lane none) s = .next t ∧ t.mem = s.mem ∧ t.teams = s.teams ∧
        laneIs t op lane fun x => x.st = .done ∧ x.res = BitVec.ofNat 64
          ((List.range (bytesOf ty)).map fun k => (u.rd .x (l.va + k)).toNat * 2 ^ (8 * k)).sum) ∧
    (∀ ty w off k, o.cmd = .gather ty none → l.via = some (.own w off) → exported s w off (bytesOf ty) .rd = .bad k →
      ∃ t, exec (.gatherLanePerformed op lane none) s = .next t ∧ t.mem = s.mem ∧
        laneIs t op lane fun y => y.st = .settled (BitVec.ofNat 8 k)) ∧
    (∀ ty w off pa, o.cmd = .gather ty none → l.via = some (.own w off) → exported s w off (bytesOf ty) .rd = .pa pa →
      ∃ t, exec (.gatherLanePerformed op lane none) s = .next t ∧ t = { s with ops := t.ops } ∧
        laneIs t op lane fun y => y = { l with via := some (.mem pa) }) ∧
    (∀ ty pa, o.cmd = .gather ty none → l.via = some (.mem pa) → isMem s pa → s.poisoned pa (bytesOf ty) = false → unshared s pa (bytesOf ty) →
      ∃ t, exec (.gatherLanePerformed op lane none) s = .next t ∧ t.mem = s.mem ∧
        laneIs t op lane fun x => x.st = .done ∧ x.res = BitVec.ofNat 64 (numAt s pa (bytesOf ty))) ∧
    (∀ ty x w a, o.cmd = .gather ty none → l.via = some (.far w) → x.ok = false → x.cause = a →
      ∃ t, exec (.gatherLanePerformed op lane (some x)) s = .next t ∧ t.mem = s.mem ∧
        laneIs t op lane fun y => y.st = .settled a) ∧
    (∀ ty x w, o.cmd = .gather ty none → l.via = some (.far w) → x.ok = true →
      ∃ t, exec (.gatherLanePerformed op lane (some x)) s = .next t ∧ t.mem = s.mem ∧
        laneIs t op lane fun y => y.st = .done ∧ y.res = x.data ∧ y.poison = x.poison)) ∧
  (∀ (s : State) (op : Nat) (o : Op) (g : Group) (ty : LTy), s.op? op = some o → o.cmd = .gather ty none → o.st = .active →
    o.suppressed = false → o.pre = none → s.grp? o.gid = some g → g.exited = false → o.p = ⟨0, 0⟩ →
    (∀ l ∈ o.lanes, l.st = .done ∨ ∃ k, l.st = .settled k) → (∀ l ∈ o.lanes, l.poison = false) →
    ∃ t g', exec (.gatherComplete op) s = .next t ∧ t.mem = s.mem ∧ t.grp? o.gid = some g' ∧ g'.p = g.p ∧
      t.ops = s.ops.filter (fun x => x.id != op) ∧ (∀ e ∈ g'.inFlight, e.op = op → e.done = true) ∧
      (∀ n k l, o.dst = .v n → l < 64 → g'.rdV k l =
        match (o.lanes.filter fun x => x.st == .done).find? fun x => x.lane == l with
        | some x => if k = n.toNat then ltyExt ty x.res.toNat else g.rdV k l
        | none => g.rdV k l) ∧
      (∀ n k, o.dst = .s n → g'.rdS k = match (o.lanes.filter fun x => x.st == .done).head? with
        | some x => if k = n.toNat then ltyExt ty x.res.toNat else g.rdS k
        | none => g.rdS k) ∧
      ((∀ l ∈ o.lanes, l.st = .done) → g'.pend = g.pend) ∧
      ((∃ l ∈ o.lanes, l.st ≠ .done) → ∃ x, g'.pend = g.pend ++ [x] ∧ x.cls = 8 ∧ x.sub = 0x09 ∧ x.cpc = o.pc ∧
        ∀ l, l < 64 → (x.lanes.getLsbD l = true ↔ ∃ y ∈ o.lanes, y.lane = l ∧ y.st ≠ .done))) ∧
  (∀ (s : State) (op : Nat) (o : Op) (g : Group) (ty : LTy) (clu : Option Nat), s.op? op = some o → o.cmd = .scatter ty clu →
    o.st = .active → o.suppressed = false → o.pre = none → o.dst = .none → o.p = ⟨0, 0⟩ → s.grp? o.gid = some g →
    (∀ l ∈ o.lanes, l.st = .done) → (∀ l ∈ o.lanes, l.poison = false) →
    ∃ t g', exec (.gatherComplete op) s = .next t ∧ t.mem = s.mem ∧ t.grp? o.gid = some g' ∧ g'.v = g.v ∧ g'.s = g.s ∧
      g'.p = g.p ∧ t.ops = s.ops.filter (fun x => x.id != op) ∧ (∀ e ∈ g'.inFlight, e.op = op → e.done = true))

namespace Sys2Proof.Claims

/-! ## Barriers, atomics, fences -/

/-- The fields of a barrier as a team names it (R181, R188). -/
def barNow (s : State) (tid : Nat) (b : Bar) (x : Barrier) : Prop := ∃ u, s.team? tid = some u ∧ s.barOf u b = x

/-- Groups that may wait on a barrier: those of the team, or of the cluster's teams (R181, R188). -/
def mayWait (s : State) (u : Team) (b : Bar) (y : Group) : Prop :=
  match b with
  | .b _ => y.tid = u.tid
  | .bcl => ∃ k c, u.clid = some k ∧ s.clu? k = some c ∧ y.tid ∈ c.teams

/-- A condition and its complement in the lanes of `m` of a predicate pair; p0 ignores writes (R46, R62). -/
def pairIn (g g' : Group) (m : Mask) (d : CmpDst) (ok : Nat → Bool) : Prop :=
  ∀ k l, l < 64 → g'.rdP k l =
    if k ≠ 0 ∧ m.getLsbD l = true ∧ (k = d.c.toNat ∨ k = d.k.toNat) then (if k = d.k.toNat then !ok l else ok l)
    else g.rdP k l

/-- Every waiter of a barrier whose generation has passed continues, with its predicates written (R182). -/
def released (s t : State) (u : Team) (b : Bar) (x : Barrier) : Prop :=
  ∀ n y g0 p tag, s.grp? n = some y → mayWait s u b y → y.park = some (.bwait b g0 p tag) → g0 ≠ x.generation →
    ∃ y', t.grp? n = some y' ∧ y'.park = none ∧ pairIn y y' y.mask p fun _ => decide (x.outcome = 0)

/-- A group's arrival (R182). -/
def groupArrives (b : Barrier) : Barrier :=
  if b.arrived + 1 = b.expected then
    { b with arrived := 0, generation := b.generation + 1, bytes := 0, status := 0, outcome := 0 }
  else { b with arrived := b.arrived + 1 }

/-- A barrier with a waiter or an outstanding engine arrival (R181, R184). -/
def busyBar (s : State) (u : Team) (n : BitVec 4) : Prop :=
  (∃ y ∈ s.groups, y.tid = u.tid ∧ ∃ g0 p tag, y.park = some (.bwait (.b n) g0 p tag)) ∨
    ∃ o ∈ s.ops, o.st = .active ∧ ∃ c, o.cmd = .copy c ∧ c.tid = u.tid ∧ c.bar = some n.toNat ∧
      c.stamp = (u.bar n.toNat).generation

/-- A group's local accesses, and on `bcl` its path G, hold its arrival back (R185). -/
def mustWait (s : State) (g : Group) (b : Bar) : Prop := (∃ a ∈ s.lacc, a.gid = g.gid) ∨ (b = .bcl ∧ g.pathCount .G ≠ 0)

/-- `BINIT`: header, barrier and count (R183). -/
def binits (g : Group) : Instr → Option (Hdr × BitVec 4 × Nat)
  | .binit h b n => some (h, b, (g.opnd n 0).toNat)
  | .binitImm h b w => some (h, b, w.toNat)
  | _ => none

/-- The barrier that an instruction names (R25, R167, R183). -/
def barrierOf : Instr → Option Bar
  | .binit _ b _ | .binitImm _ b _ | .binv _ b => some (.b b)
  | .barr _ b | .bwait _ _ b _ | .barw _ _ b | .bqry _ _ _ b => some b
  | .copy _ _ _ _ _ _ (some b) _ _ | .cred _ _ _ _ _ _ _ (some b) _ _ => some (.b b)
  | _ => none

/-- A barrier that the team does not have: a number at or above BARRIERS, or `bcl` in no cluster (R25, R188). -/
def noSuchBar (u : Team) : Bar → Prop
  | .b n => u.nbars ≤ n.toNat
  | .bcl => u.clid = none

/-- A 64-bit value: a register pair, or a short immediate sign-extended (R325). -/
def wide (g : Group) (o : Opnd) (l : Nat) : DWord :=
  match o with
  | .s n => pairOf (g.rdS n.toNat) (g.rdS (n.toNat + 1))
  | .v n => pairOf (g.rdV n.toNat l) (g.rdV (n.toNat + 1) l)
  | .imm x => BitVec.ofInt 64 x.toInt
  | .l _ => (g.opnd o l).setWidth 64

/-- An atomic: header, old-value registers low and high, predicates, base, offset, command and a lane's operands. -/
def atoms : Instr → Option (Hdr × Dst × Dst × CmpDst × ABase × Opnd × AtomCmd × (Group → Nat → DWord) × (Group → Nat → DWord))
  | .atom h d op ty b off _ x ord =>
    some (h, d, .none, ⟨0, 0⟩, b, off, ⟨op, ty, false, 4, none, ord, d ≠ .none, .none, 12⟩,
      fun g l => (g.opnd x l).setWidth 64, fun _ _ => 0)
  | .ared h op ty b off _ x ord =>
    some (h, .none, .none, ⟨0, 0⟩, b, off, ⟨op, ty, false, 4, none, ord, false, .none, 12⟩,
      fun g l => (g.opnd x l).setWidth 64, fun _ _ => 0)
  | .acas h d b off x y p _ ord =>
    let w := match d with | .one _ => false | _ => true
    let lo := match d with | .one r => r | .pairS r => .s r | .pairV r => .v r | .none64 => .none
    let hi := match d with | .pairS r => Dst.s (r + 1) | .pairV r => .v (r + 1) | _ => .none
    let rd := fun (o : Opnd) (g : Group) (l : Nat) => if w then wide g o l else (g.opnd o l).setWidth 64
    some (h, lo, hi, p, b, off, ⟨.exch, .n32, true, if w then 8 else 4, none, ord, lo ≠ .none, hi, 16⟩, rd y, rd x)
  | _ => none

/-- What an atomic makes of an old value: the new one, whether it is stored, and flags (R321, R326). -/
def atomF (a : AtomCmd) (old : Nat) (data cmp : DWord) : Nat × Bool × BitVec 7 :=
  if a.cas then (data.toNat % 2 ^ (8 * a.sz), decide (old = cmp.toNat % 2 ^ (8 * a.sz)), 0)
  else
    let v := data.toNat % 2 ^ 32
    let ty : CredTy := match a.ty with | .i32 => .i32 | .n32 => .n32 | .f32 => .f32
    let u := fun (op : RedOp) => ((updated op ty old v).1 % 2 ^ 32, true, (updated op ty old v).2)
    match a.op with
    | .add => u .add
    | .min => u .min
    | .max => u .max
    | .and => u .and
    | .or => u .or
    | .xor => u .xor
    | .exch => (v, true, 0)
    | .inc => (if v ≤ old then 0 else old + 1, true, 0)
    | .dec => (if old = 0 ∨ v < old then v else old - 1, true, 0)

/-- Lanes in ascending order, each seeing what the lane before it left (R324): memory after them; lane, old value and
whether it stored; and the flags raised. -/
def atomRun (a : AtomCmd) : List Lane → (Nat → Byte) → (Nat → Byte) × List (Nat × Nat × Bool) × BitVec 7
  | [], m => (m, [], 0)
  | l :: ls, m =>
    let old := ((List.range a.sz).map fun k => (m (l.va + k)).toNat * 2 ^ (8 * k)).sum
    let r := atomF a old l.data l.cmp
    let m' := fun o => if r.2.1 = true ∧ l.va ≤ o ∧ o < l.va + a.sz then byteOf r.1 (o - l.va) else m o
    let rest := atomRun a ls m'
    (rest.1, (l.lane, old, r.2.1) :: rest.2.1, r.2.2 ||| rest.2.2)

/-- What a completed atomic writes in its group (R220, R323, R326): flags, old values in the lanes performed, and for `ACAS`
the pair. -/
def atomWrites (g g' : Group) (o : Op) (a : AtomCmd) (res : List (Nat × Nat × Bool)) (fl : BitVec 7) : Prop :=
  g'.flg = g.flg ||| fl.setWidth 32 ∧
  (∀ k l, l < 64 → g'.rdV k l = match res.find? fun x => x.1 == l with
    | some x =>
      if a.ret = true ∧ o.dst = .v (BitVec.ofNat 8 k) ∧ k < 256 then BitVec.ofNat 32 x.2.1
      else if a.hi = .v (BitVec.ofNat 8 k) ∧ k < 256 then BitVec.ofNat 32 (x.2.1 / 2 ^ 32)
      else g.rdV k l
    | none => g.rdV k l) ∧
  (∀ k, g'.rdS k = match res.head? with
    | some x =>
      if a.ret = true ∧ o.dst = .s (BitVec.ofNat 10 k) ∧ k < 1024 then BitVec.ofNat 32 x.2.1
      else if a.hi = .s (BitVec.ofNat 10 k) ∧ k < 1024 then BitVec.ofNat 32 (x.2.1 / 2 ^ 32)
      else g.rdS k
    | none => g.rdS k) ∧
  pairIn g g' (if a.cas then o.exec else 0) o.p fun l => res.any fun x => x.1 == (if o.uni then 0 else l) && x.2.2

/-- Access sizes of R320 and R325. -/
def atomSize (a : AtomCmd) : Prop := a.sz = 4 ∨ (a.sz = 8 ∧ a.cas = true)

/-- The low and high registers of an old value differ and are not also both written to one file's register. -/
def apart (o : Op) (a : AtomCmd) : Prop := a.hi = .none ∨ a.hi ≠ o.dst

/-- A fence's condition (R317). -/
def fenceHolds (s : State) (g : Group) (k : FenceKind) (x : Scope) : Prop :=
  (∀ a ∈ s.lacc, a.gid ≠ g.gid) ∧
    match x with
    | .grp | .team => True
    | .clu => g.pathCount .G = 0
    | _ => g.pathCount .G = 0 ∧ g.pathCount .A = 0 ∧ g.pathCount .F = 0 ∧ g.pathCount .S = 0 ∧
        (k ≠ .acq → g.pathCount .C = 0)

/-- `FENCE` and `FENCE.code` with the condition they wait for (R317, R318). -/
def fences : Instr → Option (Hdr × FenceKind × Scope × Bool)
  | .fence h k x => some (h, k, x, false)
  | .fenceCode h => some (h, .rel, .dev, true)
  | _ => none

end Sys2Proof.Claims

/-- R25, R60: an instruction that names a barrier its team does not have takes class 7, subcode 0x10, whatever its guard, when no
cause before it is met.
R182-R187: `BINIT` sets expected and clears arrived, bytes and status unless the count is too large or the barrier is busy; `BARR`
makes one arrival, waiting for earlier local accesses; `BWAIT` parks while the generation is the one it names; `BARW` arrives and waits;
`BINV` breaks the phase; a phase that ends releases its waiters with their predicates; `BQRY` reads one field. -/
def Obligations.BarrierEffects : Prop :=
  (∀ (s : State) (g : Group) (i : Instr) (b : Bar) (u : Team), barrierOf i = some b → s.grp? s.cur = some g →
    s.team? g.tid = some u → s.ready g (infoOf g.fmt i) = true → s.issueTrap g { infoOf g.fmt i with bar := none } = none →
    noSuchBar u b → g.dep = 0 → g.sb.valid = false →
    traps i s g 7 0x10 (if isUni g i then 1 else g.mask)) ∧
  (∀ (s : State) (g : Group) (i : Instr) (h : Hdr) (b : BitVec 4) (n : Nat) (u : Team), binits g i = some (h, b, n) →
    runs s g i = true → h.ch = false → s.team? g.tid = some u →
    (guarded g h = false → goes i s { g with pc := seqNext g.pc (ilen g i) }) ∧
    (guarded g h = true → g.sb.valid = false →
      (65535 < n → traps i s g 7 0x13 1) ∧ (n ≤ 65535 → busyBar s u b → traps i s g 7 0x11 1)) ∧
    (guarded g h = true → n ≤ 65535 → ¬ busyBar s u b →
      ∃ t g', exec i s = .next t ∧ t.grp? s.cur = some g' ∧ passed g g' i ∧ t.mem = s.mem ∧
        barNow t g.tid (.b b) { u.bar b.toNat with expected := BitVec.ofNat 16 n, arrived := 0, bytes := 0, status := 0 })) ∧
  (∀ (s : State) (g : Group) (h : Hdr) (b : Bar) (u : Team), runs s g (.barr h b) = true → h.ch = false →
    s.team? g.tid = some u → (∀ k, b = .bcl → u.clid = some k → ∃ c, s.clu? k = some c) →
    let i := Instr.barr h b
    let x := s.barOf u b
    (guarded g h = false → goes i s { g with pc := seqNext g.pc 8 }) ∧
    (guarded g h = true → x.expected = 0 → g.sb.valid = false → traps i s g 7 0x12 1) ∧
    (guarded g h = true → x.expected ≠ 0 → mustWait s g b → exec i s = .next s) ∧
    (guarded g h = true → x.expected ≠ 0 → ¬ mustWait s g b →
      ∃ t g', exec i s = .next t ∧ t.grp? s.cur = some g' ∧ passed g g' i ∧ t.mem = s.mem ∧ t.ops = s.ops ∧
        barNow t g.tid b (groupArrives x) ∧ released s t u b (groupArrives x))) ∧
  (∀ (s : State) (g : Group) (h : Hdr) (d : CmpDst) (b : Bar) (y : Opnd) (u : Team), runs s g (.bwait h d b y) = true →
    h.ch = false → s.team? g.tid = some u →
    let i := Instr.bwait h d b y
    let x := s.barOf u b
    (guarded g h = false → goes i s { g with pc := seqNext g.pc 8 }) ∧
    (guarded g h = true → x.generation = g.opnd y 0 →
      ∃ tag, goes i s { g with pc := seqNext g.pc 8, park := some (.bwait b x.generation d tag) }) ∧
    (guarded g h = true → x.generation ≠ g.opnd y 0 →
      ∃ t g', exec i s = .next t ∧ t.grp? s.cur = some g' ∧ onlyGroup s t s.cur ∧ g'.park = none ∧ g'.v = g.v ∧ g'.s = g.s ∧
        g'.pc = seqNext g.pc 8 ∧ pairIn g g' g.mask d fun _ => decide (x.outcome = 0))) ∧
  (∀ (s : State) (g : Group) (h : Hdr) (d : CmpDst) (b : Bar) (u : Team), runs s g (.barw h d b) = true → h.ch = false →
    s.team? g.tid = some u → (∀ k, b = .bcl → u.clid = some k → ∃ c, s.clu? k = some c) →
    let i := Instr.barw h d b
    let x := s.barOf u b
    (guarded g h = false → goes i s { g with pc := seqNext g.pc 8 }) ∧
    (guarded g h = true → x.expected = 0 → g.sb.valid = false → traps i s g 7 0x12 1) ∧
    (guarded g h = true → x.expected ≠ 0 → mustWait s g b → exec i s = .next s) ∧
    (guarded g h = true → x.expected ≠ 0 → ¬ mustWait s g b →
      ∃ t g', exec i s = .next t ∧ t.grp? s.cur = some g' ∧ g'.v = g.v ∧ g'.s = g.s ∧ g'.pc = seqNext g.pc 8 ∧
        t.mem = s.mem ∧ barNow t g.tid b (groupArrives x) ∧ released s t u b (groupArrives x) ∧
        (x.arrived + 1 ≠ x.expected → g'.p = g.p ∧ ∃ tag, g'.park = some (.bwait b x.generation d tag)) ∧
        (x.arrived + 1 = x.expected → g'.park = none ∧ pairIn g g' g.mask d fun _ => true))) ∧
  (∀ (s : State) (g : Group) (h : Hdr) (b : BitVec 4) (u : Team), runs s g (.binv h b) = true → h.ch = false →
    s.team? g.tid = some u →
    let x := u.bar b.toNat
    let y := { x with arrived := 0, generation := x.generation + 1, bytes := 0, status := 3, outcome := 3 }
    (guarded g h = false → goes (.binv h b) s { g with pc := seqNext g.pc 8 }) ∧
    (guarded g h = true → ∃ t g', exec (.binv h b) s = .next t ∧ t.grp? s.cur = some g' ∧ passed g g' (.binv h b) ∧
      t.mem = s.mem ∧ barNow t g.tid (.b b) y ∧ released s t u (.b b) y)) ∧
  (∀ (s : State) (g : Group) (h : Hdr) (d : Dst) (sel : BSel) (b : Bar) (u : Team), runs s g (.bqry h d sel b) = true →
    h.ch = false → s.team? g.tid = some u →
    let x := s.barOf u b
    let v := match sel with
      | .exp => x.expected.toNat
      | .arr => x.arrived.toNat
      | .gen => x.generation.toNat
      | .bytes => x.bytes.toNat
      | .stat => x.status.toNat
      | .out => x.outcome.toNat
      | .wait => s.waiters u b
      | .pend => match b with | .b n => s.outstanding u n.toNat | .bcl => 0
    ∃ t, exec (.bqry h d sel b) s = .next t ∧ ranAlu s t g (.bqry h d sel b) h d fun _ => (BitVec.ofNat 32 v, 0))

/-- R320, R322, R323, R325, R327, R329: an atomic is checked over its evaluating lanes in the order alignment, then in X or W
allocation and owner, or outside the range 2^54; when all pass it counts on path A and is on its way, to the homes of its lanes, each
translated at issue and held with a fault record where that fails, or, in X or W, to the buffer's ALU 4 or 6 cycles later. With no
executing lane it makes no access. That an ordered atomic in X or W waits at issue for an earlier ordered one is the model's choice (log
entry 85). -/
def Obligations.AtomicIssue : Prop :=
  ∀ (s : State) (g : Group) (i : Instr) (h : Hdr) (lo hi : Dst) (p : CmpDst) (base : ABase) (off : Opnd) (a : AtomCmd)
    (data cmp : Group → Nat → DWord) (u : Team), atoms i = some (h, lo, hi, p, base, off, a, data, cmp) →
    runs s g i = true → h.ch = false → s.team? g.tid = some u →
    let ls := evalsIn g i h
    (guarded g h = false → ∃ t, exec i s = .next t ∧ idles s t g i) ∧
    (∀ q, guarded g h = true → base = .ext q →
      let f := fun l => (g.pairS q.toNat).toNat + (g.opnd off l).toNat
      let mis := lanesThat g i h fun l => decide (f l % a.sz ≠ 0)
      let far := lanesThat g i h fun l => decide (2 ^ 54 ≤ f l)
      (g.dep = 0 → g.sb.valid = false →
        (mis ≠ 0 → traps i s g 2 0x11 mis) ∧ (mis = 0 → far ≠ 0 → traps i s g 8 0x05 far)) ∧
      (mis = 0 → far = 0 → untainted g i → u.det = false → s.checked u = none →
        (∀ l ∈ ls, ∀ pa, s.xlate g.core (s.ctxOfG g) (f l) .write g.sup = .pa pa → isMem s pa) →
        (∀ l k c, l ∈ ls → s.xlate g.core (s.ctxOfG g) (f l) .write g.sup = .bad k → k < 256 → s.ctx? (s.ctxOfG g) = some c →
          (∀ m ∈ ls, m < l → ∃ pa, s.xlate g.core (s.ctxOfG g) (f m) .write g.sup = .pa pa) →
          ∃ t c', exec i s = .next t ∧ laneIs t s.nextId l (fun x => x.va = f l ∧ x.st = .held (BitVec.ofNat 8 k)) ∧
            t.ctx? (s.ctxOfG g) = some c' ∧ ∃ r ∈ c'.faults, r.id = faultId g ∧ r.pc = g.pc) ∧
        ((∀ l ∈ ls, ∃ pa, s.xlate g.core (s.ctxOfG g) (f l) .write g.sup = .pa pa) → ∃ t o, exec i s = .next t ∧ handed s t g i (some .A) o ∧ o.cmd = .atomic { a with hi := hi } ∧ o.dst = lo ∧ o.p = p ∧
          o.lanes.map (fun l => (l.lane, l.va, l.data, l.cmp)) = ls.map (fun l => (l, f l, data g l, cmp g l)) ∧
          ∀ l ∈ o.lanes, l.st = .pending ∧ s.xlate g.core (s.ctxOfG g) (f l.lane) .write g.sup = .pa l.pa))) ∧
    (∀ b y, guarded g h = true → base = .loc b y →
      let e := effAddr g y off
      let size := if b = .x then u.xbytes else u.wbytes
      let mis := lanesThat g i h fun l => decide (e l % (a.sz : Int) ≠ 0)
      let c1 := lanesThat g i h fun l => decide (e l < 0 ∨ (size : Int) < e l + a.sz)
      let c3 := lanesThat g i h fun l => decide (u.owner b ((e l).toNat / 4096) ≠ .group)
      (g.dep = 0 → g.sb.valid = false →
        (mis ≠ 0 → traps i s g 2 0x11 mis) ∧
        (mis = 0 → c1 ≠ 0 → traps i s g 3 (if b = .x then 1 else 2) c1) ∧
        (mis = 0 → c1 = 0 → c3 ≠ 0 → traps i s g 2 0x10 c3)) ∧
      (mis = 0 → c1 = 0 → c3 = 0 → untainted g i → s.checked u = none →
        (∀ l ∈ ls, u.rangeTag b (e l).toNat a.sz = 0) →
        let earlier := ∃ q ∈ s.ops, q.gid = g.gid ∧ q.id < s.nextId ∧ ∃ d, q.cmd = .atomic d ∧ d.ord = true ∧
          ∃ l ∈ q.lanes, l.st.ended = false
        (a.ord = true → earlier → exec i s = .next s) ∧
        (¬ (a.ord = true ∧ earlier) → ∃ t g' o x, exec i s = .next t ∧ t.grp? s.cur = some g' ∧ keepsRegs g g' ∧ g'.pc = seqNext g.pc (ilen g i) ∧
          t.mem = s.mem ∧ t.teams = s.teams ∧ newOp s t o ∧ o.cmd = .atomic { a with hi := hi, loc := some b } ∧ o.dst = lo ∧
          o.p = p ∧ g'.inFlight = g.inFlight ++ [⟨.A, s.nextId, false⟩] ∧
          o.lanes.map (fun l => (l.lane, l.va, l.data, l.cmp)) = ls.map (fun l => (l, (e l).toNat, data g l, cmp g l)) ∧
          queuedAcc s t g x ∧ x.buf = b ∧ x.atom = some o.id ∧ x.due = s.cycleOf g + (if b = .x then 4 else 6))))

/-- R220, R323, R324, R326, R327, R329: an external lane is one access at its home, which leaves f(old, v), or for `ACAS` the new value
where old equals cmp, and replies old; the lanes of one instruction to one location follow one another in ascending order with nothing
between, up to one that is held; one that leads back to this rank is looked up once and performed at a later turn (R235); a lane that its target refuses is settled. A held lane is translated again after a `VINV`. A local atomic performs its lanes in
ascending order. At completion the flags, the old values and the `ACAS` predicates are written and path A falls; that a uniform
`ACAS` writes its pair in every executing lane is the model's choice (log entry 61). -/
def Obligations.AtomicAccesses : Prop :=
  (∀ (s : State) (op lane : Nat) (o : Op) (a : AtomCmd) (l : Lane) (u : Team) (far : Option LaneAns), atomSize a →
    s.op? op = some o → o.cmd = .atomic a → o.lane? lane = some l → o.st = .active → a.loc = none → l.st = .pending →
    (o.lanes.map (·.lane)).Nodup → s.atomBlocked o a l = false → s.lowerLane o l = false → s.team? o.tid = some u → u.det = false →
    s.checked u = none →
    let there := (o.lanes.filter fun x => s.sameSpot o l x).takeWhile fun x => x.st == .pending
    ((∀ x ∈ there, x.via = none ∧ isMem s x.pa) → s.poisoned l.pa a.sz = false →
      let r := atomRun a (there.map fun x => { x with va := 0 }) fun k => s.rd (l.pa + k)
      ∃ t o', exec (.atomicPerformed op lane far) s = .next t ∧ storedAt s t l.pa a.sz r.1 ∧ t.groups = s.groups ∧
        t.op? op = some o' ∧ o'.flags = o.flags ||| r.2.2 ∧
        ∀ x ∈ r.2.1, laneIs t op x.1 fun y => y.st = .done ∧ y.res = BitVec.ofNat 64 x.2.1 ∧ y.ok = (x.2.2 || !a.cas)) ∧
    (∀ w off k, l.via = some (.own w off) → far = none → exported s w off a.sz .upd = .bad k →
      ∃ t, exec (.atomicPerformed op lane far) s = .next t ∧
        laneIs t op lane fun x => x.st = .settled (BitVec.ofNat 8 k)) ∧
    (∀ w off pa, l.via = some (.own w off) → far = none → exported s w off a.sz .upd = .pa pa →
      ∃ t, exec (.atomicPerformed op lane far) s = .next t ∧ t.mem = s.mem ∧
        laneIs t op lane fun x => x.st = .pending ∧ x.via = some (.mem pa)) ∧
    (∀ w ans, l.via = some (.far w) → far = some ans →
      ∃ t, exec (.atomicPerformed op lane far) s = .next t ∧
        (ans.ok = true → t.mem = s.mem ∧ laneIs t op lane fun x => x.st = .done ∧ x.poison = ans.poison) ∧
        (ans.ok = false → laneIs t op lane fun x => x.st = .settled ans.cause))) ∧
  (∀ (s : State) (op lane : Nat) (o : Op) (a : AtomCmd) (l : Lane) (g : Group), s.op? op = some o → o.cmd = .atomic a →
    o.lane? lane = some l → o.st = .active → a.loc = none → l.st = .retry → s.grp? o.gid = some g →
    (o.lanes.map (·.lane)).Nodup →
    (∀ pa, s.xlate g.core o.ctx l.va .write o.sup = .pa pa → isMem s pa → ∃ t, exec (.atomicRetry op lane) s = .next t ∧ t.mem = s.mem ∧
      t.groups = s.groups ∧ laneIs t op lane fun x => x.st = .pending ∧ x.pa = pa) ∧
    (∀ k c, s.xlate g.core o.ctx l.va .write o.sup = .bad k → k < 256 → s.ctx? o.ctx = some c →
      ∃ t c', exec (.atomicRetry op lane) s = .next t ∧ t.ctx? o.ctx = some c' ∧
        (∃ r ∈ c'.faults, r.id = faultId g ∧ r.pc = o.pc) ∧ laneIs t op lane fun x => x.st = .held (BitVec.ofNat 8 k))) ∧
  (∀ (s : State) (core : Nat) (x : LAcc) (o : Op) (a : AtomCmd) (g : Group) (u : Team), atomSize a → nextAcc s core x →
    x.atom = some o.id → s.op? o.id = some o → o.cmd = .atomic a → a.loc = some x.buf → o.suppressed = false →
    s.team? x.tid = some u → s.grp? o.gid = some g → x.gid = o.gid → g.exited = false → apart o a →
    (∀ l ∈ o.lanes, u.poisoned x.buf l.va a.sz = false) →
    let r := atomRun a o.lanes (fun k => u.rd x.buf k)
    ∃ t g' u', exec (.localAccessPerformed core) s = .next t ∧ t.mem = s.mem ∧ t.team? x.tid = some u' ∧
      (∀ k, u'.rd x.buf k = r.1 k) ∧ (∀ b k, b ≠ x.buf → u'.rd b k = u.rd b k) ∧ t.grp? o.gid = some g' ∧
      t.ops = s.ops.filter (fun y => y.id != o.id) ∧ (∀ e ∈ g'.inFlight, e.op = o.id → e.done = true) ∧
      atomWrites g g' o a r.2.1 r.2.2) ∧
  (∀ (s : State) (o : Op) (a : AtomCmd) (g : Group), s.op? o.id = some o → o.cmd = .atomic a → o.st = .active →
    a.loc = none → o.suppressed = false → s.grp? o.gid = some g → apart o a →
    (∀ l ∈ o.lanes, l.st = .done ∨ ∃ k, l.st = .settled k) →
    ∃ t g', exec (.atomicComplete o.id) s = .next t ∧ t.mem = s.mem ∧ t.grp? o.gid = some g' ∧
      t.ops = s.ops.filter (fun y => y.id != o.id) ∧ (∀ e ∈ g'.inFlight, e.op = o.id → e.done = true) ∧
      atomWrites g g' o a ((o.lanes.filter fun l => l.st == .done).map fun l => (l.lane, l.res.toNat, l.ok)) o.flags)

/-- R317, R318, R351: a fence keeps its group not ready until its condition holds, and then only completes; `FENCE.code` also empties
the instruction cache of its core and is noted in its group, which from then on fetches no older block. `RACEQ.head` writes the race-log count; `RACEQ.base` sets the ring base and clears the count, after the
alignment check of class 2 subcode 0x11 and the range check of class 8 cause 0x05. -/
def Obligations.FencesAndRaceLog : Prop :=
  (∀ (s : State) (g : Group) (i : Instr) (h : Hdr) (k : FenceKind) (x : Scope) (code : Bool), fences i = some (h, k, x, code) →
    runs s g i = true → h.ch = false →
    (guarded g h = false → goes i s { g with pc := seqNext g.pc 8 }) ∧
    (guarded g h = true → ¬ fenceHolds s g k x → exec i s = .next s) ∧
    (guarded g h = true → fenceHolds s g k x → ∃ t g', exec i s = .next t ∧ t.grp? s.cur = some g' ∧
      passed { g with codeAt := if code then s.free else g.codeAt } g' i ∧
      t = { s with groups := t.groups, lacc := t.lacc, race := t.race, icache := t.icache } ∧
      (∀ n, n ≠ s.cur → t.grp? n = s.grp? n) ∧
      t.icache = if code then s.icache.filter fun l => l.core != g.core else s.icache)) ∧
  (∀ (s : State) (g : Group) (h : Hdr) (d : Dst) (c : Ctx), runs s g (.raceqHead h d) = true →
    s.ctx? (s.ctxOfG g) = some c →
    ∃ t, exec (.raceqHead h d) s = .next t ∧ ranAlu s t g (.raceqHead h d) h d fun _ => (c.raceCount, 0)) ∧
  (∀ (s : State) (g : Group) (h : Hdr) (a : SReg) (c : Ctx), runs s g (.raceqBase h a) = true → h.ch = false →
    s.ctx? (s.ctxOfG g) = some c →
    let va := g.pairS a.toNat
    (guarded g h = false → goes (.raceqBase h a) s { g with pc := seqNext g.pc 8 }) ∧
    (guarded g h = true → g.dep = 0 → g.sb.valid = false →
      (va.toNat % 4096 ≠ 0 → traps (.raceqBase h a) s g 2 0x11 1) ∧
      (va.toNat % 4096 = 0 → 2 ^ 54 ≤ va.toNat → traps (.raceqBase h a) s g 8 0x05 1)) ∧
    (guarded g h = true → va.toNat % 4096 = 0 → va.toNat < 2 ^ 54 →
      ∃ t g' c', exec (.raceqBase h a) s = .next t ∧ t.grp? s.cur = some g' ∧ passed g g' (.raceqBase h a) ∧ t.mem = s.mem ∧
        t.ctx? (s.ctxOfG g) = some c' ∧ c' = { c with raceBase := va, raceCount := 0 }))

namespace Sys2Proof.Claims

/-! ## Assumptions -/

/-- Some slot of a mask holds a child assumption (R301). -/
def holdsChild (u : Team) (m : Tags) : Prop := ∃ k x, k < 8 ∧ m.getLsbD k = true ∧ u.slots[k]? = some x ∧ x.child = true

/-- The lowest free slot (R291). -/
def lowestFree (u : Team) (k : Nat) : Prop :=
  k < 8 ∧ (∃ x, u.slots[k]? = some x ∧ x.st = .free) ∧ ∀ j x, j < k → u.slots[j]? = some x → x.st ≠ .free

/-- A synchronous trap of a tainted group waits inside the instruction (R306). -/
def trapWaits (i : Instr) (s : State) (g : Group) (cls sub : Nat) : Prop :=
  ∃ t g' r, exec i s = .next t ∧ t.grp? s.cur = some g' ∧ onlyGroup s t s.cur ∧ g'.park = some (.trapTainted r) ∧
    r.cls = cls ∧ r.sub = sub ∧ r.cpc = g.pc ∧ keepsRegs g g' ∧ g'.pc = g.pc ∧ g'.dep = g.dep

/-- A group that holds a new assumption in slot `k` (R289, R291): the snapshot of what was, the bit of DEP, the value with
the slot in its mask, the AID without it. -/
def minted (g g' : Group) (k d ireg : Nat) (val aid : Word) (len : Nat) (kind : SnapKind) : Prop :=
  g'.dep = g.dep ||| (1#8 <<< k) ∧ g'.pc = seqNext g.pc len ∧ g'.park = none ∧ g'.p = g.p ∧ (∀ r l, g'.rdV r l = g.rdV r l) ∧
    (∀ r, g'.rdS r = if r = ireg then aid else if r = d then val else g.rdS r) ∧
    (d ≠ ireg → (g'.stagOf d).getLsbD k = true) ∧
    ∃ x, g'.snaps = x :: g.snaps ∧ x.slot = k ∧ x.kind = kind ∧ x.v = g.v ∧ x.s = g.s ∧ x.p = g.p ∧ x.mask = g.mask ∧
      x.stack = g.stack ∧ x.fmt = g.fmt ∧ x.flg = g.flg ∧ x.pc = g.pc

/-- A home entry that has been allocated for an assumption of a team (R284, R291). -/
def allocated (s t : State) (u : Team) (g : Group) (k : Nat) (aid : Word) (kindN : Bool) : Prop :=
  ∃ i u', i < 4096 ∧ (s.home? i).st = .free ∧ (t.home? i).st = .live ∧ (t.home? i).gen = ((s.home? i).gen + 1) % 1023 ∧
    (t.home? i).kindN = kindN ∧ (t.home? i).ctx = u.ctx ∧ (t.home? i).tid = u.tid ∧ (t.home? i).parents = u.aidsIn g.dep ∧
    aid = BitVec.ofNat 32 (s.rank * 2 ^ 22 + i * 2 ^ 10 + (t.home? i).gen) ∧
    t.team? u.tid = some u' ∧ (∃ x, u'.slots[k]? = some x ∧ x.st = .loc ∧ x.aid = aid) ∧
    (∀ j, j ≠ i → t.home? j = s.home? j)

/-- A resolution of a home entry (R283, R285, R302): affirmed, or denied with its outcome bit; the slots bound to it drain or
roll back until it reaches their teams; its importers are told. -/
def resolvedAs (s t : State) (i : Nat) (ok : Bool) : Prop :=
  let e := s.home? i
  let aid := aidOf s.rank i e.gen
  (t.home? i).st = (if ok then .affirmed else .denied) ∧ (t.home? i).gen = e.gen ∧
    sget false (t.home? i).outcome e.gen = !ok ∧ (t.home? i).resolvedAt = s.clock ∧
    (∀ j, j ≠ i → t.home? j = s.home? j) ∧ t.mem = s.mem ∧ t.groups = s.groups ∧
    t.out = (e.importers.map fun r => Out.resolution r aid ok).reverse ++ s.out ∧
    ∀ n (u : Team), s.team? n = some u → ∃ u' : Team, t.team? n = some u' ∧ u' = { u with slots := u'.slots } ∧
      ∀ (k : Nat) (x : TSlot), u.slots[k]? = some x → u'.slots[k]? = some
        (if x.st ≠ .free ∧ x.aid = aid then { x with st := if ok then .draining else .rollingBack } else x)

/-- `AFFIRM` and `DENY` (R293). -/
def resolves : Instr → Option (Hdr × Bool × CmpDst × Opnd)
  | .affirm h p a => some (h, true, p, a)
  | .deny h p a => some (h, false, p, a)
  | _ => none

/-- The one team that binds an AID of this home, in slot `k`, whose resolution is the next to be applied, with its groups
between chains and no child assumption to settle first. -/
def settlesIn (s : State) (u : Team) (a : Word) (k : Nat) : Prop :=
  s.team? u.tid = some u ∧ u.slotOf a = some k ∧ (∀ t ∈ s.teams, t.slotOf a ≠ none → t = u) ∧
    (s.teams.filter fun t => t.tid == u.tid) = [u] ∧ s.children a = [] ∧
    s.between [a] = true ∧ aidHome a = s.rank ∧ s.nextApplied a = true ∧
    (∀ y ∈ s.groups, (s.groups.filter fun z => z.gid == y.gid) = [y]) ∧
    (∃ y ∈ s.groups, y.tid = u.tid ∧ y.ended = false) ∧
    (∀ y ∈ s.groups, y.tid = u.tid → (∀ m, y.park ≠ some (.exitTainted m)) ∧ ∀ r, y.park ≠ some (.trapTainted r))

/-- Group `n` goes back to a snapshot taken no later than operation `m` of slot `k` (R304). -/
def goesBack (s : State) (u : Team) (k n m : Nat) : Prop :=
  ∃ g ∈ s.groups, g.gid = n ∧ g.tid = u.tid ∧ ∃ x, g.snaps.find? (fun y => y.slot == k) = some x ∧ x.opMark ≤ m

/-- The oldest undo entry of a line, or of a tile, with slot `k` (R296, R304). -/
def oldLine (u : Team) (k : Nat) (b : Buf) (n : Nat) : Option (List Byte × Tags) :=
  u.undo.findSome? fun x => match x.what with
    | .line c m bs tg => if x.tags.getLsbD k = true ∧ c = b ∧ m = n then some (bs, tg) else none
    | _ => none
def oldTile (u : Team) (k : Nat) (b : Buf) (n : Nat) : Option Owner :=
  u.undo.findSome? fun x => match x.what with
    | .tile c m o => if x.tags.getLsbD k = true ∧ c = b ∧ m = n then some o else none
    | _ => none

/-- A held operation leaves the log of a team when slot `k` is denied (R304 step 4). -/
def goesWith (s : State) (u : Team) (k : Nat) (x : Held) : Prop := x.tags.getLsbD k = true ∨ goesBack s u k x.gid x.op

end Sys2Proof.Claims

/-- R289-R291, R301: `GUESS` on a pending handle, and `GUESS.N`, mint an assumption in the lowest free slot and a free home
entry, with the snapshot, value and AID of R291; `GUESS` on a handle that has ended writes its actual value and no AID; the home of another
rank's handle is asked to tell when it ends, and whether it had at issue is that rank's to know: the group mints, or waits for the answer (log entry
46). With no place `GUESS` parks, and `GUESS.N` takes class 9, subcode 0x02; a group that holds a
child meets class 9, subcode 0x01. -/
def Obligations.GuessEffects : Prop :=
  (∀ (s : State) (g : Group) (h : Hdr) (d ireg hnd : SReg) (val : Opnd) (w : BitVec 4) (u : Team),
    let i := Instr.guess h d val hnd ireg w
    let x := g.pairS hnd.toNat
    runs s g i = true → h.ch = false → s.team? g.tid = some u →
    let a := s.askHome x u.ctx
    let wait := fun (op : Nat) (full : Bool) => some (Park.guess op full d ireg x w.toNat (g.opnd val 0) g.pc (g.tSet (infoOf g.fmt i)))
    (guarded g h = false → goes i s { g with pc := seqNext g.pc 16 }) ∧
    (guarded g h = true → g.sb.valid = false → holdsChild u g.dep → trapWaits i s g 9 0x01) ∧
    (let asked := fun (t : State) (o : Op) => newOp s t o ∧ o.cmd = .hwait x ∧ o.gid = g.gid ∧
        t.out = .ask (hHome x) x s.nextId :: s.out ∧ t.mem = s.mem
      let waits := fun (g' : Group) (full : Bool) => keepsRegs g g' ∧ g'.pc = seqNext g.pc 16 ∧ g'.dep = g.dep ∧
        g'.park = wait s.nextId full
      guarded g h = true → ¬ holdsChild u g.dep → s.isFar x = true →
      ((¬ ∃ k, lowestFree u k) ∨ (∀ j, j < 4096 → s.allocatable j = false) →
        ∃ t g' o, exec i s = .next t ∧ t.grp? s.cur = some g' ∧ asked t o ∧ waits g' true) ∧
      ∀ k, lowestFree u k → g.dep.getLsbD k = false → (∃ j, j < 4096 ∧ s.allocatable j = true) →
        ∃ t g' o, exec i s = .next t ∧ t.grp? s.cur = some g' ∧ asked t o ∧ (waits g' false ∨
          ∃ aid, allocated s t u g k aid false ∧ minted g g' k d.toNat ireg.toNat (g.opnd val 0) aid 16 (.guess d ireg aid))) ∧
    (guarded g h = true → ¬ holdsChild u g.dep → s.isFar x = false → a.state ≠ 1 →
      ∃ t g', exec i s = .next t ∧ t.grp? s.cur = some g' ∧ onlyGroup s t s.cur ∧ g'.pc = seqNext g.pc 16 ∧ g'.p = g.p ∧
        g'.dep = g.dep ∧ g'.park = none ∧
        ∀ k, g'.rdS k = if k = ireg.toNat then 0xFFFFFFFF else if k = d.toNat then (actualOf a w.toNat).1 else g.rdS k) ∧
    (∀ k, guarded g h = true → ¬ holdsChild u g.dep → s.isFar x = false → a.state = 1 → lowestFree u k →
      g.dep.getLsbD k = false → (∃ j, j < 4096 ∧ s.allocatable j = true) →
      ∃ t g' aid, exec i s = .next t ∧ t.grp? s.cur = some g' ∧ allocated s t u g k aid false ∧ t.mem = s.mem ∧
        minted g g' k d.toNat ireg.toNat (g.opnd val 0) aid 16 (.guess d ireg aid)) ∧
    (guarded g h = true → ¬ holdsChild u g.dep → s.isFar x = false → a.state = 1 →
      (¬ ∃ k, lowestFree u k) ∨ (∀ j, j < 4096 → s.allocatable j = false) →
      goes i s { g with pc := seqNext g.pc 16, park := wait 0 true })) ∧
  (∀ (s : State) (o : Op) (g : Group) (full : Bool) (d ireg : SReg) (x : DWord) (w : Nat) (val : Word) (pc : DWord) (tag : Tags)
    (a : HomeAns) (u : Team), s.op? o.id = some o → o.cmd = .hwait x → s.grp? o.gid = some g → s.team? g.tid = some u →
    g.park = some (.guess o.id full d ireg x w val pc tag) →
    let i := Instr.homeAnswer o.id (some a)
    (a.state ≠ 1 → ∃ t g', exec i s = .next t ∧ t.grp? o.gid = some g' ∧ g'.pc = g.pc ∧ g'.p = g.p ∧ g'.v = g.v ∧ g'.dep = g.dep ∧
      g'.park = none ∧ t.ops = s.ops.filter (fun y => y.id != o.id) ∧ t.homes = s.homes ∧
      ∀ k, g'.rdS k = if k = ireg.toNat then 0xFFFFFFFF else if k = d.toNat then (actualOf a w).1 else g.rdS k) ∧
    (a.state = 1 → full = true → exec i s = .next s) ∧
    (∀ k, a.state = 1 → full = false → lowestFree u k → g.dep.getLsbD k = false → (∃ j, j < 4096 ∧ s.allocatable j = true) →
      ∃ t g' aid y, exec i s = .next t ∧ t.grp? o.gid = some g' ∧ allocated s t u g k aid false ∧ t.mem = s.mem ∧
        g'.dep = g.dep ||| (1#8 <<< k) ∧ g'.pc = g.pc ∧ g'.park = none ∧ (d ≠ ireg → (g'.stagOf d.toNat).getLsbD k = true) ∧
        (∀ r, g'.rdS r = if r = ireg.toNat then aid else if r = d.toNat then val else g.rdS r) ∧
        g'.snaps = y :: g.snaps ∧ y.slot = k ∧ y.kind = .guess d ireg aid ∧ y.pc = pc ∧ y.s = g.s ∧ y.v = g.v)) ∧
  (∀ (s : State) (g : Group) (h : Hdr) (d ireg : SReg) (val : Opnd) (off : Word) (u : Team),
    let i := Instr.guessN h d val ireg off
    runs s g i = true → h.ch = false → s.team? g.tid = some u →
    (guarded g h = false → goes i s { g with pc := seqNext g.pc 16 }) ∧
    (guarded g h = true → g.sb.valid = false →
      (g.dep = 0 → ¬ fits (target g off) → traps i s g 0 0x0A 1) ∧
      (fits (target g off) → holdsChild u g.dep → trapWaits i s g 9 0x01) ∧
      (g.dep = 0 → fits (target g off) → (¬ ∃ k, lowestFree u k) ∨ (∀ j, j < 4096 → s.allocatable j = false) →
        traps i s g 9 0x02 1)) ∧
    (∀ k, guarded g h = true → fits (target g off) → ¬ holdsChild u g.dep → lowestFree u k → g.dep.getLsbD k = false →
      (∃ j, j < 4096 ∧ s.allocatable j = true) →
      ∃ t g' aid, exec i s = .next t ∧ t.grp? s.cur = some g' ∧ allocated s t u g k aid true ∧ t.mem = s.mem ∧
        minted g g' k d.toNat ireg.toNat (g.opnd val 0) aid 16 (.guessN (target g off))))

/-- R284, R292-R294, R302: `AFFIRM` and `DENY` send their request unless another slot taints the group, which holds it; the home accepts it only
for the current generation of a live N entry of the same context, and then resolves it; the answer goes to the predicate pair. A handle that ends
affirms a matching H assumption and denies another; a resolved entry is free once its importers have acknowledged it and no team uses it. R300: a query of another rank
is answered and registers it as an importer, in the form that log entry 31 chooses. -/
def Obligations.AssumptionRequests : Prop :=
  (∀ (s : State) (g : Group) (i : Instr) (h : Hdr) (yes : Bool) (p : CmpDst) (a : Opnd) (u : Team),
    resolves i = some (h, yes, p, a) → runs s g i = true → h.ch = false → s.team? g.tid = some u →
    let aid := g.opnd a 0
    let own : Tags := match u.slotOf aid with | some k => 1#8 <<< k | none => 0
    (guarded g h = false → goes i s { g with pc := seqNext g.pc 8 }) ∧
    (guarded g h = true → g.dep &&& ~~~own = 0 →
      ∃ t g' o, exec i s = .next t ∧ t.grp? s.cur = some g' ∧ keepsRegs g g' ∧ g'.pc = seqNext g.pc 8 ∧
        g'.park = some (.answer s.nextId) ∧ newOp s t o ∧ o.cmd = .resolve aid yes ∧ o.st = .active ∧ o.p = p ∧
        o.status = 0 ∧ t.mem = s.mem ∧ t.homes = s.homes) ∧
    (guarded g h = true → g.dep &&& ~~~own ≠ 0 → u.held.length < 256 →
      ∃ t g' u' o, exec i s = .next t ∧ t.grp? s.cur = some g' ∧ keepsRegs g g' ∧ g'.pc = seqNext g.pc 8 ∧
        newOp s t o ∧ o.cmd = .resolve aid yes ∧ o.st = .held ∧ t.team? g.tid = some u' ∧ t.homes = s.homes ∧
        ∃ tags, u'.held = u.held ++ [⟨s.nextId, g.gid, tags⟩] ∧ g.dep &&& ~~~own &&& ~~~tags = 0)) ∧
  (∀ (s : State) (o : Op) (a : Word) (yes : Bool), s.op? o.id = some o → o.cmd = .resolve a yes → o.st = .active →
    o.status = 0 → aidHome a = s.rank →
    let e := s.home? (aidIndex a)
    let take := e.gen = aidGen a ∧ e.st = .live ∧ e.kindN = true ∧ e.ctx = o.ctx
    let i := Instr.homeResolveRequest a yes o.ctx s.rank o.id
    let answer := fun (t : State) (n : Nat) => ∃ o', t.op? o.id = some o' ∧ (o'.status = 1 ↔ n = 1) ∧ o'.status ≠ 0
    (¬ take → ∃ t, exec i s = .next t ∧ t.homes = s.homes ∧ t.groups = s.groups ∧ answer t 0) ∧
    (take → yes = false → ∃ t, exec i s = .next t ∧ resolvedAs s t (aidIndex a) false ∧ answer t 1) ∧
    (take → yes = true → e.parents = [] → ∃ t, exec i s = .next t ∧ resolvedAs s t (aidIndex a) true ∧ answer t 1)) ∧
  (∀ (s : State) (o : Op) (a : Word) (yes : Bool) (g : Group) (far : Option Bool) (ok : Bool), s.op? o.id = some o →
    o.cmd = .resolve a yes → o.st = .active → o.suppressed = false → s.grp? o.gid = some g →
    (aidHome a = s.rank → o.status ≠ 0 ∧ (ok = true ↔ o.status = 1)) → (aidHome a ≠ s.rank → far = some ok) →
    ∃ t g', exec (.resolveAnswer o.id far) s = .next t ∧ t.grp? o.gid = some g' ∧ pairIn g g' o.act o.p (fun _ => ok) ∧
      g'.v = g.v ∧ g'.s = g.s ∧ g'.park ≠ some (.answer o.id) ∧ t.ops = s.ops.filter (fun x => x.id != o.id) ∧ t.mem = s.mem) ∧
  (∀ (s : State) (aid : Word) (x : HomeAns),
    let e := s.home? (aidIndex aid)
    aidHome aid = s.rank → e.gen = aidGen aid → e.st = .live → e.kindN = false → e.ans = some x →
    let r := actualOf x e.word
    (r.2 = false → r.1 = e.val → e.parents = [] →
      ∃ t, exec (.handleAssumptionCheck aid) s = .next t ∧ resolvedAs s t (aidIndex aid) true) ∧
    (r.2 = true ∨ r.1 ≠ e.val →
      ∃ t, exec (.handleAssumptionCheck aid) s = .next t ∧ resolvedAs s t (aidIndex aid) false)) ∧
  (∀ (s : State) (i : Nat) (acks : List Nat) (asks : List (Nat × Nat)),
    let e := s.home? i
    i < 4096 → e.st = .affirmed ∨ e.st = .denied → (∀ r ∈ e.importers, r ∈ acks) → e.rno = 0 →
    (∀ u, s.team? e.tid = some u → u.slotOf (aidOf s.rank i e.gen) = none) →
    ∃ t, exec (.homeEntryFree i ⟨acks, asks⟩) s = .next t ∧ (t.home? i).st = .free ∧ (t.home? i).gen = e.gen ∧
      (∀ j, j ≠ i → t.home? j = s.home? j) ∧ t.mem = s.mem ∧ t.groups = s.groups) ∧
  (∀ (s : State) (i r n : Nat),
    let e := s.home? i
    let lives := e.gen = n ∧ (e.st = .live ∨ e.st = .affirmPending)
    s.mgmt.booted = true → i < 4096 → r < 1024 → r ≠ s.rank → n < 1024 →
    ∃ t, exec (.homeEntryFree i ⟨[], [(r, n)]⟩) s = .next t ∧
      t.out = .importAns r (aidOf s.rank i n) (if e.gen = n ∧ (e.st == .live || e.st == .affirmPending) then none
        else some (!sget false e.outcome n)) :: s.out ∧
      (∀ j, j ≠ i → t.home? j = s.home? j) ∧ t.mem = s.mem ∧ t.groups = s.groups ∧ (lives → r ∈ (t.home? i).importers) ∧
      ∀ q, q ≠ r → (q ∈ (t.home? i).importers ↔ q ∈ e.importers))

/-- R303, R304: an affirmation clears its slot from every mask, CTL and DEP of the binding team and frees the slot, with every register
and predicate as it was. A denial puts each group with the slot in DEP back to its snapshot, with the value and AID of R304 step 2 for the group that
guessed, writes back the oldest line and tile entries logged under the slot, discards held operations made under it, and returns the messages that
a group so restored had taken. A team that a message with the AID launched is dissolved. -/
def Obligations.AffirmationAndDenial : Prop :=
  (∀ (s : State) (u : Team) (a : Word) (k : Nat), settlesIn s u a k → (s.home? (aidIndex a)).st = .affirmed →
    (∀ x, u.held.head? = some x → x.tags &&& ~~~(1#8 <<< k) ≠ 0) →
    ∃ t u', exec (.affirmation a) s = .next t ∧ t.mem = s.mem ∧ t.team? u.tid = some u' ∧
      (∀ x, u'.slots[k]? = some x → x.st = .free) ∧ (∀ b o, u'.rd b o = u.rd b o) ∧
      (∀ b n, u'.lineTag b n = u.lineTag b n &&& ~~~(1#8 <<< k)) ∧
      (∀ x ∈ u'.undo, x.tags.getLsbD k = false ∧ ∀ b n bs m, x.what = .line b n bs m → m.getLsbD k = false) ∧
      (∀ q ∈ u'.quads, ∀ x ∈ q.sets, ∀ m ∈ x.issues, m.tag.getLsbD k = false) ∧
      u'.held = u.held.map (fun x => { x with tags := x.tags &&& ~~~(1#8 <<< k) }) ∧
      ∀ g ∈ s.groups, g.tid = u.tid → g.park = none → ∃ g', t.grp? g.gid = some g' ∧ keepsRegs g g' ∧ g'.pc = g.pc ∧
        g'.mask = g.mask ∧ g'.dep = g.dep &&& ~~~(1#8 <<< k) ∧ g'.ctl = g.ctl &&& ~~~(1#8 <<< k) ∧
        (∀ n, g'.stagOf n = g.stagOf n &&& ~~~(1#8 <<< k)) ∧ (∀ n, g'.vtagOf n = g.vtagOf n &&& ~~~(1#8 <<< k)) ∧
        (∀ n, g'.ptagOf n = g.ptagOf n &&& ~~~(1#8 <<< k)) ∧ ∀ x ∈ g'.snaps, x.slot ≠ k) ∧
  (∀ (s : State) (u : Team) (a : Word) (k : Nat), settlesIn s u a k → (s.home? (aidIndex a)).st = .denied → a ∉ u.aids →
    (∀ x ∈ u.held, x.op < s.nextId ∧ (goesWith s u k x ∨ x.tags &&& ~~~(1#8 <<< k) ≠ 0)) → (∀ x ∈ u.undo, ∀ b n bs m, x.what = .line b n bs m → bs.length = 64) →
    ∃ t u', exec (.denial a) s = .next t ∧ t.mem = s.mem ∧ t.team? u.tid = some u' ∧
      (∀ x, u'.slots[k]? = some x → x.st = .free) ∧
      (∀ g x, g ∈ s.groups → g.tid = u.tid → g.ended = false → g.snaps.find? (fun y => y.slot == k) = some x →
        ∃ g', t.grp? g.gid = some g' ∧ g'.v = x.v ∧ g'.p = x.p ∧ g'.mask = x.mask ∧ g'.stack = x.stack ∧ g'.fmt = x.fmt ∧
          g'.flg = x.flg ∧ g'.timer = x.timer ∧ g'.exited = false ∧ g'.park = none ∧
          match x.kind with
          | .guess d r aid => g'.pc = seqNext x.pc 16 ∧ g'.rdS r.toNat = aid ∧
              (∀ y, (s.home? (aidIndex a)).ans = some y → d ≠ r →
                g'.rdS d.toNat = (actualOf y (s.home? (aidIndex a)).word).1) ∧
              ∀ n, n ≠ d.toNat → n ≠ r.toNat → g'.rdS n = sget 0 x.s n
          | .guessN label => g'.pc = label ∧ g'.s = x.s
          | .other => g'.pc = x.pc ∧ g'.s = x.s) ∧
      (∀ g ∈ s.groups, g.tid = u.tid → g.park = none → g.ended = false → (∀ y ∈ g.snaps, y.slot ≠ k) →
        ∃ g', t.grp? g.gid = some g' ∧ keepsRegs g g' ∧ g'.pc = g.pc) ∧
      (∀ b n o, o < 64 → u'.rd b (64 * n + o) = match oldLine u k b n with | some (bs, _) => bs.getD o 0 | none => u.rd b (64 * n + o)) ∧
      (∀ b n, u'.lineTag b n = (match oldLine u k b n with | some (_, m) => m | none => u.lineTag b n) &&& ~~~(1#8 <<< k)) ∧
      ((∀ y ∈ s.groups, y.tid = u.tid → y.flip? = none) →
        ∀ b n, u'.owner b n = match oldTile u k b n with | some o => o | none => u.owner b n) ∧
      (∀ x ∈ u'.undo, x.tags.getLsbD k = false ∧ ∀ b n bs m, x.what = .line b n bs m → m.getLsbD k = false) ∧
      (∀ q ∈ u'.quads, ∀ x ∈ q.sets, ∀ m ∈ x.issues, m.tag.getLsbD k = false) ∧
      (∀ x ∈ u'.held, ∃ y ∈ u.held, ¬ goesWith s u k y ∧ x = { y with tags := y.tags &&& ~~~(1#8 <<< k) }) ∧
      (∀ y ∈ u.held, ¬ goesWith s u k y → { y with tags := y.tags &&& ~~~(1#8 <<< k) } ∈ u'.held) ∧
      (∀ x ∈ u.held, goesWith s u k x → t.op? x.op = none) ∧
      ∀ n m mk, u.taken = [(n, mk, m)] → goesBack s u k n mk → a ∉ m.aids → s.ctx? m.ctx ≠ none →
        (∀ b, (s.mboxOf m.ctx m.mbx).st ≠ .bound b) →
        (t.mboxOf m.ctx m.mbx).queue = m :: (s.mboxOf m.ctx m.mbx).queue.filter fun y => !y.aids.contains a) ∧
  (∀ (s : State) (u : Team) (a : Word) (k : Nat), settlesIn s u a k → (s.home? (aidIndex a)).st = .denied → a ∈ u.aids →
    (∀ x ∈ u.held, x.op < s.nextId) →
    ∃ t, exec (.denial a) s = .next t ∧ t.mem = s.mem ∧ t.team? u.tid = none ∧ (∀ g ∈ t.groups, g.tid ≠ u.tid) ∧
      ∀ x ∈ u.held, t.op? x.op = none)

namespace Sys2Proof.Claims

/-! ## Invocations and handles -/

/-- An event of operation `op` of another rank's source, or of a later one, has been signalled here (R244). -/
def isPast (s : State) (src : Nat) (sends : Bool) (num op : Nat) : Prop :=
  ∃ h ∈ s.heard, h.src = src ∧ h.sends = sends ∧ h.num = num ∧ op ≤ h.op

/-- A later operation of the source has reached some of `n` bytes at `pa` (R244). -/
def isOvertaken (s : State) (src : Nat) (sends : Bool) (num op pa n : Nat) : Prop :=
  ∃ x ∈ s.reached, x.src = src ∧ x.sends = sends ∧ x.num = num ∧ op < x.op ∧ x.pa < pa + n ∧ pa < x.pa + x.len

/-- The answer that says that the response limit has passed (R236). -/
def lateAnswer (far : Option LaneAns) : Prop := ∃ x, far = some x ∧ x.ok = false ∧ x.cause = 5

/-- An `INVH` finds no place in the forward queues of its upstream's home, this rank (R18, R360). -/
def noForwardPlace (s : State) (up : DWord) (ctx : Nat) : Prop :=
  let e := s.hent (hIndex up)
  isHandle up = true ∧ hHome up = s.rank ∧ e.gen = hGen up ∧ e.ctx = ctx ∧ e.dropped = false ∧
    (e.st = .pending ∨ (e.st = .resolved ∧ e.fwd ≠ [])) ∧ 4096 ≤ s.forwards

/-- `INVOKE` and `INVH`: header, handle pair, first word, mailbox, count − 1, predicates, and rank with core or upstream (R357). -/
def invOf : Instr → Option (Hdr × Option SReg × SReg × BitVec 12 × BitVec 4 × CmpDst × Sum (Opnd × Option (BitVec 8)) SReg)
  | .invoke h d w rank mbx n p core => some (h, d, w, mbx, n, p, .inl (rank, core))
  | .invh h d w up mbx n p => some (h, d, w, mbx, n, p, .inr up)
  | _ => none

/-- A handle that a context can mint now (R354, R355): the lowest free entry, its next generation, and the 64 bits. -/
def mints (s : State) (kind e gen : Nat) (hd : DWord) : Prop :=
  e < 65536 ∧ (s.hent e).st = .free ∧ (∀ j, j < e → (s.hent j).st ≠ .free) ∧ (s.hent e).gen ≤ 16383 ∧
    gen = (if (s.hent e).gen = 16383 then 1 else (s.hent e).gen + 1) ∧
    hd = BitVec.ofNat 64 (s.rank + e * 2 ^ 10 + gen * 2 ^ 26 + kind * 2 ^ 40)

/-- A scalar once a handle has been written to a pair. -/
def withPair (g : Group) (d : Option SReg) (hd : DWord) (k : Nat) : Word :=
  match d with
  | some r => if k = r.toNat + 1 then hiW hd else if k = r.toNat then loW hd else g.rdS k
  | none => g.rdS k

/-- The entry of a handle with its home here, pending and not dropped. -/
def pendingHere (s : State) (h : DWord) : Prop :=
  h ≠ 0 ∧ hHome h = s.rank ∧ (s.hent (hIndex h)).st = .pending ∧ (s.hent (hIndex h)).gen = hGen h ∧
    (s.hent (hIndex h)).dropped = false

/-- Whoever waits for a handle learns how it ended (R359): groups parked in `HWAIT` go on with their predicates written, and
continuation records become runnable. -/
def told (s t : State) (h : DWord) (ok : Bool) : Prop :=
  (∀ n y op form p hnd pc tag, s.grp? n = some y → y.park = some (.hwait op form p hnd pc tag) → sameEntry hnd h = true →
    form ≠ .trap ∨ ok = true → ∃ y', t.grp? n = some y' ∧ y'.park = none ∧ pairIn y y' y.mask p fun _ => ok) ∧
  ∀ k c r, s.ctx? k = some c → r ∈ c.conts → sameEntry r.handle h = true → r.outcome = none →
    ∃ c', t.ctx? k = some c' ∧ { r with outcome := some ok } ∈ c'.conts

/-- A handle has broken with a cause (R356), or resolved with words and a location (R359). -/
def broke (s t : State) (h : DWord) (cause : Nat) : Prop :=
  (t.hent (hIndex h)).st = .broken ∧ (t.hent (hIndex h)).cause = BitVec.ofNat 8 cause ∧ (t.hent (hIndex h)).gen = hGen h ∧ told s t h false
def settledAs (s t : State) (h : DWord) : InvEnd → Prop
  | .broken c => broke s t h c.toNat
  | .result ws loc => (t.hent (hIndex h)).st = .resolved ∧ (t.hent (hIndex h)).words = ws ∧ (t.hent (hIndex h)).loc = loc ∧
      (t.hent (hIndex h)).gen = hGen h ∧ told s t h true
  | .freed => (t.hent (hIndex h)).st = .free ∧ (t.hent (hIndex h)).gen = hGen h ∧ t.groups = s.groups ∧ t.ctxs = s.ctxs

/-- The registers of an invocation's team (R247, R359). -/
def invWords (m : InvMsg) (b : Binding) (ws : List Word) : Prop :=
  (∀ k, k < 16 → ws.getD k 0 = m.words.getD k 0) ∧ ws.getD 16 0 = BitVec.ofNat 32 m.words.length ∧
    ws.getD 17 0 = BitVec.ofNat 32 (m.src % 1024 + 3 * 2 ^ 30) ∧
    (20 ≤ b.sregs → ws.getD 18 0 = loW m.upstream ∧ ws.getD 19 0 = hiW m.upstream)

/-- A context has one more team to place, last (R30). -/
def oneMore (s t : State) (ctx : Nat) (c : Ctx) (q : PendTeam) : Prop :=
  s.ctx? ctx = some c ∧ t.ctx? ctx = some { c with pendTeams := c.pendTeams ++ [q] }

/-- What an invocation meets at a mailbox of this rank (R359): accepted with its team queued, or the cause of a refusal. -/
def invMeets (s t : State) (m : InvMsg) : Sum Unit Nat → Prop
  | .inl () => ∃ c b q, oneMore s t m.ctx c q ∧ (c.mboxAt m.mbx).st = .bound b ∧
      q.kind = .invocation m.handle m.src m.upstream ∧ q.b = b ∧ q.core = m.core ∧ q.cont = none ∧ invWords m b q.words ∧
      q.aids = m.aids.filter fun a => (s.resolved a).isNone
  | .inr cause => t.ctxs = s.ctxs ∧ ((s.ctx? m.ctx = none ∧ cause = 0x08) ∨
      ∃ c, s.ctx? m.ctx = some c ∧ (∀ b, (c.mboxAt m.mbx).st ≠ .bound b) ∧ cause = 0x07)

/-- A mailbox that invocations find bound, with assumptions that this rank knows of (R300). -/
def atBound (s : State) (m : InvMsg) : Prop :=
  m.words.length ≤ 16 ∧ (∀ a ∈ m.aids, aidHome a = s.rank ∨ (s.import? a).isSome) ∧
    ∃ c b, s.ctx? m.ctx = some c ∧ (c.mboxAt m.mbx).st = .bound b
/-- No assumption of a message has been denied, or one has. -/
def bound (s : State) (m : InvMsg) : Prop := atBound s m ∧ ∀ a ∈ m.aids, s.resolved a ≠ some false
def deniedMsg (s : State) (m : InvMsg) : Prop := atBound s m ∧ ∃ a ∈ m.aids, s.resolved a = some false

/-- One that refuses them. -/
def unbound (s : State) (m : InvMsg) : Prop :=
  s.ctx? m.ctx = none ∨ ∃ c, s.ctx? m.ctx = some c ∧ ∀ b, (c.mboxAt m.mbx).st ≠ .bound b

/-- An operation is over: it is gone, and its count with it. -/
def opOver (s t : State) (o : Op) : Prop :=
  t.ops = s.ops.filter (fun x => x.id != o.id) ∧
    ∀ g, s.grp? o.gid = some g → ∃ g', t.grp? o.gid = some g' ∧ ∀ e ∈ g'.inFlight, e.op = o.id → e.done = true

end Sys2Proof.Claims

/-- R357-R360 at the issuer: `INVOKE` and `INVH` check the rank, mint a handle in the lowest free entry and write it, set their
predicates and send the words; with no entry free nothing is sent and the predicates say so; `INVH` is not ready while the forward queues of
its home, this rank, are full (R18); their operation ends, with a broken handle where it was refused or the response limit passed (R236),
which does not pass for an `INVH` that is held (log entry 106). -/
def Obligations.InvocationIssue : Prop :=
  (∀ (s : State) (g : Group) (i : Instr) (h : Hdr) (d : Option SReg) (w : SReg) (mbx : BitVec 12) (n : BitVec 4) (p : CmpDst)
      (how : Sum (Opnd × Option (BitVec 8)) SReg) (u : Team),
    invOf i = some (h, d, w, mbx, n, p, how) → runs s g i = true → h.ch = false → s.team? g.tid = some u → s.rank < 1024 →
    let aids := u.aidsIn (g.tSet (infoOf g.fmt i))
    let rankOk := ∀ r k, how = .inl (r, k) → (g.opnd r 0).toNat < 1024
    let kind := match how with | .inl _ => 1 | .inr _ => 3
    let up := match how with | .inl _ => 0 | .inr r => g.pairS r.toNat
    let home := match how with | .inl (r, _) => (g.opnd r 0).toNat | .inr _ => hHome up
    let goesOut := match how with | .inl _ => true | .inr _ => isHandle up
    let sent := fun (m : InvMsg) (hd : DWord) => m.ctx = u.ctx ∧ m.mbx = mbx.toNat ∧ m.src = s.rank ∧ m.handle = hd ∧
      m.upstream = up ∧ m.aids = aids ∧ m.words.length = n.toNat + 1 ∧
      (∀ k, k ≤ n.toNat → m.words.getD k 0 = withPair g d hd (w.toNat + k)) ∧
      m.core = (match how with | .inl (_, k) => k.map (·.toNat) | .inr _ => none)
    let result := fun (hd : DWord) => ∃ t g', exec i s = .next t ∧ t.grp? s.cur = some g' ∧ g'.pc = seqNext g.pc (ilen g i) ∧
      g'.v = g.v ∧ (∀ k, g'.rdS k = withPair g d hd k) ∧ pairIn g g' g.mask p (fun _ => true) ∧
      (goesOut = true → t.mem = s.mem ∧ ∃ m o, sent m hd ∧ newOp s t o ∧ o.st = .active ∧ o.path = some .I ∧ o.status = 0 ∧ o.gid = g.gid ∧
        o.cmd = (match how with | .inl _ => .invoke home m | .inr _ => .invh m) ∧
        g'.inFlight = g.inFlight ++ [⟨.I, s.nextId, false⟩] ∧
        t.out = if home = s.rank then s.out else .inv home m :: s.out) ∧
      (∀ r, d = some r → ∃ e gen, mints s kind e gen hd ∧ (t.hent e).gen = gen ∧ (t.hent e).ctx = u.ctx ∧
        (t.hent e).kind = BitVec.ofNat 4 kind ∧ (∀ j, j ≠ e → t.hent j = s.hent j) ∧
        if goesOut then (t.hent e).st = .pending else (t.hent e).st = .broken ∧ (t.hent e).cause = 0x15)
    (guarded g h = false → ∃ t, exec i s = .next t ∧ idles s t g i) ∧
    (guarded g h = true → ¬ rankOk → g.dep = 0 → g.sb.valid = false → traps i s g 2 0x20 1) ∧
    let full := ∃ r, how = .inr r ∧ noForwardPlace s up u.ctx
    (guarded g h = true → full → exec i s = .next s) ∧
    (guarded g h = true → rankOk → ¬ full → aids.length ≤ 4 →
      (d = none → result 0) ∧ (∀ e gen hd, d ≠ none → mints s kind e gen hd → result hd) ∧
      (d ≠ none → (∀ e, e < 65536 → (s.hent e).st ≠ .free) →
        ∃ t g', exec i s = .next t ∧ t.grp? s.cur = some g' ∧ onlyGroups s t ∧ t.ops = s.ops ∧ g'.v = g.v ∧
          (∀ k, g'.rdS k = g.rdS k) ∧ pairIn g g' g.mask p (fun _ => false) ∧ g'.pc = seqNext g.pc (ilen g i)))) ∧
  (∀ (s : State) (o : Op) (m : InvMsg) (far : Option LaneAns) (dest : Nat), s.op? o.id = some o → o.st = .active →
    (o.cmd = .invoke dest m ∨ (o.cmd = .invh m ∧ dest = hHome m.upstream)) →
    let i := Instr.invocationCompletion o.id far
    let held := o.status = 0 ∧ o.cmd = .invh m ∧ noForwardPlace s m.upstream m.ctx
    (dest = s.rank → lateAnswer far → held → exec i s = .next s) ∧
    (dest = s.rank → lateAnswer far → ¬ held → pendingHere s m.handle → ∃ t, exec i s = .next t ∧ opOver s t o ∧ broke s t m.handle 5) ∧
    (dest = s.rank → ¬ lateAnswer far → o.status = 1 → ∃ t, exec i s = .next t ∧ opOver s t o ∧ t.handles = s.handles ∧ t.mem = s.mem) ∧
    (∀ a, dest ≠ s.rank → far = some a → a.ok = true →
      ∃ t, exec i s = .next t ∧ opOver s t o ∧ t.handles = s.handles ∧ t.mem = s.mem) ∧
    (∀ c, dest = s.rank → ¬ lateAnswer far → o.status = 2 + c → pendingHere s m.handle →
      ∃ t, exec i s = .next t ∧ opOver s t o ∧ broke s t m.handle c) ∧
    (∀ a, dest ≠ s.rank → far = some a → a.ok = false → pendingHere s m.handle →
      ∃ t, exec i s = .next t ∧ opOver s t o ∧ broke s t m.handle a.cause.toNat))

/-- R359, R360 where a message arrives: a bound mailbox takes an invocation as a team of its binding, with the registers of R247 and
R359; any other refuses it with cause 0x07, a missing context with 0x08. An `INVH` message joins its upstream's queue, or breaks with 0x15 or 0x11; the queue's head goes to the
location once the upstream has resolved and the one before it has ended. -/
def Obligations.InvocationArrivals : Prop :=
  (∀ (s : State) (m : InvMsg) (op : Nat), m.src ≠ s.rank → s.mgmt.booted = true →
    let i := Instr.invocationArrival m op
    (bound s m → ∃ t, exec i s = .next t ∧ invMeets s t m (.inl ()) ∧ t.out = .resp m.src op ⟨0, true, 0, 0, false⟩ :: s.out) ∧
    (deniedMsg s m → ∃ t, exec i s = .next t ∧ t.ctxs = s.ctxs ∧ t.teams = s.teams ∧ t.out = .resp m.src op ⟨0, true, 0, 0, false⟩ ::
      (if m.handle = 0 ∨ hHome m.handle = s.rank then s.out else .invEnd (hHome m.handle) m.handle .freed :: s.out)) ∧
    (unbound s m → ∃ t c, exec i s = .next t ∧ invMeets s t m (.inr c) ∧
      t.out = .resp m.src op ⟨0, false, BitVec.ofNat 8 c, 0, false⟩ :: s.out)) ∧
  (∀ (s : State) (m m' : InvMsg) (o : Op), m.src = s.rank → s.op? o.id = some o → o.cmd = .invoke s.rank m' → o.st = .active → o.status = 0 →
    s.invBlocked o = false →
    let i := Instr.invocationArrival m o.id
    let said := fun (t : State) (n : Nat) => ∃ o', t.op? o.id = some o' ∧ o'.status = n ∧ t.out = s.out
    (bound s m' → ∃ t, exec i s = .next t ∧ invMeets s t m' (.inl ()) ∧ said t 1) ∧
    (unbound s m' → ∃ t c, exec i s = .next t ∧ invMeets s t m' (.inr c) ∧ said t (2 + c))) ∧
  (∀ (s : State) (m : InvMsg) (op : Nat) (answers : Bool → Nat → List Out → State → Prop) (i : Instr),
    i = .invhArrival m op →
    (m.src ≠ s.rank ∧ s.mgmt.booted = true ∧ (m.handle ≠ 0 → hHome m.handle ≠ s.rank) ∧
      (answers = fun ok c o t => t.ops = s.ops ∧
        t.out = .resp m.src op ⟨0, true, 0, 0, false⟩ :: (if ok = true ∨ m.handle = 0 then o
          else .invEnd (hHome m.handle) m.handle (.broken (BitVec.ofNat 8 c)) :: o))) ∨
    (∃ o, m.src = s.rank ∧ s.op? op = some o ∧ o.cmd = .invh m ∧ hHome m.upstream = s.rank ∧ o.st = .active ∧ o.status = 0 ∧
      s.invBlocked o = false ∧
      (answers = fun ok c o t => t.out = o ∧ ∃ o', t.op? op = some o' ∧ o'.status = if ok then 1 else 2 + c)) →
    let k := hIndex m.upstream
    let e := s.hent k
    let stale := ¬ (isHandle m.upstream = true ∧ hHome m.upstream = s.rank ∧ e.gen = hGen m.upstream ∧
      e.st ≠ .free ∧ e.ctx = m.ctx ∧ e.dropped = false)
    let atOnce := e.st = .resolved ∧ e.fwd = []
    (stale → ∃ t, exec i s = .next t ∧ answers false 0x15 s.out t ∧ t.handles = s.handles) ∧
    (¬ stale → e.st = .broken → ∃ t, exec i s = .next t ∧ answers false 0x11 s.out t ∧ t.handles = s.handles) ∧
    (¬ stale → e.st ≠ .broken → ¬ atOnce → s.forwards < 4096 → ∃ t, exec i s = .next t ∧ answers true 0 s.out t ∧
      t.hent k = { e with fwd := e.fwd ++ [(m, op)] } ∧ ∀ j, j ≠ k → t.hent j = s.hent j) ∧
    (¬ stale → e.st ≠ .broken → ¬ atOnce → 4096 ≤ s.forwards → exec i s = .next s) ∧
    (¬ stale → atOnce → e.fwdBusy = false → hIndex m.handle ≠ k ∨ m.handle = 0 →
      (e.loc ≠ s.rank → ∃ t, exec i s = .next t ∧ answers true 0 (.invFwd e.loc m :: s.out) t ∧
        t.hent k = { e with fwd := [(m, op)], fwdBusy := true }) ∧
      (e.loc = s.rank → bound s m → ∃ t, exec i s = .next t ∧ answers true 0 s.out t ∧ invMeets s t m (.inl ()) ∧
        t.hent k = { e with fwd := [(m, op)], fwdBusy := true }) ∧
      (e.loc = s.rank → unbound s m → ∃ t, exec i s = .next t ∧ (t.hent k).fwd = [] ∧ (t.hent k).fwdBusy = false ∧
        (pendingHere s m.handle → broke s t m.handle (if s.ctx? m.ctx = none then 0x13 else 0x07))))) ∧
  (∀ (s : State) (k : Nat) (m : InvMsg) (op : Nat) (rest : List (InvMsg × Nat)) (far : Option (BitVec 8)),
    (s.hent k).fwd = (m, op) :: rest → (s.hent k).dropped = false → (m.handle = 0 ∨ (pendingHere s m.handle ∧ hIndex m.handle ≠ k)) →
    let e := s.hent k
    let i := Instr.forwardInvocation k far
    let gone := fun (t : State) => (t.hent k).fwd = rest ∧ (t.hent k).fwdBusy = false ∧ (t.hent k).st = e.st
    let broken := fun (t : State) (c : Nat) => gone t ∧ (m.handle ≠ 0 → broke s t m.handle c)
    (e.fwdBusy = false → e.st = .broken → ∃ t, exec i s = .next t ∧ broken t 0x11) ∧
    (e.fwdBusy = false → e.st = .resolved → e.loc = s.rank → bound s m →
      ∃ t, exec i s = .next t ∧ invMeets s t m (.inl ()) ∧ t.hent k = { e with fwdBusy := true } ∧
        (m.handle ≠ 0 → (t.hent (hIndex m.handle)).loc = s.rank)) ∧
    (e.fwdBusy = false → e.st = .resolved → e.loc = s.rank → unbound s m →
      ∃ t c, exec i s = .next t ∧ broken t c ∧ c = if s.ctx? m.ctx = none then 0x13 else 0x07) ∧
    (e.fwdBusy = false → e.st = .resolved → e.loc ≠ s.rank →
      ∃ t, exec i s = .next t ∧ t.hent k = { e with fwdBusy := true } ∧ t.out = .invFwd e.loc m :: s.out ∧
        (m.handle ≠ 0 → (t.hent (hIndex m.handle)).loc = e.loc)) ∧
    (e.fwdBusy = true → e.loc ≠ s.rank → ∀ c, far = some c →
      ∃ t, exec i s = .next t ∧ broken t (if c = 0x06 ∨ c = 0x08 then 0x13 else c.toNat)) ∧
    (e.fwdBusy = true → m.handle ≠ 0 → e.loc = s.rank ∨ far = none → exec i s = .next s) ∧
    (e.fwdBusy = true → m.handle = 0 → e.loc = s.rank → s.forwardRuns m.upstream = false →
      ∃ t, exec i s = .next t ∧ t.hent k = { e with fwd := rest, fwdBusy := false } ∧ ∀ j, j ≠ k → t.hent j = s.hent j)) ∧
  (∀ (s : State) (k : Nat) (m : InvMsg) (op : Nat) (rest : List (InvMsg × Nat)) (far : Option (BitVec 8)),
    (s.hent k).fwd = (m, op) :: rest → (s.hent k).dropped = false → (s.hent k).fwdBusy = true → m.handle ≠ 0 →
    hHome m.handle = s.rank → ((s.hent (hIndex m.handle)).st = .resolved ∨ (s.hent (hIndex m.handle)).st = .broken) →
    (s.hent k).loc = s.rank ∨ far = none →
    ∃ t, exec (.forwardInvocation k far) s = .next t ∧ t.hent k = { s.hent k with fwd := rest, fwdBusy := false } ∧
      ∀ j, j ≠ k → t.hent j = s.hent j)

/-- R355, R356, R359, R362, R364: an end that reaches its home resolves or breaks the pending handle and tells its waiters; a rank that aborts
breaks the handles that run there with 0x12; a drop makes the handle stale, and frees the entry once it has ended and served its queue; a runnable continuation
record becomes a team to be placed, and is freed. -/
def Obligations.HandleSettling : Prop :=
  (∀ (s : State) (hd : DWord) (e : InvEnd), pendingHere s hd → isHandle hd = true →
    (s.mgmt.booted = true → ((s.hent (hIndex hd)).kind = 1 ∨ (s.hent (hIndex hd)).kind = 3) → s.runsHere hd = false →
      (∀ o ∈ s.ops, ∀ e', o.cmd ≠ .result hd e') → ∃ t, exec (.invocationResult hd e) s = .next t ∧ settledAs s t hd e) ∧
    ∀ o pre post e0, s.ops = pre ++ o :: post → (∀ x ∈ pre, ∀ e', x.cmd ≠ .result hd e') → o.cmd = .result hd e0 →
      ∃ t, exec (.invocationResult hd e) s = .next t ∧ settledAs s t hd e0 ∧ t.ops = s.ops.filter fun x => x.id != o.id) ∧
  (∀ (s : State) (hd : DWord) (e : InvEnd), ((s.hent (hIndex hd)).st ≠ .pending ∨ (s.hent (hIndex hd)).gen ≠ hGen hd) →
    ∃ t, exec (.invocationResult hd e) s = .next t ∧ t.handles = s.handles ∧ t.groups = s.groups ∧ t.ctxs = s.ctxs ∧
      t.homes = s.homes ∧ t.mem = s.mem) ∧
  (∀ (s : State) (rank : Nat) (hd : DWord), rank ≠ s.rank → s.rank < 1024 → swf HEntry.zero s.handles = true →
    (∀ x ∈ s.handles, x.1 < 65536 ∧ x.2.gen ≤ 16383) → pendingHere s hd → (s.hent (hIndex hd)).loc = rank →
    ((s.hent (hIndex hd)).kind = 1 ∨ (s.hent (hIndex hd)).kind = 3) →
    ∃ t, exec (.executingRankAbort rank) s = .next t ∧ broke s t hd 0x12 ∧
      ∀ j, (s.hent j).st ≠ .pending ∨ (s.hent j).loc ≠ rank → t.hent j = s.hent j) ∧
  (∀ (s : State) (g : Group) (h : Hdr) (r : SReg), runs s g (.hdrop h r) = true → h.ch = false → s.team? g.tid ≠ none →
    let hd := g.pairS r.toNat
    let i := Instr.hdrop h r
    let done := fun (t : State) => ∃ g', t.grp? s.cur = some g' ∧ keepsRegs g g' ∧ g'.pc = seqNext g.pc (ilen g i) ∧
      g'.inFlight = g.inFlight ∧ t.handles = s.handles ∧ t.mem = s.mem
    (guarded g h = false → ∃ t, exec i s = .next t ∧ idles s t g i) ∧
    (guarded g h = true → untainted g i → isHandle hd = false → ∃ t, exec i s = .next t ∧ done t ∧ sameOps s t ∧ t.out = s.out) ∧
    (guarded g h = true → untainted g i → isHandle hd = true → hHome hd ≠ s.rank →
      ∃ t, exec i s = .next t ∧ done t ∧ sameOps s t ∧ t.out = .drop (hHome hd) hd :: s.out) ∧
    (guarded g h = true → untainted g i → isHandle hd = true → hHome hd = s.rank →
      ∃ t o, exec i s = .next t ∧ done t ∧ t.out = s.out ∧ o ∈ t.ops ∧ o.id = s.nextId ∧ o.cmd = .hdrop hd ∧ o.st = .active ∧
        o.ctx = s.ctxOfG g)) ∧
  (∀ (s : State) (hd : DWord) (ctx : Nat) (o : Option Op),
    (match o with
      | none => s.mgmt.booted = true ∧ ∀ x ∈ s.ops, x.ctx = ctx → x.st = .active → x.cmd ≠ .hdrop hd
      | some y => s.invBlocked y = false ∧ y.ctx = ctx ∧ y.st = .active ∧ y.cmd = .hdrop hd ∧
          ∃ pre post, s.ops = pre ++ y :: post ∧ ∀ x ∈ pre, x.ctx = ctx → x.st = .active → x.cmd ≠ .hdrop hd) →
    let k := hIndex hd
    let e := s.hent k
    let live := isHandle hd = true ∧ hHome hd = s.rank ∧ e.gen = hGen hd ∧ e.st ≠ .free ∧ e.ctx = ctx ∧ e.dropped = false
    ∃ t, exec (.homeDrop hd ctx) s = .next t ∧ (∀ y, o = some y → t.ops = s.ops.filter fun x => x.id != y.id) ∧
      t.groups = s.groups ∧ t.mem = s.mem ∧ (¬ live → t.handles = s.handles) ∧ (∀ j, j ≠ k → t.hent j = s.hent j) ∧
      (live → t.hent k = if (e.st = .resolved ∨ e.st = .broken) ∧ e.fwd = [] then { e with dropped := true, st := .free }
        else { e with dropped := true })) ∧
  (∀ (s : State) (ctx : Nat) (c : Ctx) (r : ContRec) (pre post : List ContRec), s.ctx? ctx = some c → c.conts = pre ++ r :: post →
    (∀ x ∈ pre, x.id ≠ r.id) → r.outcome ≠ none →
    ∃ t, exec (.continuationResume ctx r.id) s = .next t ∧ t.groups = s.groups ∧ t.teams = s.teams ∧ t.mem = s.mem ∧
      t.ctx? ctx = some { c with
        conts := c.conts.filter fun x => x.id != r.id
        pendTeams := c.pendTeams ++ [⟨.continuation, ⟨r.pc, r.width, r.vregs, r.sregs, 0, 0, 0, r.sup⟩, [], none, [], some r⟩] })

/-- R355, R361-R363: what a handle's home answers; `HWAIT` parks on a pending handle, goes on with its predicates for an ended one, and with `.trap` takes
class 10 for a broken one; `HWAIT.park` retires the group into a continuation record, with no lane of it left (its answer `exited` is log entry 70); `HGET` writes words or the status word and never waits for an end. -/
def Obligations.HandleWaits : Prop :=
  (∀ (s : State) (hd : DWord) (ctx : Nat),
    let e := s.hent (hIndex hd)
    let a := s.askHome hd ctx
    if isHandle hd = true ∧ hHome hd = s.rank ∧ e.gen = hGen hd ∧ e.st ≠ .free ∧ e.ctx = ctx ∧ e.dropped = false then
      (e.st = .pending → a.state = 1 ∧ statusWord a = BitVec.ofNat 32 (1 + e.kind.toNat * 2 ^ 16)) ∧
      (e.st = .resolved → a.state = 2 ∧ a.words = e.words ∧ statusWord a = BitVec.ofNat 32 (2 + e.kind.toNat * 2 ^ 16)) ∧
      (e.st = .broken → a.state = 3 ∧ a.cause = e.cause ∧
        statusWord a = BitVec.ofNat 32 (3 + e.cause.toNat * 2 ^ 8 + e.kind.toNat * 2 ^ 16))
    else a.state = 0 ∧ a.cause = 0x15 ∧ statusWord a = 0x1500) ∧
  (∀ (s : State) (g : Group) (h : Hdr) (form : HWForm) (p : CmpDst) (r : SReg), runs s g (.hwait h form p r) = true → h.ch = false →
    let i := Instr.hwait h form p r
    let hd := g.pairS r.toNat
    let a := s.askHome hd (s.ctxOfG g)
    let tag := g.tSet (infoOf g.fmt i)
    let tells := fun (ok : Bool) => ∃ t g', exec i s = .next t ∧ t.grp? s.cur = some g' ∧ onlyGroup s t s.cur ∧ g'.v = g.v ∧ g'.s = g.s ∧
      pairIn g g' g.mask p (fun _ => ok) ∧ g'.pc = seqNext g.pc 8 ∧ g'.park = none
    (guarded g h = false → goes i s { g with pc := seqNext g.pc 8 }) ∧
    (guarded g h = true → s.dropDue g hd = false → s.isFar hd = false →
      (a.state = 1 → goes i s { g with pc := seqNext g.pc 8, park := some (.hwait 0 form p hd g.pc tag) }) ∧
      (a.state = 2 → tells true) ∧
      (a.state ≠ 1 → a.state ≠ 2 → form ≠ .trap → tells false) ∧
      (a.state ≠ 1 → a.state ≠ 2 → form = .trap → g.dep = 0 → g.sb.valid = false → traps i s g 10 a.cause.toNat 1)) ∧
    (guarded g h = true → s.dropDue g hd = false → s.isFar hd = true →
      ∃ t g' o, exec i s = .next t ∧ t.grp? s.cur = some g' ∧ keepsRegs g g' ∧ g'.pc = seqNext g.pc 8 ∧ newOp s t o ∧
        o.cmd = .hwait hd ∧ g'.park = some (.hwait s.nextId form p hd g.pc tag) ∧
        t.out = .ask (hHome hd) hd s.nextId :: s.out)) ∧
  (∀ (s : State) (o : Op) (hd pc : DWord) (g : Group) (form : HWForm) (p : CmpDst) (tag : Tags) (far : Option HomeAns) (u : Team),
    s.op? o.id = some o → o.cmd = .hwait hd → s.grp? o.gid = some g → s.team? g.tid = some u →
    g.park = some (.hwait o.id form p hd pc tag) →
    let st := match far with | some a => a.state | none => 3
    (st = 1 → exec (.homeAnswer o.id far) s = .next s) ∧
    (st ≠ 1 → form ≠ .trap ∨ st = 2 → ∃ t g', exec (.homeAnswer o.id far) s = .next t ∧ t.grp? o.gid = some g' ∧ g'.park = none ∧
      g'.pc = g.pc ∧ pairIn g g' g.mask p (fun _ => decide (st = 2)) ∧ t.ops = s.ops.filter fun x => x.id != o.id)) ∧
  (∀ (s : State) (g : Group) (h : Hdr) (p : CmpDst) (r m : SReg) (n : BitVec 5) (u : Team) (c : Ctx),
    runs s g (.hwaitPark h p r m n) = true → h.ch = false → s.team? g.tid = some u → s.ctx? u.ctx = some c →
    let i := Instr.hwaitPark h p r m n
    let hd := g.pairS r.toNat
    let inRange := n = 0 ∨ m.toNat + n.toNat ≤ g.sregs
    let whole := g.stack = [] ∧ g.mask = fullMask g.width
    (guarded g h = false → goes i s { g with pc := seqNext g.pc 8 }) ∧
    (guarded g h = true → ¬ inRange → g.dep = 0 → g.sb.valid = false → traps i s g 2 0x01 1) ∧
    (guarded g h = true → inRange → ¬ whole → g.dep = 0 → g.sb.valid = false → traps i s g 7 0x06 1) ∧
    (guarded g h = true → inRange → whole → s.dropDue g hd = false → s.isFar hd = false → (s.askHome hd u.ctx).state = 1 →
      (c.conts.length < 4096 → g.inFlight ≠ [] ∨ g.dep ≠ 0 → exec i s = .next s) ∧
      (4096 ≤ c.conts.length → goes i s { g with
        pc := seqNext g.pc 8, park := some (.hwait 0 .plain p hd g.pc (g.tSet (infoOf g.fmt i))) }) ∧
      (c.conts.length < 4096 → g.inFlight = [] → g.dep = 0 →
        ∃ t g' x, exec i s = .next t ∧ t.grp? s.cur = some g' ∧ g'.mask = 0 ∧ g'.exited = true ∧ g'.park = none ∧
          t.ctx? u.ctx = some { c with conts := c.conts ++ [x] } ∧ t.mem = s.mem ∧ x.pc = seqNext g.pc 8 ∧ x.handle = hd ∧
          x.width = g.width ∧ x.role = g.role ∧ x.sup = g.sup ∧ x.vregs = g.vregs ∧ x.sregs = g.sregs ∧ x.m = m.toNat ∧
          x.live.length = n.toNat ∧ (∀ k, k < n.toNat → x.live.getD k 0 = g.rdS (m.toNat + k)) ∧ x.p = p ∧ x.fmt = g.fmt ∧
          x.flg = g.flg ∧ x.team = u.num ∧ x.grid = u.grid ∧ x.outcome = none)) ∧
    (let told := fun (o : Op) => o ∈ s.ops ∧ o.gid = g.gid ∧ o.cmd = .hwait hd ∧ o.status = 1
     guarded g h = true → inRange → whole → s.dropDue g hd = false → s.isFar hd = true → c.conts.length < 4096 →
      ((∃ o, told o) → g.inFlight ≠ [] ∨ g.dep ≠ 0 → exec i s = .next s) ∧
      ((∃ o, told o) → g.inFlight = [] → g.dep = 0 →
        ∃ t g' x, exec i s = .next t ∧ t.grp? s.cur = some g' ∧ g'.exited = true ∧ t.ctx? u.ctx = some { c with conts := c.conts ++ [x] } ∧
          t.mem = s.mem ∧ x.pc = seqNext g.pc 8 ∧ x.handle = hd ∧ x.m = m.toNat ∧ x.p = p ∧ x.outcome = none ∧
          x.live = (List.range n.toNat).map (fun k => g.rdS (m.toNat + k)) ∧ ∃ o, told o ∧ x.id = o.id) ∧
      ((¬ ∃ o, told o) → ∃ t g' o, exec i s = .next t ∧ t.grp? s.cur = some g' ∧ keepsRegs g g' ∧ g'.pc = seqNext g.pc 8 ∧ newOp s t o ∧
        o.cmd = .hwait hd ∧ o.gid = g.gid ∧ t.out = .ask (hHome hd) hd s.nextId :: s.out ∧ t.ctxs = s.ctxs ∧
        g'.park = some (.hwaitPark s.nextId p hd m.toNat n.toNat (g.tSet (infoOf g.fmt i)))))) ∧
  (∀ (s : State) (o : Op) (g : Group) (p : CmpDst) (x : DWord) (m n : Nat) (tag : Tags) (a : HomeAns) (u : Team) (c : Ctx),
    s.op? o.id = some o → o.cmd = .hwait x → s.grp? o.gid = some g → s.team? g.tid = some u → s.ctx? u.ctx = some c →
    g.park = some (.hwaitPark o.id p x m n tag) →
    let i := Instr.homeAnswer o.id (some a)
    (a.state ≠ 1 → ∃ t g', exec i s = .next t ∧ t.grp? o.gid = some g' ∧ g'.park = none ∧ g'.pc = g.pc ∧ t.ctxs = s.ctxs ∧
      pairIn g g' g.mask p (fun _ => decide (a.state = 2)) ∧ t.ops = s.ops.filter fun y => y.id != o.id) ∧
    (a.state = 1 → 4096 ≤ c.conts.length → ∃ t, exec i s = .next t ∧ t.ctxs = s.ctxs ∧
      t.grp? o.gid = some { g with park := some (.hwait o.id .plain p x g.pc tag) }) ∧
    (a.state = 1 → c.conts.length < 4096 → g.inFlight ≠ [] ∨ g.dep ≠ 0 → ∃ t o', exec i s = .next t ∧ t.ctxs = s.ctxs ∧
      t.grp? o.gid = some { g with park := none, pc := o.pc } ∧ t.op? o.id = some o' ∧ o' = { o with status := 1 }) ∧
    (a.state = 1 → c.conts.length < 4096 → g.inFlight = [] → g.dep = 0 → ∃ t g' y, exec i s = .next t ∧ t.grp? o.gid = some g' ∧ g'.mask = 0 ∧
      g'.exited = true ∧ g'.park = none ∧ t.ctx? u.ctx = some { c with conts := c.conts ++ [y] } ∧ t.mem = s.mem ∧
      y.id = o.id ∧ y.pc = g.pc ∧ y.handle = x ∧ y.m = m ∧ y.p = p ∧ y.live = (List.range n).map (fun k => g.rdS (m + k)) ∧
      y.outcome = none)) ∧
  (∀ (s : State) (o : Op) (x : DWord) (a : HomeAns), s.op? o.id = some o → o.cmd = .hwait x → a.state ≠ 1 →
    (∀ g, s.grp? o.gid = some g → g.park = none) →
    ∃ t, exec (.homeAnswer o.id (some a)) s = .next t ∧ t.groups = s.groups ∧ t.handles = s.handles ∧ t.mem = s.mem ∧
      ∀ k c, s.ctx? k = some c → ∃ c', t.ctx? k = some c' ∧ c' = { c with conts := c.conts.map fun r =>
        if r.id = o.id ∧ r.outcome = none then { r with outcome := some (a.state == 2) } else r }) ∧
  (∀ (s : State) (g : Group) (h : Hdr) (stat : Bool) (p : CmpDst) (d r : SReg) (n : Opnd),
    runs s g (.hget h stat p d r n) = true → h.ch = false →
    let i := Instr.hget h stat p d r n
    let hd := g.pairS r.toNat
    let k := if stat then 1 else (g.opnd n 0).toNat
    let a := s.askHome hd (s.ctxOfG g)
    let inRange := 1 ≤ k ∧ k ≤ 16
    let answers := fun (g g' : Group) (a : HomeAns) =>
      g'.v = g.v ∧ pairIn g g' g.mask p (fun _ => if stat then a.state != 0 else a.state == 2) ∧
        ∀ j, g'.rdS j = if stat ∧ j = d.toNat then statusWord a
          else if ¬ stat ∧ a.state = 2 ∧ d.toNat ≤ j ∧ j < d.toNat + k then a.words.getD (j - d.toNat) 0 else g.rdS j
    (guarded g h = false → goes i s { g with pc := seqNext g.pc 8 }) ∧
    (guarded g h = true → g.dep = 0 → g.sb.valid = false →
      (¬ inRange → traps i s g 2 0x33 1) ∧ (inRange → g.sregs < d.toNat + k → traps i s g 2 0x01 1)) ∧
    (guarded g h = true → inRange → d.toNat + k ≤ g.sregs → s.dropDue g hd = false → s.regsFree g (sN d k) = true →
      (s.isFar hd = false → a.words.length ≤ 16 → ∃ t g', exec i s = .next t ∧ t.grp? s.cur = some g' ∧ onlyGroup s t s.cur ∧
        g'.pc = seqNext g.pc 8 ∧ g'.park = none ∧ answers g g' a) ∧
      (s.isFar hd = true → ∃ t g' o, exec i s = .next t ∧ t.grp? s.cur = some g' ∧ keepsRegs g g' ∧ g'.pc = seqNext g.pc 8 ∧
        g'.park = some (.answer s.nextId) ∧ newOp s t o ∧ o.cmd = .hget hd stat d k ∧ o.p = p ∧ o.gid = g.gid ∧
        t.out = .ask (hHome hd) hd s.nextId :: s.out)) ∧
    (∀ (z : State) (y : Group) (o : Op) (b : HomeAns), z.op? o.id = some o → o.cmd = .hget hd stat d k → o.p = p →
      z.grp? o.gid = some y → y.park = some (.answer o.id) → b.words.length ≤ 16 → k ≤ 16 →
      ∃ t y', exec (.homeAnswer o.id (some b)) z = .next t ∧ t.grp? o.gid = some y' ∧ y'.park = none ∧ answers y y' b ∧
        t.ops = z.ops.filter fun x => x.id != o.id))

namespace Sys2Proof.Claims

/-! ## Mailboxes and work queues -/

/-- `MBREG`: header, mailbox, and the binding's entry pair and fields for `.bind`, or whether it opens (R248). -/
def mbregs : Instr → Option (Hdr × Opnd × Sum (SReg × BindF) Bool)
  | .mbregBind h m e f => some (h, m, .inl (e, f))
  | .mbregOpen h m => some (h, m, .inr true)
  | .mbregClose h m => some (h, m, .inr false)
  | _ => none

/-- The binding of R248. -/
def boundAs (e : DWord) (f : BindF) : Binding :=
  ⟨e, 8 * 2 ^ f.width.toNat, f.vregs1.toNat + 1, f.sregs1.toNat + 1, 4096 * f.xtiles.toNat, 4096 * f.wtiles.toNat,
    f.barriers.toNat, f.sup⟩

/-- s0 … s17 of a handler, and what `MRECV` writes (R247, R250). -/
def mailWords (m : Msg) : List Word :=
  ((List.range 16).map fun k => m.words.getD k 0) ++ [BitVec.ofNat 32 m.words.length, m.sender]

/-- The team that a message launches. -/
def handler (b : Binding) (m : Msg) : PendTeam := ⟨.mailbox, b, mailWords m, none, m.aids, none⟩

/-- A message of at most 16 words whose assumptions this rank knows of (R300). -/
def knownMsg (s : State) (m : Msg) : Prop := m.words.length ≤ 16 ∧ ∀ a ∈ m.aids, aidHome a = s.rank ∨ (s.import? a).isSome
/-- Such a message with an assumption that has been denied, and one with none (R300). -/
def lostMsg (s : State) (m : Msg) : Bool := m.aids.any fun a => s.resolved a == some false
def plainMsg (s : State) (m : Msg) : Prop := knownMsg s m ∧ lostMsg s m = false
/-- A message with the assumptions that are still live (R300). -/
def liveMsg (s : State) (m : Msg) : Msg := { m with aids := m.aids.filter fun a => (s.resolved a).isNone }

/-- What a message meets in the mailbox of its context (R246): a state after it, or the cause of a refusal; `held` where there is no room. -/
def meets (s t : State) (m : Msg) (c : Ctx) (cause : Option Nat) : Prop :=
  match (c.mboxAt m.mbx).st with
  | .closed => cause = some 0x07 ∧ t.ctxs = s.ctxs
  | .bound b => cause = none ∧ oneMore s t m.ctx c (handler b (liveMsg s m))
  | .opened => cause = none ∧ ∃ c', t.ctx? m.ctx = some c' ∧ c'.mboxAt m.mbx = { c.mboxAt m.mbx with queue := (c.mboxAt m.mbx).queue ++ [liveMsg s m] } ∧
      (∀ k, k ≠ m.mbx → c'.mboxAt k = c.mboxAt k) ∧ c' = { c with mbox := c'.mbox }

/-- Room for a message in its context's queues. -/
def room (m : Msg) (c : Ctx) : Prop := (c.mboxAt m.mbx).st = .opened → c.queued < 1024

/-- A message that would be held for want of room at its mailbox (R246). -/
def heldMsg (s : State) (m : Msg) : Prop := plainMsg s m ∧ ∃ c, s.ctx? m.ctx = some c ∧ ¬ room m c

/-- A group that has received a message in s`d` … s`d`+17 (R250). -/
def received (g g' : Group) (p : CmpDst) (d : Nat) (m : Msg) : Prop :=
  g'.v = g.v ∧ pairIn g g' g.mask p (fun _ => true) ∧
    ∀ k, g'.rdS k = if d ≤ k ∧ k < d + 18 then (mailWords m).getD (k - d) 0 else g.rdS k

/-- A queue of the current group's context. -/
def ownQueue (s : State) (g : Group) (q : Nat) : Prop := q < 64 ∧ (s.queue q).ctx = some (s.ctxOfG g)

/-- A wake of a channel whose queue holds records or not (R254, R255). -/
def woken (s t : State) (c : Nat) (holds : Bool) : Prop :=
  if s.aperture = .active then
    t.wake = s.wake &&& ~~~(1#64 <<< c) ∧
      ∀ n y, s.grp? n = some y → n ≠ s.cur → t.grp? n = some (if y.park = some (.qwait c) ∧ holds = true then { y with park := none } else y)
  else t.wake = s.wake ||| (1#64 <<< c) ∧ ∀ n, n ≠ s.cur → t.grp? n = s.grp? n

/-- Instructions that name a queue or channel, and the fields beside it (R366). -/
def queueOps : Instr → Option (Hdr × Opnd)
  | .qpush h _ _ q => some (h, q)
  | .qpop h _ _ q => some (h, q)
  | .qwait h q => some (h, q)
  | .notify h q => some (h, q)
  | _ => none

/-- The number in `n` bytes of a record from byte `off` (R5). -/
def fieldAt (bs : List Byte) (off n : Nat) : Nat := ((List.range n).map fun k => (bs.getD (off + k) 0).toNat * 2 ^ (8 * k)).sum

/-- An image's length and address within their limits (R21). -/
def imageOk (len room va : Nat) : Prop := len ≤ room ∧ len % 64 = 0 ∧ (len ≠ 0 → va % 64 = 0 ∧ va < 2 ^ 54)

/-- A launch record with every field within the limits of R21. -/
def recordOk (bs : List Byte) : Prop :=
  let f := fieldAt bs
  let role := fun (k : Nat) => f 16 4 / 4 ^ k % 4
  f 0 8 % 4 = 0 ∧ f 0 8 % 32 ≠ 28 ∧ f 0 8 < 2 ^ 54 ∧ f 8 1 ≤ 3 ∧ 1 ≤ f 9 1 ∧ f 9 1 ≤ 16 ∧ 1 ≤ f 10 2 ∧ f 10 2 ≤ 256 ∧
    1 ≤ f 12 2 ∧ f 12 2 ≤ 1024 ∧ f 30 1 ≤ f 12 2 ∧ f 14 1 ≤ 16 ∧ f 15 1 < 4 ∧ f 15 1 ≠ 2 ∧
    (∀ k, k < 16 → if k < f 9 1 then role k ≠ 3 else role k = 0) ∧ f 20 4 % 4096 = 0 ∧ f 20 4 ≤ 2 ^ 21 ∧ f 24 4 % 4096 = 0 ∧
    f 24 4 ≤ 2 ^ 22 ∧ 1 ≤ f 28 1 ∧ f 28 1 ≤ 8 ∧ 1 ≤ f 29 1 ∧ f 29 1 ≤ 6 ∧ f 28 1 * f 29 1 ≤ 12 ∧ f 30 1 ≤ 64 ∧
    f 31 1 / 64 % 2 = 0 ∧ 1 ≤ f 32 4 ∧ f 32 4 % (f 28 1 * f 29 1) = 0 ∧ imageOk (f 36 4) (f 20 4) (f 40 8) ∧
    imageOk (f 48 4) (f 24 4) (f 56 8) ∧ f 52 4 = 0

/-- Some core has the C that a team of `n` groups needs beside its service groups (R22, R26, R319). -/
def someCore (s : State) (n : Nat) : Prop :=
  ∃ k, k < 192 ∧ s.mgmt.usable k = true ∧ 8192 + 2048 * n ≤ 2 ^ 21 - s.mgmt.svcCores.count k * 2 ^ 18

/-- Some rectangle of usable cores within one die (R14, R22). -/
def someRectangle (s : State) (cols rows : Nat) : Prop :=
  ∃ o, o < 192 ∧ o % 8 + cols ≤ 8 ∧ o % 48 / 8 + rows ≤ 6 ∧ ∀ i j, i < cols → j < rows → s.mgmt.usable (o + 8 * j + i) = true

/-- Every page of an image grants a user-mode read (R22). -/
def pagesRead (s : State) (core ctx va len : Nat) : Prop :=
  ∀ p, 0 < len → p * 4096 < va + len → va < p * 4096 + 4096 → ∃ a, s.xlate core ctx (p * 4096) .read false = .pa a

end Sys2Proof.Claims

/-- R246-R250: `MBREG` checks its operands in order, then binds a mailbox (each queued message launches a team, in order), opens or closes it; a message is queued,
launches a team, or is refused with 0x07 or 0x08, and `MSEND` reports which; another rank's comes after what its source issued before
it (R244); an `MSEND` to a full mailbox of this rank is not ready (R18), and the response limit does not end one that is held (log entry
106); a message's AIDs are examined before its mailbox's state (log entry 116); `MRECV` takes the oldest message into 18 scalars, reports an empty queue, or parks with `.wait` on an open one. -/
def Obligations.MailboxEffects : Prop :=
  (∀ (s : State) (g : Group) (i : Instr) (h : Hdr) (mb : Opnd) (what : Sum (SReg × BindF) Bool),
    mbregs i = some (h, mb, what) → runs s g i = true → h.ch = false →
    let n := (g.opnd mb 0).toNat
    let x := s.mboxOf (s.ctxOfG g) n
    let done := fun (t : State) (c c' : Ctx) => ∃ g', t.grp? s.cur = some g' ∧ keepsRegs g g' ∧ g'.pc = seqNext g.pc 16 ∧ sameOps s t ∧
      t.mem = s.mem ∧ t.ctx? (s.ctxOfG g) = some c' ∧ (∀ k, k ≠ n → c'.mboxAt k = c.mboxAt k) ∧
      c' = { c with mbox := c'.mbox, pendTeams := c'.pendTeams }
    let bindOk := fun (e : DWord) (f : BindF) => 18 ≤ f.sregs1.toNat + 1 ∧ f.xtiles.toNat ≤ 512 ∧ f.wtiles.toNat ≤ 1024 ∧
      f.barriers.toNat ≤ 16 ∧ fits e
    (guarded g h = false → goes i s { g with pc := seqNext g.pc 16 }) ∧
    (guarded g h = true → g.dep = 0 → g.sb.valid = false →
      (4096 ≤ n → traps i s g 2 0x21 1) ∧
      (∀ e f, n < 4096 → what = .inl (e, f) →
        (f.sup = true → g.sup = false → traps i s g 1 0x01 1) ∧
        ((f.sup = true → g.sup = true) → ¬ bindOk (g.pairS e.toNat) f → traps i s g 2 0x22 1) ∧
        ((f.sup = true → g.sup = true) → bindOk (g.pairS e.toNat) f → 2 ^ 54 ≤ (g.pairS e.toNat).toNat → traps i s g 8 0x05 1))) ∧
    (∀ c, guarded g h = true → n < 4096 → untainted g i → s.ctx? (s.ctxOfG g) = some c →
      (∀ o, what = .inr o → ∃ t c', exec i s = .next t ∧ done t c c' ∧ c'.pendTeams = c.pendTeams ∧
        c'.mboxAt n = { x with st := if o then .opened else .closed }) ∧
      (∀ e f, what = .inl (e, f) → (f.sup = true → g.sup = true) → bindOk (g.pairS e.toNat) f → (g.pairS e.toNat).toNat < 2 ^ 54 →
        (∀ m ∈ x.queue, m.words.length ≤ 16) → ∃ t c', exec i s = .next t ∧ done t c c' ∧
          c'.mboxAt n = ⟨.bound (boundAs (g.pairS e.toNat) f), []⟩ ∧
          c'.pendTeams = c.pendTeams ++ (x.queue.filter fun m => !lostMsg s m).map
            fun m => handler (boundAs (g.pairS e.toNat) f) (liveMsg s m)))) ∧
  (∀ (s : State) (g : Group) (h : Hdr) (p : CmpDst) (w : SReg) (rank mb : Opnd) (n : BitVec 4) (u : Team),
    let i := Instr.msend h p w rank mb n
    runs s g i = true → h.ch = false → s.team? g.tid = some u →
    let r := (g.opnd rank 0).toNat
    let aids := u.aidsIn (g.tSet (infoOf g.fmt i))
    (guarded g h = false → ∃ t, exec i s = .next t ∧ idles s t g i) ∧
    (guarded g h = true → g.dep = 0 → g.sb.valid = false →
      (g.sregs ≤ w.toNat + n.toNat → traps i s g 2 0x01 1) ∧
      (w.toNat + n.toNat < g.sregs → 1024 ≤ r → traps i s g 2 0x20 1) ∧
      (w.toNat + n.toNat < g.sregs → r < 1024 → 4096 ≤ (g.opnd mb 0).toNat → traps i s g 2 0x21 1)) ∧
    let full := r = s.rank ∧ ∃ c, s.ctx? u.ctx = some c ∧ (c.mboxAt (g.opnd mb 0).toNat).st = .opened ∧ 1024 ≤ c.queued
    (guarded g h = true → w.toNat + n.toNat < g.sregs → r < 1024 → (g.opnd mb 0).toNat < 4096 → aids.length ≤ 4 → full →
      (∀ a ∈ aids, (aidHome a = s.rank ∨ (s.import? a).isSome) ∧ s.resolved a ≠ some false) → exec i s = .next s) ∧
    (guarded g h = true → w.toNat + n.toNat < g.sregs → r < 1024 → (g.opnd mb 0).toNat < 4096 → aids.length ≤ 4 → ¬ full →
      ∃ t g' o m, exec i s = .next t ∧ t.grp? s.cur = some g' ∧ keepsRegs g g' ∧ g'.pc = seqNext g.pc 12 ∧ newOp s t o ∧
        o.cmd = .msend r m ∧ o.path = some .F ∧ o.st = .active ∧ o.p = p ∧ o.act = g.mask ∧ o.gid = g.gid ∧ t.mem = s.mem ∧
        g'.inFlight = g.inFlight ++ [⟨.F, s.nextId, false⟩] ∧ m.ctx = u.ctx ∧ m.mbx = (g.opnd mb 0).toNat ∧ m.aids = aids ∧
        m.src = s.rank ∧ m.grp = g.gid ∧ m.sender = BitVec.ofNat 32 s.rank ∧ m.words.length = n.toNat + 1 ∧
        (∀ k, k ≤ n.toNat → m.words.getD k 0 = g.rdS (w.toNat + k)) ∧
        t.out = if r = s.rank then s.out else .msg r m :: s.out)) ∧
  (∀ (s : State) (m : Msg) (op : Nat), m.src ≠ s.rank → s.mgmt.booted = true →
    let i := Instr.messageArrival m op
    let answers := fun (t : State) (cause : Option Nat) => isPast t m.src false m.grp op ∧
      t.out = .resp m.src op ⟨0, cause.isNone, BitVec.ofNat 8 (cause.getD 0), 0, false⟩ :: s.out
    let early := ∃ f ∈ s.foreign, f.req.ord = true ∧ f.req.src = m.src ∧ f.req.grp = m.grp ∧ f.req.op < op
    (isPast s m.src false m.grp op ∨ early → exec i s = .next s) ∧
    (¬ isPast s m.src false m.grp op → ¬ early →
    (s.ctx? m.ctx = none → ∃ t, exec i s = .next t ∧ answers t (some 0x08)) ∧
    (∀ c, s.ctx? m.ctx = some c → knownMsg s m → lostMsg s m = true →
      ∃ t, exec i s = .next t ∧ t.ctxs = s.ctxs ∧ answers t none) ∧
    (∀ c, s.ctx? m.ctx = some c → plainMsg s m → (room m c → ∃ t x, exec i s = .next t ∧ meets s t m c x ∧ answers t x) ∧
      (¬ room m c → exec i s = .next s)))) ∧
  (∀ (s : State) (m m' : Msg) (o : Op), m.src = s.rank → s.op? o.id = some o → o.cmd = .msend s.rank m' → o.st = .active →
    o.status = 0 → s.srcBlocked o = false → s.postBlocked o = false →
    let i := Instr.messageArrival m o.id
    let ends := fun (t : State) (cause : Option Nat) => t.out = s.out ∧
      if o.path = none then t.op? o.id = none
      else ∃ o', t.op? o.id = some o' ∧ o'.status = match cause with | none => 1 | some c => 2 + c
    (s.ctx? m'.ctx = none → ∃ t, exec i s = .next t ∧ ends t (some 0x08)) ∧
    (∀ c, s.ctx? m'.ctx = some c → knownMsg s m' → lostMsg s m' = true →
      ∃ t, exec i s = .next t ∧ t.ctxs = s.ctxs ∧ ends t none) ∧
    (∀ c, s.ctx? m'.ctx = some c → plainMsg s m' → (room m' c → ∃ t x, exec i s = .next t ∧ meets s t m' c x ∧ ends t x) ∧
      (¬ room m' c → exec i s = .next s))) ∧
  (∀ (s : State) (o : Op) (r : Nat) (m : Msg) (far : Option LaneAns) (ok : Bool) (g : Group), s.op? o.id = some o →
    o.cmd = .msend r m → o.st = .active → o.path ≠ none → o.dst = .none → o.suppressed = false → s.endBlocked o = false →
    s.grp? o.gid = some g →
    (r = s.rank → lateAnswer far → o.status = 0 → heldMsg s m → exec (.msendComplete o.id far) s = .next s) ∧
    ((r = s.rank → (lateAnswer far ∧ ok = false ∧ (o.status ≠ 0 ∨ ∀ c, s.ctx? m.ctx = some c → room m c)) ∨
      (¬ lateAnswer far ∧ o.status ≠ 0 ∧ (ok = true ↔ o.status = 1))) →
    (r ≠ s.rank → ∃ a, far = some a ∧ a.ok = ok) →
    ∃ t g', exec (.msendComplete o.id far) s = .next t ∧ opOver s t o ∧ t.grp? o.gid = some g' ∧ g'.v = g.v ∧ g'.s = g.s ∧
      pairIn g g' o.act o.p (fun _ => ok) ∧ t.mem = s.mem)) ∧
  (∀ (s : State) (g : Group) (h : Hdr) (wait : Bool) (p : CmpDst) (d : SReg) (mb : Opnd) (c : Ctx),
    let i := Instr.mrecv h wait p d mb
    runs s g i = true → h.ch = false → s.ctx? (s.ctxOfG g) = some c →
    let n := (g.opnd mb 0).toNat
    let x := c.mboxAt n
    let fine := guarded g h = true ∧ d.toNat + 17 < g.sregs ∧ n < 4096
    (guarded g h = false → goes i s { g with pc := seqNext g.pc 8 }) ∧
    (guarded g h = true → g.dep = 0 → g.sb.valid = false →
      (g.sregs ≤ d.toNat + 17 → traps i s g 2 0x01 1) ∧ (d.toNat + 17 < g.sregs → 4096 ≤ n → traps i s g 2 0x21 1)) ∧
    (fine → x.queue = [] → wait = false ∨ x.st ≠ .opened → ∃ t g', exec i s = .next t ∧ t.grp? s.cur = some g' ∧
      onlyGroup s t s.cur ∧ g'.v = g.v ∧ g'.s = g.s ∧ pairIn g g' g.mask p (fun _ => false) ∧ g'.pc = seqNext g.pc 8) ∧
    (fine → x.queue = [] → wait = true → x.st = .opened → goes i s { g with
      pc := seqNext g.pc 8, park := some (.mrecv p d n g.pc (g.tSet (infoOf g.fmt i))) }) ∧
    (∀ m rest, fine → g.dep = 0 → x.queue = m :: rest → m.aids = [] → m.words.length ≤ 16 →
      ∃ t g' c', exec i s = .next t ∧ t.grp? s.cur = some g' ∧ received g g' p d.toNat m ∧ g'.pc = seqNext g.pc 8 ∧
        t.ctx? (s.ctxOfG g) = some c' ∧ c'.mboxAt n = { x with queue := rest } ∧ (∀ k, k ≠ n → c'.mboxAt k = c.mboxAt k) ∧
        t.mem = s.mem ∧ t.ops = s.ops)) ∧
  (∀ (s : State) (g : Group) (p : CmpDst) (d : SReg) (n : Nat) (pc : DWord) (tag : Tags) (c : Ctx), s.grp? g.gid = some g →
    g.park = some (.mrecv p d n pc tag) → s.ctx? (s.ctxOfG g) = some c →
    let x := c.mboxAt n
    (x.queue = [] → x.st = .opened → exec (.mrecvWake g.gid) s = .next s) ∧
    (x.queue = [] → x.st ≠ .opened → ∃ t g', exec (.mrecvWake g.gid) s = .next t ∧ t.grp? g.gid = some g' ∧ g'.park = none ∧
      g'.s = g.s ∧ g'.v = g.v ∧ pairIn g g' g.mask p (fun _ => false)) ∧
    (∀ m rest, x.queue = m :: rest → m.aids = [] → m.words.length ≤ 16 → g.dep = 0 → ∃ t g' c', exec (.mrecvWake g.gid) s = .next t ∧
      t.grp? g.gid = some g' ∧ g'.park = none ∧ received g g' p d.toNat m ∧ t.ctx? (s.ctxOfG g) = some c' ∧
      c'.mboxAt n = { x with queue := rest }))

/-- R366, R367, R22: the queue instructions refuse a queue number of 64 or more, and but for `NOTIFY` a queue of another context; `QPUSH` appends a record of 16 scalars where there is
room and wakes the channel, also one that was held and is released, once its fence holds; `QPOP` takes the oldest record and then waits as `FENCE.acq.dev` does; `QWAIT` parks on an empty queue; `NOTIFY` refuses a channel of 64 or more, and wakes any other; `LAUNCH` checks the record's address and translation,
and gives the record to the context's launch queue, or a status. -/
def Obligations.QueueAndLaunchEffects : Prop :=
  (∀ (s : State) (g : Group) (i : Instr) (h : Hdr) (q : Opnd), queueOps i = some (h, q) → runs s g i = true → h.ch = false →
    let n := (g.opnd q 0).toNat
    (guarded g h = false → goes i s { g with pc := seqNext g.pc 8 }) ∧
    (guarded g h = true → g.dep = 0 → g.sb.valid = false →
      (64 ≤ n → traps i s g 2 0x31 1) ∧ (n < 64 → ¬ ownQueue s g n → (∀ h' c, i ≠ .notify h' c) → traps i s g 2 0x32 1))) ∧
  (∀ (s : State) (g : Group) (h : Hdr) (p : CmpDst) (m : SReg) (q : Opnd),
    let i := Instr.qpush h p m q
    runs s g i = true → h.ch = false → guarded g h = true →
    let n := (g.opnd q 0).toNat
    let x := s.queue n
    ownQueue s g n →
    (¬ fenceHolds s g .rel .dev → untainted g i → exec i s = .next s) ∧
    (fenceHolds s g .rel .dev → untainted g i →
      ∃ t g', exec i s = .next t ∧ t.grp? s.cur = some g' ∧ sameOps s t ∧ g'.v = g.v ∧ g'.s = g.s ∧ g'.pc = seqNext g.pc 8 ∧
        t.mem = s.mem ∧ pairIn g g' g.mask p (fun _ => decide (x.recs.length < x.cap)) ∧
        if x.recs.length < x.cap then
          t.queue n = { x with recs := x.recs ++ [(List.range 16).map fun k => g.rdS (m.toNat + k)] } ∧
            (∀ k, k ≠ n → t.queue k = s.queue k) ∧ woken s t n true
        else t.queues = s.queues ∧ t.wake = s.wake ∧ ∀ k, k ≠ s.cur → t.grp? k = s.grp? k)) ∧
  (∀ (s : State) (core sub n : Nat) (pre post : List Op) (o : Op) (g : Group) (ws : List Word), s.ops = pre ++ o :: post →
    (∀ x ∈ pre ++ post, x.id ≠ o.id ∧ (x.st = .active → ∀ k v, x.cmd ≠ .qpush k v)) → o.st = .active → o.cmd = .qpush n ws →
    o.dst = .none → o.suppressed = false → s.grp? o.gid = some g →
    let x := s.queue n
    let before := (∀ a ∈ s.lacc, a.gid = o.gid → o.id < a.id) ∧
      ∀ e ∈ g.inFlight, e.op < o.id ∨ e.op = o.id → ¬ (e.path = .G ∨ e.path = .A ∨ e.path = .F ∨ e.path = .S ∨ e.path = .C)
    let cycle := Instr.issueCycle core ⟨sub, [], []⟩
    before → ∃ t g', exec cycle s = exec cycle t ∧ t.ops = pre ++ post ∧ t.grp? o.gid = some g' ∧ g'.v = g.v ∧ g'.s = g.s ∧
      pairIn g g' o.act o.p (fun _ => decide (x.recs.length < x.cap)) ∧ (∀ k, k ≠ n → t.queue k = s.queue k) ∧
      t.queue n = if x.recs.length < x.cap then { x with recs := x.recs ++ [ws] } else x) ∧
  (∀ (s : State) (g : Group) (h : Hdr) (p : CmpDst) (d : SReg) (q : Opnd),
    let i := Instr.qpop h p d q
    runs s g i = true → h.ch = false → guarded g h = true →
    let n := (g.opnd q 0).toNat
    let x := s.queue n
    ownQueue s g n →
    (∃ t g', exec i s = .next t ∧ t.grp? s.cur = some g' ∧ t.ops = s.ops ∧ g'.v = g.v ∧
      (fenceHolds s g .acq .dev → g'.park = none) ∧ (¬ fenceHolds s g .acq .dev → g'.park = some .fence) ∧
      g'.pc = seqNext g.pc 8 ∧ t.mem = s.mem ∧ pairIn g g' g.mask p (fun _ => decide (x.recs ≠ [])) ∧
      (∀ k, k ≠ n → t.queue k = s.queue k) ∧ (∀ k, k ≠ s.cur → t.grp? k = s.grp? k) ∧
      (x.recs = [] → g'.s = g.s ∧ t.queues = s.queues) ∧
      (∀ r rest, x.recs = r :: rest → r.length = 16 → t.queue n = { x with recs := rest } ∧
        ∀ k, g'.rdS k = if d.toNat ≤ k ∧ k < d.toNat + 16 then r.getD (k - d.toNat) 0 else g.rdS k))) ∧
  (∀ (s : State) (g : Group) (h : Hdr) (q : Opnd), h.ch = false → guarded g h = true →
    let n := (g.opnd q 0).toNat
    (ownQueue s g n → runs s g (.qwait h q) = true → (s.queue n).recs ≠ [] → goes (.qwait h q) s { g with pc := seqNext g.pc 8 }) ∧
    (ownQueue s g n → runs s g (.qwait h q) = true → (s.queue n).recs = [] →
      goes (.qwait h q) s { g with pc := seqNext g.pc 8, park := some (.qwait n) }) ∧
    (n < 64 → runs s g (.notify h q) = true → untainted g (.notify h q) → ∃ t g', exec (.notify h q) s = .next t ∧
      t.grp? s.cur = some g' ∧ keepsRegs g g' ∧ g'.pc = seqNext g.pc 8 ∧ sameOps s t ∧ t.mem = s.mem ∧ t.queues = s.queues ∧
      woken s t n (decide ((s.queue n).recs ≠ [])))) ∧
  (∀ (s : State) (g : Group) (h : Hdr) (p : CmpDst) (d : SReg) (a : LaunchAt) (c : Ctx),
    let i := Instr.launch h p d a
    runs s g i = true → h.ch = false → s.ctx? (s.ctxOfG g) = some c →
    let va := match a with | .pair r => (g.pairS r.toNat).toNat | .label off => (g.pc.toNat + (off.signExtend 64).toNat) % 2 ^ 54
    let reads := fun (b : Nat) => s.xlate g.core c.num (va + b) .read g.sup
    let rcd := parseLaunch ((List.range 320).map fun b => match reads b with | .pa x => s.syncByte x | .bad _ => 0)
    let st := s.launchStatus g.core c rcd
    (guarded g h = false → goes i s { g with pc := seqNext g.pc 16 }) ∧
    (guarded g h = true → g.dep = 0 → g.sb.valid = false →
      (va % 8 ≠ 0 → traps i s g 2 0x11 1) ∧ (va % 8 = 0 → 2 ^ 54 ≤ va → traps i s g 8 0x05 1) ∧
      (∀ b k, va % 8 = 0 → va < 2 ^ 54 → b < 320 → reads b = .bad k → (∀ j, j < b → ∀ e, reads j ≠ .bad e) → traps i s g 8 k 1)) ∧
    (guarded g h = true → untainted g i → va % 8 = 0 → va < 2 ^ 54 → (∀ b, b < 320 → ∃ x, reads b = .pa x) →
      ∃ t g' c', exec i s = .next t ∧ t.grp? s.cur = some g' ∧ g'.v = g.v ∧ g'.pc = seqNext g.pc 16 ∧ t.mem = s.mem ∧
        (∀ k, g'.rdS k = if k = d.toNat then BitVec.ofNat 32 st else g.rdS k) ∧ pairIn g g' g.mask p (fun _ => decide (st = 0)) ∧
        t.ctx? c.num = some c' ∧
        if st = 0 then ∃ x, c' = { c with grids := c.grids ++ [x] } ∧ x.rcd = rcd ∧ x.placed = 0 ∧ x.ended = 0 ∧ x.queued = true
        else c' = c)) ∧
  (∀ (s : State) (core : Nat) (c : Ctx) (bs : List Byte), bs.length = 320 →
    let f := fieldAt bs
    let st := s.launchStatus core c (parseLaunch bs)
    let pages := pagesRead s core c.num (f 40 8) (f 36 4) ∧ pagesRead s core c.num (f 56 8) (f 48 4) ∧
      ∃ a, s.xlate core c.num (f 0 8 / 4096 * 4096) .exec false = .pa a
    (¬ recordOk bs → st = 1) ∧
    (recordOk bs → ¬ someCore s (f 9 1) → st = 2) ∧
    (recordOk bs → someCore s (f 9 1) → ¬ someRectangle s (f 28 1) (f 29 1) → st = 3) ∧
    (recordOk bs → someCore s (f 9 1) → someRectangle s (f 28 1) (f 29 1) → ¬ pages → st = 4) ∧
    (recordOk bs → someCore s (f 9 1) → someRectangle s (f 28 1) (f 29 1) → pages → 256 ≤ (c.grids.filter (·.queued)).length → st = 5) ∧
    (recordOk bs → someCore s (f 9 1) → someRectangle s (f 28 1) (f 29 1) → pages → (c.grids.filter (·.queued)).length < 256 → st = 0))

namespace Sys2Proof.Claims

/-! ## The fabric, collectives and counters -/

/-- `RPUT`, `RGET` and `RRED`: header, predicates, destination, kind, size, window, rank, offset, a lane's value, and the access (R238). -/
def remotes : Instr → Option (Hdr × CmpDst × Dst × RemKind × Nat × BitVec 12 × Opnd × Opnd × (Group → Nat → DWord) × (DWord → RAct))
  | .rput h p ty w r o v =>
    some (h, p, .none, .put (bytesOf ty), bytesOf ty, w, r, o, fun g l => (g.opnd v l).setWidth 64, fun x => .write (bytesOf ty) x)
  | .rget h p d ty w r o => some (h, p, d, .get ty, bytesOf ty, w, r, o, fun _ _ => 0, fun _ => .read (bytesOf ty))
  | .rred h p op ty w r o v =>
    let c : CredTy := match ty with | .i32 => .i32 | .n32 => .n32 | .f32 => .f32
    some (h, p, .none, .red op ty, 4, w, r, o, fun g l => (g.opnd v l).setWidth 64, fun x => .reduce op c (x.setWidth 32) false)
  | _ => none

/-- An operation on its way, with what it sent to other ranks. -/
def handedOff (s t : State) (g : Group) (i : Instr) (p : Option Path) (o : Op) : Prop := handed s { t with out := s.out } g i p o

/-- Bytes and right of an access at its target (R234, R240, R243). -/
def accessOf : RAct → Nat × Need
  | .put d => (d.bytes.length, .wr)
  | .fetch n => (n, .rd)
  | .write n _ => (n, .wr)
  | .read n => (n, .rd)
  | .reduce _ ty _ _ => (if ty = .bf16 then 2 else 4, .upd)
  | .atomic _ _ _ => (4, .upd)
  | .cas n _ _ => (n, .upd)

/-- An access whose data carries no uncorrectable error. -/
def clean : RAct → Prop
  | .put d => d.bad = []
  | .reduce _ _ _ bad => bad = false
  | _ => True

/-- An access performed at an address (R240, R243): the new bytes if any, the value returned, and the flags raised. -/
def performed (s : State) (pa : Nat) : RAct → Option (Nat → Byte) × Nat × BitVec 7
  | .put d => (some fun k => d.bytes.getD k 0, 0, 0)
  | .fetch _ => (none, 0, 0)
  | .write _ x => (some (byteOf x.toNat), 0, 0)
  | .read n => (none, numAt s pa n, 0)
  | .reduce op ty x _ =>
    let r := updated op ty (numAt s pa (if ty = .bf16 then 2 else 4)) x.toNat
    (some (byteOf r.1), 0, r.2)
  | .atomic op ty x =>
    let r := atomF ⟨op, ty, false, 4, none, false, true, .none, 12⟩ (numAt s pa 4) (x.setWidth 64) 0
    (some (byteOf r.1), numAt s pa 4, r.2.2)
  | .cas n c x => (if numAt s pa n = c.toNat % 2 ^ (8 * n) then some (byteOf x.toNat) else none, numAt s pa n, 0)

/-- The response to an access performed at an address (R228, R240). -/
def answerTo (s : State) (pa : Nat) (r : RemoteReq) : Out :=
  let x := performed s pa r.act
  let with_ := fun v => Out.resp r.src r.op ⟨r.lane, true, 0, v, false⟩
  match r.act with
  | .fetch n => .respBytes r.src r.op r.lane ⟨(List.range n).map fun k => s.rd (pa + k), []⟩
  | .reduce _ _ _ _ => with_ (x.2.2.setWidth 64)
  | .atomic _ _ _ => with_ (BitVec.ofNat 64 (x.2.1 + x.2.2.toNat * 2 ^ 32))
  | _ => with_ (BitVec.ofNat 64 x.2.1)

/-- Memory after an access at an address. -/
def storesAt (s t : State) (pa : Nat) (a : RAct) : Prop :=
  storedAt s t pa (if (performed s pa a).1.isSome then (accessOf a).1 else 0) (((performed s pa a).1).getD fun _ => 0)

/-- The lookup of another rank's access (R234, R235): refused, with nothing else changed, or let pass with the Q of now; one that R244
puts before what its source has done here comes no more. -/
def lookedUp (s t : State) (r : RemoteReq) (pkt : Option (Nat × Nat)) : Prop :=
  (r.ord = true ∧ isPast s r.src false r.grp r.op → t = s) ∧
  (¬ (r.ord = true ∧ isPast s r.src false r.grp r.op) →
  (∀ c, exported s r.win r.off (accessOf r.act).1 (accessOf r.act).2 = .bad c →
    t = { s with
      out := .resp r.src r.op ⟨r.lane, false, BitVec.ofNat 8 c, 0, false⟩ :: s.out
      rxSeq := match pkt with | some (n, q) => ⟨r.src, n, q, some (BitVec.ofNat 8 c)⟩ :: s.rxSeq | none => s.rxSeq }) ∧
  ∀ pa, exported s r.win r.off (accessOf r.act).1 (accessOf r.act).2 = .pa pa →
    (isOvertaken s r.src false r.grp r.op pa (accessOf r.act).1 → t = s) ∧
    (¬ isOvertaken s r.src false r.grp r.op pa (accessOf r.act).1 → t = { s with foreign := s.foreign ++ [⟨r, pkt, pa, s.q⟩] }))

/-- A number extended under a type of R131. -/
def extended (ty : LTy) (v : Nat) : Word :=
  match ty with
  | .i8 => BitVec.ofInt 32 (if v < 2 ^ 7 then (v : Int) else v - 2 ^ 8)
  | .i16 => BitVec.ofInt 32 (if v < 2 ^ 15 then (v : Int) else v - 2 ^ 16)
  | _ => BitVec.ofNat 32 v

/-- Byte `k` of the failure record of R243, for negative responses in ascending rank order. -/
def mcstByte (bad : List (Nat × Nat)) (k : Nat) : Byte :=
  let n := min bad.length 8
  if k < 4 then byteOf bad.length k
  else if k < 8 then byteOf n (k - 4)
  else if k < 72 then
    let j := (k - 8) / 8
    if j < n then byteOf (if (k - 8) % 8 < 4 then (bad.getD j (0, 0)).1 else (bad.getD j (0, 0)).2) ((k - 8) % 4) else 0
  else if k < 128 then 0
  else BitVec.ofNat 8 (((List.range 8).map fun b => if bad.any (fun x => x.1 == 8 * (k - 128) + b) then 2 ^ b else 0).sum)

/-- The lanes that have ended: performed, or settled with a cause. -/
def allEnded (o : Op) : Prop := ∀ l ∈ o.lanes, l.st = .done ∨ ∃ c, l.st = .settled c

end Sys2Proof.Claims

/-- R234, R236, R238-R241: a target checks an access in order and performs one that passes at its home; `RPUT`, `RGET` and `RRED` check ranks and then alignment
before any effect, send one access per executing lane, and write their predicates, results and flags when every lane has been performed, refused or
reported (a uniform one writes its pair in every executing lane, log entry 61). An access is looked up once, and performed at a later turn. R244: an access of
a source comes no more once an event of a later operation has been signalled, or a later one has reached its bytes, and waits for those
of earlier operations on the same bytes (log entry 86). -/
def Obligations.RemoteEffects : Prop :=
  (∀ (s : State) (w off n : Nat) (need : Need), s.export_ w off n need = exported s w off n need) ∧
  (∀ (s : State) (g : Group) (i : Instr) (h : Hdr) (p : CmpDst) (d : Dst) (k : RemKind) (sz : Nat) (w : BitVec 12) (r o : Opnd)
      (val : Group → Nat → DWord) (act : DWord → RAct) (u : Team),
    remotes i = some (h, p, d, k, sz, w, r, o, val, act) → runs s g i = true → h.ch = false → s.team? g.tid = some u →
    let rk := fun l => (g.opnd r l).toNat
    let off := fun l => (g.opnd o l).toNat
    let far := lanesThat g i h fun l => decide (1024 ≤ rk l)
    let mis := lanesThat g i h fun l => decide (off l % sz ≠ 0)
    (guarded g h = false → ∃ t, exec i s = .next t ∧ idles s t g i) ∧
    (guarded g h = true → g.dep = 0 → g.sb.valid = false →
      (far ≠ 0 → traps i s g 2 0x20 far) ∧ (far = 0 → mis ≠ 0 → traps i s g 2 0x11 mis)) ∧
    (guarded g h = true → far = 0 → mis = 0 → u.det = false → s.checked u = none → untainted g i →
      ∃ t op, exec i s = .next t ∧ handedOff s t g i (some .F) op ∧ op.cmd = .remote k w.toNat ∧ op.dst = d ∧ op.p = p ∧
        op.lanes.map (fun l => (l.lane, l.rank, l.va, l.data, l.st)) =
          (evalsIn g i h).map (fun l => (l, rk l, off l, val g l, LaneSt.pending)) ∧
        ∀ l ∈ evalsIn g i h, rk l ≠ s.rank → .req (rk l) ⟨s.rank, g.gid, true, s.nextId, l, w.toNat, off l, act (val g l)⟩ ∈ t.out)) ∧
  (∀ (s : State) (r : RemoteReq), r.src ≠ s.rank → s.mgmt.booted = true → (∀ f ∈ s.foreign, f.req ≠ r) → (accessOf r.act).1 ≤ 4096 →
    ∃ t, exec (.remoteAccessArrival r) s = .next t ∧ lookedUp s t r none) ∧
  (∀ (s : State) (pre post : List Foreign) (f : Foreign), f.req.src ≠ s.rank → s.mgmt.booted = true → s.foreign = pre ++ f :: post →
    (∀ x ∈ pre ++ post, x.req.src = f.req.src → x.req.op = f.req.op → x.req ≠ f.req ∧ x.pa ≠ f.pa) → (∀ x ∈ pre, x.req ≠ f.req) →
    let n := (accessOf f.req.act).1
    let meets := fun (x : Foreign) => x.req.src = f.req.src ∧ x.req.grp = f.req.grp ∧ x.req.op < f.req.op ∧
      x.pa < f.pa + n ∧ f.pa < x.pa + (accessOf x.req.act).1
    ((∃ x ∈ pre ++ post, meets x) → exec (.remoteAccessArrival f.req) s = .next s) ∧
    ((∀ x ∈ pre ++ post, ¬ meets x) → isMem s f.pa → s.poisoned f.pa n = false → clean f.req.act →
      (∀ m, f.req.act = .fetch m ∨ f.req.act = .read m → unshared s f.pa m) →
      (∀ m x y, f.req.act = .cas m x y → m = 4 ∨ m = 8) →
      ∃ t, exec (.remoteAccessArrival f.req) s = .next t ∧ t.groups = s.groups ∧ t.ops = s.ops ∧ t.foreign = pre ++ post ∧
        t.reached = ⟨f.req.src, false, f.req.grp, f.req.op, f.pa, n⟩ :: s.reached ∧ storesAt s t f.pa f.req.act ∧
        match f.pkt with
        | none => t.out = answerTo s f.pa f.req :: s.out ∧ t.rxSeq = s.rxSeq
        | some (st, q) => t.out = .ack f.req.src st q :: answerTo s f.pa f.req :: s.out ∧
            t.rxSeq = ⟨f.req.src, st, q, none⟩ :: s.rxSeq)) ∧
  (∀ (s : State) (o : Op) (k : RemKind) (w : Nat) (l : Lane) (r : RemoteReq), r.src = s.rank → r.op = o.id → r.lane = l.lane →
    s.op? o.id = some o → o.lane? l.lane = some l → o.st = .active → l.st = .pending → l.rank = s.rank → o.cmd = .remote k w →
    let act : RAct := match k with
      | .put sz => .write sz l.data
      | .get ty => .read (bytesOf ty)
      | .red op ty => .reduce op (match ty with | .i32 => .i32 | .n32 => .n32 | .f32 => .f32) (l.data.setWidth 32) false
    let n := (accessOf act).1
    let i := Instr.remoteAccessArrival r
    (∀ c, s.decided o.id l.lane = none → exported s w l.va n (accessOf act).2 = .bad c → ∃ t, exec i s = .next t ∧ t.mem = s.mem ∧
      laneIs t o.id l.lane fun x => x.st = .settled (BitVec.ofNat 8 c)) ∧
    (∀ pa, s.decided o.id l.lane = none → exported s w l.va n (accessOf act).2 = .pa pa →
      exec i s = .next { s with foreign := s.foreign ++ [⟨⟨s.rank, o.gid, true, o.id, l.lane, w, l.va, act⟩, none, pa, s.q⟩] }) ∧
    (∀ f, s.decided o.id l.lane = some f → s.remBlocked o l.lane = true → exec i s = .next s) ∧
    (∀ f, s.decided o.id l.lane = some f → f.req.act = act → s.remBlocked o l.lane = false → isMem s f.pa →
      s.poisoned f.pa n = false → (∀ m, act = .read m → unshared s f.pa m) →
      let y := performed s f.pa act
      ∃ t, exec i s = .next t ∧ storesAt s t f.pa act ∧ t.foreign = s.foreign.erase f ∧
        (∃ o', t.op? o.id = some o' ∧ o'.flags = o.flags ||| y.2.2) ∧
        laneIs t o.id l.lane fun x => x.st = .done ∧ x.ok = true ∧ x.res = BitVec.ofNat 64 y.2.1)) ∧
  (∀ (s : State) (o : Op) (k : RemKind) (w : Nat) (far : List LaneAns) (g : Group), s.op? o.id = some o → o.cmd = .remote k w →
    o.st = .active → o.suppressed = false → s.endBlocked o = false → s.grp? o.gid = some g →
    let q := o.answered far s.rank
    allEnded q →
    let ok := fun l => q.lanes.any fun x => x.lane == (if o.uni then 0 else l) && x.st == .done
    ∃ t g', exec (.remoteOpComplete o.id far) s = .next t ∧ opOver s t o ∧ t.mem = s.mem ∧ t.grp? o.gid = some g' ∧
      pairIn g g' o.exec o.p ok ∧
      g'.flg = g.flg ||| (q.flags ||| match k with
        | .red _ _ => (q.lanes.filter fun x => x.rank != s.rank && x.st == .done).foldl (fun b x => b ||| x.res.setWidth 7) 0
        | _ => 0).setWidth 32 ∧
      match k with
      | .get ty =>
        let res := q.lanes.filter fun x => x.st == .done
        let v := fun (x : Lane) => extended ty (x.res.toNat % 2 ^ (8 * bytesOf ty))
        (∀ n j, j < 64 → g'.rdV n j = match o.dst with
          | .v m => if n = m.toNat then (match res.find? fun x => x.lane == j with | some x => v x | none => g.rdV n j)
              else g.rdV n j
          | _ => g.rdV n j) ∧
        ∀ n, g'.rdS n = match o.dst with
          | .s m => if n = m.toNat then (match res.head? with | some x => v x | none => g.rdS n) else g.rdS n
          | _ => g.rdS n
      | _ => (o.dst = .none → g'.v = g.v ∧ g'.s = g.s)) ∧
  (∀ (s : State) (o : Op) (k : RemKind) (w lane : Nat) (l : Lane), s.op? o.id = some o → o.cmd = .remote k w → o.st = .active →
    o.lane? lane = some l → l.st = .pending →
    ∃ t, exec (.responseLimitExpiry o.id lane) s = .next t ∧ t.mem = s.mem ∧ t.groups = s.groups ∧
      laneIs t o.id lane fun x => x.st = .settled 0x05)


/-- R242, R243: `MCST` checks alignment, allocation, ownership and overlap in order, reads the member set and sends its data to every member; its own copy is looked up
under R234 and then lands; when every member has answered, the record at b and the count of positive answers are written and path F falls.
R226, R227, R230, R231: a packet is looked up and performed once, and acknowledged when it has been performed or
refused, a duplicate again; an unacknowledged packet is sent again; ports go down and working ports
come up, which programs do not see. The model's choices are log entries 41, that an unbooted package takes no packet; 67, that the four
operand traps come before R347's in a deterministic team too; and 104, that the data sent to every member is the X bytes as they stand
at issue. -/
def Obligations.MulticastEffects : Prop :=
  ((∀ (s : State) (g : Group) (h : Hdr) (d : Dst) (e : BitVec 8) (w : BitVec 12) (ro : BitVec 30) (x : Opnd) (n : BitVec 13) (y : Opnd) (u : Team),
    let i := Instr.mcst h d e w ro x n y
    runs s g i = true → h.ch = false → s.team? g.tid = some u →
    let a := (g.opnd x 0).toNat
    let b := (g.opnd y 0).toNat
    let aligned := a % 4 = 0 ∧ b % 64 = 0
    let inside := a + n.toNat ≤ u.xbytes ∧ b + 256 ≤ u.xbytes
    let engine := ∀ k, (a / 4096 ≤ k ∧ k * 4096 < a + n.toNat) ∨ (b / 4096 ≤ k ∧ k * 4096 < b + 256) → u.owner .x k = .engine
    let disjoint := a + n.toNat ≤ b ∨ b + 256 ≤ a
    let ms := (List.range 1024).filter fun r => (s.gent u.ctx e.toNat).members.getLsbD r
    (guarded g h = false → ∃ t, exec i s = .next t ∧ idles s t g i) ∧
    (guarded g h = true → 0 < n.toNat → g.dep = 0 → g.sb.valid = false →
      (¬ aligned → traps i s g 2 0x11 1) ∧ (aligned → ¬ inside → traps i s g 3 0x01 1) ∧
      (aligned → inside → ¬ engine → traps i s g 2 0x14 1) ∧ (aligned → inside → engine → ¬ disjoint → traps i s g 2 0x23 1)) ∧
    (guarded g h = true → 0 < n.toNat → aligned → inside → engine → disjoint → u.det = false → untainted g i → u.rangeTag .x a n.toNat = 0 →
      u.rangeTag .x b 256 = 0 →
      ∃ t o m, exec i s = .next t ∧ handedOff s t g i (some .F) o ∧ o.cmd = .mcst m ∧ o.dst = d ∧ m.entry = e.toNat ∧ m.win = w.toNat ∧
        m.roff = ro.toNat * 64 ∧ m.a = a ∧ m.n = n.toNat ∧ m.b = b ∧ m.members = ms ∧
        m.data = ((List.range n.toNat).map fun k => u.rd .x (a + k)) ∧ o.lanes.map (fun l => (l.lane, l.rank)) = ms.map (fun r => (r, r)) ∧
        (∀ l ∈ o.lanes, l.st = .pending) ∧
        ∀ r ∈ ms, r ≠ s.rank → .req r ⟨s.rank, g.gid, true, s.nextId, r, w.toNat, ro.toNat * 64, .put ⟨m.data, m.bad⟩⟩ ∈ t.out)) ∧
  (∀ (s : State) (r : RemoteReq) (o : Op) (m : McstCmd) (l : Lane), r.src = s.rank → r.op = o.id → r.lane = l.lane →
    s.op? o.id = some o → o.lane? l.lane = some l → o.st = .active → l.st = .pending → l.rank = s.rank → o.cmd = .mcst m →
    m.data.length = m.n →
    let act := RAct.put ⟨m.data, m.bad⟩
    let i := Instr.remoteAccessArrival r
    (∀ c, s.decided o.id l.lane = none → exported s m.win m.roff m.n .wr = .bad c → ∃ t, exec i s = .next t ∧ t.mem = s.mem ∧
      laneIs t o.id l.lane fun x => x.st = .settled (BitVec.ofNat 8 c)) ∧
    (∀ pa, s.decided o.id l.lane = none → exported s m.win m.roff m.n .wr = .pa pa →
      exec i s = .next { s with foreign := s.foreign ++ [⟨⟨s.rank, o.gid, true, o.id, l.lane, m.win, m.roff, act⟩, none, pa, s.q⟩] }) ∧
    (∀ f, s.decided o.id l.lane = some f → f.req.act = act → s.remBlocked o l.lane = false → isMem s f.pa →
      ∃ t, exec i s = .next t ∧ storedAt s t f.pa m.n (fun k => m.data.getD k 0) ∧ laneIs t o.id l.lane fun x => x.st = .done)) ∧
  (∀ (s : State) (o : Op) (m : McstCmd) (far : List LaneAns) (g : Group) (u : Team), s.op? o.id = some o → o.cmd = .mcst m →
    o.st = .active → o.suppressed = false → s.endBlocked o = false → s.grp? o.gid = some g → s.team? o.tid = some u →
    let q := o.answered far s.rank
    allEnded q → (q.lanes.map (·.lane)).Pairwise (· < ·) → (∀ l ∈ q.lanes, l.lane < 1024) →
    let bad := q.lanes.filterMap fun l => match l.st with | .settled c => some (l.lane, c.toNat) | _ => none
    ∃ t g' u', exec (.mcstComplete o.id far) s = .next t ∧ opOver s t o ∧ t.mem = s.mem ∧ t.grp? o.gid = some g' ∧
      t.team? o.tid = some u' ∧
      (∀ k, u'.rd .x k = if m.b ≤ k ∧ k < m.b + 256 then mcstByte bad (k - m.b) else u.rd .x k) ∧
      ∀ r, o.dst = .s r → ∀ n, g'.rdS n = if n = r.toNat then BitVec.ofNat 32 (q.lanes.length - bad.length) else g.rdS n)) ∧
  ((∀ (s : State) (src stream seq : Nat) (q : Option RemoteReq),
    let i := Instr.gfpPacketReceive src stream seq q
    let known := s.rxSeq.find? fun x => x.src == src && x.stream == stream && x.seq == seq
    let waits := ∃ f ∈ s.foreign, f.req.src = src ∧ f.pkt = some (stream, seq)
    (s.mgmt.booted = false ∨ src = s.rank → exec i s = .next s) ∧
    (s.mgmt.booted = true → src ≠ s.rank →
      (∀ x, known = some x → q = none ∨ x.refused = none → exec i s = .next { s with out := .ack src stream seq :: s.out }) ∧
      (∀ x c r, known = some x → q = some r → x.refused = some c →
        exec i s = .next { s with out := .resp src r.op ⟨r.lane, false, c, 0, false⟩ :: s.out }) ∧
      (known = none → q = none → exec i s = .next { s with
        rxSeq := ⟨src, stream, seq, none⟩ :: s.rxSeq, out := .ack src stream seq :: s.out }) ∧
      (known = none → q ≠ none → waits → exec i s = .next s) ∧
      (∀ r, known = none → q = some r → ¬ waits → (accessOf r.act).1 ≤ 4096 →
        ∃ t, exec i s = .next t ∧ lookedUp s t { r with src := src } (some (stream, seq))))) ∧
  (∀ (s : State) (rank stream seq : Nat) (o : Op) (m : Msg), rank ≠ s.rank → o ∈ s.ops → o.st = .active → o.cmd = .msend rank m →
    exec (.gfpRetransmit rank stream seq) s = .next { s with out := .resend rank stream seq :: s.out }) ∧
  (∀ (s : State) (conn packet : Nat), exec (.uetTrimRetransmit conn packet) s = .next { s with out := .uetResend conn packet :: s.out }) ∧
  (∀ (s : State) (port : Nat), port < 16 →
    (∃ t, exec (.portDown port) s = .next t ∧ t = { s with mgmt := t.mgmt } ∧
      t.mgmt = { s.mgmt with portsUp := s.mgmt.portsUp &&& ~~~(1#16 <<< port) }) ∧
    ∃ t, exec (.portUp port) s = .next t ∧ t = { s with mgmt := t.mgmt } ∧
      t.mgmt = { s.mgmt with portsUp := if s.mgmt.portmap.getLsbD port then s.mgmt.portsUp ||| (1#16 <<< port) else s.mgmt.portsUp }))

namespace Sys2Proof.Claims

/-! ## Counters, triggered sends and collectives -/

/-- A send that has fired (R277): its operation holds the bytes at its source as they stood then, or the cause of the first of them that
does not translate, and the bytes leave for another rank. -/
def firedAs (t : State) (o : Op) (a : Armed) : Prop :=
  let n := 4 * a.f.n4.toNat
  let at_ := fun k => t.xlate 0 a.ctx (a.src + k) .read a.sup
  ∃ data bad, o.cmd = .tsend a data bad ∧
    ((∀ k, k < n → ∃ pa, at_ k = .pa pa) → bad = none ∧ data.length = n ∧
      (∀ k pa, k < n → at_ k = .pa pa → isMem t pa → data.getD k 0 = t.rd pa) ∧
      (a.rank ≠ t.rank → ∃ d, d.bytes = data ∧
        .tsend a.rank a.f.win.toNat a.roff d a.ctx (if a.f.ctOn then some a.f.ct else none) ∈ t.out)) ∧
    ∀ k c, k < n → at_ k = .bad c → (∀ j, j < k → ∃ pa, at_ j = .pa pa) → bad = some c ∧ data = []

/-- A change of a counter (R274): the value, the sends it makes due leave the list and are fired in arming order (`ops0` are
the operations before), waiters whose bound holds go on. `c` and `c'` are the context just before and after. -/
def counted (s t : State) (ops0 : List Op) (ctx n : Nat) (v : Word) (c c' : Ctx) : Prop :=
  t.ctx? ctx = some c' ∧ c'.counter n = v ∧ (∀ k, k ≠ n → c'.counter k = c.counter k) ∧
    (let due := fun (x : Nat × Armed) => x.2.f.cn.toNat == n && decide (x.2.thr.toNat ≤ v.toNat)
     c' = { c with counters := c'.counters, armed := c.armed.filter fun x => !due x } ∧
     ∃ new, t.ops = ops0 ++ new ∧ new.length = (c.armed.filter due).length ∧
       ∀ (k : Nat) (x : Nat × Armed), (c.armed.filter due)[k]? = some x → ∃ o, new[k]? = some o ∧ firedAs t o x.2) ∧
    ∀ m y k w, s.grp? m = some y → y.park = some (.ctwait k w) → s.ctxOfG y = ctx →
      ∃ y', t.grp? m = some y' ∧ y'.park = if k = n ∧ w.toNat ≤ v.toNat then none else y.park

/-- The arriving send of `src` numbered `op` as far as it has come (R277). -/
def sendNow (s : State) (src ctx op w roff len : Nat) : Landing :=
  (s.landings.find? fun e => e.src == src && e.op == op).getD ⟨src, ctx, op, w, roff, len, 0, [], none⟩

/-- Packets of an arriving send are still to be looked up. -/
def sendLooks (e : Landing) : Prop := e.stop = none ∧ e.next < e.len

/-- Begun sends of the same source that were fired before (R278). -/
def sendsEarlier (s : State) (e : Landing) : List Landing :=
  s.landings.filter fun x => x.src == e.src && x.ctx == e.ctx && decide (x.op < e.op)

/-- A begun send may still write some of `n` bytes at `pa`. -/
def sendMeets (s : State) (x : Landing) (pa n : Nat) : Prop :=
  (∃ p ∈ x.due, p.1 < pa + n ∧ pa < p.1 + p.2.1.bytes.length) ∨
    (sendLooks x ∧ let b := (s.window x.win).eff.toNat / 2 ^ 64 % 2 ^ 52 + x.roff
      b + x.next < pa + n ∧ pa < b + x.len)

/-- Its next packet is looked up (R227, R234, R235): let pass, refused, or come too late (R244). -/
def sendLooked (s : State) (d : FarData) (e e' : Landing) : Prop :=
  let n := min 4096 (e.len - e.next)
  (∀ pa, exported s e.win (e.roff + e.next) n .wr = .pa pa →
    (isOvertaken s e.src true e.ctx e.op pa n → e' = e) ∧
    (¬ isOvertaken s e.src true e.ctx e.op pa n → ∃ x : FarData, x.bytes = (d.bytes.drop e.next).take n ∧
      e' = { e with next := e.next + n, due := e.due ++ [(pa, x, s.q)] })) ∧
  ∀ k, exported s e.win (e.roff + e.next) n .wr = .bad k → e' = { e with stop := some k }

/-- The first packet let pass is performed. -/
def sendDone (s t : State) (e e' : Landing) : Prop :=
  ∃ pa x q rest, e.due = (pa, x, q) :: rest ∧ e' = { e with due := rest } ∧
    ((∀ k, k < x.bytes.length → isMem s (pa + k)) → storedAt s t pa x.bytes.length fun k => x.bytes.getD k 0)

/-- Where a send stands after its step: it goes on, or, all of it performed and the earlier ones of its source ended, it ends
refused, or done with the counter raised (R277, R278). -/
def sendLeft (s t : State) (e' : Landing) (ct : Option (BitVec 6)) : Prop :=
  let mine := fun (x : Landing) => x.src == e'.src && x.op == e'.op
  let ends := e'.due = [] ∧ ¬ sendLooks e' ∧ sendsEarlier s e' = []
  (¬ ends → t.out = s.out ∧ t.ctxs = s.ctxs ∧
    t.landings = if s.landings.any mine then s.landings.map (fun x => if mine x then e' else x) else s.landings ++ [e']) ∧
  (ends → t.landings = s.landings.filter (fun x => !mine x) ∧ isPast t e'.src true e'.ctx e'.op ∧
    (∀ k, e'.stop = some k → t.out = .resp e'.src e'.op ⟨0, false, BitVec.ofNat 8 k, 0, false⟩ :: s.out ∧ t.ctxs = s.ctxs) ∧
    (e'.stop = none → t.out.head? = some (.resp e'.src e'.op ⟨0, true, 0, 0, false⟩) ∧
      ∀ n c, ct = some n → s.ctx? e'.ctx = some c → ∃ c', counted s t s.ops e'.ctx n.toNat (c.counter n.toNat + 1) c c'))

/-- `CTSET`: header, counter, `.add`, value (R275). -/
def ctsets (g : Group) : Instr → Option (Hdr × BitVec 6 × Bool × Word)
  | .ctset h n add v => some (h, n, add, g.opnd v 0)
  | .ctsetImm h n add w => some (h, n, add, w)
  | _ => none

/-- `GSET`: header, entry, and what the three forms give: the bitmap's pair, sequence and MCID, or the sequence, or nothing (R259). -/
def gsets : Instr → Option (Hdr × Opnd × Option (SReg × Opnd × BitVec 16) × Option Opnd)
  | .gsetFull h e p q m => some (h, e, some (p, q, m), none)
  | .gsetSeq h e q => some (h, e, none, some q)
  | .gsetClear h e => some (h, e, none, none)
  | _ => none

/-- Members of an entry in position order. -/
def ranksIn (x : GEntry) : List Nat := (List.range 1024).filter fun r => x.members.getLsbD r

/-- Elements of source and destination (R262). -/
def sizesOf (op : CollOp) (n c : Nat) : Nat × Nat :=
  match op with
  | .allreduce | .bcast => (c, c)
  | .redscat => (n * c, c)
  | .allgather => (c, n * c)
  | .alltoall => (n * c, n * c)
  | .barrier => (0, 0)
def elemSize (ty : CollTy) : Nat := match ty with | .i32 | .f32 => 4 | _ => 2

/-- The subcode with which `COLL` refuses its operands (R263), all class 2. -/
def collTrap (s : State) (x : GEntry) (f : CollF) (src dst count : Nat) : Option Nat :=
  let ms := ranksIn x
  let e := (s.window f.win.toNat).eff.toNat
  let len := e / 2 ^ 128 % 2 ^ 37
  let a := (sizesOf f.op ms.length count).1 * elemSize f.ty
  let b := (sizesOf f.op ms.length count).2 * elemSize f.ty
  let reads := f.op ≠ .bcast ∨ f.root.toNat = s.rank
  if ms = [] ∨ x.members.getLsbD x.own = false ∨ (f.op = .bcast ∧ x.members.getLsbD f.root.toNat = false) then some 0x25
  else if f.op = .barrier ∧ (count ≠ 0 ∨ src ≠ 0 ∨ dst ≠ 0) then some 0x25
  else if src % 4 ≠ 0 ∨ dst % 4 ≠ 0 then some 0x11
  else if e % 4 ≠ 1 ∨ e.testBit 3 = false ∨ e.testBit 4 = false ∨ e.testBit 2 = true ∨ (reads ∧ len < src + a) ∨ len < dst + b then some 0x26
  else if reads ∧ src < dst + b ∧ dst < src + a ∧ ¬ (src = dst ∧ a = b ∧ (f.op = .allreduce ∨ f.op = .bcast)) then some 0x27
  else none

/-- `op` of R267. -/
def elemOp (ty : CollTy) (op : RedOp) (a b : Nat) : Nat × BitVec 7 :=
  match ty with
  | .i32 => updated op .i32 a b
  | .f32 => updated op .f32 a b
  | .bf16 => updated op .bf16 a b
  | .f16 =>
    let x := fval (ffmt .f16) false a
    let y := fval (ffmt .f16) false b
    match op with
    | .min => (fminmax (ffmt .f16) false x y, 0)
    | .max => (fminmax (ffmt .f16) true x y, 0)
    | _ => fadd (ffmt .f16) .rne false x y

/-- A right-hand partial as it crosses the wire (R268): exact, or under `.sb7` in blocks of 16, a short last one padded with +0; a block
with a NaN or an infinity travels unchanged. -/
def crossed (f : CollF) (xs : List Nat) : List Nat × BitVec 7 :=
  let block := fun j =>
    let b := ((xs.drop (16 * j)).take 16).map (fval (ffmt .f32) false)
    b ++ List.replicate (16 - b.length) (.zero false)
  let escapes := fun j => (block j).any fun v => v.isNan || v.isInf
  if f.sb7 = false then (xs, 0)
  else ((List.range xs.length).map fun k => if escapes (k / 16) then xs.getD k 0
      else fenc (ffmt .f32) (elemOf .sb7 (sbEncode 7 (block (k / 16))).1 (k % 16)).val,
    (List.range ((xs.length + 15) / 16)).foldl (fun a j => a ||| if escapes j then 0 else (sbEncode 7 (block j)).2) 0)

/-- Two partials combined element by element (R267). -/
def joined (f : CollF) (a b : List Nat) : List Nat × BitVec 7 :=
  let rs := List.zipWith (elemOp f.ty f.red) a (crossed f b).1
  (rs.map (·.1), rs.foldl (fun x y => x ||| y.2) (crossed f b).2)

/-- One level of the fixed tree of R267: neighbours combined, an odd tail carried unchanged. -/
def level (f : CollF) : List (List Nat) → List (List Nat) × BitVec 7
  | a :: b :: r => ((joined f a b).1 :: (level f r).1, (joined f a b).2 ||| (level f r).2)
  | r => (r, 0)

/-- The tree of R267 over the members' segments, in position order. -/
def reduced (f : CollF) : Nat → List (List Nat) → List Nat × BitVec 7
  | 0, xs => (xs.headD [], 0)
  | n + 1, xs => if xs.length ≤ 1 then (xs.headD [], 0)
      else ((reduced f n (level f xs).1).1, (level f xs).2 ||| (reduced f n (level f xs).1).2)

/-- A member's destination (R262, R267) and the flags of the whole reduction. -/
def destination (f : CollF) (n c pos root : Nat) (src : List (List Nat)) : List Nat × BitVec 7 :=
  let seg := fun p => src.map fun x => (List.range c).map fun k => x.getD (c * p + k) 0
  match f.op with
  | .allreduce => reduced f n src
  | .redscat => ((reduced f n (seg pos)).1, ((List.range n).map fun p => (reduced f n (seg p)).2).foldl (· ||| ·) 0)
  | .allgather => (src.flatten, 0)
  | .bcast => (src.getD root [], 0)
  | .alltoall => ((seg pos).flatten, 0)
  | .barrier => ([], 0)

/-- The words of a resolved handle (R270). -/
def collRecord (status : Nat) (i : CollInst) (ps : List Word) (w6 w7 : Word) : List Word :=
  let ns := ps.map (·.toNat)
  [BitVec.ofNat 32 status, i.seq, BitVec.ofNat 32 ns.sum, BitVec.ofNat 32 (ns.sum / 2 ^ 32), BitVec.ofNat 32 (2 ^ i.f.slog.toNat),
    BitVec.ofNat 32 (ns.foldl max 0 - ns.foldl min (ns.headD 0)), w6, w7] ++ List.replicate 8 0

/-- The one instance of its entry. -/
def onlyInst (s : State) (i : CollInst) : Prop := ∃ pre post, s.colls = pre ++ i :: post ∧
  ∀ j ∈ pre ++ post, ¬ (j.ctx = i.ctx ∧ j.entry = i.entry)

/-- An instance has completed (R269): it is gone, and its handle resolved with words that begin so. -/
def ended (s t : State) (i : CollInst) (status : Nat) : Prop :=
  i ∉ t.colls ∧ (t.hent (hIndex i.handle)).st = .resolved ∧ ((t.hent (hIndex i.handle)).words.take 2 = [BitVec.ofNat 32 status, i.seq]) ∧
    told s t i.handle true

/-- What a member does for a failed sequence (R272). -/
def aborted (s t : State) (ctx entry : Nat) (seq : Word) (rank : Nat) (cause : BitVec 8) : Prop :=
  let x := t.gent ctx entry
  let above := fun (i : CollInst) => i.ctx = ctx ∧ i.entry = entry ∧ 0 < (i.seq - (seq - 1)).toNat ∧ (i.seq - (seq - 1)).toNat < 2 ^ 31
  x.seq = seq - 1 ∧ x.abseq = seq - 1 ∧ x.abrank = rank ∧ x.abcause = cause ∧ x.members = (s.gent ctx entry).members ∧
    (∀ i ∈ s.colls, ¬ above i → i ∈ t.colls) ∧
    ∀ i ∈ s.colls, above i → i ∉ t.colls ∧
      (pendingHere s i.handle → (∀ j ∈ s.colls, hIndex j.handle = hIndex i.handle → j = i) →
        (t.hent (hIndex i.handle)).st = .resolved ∧ (t.hent (hIndex i.handle)).words.getD 0 0 = 2 ∧
        (t.hent (hIndex i.handle)).words.getD 1 0 = i.seq ∧ (t.hent (hIndex i.handle)).words.getD 6 0 = seq - 1 ∧
        (t.hent (hIndex i.handle)).words.getD 7 0 = BitVec.ofNat 32 (rank % 1024 + cause.toNat * 2 ^ 16)) ∧
      ∀ y, s.grp? i.gid = some y → y.exited = false → ∃ y' r, t.grp? i.gid = some y' ∧ y'.pend = y.pend ++ [r] ∧
        r.cls = 13 ∧ r.sub = 1 ∧ r.code = BitVec.ofNat 32 entry

end Sys2Proof.Claims

/-- R274-R277: a counter changes by `CTSET`, an arriving send that names it, or the end of a send armed here, and each change fires the sends it makes due; `CTRD`
and `CTWAIT`; `TSEND` checks rank, alignment, address and room, then arms its send or fires it at once; a send that fires carries the bytes
at its source as they stand then; an arriving one is looked up and performed packet by packet, of at most 4096 bytes, after what earlier
ones of its source write to the same bytes, and raises its counter when all of it is performed and they have ended, answering done also where its context
is none here (log entry 111); a send ends done, or failed with a cause word. -/
def Obligations.CounterEffects : Prop :=
  (∀ (s : State) (g : Group) (i : Instr) (h : Hdr) (n : BitVec 6) (add : Bool) (v : Word) (c : Ctx), ctsets g i = some (h, n, add, v) →
    runs s g i = true → h.ch = false → s.ctx? (s.ctxOfG g) = some c →
    (guarded g h = false → goes i s { g with pc := seqNext g.pc (ilen g i) }) ∧
    (guarded g h = true → untainted g i → ∃ t g' c', exec i s = .next t ∧ t.grp? s.cur = some g' ∧ keepsRegs g g' ∧
      g'.pc = seqNext g.pc (ilen g i) ∧ t.mem = s.mem ∧
      counted s t (s.ops.filter fun o => o.id != s.nextId) (s.ctxOfG g) n.toNat (if add then c.counter n.toNat + v else v) c c')) ∧
  (∀ (s : State) (g : Group) (h : Hdr) (d : Dst) (sel : CSel) (n : BitVec 6) (c : Ctx), runs s g (.ctrd h d sel n) = true →
    h.ch = false → s.ctx? (s.ctxOfG g) = some c →
    let v := match sel with
      | .val => c.counter n.toNat
      | .fail => c.fails
      | .cause => c.failCause
      | .armed => BitVec.ofNat 32 (c.armed.filter fun x => x.2.f.cn.toNat == n.toNat).length
    ∃ t, exec (.ctrd h d sel n) s = .next t ∧ ranAlu s t g (.ctrd h d sel n) h d fun _ => (v, 0)) ∧
  (∀ (s : State) (g : Group) (h : Hdr) (n : BitVec 6) (x : Opnd) (c : Ctx), runs s g (.ctwait h n x) = true → h.ch = false →
    s.ctx? (s.ctxOfG g) = some c →
    (guarded g h = false ∨ (g.opnd x 0).toNat ≤ (c.counter n.toNat).toNat → goes (.ctwait h n x) s { g with pc := seqNext g.pc 8 }) ∧
    (guarded g h = true → (c.counter n.toNat).toNat < (g.opnd x 0).toNat →
      goes (.ctwait h n x) s { g with pc := seqNext g.pc 8, park := some (.ctwait n.toNat (g.opnd x 0)) })) ∧
  (∀ (s : State) (g : Group) (h : Hdr) (f : TSendF) (thr rank roff : Opnd) (src : SReg) (c : Ctx),
    let i := Instr.tsend h f thr rank roff src
    runs s g i = true → h.ch = false → s.ctx? (s.ctxOfG g) = some c →
    let r := (g.opnd rank 0).toNat
    let va := (g.pairS src.toNat).toNat
    let a : Armed := ⟨s.ctxOfG g, f, g.opnd thr 0, r, (g.opnd roff 0).toNat, va, g.sup⟩
    let aligned := a.roff % 4 = 0 ∧ va % 4 = 0
    (guarded g h = false → goes i s { g with pc := seqNext g.pc 16 }) ∧
    (guarded g h = true → g.dep = 0 → g.sb.valid = false →
      (1024 ≤ r → traps i s g 2 0x20 1) ∧ (r < 1024 → ¬ aligned → traps i s g 2 0x11 1) ∧
      (r < 1024 → aligned → 2 ^ 54 ≤ va → traps i s g 8 0x05 1) ∧
      (r < 1024 → aligned → va < 2 ^ 54 → 4096 ≤ c.armed.length → traps i s g 2 0x24 1)) ∧
    (guarded g h = true → r < 1024 → aligned → va < 2 ^ 54 → c.armed.length < 4096 → untainted g i →
      ∃ t g' c', exec i s = .next t ∧ t.grp? s.cur = some g' ∧ keepsRegs g g' ∧ g'.pc = seqNext g.pc 16 ∧ t.mem = s.mem ∧
        t.ctx? (s.ctxOfG g) = some c' ∧
        if a.thr.toNat ≤ (c.counter f.cn.toNat).toNat then
          c' = c ∧ ∃ o, t.ops = s.ops.filter (fun o => o.id != s.nextId) ++ [o] ∧ firedAs t o a
        else c' = { c with armed := c.armed ++ [(s.nextId, a)] } ∧ sameOps s t)) ∧
  (∀ (s : State) (ctx w roff : Nat) (d : FarData) (ct : Option (BitVec 6)) (src op : Nat), src ≠ s.rank → s.mgmt.booted = true →
    let i := Instr.tsendArrival ctx w roff d ct src op
    let e := sendNow s src ctx op w roff d.bytes.length
    let ready := ∃ p rest, e.due = p :: rest ∧ ∀ x ∈ sendsEarlier s e, ¬ sendMeets s x p.1 p.2.1.bytes.length
    (isPast s src true ctx op → exec i s = .next s) ∧
    (¬ isPast s src true ctx op → e.ctx = ctx → e.len = d.bytes.length →
      ∃ t e', exec i s = .next t ∧ sendLeft s t e' ct ∧
        (sendLooks e → ¬ ready → sendLooked s d e e' ∧ t.mem = s.mem) ∧
        (¬ sendLooks e → ready → sendDone s t e e') ∧
        (sendLooks e → ready → (sendLooked s d e e' ∧ t.mem = s.mem) ∨ sendDone s t e e') ∧
        (¬ sendLooks e → ¬ ready → e' = e ∧ t.mem = s.mem))) ∧
  (∀ (s : State) (o : Op) (a : Armed) (data : List Byte) (bad : Option Nat) (far : Option LaneAns) (fail : Option Word) (c : Ctx),
    s.op? o.id = some o → o.cmd = .tsend a data bad → s.sendsBefore o a.ctx a.rank (fun _ => true) = false →
    s.ctx? a.ctx = some c →
    ((∃ k, bad = some k ∧ fail = some (BitVec.ofNat 32 (256 + k))) ∨
      (bad = none ∧ a.rank = s.rank ∧
        ((∃ x, far = some x ∧ x.ok = false ∧ x.cause = 5) ∧ fail = some 5 ∨
          (¬ ∃ x, far = some x ∧ x.ok = false ∧ x.cause = 5) ∧ ((o.status = 1 ∧ fail = none) ∨
            ∃ k, 0 < k ∧ o.status = 2 + k ∧ fail = some (BitVec.ofNat 32 k)))) ∨
      (bad = none ∧ a.rank ≠ s.rank ∧ ∃ x, far = some x ∧ fail = if x.ok then none else some (x.cause.setWidth 32))) →
    let c1 := match fail with | some w => { c with fails := c.fails + 1, failCause := w } | none => c
    ∃ t c', exec (.tsendEnd o.id far) s = .next t ∧ t.mem = s.mem ∧
      if a.f.clOn then counted s t (s.ops.filter fun x => x.id != o.id) a.ctx a.f.cl.toNat (c.counter a.f.cl.toNat + 1) c1 c'
      else t.ctx? a.ctx = some c1 ∧ t.ops = s.ops.filter fun x => x.id != o.id)

/-- R258-R260, R263: `GSET` checks the entry, its instances and the bitmap, then writes the fields its form names; `GQRY` reads one field; `COLL` checks its operands in order, and then writes a handle,
raises SEQ and queues its instance; one of no elements completes at once, and one of one member begins to move its data, with no handshake
(R266). A poisoned bitmap reads as memory holds it (log entry 118). -/
def Obligations.CollectiveIssue : Prop :=
  (∀ (s : State) (g : Group) (i : Instr) (h : Hdr) (e : Opnd) (full : Option (SReg × Opnd × BitVec 16)) (sq : Option Opnd) (c : Ctx),
    gsets i = some (h, e, full, sq) → runs s g i = true → h.ch = false → s.ctx? (s.ctxOfG g) = some c →
    let k := (g.opnd e 0).toNat
    let x := s.gent c.num k
    let va := match full with | some (p, _, _) => (g.pairS p.toNat).toNat | none => 0
    let reads := fun b => s.xlate g.core c.num (va + b) .read g.sup
    let bit := fun (r : Nat) => match reads (r / 8) with | .pa a => (s.syncByte a).getLsbD (r % 8) | .bad _ => false
    (guarded g h = false → goes i s { g with pc := seqNext g.pc 16 }) ∧
    (guarded g h = true → g.dep = 0 → g.sb.valid = false →
      (256 ≤ k → traps i s g 2 0x25 1) ∧ (k < 256 → s.entryBusy c.num k = true → traps i s g 2 0x29 1) ∧
      (∀ b cause, k < 256 → s.entryBusy c.num k = false → full.isSome → b < 128 → reads b = .bad cause →
        (∀ j, j < b → ∀ y, reads j ≠ .bad y) → traps i s g 8 cause 1)) ∧
    (guarded g h = true → untainted g i → k < 256 → s.entryBusy c.num k = false → (∀ b, full.isSome → b < 128 → ∃ a, reads b = .pa a) →
      ∃ t g' y, exec i s = .next t ∧ t.grp? s.cur = some g' ∧ keepsRegs g g' ∧ g'.pc = seqNext g.pc 16 ∧ sameOps s t ∧ t.mem = s.mem ∧
        t.gent c.num k = y ∧ (∀ j, j ≠ k → t.gent c.num j = s.gent c.num j) ∧
        match full, sq with
        | some (_, q, m), _ => y = { x with members := y.members, own := s.rank, seq := g.opnd q 0, mcid := m } ∧
            ∀ r, r < 1024 → y.members.getLsbD r = bit r
        | none, some q => y = { x with seq := g.opnd q 0 }
        | none, none => y = { x with members := 0, seq := 0, mcid := 0 })) ∧
  (∀ (s : State) (g : Group) (h : Hdr) (d : Dst) (sel : GSel) (e k : Opnd),
    let i := Instr.gqry h d sel e k
    runs s g i = true → h.ch = false →
    let x := s.gent (s.ctxOfG g) (g.opnd e 0).toNat
    let j := (g.opnd k 0).toNat
    let v : Word := match sel with
      | .seq => x.seq
      | .own => BitVec.ofNat 32 x.own
      | .mcid => x.mcid.setWidth 32
      | .word => if 32 ≤ j then 0 else BitVec.ofNat 32 (x.members.toNat / 2 ^ (32 * j))
      | .count => BitVec.ofNat 32 (ranksIn x).length
      | .abort => x.abseq
      | .frank => BitVec.ofNat 32 (x.abrank % 1024 + x.abcause.toNat * 2 ^ 16)
      | .path => if 256 ≤ j then 0 else sget 0 x.paths j
    (guarded g h = true → 256 ≤ (g.opnd e 0).toNat → g.dep = 0 → g.sb.valid = false → traps i s g 2 0x25 1) ∧
    ((g.opnd e 0).toNat < 256 → ∃ t, exec i s = .next t ∧ ranAlu s t g i h d fun _ => (v, 0))) ∧
  (∀ (s : State) (g : Group) (h : Hdr) (d : SReg) (f : CollF) (src dst count : Opnd) (u : Team) (c : Ctx),
    let i := Instr.coll h d f src dst count
    runs s g i = true → h.ch = false → s.team? g.tid = some u → s.ctx? (s.ctxOfG g) = some c → s.rank < 1024 →
    let k := f.entry.toNat
    let x := s.gent c.num k
    let a := (g.opnd src 0).toNat
    let b := (g.opnd dst 0).toNat
    let n := (g.opnd count 0).toNat
    let ms := ranksIn x
    let out := (s.colls.filter fun y => y.ctx == c.num).length
    (guarded g h = false → goes i s { g with pc := seqNext g.pc 16 }) ∧
    (guarded g h = true → 64 ≤ out → exec i s = .next s) ∧
    (guarded g h = true → out < 64 → g.dep = 0 → g.sb.valid = false →
      (∀ sub, collTrap s x f a b n = some sub → traps i s g 2 sub 1) ∧
      (collTrap s x f a b n = none → (∀ e, e < 65536 → (s.hent e).st ≠ .free) → traps i s g 2 0x28 1)) ∧
    (∀ e gen hd, guarded g h = true → out < 64 → untainted g i → collTrap s x f a b n = none → mints s 2 e gen hd →
      (∀ y ∈ s.tokens, y.ctx = c.num → y.entry = k → y.seq ≠ x.seq + 1) →
      let inst : CollInst := ⟨c.num, k, x.seq + 1, g.gid, s.nextId, f, a, b, n, hd, .queued, none, none⟩
      let same := ∃ y ∈ s.colls, y.ctx = c.num ∧ y.entry = k
      ∃ t g', exec i s = .next t ∧ t.grp? s.cur = some g' ∧ g'.v = g.v ∧ g'.p = g.p ∧ g'.pc = seqNext g.pc 16 ∧
        (∀ r, g'.rdS r = withPair g (some d) hd r) ∧ (t.gent c.num k).seq = x.seq + 1 ∧ (t.hent e).gen = gen ∧
        (∀ y, s.headInst c.num k = some y → y.ph ≠ .queued → t.colls = s.colls ++ [inst] ∧ (t.hent e).st = .pending ∧ t.mem = s.mem) ∧
        (¬ same → 1 < ms.length → (n ≠ 0 ∨ f.op = .barrier) → (t.hent e).st = .pending ∧ t.mem = s.mem ∧
          (∃ ph, { inst with ph := ph } ∈ t.colls) ∧
          (ms.headD s.rank ≠ s.rank → t.colls = s.colls ++ [{ inst with ph := .signed }] ∧
            t.out = .signature (ms.headD s.rank) c.num k ⟨f.op, f.ty, f.red, f.sb7, BitVec.ofNat 32 n, f.root, x.seq + 1⟩ :: s.out)) ∧
        (¬ same → ms = [s.rank] → 0 < n →
          t.colls = s.colls ++ [{ inst with ph := .data }] ∧ (t.hent e).st = .pending ∧ t.mem = s.mem) ∧
        (¬ same → n = 0 → f.op ≠ .barrier ∨ ms = [s.rank] → t.colls = s.colls ∧ t.mem = s.mem ∧ (t.hent e).st = .resolved ∧
          (t.hent e).words = collRecord 0 inst (List.replicate (2 ^ f.slog.toNat) 0) 0 0 ∧
          (1 < ms.length → ms.headD s.rank ≠ s.rank →
            .signature (ms.headD s.rank) c.num k ⟨f.op, f.ty, f.red, f.sb7, 0, f.root, x.seq + 1⟩ ∈ t.out))))

/-- R265-R272: the anchor judges once every signature is there, and equal ones begin the data phase; others end the instance MISMATCH; a
member's own accesses are looked up once, and performed when its instance completes (R235); a completed instance has written its
destination as the fixed tree gives it, under either wire format (R268), resolved its handle and recorded the bytes of its packets by entropy value; a fatal fault or an abort token ends every instance above the agreed sequence ABORTED. When the
engine reads and writes is log entry 109, and that FZ counts as 0 on the wire log entry 117, the model's choices. -/
def Obligations.CollectiveProgress : Prop :=
  (∀ (s : State) (ctx entry member : Nat) (sig : Signature) (c : Ctx), s.mgmt.booted = true → s.ctx? ctx = some c →
    let ms := ranksIn (s.gent ctx entry)
    ms.head? = some s.rank → member ≠ s.rank → member ∈ ms →
    let l := s.sigsOf ctx entry ++ [(member, sig)]
    let first := fun (m : Nat) => (l.find? fun x => x.1 == m).map (·.2)
    let equal := ms.all fun m => first m == first s.rank
    ∃ t, exec (.handshakeSignature ctx entry member sig) s = .next t ∧ t.mem = s.mem ∧ t.groups = s.groups ∧
      ((∃ m ∈ ms, first m = none) → t.sigsOf ctx entry = l ∧ t.out = s.out ∧ t.colls = s.colls) ∧
      ((∀ m ∈ ms, first m ≠ none) →
        (∀ m ∈ ms, m ≠ s.rank → ∀ y, first m = some y → .verdict m ctx entry y.seq equal ∈ t.out) ∧
        ∀ y, first s.rank = some y → t.colls = s.colls.map fun i =>
          if i.ctx = ctx ∧ i.entry = entry ∧ i.seq = y.seq ∧ i.ph = .signed then { i with ph := .verdict equal } else i)) ∧
  (∀ (s : State) (i : CollInst) (equal : Bool), onlyInst s i → pendingHere s i.handle →
    (i.ph = .verdict equal ∨ (i.ph = .signed ∧ (ranksIn (s.gent i.ctx i.entry)).headD s.rank ≠ s.rank)) →
    ∃ t, exec (.verdict i.ctx i.entry i.seq equal) s = .next t ∧ t.mem = s.mem ∧
      (equal = true → i.f.op ≠ .barrier → { i with ph := .data } ∈ t.colls ∧ t.handles = s.handles) ∧
      (equal = true → i.f.op = .barrier → ended s t i 0) ∧ (equal = false → ended s t i 1)) ∧
  (∀ (s : State) (i : CollInst) (far : List (Nat × List Byte)) (packets : List Nat), onlyInst s i → i.ph = .data →
    let ms := ranksIn (s.gent i.ctx i.entry)
    let ne := sizesOf i.f.op ms.length i.count
    let a := if i.f.op = .bcast ∧ i.f.root.toNat ≠ s.rank then 0 else ne.1 * elemSize i.f.ty
    let b := ne.2 * elemSize i.f.ty
    let here := fun off n need => exported s i.f.win.toNat off n need
    let now := fun (i' : CollInst) => exec (.collComplete i.ctx i.entry i.seq far packets) s = .next { s with
      colls := s.colls.map fun j => if j.ctx = i.ctx ∧ j.entry = i.entry ∧ j.seq = i.seq then i' else j }
    (0 < a → i.from_ = none → (∀ pa, here i.src a .rd = .pa pa → now { i with from_ := some pa }) ∧ ∀ k, here i.src a .rd = .bad k → now i) ∧
    (a = 0 ∨ i.from_ ≠ none → 0 < b → i.to_ = none →
      (∀ pa, here i.dst b .wr = .pa pa → now { i with to_ := some pa }) ∧ ∀ k, here i.dst b .wr = .bad k → now i)) ∧
  (∀ (s : State) (i : CollInst) (far : List (Nat × List Byte)) (packets : List Nat) (pd : Nat) (srcs : List (List Nat)), onlyInst s i →
    pendingHere s i.handle → i.ph = .data → i.f.op ≠ .barrier →
    let ms := ranksIn (s.gent i.ctx i.entry)
    let sz := elemSize i.f.ty
    let ne := sizesOf i.f.op ms.length i.count
    let num := fun (bs : List Byte) (k : Nat) => ((List.range sz).map fun b => (bs.getD (sz * k + b) 0).toNat * 2 ^ (8 * b)).sum
    s.rank ∈ ms → (i.f.op = .bcast → i.f.root.toNat ∈ ms) →
    (0 < i.count → i.to_ = some pd ∧ isMem s pd) →
    (i.f.op ≠ .bcast ∨ i.f.root.toNat = s.rank →
      ∃ ps, (0 < i.count → i.from_ = some ps ∧ isMem s ps ∧ s.poisoned ps (ne.1 * sz) = false) ∧
        srcs.getD (ms.idxOf s.rank) [] = (List.range ne.1).map fun k => numAt s (ps + sz * k) sz) →
    srcs.length = ms.length →
    (∀ m ∈ ms, m ≠ s.rank → (i.f.op ≠ .bcast ∨ i.f.root.toNat = m) → ∃ bs, far.find? (fun x => x.1 == m) = some (m, bs) ∧
      srcs.getD (ms.idxOf m) [] = (List.range ne.1).map (num bs)) →
    let r := destination i.f ms.length i.count (ms.idxOf s.rank) (ms.idxOf i.f.root.toNat) srcs
    let entropy := fun (k : Nat) => (i.f.sbase.toNat + k % 2 ^ i.f.slog.toNat) % 256
    let sent := if ms.length = 1 then [] else packets
    let ps := (List.range (2 ^ i.f.slog.toNat)).map fun j => BitVec.ofNat 32 (((List.range sent.length).filter
      fun k => entropy k == entropy j).map fun k => min (sent.getD k 0) 4096).sum
    ∃ t, exec (.collComplete i.ctx i.entry i.seq far packets) s = .next t ∧
      storedAt s t pd (ne.2 * sz) (fun k => byteOf (r.1.getD (k / sz) 0) (k % sz)) ∧ ended s t i 0 ∧
      (t.hent (hIndex i.handle)).words = collRecord 0 i ps 0 0 ∧
      (∀ c, s.ctx? i.ctx = some c → ∀ j, sget 0 (t.gent i.ctx i.entry).paths j = ps.getD j 0) ∧
      ∀ y, s.grp? i.gid = some y → ∃ y', t.grp? i.gid = some y' ∧ y'.flg = y.flg ||| r.2.setWidth 32) ∧
  (∀ (s : State) (i : CollInst) (pre post : List CollInst) (cause : Nat), s.colls = pre ++ i :: post →
    (∀ j ∈ pre, ¬ (j.ctx = i.ctx ∧ j.entry = i.entry)) → i.ph = .data → s.ownFault i = some cause → (s.ctx? i.ctx).isSome →
    (∀ y ∈ s.tokens, ¬ (y.ctx = i.ctx ∧ y.entry = i.entry ∧ y.seq = i.seq)) → seqAbove i.seq (s.gent i.ctx i.entry).seq = false →
    ∃ t, exec (.fatalFault i.ctx i.entry i.seq s.rank (BitVec.ofNat 8 cause)) s = .next t ∧
      aborted s t i.ctx i.entry i.seq s.rank (BitVec.ofNat 8 cause) ∧
      ∀ m ∈ ranksIn (s.gent i.ctx i.entry), m ≠ s.rank → .abort m i.ctx i.entry i.seq s.rank (BitVec.ofNat 8 cause) ∈ t.out) ∧
  (∀ (s : State) (i : CollInst) (pre post : List CollInst) (rank : Nat) (cause : BitVec 8), s.colls = pre ++ i :: post →
    (∀ j ∈ pre, ¬ (j.ctx = i.ctx ∧ j.entry = i.entry)) → (s.ctx? i.ctx).isSome →
    (∀ y ∈ s.tokens, ¬ (y.ctx = i.ctx ∧ y.entry = i.entry ∧ y.seq = i.seq)) → seqAbove i.seq (s.gent i.ctx i.entry).seq = false →
    let ms := ranksIn (s.gent i.ctx i.entry)
    rank ∈ ms → (rank ≠ s.rank ∧ 1 ≤ cause.toNat ∧ cause.toNat ≤ 8 ∧ (i.ph = .data ∨ (i.ph = .signed ∧ ms.head? = some rank))) ∨
      (rank = s.rank ∧ cause = 5 ∧ i.ph = .data ∧ s.ownFault i = none) →
    ∃ t, exec (.fatalFault i.ctx i.entry i.seq rank cause) s = .next t ∧ aborted s t i.ctx i.entry i.seq rank cause ∧
      ∀ m ∈ ms, m ≠ s.rank → .abort m i.ctx i.entry i.seq rank cause ∈ t.out) ∧
  (∀ (s : State) (ctx entry : Nat) (seq : Word) (rank : Nat) (cause : BitVec 8), s.mgmt.booted = true → (s.ctx? ctx).isSome →
    let i := Instr.abortToken ctx entry seq rank cause
    let known := ∃ y ∈ s.tokens, y.ctx = ctx ∧ y.entry = entry ∧ y.seq = seq
    (known → exec i s = .next s) ∧
    (¬ known → seqAbove seq (s.gent ctx entry).seq = true →
      exec i s = .next { s with tokens := ⟨ctx, entry, seq, rank, cause, false⟩ :: s.tokens }) ∧
    (¬ known → seqAbove seq (s.gent ctx entry).seq = false →
      ∃ t, exec i s = .next t ∧ aborted s t ctx entry seq rank cause))

namespace Sys2Proof.Claims

/-! ## Praline -/

/-- What a Praline instruction asks its engine, where its results go, and the first check it fails as class, subcode and lanes (R378-R386). -/
def pralines (g : Group) : Instr → Option (Hdr × PrCmd × Dst × CmpDst × Option (Nat × Nat × Mask))
  | .prnew h d pool cap m =>
    let va := (g.pairS pool.toNat).toNat
    let n := (g.opnd cap 0).toNat
    let r := fun k => g.rdS (m.toNat + k)
    some (h, .new va n (r 0) (r 1) (r 2) (r 3).toNat (r 4).toNat g.sup, d, ⟨0, 0⟩,
      if g.sregs ≤ m.toNat + 4 then some (2, 0x01, 1) else if va % 64 ≠ 0 then some (2, 0x11, 1)
      else if 2 ^ 54 ≤ va then some (8, 0x05, 1)
      else if n < 1 ∨ 2 ^ 26 < n ∨ 1 < (r 3).toNat ∨ (r 4).toNat < 1 ∨ 256 < (r 4).toNat then some (2, 0x40, 1) else none)
  | .prdesc h d t k =>
    let n := (g.opnd k 0).toNat
    let out := maskOf 64 fun l => decide (l < n) && !(g.execMask h).getLsbD l
    let acts := guarded g h = true ∧ n ≠ 0
    some (h, .desc (g.rdS t.toNat) (if acts then n else 0) (decide ¬ acts), if acts then .v d else .none, ⟨0, 0⟩,
      if guarded g h = true ∧ min g.width 64 < n then some (2, 0x40, g.execMask h)
      else if g.vregs ≤ d.toNat + 1 then some (2, 0x01, g.mask)
      else if guarded g h = true ∧ out ≠ 0 then some (2, 0x13, out) else none)
  | .prexp h p t leaf count vp =>
    let n := (g.opnd count 0).toNat
    some (h, .exp (g.rdS t.toNat) (g.opnd leaf 0) ((List.range n).map fun j => g.rdV (vp.toNat + j / g.width) (j % g.width)),
      .none, p, if 256 < n then some (2, 0x40, 1)
      else if 0 < n ∧ g.vregs ≤ vp.toNat + (n + g.width - 1) / g.width - 1 then some (2, 0x01, 1) else none)
  | .prback h t vl vv =>
    some (h, .back (g.rdS t.toNat) ((lanesOf (g.execMask h)).map fun l =>
        (l, g.rdV vl.toNat l, (g.rdV (vl.toNat + 1) l).getLsbD 2, g.rdV vv.toNat l)), .none, ⟨0, 0⟩,
      if g.vregs ≤ vl.toNat + 1 then some (2, 0x01, g.mask) else none)
  | .prroot h p t c => some (h, .root (g.rdS t.toNat) (g.opnd c 0), .none, p, none)
  | .prbest h d t => some (h, .best (g.rdS t.toNat), d, ⟨0, 0⟩, none)
  | .prfree h t => some (h, .free (g.rdS t.toNat), .none, ⟨0, 0⟩, none)
  | _ => none

/-- The forms of `PRQRY` as the engine sees them (R386). -/
def prqrys (g : Group) (i : Instr) (h : Hdr) : PQForm → PrCmd
  | .node sel t n => .qryNode (g.rdS t.toNat) sel ((evalsIn g i h).map fun l => (l, g.opnd n l))
  | .root t => .qryHdr (g.rdS t.toNat) 0 (evalsIn g i h)
  | .count t => .qryHdr (g.rdS t.toNat) 1 (evalsIn g i h)
  | .free t => .qryHdr (g.rdS t.toNat) 2 (evalsIn g i h)
  | .cap t => .qryHdr (g.rdS t.toNat) 3 (evalsIn g i h)
  | .stat => .stat (evalsIn g i h)

/-- The prior registers of `PREXP` have no write outstanding and no tags. -/
def priorsReady (s : State) (g : Group) : Instr → Prop
  | .prexp _ _ _ _ count vp =>
    let rs := priorRegs vp (g.opnd count 0).toNat g.width
    g.tagsOf rs = 0 ∧ rs.any (s.busy g.gid).contains = false ∧ (s.mIssues g).any (fun m => rs.any m.cRegs.contains) = false
  | _ => True

/-- `PRDESC` and `PRBACK` count and complete even with no lane (R381, R383). -/
def actsNull : Instr → Prop
  | .prdesc _ _ _ _ | .prback _ _ _ _ => True
  | _ => False

/-- A Praline operation that its engine can perform now. -/
def prReady (s : State) (o : Op) (c : PrCmd) : Prop :=
  s.op? o.id = some o ∧ o.cmd = .praline c ∧ o.st = .active ∧ o.status = 0 ∧ s.prBlocked o c = false

/-- What it leaves for completion: a status, its outcome bit, and words by lane (low and high register). -/
def prLeaves (t : State) (o : Op) (code : Nat) (ok : Bool) (res : List (Nat × Word × Word)) : Prop :=
  ∃ o', t.op? o.id = some o' ∧ o'.status = 1 + code ∧ (o'.lanes.any fun l => l.lane == 64 && l.ok) = ok ∧
    (o'.lanes.filter fun l => decide (l.lane < 64)).map (fun l => (l.lane, loW l.res, hiW l.res)) = res ∧ ∀ l ∈ o'.lanes, l.poison = false

/-- A tree whose pool lies in frames one after the other, at a physical address, without uncorrectable errors. -/
def poolAt (s : State) (e : PTree) (base : Nat) : Prop :=
  (∀ off, off < 64 * (e.cap + 1) → e.pa off = base + off) ∧ numAt s base 4 = e.cap ∧ 1 ≤ e.cap ∧
    ∀ x, x < e.cap → s.poisoned (base + 64 + 64 * x) 64 = false

/-- A field of a node or of the header, little-endian at its offset (R370, R371). -/
def nodeAt (s : State) (base x off n : Nat) : Nat := numAt s (base + 64 + 64 * x + off) n
def hdrAt (s : State) (base off n : Nat) : Nat := numAt s (base + off) n
def isFree (s : State) (base x : Nat) : Prop := (nodeAt s base x 6 2).testBit 15 = true
def live (s : State) (e : PTree) (base x : Nat) : Prop := x < e.cap ∧ ¬ isFree s base x

/-- Nodes other than those of a list keep every byte. -/
def keepsNodes (s t : State) (e : PTree) (base : Nat) (but : List Nat) : Prop :=
  ∀ x b, x < e.cap → x ∉ but → b < 64 → t.rd (base + 64 + 64 * x + b) = s.rd (base + 64 + 64 * x + b)

/-- Byte `k` of a new pool (R370, R371, R379). -/
def newPoolByte (cap : Nat) (id c vl q : Word) (mode maxch k : Nat) : Byte :=
  if k < 64 then
    let w := fun (j : Nat) (v : Nat) => byteOf v (k - j)
    if k < 4 then w 0 cap else if k < 8 then w 4 (if cap = 1 then 0xFFFFFFFF else 1) else if k < 12 then 0 else if k < 16 then w 12 1
    else if k < 20 then w 16 c.toNat else if k < 24 then w 20 vl.toNat else if k < 28 then w 24 q.toNat else if k = 28 then w 28 mode
    else if k = 29 then 0 else if k < 32 then w 30 maxch else if k < 36 then 0 else if k < 40 then w 36 id.toNat else 0
  else
    let x := k / 64 - 1
    let o := k % 64
    if x = 0 then (if 16 ≤ o ∧ o < 24 then 0xFF else 0)
    else if o = 7 then 0x80
    else if 16 ≤ o ∧ o < 20 then byteOf (if x + 1 < cap then x + 1 else 0xFFFFFFFF) (o - 16) else 0

/-- A path of nodes by PARENT links up to the root, all valid (R383, R385). -/
def upPath (s : State) (e : PTree) (base : Nat) : List Nat → Prop
  | [] => False
  | [x] => live s e base x ∧ nodeAt s base x 16 4 = 0xFFFFFFFF
  | x :: y :: p => live s e base x ∧ nodeAt s base x 16 4 = y ∧ y ≠ 0xFFFFFFFF ∧ upPath s e base (y :: p)

/-- The score of a child `z` of `x` (R376): FP32 after every step, counts and losses exact, sums by `fsum` (R118). -/
def puct (s : State) (base x z : Nat) : FVal :=
  let r := fun y => fval (ffmt .f32) false (fenc (ffmt .f32) y)
  let v := fun n => fval (ffmt .f32) false n
  let mul := fun a b => r (fprod .x 24 a b).1
  let sum := fun a b => r (fsum false a b).1
  let nat := fun (k : Nat) => ofInt false k 0
  let seen := nodeAt s base z 0 4 + nodeAt s base z 4 2
  let n := r (nat seen)
  let root := v (ffun (ffmt .f32) false .sqrt (nat (max 1 (nodeAt s base x 0 4 + nodeAt s base x 4 2)))).1
  let q := if seen = 0 then v (hdrAt s base 0x18 4)
    else div32 (sum (v (nodeAt s base z 8 4)) (mul (v (hdrAt s base 0x14 4)) (nat (nodeAt s base z 4 2))).neg) n
  sum q (div32 (mul (mul (v (hdrAt s base 0x10 4)) (v (nodeAt s base z 12 4))) root) (sum (nat 1) n))

/-- The winning child of a node (R376): no child scores above it, and none before it as high. A NaN ranks lowest. -/
def wins (s : State) (e : PTree) (base x y : Nat) : Prop :=
  let first := nodeAt s base x 20 4
  let n := nodeAt s base x 24 2
  let sc := puct s base x
  (∀ j, j < n → live s e base (first + j)) ∧ ∃ k, k < n ∧ y = first + k ∧
    (∀ j, j < n → above (sc y) (sc (first + j)) = false) ∧ ∀ j, j < k → above (sc (first + j)) (sc y) = true

/-- A descent (R381): from a node by winning children to one that is childless or terminal. -/
def downPath (s : State) (e : PTree) (base : Nat) : List Nat → Prop
  | [] => False
  | [x] => live s e base x ∧ (nodeAt s base x 24 2 = 0 ∨ (nodeAt s base x 6 2).testBit 0 = true)
  | x :: y :: p => live s e base x ∧ nodeAt s base x 24 2 ≠ 0 ∧ (nodeAt s base x 6 2).testBit 0 = false ∧ wins s e base x y ∧
      downPath s e base (y :: p)

/-- Memory reads the same. -/
def sameMem (s t : State) : Prop := ∀ a, t.rd a = s.rd a

/-- Nothing but the nodes of a list has changed in memory. -/
def onlyNodes (s t : State) (base : Nat) (p : List Nat) : Prop :=
  ∀ a, (∀ y ∈ p, a < base + 64 + 64 * y ∨ base + 128 + 64 * y ≤ a) → t.rd a = s.rd a

/-- One descent (R381): its path takes a loss, and its leaf is marked pending, or duplicate where it is pending already. -/
def descended (s t : State) (e : PTree) (base batch : Nat) (p : List Nat) : Prop :=
  let x := p.getLast?.getD 0
  let dup := (nodeAt s base x 6 2).testBit 1
  downPath s e base p ∧ p.head? = some (hdrAt s base 8 4) ∧ p.length ≤ 65536 ∧ onlyNodes s t base p ∧
    (∀ y ∈ p, nodeAt t base y 4 2 = min (nodeAt s base y 4 2 + p.count y) 65535 ∧
      (y ≠ x → nodeAt t base y 6 2 = nodeAt s base y 6 2) ∧
      ∀ b, b < 4 ∨ (8 ≤ b ∧ b < 64) → ¬ (y = x ∧ 32 ≤ b ∧ b < 36) → t.rd (base + 64 + 64 * y + b) = s.rd (base + 64 + 64 * y + b)) ∧
    (∀ k, (nodeAt t base x 6 2).testBit k =
      if k = 1 then true else if k = 2 then dup || (nodeAt s base x 6 2).testBit 2 else (nodeAt s base x 6 2).testBit k) ∧
    nodeAt t base x 32 4 = if dup then nodeAt s base x 32 4 else batch

/-- What lane `j` receives of a descent that took path `p`: its leaf and the leaf's flags. -/
def descentWords (s : State) (base j : Nat) (p : List Nat) : Nat × Word × Word :=
  let f := nodeAt s base (p.getLast?.getD 0) 6 2
  (j, BitVec.ofNat 32 (p.getLast?.getD 0), BitVec.ofNat 32 ((if f.testBit 0 then 1 else 0) + 2 + if f.testBit 1 then 4 else 0))

/-- A node that a descent passes through. -/
def inner (s : State) (e : PTree) (base x : Nat) : Prop :=
  live s e base x ∧ nodeAt s base x 24 2 ≠ 0 ∧ (nodeAt s base x 6 2).testBit 0 = false

/-- A descent that meets a link to no valid node: its root, or a child of its last node (R372). -/
def malformedDown (s : State) (e : PTree) (base : Nat) : List Nat → Prop
  | [] => False
  | [x] => ¬ live s e base x ∨ (inner s e base x ∧ ∃ j, j < nodeAt s base x 24 2 ∧ ¬ live s e base (nodeAt s base x 20 4 + j))
  | x :: y :: p => inner s e base x ∧ wins s e base x y ∧ malformedDown s e base (y :: p)

/-- A descent that goes on beyond every node of a path but the last. -/
def goesDown (s : State) (e : PTree) (base : Nat) : List Nat → Prop
  | [] => False
  | [_] => True
  | x :: y :: p => inner s e base x ∧ wins s e base x y ∧ goesDown s e base (y :: p)

/-- A descent stops with status 11 (R372). -/
def stuck (s : State) (e : PTree) (base : Nat) : Prop :=
  ∃ p, p.head? = some (hdrAt s base 8 4) ∧
    ((p.length ≤ 65536 ∧ malformedDown s e base p) ∨ (p.length = 65537 ∧ goesDown s e base p))

/-- The descents of a batch, one after another, each in the tree that the one before it left: the status and the words of the
lanes; one that stops leaves the tree so, and no words (R381). -/
def descendsTo (t : State) (e : PTree) (base batch : Nat) :
    Nat → Nat → State → List (Nat × Word × Word) → Nat → List (Nat × Word × Word) → Prop
  | 0, _, m, out, code, res => sameMem m t ∧ code = 0 ∧ res = out
  | n + 1, j, m, out, code, res =>
    (∃ m' p, descended m m' e base batch p ∧ descendsTo t e base batch n (j + 1) m' (out ++ [descentWords m base j p]) code res) ∨
      (stuck m e base ∧ sameMem m t ∧ code = 11 ∧ res = [])

/-- One lane of a backup (R383) along its path to the root. -/
def backed (s t : State) (e : PTree) (base leaf : Nat) (dup : Bool) (v : Word) (p : List Nat) : Prop :=
  let u := fun (j : Nat) =>
    let x := fval (ffmt .f32) false v.toNat
    if hdrAt s base 0x1C 1 = 1 ∧ j % 2 = 1 then x.neg else x
  upPath s e base p ∧ p.Nodup ∧ p.length ≤ 65536 ∧ p.head? = some leaf ∧ onlyNodes s t base p ∧
    (∀ j y, p[j]? = some y → nodeAt t base y 4 2 = nodeAt s base y 4 2 - 1 ∧
      nodeAt t base y 0 4 = (if dup then nodeAt s base y 0 4 else min (nodeAt s base y 0 4 + 1) (2 ^ 32 - 1)) ∧
      nodeAt t base y 8 4 = (if dup then nodeAt s base y 8 4
        else fenc (ffmt .f32) (fsum false (fval (ffmt .f32) false (nodeAt s base y 8 4)) (u j)).1) ∧
      (∀ b, 12 ≤ b → b < 64 → ¬ (dup = false ∧ y = leaf ∧ 32 ≤ b ∧ b < 36) →
        t.rd (base + 64 + 64 * y + b) = s.rd (base + 64 + 64 * y + b)) ∧
      (dup = true ∨ y ≠ leaf → nodeAt t base y 6 2 = nodeAt s base y 6 2)) ∧
    (dup = false → nodeAt t base leaf 32 4 = 0 ∧ ∀ k, (nodeAt t base leaf 6 2).testBit k =
      if k = 1 ∨ k = 2 then false else (nodeAt s base leaf 6 2).testBit k)

/-- Valid nodes, each the parent of the one before it. -/
def linkedUp (s : State) (e : PTree) (base : Nat) : List Nat → Prop
  | [] => False
  | [x] => live s e base x
  | x :: y :: p => live s e base x ∧ nodeAt s base x 16 4 = y ∧ y ≠ 0xFFFFFFFF ∧ linkedUp s e base (y :: p)

/-- A walk up from a node stops with status 11 after the nodes of `p`: at a link to no valid node, or after 65536 (R372). -/
def malformedUp (s : State) (e : PTree) (base from_ : Nat) (p : List Nat) : Prop :=
  let q := nodeAt s base (p.getLast?.getD 0) 16 4
  linkedUp s e base p ∧ p.head? = some from_ ∧ q ≠ 0xFFFFFFFF ∧ ((p.length ≤ 65536 ∧ ¬ live s e base q) ∨ p.length = 65536)

/-- The lanes of a backup in ascending order, from memory `s` and status `st` to `t`: the first failure's status; a leaf that is no valid
node is passed over with status 4, and a malformed walk ends the operation with status 11 (R372, R375, R383). -/
def backsUp (t : State) (e : PTree) (base : Nat) : State → Nat → List (Nat × Word × Bool × Word) → Nat → Bool → Prop
  | m, st, [], code, ok => sameMem m t ∧ code = st ∧ ok = true
  | m, st, (_, leaf, dup, v) :: ls, code, ok =>
    (¬ live m e base leaf.toNat ∧ backsUp t e base m (if st = 0 then 4 else st) ls code ok) ∨
      (∃ m' p, backed m m' e base leaf.toNat dup v p ∧ backsUp t e base m' st ls code ok) ∨
      (∃ p, malformedUp m e base leaf.toNat p ∧ onlyNodes m t base p ∧ code = (if st = 0 then 11 else st) ∧ ok = false)

/-- The lowest free node at or above `k`, or 0xFFFF_FFFF. -/
def nextFreeIs (s : State) (e : PTree) (base k v : Nat) : Prop :=
  (v = 0xFFFFFFFF ∧ ∀ y, k ≤ y → y < e.cap → ¬ isFree s base y) ∨
    (k ≤ v ∧ v < e.cap ∧ isFree s base v ∧ ∀ y, k ≤ y → y < v → ¬ isFree s base y)

/-- FREE and the links of the free nodes name them in ascending order (R370, R371). -/
def freeListed (s : State) (e : PTree) (base : Nat) : Prop :=
  nextFreeIs s e base 0 (hdrAt s base 4 4) ∧
    ∀ x, x < e.cap → isFree s base x → nextFreeIs s e base (x + 1) (nodeAt s base x 16 4)

/-- Nodes of a tree that are not free. -/
def liveCount (s : State) (e : PTree) (base : Nat) : Nat :=
  ((List.range e.cap).filter fun y => !(nodeAt s base y 6 2).testBit 15).length

end Sys2Proof.Claims

/-- R377-R386 at issue: the checks in their order before any effect; then the instruction counts on path S and its operands are on their way to the
engine; `PRDESC` and `PRBACK` with no lane are null and still count. At completion, in issue order, results, predicates and PST are written and path S falls (R374). -/
def Obligations.PralineIssueAndCompletion : Prop :=
  (∀ (s : State) (g : Group) (i : Instr) (h : Hdr) (c : PrCmd) (d : Dst) (p : CmpDst) (bad : Option (Nat × Nat × Mask)),
    pralines g i = some (h, c, d, p, bad) → runs s g i = true → h.ch = false → 0 < g.width → g.width ≤ 64 →
    (guarded g h = false → ¬ actsNull i → ∃ t, exec i s = .next t ∧ idles s t g i) ∧
    (∀ cls sub ls, guarded g h = true ∨ actsNull i → bad = some (cls, sub, ls) → g.dep = 0 → g.sb.valid = false → traps i s g cls sub ls) ∧
    (guarded g h = true ∨ actsNull i → bad = none → priorsReady s g i → untainted g i →
      ∃ t o, exec i s = .next t ∧ handed s t g i (some .S) o ∧ o.cmd = .praline c ∧ o.dst = d ∧ o.p = p ∧ o.status = 0)) ∧
  (∀ (s : State) (g : Group) (h : Hdr) (d : Dst) (f : PQForm),
    let i := Instr.prqry h d f
    runs s g i = true → h.ch = false →
    (guarded g h = false → ∃ t, exec i s = .next t ∧ idles s t g i) ∧
    (guarded g h = true → ∃ t o, exec i s = .next t ∧ handed s t g i (some .S) o ∧ o.cmd = .praline (prqrys g i h f) ∧
      o.dst = d ∧ o.status = 0)) ∧
  (∀ (s : State) (o : Op) (c : PrCmd) (g : Group), s.op? o.id = some o → o.cmd = .praline c → o.st = .active → o.status ≠ 0 →
    o.suppressed = false → s.grp? o.gid = some g → (∀ l ∈ o.lanes, l.poison = false) →
    (∀ y ∈ s.ops, y.gid = o.gid → y.id < o.id → ∀ x, y.cmd ≠ .praline x) →
    let res := o.lanes.filter fun l => decide (l.lane < 64)
    let ok := o.lanes.any fun l => l.lane == 64 && l.ok
    let two := match c with | .desc _ _ _ => true | _ => false
    ∃ t g', exec (.pralineComplete o.id) s = .next t ∧ opOver s t o ∧ t.mem = s.mem ∧ (∀ e ∈ t.late, e.op ≠ o.id) ∧ t.grp? o.gid = some g' ∧
      g'.pst = (match c with | .stat _ => g.pst | _ => BitVec.ofNat 32 (o.status - 1 + c.opLow * 2 ^ 8)) ∧
      pairIn g g' (match c with | .exp _ _ _ | .root _ _ => o.act | _ => 0) o.p (fun _ => ok) ∧
      (∀ r, o.dst = .s r → ∀ n, g'.rdS n = if n = r.toNat then (match res.head? with | some l => loW l.res | none => g.rdS n) else g.rdS n) ∧
      ∀ r, o.dst = .v r → r.toNat < 255 → ∀ n j, j < 64 → g'.rdV n j = match res.find? fun l => l.lane == j with
        | some l => if n = r.toNat then loW l.res else if two = true ∧ n = r.toNat + 1 then hiW l.res else g.rdV n j
        | none => g.rdV n j)

/-- R369, R379, R380, R386 at the engine: a stale ID changes nothing and answers status 1; `PRNEW` makes an entry of the next generation and fills the pool, or answers 9 or 10;
`PRFREE` makes the ID stale; queries read the header or a node, and answer status 4 beyond the pool. The words that an operation changes can be
read as they were until it completes or the next operation on its tree (R373, log entry 97). A null `PRDESC` or `PRBACK` answers status 0 with a stale ID too (R381, R383
against R369): log entry 65, the model's choice. -/
def Obligations.PralineTreesAndQueries : Prop :=
  (∀ (s : State) (o : Op) (c : PrCmd) (id : Word), prReady s o c → c.tree = some id → c.null = false → s.tree? id o.ctx = none →
    ∃ t, exec (.pralineOperation o.id) s = .next t ∧ t.mem = s.mem ∧ t.trees = s.trees ∧ t.groups = s.groups ∧
      match c with
      | .best _ => prLeaves t o 1 false [(0, 0xFFFFFFFF, 0)]
      | .qryNode _ _ ns => (∀ x ∈ ns, x.1 < 64) → prLeaves t o 1 false (ns.map fun x => (x.1, 0xFFFFFFFF, 0))
      | .qryHdr _ _ ls => (∀ l ∈ ls, l < 64) → prLeaves t o 1 false (ls.map fun l => (l, 0xFFFFFFFF, 0))
      | _ => prLeaves t o 1 false []) ∧
  (∀ (s : State) (o : Op) (c : PrCmd) (id : Word), prReady s o c → c.tree = some id →
    ∃ t, exec (.pralineOperation o.id) s = .next t ∧ ∀ e ∈ t.late, (e ∈ s.late ∧ e.tree ≠ id) ∨
      (e.op = o.id ∧ e.tree = id ∧ e.old = s.rdBytes (4 * e.word) 4 ∧ e.new = t.rdBytes (4 * e.word) 4)) ∧
  (∀ (s : State) (o : Op) (c : PrCmd), prReady s o c → c.null = true →
    ∃ t, exec (.pralineOperation o.id) s = .next t ∧ t.mem = s.mem ∧ t.trees = s.trees ∧ prLeaves t o 0 true []) ∧
  (∀ (s : State) (o : Op) (id : Word) (e : PTree), prReady s o (.free id) → s.tree? id o.ctx = some e →
    ∃ t, exec (.pralineOperation o.id) s = .next t ∧ t.mem = s.mem ∧ prLeaves t o 0 true [] ∧ (∀ ctx, t.tree? id ctx = none) ∧
      (∀ k, k ≠ treeKey id → t.treeAt k = s.treeAt k) ∧ (t.treeAt (treeKey id)).gen = e.gen) ∧
  (∀ (s : State) (o : Op) (pool cap : Nat) (k vl q : Word) (mode maxch : Nat) (sup : Bool) (g : Group),
    prReady s o (.new pool cap k vl q mode maxch sup) → s.grp? o.gid = some g → pool % 4096 + 64 * (cap + 1) ≤ 4096 → 1 ≤ cap → mode < 2 →
    maxch ≤ 256 →
    let page := s.xlate g.core o.ctx (pool / 4096 * 4096) .write sup
    let i := Instr.pralineOperation o.id
    (((∃ z, page = .bad z) ∨ ∃ a, page = .pa a ∧ s.target a ≠ .lpddr) →
      ∃ t, exec i s = .next t ∧ t.mem = s.mem ∧ t.trees = s.trees ∧ prLeaves t o 9 false [(0, 0, 0)]) ∧
    (∀ a, page = .pa a → s.target a = .lpddr →
      let eng := s.mgmt.engineFor (s.mgmt.dieOf a)
      ((∀ j, j < 1024 → (s.treeAt (eng * 1024 + j)).live = true) →
        ∃ t, exec i s = .next t ∧ t.mem = s.mem ∧ t.trees = s.trees ∧ prLeaves t o 10 false [(0, 0, 0)]) ∧
      (∀ slot, slot < 1024 → (s.treeAt (eng * 1024 + slot)).live = false → (∀ j, j < slot → (s.treeAt (eng * 1024 + j)).live = true) →
        let old := (s.treeAt (eng * 1024 + slot)).gen
        let gen := if old = 2 ^ 20 - 1 then 1 else old + 1
        let id := BitVec.ofNat 32 (eng + slot * 2 ^ 2 + gen * 2 ^ 12)
        ∃ t, exec i s = .next t ∧ prLeaves t o 0 true [(0, id, 0)] ∧
          storedAt s t (a + pool % 4096) (64 * (cap + 1)) (newPoolByte cap id k vl q mode maxch) ∧
          t.treeAt (eng * 1024 + slot) = ⟨gen, true, o.ctx, cap, [(pool / 4096, a)], pool⟩ ∧
          ∀ j, j ≠ eng * 1024 + slot → t.treeAt j = s.treeAt j))) ∧
  (∀ (s : State) (o : Op) (id : Word) (f : Nat) (ls : List Nat) (e : PTree) (base : Nat), prReady s o (.qryHdr id f ls) →
    s.tree? id o.ctx = some e → poolAt s e base → f < 4 → (∀ l ∈ ls, l < 64) →
    ∃ t, exec (.pralineOperation o.id) s = .next t ∧ t.mem = s.mem ∧ t.trees = s.trees ∧
      prLeaves t o 0 true (ls.map fun l => (l, BitVec.ofNat 32 (hdrAt s base ([8, 12, 4, 0].getD f 0) 4), 0))) ∧
  (∀ (s : State) (o : Op) (id : Word) (sel : PSel) (ns : List (Nat × Word)) (e : PTree) (base : Nat), prReady s o (.qryNode id sel ns) →
    s.tree? id o.ctx = some e → poolAt s e base → (∀ x ∈ ns, x.1 < 64) →
    let at_ : Nat × Nat := match sel with
      | .n => (0, 4) | .l => (4, 2) | .flags => (6, 2) | .w => (8, 4) | .p => (12, 4) | .parent => (16, 4)
      | .first => (20, 4) | .cnt => (24, 2) | .depth => (26, 2) | .act => (28, 4) | .pid => (32, 4)
    ∃ t, exec (.pralineOperation o.id) s = .next t ∧ t.mem = s.mem ∧ t.trees = s.trees ∧
      prLeaves t o (if ∃ x ∈ ns, e.cap ≤ x.2.toNat then 4 else 0) true (ns.map fun x =>
        (x.1, if e.cap ≤ x.2.toNat then 0xFFFFFFFF else BitVec.ofNat 32 (nodeAt s base x.2.toNat at_.1 at_.2), 0)))

/-- R372, R376, R381-R385 at the engine: each descent of a batch follows winning children, adds its virtual loss along the path and marks its leaf, in the tree that the one before
it left; an expansion takes the lowest run of free nodes, and keeps the list of free nodes in ascending order; each lane of a backup adds its value along the path to the root, and its
first failure is the status; `PRBEST` takes the most visited child; `PRROOT` frees every node outside the subtree, lists the free nodes and counts the others. Each failure has its status, a malformed walk 11. Which
nodes lie in the subtree is judged by their PARENT links (log entry 65, the model's choice). -/
def Obligations.PralineSearch : Prop :=
  (∀ (s : State) (o : Op) (id : Word) (k : Nat) (e : PTree) (base : Nat), prReady s o (.desc id k false) → k ≤ 64 →
    s.tree? id o.ctx = some e → poolAt s e base →
    let b := (hdrAt s base 0x20 4 + 1) % 2 ^ 32
    let batch := if b = 0 then 1 else b
    ∃ t m code res, exec (.pralineOperation o.id) s = .next t ∧ t.trees = s.trees ∧ hdrAt m base 0x20 4 = batch ∧
      (∀ a, a < base + 0x20 ∨ base + 0x24 ≤ a → m.rd a = s.rd a) ∧ descendsTo t e base batch k 0 m [] code res ∧
      prLeaves t o code (decide (code = 0)) res) ∧
  (∀ (s : State) (o : Op) (id leaf : Word) (ps : List Word) (e : PTree) (base : Nat), prReady s o (.exp id leaf ps) →
    s.tree? id o.ctx = some e → poolAt s e base → ps.length ≤ 256 →
    let x := leaf.toNat
    let n := ps.length
    let run := fun i => i + n ≤ e.cap ∧ ∀ j, j < n → isFree s base (i + j)
    let isLeaf := nodeAt s base x 24 2 = 0 ∧ (nodeAt s base x 6 2).testBit 0 = false
    let i := Instr.pralineOperation o.id
    let fails := fun code => ∃ t, exec i s = .next t ∧ t.mem = s.mem ∧ t.trees = s.trees ∧ prLeaves t o code false []
    (¬ live s e base x → fails 4) ∧ (live s e base x → ¬ isLeaf → fails 5) ∧
    (live s e base x → isLeaf → hdrAt s base 0x1E 2 < n → fails 6) ∧
    (live s e base x → isLeaf → n ≤ hdrAt s base 0x1E 2 → 0 < n → (∀ k, k < e.cap → ¬ run k) → fails 2) ∧
    (live s e base x → isLeaf → n = 0 → ∃ t, exec i s = .next t ∧ keepsNodes s t e base [x] ∧
      nodeAt t base x 6 2 = nodeAt s base x 6 2 + 1 ∧ prLeaves t o 0 true []) ∧
    (∀ k, live s e base x → isLeaf → n ≤ hdrAt s base 0x1E 2 → 0 < n → k < e.cap → run k → (∀ m, m < k → ¬ run m) →
      ∃ t, exec i s = .next t ∧ prLeaves t o 0 true [] ∧ t.trees = s.trees ∧
        nodeAt t base x 20 4 = k ∧ nodeAt t base x 24 2 = n ∧ hdrAt t base 12 4 = (hdrAt s base 12 4 + n) % 2 ^ 32 ∧
        (freeListed s e base → freeListed t e base) ∧
        (∀ y, live s e base y → y ≠ x → keepsNodes s t e base ((List.range e.cap).filter (· ≠ y))) ∧
        ∀ j, j < n → nodeAt t base (k + j) 0 4 = 0 ∧ nodeAt t base (k + j) 4 2 = 0 ∧ nodeAt t base (k + j) 6 2 = 0 ∧
          nodeAt t base (k + j) 8 4 = 0 ∧ nodeAt t base (k + j) 12 4 = (ps.getD j 0).toNat ∧ nodeAt t base (k + j) 16 4 = x ∧
          nodeAt t base (k + j) 20 4 = 0xFFFFFFFF ∧ nodeAt t base (k + j) 24 2 = 0 ∧
          nodeAt t base (k + j) 26 2 = min (nodeAt s base x 26 2 + 1) 65535 ∧ nodeAt t base (k + j) 28 4 = j ∧
          nodeAt t base (k + j) 32 4 = 0)) ∧
  (∀ (s : State) (o : Op) (id : Word) (ls : List (Nat × Word × Bool × Word)) (e : PTree) (base : Nat), prReady s o (.back id ls) →
    s.tree? id o.ctx = some e → poolAt s e base →
    ∃ t code ok, exec (.pralineOperation o.id) s = .next t ∧ t.trees = s.trees ∧ backsUp t e base s 0 ls code ok ∧ prLeaves t o code ok []) ∧
  (∀ (s : State) (o : Op) (id : Word) (e : PTree) (base : Nat), prReady s o (.best id) → s.tree? id o.ctx = some e → poolAt s e base →
    let r := hdrAt s base 8 4
    let first := nodeAt s base r 20 4
    let n := nodeAt s base r 24 2
    let q := fun y => if nodeAt s base y 0 4 = 0 then fval (ffmt .f32) false (hdrAt s base 0x18 4)
      else div32 (fval (ffmt .f32) false (nodeAt s base y 8 4)) (ofInt false (nodeAt s base y 0 4) 0)
    let beats := fun y z => nodeAt s base z 0 4 < nodeAt s base y 0 4 ∨
      (nodeAt s base y 0 4 = nodeAt s base z 0 4 ∧ above (q z) (q y) = true)
    (¬ live s e base r ∨ (∃ j, j < n ∧ ¬ live s e base (first + j)) →
      ∃ t, exec (.pralineOperation o.id) s = .next t ∧ t.mem = s.mem ∧ prLeaves t o 11 false [(0, 0xFFFFFFFF, 0)]) ∧
    (live s e base r → (∀ j, j < n → live s e base (first + j)) →
    (n = 0 → ∃ t, exec (.pralineOperation o.id) s = .next t ∧ t.mem = s.mem ∧ prLeaves t o 8 false [(0, 0xFFFFFFFF, 0)]) ∧
    (∀ k, k < n → (∀ j, j < n → ¬ beats (first + j) (first + k)) → (∀ j, j < k → beats (first + k) (first + j)) →
      ∃ t, exec (.pralineOperation o.id) s = .next t ∧ t.mem = s.mem ∧ prLeaves t o 0 true [(0, BitVec.ofNat 32 (first + k), 0)]))) ∧
  (∀ (s : State) (o : Op) (id child : Word) (e : PTree) (base : Nat), prReady s o (.root id child) → s.tree? id o.ctx = some e →
    poolAt s e base →
    let x := child.toNat
    let quiet := ∀ y, live s e base y → nodeAt s base y 4 2 = 0
    let under := live s e base x ∧ nodeAt s base x 16 4 = hdrAt s base 8 4
    let i := Instr.pralineOperation o.id
    let fails := fun code => ∃ t, exec i s = .next t ∧ t.mem = s.mem ∧ t.trees = s.trees ∧ prLeaves t o code false []
    (¬ quiet → fails 3) ∧ (quiet → ¬ under → fails 7) ∧
    (quiet → under → (∃ y p, malformedUp s e base y p ∧ x ∉ p) → fails 11) ∧
    (quiet → under → (∀ y, live s e base y → ∃ p, upPath s e base p ∧ p.Nodup ∧ p.length ≤ 65536 ∧ p.head? = some y) →
      ∃ t, exec i s = .next t ∧ prLeaves t o 0 true [] ∧ t.trees = s.trees ∧ hdrAt t base 8 4 = x ∧ nodeAt t base x 16 4 = 0xFFFFFFFF ∧
        freeListed t e base ∧ hdrAt t base 12 4 = liveCount t e base ∧
        (∀ y, isFree s base y → y < e.cap → isFree t base y) ∧
        ∀ y p, upPath s e base p → p.head? = some y → p.length ≤ 65536 →
          (x ∉ p → isFree t base y) ∧ (x ∈ p → y ≠ x → keepsNodes s t e base ((List.range e.cap).filter (· ≠ y)))))

namespace Sys2Proof.Claims

/-! ## Held operations and the state of tags -/

/-- What an instruction of the held row of R295 enters in the log: its header, the command with its operands read, path, destination and predicates,
its lanes (lane, rank, address, data, comparand), the masks of the lines in its local range (R297), and when its own checks at issue pass. -/
structure HeldRow where
  hdr : Hdr
  cmd : Cmd
  path : Option Path
  dst : Dst := .none
  p : CmpDst := ⟨0, 0⟩
  lanes : List (Nat × Nat × Nat × DWord × DWord) := []
  extra : Tags := 0
  passes : Prop := True

/-- A deterministic team has room to stage `n` more bytes, and what it issues may be staged (R347). -/
def stages (s : State) (u : Team) (n : Nat) : Prop := u.det = true → s.stageFull u.tid n = false

/-- The bytes from a virtual address, as a synchronous read of an instruction finds them. -/
def bytesFrom (s : State) (g : Group) (va n : Nat) : List Byte :=
  (List.range n).map fun b => match s.xlate g.core (s.ctxOfG g) (va + b) .read g.sup with | .pa a => s.syncByte a | .bad _ => 0
def readable (s : State) (g : Group) (va n : Nat) : Prop :=
  ∀ b, b < n → ∃ a, s.xlate g.core (s.ctxOfG g) (va + b) .read g.sup = .pa a

/-- `COPY` and `CRED` (R165-R167, R175). -/
def heldCopy (s : State) (u : Team) (g : Group) (i : Instr) : Option HeldRow :=
  match copies u g i with
  | some (h, d, bf, out, bar, unit, red, mbx, some (e, sh, rsv, lr)) =>
    let d0 := (g.opnd d 0).toNat
    some {
      hdr := h, path := some .C, extra := sh.lineTags u bf d0
      cmd := .copy ⟨0, u.tid, d0, e, bf, out, sh, bar.map (·.toNat), 0, mbx, lr, red, false, false, none, 0, [], none⟩
      passes := (∀ b, bar = some b → (u.bar b.toNat).expected ≠ 0) ∧ strides sh rsv ∧ alignedTo unit sh e d0 ∧ extFits sh e ∧ locFits u bf sh d0 ∧
        engineOwned u bf sh d0 ∧ s.streamed g.core < 1024 ∧ (out = true → stages s u (sh.rows * sh.planes * sh.len + 16 * sh.sectors)) }
  | _ => none

/-- `CREG`, `CUNREG`, `CREPLAY`, `CREPLAY.drop` (R169, R173). A replay is held for the lines it would reach in its issuer's team (log entry 84). -/
def heldRecord (s : State) (u : Team) (g : Group) : Instr → Option HeldRow
  | .creg h d ext sh =>
    match copyFrom u g ext (match sh with | .d1 n => .d1 n | .d2 m => .d2 m | .d3 m => .d3 m) with
    | some (e, y, rsv, _) => some { hdr := h, cmd := .creg 0 e y d, path := some .C, dst := d
                                    passes := strides y rsv ∧ alignedTo 4 y e 0 ∧ extFits y e }
    | none => none
  | .cunreg h a => some { hdr := h, cmd := .cunreg (g.rdS a.toNat) [], path := some .C }
  | i =>
    match replays i with
    | some (h, a, drop) =>
      let id := g.rdS a.toNat
      some { hdr := h, cmd := .creplay id drop g.sup, path := some .C, extra := s.replayTags id g.tid
             passes := g.sup = true ∨ ∀ x ∈ s.ops, ∀ c, x.cmd = .copy c → c.id = id → x.st = .active → c.tid = g.tid }
    | none => none

/-- `SCAT` (R177, R178, R180). -/
def heldScat (s : State) (u : Team) (g : Group) : Instr → Option HeldRow
  | .scat h x ty base off =>
    let i := Instr.scat h x ty base off
    let ls := evalsIn g i h
    let sz := bytesOf ty
    let val := fun l => (g.opnd x l).setWidth 64
    match base with
    | .ext p =>
      let f := fun l => (g.pairS p.toNat).toNat + (g.opnd off l).toNat
      some { hdr := h, cmd := .scatter ty none, path := some .G, lanes := ls.map fun l => (l, 0, f l, val l, 0)
             passes := (∀ l ∈ ls, f l % sz = 0 ∧ f l < 2 ^ 54 ∧ ∃ pa, s.xlate g.core (s.ctxOfG g) (f l) .write g.sup = .pa pa ∧ isMem s pa) ∧
               stages s u (16 * ls.length) }
    | .clu a =>
      let f := fun l => (g.opnd off l).toNat
      match s.cluTeam u (g.rdS a.toNat).toNat with
      | some y => some {
          hdr := h, cmd := .scatter ty (some y.tid), path := some .G, lanes := ls.map fun l => (l, 0, f l, val l, 0)
          extra := if y.tid = u.tid then ls.foldl (fun m l => m ||| u.rangeTag .x (f l) sz) 0 else 0
          passes := ∀ l ∈ ls, f l % sz = 0 ∧ f l + sz ≤ y.xbytes ∧ y.owner .x (f l / 4096) = .engine }
      | none => none
  | _ => none

/-- Atomics on the external space (R320, R322, R325). -/
def heldAtomic (s : State) (u : Team) (g : Group) (i : Instr) : Option HeldRow :=
  match atoms i with
  | some (h, lo, hi, p, .ext q, off, a, data, cmp) =>
    let ls := evalsIn g i h
    let f := fun l => (g.pairS q.toNat).toNat + (g.opnd off l).toNat
    some { hdr := h, cmd := .atomic { a with hi := hi }, path := some .A, dst := lo, p := p, lanes := ls.map fun l => (l, 0, f l, data g l, cmp g l)
           passes := (∀ l ∈ ls, f l % a.sz = 0 ∧ f l < 2 ^ 54 ∧ ∀ pa, s.xlate g.core (s.ctxOfG g) (f l) .write g.sup = .pa pa → isMem s pa) ∧
             (u.det = true → a.ret = false ∧ a.cas = false) ∧ stages s u (16 * ls.length) }
  | _ => none

/-- `RPUT`, `RRED` and `MCST` (R238, R242). -/
def heldRemote (s : State) (u : Team) (g : Group) (i : Instr) : Option HeldRow :=
  match i, remotes i with
  | .rget .., _ => none
  | _, some (h, p, d, k, sz, w, r, o, val, _) =>
    let ls := evalsIn g i h
    some { hdr := h, cmd := .remote k w.toNat, path := some .F, dst := d, p := p
           lanes := ls.map fun l => (l, (g.opnd r l).toNat, (g.opnd o l).toNat, val g l, 0)
           passes := (∀ l ∈ ls, (g.opnd r l).toNat < 1024 ∧ (g.opnd o l).toNat % sz = 0) ∧ stages s u (16 * ls.length) }
  | .mcst h d e w ro x n y, none =>
    let a := (g.opnd x 0).toNat
    let b := (g.opnd y 0).toNat
    let ms := (List.range 1024).filter fun r => (s.gent u.ctx e.toNat).members.getLsbD r
    some { hdr := h, cmd := .mcst ⟨e.toNat, w.toNat, ro.toNat * 64, a, n.toNat, b, ms, [], []⟩, path := some .F, dst := d
           extra := u.rangeTag .x a n.toNat ||| u.rangeTag .x b 256
           passes := 0 < n.toNat ∧ a % 4 = 0 ∧ b % 64 = 0 ∧ a + n.toNat ≤ u.xbytes ∧ b + 256 ≤ u.xbytes ∧ u.det = false ∧
             (a + n.toNat ≤ b ∨ b + 256 ≤ a) ∧
             ∀ k, (a / 4096 ≤ k ∧ k * 4096 < a + n.toNat) ∨ (b / 4096 ≤ k ∧ k * 4096 < b + 256) → u.owner .x k = .engine }
  | _, _ => none

/-- `TSEND`, `CTSET`, `QPUSH`, `NOTIFY`, `LAUNCH`, `HDROP`, `MBREG` (R248, R275, R276, R364, R366, R367). -/
def heldMessage (s : State) (g : Group) (i : Instr) : Option HeldRow :=
  match i, ctsets g i, mbregs i with
  | .tsend h f thr rank roff src, _, _ =>
    let r := (g.opnd rank 0).toNat
    let va := (g.pairS src.toNat).toNat
    let o := (g.opnd roff 0).toNat
    some { hdr := h, cmd := .arm f.cn.toNat ⟨s.ctxOfG g, f, g.opnd thr 0, r, o, va, g.sup⟩, path := none
           passes := r < 1024 ∧ o % 4 = 0 ∧ va % 4 = 0 ∧ va < 2 ^ 54 ∧ ∀ c, s.ctx? (s.ctxOfG g) = some c → c.armed.length < 4096 }
  | .qpush h p m q, _, _ =>
    let n := (g.opnd q 0).toNat
    some { hdr := h, cmd := .qpush n ((List.range 16).map fun k => g.rdS (m.toNat + k)), path := none, p := p
           passes := ownQueue s g n }
  | .notify h q, _, _ => some { hdr := h, cmd := .notify (g.opnd q 0).toNat, path := none, passes := (g.opnd q 0).toNat < 64 }
  | .launch h p d a, _, _ =>
    let va := match a with | .pair r => (g.pairS r.toNat).toNat | .label off => (g.pc.toNat + (off.signExtend 64).toNat) % 2 ^ 54
    some { hdr := h, cmd := .launch va d g.sup, path := none, p := p, passes := va % 8 = 0 ∧ va < 2 ^ 54 ∧ readable s g va 320 }
  | .hdrop h p, _, _ => some { hdr := h, cmd := .hdrop (g.pairS p.toNat), path := none }
  | _, some (h, n, add, v), _ => some { hdr := h, cmd := .ctset n.toNat add v, path := none }
  | _, none, some (h, mb, what) =>
    let n := (g.opnd mb 0).toNat
    match what with
    | .inl (e, f) =>
      let v := g.pairS e.toNat
      some { hdr := h, cmd := .mbreg n 0 v f, path := none
             passes := n < 4096 ∧ (f.sup = true → g.sup = true) ∧ 18 ≤ f.sregs1.toNat + 1 ∧ f.xtiles.toNat ≤ 512 ∧ f.wtiles.toNat ≤ 1024 ∧
               f.barriers.toNat ≤ 16 ∧ fits v ∧ v.toNat < 2 ^ 54 }
    | .inr opens => some { hdr := h, cmd := .mbreg n (if opens then 1 else 2) 0 ⟨0, 0, 0, 0, 0, 0, false⟩, path := none, passes := n < 4096 }
  | _, _, _ => none

/-- The privileged forms: `GSET`, `VINV`, `FLTQ`, `CTXSW`, `MRESET`, `MTS` of a base (R157, R200, R202, R207, R218, R259). -/
def heldSystem (s : State) (g : Group) (i : Instr) : Option HeldRow :=
  match i, gsets i, ctxsws i with
  | .vinv h x, _, _ =>
    match x with
    | .page a =>
      let va := (g.pairS a.toNat).toNat
      some { hdr := h, cmd := .vinv 0 va, path := none, passes := va < 2 ^ 54 }
    | .ctx => some { hdr := h, cmd := .vinv 1 0, path := none }
    | .dev => some { hdr := h, cmd := .vinv 2 0, path := none }
  | .fltq h d, _, _ => some { hdr := h, cmd := .fltq d, path := none }
  | .mreset h a, _, _ => some { hdr := h, cmd := .mreset (g.opnd a 0).toNat, path := none }
  | .mts h (.hbase a), _, _ => some { hdr := h, cmd := .mtsHbase (g.pairS a.toNat), path := none, passes := baseOk (g.pairS a.toNat) }
  | .mts h (.fqbase a), _, _ =>
    some { hdr := h, cmd := .mtsFqbase (g.pairS a.toNat), path := none, passes := baseOk (g.pairS a.toNat) ∧ s.faultsLeft (s.ctxOfG g) = false }
  | _, some (h, e, full, sq), _ =>
    let k := (g.opnd e 0).toNat
    match full, sq with
    | some (p, q, m), _ =>
      let va := (g.pairS p.toNat).toNat
      some { hdr := h, cmd := .gset k 0 (BitVec.ofNat 1024 (leNat (bytesFrom s g va 128))) (g.opnd q 0) m, path := none
             passes := k < 256 ∧ s.entryBusy (s.ctxOfG g) k = false ∧ readable s g va 128 }
    | none, some q => some { hdr := h, cmd := .gset k 1 0 (g.opnd q 0) 0, path := none, passes := k < 256 ∧ s.entryBusy (s.ctxOfG g) k = false }
    | none, none => some { hdr := h, cmd := .gset k 2 0 0 0, path := none, passes := k < 256 ∧ s.entryBusy (s.ctxOfG g) k = false }
  | _, none, some (h, what, d, a) => some { hdr := h, cmd := .ctxsw what (g.opnd a 0).toNat d, path := none, dst := d }
  | _, _, _ => none

/-- The Praline forms (R378-R385, R387). -/
def heldPraline (s : State) (g : Group) (i : Instr) : Option HeldRow :=
  match pralines g i with
  | some (h, c, d, p, bad) =>
    let rs := match i with | .prexp _ _ _ _ count vp => priorRegs vp (g.opnd count 0).toNat g.width | _ => []
    some { hdr := h, cmd := .praline c, path := some .S, dst := d, p := p, extra := g.tagsOf rs
           passes := bad = none ∧ 0 < g.width ∧ g.width ≤ 64 ∧ rs.any (s.busy g.gid).contains = false ∧
             (s.mIssues g).any (fun m => rs.any m.cRegs.contains) = false }
  | none => none

/-- The held row of R295, `COLL`, `AFFIRM` and `DENY` apart. -/
def heldRow (s : State) (u : Team) (g : Group) (i : Instr) : Option HeldRow :=
  match heldCopy s u g i with
  | some r => some r
  | none => match heldRecord s u g i with
    | some r => some r
    | none => match heldScat s u g i with
      | some r => some r
      | none => match heldAtomic s u g i with
        | some r => some r
        | none => match heldRemote s u g i with
          | some r => some r
          | none => match heldMessage s g i with
            | some r => some r
            | none => match heldSystem s g i with
              | some r => some r
              | none => heldPraline s g i

/-- An operation of the current instruction has entered the log of its team, under the tags `m`, and counts on its path; `g'` is the group after it. -/
def enters (s t : State) (g g' : Group) (u : Team) (i : Instr) (m : Tags) (path : Option Path) (o : Op) : Prop :=
  t.grp? s.cur = some g' ∧ g'.pc = seqNext g.pc (ilen g i) ∧ g'.v = g.v ∧ g'.p = g.p ∧ g'.flg = g.flg ∧ g'.dep = g.dep ∧
    g'.inFlight = g.inFlight ++ (match path with | some x => [⟨x, s.nextId, false⟩] | none => []) ∧
    newOp s t o ∧ o.st = .held ∧ o.gid = g.gid ∧ o.tid = g.tid ∧ o.pc = g.pc ∧ o.path = path ∧
    t.team? g.tid = some { u with held := u.held ++ [⟨s.nextId, g.gid, m⟩] }

end Sys2Proof.Claims

/-- R295, R297: an instruction of the held row whose group or operands are tainted, or whose local range holds a tagged line, makes its checks, enters its team's
held-store log with its operands read, counts on its path, and does not act; with 256 entries in use it is not ready. A held `COLL` writes its handle. R309: `TQRY` writes the mask, AID,
state or count that it names; R310: `TWAIT` parks while DEP is not empty. -/
def Obligations.TagStateAndHeldOperations : Prop :=
  (∀ (s : State) (g : Group) (u : Team) (i : Instr) (r : HeldRow), s.team? g.tid = some u → heldRow s u g i = some r →
    runs s g i = true → r.hdr.ch = false → guarded g r.hdr = true → r.passes →
    let m := g.dep ||| g.tSet (infoOf g.fmt i) ||| r.extra
    m ≠ 0 →
    (256 ≤ u.held.length → exec i s = .next s) ∧
    (u.held.length < 256 → ∃ t g' o, exec i s = .next t ∧ enters s t g g' u i m r.path o ∧ g'.s = g.s ∧ o.cmd = r.cmd ∧
      o.dst = r.dst ∧ o.p = r.p ∧ o.lanes.map (fun l => (l.lane, l.rank, l.va, l.data, l.cmp)) = r.lanes ∧
      t = { s with groups := t.groups, lacc := t.lacc, ops := t.ops, nextId := t.nextId, teams := t.teams, race := t.race })) ∧
  (∀ (s : State) (g : Group) (h : Hdr) (d : SReg) (f : CollF) (src dst count : Opnd) (u : Team) (c : Ctx) (e gen : Nat) (hd : DWord),
    let i := Instr.coll h d f src dst count
    runs s g i = true → h.ch = false → guarded g h = true → s.team? g.tid = some u → s.ctx? (s.ctxOfG g) = some c → s.rank < 1024 →
    let m := g.dep ||| g.tSet (infoOf g.fmt i)
    let a := (g.opnd src 0).toNat
    let b := (g.opnd dst 0).toNat
    let n := (g.opnd count 0).toNat
    m ≠ 0 → u.held.length < 256 → (s.colls.filter fun y => y.ctx == c.num).length < 64 →
    collTrap s (s.gent c.num f.entry.toNat) f a b n = none → mints s 2 e gen hd →
    ∃ t g' o, exec i s = .next t ∧ enters s t g g' u i m none o ∧ (∀ r, g'.rdS r = withPair g (some d) hd r) ∧
      o.cmd = .coll ⟨c.num, f.entry.toNat, 0, g.gid, s.nextId, f, a, b, n, hd, .queued, none, none⟩ ∧
      t = { s with groups := t.groups, lacc := t.lacc, ops := t.ops, nextId := t.nextId, teams := t.teams, handles := t.handles } ∧
      (t.hent e).st = .pending ∧ (t.hent e).gen = gen ∧ ∀ k, k ≠ e → t.hent k = s.hent k) ∧
  (∀ (s : State) (g : Group) (h : Hdr) (d : Dst) (sel : TQSel) (u : Team), runs s g (.tqry h d sel) = true → h.ch = false →
    s.team? g.tid = some u →
    let i := Instr.tqry h d sel
    let size := fun (b : Buf) => if b = .x then u.xbytes else u.wbytes
    let reads := fun (v : Nat) => ∃ t, exec i s = .next t ∧ ranAlu s t g i h d fun _ => (BitVec.ofNat 32 v, 0)
    match sel with
    | .regS n => (n.toNat < g.sregs → reads (g.stagOf n.toNat).toNat) ∧
        (g.sregs ≤ n.toNat → g.dep = 0 → g.sb.valid = false → traps i s g 2 0x01 1)
    | .regV n => (n.toNat < g.vregs → reads (g.vtagOf n.toNat).toNat) ∧
        (g.vregs ≤ n.toNat → g.dep = 0 → g.sb.valid = false → traps i s g 2 0x01 1)
    | .pred k => reads (g.ptagOf k.toNat).toNat
    | .xline a => ((g.opnd a 0).toNat < size .x → reads (u.lineTag .x ((g.opnd a 0).toNat / 64)).toNat) ∧
        (size .x ≤ (g.opnd a 0).toNat → guarded g h = true → g.dep = 0 → g.sb.valid = false → traps i s g 3 0x01 1)
    | .wline a => ((g.opnd a 0).toNat < size .w → reads (u.lineTag .w ((g.opnd a 0).toNat / 64)).toNat) ∧
        (size .w ≤ (g.opnd a 0).toNat → guarded g h = true → g.dep = 0 → g.sb.valid = false → traps i s g 3 0x02 1)
    | .slot a => reads (match u.slots[(g.opnd a 0).toNat]? with
        | some x => if (g.opnd a 0).toNat < 8 ∧ x.st ≠ .free then x.aid.toNat else 0xFFFFFFFF
        | none => 0xFFFFFFFF)
    | .state a => reads (match u.slots[(g.opnd a 0).toNat]? with
        | some x => (match x.st with
          | .free => 0 | .loc => 1 | .imported => 2 | .pending => 3 | .draining => 4 | .rollingBack => 5)
        | none => 0)
    | .undo => reads u.undo.length
    | .held => reads u.held.length) ∧
  (∀ (s : State) (g : Group) (h : Hdr), runs s g (.twait h) = true → h.ch = false →
    let i := Instr.twait h
    (guarded g h = false ∨ g.dep = 0 → ∃ t, exec i s = .next t ∧ became s t { g with pc := seqNext g.pc 8 }) ∧
    (guarded g h = true → g.dep ≠ 0 → ∃ t, exec i s = .next t ∧ became s t { g with pc := seqNext g.pc 8, park := some .twait }))

namespace Sys2Proof.Claims

/-! ## The issue slot, placement and contexts -/

/-- Class of a ready group in its slot's order (R19). -/
def issueClass (g : Group) : Nat :=
  if g.chpos ≠ 0 then 0 else if g.agedAt.isSome = true then 1
  else match g.role with | .loader => 2 | .storer => 3 | .computer => 4

/-- What decides within a class: when it became aged, or when it last issued, a cycle having two places: its issues, and after
them the groups that it passed over after a `YIELD` (R19, R83). -/
def issueTime (g : Group) : Nat := if g.chpos ≠ 0 then 0 else match g.agedAt with | some t => t | none => g.lastIssue

/-- A group that stands strictly before another in the order of R19. -/
def ahead (a b : Group) : Prop :=
  issueClass a < issueClass b ∨ (issueClass a = issueClass b ∧
    (issueTime a < issueTime b ∨ (issueTime a = issueTime b ∧ a.slot < b.slot)))

/-- The walk of R19 over an order, with lanes and decoders left; a group inside a chain keeps its decoder (R51). -/
def slotWalk : Nat → Nat → List Group → List Nat
  | _, _, [] => []
  | lanes, decoders, g :: gs =>
    if decoders = 0 then []
    else if lanes < g.width then slotWalk lanes (if g.chpos = 0 then decoders else decoders - 1) gs
    else g.gid :: slotWalk (lanes - g.width) (decoders - 1) gs

/-- A group of this number is resident on a sub-core. -/
def residentOn (s : State) (core sub n : Nat) : Bool := (s.onSub core sub).any fun x => x.gid == n

/-- When a service group that is ready in this cycle became aged: its 1024th ready cycle without issue may be this one (R19). -/
def svcAged (s : State) (core sub h : Nat) : Option Nat :=
  let r := s.svcRank h
  if r.agedAt = none ∧ 1024 ≤ r.age + 1 then some (s.cycleAt core sub) else r.agedAt

/-- Service groups that hold requests stand in the same order, as loaders in their slots; when they are ready is free (R319, log entry
89). -/
def serviceGroups (s : State) (core sub : Nat) (svc : List Group) : Prop :=
  (∀ y ∈ svc, ∃ h, h < 16 ∧ y.gid = s.nextId + h ∧ s.mgmt.svcOf h = some core ∧ y.slot = s.mgmt.svcSlot h ∧ y.role = .loader ∧
    y.chpos = 0 ∧ y.lastIssue = (s.svcRank h).lastIssue ∧ y.agedAt = svcAged s core sub h) ∧ (sub ≠ 3 → svc = []) ∧
    ((∀ o ∈ s.ops, ∀ a, o.cmd ≠ .atomic a) → s.foreign = [] → (∀ c ∈ s.ctxs, ∀ x ∈ c.grids, x.staged = []) → svc = [])

/-- What R19 counts for the service groups after a cycle in which those of `svc` were ready and those of `walk` issued. -/
def serviceCounts (s t : State) (core sub : Nat) (svc : List Group) (walk : List Nat) : Prop :=
  ∀ h, h < 16 → t.svcRank h =
    if ∀ y ∈ svc, y.gid ≠ s.nextId + h then s.svcRank h
    else if s.nextId + h ∈ walk then ⟨0, none, 2 * (s.cycleAt core sub + 1)⟩
    else ⟨(s.svcRank h).age + 1, svcAged s core sub h, (s.svcRank h).lastIssue⟩

/-- No released push waits for its fence (R366). -/
def noPush (s : State) : Prop := ∀ o ∈ s.ops, o.st = .active → ∀ q ws, o.cmd ≠ .qpush q ws

/-- A group of this number is ready there. -/
def readyOn (s : State) (core sub n : Nat) : Bool := (s.onSub core sub).any fun x => x.gid == n && s.canIssue x

/-- A core on which a team may be placed (R26). -/
def takes (s : State) (d : Demand) (k : Nat) : Prop := k < 192 ∧ s.mgmt.usable k = true ∧ (s.freeOf k).fits d = true

/-- The core that R27 chooses: most free slots, then most free X, then the lowest number. -/
def chosen (s : State) (d : Demand) (k : Nat) : Prop :=
  takes s d k ∧ ∀ j, takes s d j → j ≠ k → (s.freeOf j).total < (s.freeOf k).total ∨
    ((s.freeOf j).total = (s.freeOf k).total ∧ ((s.freeOf j).x < (s.freeOf k).x ∨ ((s.freeOf j).x = (s.freeOf k).x ∧ k < j)))

/-- Group number `i` of a team as R24 starts it: the parameters in its first scalars, and all else at its start. -/
def startsAs (r : LaunchRec) (g : Group) : Prop :=
  g.pc = r.entry ∧ g.width = 8 * 2 ^ r.width.toNat ∧ (∀ l, l < 64 → g.mask.getLsbD l = decide (l < g.width)) ∧ g.vregs = r.vregs ∧
    g.sregs = r.sregs ∧ (∀ n l, g.rdV n l = 0) ∧ (∀ n, g.rdS n = if n < r.nparam then r.params.getD n 0 else 0) ∧
    (∀ k l, g.rdP k l = decide (k = 0)) ∧ g.fmt = 0 ∧ g.flg = 0 ∧ g.stack = [] ∧ g.inFlight = [] ∧ g.gtime = 0 ∧ g.ctl = 0 ∧ g.dep = 0 ∧
    g.vtag = [] ∧ g.stag = [] ∧ g.ptag = [] ∧ g.sup = false ∧ g.exited = false ∧ g.park = none

/-- The record of a context that is to be placed next: no event team waits, and it heads the launch queue (R28). -/
def nextRecord (c : Ctx) (g : Grid) : Prop :=
  c.pendTeams = [] ∧ c.grids.find? (·.queued) = some g ∧ c.grids.find? (fun y => y.gid == g.gid) = some g

/-- The context whose turn it is (R28): the next one above the last served that has something to place, or the lowest. -/
def hasTurn (s : State) (n : Nat) : Prop :=
  let able := fun k => k < 4096 ∧ ∃ c, s.ctx? k = some c ∧ c.st = .resident ∧ (s.placeNext c).isSome = true
  able n ∧ ((s.served < n ∧ ∀ k, s.served < k → k < n → ¬ able k) ∨
    (n ≤ s.served ∧ (∀ k, s.served < k → ¬ able k) ∧ ∀ k, k < n → ¬ able k))

/-- A group but for where it is (R33); a deadline of `SLEEP` that has passed meanwhile parks it no longer (R84). -/
def movedOnly (s : State) (ctx : Nat) (g g' : Group) : Prop :=
  g' = { g with core := g'.core, slot := g'.slot, lastIssue := g'.lastIssue, agedAt := g'.agedAt, park := g'.park } ∧
    let passed := s.ctxOfG g = ctx ∧ ∃ dl : DWord, g.park = some (.sleep dl) ∧ dl.toNat ≤ s.clock.toNat
    (passed → g'.park = none) ∧ (¬ passed → g'.park = g.park)

/-- A context that is out with work pending: a team, a grid, a launch or a continuation (R391). -/
def waitsIn (s : State) (x : Ctx) : Prop :=
  (x.st = .saved ∨ x.st = .restoring) ∧
    ((∃ u ∈ s.teams, u.ctx = x.num ∧ u.ended = false) ∨ x.grids ≠ [] ∨ x.pendTeams ≠ [] ∨ x.conts ≠ [])

/-- A group whose 1024th ready cycle without issue this would be (R19). -/
def agesNow (s : State) (g : Group) : Prop := g.agedAt = none ∧ 1023 ≤ g.age ∧ s.canIssue g = true

/-- A race-log entry on its way reaches its place (R350, R351). -/
def logged (s t : State) (pre post : List RaceEntry) (e : RaceEntry) : Prop :=
  s.raceq = pre ++ e :: post → (∀ x ∈ pre, ¬ (x.ctx = e.ctx ∧ x.va = e.va)) →
    t.raceq = pre ++ post ∧
    (∀ pa, s.xlate 0 e.ctx e.va .write true = .pa pa → isMem s pa →
      t = { s with raceq := t.raceq, mem := t.mem, poison := t.poison } ∧ storedAt s t pa e.bytes.length fun k => e.bytes.getD k 0) ∧
    ∀ k, s.xlate 0 e.ctx e.va .write true = .bad k → t = { s with raceq := t.raceq }

/-- What a soft error does (R222, R395): a count of its die, or a mark on the granule, the line of a buffer, or the line of a group's image. -/
def erred (s t : State) : SoftError → Prop
  | .corrected d => t = { s with mgmt := t.mgmt } ∧ t.mgmt = { s.mgmt with cecount := t.mgmt.cecount } ∧
      ∀ k, sget 0 t.mgmt.cecount k = if k = d.toNat then sget 0 s.mgmt.cecount k + 1 else sget 0 s.mgmt.cecount k
  | .ext pa => t = { s with poison := t.poison } ∧ ∀ k, k ∈ t.poison ↔ k ∈ s.poison ∨ k = pa / 64
  | .buf tid b off => t = { s with teams := t.teams } ∧ ∀ u, s.team? tid = some u → ∃ u', t.team? tid = some u' ∧
      (off < u.size b → u'.poisoned b off 1 = true) ∧ (u.size b ≤ off → u' = u)
  | .line n k => onlyGroup s t n ∧ ∀ g, s.grp? n = some g → ∃ g', t.grp? n = some g' ∧ g' = { g with poison := g'.poison } ∧
      ∀ j, j ∈ g'.poison ↔ j ∈ g.poison ∨ (j = k ∧ 256 * k < 4 * (g.vregs * g.width + g.sregs) + 4096 + 64 * g.width)

/-- What is left of a team's first staged operation once its first lane or part has been performed, or part of it (R346). -/
def stagedLeft (x : Grid) (team : Nat) (pre post : List (Nat × Staged)) (y : Staged) (ls : List Lane) : Grid :=
  { x with staged := pre ++ (if ls = [] then [] else [(team, { y with op := { y.op with lanes := ls } })]) ++ post }

/-- A context whose state has become `st`, which its descriptor's byte at 0x3A shows (R217, R218). -/
def entered (s t : State) (c : Ctx) (st : CtxSt) : Prop :=
  t.ctx? c.num = some { c with st := st } ∧ storedAt s t (c.savePA + 0x3A) 1 (byteOf st.code)

end Sys2Proof.Claims

/-- R19, R20, R24, R27-R29, R83, R222, R345, R346: a cycle issues from its ready groups in order, within 64 lanes and the decoders left, and counts; a group's 1024th ready cycle ages it first;
the distributor places the next team of the context whose turn it is on the core R27 chooses, as R24 says; a slot is freed after EXIT with no counter up and no tag left (R306); a finished team's staged operations are performed one
after another, a far home's once it has answered, a copy's words in any order, and then it is released. Soft errors and race-log entries come
with the cycle (log entries 59, 82). The model's choices, besides these: log entry 3, whose turns these are; 12, the 64-byte unit that a
soft error of external memory marks; 62, that a release stands still until a far home answers; 69, that a record counts as queued until
its last team is placed; 87, that a deterministic team with a group that ran no EXIT never finishes; 89, that the service groups' ready
cycles are free; and 100, the order of several groups in mid-chain by slot, and that a picked cycle which stalls counts toward 1024. -/
def Obligations.IssueSlotAndPlacement : Prop :=
  (∀ (s : State) (core sub : Nat), core < 192 → sub < 4 → s.subTurn core sub = true → sget .active s.power core = .active →
    (∀ a ∈ s.lacc, a.core = core → a.sub = sub → s.cycleAt core sub < a.due) → (∀ g ∈ s.onSub core sub, ¬ agesNow s g) → noPush s →
    ∃ t order svc rest, exec (.issueCycle core ⟨sub, [], []⟩) s = .next t ∧ serviceGroups s core sub svc ∧
      order.Perm ((s.onSub core sub).filter s.canIssue ++ svc) ∧ order.Pairwise (fun a b => ¬ ahead b a) ∧
      let stalled := ((s.onSub core sub).filter fun g =>
        decide (g.chpos ≠ 0 ∧ g.exited = false) && !readyOn s core sub g.gid).length
      let walk := slotWalk 64 (4 - stalled) order
      let picks := walk.filter fun n => residentOn s core sub n
      ((∀ g ∈ s.groups, g.gid < s.nextId) → serviceCounts s t core sub svc walk) ∧
      t.turns = picks.map Turn.issue ++ rest ++ s.turns ∧ (∀ n, Turn.issue n ∉ rest) ∧ t.mem = s.mem ∧ t.ops = s.ops ∧
        t.cycleAt core sub = s.cycleAt core sub + 1 ∧
        (∀ k j, j < 4 → (k ≠ core ∨ j ≠ sub) → t.cycleAt k j = s.cycleAt k j) ∧
        ∀ n g, s.grp? n = some g → ∃ g', t.grp? n = some g' ∧ 
          (let leaves := residentOn s core sub n = true ∧ (g.park = some .yielded ∨ g.park = some .fence ∧ fenceHolds s g .acq .dev);
            (leaves → g'.park = none) ∧ (¬ leaves → g'.park = g.park)) ∧
          g' = { g with gtime := g'.gtime, age := g'.age, park := g'.park, lastIssue := g'.lastIssue } ∧
          g'.lastIssue = (if residentOn s core sub n = true ∧ g.park = some .yielded then 2 * (s.cycleAt core sub + 1) + 1 else g.lastIssue) ∧
          (residentOn s core sub n = false → g'.gtime = g.gtime ∧ g'.age = g.age) ∧
          (residentOn s core sub n = true → g'.gtime = g.gtime + 1 ∧
            g'.age = if readyOn s core sub n = true then g.age + 1 else g.age)) ∧
  (∀ (s : State) (core sub : Nat), core < 192 → sub < 4 → s.subTurn core sub = true → sget .active s.power core = .active →
    (∃ a ∈ s.lacc, a.core = core ∧ a.sub = sub ∧ a.due ≤ s.cycleAt core sub) → noPush s →
    exec (.issueCycle core ⟨sub, [], []⟩) s =
      .next { s with turns := .event (.localAccessPerformed core) :: .event (.issueCycle core ⟨sub, [], []⟩) :: s.turns }) ∧
  (∀ (s : State) (core sub : Nat), core < 192 → sub < 4 → s.subTurn core sub = true → sget .active s.power core = .active →
    (∀ a ∈ s.lacc, a.core = core → a.sub = sub → s.cycleAt core sub < a.due) → (∃ g ∈ s.onSub core sub, agesNow s g) → noPush s →
    ∃ ns : List Nat, exec (.issueCycle core ⟨sub, [], []⟩) s =
      .next { s with turns := ns.map (fun n => Turn.event (.aged n)) ++ .event (.issueCycle core ⟨sub, [], []⟩) :: s.turns } ∧
      ∀ n, n ∈ ns ↔ ∃ g ∈ s.onSub core sub, agesNow s g ∧ g.gid = n) ∧
  (∀ (s : State) (core sub : Nat) (e : SoftError) (es : List SoftError) (ns : List Nat), ∃ t, erred s t e ∧
    exec (.issueCycle core ⟨sub, e :: es, ns⟩) s = exec (.issueCycle core ⟨sub, es, ns⟩) t) ∧
  (∀ (s : State) (core sub : Nat) (pre post : List RaceEntry) (e : RaceEntry), s.raceq = pre ++ e :: post →
    (∀ x ∈ pre, ¬ (x.ctx = e.ctx ∧ x.va = e.va)) → ∃ t, logged s t pre post e ∧
      exec (.issueCycle core ⟨sub, [], [pre.length]⟩) s = exec (.issueCycle core ⟨sub, [], []⟩) t) ∧
  (∀ (s : State) (g : Group), s.grp? g.gid = some g →
    (agesNow s g → ∃ t, exec (.aged g.gid) s = .next t ∧ onlyGroup s t g.gid ∧ t.grp? g.gid = some { g with agedAt := some (s.cycleOf g) }) ∧
    (¬ agesNow s g → ∃ t, exec (.aged g.gid) s = .next t ∧ onlyGroup s t g.gid ∧ t.grp? g.gid = some g)) ∧
  (∀ (s : State) (c : Ctx) (g : Grid) (k : Nat), s.ctx? c.num = some c → hasTurn s c.num → nextRecord c g → g.rcd.cols = 1 → g.rcd.rows = 1 →
    chosen s g.rcd.demand k → g.rcd.ximglen = 0 → g.rcd.wimglen = 0 → g.rcd.nparam ≤ g.rcd.params.length → g.ctx = c.num →
    ∃ t u gs c' x, exec (.distributorPlace c.num) s = .next t ∧ t.served = c.num ∧ t.mem = s.mem ∧ t.ops = s.ops ∧
      t.teams = s.teams ++ [u] ∧ t.groups = s.groups ++ gs ∧ u.core = k ∧ u.num = g.placed ∧ u.ctx = c.num ∧ u.kind = .grid g.gid ∧
      u.groups = gs.map (·.gid) ∧ gs.length = g.rcd.groups ∧
      (∀ o, sget 0 u.x o = 0 ∧ sget 0 u.w o = 0) ∧ (∀ n, u.bar n = Barrier.zero) ∧
      (∀ b n, u.owner b n = .group) ∧ u.xbytes = g.rcd.xbytes ∧ u.wbytes = g.rcd.wbytes ∧
      (∀ i y, gs[i]? = some y → startsAs g.rcd y ∧ y.num = i ∧ y.tid = u.tid ∧ y.core = k ∧ y.slot % 64 / 16 = i % 4) ∧
      t.ctx? c.num = some c' ∧ c'.grids.find? (fun y => y.gid == g.gid) = some x ∧ x.placed = g.placed + 1 ∧
      (x.queued = true ↔ g.placed + 1 < g.rcd.gridsize)) ∧
  (∀ (s : State) (n : Nat), ¬ hasTurn s n → exec (.distributorPlace n) s = .next s) ∧
  (∀ (s : State) (g : Group), s.grp? g.gid = some g → g.ended = false →
    (g.exited = false ∨ g.inFlight ≠ [] ∨ g.dep ≠ 0 → exec (.groupSlotFree g.gid) s = .next s) ∧
    (g.exited = true → g.inFlight = [] → g.dep = 0 → (∀ a ∈ s.lacc, a.gid ≠ g.gid) →
      (∃ y ∈ s.groups, y.tid = g.tid ∧ (y.ended = false ∨ y.dep ≠ 0) ∧ y.gid ≠ g.gid) → s.team? g.tid ≠ none →
      ∃ t, exec (.groupSlotFree g.gid) s = .next t ∧ onlyGroup s t g.gid ∧ t.grp? g.gid = some { g with ended := true })) ∧
  (∀ (s : State) (g : Group) (u : Team) (k : Nat) (x : Grid), s.grp? g.gid = some g → s.team? g.tid = some u → g.exited = true →
    g.ended = false → g.inFlight = [] → g.dep = 0 → (∀ a ∈ s.lacc, a.gid ≠ g.gid) →
    (∀ y ∈ s.groups, y.tid = g.tid → y.gid ≠ g.gid → y.ended = true ∧ y.dep = 0) →
    (∀ y ∈ s.groups, y.gid = g.gid → y = g) → u.held = [] → u.undo = [] → u.kind = .grid k → s.grid? u.ctx k = some x →
    let ends := fun (t : State) (x' : Grid) => t.teams = s.teams.filter (fun y => y.tid != u.tid) ∧
      t.groups = s.groups.filter (fun y => y.tid != u.tid) ∧ t.mem = s.mem ∧ t.grid? u.ctx k = some x'
    (u.det = false → x.ended + 1 ≠ x.rcd.gridsize → ∃ t, exec (.groupSlotFree g.gid) s = .next t ∧ ends t { x with ended := x.ended + 1 }) ∧
    (u.det = true → (∀ y ∈ s.groups, y.tid = g.tid → y.byExit = true) →
      ∃ t, exec (.groupSlotFree g.gid) s = .next t ∧ ends t { x with finished := u.num :: x.finished }) ∧
    (u.det = true → (∃ y ∈ s.groups, y.tid = g.tid ∧ y.byExit = false) → ∃ t, exec (.groupSlotFree g.gid) s = .next t ∧ ends t x)) ∧
  (∀ (s : State) (c : Ctx) (x : Grid) (team part : Nat) (ws : BitVec 64) (far : Option LaneAns),
    s.ctxs.findSome? (fun c => c.grids.find? fun g => g.gid == x.gid) = some x → s.grid? c.num x.gid = some x → x.ctx = c.num →
    x.ended + 1 ≠ x.rcd.gridsize →
    let i := Instr.detTeamRelease x.gid ⟨team, part, ws, far⟩
    (x.released ≠ team ∨ team ∉ x.finished → exec i s = .next s) ∧
    (x.released = team → team ∈ x.finished →
      ((∀ e ∈ x.staged, e.1 ≠ team) → ∃ t, exec i s = .next t ∧ t.mem = s.mem ∧
        t.grid? c.num x.gid = some { x with released := team + 1, ended := x.ended + 1 }) ∧
      ∀ pre post y l ls, x.staged = pre ++ (team, y) :: post → (∀ e ∈ pre, e.1 ≠ team) → y.op.lanes = l :: ls →
        (∀ m ∈ y.op.lanes, m.poison = false) →
        (∀ ty pred p, y.op.cmd = .scatter ty pred → s.laneHome l (ltySize ty) false = .mem p → s.target p = .lpddr →
          ∃ t, exec i s = .next t ∧ storedAt s t p (ltySize ty) (byteOf l.data.toNat) ∧
            t.grid? c.num x.gid = some (stagedLeft x team pre post y ls)) ∧
        (∀ ty pred f, y.op.cmd = .scatter ty pred → s.laneHome l (ltySize ty) false = .far f →
          (far = none → exec i s = .next s) ∧
          (far ≠ none → ∃ t q, exec i s = .next t ∧ t.mem = s.mem ∧ t.out = q :: s.out ∧
            t.grid? c.num x.gid = some (stagedLeft x team pre post y ls))) ∧
        ∀ cp, y.op.cmd = .copy cp → cp.red = none → part = 0 → l.res = 0 → l.cmp.toNat % 4 = 0 → 8 ≤ l.cmp.toNat → l.cmp.toNat ≤ 256 →
          l.data.toNat + l.cmp.toNat ≤ y.src.length →
          let from_ := fun k => y.src.getD (l.data.toNat + k) 0
          (∀ p, ws = BitVec.allOnes 64 → s.laneHome l l.cmp.toNat false = .mem p → s.target p = .lpddr →
            ∃ t, exec i s = .next t ∧ storedAt s t p l.cmp.toNat from_ ∧ t.grid? c.num x.gid = some (stagedLeft x team pre post y ls)) ∧
          ∀ k q, ws = 1#64 <<< k → 4 * k < l.cmp.toNat → s.laneHome l l.cmp.toNat false = .mem q → s.target (q + 4 * k) = .lpddr →
            ∃ t, exec i s = .next t ∧ storedAt s t (q + 4 * k) 4 (fun j => from_ (4 * k + j)) ∧
              t.grid? c.num x.gid = some (stagedLeft x team pre post y ({ l with res := ws } :: ls))))

/-- R33, R84, R191, R217, R218, R390, R391: a context's slice ends, it stops at that instant or has another whole slice, is saved once all it issued has taken effect, is picked for a restore and placed with only its places changed; none of it in the safe state.
Once no more slices may end before a waiting context's restore than contexts are on the device, a slice ends only by a pre-emption and
the one that has waited longest is restored first (log entry 98). A context being saved or restored counts among the 64 (log entry 114). What a save writes to the image region is free (log entry 81).
Creating a context writes its number and state into its descriptor; destroying it takes its teams, operations and trees and breaks its invocations' handles. An unbooted package creates no context (log entry 41), and
none is created or destroyed in the safe state (log entry 99): both the model's choices. -/
def Obligations.ContextLifeCycle : Prop :=
  (∀ (s : State) (c : Ctx), s.ctx? c.num = some c →
    let i := Instr.sliceExpiry c.num
    let spent := c.since.toNat + 1000 * s.mgmt.cfg.sliceUs ≤ s.clock.toNat
    let urgent := ∃ x ∈ s.ctxs, waitsIn s x ∧ 64 ≤ x.waited + s.residents
    (c.st = .resident → spent → ¬ urgent → ∃ t, exec i s = .next t ∧ t = { s with ctxs := t.ctxs } ∧
      t.ctx? c.num = some { c with slice := true, since := s.clock } ∧
      ∀ n x, n ≠ c.num → s.ctx? n = some x → (waitsIn s x → t.ctx? n = some { x with waited := x.waited + 1 }) ∧
        (¬ waitsIn s x → t.ctx? n = some x)) ∧
    (c.st ≠ .resident ∨ ¬ spent ∨ urgent → exec i s = .next s)) ∧
  (∀ (s : State) (c : Ctx), s.ctx? c.num = some c →
    let atExpiry := c.slice = true ∧ s.clock = c.since
    let urgent := fun x => waitsIn s x ∧ 64 ≤ x.waited + s.residents
    let atEnd := atExpiry ∨ (c.since.toNat + 1000 * s.mgmt.cfg.sliceUs ≤ s.clock.toNat ∧ (∃ x ∈ s.ctxs, urgent x) ∧
      ∀ x ∈ s.ctxs, waitsIn s x → x.waited < 64)
    let first := ∀ x ∈ s.ctxs, urgent x → waitsIn s c ∧ x.waited ≤ c.waited
    (s.mgmt.safe = true → exec (.preempt c.num) s = .next s ∧ exec (.restore c.num) s = .next s) ∧
    (s.mgmt.safe = false →
      (c.st = .resident → ¬ atEnd → exec (.preempt c.num) s = .next s) ∧
      (c.st = .resident → atEnd → ∃ t, exec (.preempt c.num) s = .next t ∧ entered s t c .saving ∧ t.groups = s.groups ∧ t.teams = s.teams ∧
        ∀ n x, n ≠ c.num → s.ctx? n = some x → (waitsIn s x → ¬ atExpiry → t.ctx? n = some { x with waited := x.waited + 1 }) ∧
          (¬ waitsIn s x ∨ atExpiry → t.ctx? n = some x)) ∧
      (c.st = .saving → s.drainedCtx c.num = false → exec (.preempt c.num) s = .next s) ∧
      (c.st = .saving → s.drainedCtx c.num = true → ∃ t, exec (.preempt c.num) s = .next t ∧
        t.ctx? c.num = some { c with st := .saved, waited := 0 } ∧ t.rd (c.savePA + 0x3A) = byteOf CtxSt.saved.code 0 ∧
        (let img := numAt s (c.savePA + 0x40) 8
         let len := numAt s (c.savePA + 0x48) 8
         (len = 0 → storedAt s t (c.savePA + 0x3A) 1 (byteOf CtxSt.saved.code)) ∧
         ∀ base lvl pa r w x f, 1 ≤ len → img % 4096 + len ≤ 4096 → s.walk c img = .leaf base lvl pa r w x f →
           ∀ a, a ≠ c.savePA + 0x3A → a < pa + (img - base) ∨ pa + (img - base) + len ≤ a → t.rd a = s.rd a) ∧ t.groups = s.groups ∧
        t.teams = s.teams.map fun u => if u.ctx = c.num then { u with quads := u.quads.map fun q => { q with stall := 0 } } else u) ∧
      (c.st = .saved → s.residents < 64 → first → ∃ t, exec (.restore c.num) s = .next t ∧ entered s t c .restoring ∧ t.groups = s.groups) ∧
      (c.st = .saved → 64 ≤ s.residents ∨ ¬ first → exec (.restore c.num) s = .next s) ∧
      (c.st = .restoring → s.placeAll c.num = none → exec (.restore c.num) s = .next s) ∧
      (c.st = .restoring → (s.placeAll c.num).isSome = true → ∃ t, exec (.restore c.num) s = .next t ∧
        t.ctx? c.num = some { c with st := .resident, slice := false, since := s.clock } ∧
        storedAt s t (c.savePA + 0x3A) 1 (byteOf 1) ∧ t.ops = s.ops ∧
        (∀ n g, s.grp? n = some g → ∃ g', t.grp? n = some g' ∧ movedOnly s c.num g g') ∧
        ∀ n u, s.team? n = some u → ∃ u', t.team? n = some u' ∧ u' = { u with core := u'.core }))) ∧
  (∀ (s : State) (n va pa : Nat) (desc : List Byte),
    let i := Instr.contextCreation n va pa desc
    (s.mgmt.booted = false ∨ s.mgmt.safe = true ∨ 4096 ≤ n ∨ s.ctx? n ≠ none ∨ 64 ≤ s.residents → exec i s = .next s) ∧
    (s.mgmt.booted = true → s.mgmt.safe = false → n < 4096 → s.ctx? n = none → s.residents < 64 → va % 4096 = 0 → va < 2 ^ 54 →
      pa % 4096 = 0 → s.target pa = .lpddr → desc.length = 256 →
      ∃ t c, exec i s = .next t ∧ t.ctx? n = some c ∧ c.num = n ∧ c.st = .resident ∧ c.saveVA = BitVec.ofNat 64 va ∧ c.savePA = pa ∧
        (∀ k, sget 0 c.counters k = 0) ∧ (∀ k, (c.mboxAt k).st = .closed) ∧ c.grids = [] ∧ t.teams = s.teams ∧
        storedAt s t pa 256 fun k => if k = 0x38 then byteOf n 0 else if k = 0x39 then byteOf n 1 else if k = 0x3A then 1 else desc.getD k 0)) ∧
  (∀ (s : State) (c : Ctx), s.ctx? c.num = some c →
    (s.mgmt.safe = true → exec (.contextDestruction c.num) s = .next s) ∧
    (s.mgmt.safe = false → ∃ t, exec (.contextDestruction c.num) s = .next t ∧ t.ctx? c.num = none ∧ (∀ u ∈ t.teams, u.ctx ≠ c.num) ∧
      ∀ e ∈ t.raceq, e.ctx ≠ c.num) ∧
    (s.mgmt.safe = false → (∀ y ∈ s.colls, y.ctx ≠ c.num) →
      ∃ t, exec (.contextDestruction c.num) s = .next t ∧ t.ctx? c.num = none ∧ storedAt s t (c.savePA + 0x3A) 1 (byteOf 0) ∧
        t.teams = s.teams.filter (fun u => u.ctx != c.num) ∧ (∀ o ∈ s.ops, o.ctx ≠ c.num → o ∈ t.ops) ∧
        (∀ k e, t.treeAt k = e → e.live = true → e.ctx ≠ c.num) ∧
        (∀ u ∈ s.teams, u.ctx = c.num → ∀ h x y, u.kind = .invocation h x y → h ≠ 0 → hHome h ≠ s.rank →
          .invEnd (hHome h) h (.broken 0x10) ∈ t.out) ∧
        ∀ u ∈ s.teams, u.ctx = c.num → ∀ h x y, u.kind = .invocation h x y → h ≠ 0 → hHome h = s.rank →
          ∃ o ∈ t.ops, o.cmd = .result h (.broken 0x10)))

namespace Sys2Proof.Claims

/-! ## The host's commands and the device's pages -/

/-- A command of good form (R251). -/
def goodForm (c : HostCmd) : Prop :=
  1 ≤ c.opc.toNat ∧ c.opc.toNat ≤ 4 ∧ c.rsv0 = 0 ∧ c.rsvZero = true ∧
    (if c.opc = 1 then 1 ≤ c.count.toNat ∧ c.count.toNat ≤ 64 ∧ c.payload.length = 64 * c.count.toNat
     else if c.opc = 2 then c.count = 0 ∧ c.payload.length = 320
     else if c.opc = 3 then c.count = 0 ∧ c.payload.length = 0
     else 1 ≤ c.count.toNat ∧ c.count.toNat ≤ 16 ∧ c.payload.length = 4 * c.count.toNat ∧ c.arg.toNat < 4096)

/-- A command whose peer is listed for its context (R252). -/
def listed (s : State) (c : HostCmd) : Prop := s.ctx? c.ctx.toNat ≠ none ∧ (c.peer, c.ctx.toNat) ∈ s.mgmt.cfg.peers

/-- The first command of its peer to wait: nothing of that peer waits before it (R252). -/
def itsTurn (s : State) (c : HostCmd) : Prop := ∀ d ∈ s.hostq, d.peer ≠ c.peer

/-- The step of a command: the row of its OPC. -/
def hostStep (c : HostCmd) (i : Instr) : Prop :=
  if c.opc = 1 then i = .hostQappend c else if c.opc = 2 then i = .hostLaunch c else if c.opc = 3 then i = .hostNotify c
  else if c.opc = 4 then i = .hostMsg c else i = .malformedCommand c

/-- A command has had its reply. -/
def replied (s t : State) (c : HostCmd) (status : Nat) : Prop := ∃ d, t.out = .reply c.peer c.tag (BitVec.ofNat 32 status) d :: s.out

/-- A wake by the device or another master (R254, R255). -/
def wakes (s t : State) (c : Nat) (holds : Bool) : Prop :=
  t.mem = s.mem ∧ t.ops = s.ops ∧ (if s.aperture = .active then
    t.wake = s.wake &&& ~~~(1#64 <<< c) ∧
      ∀ n y, s.grp? n = some y → t.grp? n = some (if y.park = some (.qwait c) ∧ holds = true then { y with park := none } else y)
  else t.wake = s.wake ||| (1#64 <<< c) ∧ t.groups = s.groups)

/-- A queue of the command's context (R365). -/
def hostQueue (s : State) (c : HostCmd) : Prop := c.arg.toNat < 64 ∧ (s.queue c.arg.toNat).ctx = some c.ctx.toNat

/-- The records of a QAPPEND: record `k`, word `j` (R251, R365). -/
def recordsOf (c : HostCmd) (rs : List (List Word)) : Prop :=
  rs.length = c.count.toNat ∧ ∀ k r, rs[k]? = some r → r.length = 16 ∧
    ∀ j, j < 16 → ∀ b, b < 4 → (r.getD j 0).extractLsb' (8 * b) 8 = c.payload.getD (64 * k + 4 * j + b) 0

/-- The message of a MSG (R247, R253). -/
def hostMessage (s : State) (c : HostCmd) (m : Msg) : Prop :=
  m.ctx = c.ctx.toNat ∧ m.mbx = c.arg.toNat ∧ m.words.length = c.count.toNat ∧ m.aids = [] ∧ m.src = s.rank ∧
    m.sender.toNat = 2 ^ 31 + c.peer % 2 ^ 16 ∧
    ∀ j, j < c.count.toNat → ∀ b, b < 4 → (m.words.getD j 0).extractLsb' (8 * b) 8 = c.payload.getD (4 * j + b) 0

/-- Nothing of the device but these two. -/
def onlyMgmt (s t : State) : Prop := t = { s with mgmt := t.mgmt }

end Sys2Proof.Claims

/-- R251-R253: a command is refused with status 8 where its peer is not listed for its context, else with 9 where its form is bad, with no other effect; a peer's commands keep their order;
QAPPEND appends all its records or none and wakes the channel, LAUNCH gives the record to the launch queue, NOTIFY wakes, MSG delivers, each with its status; a command that cannot end now waits. The commands that wait and are presented again are
log entry 35, and the unbooted package log entry 41, the model's choices; that a launch waits in the safe state is R390. -/
def Obligations.HostCommands : Prop :=
  (∀ (s : State) (c : HostCmd) (i : Instr), hostStep c i → s.mgmt.booted = true → itsTurn s c →
    (¬ listed s c → (∃ t, exec i s = .next t ∧ replied s t c 8 ∧ t = { s with out := t.out, free := t.free }) ∧
      ∃ t, exec (.malformedCommand c) s = .next t ∧ replied s t c 8 ∧ t = { s with out := t.out, free := t.free }) ∧
    (listed s c → ¬ goodForm c → (∃ t, exec i s = .next t ∧ replied s t c 9 ∧ t = { s with out := t.out, free := t.free }) ∧
      ∃ t, exec (.malformedCommand c) s = .next t ∧ replied s t c 9 ∧ t = { s with out := t.out, free := t.free })) ∧
  (∀ (s : State) (c d : HostCmd) (i : Instr), hostStep c i → s.mgmt.booted = true → s.hostq.find? (fun x => x.peer == c.peer) = some d → d ≠ c → 1 ≤ c.opc.toNat → c.opc.toNat ≤ 4 →
    exec i s = .next { s with hostq := s.hostq ++ [c] }) ∧
  (∀ (s : State) (c : HostCmd) (i : Instr), hostStep c i → s.mgmt.booted = true → itsTurn s c → listed s c → goodForm c →
    (c.opc = 1 ∨ c.opc = 3 → ¬ hostQueue s c → ∃ t, exec i s = .next t ∧ replied s t c 7 ∧ t = { s with out := t.out, free := t.free }) ∧
    (c.opc = 3 → hostQueue s c → ∃ t, exec i s = .next t ∧ replied s t c 0 ∧ t.queues = s.queues ∧
      wakes s t c.arg.toNat (!(s.queue c.arg.toNat).recs.isEmpty)) ∧
    (c.opc = 1 → hostQueue s c →
      let q := s.queue c.arg.toNat
      (q.recs.length + c.count.toNat ≤ q.cap → ∃ t rs, exec i s = .next t ∧ replied s t c 0 ∧ recordsOf c rs ∧
        t.queue c.arg.toNat = { q with recs := q.recs ++ rs } ∧ (∀ k, k ≠ c.arg.toNat → t.queue k = s.queue k) ∧
        wakes s t c.arg.toNat true) ∧
      (q.cap < q.recs.length + c.count.toNat → ∃ t, exec i s = .next t ∧ replied s t c 6 ∧ t = { s with out := t.out, free := t.free })) ∧
    (c.opc = 2 → ∀ x, s.ctx? c.ctx.toNat = some x →
      (s.mgmt.safe = true → x.st ≠ .resident → exec i s = .next { s with hostq := s.hostq ++ [c] }) ∧
      (s.mgmt.safe = false ∨ x.st = .resident →
        let r := parseLaunch c.payload
        let code := s.launchStatus 0 x r
        (code ≠ 0 → ∃ t, exec i s = .next t ∧ replied s t c code ∧ t = { s with out := t.out, free := t.free }) ∧
        (code = 0 → ∃ t g, exec i s = .next t ∧ replied s t c 0 ∧ t.mem = s.mem ∧ t.ctx? x.num = some { x with grids := x.grids ++ [g] } ∧
          g.rcd = r ∧ g.ctx = x.num ∧ g.placed = 0 ∧ g.ended = 0 ∧ g.queued = true))) ∧
    (c.opc = 4 → ∀ x, s.ctx? c.ctx.toNat = some x → ∃ m, hostMessage s c m ∧
      (¬ room m x → exec i s = .next { s with hostq := s.hostq ++ [c] }) ∧
      (room m x → ∃ t cause, exec i s = .next t ∧ meets s t m x cause ∧ t.mem = s.mem ∧ replied s t c (match cause with | none => 0 | some _ => 10)))) ∧
  (∀ (s : State) (c : HostCmd), s.hostq = [c] → s.mgmt.booted = true → listed s c → goodForm c → c.opc = 2 →
    (∀ x, s.ctx? c.ctx.toNat = some x → s.mgmt.safe = true → x.st ≠ .resident → exec (.hostLaunch c) s = .next s) ∧
    (s.mgmt.safe = false → ∃ t code, exec (.hostLaunch c) s = .next t ∧ t.hostq = [] ∧ replied s t c code)) ∧
  (∀ (s : State) (c : HostCmd) (i : Instr), hostStep c i → s.mgmt.booted = false → exec i s = .next s)

/-- R232, R236, R237, R254, R255, R390, R395: a store to a channel's word wakes it, at once or by the latch of a gated aperture; a window entry takes effect with the word that holds byte 0, and raises Q where
KIND changes or REV is set; RESPLIM takes 1 to 1000 only, CECOUNT clears, every other management byte keeps its value; the safe state begins and ends. That an unbooted package enters no safe state is log entry 41, and that a
zero written to some bytes of CECOUNT clears those alone log entry 110, both the model's choices. -/
def Obligations.DevicePageEffects : Prop :=
  (∀ (s : State) (c : Nat), c < 64 → ∀ b, b < 8 →
    ∃ t, exec (.notifyApertureStore (0xF000000200000 + 8 * c + b)) s = .next t ∧ wakes s t c (!(s.queue c).recs.isEmpty)) ∧
  (∀ (s : State) (c : Nat), c < 64 →
    (s.aperture = .active → s.wake.getLsbD c = true → ∃ t, exec (.wakeDelivery c) s = .next t ∧ wakes s t c (!(s.queue c).recs.isEmpty) ∧ t.wake.getLsbD c = false) ∧
    (s.aperture ≠ .active ∨ s.wake.getLsbD c = false → exec (.wakeDelivery c) s = .next s)) ∧
  (∀ (s : State) (w : Nat) (bs : List Byte), w < 4096 → bs.length = 32 →
    ∃ t e, exec (.windowEntryWrite w bs) s = .next t ∧ t.window w = ⟨e, e⟩ ∧ (∀ k, k < 32 → e.extractLsb' (8 * k) 8 = bs.getD k 0) ∧
      (∀ k, k ≠ w → t.window k = s.window k) ∧ t = { s with windows := t.windows, q := t.q } ∧
      let old := (s.window w).eff
      t.q = if e.extractLsb' 0 2 ≠ old.extractLsb' 0 2 ∨ (e.getLsbD 2 = true ∧ old.getLsbD 2 = false) then s.q + 1 else s.q) ∧
  (∀ (s : State) (w : Nat) (bs : List Byte) (k : Nat), w < 4096 → bs.length = 8 → 1 ≤ k → k < 4 →
    ∃ t, exec (.deviceRegisterWrite (0xF000000100000 + 32 * w + 8 * k) bs) s = .next t ∧ (t.window w).eff = (s.window w).eff ∧ t.q = s.q ∧
      (∀ j, j < 32 → (t.window w).raw.extractLsb' (8 * j) 8 =
        if 8 * k ≤ j ∧ j < 8 * k + 8 then bs.getD (j - 8 * k) 0 else (s.window w).raw.extractLsb' (8 * j) 8) ∧
      ∀ j, j ≠ w → t.window j = s.window j) ∧
  (∀ (s : State) (v : Word),
    (1 ≤ v.toNat → v.toNat ≤ 1000 → exec (.resplimWrite v) s = .next { s with mgmt := { s.mgmt with resplim := v } } ∧
      exec (.deviceRegisterWrite 0xF000000000038 ((List.range 4).map fun k => v.extractLsb' (8 * k) 8)) s =
        .next { s with mgmt := { s.mgmt with resplim := v } }) ∧
    (v = 0 ∨ 1000 < v.toNat → exec (.resplimWrite v) s = .next s)) ∧
  (∀ (s : State) (d : Nat), d < 4 →
    (∃ t, exec (.cecountClear d) s = .next t ∧ onlyMgmt s t ∧ t.mgmt = { s.mgmt with cecount := t.mgmt.cecount } ∧
      ∀ k, sget 0 t.mgmt.cecount k = if k = d then 0 else sget 0 s.mgmt.cecount k) ∧
    ∃ t, exec (.deviceRegisterWrite (0xF000000000040 + 8 * d) (List.replicate 8 0)) s = .next t ∧ onlyMgmt s t ∧
      t.mgmt = { s.mgmt with cecount := t.mgmt.cecount } ∧ ∀ k, sget 0 t.mgmt.cecount k = if k = d then 0 else sget 0 s.mgmt.cecount k) ∧
  (∀ (s : State) (d o n : Nat), d < 4 → 1 ≤ n → o + n ≤ 8 →
    ∃ t, exec (.deviceRegisterWrite (0xF000000000040 + 8 * d + o) (List.replicate n 0)) s = .next t ∧ onlyMgmt s t ∧
      ∀ k j, j < 8 → (sget 0 t.mgmt.cecount k).extractLsb' (8 * j) 8 =
        if k = d ∧ o ≤ j ∧ j < o + n then 0 else (sget 0 s.mgmt.cecount k).extractLsb' (8 * j) 8) ∧
  (∀ (s : State) (o : Nat) (bs : List Byte), o + bs.length ≤ 0x38 ∨ (0x60 ≤ o ∧ o + bs.length ≤ 0x1000) →
    exec (.deviceRegisterWrite (0xF000000000000 + o) bs) s = .next s) ∧
  (∀ (s : State),
    (s.mgmt.booted = true → exec .safeState s = .next { s with mgmt := { s.mgmt with safe := true } } ∧
      exec .controlPairReload s = .next { s with mgmt := { s.mgmt with safe := false } }) ∧
    (s.mgmt.booted = false → exec .safeState s = .next s ∧ exec .controlPairReload s = .next s))

namespace Sys2Proof.Claims

/-! ## Boot, firmware update, attestation and power -/

/-- The status byte that boot leaves, from the one that the previous boot left (R393); only some resources can be mapped out. -/
def statusAfter (old : Nat) (x : BootTry) (maps : Bool) : Nat :=
  if old = 3 then 3
  else if old = 1 then (if x.passAlt = true then 2 else if maps = true then 3 else 1)
  else if x.pass = true then 0 else 1

/-- What the package shows of a resource. -/
def shows (tries : List BootTry) (r : Resource) : BootTry := (tries.find? fun x => decide (x.res = r)).getD ⟨r, true, true⟩

/-- The status of a resource after this boot, and whether it works. -/
def bootSt (s : State) (tries : List BootTry) (maps : Bool) (r : Resource) : Nat :=
  statusAfter (sget 0 s.mgmt.status (resNum r)) (shows tries r) maps
def bootOk (s : State) (tries : List BootTry) (maps : Bool) (r : Resource) : Bool :=
  bootSt s tries maps r == 0 || bootSt s tries maps r == 2

/-- A resource of boot steps 2 to 6 (R392). -/
def bootStep : Resource → Prop
  | .link n => n < 8
  | .channel n => n < 128
  | .port n => n < 16
  | .cxl n => n < 4
  | .core n => n < 192
  | .engine n => n < 4
  | _ => False

/-- LPDDR bytes of a die (R394): 12 GiB for each of its working channels, none without its link. -/
def lpddrOf (s : State) (tries : List BootTry) (d : Nat) : Nat :=
  if bootOk s tries true (.link d) = true then
    12 * 2 ^ 30 * ((List.range 32).filter fun n => bootOk s tries true (.channel (32 * d + n))).length
  else 0

/-- A core that works (R394). -/
def coreWorks (s : State) (tries : List BootTry) (k : Nat) : Bool :=
  bootOk s tries true (.link (k / 48)) && bootOk s tries true (.core k)

/-- The configuration in force (R396): a record with every item in its range, else the defaults. -/
def inForce : Option CfgRec → CfgRec
  | some c =>
    if 1 ≤ c.reserved ∧ c.reserved ≤ 8 ∧ 1 ≤ c.resplim ∧ c.resplim ≤ 1000 ∧ 100 ≤ c.sliceUs ∧ c.sliceUs ≤ 100000 ∧
        (∀ q ∈ c.queues, q.1 < 64 ∧ 64 ≤ q.2.2 ∧ q.2.2 ≤ 65536 ∧ q.2.2 = 2 ^ Nat.log2 q.2.2) then c
    else CfgRec.default
  | none => CfgRec.default

/-- No program, context or memory survives: the package as it is without power (R392). -/
def emptied (t : State) : Prop :=
  t.ctxs = [] ∧ t.teams = [] ∧ t.groups = [] ∧ t.ops = [] ∧ t.clock = 0 ∧ t.q = 0 ∧ t.handles = [] ∧ t.homes = [] ∧ t.trees = [] ∧
    t.windows = [] ∧ t.colls = []

/-- A bank of flash. -/
def bankOf (m : Mgmt) (b : Nat) : Bank := sget ⟨false, 0, [], 0⟩ m.banks b

/-- Only the update moves on, with a reply. -/
def stepsTo (i : Instr) (s : State) (u : UpdSt) (code : Nat) (ok : Bool) : Prop :=
  exec i s = .next { s with mgmt := { s.mgmt with upd := u }, out := .pldm code ok [] :: s.out }

/-- The steps of an update, which only a package whose firmware runs answers, be it in the safe state (R393). -/
def ofUpdate : Instr → Prop
  | .queryDeviceIdentifiers | .getFirmwareParameters | .requestUpdate | .passComponentTable _ | .updateComponent _ | .firmwareData _
  | .imageVerify _ _ _ | .activateFirmware | .getStatus | .cancelUpdateComponent | .cancelUpdate => True
  | _ => False

/-- A verified image of this update that still stands in the inactive bank. -/
def stands (s : State) (i : Bool) : Bool := i && (bankOf s.mgmt (1 - s.mgmt.bankSel)).valid

/-- Byte `a` of a component once a piece has come, of which the transfer's earlier pieces left `old`. -/
def pieceByte (p : FwPiece) (old : Byte) (a : Nat) : Byte :=
  if p.offset ≤ a ∧ a < p.offset + p.bytes.length then p.bytes.getD (a - p.offset) 0 else old

/-- The inactive bank changes and nothing else of the banks. -/
def inactiveOnly (m m' : Mgmt) : Prop :=
  m'.bankSel = m.bankSel ∧ ∀ b, b ≠ 1 - m.bankSel → bankOf m' b = bankOf m b

/-- An update that has verified an image, not yet activated. -/
def verifiedImage : UpdSt → Bool
  | .tabled i => i | .receiving _ i _ => i | .received _ i => i | .verified i => i | _ => false

/-- A core with nothing resident on it: no team, no service group, no persistent collective group (R264, R319, R400). -/
def coreIdle (s : State) (k : Nat) : Prop :=
  (∀ u ∈ s.teams, u.core = k → u.ended = false → s.holds u.tid = false) ∧ k ∉ s.mgmt.svcCores ∧ s.mgmt.collmap.getLsbD k = false

/-- A number's bytes at an offset of the management page (R395). -/
def pageHolds (s : State) (off n x : Nat) : Prop := ∀ k, k < n → s.rdDev (0xF000000000000 + off + k) = byteOf x k

end Sys2Proof.Claims

/-- R392-R396: boot gives every resource its status from its try and the status it had, maps out what fails, and reports what is left; it hands off from the active bank, else from the other, else
stays in the safe state; the record set in flash that passed its checks is in force. The supervisor assigns the rank (log entry 6). A package that fails step 1 stays down. The management page reads as R395 lays it out. That a record set with any item out of range does not count at all
is log entry 39, the model's choice. -/
def Obligations.BootEffects : Prop :=
  (∀ (s : State) (tries : List BootTry) (rank : BitVec 10), bootOk s tries false .package = false →
    ∃ t, exec (.powerOnReset tries rank) s = .next t ∧ emptied t ∧ t.rank = rank.toNat ∧ t.mgmt.booted = false ∧ t.out = .report [1] :: s.out ∧
      t.mgmt.banks = s.mgmt.banks ∧ t.mgmt.bankSel = s.mgmt.bankSel ∧
      ∀ n, sget 0 t.mgmt.status n = if n = 0 then bootSt s tries false .package else sget 0 s.mgmt.status n) ∧
  (∀ (s : State) (tries : List BootTry) (rank : BitVec 10), bootOk s tries false .package = true →
    let ok := bootOk s tries true
    let c := inForce s.mgmt.cfgRec
    let a := s.mgmt.bankSel
    let boots := fun b => (bankOf s.mgmt b).valid = true ∧ bootOk s tries false (.bank b) = true
    ∃ t, exec (.powerOnReset tries rank) s = .next t ∧ emptied t ∧ t.rank = rank.toNat ∧ t.mgmt.banks = s.mgmt.banks ∧ t.mgmt.cfgRec = s.mgmt.cfgRec ∧
      let m := t.mgmt
      (∀ r, bootStep r → sget 0 m.status (resNum r) = bootSt s tries true r) ∧
      m.lpddrcap.toNat = ((List.range 4).map (lpddrOf s tries)).sum ∧
      (∀ d, d < 4 → (sget 0 m.diebase d).toNat = ((List.range d).map (lpddrOf s tries)).sum) ∧
      (∀ k, k < 192 → m.coremap.getLsbD k = coreWorks s tries k) ∧ (∀ p, p < 16 → m.portmap.getLsbD p = ok (.port p)) ∧
      (∀ p, p < 4 → m.cxlmap.getLsbD p = ok (.cxl p)) ∧ (∀ d, d < 4 → m.diemap.getLsbD d = ok (.link d) ∧
        m.diemap.getLsbD (4 + d) = (ok (.link d) && ok (.engine d))) ∧
      (m.bootstat.getLsbD 0 = true ↔ ∃ r, bootStep r ∧ ok r = false) ∧ (∀ j, 2 ≤ j → m.bootstat.getLsbD j = false) ∧
      m.cfg = c ∧ m.resplim.toNat = c.resplim ∧ m.clk = 1750 ∧ m.thrcount = 0 ∧ (∀ d, sget 0 m.cecount d = 0) ∧
      (∀ k, k < 192 → (m.collmap.getLsbD k = true ↔ coreWorks s tries k = true ∧
        ((List.range 192).filter fun j => decide (k < j ∧ j / 48 = k / 48) && coreWorks s tries j).length < c.reserved)) ∧
      (∀ q, t.queue q = match (c.queues.filter fun x => x.1 == q).getLast? with
        | some x => ⟨x.2.1, x.2.2, []⟩
        | none => ⟨none, 64, []⟩) ∧
      (boots a → m.booted = true ∧ m.safe = false ∧ m.bankSel = a ∧ m.bootstat.getLsbD 1 = false) ∧
      (¬ boots a → boots (1 - a) → m.booted = true ∧ m.safe = false ∧ m.bankSel = 1 - a ∧ m.bootstat.getLsbD 1 = true) ∧
      (¬ boots a → ¬ boots (1 - a) → m.booted = false ∧ m.safe = true ∧ m.bankSel = a)) ∧
  (∀ (s : State), let m := s.mgmt
    pageHolds s 0 8 m.lpddrcap.toNat ∧ pageHolds s 8 8 m.cxlcap.toNat ∧ pageHolds s 0x10 24 m.coremap.toNat ∧ pageHolds s 0x28 2 m.portmap.toNat ∧
      pageHolds s 0x2A 1 m.cxlmap.toNat ∧ pageHolds s 0x2B 1 m.diemap.toNat ∧ pageHolds s 0x2C 4 m.bootstat.toNat ∧
      pageHolds s 0x30 4 (if (bankOf m m.bankSel).valid = true then (bankOf m m.bankSel).version.toNat else 0) ∧
      pageHolds s 0x34 4 (if (bankOf m (1 - m.bankSel)).valid = true then (bankOf m (1 - m.bankSel)).version.toNat else 0) ∧
      pageHolds s 0x38 4 m.resplim.toNat ∧ pageHolds s 0x3C 4 0 ∧ (∀ d, d < 4 → pageHolds s (0x40 + 8 * d) 8 (sget 0 m.cecount d).toNat) ∧
      pageHolds s 0x60 4 m.clk ∧ pageHolds s 0x64 4 m.thrcount.toNat ∧ (∀ d, d < 4 → pageHolds s (0x68 + 8 * d) 8 (sget 0 m.diebase d).toNat) ∧
      pageHolds s 0x88 24 m.collmap.toNat ∧ pageHolds s 0xA0 352 0)

/-- R397-R401: one update at a time moves through its steps, writes only the inactive bank, checks signature and version, and switches banks at a quiesce boundary; given up or without power before that, the
inactive bank is invalid. A report is signed. Idle units are gated and ungated in order; throttling steps the clock by 25 MHz within its bounds. The PLDM command codes are the model's (log entry 37). These are the model's choices too: the configuration set counts whole (log
entry 39); cores are never gated, and the aperture with no idle condition (log entry 43); the bank before its first byte (log entry 72); the
unbooted package (log entry 41). -/
def Obligations.UpdateAndPowerEffects : Prop :=
  (∀ (s : State) (i : Instr), ofUpdate i → s.mgmt.booted = false → s.mgmt.safe = false → exec i s = .next s) ∧
  (∀ (s : State), s.mgmt.booted = true ∨ s.mgmt.safe = true →
    let upd := s.mgmt.upd
    let off := 1 - s.mgmt.bankSel
    exec .queryDeviceIdentifiers s = .next { s with out := .pldm 0x01 true Config.deviceIds :: s.out } ∧
    (∃ bs, exec .getFirmwareParameters s = .next { s with out := .pldm 0x02 true bs :: s.out } ∧ bs.length = 8 ∧
      ∀ k, k < 8 → bs.getD k 0 = s.rdDev (0xF000000000030 + k)) ∧
    (upd = .idle → stepsTo .requestUpdate s .requested 0x10 true) ∧
    (upd ≠ .idle → exec .requestUpdate s = .next { s with out := .pldm 0x10 false [0x81] :: s.out }) ∧
    (∃ b, exec .getStatus s = .next { s with out := .pldm 0x1B true [b] :: s.out }) ∧
    (∀ cs, (upd = .requested → cs ≠ [] → stepsTo (.passComponentTable cs) s (.tabled false) 0x13 true) ∧
      (upd ≠ .requested ∨ cs = [] → stepsTo (.passComponentTable cs) s upd 0x13 false)) ∧
    (∀ c i, upd = .tabled i ∨ upd = .verified i → exec (.updateComponent c) s =
      .next { s with mgmt := { s.mgmt with upd := .receiving c i false }, out := .pldm 0x15 true [] :: .pldm 0x14 true [] :: s.out }) ∧
    (∀ c, (∀ i, upd ≠ .tabled i ∧ upd ≠ .verified i) → stepsTo (.updateComponent c) s upd 0x14 false) ∧
    (∀ p, (∀ c i b, upd ≠ .receiving c i b) → exec (.firmwareData p) s = .next s) ∧
    (∀ p c i begun, upd = .receiving c i begun →
      ∃ t, exec (.firmwareData p) s = .next t ∧ t = { s with mgmt := t.mgmt, out := .pldm (if p.last = true then 0x16 else 0x15) true [] :: s.out } ∧
        t.mgmt.upd = (if p.last = true then .received c i else .receiving c i (begun || !p.bytes.isEmpty)) ∧
        (p.bytes = [] → t.mgmt = { s.mgmt with upd := t.mgmt.upd }) ∧
        (c = .image → p.bytes ≠ [] → inactiveOnly s.mgmt t.mgmt ∧ t.mgmt.cfgImage = s.mgmt.cfgImage ∧ t.mgmt.cfgRec = s.mgmt.cfgRec ∧
          let old := bankOf s.mgmt off
          let now := bankOf t.mgmt off
          now.valid = false ∧ now.len = max (if begun = true then old.len else 0) (p.offset + p.bytes.length) ∧
            ∀ a, sget 0 now.image a = pieceByte p (if begun = true then sget 0 old.image a else 0) a) ∧
        (c = .config → p.bytes ≠ [] → t.mgmt.banks = s.mgmt.banks ∧ t.mgmt.bankSel = s.mgmt.bankSel ∧ t.mgmt.cfgRec = none ∧
          t.mgmt.cfgLen = max (if begun = true then s.mgmt.cfgLen else 0) (p.offset + p.bytes.length) ∧
          ∀ a, sget 0 t.mgmt.cfgImage a = pieceByte p (if begun = true then sget 0 s.mgmt.cfgImage a else 0) a)) ∧
    (∀ sig v cfg i, upd = .received .image i →
      (sig = true → s.mgmt.cfg.minFw.toNat ≤ v.toNat → ∃ t, exec (.imageVerify sig v cfg) s = .next t ∧ inactiveOnly s.mgmt t.mgmt ∧
        bankOf t.mgmt off = { bankOf s.mgmt off with valid := true, version := v } ∧
        t.mgmt.upd = .verified true ∧ t.out = .pldm 0x18 true [] :: .pldm 0x17 true [] :: s.out) ∧
      (sig = false ∨ v.toNat < s.mgmt.cfg.minFw.toNat → stepsTo (.imageVerify sig v cfg) s (.tabled (stands s i)) 0x17 false)) ∧
    (∀ sig v cfg i, upd = .received .config i →
      (sig = true → (∃ c, cfg = some c ∧ CfgRec.ok c = true) → ∃ t, exec (.imageVerify sig v cfg) s = .next t ∧
        t.mgmt = { s.mgmt with upd := .verified (stands s i), cfgRec := cfg } ∧ t.out = .pldm 0x18 true [] :: .pldm 0x17 true [] :: s.out) ∧
      (sig = false ∨ (∀ c, cfg = some c → CfgRec.ok c = false) → stepsTo (.imageVerify sig v cfg) s (.tabled (stands s i)) 0x17 false)) ∧
    (∀ sig v cfg, (∀ c i, upd ≠ .received c i) → exec (.imageVerify sig v cfg) s = .next s) ∧
    (upd = .verified true → stepsTo .activateFirmware s .activating 0x1A true) ∧
    (upd = .verified false → stepsTo .activateFirmware s .idle 0x1A true) ∧
    ((∀ i, upd ≠ .verified i) → stepsTo .activateFirmware s upd 0x1A false) ∧
    (∀ c i, (∃ b, upd = .receiving c i b) ∨ upd = .received c i → stepsTo .cancelUpdateComponent s (.tabled (stands s i)) 0x1C true) ∧
    ((∀ c i, (∀ b, upd ≠ .receiving c i b) ∧ upd ≠ .received c i) → stepsTo .cancelUpdateComponent s upd 0x1C false) ∧
    (upd = .idle ∨ upd = .activating → stepsTo .cancelUpdate s upd 0x1D false) ∧
    (upd ≠ .idle → upd ≠ .activating → ∃ t, exec .cancelUpdate s = .next t ∧ t = { s with mgmt := t.mgmt, out := .pldm 0x1D true [] :: s.out } ∧
      t.mgmt.upd = .idle ∧ inactiveOnly s.mgmt t.mgmt ∧ (bankOf t.mgmt off).valid =
        ((bankOf s.mgmt off).valid && !verifiedImage upd))) ∧
  (∀ (s : State) (ok : Bool),
    let off := 1 - s.mgmt.bankSel
    (s.mgmt.upd ≠ .activating ∨ s.mgmt.booted = false ∨ s.mgmt.safe = true ∨ (∃ c ∈ s.ctxs, c.st = .saving ∨ c.st = .restoring) →
      exec (.bankSwitch ok) s = .next s) ∧
    (s.mgmt.upd = .activating → s.mgmt.booted = true → s.mgmt.safe = false → (∀ c ∈ s.ctxs, c.st ≠ .saving ∧ c.st ≠ .restoring) →
      ∃ t, exec (.bankSwitch ok) s = .next t ∧ t = { s with mgmt := t.mgmt } ∧ t.mgmt.banks = s.mgmt.banks ∧ t.mgmt.upd = .idle ∧ t.mgmt.safe = true ∧
        t.mgmt.bankSel = if ok = true ∧ (bankOf s.mgmt off).valid = true then off else s.mgmt.bankSel)) ∧
  (∀ (s : State), ∃ t, exec .powerLoss s = .next t ∧ emptied t ∧ t.mgmt.booted = false ∧ t.mgmt.status = s.mgmt.status ∧
    inactiveOnly s.mgmt t.mgmt ∧ t.mgmt.upd = .idle ∧ (bankOf t.mgmt (1 - s.mgmt.bankSel)).valid =
      ((bankOf s.mgmt (1 - s.mgmt.bankSel)).valid && !verifiedImage s.mgmt.upd)) ∧
  (∀ (s : State) (nonce : List Byte),
    (s.mgmt.booted = false ∨ nonce.length ≠ 32 → exec (.attestationRequest nonce) s = .next s) ∧
    (s.mgmt.booted = true → nonce.length = 32 →
      ∃ serial b0 b1, serial.length = 16 ∧ (∀ k, k < 16 → serial.getD k 0 = Config.serial.getD k 0) ∧
        let digests := Config.shake256 b0 ++ Config.shake256 b1 ++ Config.shake256 (imageBytes s.mgmt.cfgImage s.mgmt.cfgLen)
        let r := [0x47, 0x53, 0x39, 0x2D, 0x34, 0x38, 0x31, 0x36] ++ serial ++ ((List.range 8).map fun k => s.rdDev (0xF000000000030 + k)) ++
          digests ++ ((List.range 0x30).map fun k => s.rdDev (0xF000000000000 + k)) ++ nonce
        b0 = imageBytes (bankOf s.mgmt 0).image (bankOf s.mgmt 0).len ∧ b1 = imageBytes (bankOf s.mgmt 1).image (bankOf s.mgmt 1).len ∧
          exec (.attestationRequest nonce) s = .next { s with out := .report (r ++ Config.mldsaSign (Config.shake256 r)) :: s.out })) ∧
  (∀ (s : State) (k : Nat), k < 192 →
    let now := fun (x : State) => sget .active x.power k
    let becomes := fun (i : Instr) (p : PwrSt) => ∃ t, exec i s = .next t ∧ t = { s with power := t.power } ∧ now t = p ∧
      ∀ j, j ≠ k → sget .active t.power j = sget .active s.power j
    (coreIdle s k → now s = .active → becomes (.clockGate (some k)) .clockGated) ∧
    (coreIdle s k → now s = .clockGated → becomes (.powerGate (some k)) .powerGated) ∧
    (¬ coreIdle s k → exec (.clockGate (some k)) s = .next s ∧ exec (.powerGate (some k)) s = .next s) ∧
    (now s ≠ .clockGated → exec (.powerGate (some k)) s = .next s) ∧
    becomes (.ungate (some k)) .active) ∧
  (∀ (s : State),
    (s.aperture = .active → exec (.clockGate none) s = .next { s with aperture := .clockGated } ∧ exec (.ungate none) s = .next s) ∧
    (s.aperture = .clockGated → exec (.powerGate none) s = .next { s with aperture := .powerGated }) ∧
    (s.aperture ≠ .active → ∃ t, exec (.ungate none) s = .next t ∧ t = { s with aperture := .active, turns := t.turns } ∧
      t.turns = (((List.range 64).filter fun c => s.wake.getLsbD c).map fun c => Turn.event (.wakeDelivery c)) ++ s.turns)) ∧
  (∀ (s : State), let m := s.mgmt
    (∃ t, exec (.throttleStep true) s = .next t ∧ t = { s with mgmt := { m with clk := max 500 (m.clk - 25), throttled := true, thrcount := t.mgmt.thrcount } } ∧
      t.mgmt.thrcount = if m.throttled = true then m.thrcount else m.thrcount + 1) ∧
    ∃ t, exec (.throttleStep false) s = .next t ∧ t.mgmt.clk = min 1750 (m.clk + 25) ∧
      t = { s with mgmt := { m with clk := t.mgmt.clk, throttled := t.mgmt.throttled } } ∧ (t.mgmt.clk = 1750 → t.mgmt.throttled = false))

namespace Sys2Proof.Claims

/-! ## The whole machine -/

/-- The 32-byte block that holds an address is not in a core's instruction cache, and is sound. -/
def blockFresh (s : State) (core a : Nat) : Prop :=
  (∀ l ∈ s.icache, ¬ (l.core = core ∧ l.pa = a - a % 32)) ∧ s.poisoned (a - a % 32) 32 = false

/-- What the bytes from an address to its block's end decode to (R37, R38). -/
def reads (s : State) (a : Nat) : Dec := decodeBytes (a % 32) ((List.range (32 - a % 32)).map fun k => s.rd (a + k))

/-- A group whose turn it is to issue and that may: its turn, its record, resident, neither parked nor ended, on a core with power. -/
def mayIssue (s : State) (g : Group) (ts : List Turn) : Prop :=
  s.turns = .issue g.gid :: ts ∧ s.grp? g.gid = some g ∧ g.park = none ∧ g.exited = false ∧ g.ended = false ∧
    sget .active s.power g.core = .active ∧ ∃ c, s.ctx? (s.ctxOfG g) = some c ∧ c.st = .resident

/-- The state in which the instruction runs: the turn is used, the group is current, and the fetch has filled its cache. -/
def fetched (s s' : State) (g : Group) (ts : List Turn) : Prop :=
  s' = { s with turns := ts, cur := g.gid, icache := s'.icache, free := s.free + 1 }

/-- No pending trap may be taken at this boundary (R212). -/
def noneDue (g : Group) : Prop := g.chpos ≠ 0 ∨ g.sb.valid = true ∨ g.dep ≠ 0 ∨ ∀ r ∈ g.pend, r.cls ∉ [12, 11, 8, 13, 6]

/-- Place of a pending class in the order of R212. -/
def dueOrder (cls : Nat) : Nat := [12, 11, 8, 13, 6].findIdx (· == cls)

end Sys2Proof.Claims

/-- R35, R203, R284 at reset: `%clock` and Q are 0 and every generation of a home-table entry is 0; the invariant holds. That no context, group, operation or listed byte is there, that the package has not booted,
and that every other register is 0 or what log entry 6 names, is the model's reset. -/
def Obligations.ResetState : Prop :=
  State.reset.clock = 0 ∧ State.reset.q = 0 ∧ (∀ k, (sget NEntry.zero State.reset.homes k).gen = 0) ∧ Inv State.reset ∧
    (∀ a, State.reset.rd a = 0) ∧ State.reset.ctxs = [] ∧ State.reset.groups = [] ∧ State.reset.ops = [] ∧ State.reset.mgmt.booted = false ∧
    State.reset.mgmt.resplim = 4 ∧ State.reset.mgmt.clk = 1750 ∧ State.reset.mgmt.thrcount = 0 ∧ State.reset.wake = 0

/-- Every step of the package ends in a next state, and keeps memory in its canonical form, from every state in which it has it. -/
def Obligations.StepKeepsMemory : Prop :=
  (∀ s : State, ∃ t, step s = .next t) ∧ ∀ s t : State, Inv s → step s = .next t → Inv t

/-- R41-R47 and the encoding tables: every well-formed instruction encodes to a word of its length that decodes to it, whatever stands above the word; and every word that decodes is the encoding of a well-formed instruction. -/
def Obligations.DecodeAndEncodeAgree : Prop :=
  (∀ i : Instr, isEvent i = false → i.wf = true → ∃ w n, encode i = some (w, n) ∧ w < 2 ^ (8 * n) ∧ ∀ above, decode 0 (w + 2 ^ (8 * n) * above) = .ok i n) ∧
  (∀ (w n : Nat) (i : Instr), decode 0 w = .ok i n → isEvent i = false ∧ i.wf = true ∧ encode i = some (w % 2 ^ (8 * n), n)) ∧
  ∀ (off w n : Nat) (i : Instr), decode off w = .ok i n ↔ decode 0 w = .ok i n ∧ off + n ≤ 32

/-- R57, R212: a turn to issue runs the instruction that the bytes at the PC decode to; bytes that decode to none trap with class 0 and the least cause; a pending trap that may be taken
comes first, in the order of R212; a turn of an engine, a home, the firmware or the outside world runs that step. That the EPC of every deferred or asynchronous trap is the
group's PC is log entry 94, and that LANES of an illegal instruction is the mask log entry 11: the model's choices. -/
def Obligations.StepRunsDecoded : Prop :=
  (∀ (s : State) (g : Group) (ts : List Turn) (a n : Nat) (i : Instr), mayIssue s g ts → noneDue g →
    s.xlate g.core (s.ctxOfG g) g.pc.toNat .exec g.sup = .pa a → blockFresh s g.core a → reads s a = .ok i n →
    ∃ s', fetched s s' g ts ∧ step s = exec i s') ∧
  (∀ (s : State) (g : Group) (ts : List Turn) (a sub : Nat), mayIssue s g ts → noneDue g →
    s.xlate g.core (s.ctxOfG g) g.pc.toNat .exec g.sup = .pa a → blockFresh s g.core a → reads s a = .ill sub → g.dep = 0 → g.sb.valid = false →
    ∃ s' t, fetched s s' g ts ∧ step s = .next t ∧ tookTrap s' t g 0 sub g.mask) ∧
  (∀ (s : State) (g : Group) (ts : List Turn) (r : TrapRec) (before after : List TrapRec), mayIssue s g ts → g.chpos = 0 → g.sb.valid = false →
    g.dep = 0 → g.pend = before ++ r :: after → r.cls ∈ [12, 11, 8, 13, 6] → (∀ x ∈ before, x.cls ≠ r.cls) →
    (∀ x ∈ g.pend, dueOrder r.cls ≤ dueOrder x.cls) →
    ∃ t g', step s = .next t ∧ t.turns = ts ∧ t.mem = s.mem ∧ t.grp? g.gid = some g' ∧ g'.pend = before ++ after ∧ g'.sb.valid = true ∧
      g'.sb.cls = BitVec.ofNat 32 r.cls ∧ g'.sb.sub = BitVec.ofNat 32 r.sub ∧ g'.sb.lanes = r.lanes ∧ g'.sb.epc = g.pc ∧ g'.sb.cpc = r.cpc ∧
      g'.sb.sup = g.sup ∧ g'.sup = true ∧ g'.pc = s.hbase (s.ctxOfG g) + BitVec.ofNat 64 (256 * r.cls) ∧ g'.v = g.v ∧ g'.s = g.s ∧ g'.p = g.p) ∧
  (∀ (s : State) (e : Instr) (ts : List Turn), s.turns = .event e :: ts → isEvent e = true → step s = exec e { s with turns := ts })

/-- Words that the spec writes out decode to the instructions it writes beside them. -/
def Obligations.SpecWordsDecode : Prop :=
  let h : Hdr := ⟨0, false, false⟩
  decode 0 0x0060020140700380 = .ok (.scall h 7 3 (.v 2)) 8 ∧
  decode 0 0x0060020380000384 = .ok (.rftRep h 7) 8 ∧
  decode 0 0x00000000014003A4 = .ok (.fltq h 20) 8 ∧
  decode 0 0x0EC00202C0700140 = .ok (.cvt h (.v 7) .f32 .f16 none (.v 5)) 8 ∧
  decode 0 0x0000140300900A00C04100CD = .ok (.ffma h .t (.v 4) .f32 (.v 1) (.v 2) (.v 3) ⟨true, false, false, false⟩ false true) 12 ∧
  decode 0 0x00100400402001C0 = .ok (.ldx h (.v 2) .n32 (.s 0) (.v 1)) 8 ∧
  decode 0 0x00000000000020004400000500000202 = .ok (.copy h (.s 0) 10 .x false (.d1 (.ext 8192)) (some 2) 0 false) 16 ∧
  decode 0 0x0000002C0000000000000405 = .ok (.bra ⟨1, false, false⟩ 0x2C) 12 ∧
  decode 0 0x000000400000000000000019 = .ok (.mark 0x40) 12 ∧
  decode 0 0x000006016010040540500241 = .ok (.atom h (.v 5) .add .i32 (.ext 10) (.v 1) .dev (.imm 1) false) 12 ∧
  decode 0 0x10802C0300100A0080000301 = .ok (.rput h ⟨1, 2⟩ .n32 5 (.v 1) (.v 2) (.v 3)) 12 ∧
  decode 0 0x00301C08000000050A900349 = .ok (.prexp h ⟨9, 10⟩ 10 (.s 0) (.imm 3) 8) 12
end

