-- ==== Sys2Proof/Laws/State.lean ====
section
/-! SUPPORT. What the updates of the state and of a group leave in each field: one lemma per field and update, each by
`rfl`, so that no proof unfolds a record update. -/

namespace Sys2Proof.Machine

/-! ### `updG` -/

@[simp] theorem updG_turns (s : State) (k : Nat) (f : Group → Group) : (s.updG k f).turns = s.turns := rfl
@[simp] theorem updG_free (s : State) (k : Nat) (f : Group → Group) : (s.updG k f).free = s.free := rfl
@[simp] theorem updG_cur (s : State) (k : Nat) (f : Group → Group) : (s.updG k f).cur = s.cur := rfl
@[simp] theorem updG_cycles (s : State) (k : Nat) (f : Group → Group) : (s.updG k f).cycles = s.cycles := rfl
@[simp] theorem updG_clock (s : State) (k : Nat) (f : Group → Group) : (s.updG k f).clock = s.clock := rfl
@[simp] theorem updG_rank (s : State) (k : Nat) (f : Group → Group) : (s.updG k f).rank = s.rank := rfl
@[simp] theorem updG_q (s : State) (k : Nat) (f : Group → Group) : (s.updG k f).q = s.q := rfl
@[simp] theorem updG_mem (s : State) (k : Nat) (f : Group → Group) : (s.updG k f).mem = s.mem := rfl
@[simp] theorem updG_poison (s : State) (k : Nat) (f : Group → Group) : (s.updG k f).poison = s.poison := rfl
@[simp] theorem updG_ctxs (s : State) (k : Nat) (f : Group → Group) : (s.updG k f).ctxs = s.ctxs := rfl
@[simp] theorem updG_teams (s : State) (k : Nat) (f : Group → Group) : (s.updG k f).teams = s.teams := rfl
@[simp] theorem updG_clusters (s : State) (k : Nat) (f : Group → Group) : (s.updG k f).clusters = s.clusters := rfl
@[simp] theorem updG_ops (s : State) (k : Nat) (f : Group → Group) : (s.updG k f).ops = s.ops := rfl
@[simp] theorem updG_lacc (s : State) (k : Nat) (f : Group → Group) : (s.updG k f).lacc = s.lacc := rfl
@[simp] theorem updG_nextId (s : State) (k : Nat) (f : Group → Group) : (s.updG k f).nextId = s.nextId := rfl
@[simp] theorem updG_seqs (s : State) (k : Nat) (f : Group → Group) : (s.updG k f).seqs = s.seqs := rfl
@[simp] theorem updG_tlb (s : State) (k : Nat) (f : Group → Group) : (s.updG k f).tlb = s.tlb := rfl
@[simp] theorem updG_icache (s : State) (k : Nat) (f : Group → Group) : (s.updG k f).icache = s.icache := rfl
@[simp] theorem updG_windows (s : State) (k : Nat) (f : Group → Group) : (s.updG k f).windows = s.windows := rfl
@[simp] theorem updG_served (s : State) (k : Nat) (f : Group → Group) : (s.updG k f).served = s.served := rfl
@[simp] theorem updG_handles (s : State) (k : Nat) (f : Group → Group) : (s.updG k f).handles = s.handles := rfl
@[simp] theorem updG_homes (s : State) (k : Nat) (f : Group → Group) : (s.updG k f).homes = s.homes := rfl
@[simp] theorem updG_imports (s : State) (k : Nat) (f : Group → Group) : (s.updG k f).imports = s.imports := rfl
@[simp] theorem updG_queues (s : State) (k : Nat) (f : Group → Group) : (s.updG k f).queues = s.queues := rfl
@[simp] theorem updG_hostq (s : State) (k : Nat) (f : Group → Group) : (s.updG k f).hostq = s.hostq := rfl
@[simp] theorem updG_wake (s : State) (k : Nat) (f : Group → Group) : (s.updG k f).wake = s.wake := rfl
@[simp] theorem updG_aperture (s : State) (k : Nat) (f : Group → Group) : (s.updG k f).aperture = s.aperture := rfl
@[simp] theorem updG_power (s : State) (k : Nat) (f : Group → Group) : (s.updG k f).power = s.power := rfl
@[simp] theorem updG_trees (s : State) (k : Nat) (f : Group → Group) : (s.updG k f).trees = s.trees := rfl
@[simp] theorem updG_colls (s : State) (k : Nat) (f : Group → Group) : (s.updG k f).colls = s.colls := rfl
@[simp] theorem updG_sigs (s : State) (k : Nat) (f : Group → Group) : (s.updG k f).sigs = s.sigs := rfl
@[simp] theorem updG_tokens (s : State) (k : Nat) (f : Group → Group) : (s.updG k f).tokens = s.tokens := rfl
@[simp] theorem updG_race (s : State) (k : Nat) (f : Group → Group) : (s.updG k f).race = s.race := rfl
@[simp] theorem updG_raceq (s : State) (k : Nat) (f : Group → Group) : (s.updG k f).raceq = s.raceq := rfl
@[simp] theorem updG_svc (s : State) (k : Nat) (f : Group → Group) : (s.updG k f).svc = s.svc := rfl
@[simp] theorem updG_foreign (s : State) (k : Nat) (f : Group → Group) : (s.updG k f).foreign = s.foreign := rfl
@[simp] theorem updG_landings (s : State) (k : Nat) (f : Group → Group) : (s.updG k f).landings = s.landings := rfl
@[simp] theorem updG_heard (s : State) (k : Nat) (f : Group → Group) : (s.updG k f).heard = s.heard := rfl
@[simp] theorem updG_reached (s : State) (k : Nat) (f : Group → Group) : (s.updG k f).reached = s.reached := rfl
@[simp] theorem updG_late (s : State) (k : Nat) (f : Group → Group) : (s.updG k f).late = s.late := rfl
@[simp] theorem updG_rxSeq (s : State) (k : Nat) (f : Group → Group) : (s.updG k f).rxSeq = s.rxSeq := rfl
@[simp] theorem updG_out (s : State) (k : Nat) (f : Group → Group) : (s.updG k f).out = s.out := rfl
@[simp] theorem updG_mgmt (s : State) (k : Nat) (f : Group → Group) : (s.updG k f).mgmt = s.mgmt := rfl

/-! ### `setG` -/

@[simp] theorem setG_turns (s : State) (g : Group) : (s.setG g).turns = s.turns := rfl
@[simp] theorem setG_free (s : State) (g : Group) : (s.setG g).free = s.free := rfl
@[simp] theorem setG_cur (s : State) (g : Group) : (s.setG g).cur = s.cur := rfl
@[simp] theorem setG_cycles (s : State) (g : Group) : (s.setG g).cycles = s.cycles := rfl
@[simp] theorem setG_clock (s : State) (g : Group) : (s.setG g).clock = s.clock := rfl
@[simp] theorem setG_rank (s : State) (g : Group) : (s.setG g).rank = s.rank := rfl
@[simp] theorem setG_q (s : State) (g : Group) : (s.setG g).q = s.q := rfl
@[simp] theorem setG_mem (s : State) (g : Group) : (s.setG g).mem = s.mem := rfl
@[simp] theorem setG_poison (s : State) (g : Group) : (s.setG g).poison = s.poison := rfl
@[simp] theorem setG_ctxs (s : State) (g : Group) : (s.setG g).ctxs = s.ctxs := rfl
@[simp] theorem setG_teams (s : State) (g : Group) : (s.setG g).teams = s.teams := rfl
@[simp] theorem setG_clusters (s : State) (g : Group) : (s.setG g).clusters = s.clusters := rfl
@[simp] theorem setG_ops (s : State) (g : Group) : (s.setG g).ops = s.ops := rfl
@[simp] theorem setG_lacc (s : State) (g : Group) : (s.setG g).lacc = s.lacc := rfl
@[simp] theorem setG_nextId (s : State) (g : Group) : (s.setG g).nextId = s.nextId := rfl
@[simp] theorem setG_seqs (s : State) (g : Group) : (s.setG g).seqs = s.seqs := rfl
@[simp] theorem setG_tlb (s : State) (g : Group) : (s.setG g).tlb = s.tlb := rfl
@[simp] theorem setG_icache (s : State) (g : Group) : (s.setG g).icache = s.icache := rfl
@[simp] theorem setG_windows (s : State) (g : Group) : (s.setG g).windows = s.windows := rfl
@[simp] theorem setG_served (s : State) (g : Group) : (s.setG g).served = s.served := rfl
@[simp] theorem setG_handles (s : State) (g : Group) : (s.setG g).handles = s.handles := rfl
@[simp] theorem setG_homes (s : State) (g : Group) : (s.setG g).homes = s.homes := rfl
@[simp] theorem setG_imports (s : State) (g : Group) : (s.setG g).imports = s.imports := rfl
@[simp] theorem setG_queues (s : State) (g : Group) : (s.setG g).queues = s.queues := rfl
@[simp] theorem setG_hostq (s : State) (g : Group) : (s.setG g).hostq = s.hostq := rfl
@[simp] theorem setG_wake (s : State) (g : Group) : (s.setG g).wake = s.wake := rfl
@[simp] theorem setG_aperture (s : State) (g : Group) : (s.setG g).aperture = s.aperture := rfl
@[simp] theorem setG_power (s : State) (g : Group) : (s.setG g).power = s.power := rfl
@[simp] theorem setG_trees (s : State) (g : Group) : (s.setG g).trees = s.trees := rfl
@[simp] theorem setG_colls (s : State) (g : Group) : (s.setG g).colls = s.colls := rfl
@[simp] theorem setG_sigs (s : State) (g : Group) : (s.setG g).sigs = s.sigs := rfl
@[simp] theorem setG_tokens (s : State) (g : Group) : (s.setG g).tokens = s.tokens := rfl
@[simp] theorem setG_race (s : State) (g : Group) : (s.setG g).race = s.race := rfl
@[simp] theorem setG_raceq (s : State) (g : Group) : (s.setG g).raceq = s.raceq := rfl
@[simp] theorem setG_svc (s : State) (g : Group) : (s.setG g).svc = s.svc := rfl
@[simp] theorem setG_foreign (s : State) (g : Group) : (s.setG g).foreign = s.foreign := rfl
@[simp] theorem setG_landings (s : State) (g : Group) : (s.setG g).landings = s.landings := rfl
@[simp] theorem setG_heard (s : State) (g : Group) : (s.setG g).heard = s.heard := rfl
@[simp] theorem setG_reached (s : State) (g : Group) : (s.setG g).reached = s.reached := rfl
@[simp] theorem setG_late (s : State) (g : Group) : (s.setG g).late = s.late := rfl
@[simp] theorem setG_rxSeq (s : State) (g : Group) : (s.setG g).rxSeq = s.rxSeq := rfl
@[simp] theorem setG_out (s : State) (g : Group) : (s.setG g).out = s.out := rfl
@[simp] theorem setG_mgmt (s : State) (g : Group) : (s.setG g).mgmt = s.mgmt := rfl

/-! ### `updT` -/

@[simp] theorem updT_turns (s : State) (k : Nat) (f : Team → Team) : (s.updT k f).turns = s.turns := rfl
@[simp] theorem updT_free (s : State) (k : Nat) (f : Team → Team) : (s.updT k f).free = s.free := rfl
@[simp] theorem updT_cur (s : State) (k : Nat) (f : Team → Team) : (s.updT k f).cur = s.cur := rfl
@[simp] theorem updT_cycles (s : State) (k : Nat) (f : Team → Team) : (s.updT k f).cycles = s.cycles := rfl
@[simp] theorem updT_clock (s : State) (k : Nat) (f : Team → Team) : (s.updT k f).clock = s.clock := rfl
@[simp] theorem updT_rank (s : State) (k : Nat) (f : Team → Team) : (s.updT k f).rank = s.rank := rfl
@[simp] theorem updT_q (s : State) (k : Nat) (f : Team → Team) : (s.updT k f).q = s.q := rfl
@[simp] theorem updT_mem (s : State) (k : Nat) (f : Team → Team) : (s.updT k f).mem = s.mem := rfl
@[simp] theorem updT_poison (s : State) (k : Nat) (f : Team → Team) : (s.updT k f).poison = s.poison := rfl
@[simp] theorem updT_ctxs (s : State) (k : Nat) (f : Team → Team) : (s.updT k f).ctxs = s.ctxs := rfl
@[simp] theorem updT_groups (s : State) (k : Nat) (f : Team → Team) : (s.updT k f).groups = s.groups := rfl
@[simp] theorem updT_clusters (s : State) (k : Nat) (f : Team → Team) : (s.updT k f).clusters = s.clusters := rfl
@[simp] theorem updT_ops (s : State) (k : Nat) (f : Team → Team) : (s.updT k f).ops = s.ops := rfl
@[simp] theorem updT_lacc (s : State) (k : Nat) (f : Team → Team) : (s.updT k f).lacc = s.lacc := rfl
@[simp] theorem updT_nextId (s : State) (k : Nat) (f : Team → Team) : (s.updT k f).nextId = s.nextId := rfl
@[simp] theorem updT_seqs (s : State) (k : Nat) (f : Team → Team) : (s.updT k f).seqs = s.seqs := rfl
@[simp] theorem updT_tlb (s : State) (k : Nat) (f : Team → Team) : (s.updT k f).tlb = s.tlb := rfl
@[simp] theorem updT_icache (s : State) (k : Nat) (f : Team → Team) : (s.updT k f).icache = s.icache := rfl
@[simp] theorem updT_windows (s : State) (k : Nat) (f : Team → Team) : (s.updT k f).windows = s.windows := rfl
@[simp] theorem updT_served (s : State) (k : Nat) (f : Team → Team) : (s.updT k f).served = s.served := rfl
@[simp] theorem updT_handles (s : State) (k : Nat) (f : Team → Team) : (s.updT k f).handles = s.handles := rfl
@[simp] theorem updT_homes (s : State) (k : Nat) (f : Team → Team) : (s.updT k f).homes = s.homes := rfl
@[simp] theorem updT_imports (s : State) (k : Nat) (f : Team → Team) : (s.updT k f).imports = s.imports := rfl
@[simp] theorem updT_queues (s : State) (k : Nat) (f : Team → Team) : (s.updT k f).queues = s.queues := rfl
@[simp] theorem updT_hostq (s : State) (k : Nat) (f : Team → Team) : (s.updT k f).hostq = s.hostq := rfl
@[simp] theorem updT_wake (s : State) (k : Nat) (f : Team → Team) : (s.updT k f).wake = s.wake := rfl
@[simp] theorem updT_aperture (s : State) (k : Nat) (f : Team → Team) : (s.updT k f).aperture = s.aperture := rfl
@[simp] theorem updT_power (s : State) (k : Nat) (f : Team → Team) : (s.updT k f).power = s.power := rfl
@[simp] theorem updT_trees (s : State) (k : Nat) (f : Team → Team) : (s.updT k f).trees = s.trees := rfl
@[simp] theorem updT_colls (s : State) (k : Nat) (f : Team → Team) : (s.updT k f).colls = s.colls := rfl
@[simp] theorem updT_sigs (s : State) (k : Nat) (f : Team → Team) : (s.updT k f).sigs = s.sigs := rfl
@[simp] theorem updT_tokens (s : State) (k : Nat) (f : Team → Team) : (s.updT k f).tokens = s.tokens := rfl
@[simp] theorem updT_race (s : State) (k : Nat) (f : Team → Team) : (s.updT k f).race = s.race := rfl
@[simp] theorem updT_raceq (s : State) (k : Nat) (f : Team → Team) : (s.updT k f).raceq = s.raceq := rfl
@[simp] theorem updT_svc (s : State) (k : Nat) (f : Team → Team) : (s.updT k f).svc = s.svc := rfl
@[simp] theorem updT_foreign (s : State) (k : Nat) (f : Team → Team) : (s.updT k f).foreign = s.foreign := rfl
@[simp] theorem updT_landings (s : State) (k : Nat) (f : Team → Team) : (s.updT k f).landings = s.landings := rfl
@[simp] theorem updT_heard (s : State) (k : Nat) (f : Team → Team) : (s.updT k f).heard = s.heard := rfl
@[simp] theorem updT_reached (s : State) (k : Nat) (f : Team → Team) : (s.updT k f).reached = s.reached := rfl
@[simp] theorem updT_late (s : State) (k : Nat) (f : Team → Team) : (s.updT k f).late = s.late := rfl
@[simp] theorem updT_rxSeq (s : State) (k : Nat) (f : Team → Team) : (s.updT k f).rxSeq = s.rxSeq := rfl
@[simp] theorem updT_out (s : State) (k : Nat) (f : Team → Team) : (s.updT k f).out = s.out := rfl
@[simp] theorem updT_mgmt (s : State) (k : Nat) (f : Team → Team) : (s.updT k f).mgmt = s.mgmt := rfl

/-! ### `updC` -/

@[simp] theorem updC_turns (s : State) (k : Nat) (f : Ctx → Ctx) : (s.updC k f).turns = s.turns := rfl
@[simp] theorem updC_free (s : State) (k : Nat) (f : Ctx → Ctx) : (s.updC k f).free = s.free := rfl
@[simp] theorem updC_cur (s : State) (k : Nat) (f : Ctx → Ctx) : (s.updC k f).cur = s.cur := rfl
@[simp] theorem updC_cycles (s : State) (k : Nat) (f : Ctx → Ctx) : (s.updC k f).cycles = s.cycles := rfl
@[simp] theorem updC_clock (s : State) (k : Nat) (f : Ctx → Ctx) : (s.updC k f).clock = s.clock := rfl
@[simp] theorem updC_rank (s : State) (k : Nat) (f : Ctx → Ctx) : (s.updC k f).rank = s.rank := rfl
@[simp] theorem updC_q (s : State) (k : Nat) (f : Ctx → Ctx) : (s.updC k f).q = s.q := rfl
@[simp] theorem updC_mem (s : State) (k : Nat) (f : Ctx → Ctx) : (s.updC k f).mem = s.mem := rfl
@[simp] theorem updC_poison (s : State) (k : Nat) (f : Ctx → Ctx) : (s.updC k f).poison = s.poison := rfl
@[simp] theorem updC_teams (s : State) (k : Nat) (f : Ctx → Ctx) : (s.updC k f).teams = s.teams := rfl
@[simp] theorem updC_groups (s : State) (k : Nat) (f : Ctx → Ctx) : (s.updC k f).groups = s.groups := rfl
@[simp] theorem updC_clusters (s : State) (k : Nat) (f : Ctx → Ctx) : (s.updC k f).clusters = s.clusters := rfl
@[simp] theorem updC_ops (s : State) (k : Nat) (f : Ctx → Ctx) : (s.updC k f).ops = s.ops := rfl
@[simp] theorem updC_lacc (s : State) (k : Nat) (f : Ctx → Ctx) : (s.updC k f).lacc = s.lacc := rfl
@[simp] theorem updC_nextId (s : State) (k : Nat) (f : Ctx → Ctx) : (s.updC k f).nextId = s.nextId := rfl
@[simp] theorem updC_seqs (s : State) (k : Nat) (f : Ctx → Ctx) : (s.updC k f).seqs = s.seqs := rfl
@[simp] theorem updC_tlb (s : State) (k : Nat) (f : Ctx → Ctx) : (s.updC k f).tlb = s.tlb := rfl
@[simp] theorem updC_icache (s : State) (k : Nat) (f : Ctx → Ctx) : (s.updC k f).icache = s.icache := rfl
@[simp] theorem updC_windows (s : State) (k : Nat) (f : Ctx → Ctx) : (s.updC k f).windows = s.windows := rfl
@[simp] theorem updC_served (s : State) (k : Nat) (f : Ctx → Ctx) : (s.updC k f).served = s.served := rfl
@[simp] theorem updC_handles (s : State) (k : Nat) (f : Ctx → Ctx) : (s.updC k f).handles = s.handles := rfl
@[simp] theorem updC_homes (s : State) (k : Nat) (f : Ctx → Ctx) : (s.updC k f).homes = s.homes := rfl
@[simp] theorem updC_imports (s : State) (k : Nat) (f : Ctx → Ctx) : (s.updC k f).imports = s.imports := rfl
@[simp] theorem updC_queues (s : State) (k : Nat) (f : Ctx → Ctx) : (s.updC k f).queues = s.queues := rfl
@[simp] theorem updC_hostq (s : State) (k : Nat) (f : Ctx → Ctx) : (s.updC k f).hostq = s.hostq := rfl
@[simp] theorem updC_wake (s : State) (k : Nat) (f : Ctx → Ctx) : (s.updC k f).wake = s.wake := rfl
@[simp] theorem updC_aperture (s : State) (k : Nat) (f : Ctx → Ctx) : (s.updC k f).aperture = s.aperture := rfl
@[simp] theorem updC_power (s : State) (k : Nat) (f : Ctx → Ctx) : (s.updC k f).power = s.power := rfl
@[simp] theorem updC_trees (s : State) (k : Nat) (f : Ctx → Ctx) : (s.updC k f).trees = s.trees := rfl
@[simp] theorem updC_colls (s : State) (k : Nat) (f : Ctx → Ctx) : (s.updC k f).colls = s.colls := rfl
@[simp] theorem updC_sigs (s : State) (k : Nat) (f : Ctx → Ctx) : (s.updC k f).sigs = s.sigs := rfl
@[simp] theorem updC_tokens (s : State) (k : Nat) (f : Ctx → Ctx) : (s.updC k f).tokens = s.tokens := rfl
@[simp] theorem updC_race (s : State) (k : Nat) (f : Ctx → Ctx) : (s.updC k f).race = s.race := rfl
@[simp] theorem updC_raceq (s : State) (k : Nat) (f : Ctx → Ctx) : (s.updC k f).raceq = s.raceq := rfl
@[simp] theorem updC_svc (s : State) (k : Nat) (f : Ctx → Ctx) : (s.updC k f).svc = s.svc := rfl
@[simp] theorem updC_foreign (s : State) (k : Nat) (f : Ctx → Ctx) : (s.updC k f).foreign = s.foreign := rfl
@[simp] theorem updC_landings (s : State) (k : Nat) (f : Ctx → Ctx) : (s.updC k f).landings = s.landings := rfl
@[simp] theorem updC_heard (s : State) (k : Nat) (f : Ctx → Ctx) : (s.updC k f).heard = s.heard := rfl
@[simp] theorem updC_reached (s : State) (k : Nat) (f : Ctx → Ctx) : (s.updC k f).reached = s.reached := rfl
@[simp] theorem updC_late (s : State) (k : Nat) (f : Ctx → Ctx) : (s.updC k f).late = s.late := rfl
@[simp] theorem updC_rxSeq (s : State) (k : Nat) (f : Ctx → Ctx) : (s.updC k f).rxSeq = s.rxSeq := rfl
@[simp] theorem updC_out (s : State) (k : Nat) (f : Ctx → Ctx) : (s.updC k f).out = s.out := rfl
@[simp] theorem updC_mgmt (s : State) (k : Nat) (f : Ctx → Ctx) : (s.updC k f).mgmt = s.mgmt := rfl

/-! ### `updOp` -/

@[simp] theorem updOp_turns (s : State) (k : Nat) (f : Op → Op) : (s.updOp k f).turns = s.turns := rfl
@[simp] theorem updOp_free (s : State) (k : Nat) (f : Op → Op) : (s.updOp k f).free = s.free := rfl
@[simp] theorem updOp_cur (s : State) (k : Nat) (f : Op → Op) : (s.updOp k f).cur = s.cur := rfl
@[simp] theorem updOp_cycles (s : State) (k : Nat) (f : Op → Op) : (s.updOp k f).cycles = s.cycles := rfl
@[simp] theorem updOp_clock (s : State) (k : Nat) (f : Op → Op) : (s.updOp k f).clock = s.clock := rfl
@[simp] theorem updOp_rank (s : State) (k : Nat) (f : Op → Op) : (s.updOp k f).rank = s.rank := rfl
@[simp] theorem updOp_q (s : State) (k : Nat) (f : Op → Op) : (s.updOp k f).q = s.q := rfl
@[simp] theorem updOp_mem (s : State) (k : Nat) (f : Op → Op) : (s.updOp k f).mem = s.mem := rfl
@[simp] theorem updOp_poison (s : State) (k : Nat) (f : Op → Op) : (s.updOp k f).poison = s.poison := rfl
@[simp] theorem updOp_ctxs (s : State) (k : Nat) (f : Op → Op) : (s.updOp k f).ctxs = s.ctxs := rfl
@[simp] theorem updOp_teams (s : State) (k : Nat) (f : Op → Op) : (s.updOp k f).teams = s.teams := rfl
@[simp] theorem updOp_groups (s : State) (k : Nat) (f : Op → Op) : (s.updOp k f).groups = s.groups := rfl
@[simp] theorem updOp_clusters (s : State) (k : Nat) (f : Op → Op) : (s.updOp k f).clusters = s.clusters := rfl
@[simp] theorem updOp_lacc (s : State) (k : Nat) (f : Op → Op) : (s.updOp k f).lacc = s.lacc := rfl
@[simp] theorem updOp_nextId (s : State) (k : Nat) (f : Op → Op) : (s.updOp k f).nextId = s.nextId := rfl
@[simp] theorem updOp_seqs (s : State) (k : Nat) (f : Op → Op) : (s.updOp k f).seqs = s.seqs := rfl
@[simp] theorem updOp_tlb (s : State) (k : Nat) (f : Op → Op) : (s.updOp k f).tlb = s.tlb := rfl
@[simp] theorem updOp_icache (s : State) (k : Nat) (f : Op → Op) : (s.updOp k f).icache = s.icache := rfl
@[simp] theorem updOp_windows (s : State) (k : Nat) (f : Op → Op) : (s.updOp k f).windows = s.windows := rfl
@[simp] theorem updOp_served (s : State) (k : Nat) (f : Op → Op) : (s.updOp k f).served = s.served := rfl
@[simp] theorem updOp_handles (s : State) (k : Nat) (f : Op → Op) : (s.updOp k f).handles = s.handles := rfl
@[simp] theorem updOp_homes (s : State) (k : Nat) (f : Op → Op) : (s.updOp k f).homes = s.homes := rfl
@[simp] theorem updOp_imports (s : State) (k : Nat) (f : Op → Op) : (s.updOp k f).imports = s.imports := rfl
@[simp] theorem updOp_queues (s : State) (k : Nat) (f : Op → Op) : (s.updOp k f).queues = s.queues := rfl
@[simp] theorem updOp_hostq (s : State) (k : Nat) (f : Op → Op) : (s.updOp k f).hostq = s.hostq := rfl
@[simp] theorem updOp_wake (s : State) (k : Nat) (f : Op → Op) : (s.updOp k f).wake = s.wake := rfl
@[simp] theorem updOp_aperture (s : State) (k : Nat) (f : Op → Op) : (s.updOp k f).aperture = s.aperture := rfl
@[simp] theorem updOp_power (s : State) (k : Nat) (f : Op → Op) : (s.updOp k f).power = s.power := rfl
@[simp] theorem updOp_trees (s : State) (k : Nat) (f : Op → Op) : (s.updOp k f).trees = s.trees := rfl
@[simp] theorem updOp_colls (s : State) (k : Nat) (f : Op → Op) : (s.updOp k f).colls = s.colls := rfl
@[simp] theorem updOp_sigs (s : State) (k : Nat) (f : Op → Op) : (s.updOp k f).sigs = s.sigs := rfl
@[simp] theorem updOp_tokens (s : State) (k : Nat) (f : Op → Op) : (s.updOp k f).tokens = s.tokens := rfl
@[simp] theorem updOp_race (s : State) (k : Nat) (f : Op → Op) : (s.updOp k f).race = s.race := rfl
@[simp] theorem updOp_raceq (s : State) (k : Nat) (f : Op → Op) : (s.updOp k f).raceq = s.raceq := rfl
@[simp] theorem updOp_svc (s : State) (k : Nat) (f : Op → Op) : (s.updOp k f).svc = s.svc := rfl
@[simp] theorem updOp_foreign (s : State) (k : Nat) (f : Op → Op) : (s.updOp k f).foreign = s.foreign := rfl
@[simp] theorem updOp_landings (s : State) (k : Nat) (f : Op → Op) : (s.updOp k f).landings = s.landings := rfl
@[simp] theorem updOp_heard (s : State) (k : Nat) (f : Op → Op) : (s.updOp k f).heard = s.heard := rfl
@[simp] theorem updOp_reached (s : State) (k : Nat) (f : Op → Op) : (s.updOp k f).reached = s.reached := rfl
@[simp] theorem updOp_late (s : State) (k : Nat) (f : Op → Op) : (s.updOp k f).late = s.late := rfl
@[simp] theorem updOp_rxSeq (s : State) (k : Nat) (f : Op → Op) : (s.updOp k f).rxSeq = s.rxSeq := rfl
@[simp] theorem updOp_out (s : State) (k : Nat) (f : Op → Op) : (s.updOp k f).out = s.out := rfl
@[simp] theorem updOp_mgmt (s : State) (k : Nat) (f : Op → Op) : (s.updOp k f).mgmt = s.mgmt := rfl

/-! ### `dropOp` -/

@[simp] theorem dropOp_turns (s : State) (k : Nat) : (s.dropOp k).turns = s.turns := rfl
@[simp] theorem dropOp_free (s : State) (k : Nat) : (s.dropOp k).free = s.free := rfl
@[simp] theorem dropOp_cur (s : State) (k : Nat) : (s.dropOp k).cur = s.cur := rfl
@[simp] theorem dropOp_cycles (s : State) (k : Nat) : (s.dropOp k).cycles = s.cycles := rfl
@[simp] theorem dropOp_clock (s : State) (k : Nat) : (s.dropOp k).clock = s.clock := rfl
@[simp] theorem dropOp_rank (s : State) (k : Nat) : (s.dropOp k).rank = s.rank := rfl
@[simp] theorem dropOp_q (s : State) (k : Nat) : (s.dropOp k).q = s.q := rfl
@[simp] theorem dropOp_mem (s : State) (k : Nat) : (s.dropOp k).mem = s.mem := rfl
@[simp] theorem dropOp_poison (s : State) (k : Nat) : (s.dropOp k).poison = s.poison := rfl
@[simp] theorem dropOp_ctxs (s : State) (k : Nat) : (s.dropOp k).ctxs = s.ctxs := rfl
@[simp] theorem dropOp_teams (s : State) (k : Nat) : (s.dropOp k).teams = s.teams := rfl
@[simp] theorem dropOp_groups (s : State) (k : Nat) : (s.dropOp k).groups = s.groups := rfl
@[simp] theorem dropOp_clusters (s : State) (k : Nat) : (s.dropOp k).clusters = s.clusters := rfl
@[simp] theorem dropOp_lacc (s : State) (k : Nat) : (s.dropOp k).lacc = s.lacc := rfl
@[simp] theorem dropOp_nextId (s : State) (k : Nat) : (s.dropOp k).nextId = s.nextId := rfl
@[simp] theorem dropOp_seqs (s : State) (k : Nat) : (s.dropOp k).seqs = s.seqs := rfl
@[simp] theorem dropOp_tlb (s : State) (k : Nat) : (s.dropOp k).tlb = s.tlb := rfl
@[simp] theorem dropOp_icache (s : State) (k : Nat) : (s.dropOp k).icache = s.icache := rfl
@[simp] theorem dropOp_windows (s : State) (k : Nat) : (s.dropOp k).windows = s.windows := rfl
@[simp] theorem dropOp_served (s : State) (k : Nat) : (s.dropOp k).served = s.served := rfl
@[simp] theorem dropOp_handles (s : State) (k : Nat) : (s.dropOp k).handles = s.handles := rfl
@[simp] theorem dropOp_homes (s : State) (k : Nat) : (s.dropOp k).homes = s.homes := rfl
@[simp] theorem dropOp_imports (s : State) (k : Nat) : (s.dropOp k).imports = s.imports := rfl
@[simp] theorem dropOp_queues (s : State) (k : Nat) : (s.dropOp k).queues = s.queues := rfl
@[simp] theorem dropOp_hostq (s : State) (k : Nat) : (s.dropOp k).hostq = s.hostq := rfl
@[simp] theorem dropOp_wake (s : State) (k : Nat) : (s.dropOp k).wake = s.wake := rfl
@[simp] theorem dropOp_aperture (s : State) (k : Nat) : (s.dropOp k).aperture = s.aperture := rfl
@[simp] theorem dropOp_power (s : State) (k : Nat) : (s.dropOp k).power = s.power := rfl
@[simp] theorem dropOp_trees (s : State) (k : Nat) : (s.dropOp k).trees = s.trees := rfl
@[simp] theorem dropOp_colls (s : State) (k : Nat) : (s.dropOp k).colls = s.colls := rfl
@[simp] theorem dropOp_sigs (s : State) (k : Nat) : (s.dropOp k).sigs = s.sigs := rfl
@[simp] theorem dropOp_tokens (s : State) (k : Nat) : (s.dropOp k).tokens = s.tokens := rfl
@[simp] theorem dropOp_race (s : State) (k : Nat) : (s.dropOp k).race = s.race := rfl
@[simp] theorem dropOp_raceq (s : State) (k : Nat) : (s.dropOp k).raceq = s.raceq := rfl
@[simp] theorem dropOp_svc (s : State) (k : Nat) : (s.dropOp k).svc = s.svc := rfl
@[simp] theorem dropOp_foreign (s : State) (k : Nat) : (s.dropOp k).foreign = s.foreign := rfl
@[simp] theorem dropOp_landings (s : State) (k : Nat) : (s.dropOp k).landings = s.landings := rfl
@[simp] theorem dropOp_heard (s : State) (k : Nat) : (s.dropOp k).heard = s.heard := rfl
@[simp] theorem dropOp_reached (s : State) (k : Nat) : (s.dropOp k).reached = s.reached := rfl
@[simp] theorem dropOp_late (s : State) (k : Nat) : (s.dropOp k).late = s.late := rfl
@[simp] theorem dropOp_rxSeq (s : State) (k : Nat) : (s.dropOp k).rxSeq = s.rxSeq := rfl
@[simp] theorem dropOp_out (s : State) (k : Nat) : (s.dropOp k).out = s.out := rfl
@[simp] theorem dropOp_mgmt (s : State) (k : Nat) : (s.dropOp k).mgmt = s.mgmt := rfl

/-! ### `updClu` -/

@[simp] theorem updClu_turns (s : State) (k : Nat) (f : Cluster → Cluster) : (s.updClu k f).turns = s.turns := rfl
@[simp] theorem updClu_free (s : State) (k : Nat) (f : Cluster → Cluster) : (s.updClu k f).free = s.free := rfl
@[simp] theorem updClu_cur (s : State) (k : Nat) (f : Cluster → Cluster) : (s.updClu k f).cur = s.cur := rfl
@[simp] theorem updClu_cycles (s : State) (k : Nat) (f : Cluster → Cluster) : (s.updClu k f).cycles = s.cycles := rfl
@[simp] theorem updClu_clock (s : State) (k : Nat) (f : Cluster → Cluster) : (s.updClu k f).clock = s.clock := rfl
@[simp] theorem updClu_rank (s : State) (k : Nat) (f : Cluster → Cluster) : (s.updClu k f).rank = s.rank := rfl
@[simp] theorem updClu_q (s : State) (k : Nat) (f : Cluster → Cluster) : (s.updClu k f).q = s.q := rfl
@[simp] theorem updClu_mem (s : State) (k : Nat) (f : Cluster → Cluster) : (s.updClu k f).mem = s.mem := rfl
@[simp] theorem updClu_poison (s : State) (k : Nat) (f : Cluster → Cluster) : (s.updClu k f).poison = s.poison := rfl
@[simp] theorem updClu_ctxs (s : State) (k : Nat) (f : Cluster → Cluster) : (s.updClu k f).ctxs = s.ctxs := rfl
@[simp] theorem updClu_teams (s : State) (k : Nat) (f : Cluster → Cluster) : (s.updClu k f).teams = s.teams := rfl
@[simp] theorem updClu_groups (s : State) (k : Nat) (f : Cluster → Cluster) : (s.updClu k f).groups = s.groups := rfl
@[simp] theorem updClu_ops (s : State) (k : Nat) (f : Cluster → Cluster) : (s.updClu k f).ops = s.ops := rfl
@[simp] theorem updClu_lacc (s : State) (k : Nat) (f : Cluster → Cluster) : (s.updClu k f).lacc = s.lacc := rfl
@[simp] theorem updClu_nextId (s : State) (k : Nat) (f : Cluster → Cluster) : (s.updClu k f).nextId = s.nextId := rfl
@[simp] theorem updClu_seqs (s : State) (k : Nat) (f : Cluster → Cluster) : (s.updClu k f).seqs = s.seqs := rfl
@[simp] theorem updClu_tlb (s : State) (k : Nat) (f : Cluster → Cluster) : (s.updClu k f).tlb = s.tlb := rfl
@[simp] theorem updClu_icache (s : State) (k : Nat) (f : Cluster → Cluster) : (s.updClu k f).icache = s.icache := rfl
@[simp] theorem updClu_windows (s : State) (k : Nat) (f : Cluster → Cluster) : (s.updClu k f).windows = s.windows := rfl
@[simp] theorem updClu_served (s : State) (k : Nat) (f : Cluster → Cluster) : (s.updClu k f).served = s.served := rfl
@[simp] theorem updClu_handles (s : State) (k : Nat) (f : Cluster → Cluster) : (s.updClu k f).handles = s.handles := rfl
@[simp] theorem updClu_homes (s : State) (k : Nat) (f : Cluster → Cluster) : (s.updClu k f).homes = s.homes := rfl
@[simp] theorem updClu_imports (s : State) (k : Nat) (f : Cluster → Cluster) : (s.updClu k f).imports = s.imports := rfl
@[simp] theorem updClu_queues (s : State) (k : Nat) (f : Cluster → Cluster) : (s.updClu k f).queues = s.queues := rfl
@[simp] theorem updClu_hostq (s : State) (k : Nat) (f : Cluster → Cluster) : (s.updClu k f).hostq = s.hostq := rfl
@[simp] theorem updClu_wake (s : State) (k : Nat) (f : Cluster → Cluster) : (s.updClu k f).wake = s.wake := rfl
@[simp] theorem updClu_aperture (s : State) (k : Nat) (f : Cluster → Cluster) : (s.updClu k f).aperture = s.aperture := rfl
@[simp] theorem updClu_power (s : State) (k : Nat) (f : Cluster → Cluster) : (s.updClu k f).power = s.power := rfl
@[simp] theorem updClu_trees (s : State) (k : Nat) (f : Cluster → Cluster) : (s.updClu k f).trees = s.trees := rfl
@[simp] theorem updClu_colls (s : State) (k : Nat) (f : Cluster → Cluster) : (s.updClu k f).colls = s.colls := rfl
@[simp] theorem updClu_sigs (s : State) (k : Nat) (f : Cluster → Cluster) : (s.updClu k f).sigs = s.sigs := rfl
@[simp] theorem updClu_tokens (s : State) (k : Nat) (f : Cluster → Cluster) : (s.updClu k f).tokens = s.tokens := rfl
@[simp] theorem updClu_race (s : State) (k : Nat) (f : Cluster → Cluster) : (s.updClu k f).race = s.race := rfl
@[simp] theorem updClu_raceq (s : State) (k : Nat) (f : Cluster → Cluster) : (s.updClu k f).raceq = s.raceq := rfl
@[simp] theorem updClu_svc (s : State) (k : Nat) (f : Cluster → Cluster) : (s.updClu k f).svc = s.svc := rfl
@[simp] theorem updClu_foreign (s : State) (k : Nat) (f : Cluster → Cluster) : (s.updClu k f).foreign = s.foreign := rfl
@[simp] theorem updClu_landings (s : State) (k : Nat) (f : Cluster → Cluster) : (s.updClu k f).landings = s.landings := rfl
@[simp] theorem updClu_heard (s : State) (k : Nat) (f : Cluster → Cluster) : (s.updClu k f).heard = s.heard := rfl
@[simp] theorem updClu_reached (s : State) (k : Nat) (f : Cluster → Cluster) : (s.updClu k f).reached = s.reached := rfl
@[simp] theorem updClu_late (s : State) (k : Nat) (f : Cluster → Cluster) : (s.updClu k f).late = s.late := rfl
@[simp] theorem updClu_rxSeq (s : State) (k : Nat) (f : Cluster → Cluster) : (s.updClu k f).rxSeq = s.rxSeq := rfl
@[simp] theorem updClu_out (s : State) (k : Nat) (f : Cluster → Cluster) : (s.updClu k f).out = s.out := rfl
@[simp] theorem updClu_mgmt (s : State) (k : Nat) (f : Cluster → Cluster) : (s.updClu k f).mgmt = s.mgmt := rfl

/-! ### `fresh` -/

@[simp] theorem fresh_turns (s : State) : (s.fresh).turns = s.turns := rfl
@[simp] theorem fresh_free (s : State) : (s.fresh).free = s.free := rfl
@[simp] theorem fresh_cur (s : State) : (s.fresh).cur = s.cur := rfl
@[simp] theorem fresh_cycles (s : State) : (s.fresh).cycles = s.cycles := rfl
@[simp] theorem fresh_clock (s : State) : (s.fresh).clock = s.clock := rfl
@[simp] theorem fresh_rank (s : State) : (s.fresh).rank = s.rank := rfl
@[simp] theorem fresh_q (s : State) : (s.fresh).q = s.q := rfl
@[simp] theorem fresh_mem (s : State) : (s.fresh).mem = s.mem := rfl
@[simp] theorem fresh_poison (s : State) : (s.fresh).poison = s.poison := rfl
@[simp] theorem fresh_ctxs (s : State) : (s.fresh).ctxs = s.ctxs := rfl
@[simp] theorem fresh_teams (s : State) : (s.fresh).teams = s.teams := rfl
@[simp] theorem fresh_groups (s : State) : (s.fresh).groups = s.groups := rfl
@[simp] theorem fresh_clusters (s : State) : (s.fresh).clusters = s.clusters := rfl
@[simp] theorem fresh_ops (s : State) : (s.fresh).ops = s.ops := rfl
@[simp] theorem fresh_lacc (s : State) : (s.fresh).lacc = s.lacc := rfl
@[simp] theorem fresh_seqs (s : State) : (s.fresh).seqs = s.seqs := rfl
@[simp] theorem fresh_tlb (s : State) : (s.fresh).tlb = s.tlb := rfl
@[simp] theorem fresh_icache (s : State) : (s.fresh).icache = s.icache := rfl
@[simp] theorem fresh_windows (s : State) : (s.fresh).windows = s.windows := rfl
@[simp] theorem fresh_served (s : State) : (s.fresh).served = s.served := rfl
@[simp] theorem fresh_handles (s : State) : (s.fresh).handles = s.handles := rfl
@[simp] theorem fresh_homes (s : State) : (s.fresh).homes = s.homes := rfl
@[simp] theorem fresh_imports (s : State) : (s.fresh).imports = s.imports := rfl
@[simp] theorem fresh_queues (s : State) : (s.fresh).queues = s.queues := rfl
@[simp] theorem fresh_hostq (s : State) : (s.fresh).hostq = s.hostq := rfl
@[simp] theorem fresh_wake (s : State) : (s.fresh).wake = s.wake := rfl
@[simp] theorem fresh_aperture (s : State) : (s.fresh).aperture = s.aperture := rfl
@[simp] theorem fresh_power (s : State) : (s.fresh).power = s.power := rfl
@[simp] theorem fresh_trees (s : State) : (s.fresh).trees = s.trees := rfl
@[simp] theorem fresh_colls (s : State) : (s.fresh).colls = s.colls := rfl
@[simp] theorem fresh_sigs (s : State) : (s.fresh).sigs = s.sigs := rfl
@[simp] theorem fresh_tokens (s : State) : (s.fresh).tokens = s.tokens := rfl
@[simp] theorem fresh_race (s : State) : (s.fresh).race = s.race := rfl
@[simp] theorem fresh_raceq (s : State) : (s.fresh).raceq = s.raceq := rfl
@[simp] theorem fresh_svc (s : State) : (s.fresh).svc = s.svc := rfl
@[simp] theorem fresh_foreign (s : State) : (s.fresh).foreign = s.foreign := rfl
@[simp] theorem fresh_landings (s : State) : (s.fresh).landings = s.landings := rfl
@[simp] theorem fresh_heard (s : State) : (s.fresh).heard = s.heard := rfl
@[simp] theorem fresh_reached (s : State) : (s.fresh).reached = s.reached := rfl
@[simp] theorem fresh_late (s : State) : (s.fresh).late = s.late := rfl
@[simp] theorem fresh_rxSeq (s : State) : (s.fresh).rxSeq = s.rxSeq := rfl
@[simp] theorem fresh_out (s : State) : (s.fresh).out = s.out := rfl
@[simp] theorem fresh_mgmt (s : State) : (s.fresh).mgmt = s.mgmt := rfl

/-! ### `draw` -/

@[simp] theorem draw_turns (s : State) : (s.draw).turns = s.turns := rfl
@[simp] theorem draw_cur (s : State) : (s.draw).cur = s.cur := rfl
@[simp] theorem draw_cycles (s : State) : (s.draw).cycles = s.cycles := rfl
@[simp] theorem draw_clock (s : State) : (s.draw).clock = s.clock := rfl
@[simp] theorem draw_rank (s : State) : (s.draw).rank = s.rank := rfl
@[simp] theorem draw_q (s : State) : (s.draw).q = s.q := rfl
@[simp] theorem draw_mem (s : State) : (s.draw).mem = s.mem := rfl
@[simp] theorem draw_poison (s : State) : (s.draw).poison = s.poison := rfl
@[simp] theorem draw_ctxs (s : State) : (s.draw).ctxs = s.ctxs := rfl
@[simp] theorem draw_teams (s : State) : (s.draw).teams = s.teams := rfl
@[simp] theorem draw_groups (s : State) : (s.draw).groups = s.groups := rfl
@[simp] theorem draw_clusters (s : State) : (s.draw).clusters = s.clusters := rfl
@[simp] theorem draw_ops (s : State) : (s.draw).ops = s.ops := rfl
@[simp] theorem draw_lacc (s : State) : (s.draw).lacc = s.lacc := rfl
@[simp] theorem draw_nextId (s : State) : (s.draw).nextId = s.nextId := rfl
@[simp] theorem draw_seqs (s : State) : (s.draw).seqs = s.seqs := rfl
@[simp] theorem draw_tlb (s : State) : (s.draw).tlb = s.tlb := rfl
@[simp] theorem draw_icache (s : State) : (s.draw).icache = s.icache := rfl
@[simp] theorem draw_windows (s : State) : (s.draw).windows = s.windows := rfl
@[simp] theorem draw_served (s : State) : (s.draw).served = s.served := rfl
@[simp] theorem draw_handles (s : State) : (s.draw).handles = s.handles := rfl
@[simp] theorem draw_homes (s : State) : (s.draw).homes = s.homes := rfl
@[simp] theorem draw_imports (s : State) : (s.draw).imports = s.imports := rfl
@[simp] theorem draw_queues (s : State) : (s.draw).queues = s.queues := rfl
@[simp] theorem draw_hostq (s : State) : (s.draw).hostq = s.hostq := rfl
@[simp] theorem draw_wake (s : State) : (s.draw).wake = s.wake := rfl
@[simp] theorem draw_aperture (s : State) : (s.draw).aperture = s.aperture := rfl
@[simp] theorem draw_power (s : State) : (s.draw).power = s.power := rfl
@[simp] theorem draw_trees (s : State) : (s.draw).trees = s.trees := rfl
@[simp] theorem draw_colls (s : State) : (s.draw).colls = s.colls := rfl
@[simp] theorem draw_sigs (s : State) : (s.draw).sigs = s.sigs := rfl
@[simp] theorem draw_tokens (s : State) : (s.draw).tokens = s.tokens := rfl
@[simp] theorem draw_race (s : State) : (s.draw).race = s.race := rfl
@[simp] theorem draw_raceq (s : State) : (s.draw).raceq = s.raceq := rfl
@[simp] theorem draw_svc (s : State) : (s.draw).svc = s.svc := rfl
@[simp] theorem draw_foreign (s : State) : (s.draw).foreign = s.foreign := rfl
@[simp] theorem draw_landings (s : State) : (s.draw).landings = s.landings := rfl
@[simp] theorem draw_heard (s : State) : (s.draw).heard = s.heard := rfl
@[simp] theorem draw_reached (s : State) : (s.draw).reached = s.reached := rfl
@[simp] theorem draw_late (s : State) : (s.draw).late = s.late := rfl
@[simp] theorem draw_rxSeq (s : State) : (s.draw).rxSeq = s.rxSeq := rfl
@[simp] theorem draw_out (s : State) : (s.draw).out = s.out := rfl
@[simp] theorem draw_mgmt (s : State) : (s.draw).mgmt = s.mgmt := rfl

/-! ### `emit` -/

@[simp] theorem emit_turns (s : State) (o : Out) : (s.emit o).turns = s.turns := rfl
@[simp] theorem emit_free (s : State) (o : Out) : (s.emit o).free = s.free := rfl
@[simp] theorem emit_cur (s : State) (o : Out) : (s.emit o).cur = s.cur := rfl
@[simp] theorem emit_cycles (s : State) (o : Out) : (s.emit o).cycles = s.cycles := rfl
@[simp] theorem emit_clock (s : State) (o : Out) : (s.emit o).clock = s.clock := rfl
@[simp] theorem emit_rank (s : State) (o : Out) : (s.emit o).rank = s.rank := rfl
@[simp] theorem emit_q (s : State) (o : Out) : (s.emit o).q = s.q := rfl
@[simp] theorem emit_mem (s : State) (o : Out) : (s.emit o).mem = s.mem := rfl
@[simp] theorem emit_poison (s : State) (o : Out) : (s.emit o).poison = s.poison := rfl
@[simp] theorem emit_ctxs (s : State) (o : Out) : (s.emit o).ctxs = s.ctxs := rfl
@[simp] theorem emit_teams (s : State) (o : Out) : (s.emit o).teams = s.teams := rfl
@[simp] theorem emit_groups (s : State) (o : Out) : (s.emit o).groups = s.groups := rfl
@[simp] theorem emit_clusters (s : State) (o : Out) : (s.emit o).clusters = s.clusters := rfl
@[simp] theorem emit_ops (s : State) (o : Out) : (s.emit o).ops = s.ops := rfl
@[simp] theorem emit_lacc (s : State) (o : Out) : (s.emit o).lacc = s.lacc := rfl
@[simp] theorem emit_nextId (s : State) (o : Out) : (s.emit o).nextId = s.nextId := rfl
@[simp] theorem emit_seqs (s : State) (o : Out) : (s.emit o).seqs = s.seqs := rfl
@[simp] theorem emit_tlb (s : State) (o : Out) : (s.emit o).tlb = s.tlb := rfl
@[simp] theorem emit_icache (s : State) (o : Out) : (s.emit o).icache = s.icache := rfl
@[simp] theorem emit_windows (s : State) (o : Out) : (s.emit o).windows = s.windows := rfl
@[simp] theorem emit_served (s : State) (o : Out) : (s.emit o).served = s.served := rfl
@[simp] theorem emit_handles (s : State) (o : Out) : (s.emit o).handles = s.handles := rfl
@[simp] theorem emit_homes (s : State) (o : Out) : (s.emit o).homes = s.homes := rfl
@[simp] theorem emit_imports (s : State) (o : Out) : (s.emit o).imports = s.imports := rfl
@[simp] theorem emit_queues (s : State) (o : Out) : (s.emit o).queues = s.queues := rfl
@[simp] theorem emit_hostq (s : State) (o : Out) : (s.emit o).hostq = s.hostq := rfl
@[simp] theorem emit_wake (s : State) (o : Out) : (s.emit o).wake = s.wake := rfl
@[simp] theorem emit_aperture (s : State) (o : Out) : (s.emit o).aperture = s.aperture := rfl
@[simp] theorem emit_power (s : State) (o : Out) : (s.emit o).power = s.power := rfl
@[simp] theorem emit_trees (s : State) (o : Out) : (s.emit o).trees = s.trees := rfl
@[simp] theorem emit_colls (s : State) (o : Out) : (s.emit o).colls = s.colls := rfl
@[simp] theorem emit_sigs (s : State) (o : Out) : (s.emit o).sigs = s.sigs := rfl
@[simp] theorem emit_tokens (s : State) (o : Out) : (s.emit o).tokens = s.tokens := rfl
@[simp] theorem emit_race (s : State) (o : Out) : (s.emit o).race = s.race := rfl
@[simp] theorem emit_raceq (s : State) (o : Out) : (s.emit o).raceq = s.raceq := rfl
@[simp] theorem emit_svc (s : State) (o : Out) : (s.emit o).svc = s.svc := rfl
@[simp] theorem emit_foreign (s : State) (o : Out) : (s.emit o).foreign = s.foreign := rfl
@[simp] theorem emit_landings (s : State) (o : Out) : (s.emit o).landings = s.landings := rfl
@[simp] theorem emit_heard (s : State) (o : Out) : (s.emit o).heard = s.heard := rfl
@[simp] theorem emit_reached (s : State) (o : Out) : (s.emit o).reached = s.reached := rfl
@[simp] theorem emit_late (s : State) (o : Out) : (s.emit o).late = s.late := rfl
@[simp] theorem emit_rxSeq (s : State) (o : Out) : (s.emit o).rxSeq = s.rxSeq := rfl
@[simp] theorem emit_mgmt (s : State) (o : Out) : (s.emit o).mgmt = s.mgmt := rfl

/-! ### `wrBytes` -/

@[simp] theorem wrBytes_turns (s : State) (a : Nat) (bs : List Byte) : (s.wrBytes a bs).turns = s.turns := rfl
@[simp] theorem wrBytes_free (s : State) (a : Nat) (bs : List Byte) : (s.wrBytes a bs).free = s.free := rfl
@[simp] theorem wrBytes_cur (s : State) (a : Nat) (bs : List Byte) : (s.wrBytes a bs).cur = s.cur := rfl
@[simp] theorem wrBytes_cycles (s : State) (a : Nat) (bs : List Byte) : (s.wrBytes a bs).cycles = s.cycles := rfl
@[simp] theorem wrBytes_clock (s : State) (a : Nat) (bs : List Byte) : (s.wrBytes a bs).clock = s.clock := rfl
@[simp] theorem wrBytes_rank (s : State) (a : Nat) (bs : List Byte) : (s.wrBytes a bs).rank = s.rank := rfl
@[simp] theorem wrBytes_q (s : State) (a : Nat) (bs : List Byte) : (s.wrBytes a bs).q = s.q := rfl
@[simp] theorem wrBytes_ctxs (s : State) (a : Nat) (bs : List Byte) : (s.wrBytes a bs).ctxs = s.ctxs := rfl
@[simp] theorem wrBytes_teams (s : State) (a : Nat) (bs : List Byte) : (s.wrBytes a bs).teams = s.teams := rfl
@[simp] theorem wrBytes_groups (s : State) (a : Nat) (bs : List Byte) : (s.wrBytes a bs).groups = s.groups := rfl
@[simp] theorem wrBytes_clusters (s : State) (a : Nat) (bs : List Byte) : (s.wrBytes a bs).clusters = s.clusters := rfl
@[simp] theorem wrBytes_ops (s : State) (a : Nat) (bs : List Byte) : (s.wrBytes a bs).ops = s.ops := rfl
@[simp] theorem wrBytes_lacc (s : State) (a : Nat) (bs : List Byte) : (s.wrBytes a bs).lacc = s.lacc := rfl
@[simp] theorem wrBytes_nextId (s : State) (a : Nat) (bs : List Byte) : (s.wrBytes a bs).nextId = s.nextId := rfl
@[simp] theorem wrBytes_seqs (s : State) (a : Nat) (bs : List Byte) : (s.wrBytes a bs).seqs = s.seqs := rfl
@[simp] theorem wrBytes_tlb (s : State) (a : Nat) (bs : List Byte) : (s.wrBytes a bs).tlb = s.tlb := rfl
@[simp] theorem wrBytes_icache (s : State) (a : Nat) (bs : List Byte) : (s.wrBytes a bs).icache = s.icache := rfl
@[simp] theorem wrBytes_windows (s : State) (a : Nat) (bs : List Byte) : (s.wrBytes a bs).windows = s.windows := rfl
@[simp] theorem wrBytes_served (s : State) (a : Nat) (bs : List Byte) : (s.wrBytes a bs).served = s.served := rfl
@[simp] theorem wrBytes_handles (s : State) (a : Nat) (bs : List Byte) : (s.wrBytes a bs).handles = s.handles := rfl
@[simp] theorem wrBytes_homes (s : State) (a : Nat) (bs : List Byte) : (s.wrBytes a bs).homes = s.homes := rfl
@[simp] theorem wrBytes_imports (s : State) (a : Nat) (bs : List Byte) : (s.wrBytes a bs).imports = s.imports := rfl
@[simp] theorem wrBytes_queues (s : State) (a : Nat) (bs : List Byte) : (s.wrBytes a bs).queues = s.queues := rfl
@[simp] theorem wrBytes_hostq (s : State) (a : Nat) (bs : List Byte) : (s.wrBytes a bs).hostq = s.hostq := rfl
@[simp] theorem wrBytes_wake (s : State) (a : Nat) (bs : List Byte) : (s.wrBytes a bs).wake = s.wake := rfl
@[simp] theorem wrBytes_aperture (s : State) (a : Nat) (bs : List Byte) : (s.wrBytes a bs).aperture = s.aperture := rfl
@[simp] theorem wrBytes_power (s : State) (a : Nat) (bs : List Byte) : (s.wrBytes a bs).power = s.power := rfl
@[simp] theorem wrBytes_trees (s : State) (a : Nat) (bs : List Byte) : (s.wrBytes a bs).trees = s.trees := rfl
@[simp] theorem wrBytes_colls (s : State) (a : Nat) (bs : List Byte) : (s.wrBytes a bs).colls = s.colls := rfl
@[simp] theorem wrBytes_sigs (s : State) (a : Nat) (bs : List Byte) : (s.wrBytes a bs).sigs = s.sigs := rfl
@[simp] theorem wrBytes_tokens (s : State) (a : Nat) (bs : List Byte) : (s.wrBytes a bs).tokens = s.tokens := rfl
@[simp] theorem wrBytes_race (s : State) (a : Nat) (bs : List Byte) : (s.wrBytes a bs).race = s.race := rfl
@[simp] theorem wrBytes_raceq (s : State) (a : Nat) (bs : List Byte) : (s.wrBytes a bs).raceq = s.raceq := rfl
@[simp] theorem wrBytes_svc (s : State) (a : Nat) (bs : List Byte) : (s.wrBytes a bs).svc = s.svc := rfl
@[simp] theorem wrBytes_foreign (s : State) (a : Nat) (bs : List Byte) : (s.wrBytes a bs).foreign = s.foreign := rfl
@[simp] theorem wrBytes_landings (s : State) (a : Nat) (bs : List Byte) : (s.wrBytes a bs).landings = s.landings := rfl
@[simp] theorem wrBytes_heard (s : State) (a : Nat) (bs : List Byte) : (s.wrBytes a bs).heard = s.heard := rfl
@[simp] theorem wrBytes_reached (s : State) (a : Nat) (bs : List Byte) : (s.wrBytes a bs).reached = s.reached := rfl
@[simp] theorem wrBytes_late (s : State) (a : Nat) (bs : List Byte) : (s.wrBytes a bs).late = s.late := rfl
@[simp] theorem wrBytes_rxSeq (s : State) (a : Nat) (bs : List Byte) : (s.wrBytes a bs).rxSeq = s.rxSeq := rfl
@[simp] theorem wrBytes_out (s : State) (a : Nat) (bs : List Byte) : (s.wrBytes a bs).out = s.out := rfl
@[simp] theorem wrBytes_mgmt (s : State) (a : Nat) (bs : List Byte) : (s.wrBytes a bs).mgmt = s.mgmt := rfl

@[simp] theorem fresh_nextId (s : State) : s.fresh.nextId = s.nextId + 1 := rfl
@[simp] theorem draw_free (s : State) : s.draw.free = s.free + 1 := rfl
@[simp] theorem emit_out (s : State) (o : Out) : (s.emit o).out = o :: s.out := rfl
@[simp] theorem wrBytes_mem (s : State) (a : Nat) (bs : List Byte) : (s.wrBytes a bs).mem = putBytes s.mem a bs := rfl

/-! ### `Group.wrS` -/

@[simp] theorem gwrS_gid (g : Group) (n : Nat) (x : Word) (t : Tags) : (g.wrS n x t).gid = g.gid := rfl
@[simp] theorem gwrS_tid (g : Group) (n : Nat) (x : Word) (t : Tags) : (g.wrS n x t).tid = g.tid := rfl
@[simp] theorem gwrS_num (g : Group) (n : Nat) (x : Word) (t : Tags) : (g.wrS n x t).num = g.num := rfl
@[simp] theorem gwrS_core (g : Group) (n : Nat) (x : Word) (t : Tags) : (g.wrS n x t).core = g.core := rfl
@[simp] theorem gwrS_slot (g : Group) (n : Nat) (x : Word) (t : Tags) : (g.wrS n x t).slot = g.slot := rfl
@[simp] theorem gwrS_role (g : Group) (n : Nat) (x : Word) (t : Tags) : (g.wrS n x t).role = g.role := rfl
@[simp] theorem gwrS_width (g : Group) (n : Nat) (x : Word) (t : Tags) : (g.wrS n x t).width = g.width := rfl
@[simp] theorem gwrS_vregs (g : Group) (n : Nat) (x : Word) (t : Tags) : (g.wrS n x t).vregs = g.vregs := rfl
@[simp] theorem gwrS_sregs (g : Group) (n : Nat) (x : Word) (t : Tags) : (g.wrS n x t).sregs = g.sregs := rfl
@[simp] theorem gwrS_sup (g : Group) (n : Nat) (x : Word) (t : Tags) : (g.wrS n x t).sup = g.sup := rfl
@[simp] theorem gwrS_pc (g : Group) (n : Nat) (x : Word) (t : Tags) : (g.wrS n x t).pc = g.pc := rfl
@[simp] theorem gwrS_mask (g : Group) (n : Nat) (x : Word) (t : Tags) : (g.wrS n x t).mask = g.mask := rfl
@[simp] theorem gwrS_v (g : Group) (n : Nat) (x : Word) (t : Tags) : (g.wrS n x t).v = g.v := rfl
@[simp] theorem gwrS_p (g : Group) (n : Nat) (x : Word) (t : Tags) : (g.wrS n x t).p = g.p := rfl
@[simp] theorem gwrS_vtag (g : Group) (n : Nat) (x : Word) (t : Tags) : (g.wrS n x t).vtag = g.vtag := rfl
@[simp] theorem gwrS_ptag (g : Group) (n : Nat) (x : Word) (t : Tags) : (g.wrS n x t).ptag = g.ptag := rfl
@[simp] theorem gwrS_ctl (g : Group) (n : Nat) (x : Word) (t : Tags) : (g.wrS n x t).ctl = g.ctl := rfl
@[simp] theorem gwrS_dep (g : Group) (n : Nat) (x : Word) (t : Tags) : (g.wrS n x t).dep = g.dep := rfl
@[simp] theorem gwrS_snaps (g : Group) (n : Nat) (x : Word) (t : Tags) : (g.wrS n x t).snaps = g.snaps := rfl
@[simp] theorem gwrS_stack (g : Group) (n : Nat) (x : Word) (t : Tags) : (g.wrS n x t).stack = g.stack := rfl
@[simp] theorem gwrS_fmt (g : Group) (n : Nat) (x : Word) (t : Tags) : (g.wrS n x t).fmt = g.fmt := rfl
@[simp] theorem gwrS_flg (g : Group) (n : Nat) (x : Word) (t : Tags) : (g.wrS n x t).flg = g.flg := rfl
@[simp] theorem gwrS_gtime (g : Group) (n : Nat) (x : Word) (t : Tags) : (g.wrS n x t).gtime = g.gtime := rfl
@[simp] theorem gwrS_timer (g : Group) (n : Nat) (x : Word) (t : Tags) : (g.wrS n x t).timer = g.timer := rfl
@[simp] theorem gwrS_inFlight (g : Group) (n : Nat) (x : Word) (t : Tags) : (g.wrS n x t).inFlight = g.inFlight := rfl
@[simp] theorem gwrS_sb (g : Group) (n : Nat) (x : Word) (t : Tags) : (g.wrS n x t).sb = g.sb := rfl
@[simp] theorem gwrS_pend (g : Group) (n : Nat) (x : Word) (t : Tags) : (g.wrS n x t).pend = g.pend := rfl
@[simp] theorem gwrS_park (g : Group) (n : Nat) (x : Word) (t : Tags) : (g.wrS n x t).park = g.park := rfl
@[simp] theorem gwrS_latches (g : Group) (n : Nat) (x : Word) (t : Tags) : (g.wrS n x t).latches = g.latches := rfl
@[simp] theorem gwrS_chpos (g : Group) (n : Nat) (x : Word) (t : Tags) : (g.wrS n x t).chpos = g.chpos := rfl
@[simp] theorem gwrS_pst (g : Group) (n : Nat) (x : Word) (t : Tags) : (g.wrS n x t).pst = g.pst := rfl
@[simp] theorem gwrS_exited (g : Group) (n : Nat) (x : Word) (t : Tags) : (g.wrS n x t).exited = g.exited := rfl
@[simp] theorem gwrS_ended (g : Group) (n : Nat) (x : Word) (t : Tags) : (g.wrS n x t).ended = g.ended := rfl
@[simp] theorem gwrS_byExit (g : Group) (n : Nat) (x : Word) (t : Tags) : (g.wrS n x t).byExit = g.byExit := rfl
@[simp] theorem gwrS_age (g : Group) (n : Nat) (x : Word) (t : Tags) : (g.wrS n x t).age = g.age := rfl
@[simp] theorem gwrS_agedAt (g : Group) (n : Nat) (x : Word) (t : Tags) : (g.wrS n x t).agedAt = g.agedAt := rfl
@[simp] theorem gwrS_lastIssue (g : Group) (n : Nat) (x : Word) (t : Tags) : (g.wrS n x t).lastIssue = g.lastIssue := rfl
@[simp] theorem gwrS_codeAt (g : Group) (n : Nat) (x : Word) (t : Tags) : (g.wrS n x t).codeAt = g.codeAt := rfl
@[simp] theorem gwrS_poison (g : Group) (n : Nat) (x : Word) (t : Tags) : (g.wrS n x t).poison = g.poison := rfl

/-! ### `Group.wrV` -/

@[simp] theorem gwrV_gid (g : Group) (n : Nat) (m : Mask) (f : Nat → Word) (t : Tags) : (g.wrV n m f t).gid = g.gid := by unfold Group.wrV; split <;> rfl
@[simp] theorem gwrV_tid (g : Group) (n : Nat) (m : Mask) (f : Nat → Word) (t : Tags) : (g.wrV n m f t).tid = g.tid := by unfold Group.wrV; split <;> rfl
@[simp] theorem gwrV_num (g : Group) (n : Nat) (m : Mask) (f : Nat → Word) (t : Tags) : (g.wrV n m f t).num = g.num := by unfold Group.wrV; split <;> rfl
@[simp] theorem gwrV_core (g : Group) (n : Nat) (m : Mask) (f : Nat → Word) (t : Tags) : (g.wrV n m f t).core = g.core := by unfold Group.wrV; split <;> rfl
@[simp] theorem gwrV_slot (g : Group) (n : Nat) (m : Mask) (f : Nat → Word) (t : Tags) : (g.wrV n m f t).slot = g.slot := by unfold Group.wrV; split <;> rfl
@[simp] theorem gwrV_role (g : Group) (n : Nat) (m : Mask) (f : Nat → Word) (t : Tags) : (g.wrV n m f t).role = g.role := by unfold Group.wrV; split <;> rfl
@[simp] theorem gwrV_width (g : Group) (n : Nat) (m : Mask) (f : Nat → Word) (t : Tags) : (g.wrV n m f t).width = g.width := by unfold Group.wrV; split <;> rfl
@[simp] theorem gwrV_vregs (g : Group) (n : Nat) (m : Mask) (f : Nat → Word) (t : Tags) : (g.wrV n m f t).vregs = g.vregs := by unfold Group.wrV; split <;> rfl
@[simp] theorem gwrV_sregs (g : Group) (n : Nat) (m : Mask) (f : Nat → Word) (t : Tags) : (g.wrV n m f t).sregs = g.sregs := by unfold Group.wrV; split <;> rfl
@[simp] theorem gwrV_sup (g : Group) (n : Nat) (m : Mask) (f : Nat → Word) (t : Tags) : (g.wrV n m f t).sup = g.sup := by unfold Group.wrV; split <;> rfl
@[simp] theorem gwrV_pc (g : Group) (n : Nat) (m : Mask) (f : Nat → Word) (t : Tags) : (g.wrV n m f t).pc = g.pc := by unfold Group.wrV; split <;> rfl
@[simp] theorem gwrV_mask (g : Group) (n : Nat) (m : Mask) (f : Nat → Word) (t : Tags) : (g.wrV n m f t).mask = g.mask := by unfold Group.wrV; split <;> rfl
@[simp] theorem gwrV_s (g : Group) (n : Nat) (m : Mask) (f : Nat → Word) (t : Tags) : (g.wrV n m f t).s = g.s := by unfold Group.wrV; split <;> rfl
@[simp] theorem gwrV_p (g : Group) (n : Nat) (m : Mask) (f : Nat → Word) (t : Tags) : (g.wrV n m f t).p = g.p := by unfold Group.wrV; split <;> rfl
@[simp] theorem gwrV_stag (g : Group) (n : Nat) (m : Mask) (f : Nat → Word) (t : Tags) : (g.wrV n m f t).stag = g.stag := by unfold Group.wrV; split <;> rfl
@[simp] theorem gwrV_ptag (g : Group) (n : Nat) (m : Mask) (f : Nat → Word) (t : Tags) : (g.wrV n m f t).ptag = g.ptag := by unfold Group.wrV; split <;> rfl
@[simp] theorem gwrV_ctl (g : Group) (n : Nat) (m : Mask) (f : Nat → Word) (t : Tags) : (g.wrV n m f t).ctl = g.ctl := by unfold Group.wrV; split <;> rfl
@[simp] theorem gwrV_dep (g : Group) (n : Nat) (m : Mask) (f : Nat → Word) (t : Tags) : (g.wrV n m f t).dep = g.dep := by unfold Group.wrV; split <;> rfl
@[simp] theorem gwrV_snaps (g : Group) (n : Nat) (m : Mask) (f : Nat → Word) (t : Tags) : (g.wrV n m f t).snaps = g.snaps := by unfold Group.wrV; split <;> rfl
@[simp] theorem gwrV_stack (g : Group) (n : Nat) (m : Mask) (f : Nat → Word) (t : Tags) : (g.wrV n m f t).stack = g.stack := by unfold Group.wrV; split <;> rfl
@[simp] theorem gwrV_fmt (g : Group) (n : Nat) (m : Mask) (f : Nat → Word) (t : Tags) : (g.wrV n m f t).fmt = g.fmt := by unfold Group.wrV; split <;> rfl
@[simp] theorem gwrV_flg (g : Group) (n : Nat) (m : Mask) (f : Nat → Word) (t : Tags) : (g.wrV n m f t).flg = g.flg := by unfold Group.wrV; split <;> rfl
@[simp] theorem gwrV_gtime (g : Group) (n : Nat) (m : Mask) (f : Nat → Word) (t : Tags) : (g.wrV n m f t).gtime = g.gtime := by unfold Group.wrV; split <;> rfl
@[simp] theorem gwrV_timer (g : Group) (n : Nat) (m : Mask) (f : Nat → Word) (t : Tags) : (g.wrV n m f t).timer = g.timer := by unfold Group.wrV; split <;> rfl
@[simp] theorem gwrV_inFlight (g : Group) (n : Nat) (m : Mask) (f : Nat → Word) (t : Tags) : (g.wrV n m f t).inFlight = g.inFlight := by unfold Group.wrV; split <;> rfl
@[simp] theorem gwrV_sb (g : Group) (n : Nat) (m : Mask) (f : Nat → Word) (t : Tags) : (g.wrV n m f t).sb = g.sb := by unfold Group.wrV; split <;> rfl
@[simp] theorem gwrV_pend (g : Group) (n : Nat) (m : Mask) (f : Nat → Word) (t : Tags) : (g.wrV n m f t).pend = g.pend := by unfold Group.wrV; split <;> rfl
@[simp] theorem gwrV_park (g : Group) (n : Nat) (m : Mask) (f : Nat → Word) (t : Tags) : (g.wrV n m f t).park = g.park := by unfold Group.wrV; split <;> rfl
@[simp] theorem gwrV_latches (g : Group) (n : Nat) (m : Mask) (f : Nat → Word) (t : Tags) : (g.wrV n m f t).latches = g.latches := by unfold Group.wrV; split <;> rfl
@[simp] theorem gwrV_chpos (g : Group) (n : Nat) (m : Mask) (f : Nat → Word) (t : Tags) : (g.wrV n m f t).chpos = g.chpos := by unfold Group.wrV; split <;> rfl
@[simp] theorem gwrV_pst (g : Group) (n : Nat) (m : Mask) (f : Nat → Word) (t : Tags) : (g.wrV n m f t).pst = g.pst := by unfold Group.wrV; split <;> rfl
@[simp] theorem gwrV_exited (g : Group) (n : Nat) (m : Mask) (f : Nat → Word) (t : Tags) : (g.wrV n m f t).exited = g.exited := by unfold Group.wrV; split <;> rfl
@[simp] theorem gwrV_ended (g : Group) (n : Nat) (m : Mask) (f : Nat → Word) (t : Tags) : (g.wrV n m f t).ended = g.ended := by unfold Group.wrV; split <;> rfl
@[simp] theorem gwrV_byExit (g : Group) (n : Nat) (m : Mask) (f : Nat → Word) (t : Tags) : (g.wrV n m f t).byExit = g.byExit := by unfold Group.wrV; split <;> rfl
@[simp] theorem gwrV_age (g : Group) (n : Nat) (m : Mask) (f : Nat → Word) (t : Tags) : (g.wrV n m f t).age = g.age := by unfold Group.wrV; split <;> rfl
@[simp] theorem gwrV_agedAt (g : Group) (n : Nat) (m : Mask) (f : Nat → Word) (t : Tags) : (g.wrV n m f t).agedAt = g.agedAt := by unfold Group.wrV; split <;> rfl
@[simp] theorem gwrV_lastIssue (g : Group) (n : Nat) (m : Mask) (f : Nat → Word) (t : Tags) : (g.wrV n m f t).lastIssue = g.lastIssue := by unfold Group.wrV; split <;> rfl
@[simp] theorem gwrV_codeAt (g : Group) (n : Nat) (m : Mask) (f : Nat → Word) (t : Tags) : (g.wrV n m f t).codeAt = g.codeAt := by unfold Group.wrV; split <;> rfl

/-! ### `Group.wrP` -/

@[simp] theorem gwrP_gid (g : Group) (n : Nat) (m x : Mask) (t : Tags) : (g.wrP n m x t).gid = g.gid := by unfold Group.wrP; split <;> rfl
@[simp] theorem gwrP_tid (g : Group) (n : Nat) (m x : Mask) (t : Tags) : (g.wrP n m x t).tid = g.tid := by unfold Group.wrP; split <;> rfl
@[simp] theorem gwrP_num (g : Group) (n : Nat) (m x : Mask) (t : Tags) : (g.wrP n m x t).num = g.num := by unfold Group.wrP; split <;> rfl
@[simp] theorem gwrP_core (g : Group) (n : Nat) (m x : Mask) (t : Tags) : (g.wrP n m x t).core = g.core := by unfold Group.wrP; split <;> rfl
@[simp] theorem gwrP_slot (g : Group) (n : Nat) (m x : Mask) (t : Tags) : (g.wrP n m x t).slot = g.slot := by unfold Group.wrP; split <;> rfl
@[simp] theorem gwrP_role (g : Group) (n : Nat) (m x : Mask) (t : Tags) : (g.wrP n m x t).role = g.role := by unfold Group.wrP; split <;> rfl
@[simp] theorem gwrP_width (g : Group) (n : Nat) (m x : Mask) (t : Tags) : (g.wrP n m x t).width = g.width := by unfold Group.wrP; split <;> rfl
@[simp] theorem gwrP_vregs (g : Group) (n : Nat) (m x : Mask) (t : Tags) : (g.wrP n m x t).vregs = g.vregs := by unfold Group.wrP; split <;> rfl
@[simp] theorem gwrP_sregs (g : Group) (n : Nat) (m x : Mask) (t : Tags) : (g.wrP n m x t).sregs = g.sregs := by unfold Group.wrP; split <;> rfl
@[simp] theorem gwrP_sup (g : Group) (n : Nat) (m x : Mask) (t : Tags) : (g.wrP n m x t).sup = g.sup := by unfold Group.wrP; split <;> rfl
@[simp] theorem gwrP_pc (g : Group) (n : Nat) (m x : Mask) (t : Tags) : (g.wrP n m x t).pc = g.pc := by unfold Group.wrP; split <;> rfl
@[simp] theorem gwrP_mask (g : Group) (n : Nat) (m x : Mask) (t : Tags) : (g.wrP n m x t).mask = g.mask := by unfold Group.wrP; split <;> rfl
@[simp] theorem gwrP_v (g : Group) (n : Nat) (m x : Mask) (t : Tags) : (g.wrP n m x t).v = g.v := by unfold Group.wrP; split <;> rfl
@[simp] theorem gwrP_s (g : Group) (n : Nat) (m x : Mask) (t : Tags) : (g.wrP n m x t).s = g.s := by unfold Group.wrP; split <;> rfl
@[simp] theorem gwrP_vtag (g : Group) (n : Nat) (m x : Mask) (t : Tags) : (g.wrP n m x t).vtag = g.vtag := by unfold Group.wrP; split <;> rfl
@[simp] theorem gwrP_stag (g : Group) (n : Nat) (m x : Mask) (t : Tags) : (g.wrP n m x t).stag = g.stag := by unfold Group.wrP; split <;> rfl
@[simp] theorem gwrP_ctl (g : Group) (n : Nat) (m x : Mask) (t : Tags) : (g.wrP n m x t).ctl = g.ctl := by unfold Group.wrP; split <;> rfl
@[simp] theorem gwrP_dep (g : Group) (n : Nat) (m x : Mask) (t : Tags) : (g.wrP n m x t).dep = g.dep := by unfold Group.wrP; split <;> rfl
@[simp] theorem gwrP_snaps (g : Group) (n : Nat) (m x : Mask) (t : Tags) : (g.wrP n m x t).snaps = g.snaps := by unfold Group.wrP; split <;> rfl
@[simp] theorem gwrP_stack (g : Group) (n : Nat) (m x : Mask) (t : Tags) : (g.wrP n m x t).stack = g.stack := by unfold Group.wrP; split <;> rfl
@[simp] theorem gwrP_fmt (g : Group) (n : Nat) (m x : Mask) (t : Tags) : (g.wrP n m x t).fmt = g.fmt := by unfold Group.wrP; split <;> rfl
@[simp] theorem gwrP_flg (g : Group) (n : Nat) (m x : Mask) (t : Tags) : (g.wrP n m x t).flg = g.flg := by unfold Group.wrP; split <;> rfl
@[simp] theorem gwrP_gtime (g : Group) (n : Nat) (m x : Mask) (t : Tags) : (g.wrP n m x t).gtime = g.gtime := by unfold Group.wrP; split <;> rfl
@[simp] theorem gwrP_timer (g : Group) (n : Nat) (m x : Mask) (t : Tags) : (g.wrP n m x t).timer = g.timer := by unfold Group.wrP; split <;> rfl
@[simp] theorem gwrP_inFlight (g : Group) (n : Nat) (m x : Mask) (t : Tags) : (g.wrP n m x t).inFlight = g.inFlight := by unfold Group.wrP; split <;> rfl
@[simp] theorem gwrP_sb (g : Group) (n : Nat) (m x : Mask) (t : Tags) : (g.wrP n m x t).sb = g.sb := by unfold Group.wrP; split <;> rfl
@[simp] theorem gwrP_pend (g : Group) (n : Nat) (m x : Mask) (t : Tags) : (g.wrP n m x t).pend = g.pend := by unfold Group.wrP; split <;> rfl
@[simp] theorem gwrP_park (g : Group) (n : Nat) (m x : Mask) (t : Tags) : (g.wrP n m x t).park = g.park := by unfold Group.wrP; split <;> rfl
@[simp] theorem gwrP_latches (g : Group) (n : Nat) (m x : Mask) (t : Tags) : (g.wrP n m x t).latches = g.latches := by unfold Group.wrP; split <;> rfl
@[simp] theorem gwrP_chpos (g : Group) (n : Nat) (m x : Mask) (t : Tags) : (g.wrP n m x t).chpos = g.chpos := by unfold Group.wrP; split <;> rfl
@[simp] theorem gwrP_pst (g : Group) (n : Nat) (m x : Mask) (t : Tags) : (g.wrP n m x t).pst = g.pst := by unfold Group.wrP; split <;> rfl
@[simp] theorem gwrP_exited (g : Group) (n : Nat) (m x : Mask) (t : Tags) : (g.wrP n m x t).exited = g.exited := by unfold Group.wrP; split <;> rfl
@[simp] theorem gwrP_ended (g : Group) (n : Nat) (m x : Mask) (t : Tags) : (g.wrP n m x t).ended = g.ended := by unfold Group.wrP; split <;> rfl
@[simp] theorem gwrP_byExit (g : Group) (n : Nat) (m x : Mask) (t : Tags) : (g.wrP n m x t).byExit = g.byExit := by unfold Group.wrP; split <;> rfl
@[simp] theorem gwrP_age (g : Group) (n : Nat) (m x : Mask) (t : Tags) : (g.wrP n m x t).age = g.age := by unfold Group.wrP; split <;> rfl
@[simp] theorem gwrP_agedAt (g : Group) (n : Nat) (m x : Mask) (t : Tags) : (g.wrP n m x t).agedAt = g.agedAt := by unfold Group.wrP; split <;> rfl
@[simp] theorem gwrP_lastIssue (g : Group) (n : Nat) (m x : Mask) (t : Tags) : (g.wrP n m x t).lastIssue = g.lastIssue := by unfold Group.wrP; split <;> rfl
@[simp] theorem gwrP_codeAt (g : Group) (n : Nat) (m x : Mask) (t : Tags) : (g.wrP n m x t).codeAt = g.codeAt := by unfold Group.wrP; split <;> rfl
@[simp] theorem gwrP_poison (g : Group) (n : Nat) (m x : Mask) (t : Tags) : (g.wrP n m x t).poison = g.poison := by unfold Group.wrP; split <;> rfl

/-! ### `Group.wrCmp` -/

@[simp] theorem gwrCmp_gid (g : Group) (d : CmpDst) (m x : Mask) (t : Tags) : (g.wrCmp d m x t).gid = g.gid := by simp [Group.wrCmp]
@[simp] theorem gwrCmp_tid (g : Group) (d : CmpDst) (m x : Mask) (t : Tags) : (g.wrCmp d m x t).tid = g.tid := by simp [Group.wrCmp]
@[simp] theorem gwrCmp_num (g : Group) (d : CmpDst) (m x : Mask) (t : Tags) : (g.wrCmp d m x t).num = g.num := by simp [Group.wrCmp]
@[simp] theorem gwrCmp_core (g : Group) (d : CmpDst) (m x : Mask) (t : Tags) : (g.wrCmp d m x t).core = g.core := by simp [Group.wrCmp]
@[simp] theorem gwrCmp_slot (g : Group) (d : CmpDst) (m x : Mask) (t : Tags) : (g.wrCmp d m x t).slot = g.slot := by simp [Group.wrCmp]
@[simp] theorem gwrCmp_role (g : Group) (d : CmpDst) (m x : Mask) (t : Tags) : (g.wrCmp d m x t).role = g.role := by simp [Group.wrCmp]
@[simp] theorem gwrCmp_width (g : Group) (d : CmpDst) (m x : Mask) (t : Tags) : (g.wrCmp d m x t).width = g.width := by simp [Group.wrCmp]
@[simp] theorem gwrCmp_vregs (g : Group) (d : CmpDst) (m x : Mask) (t : Tags) : (g.wrCmp d m x t).vregs = g.vregs := by simp [Group.wrCmp]
@[simp] theorem gwrCmp_sregs (g : Group) (d : CmpDst) (m x : Mask) (t : Tags) : (g.wrCmp d m x t).sregs = g.sregs := by simp [Group.wrCmp]
@[simp] theorem gwrCmp_sup (g : Group) (d : CmpDst) (m x : Mask) (t : Tags) : (g.wrCmp d m x t).sup = g.sup := by simp [Group.wrCmp]
@[simp] theorem gwrCmp_pc (g : Group) (d : CmpDst) (m x : Mask) (t : Tags) : (g.wrCmp d m x t).pc = g.pc := by simp [Group.wrCmp]
@[simp] theorem gwrCmp_mask (g : Group) (d : CmpDst) (m x : Mask) (t : Tags) : (g.wrCmp d m x t).mask = g.mask := by simp [Group.wrCmp]
@[simp] theorem gwrCmp_v (g : Group) (d : CmpDst) (m x : Mask) (t : Tags) : (g.wrCmp d m x t).v = g.v := by simp [Group.wrCmp]
@[simp] theorem gwrCmp_s (g : Group) (d : CmpDst) (m x : Mask) (t : Tags) : (g.wrCmp d m x t).s = g.s := by simp [Group.wrCmp]
@[simp] theorem gwrCmp_vtag (g : Group) (d : CmpDst) (m x : Mask) (t : Tags) : (g.wrCmp d m x t).vtag = g.vtag := by simp [Group.wrCmp]
@[simp] theorem gwrCmp_stag (g : Group) (d : CmpDst) (m x : Mask) (t : Tags) : (g.wrCmp d m x t).stag = g.stag := by simp [Group.wrCmp]
@[simp] theorem gwrCmp_ctl (g : Group) (d : CmpDst) (m x : Mask) (t : Tags) : (g.wrCmp d m x t).ctl = g.ctl := by simp [Group.wrCmp]
@[simp] theorem gwrCmp_dep (g : Group) (d : CmpDst) (m x : Mask) (t : Tags) : (g.wrCmp d m x t).dep = g.dep := by simp [Group.wrCmp]
@[simp] theorem gwrCmp_snaps (g : Group) (d : CmpDst) (m x : Mask) (t : Tags) : (g.wrCmp d m x t).snaps = g.snaps := by simp [Group.wrCmp]
@[simp] theorem gwrCmp_stack (g : Group) (d : CmpDst) (m x : Mask) (t : Tags) : (g.wrCmp d m x t).stack = g.stack := by simp [Group.wrCmp]
@[simp] theorem gwrCmp_fmt (g : Group) (d : CmpDst) (m x : Mask) (t : Tags) : (g.wrCmp d m x t).fmt = g.fmt := by simp [Group.wrCmp]
@[simp] theorem gwrCmp_flg (g : Group) (d : CmpDst) (m x : Mask) (t : Tags) : (g.wrCmp d m x t).flg = g.flg := by simp [Group.wrCmp]
@[simp] theorem gwrCmp_gtime (g : Group) (d : CmpDst) (m x : Mask) (t : Tags) : (g.wrCmp d m x t).gtime = g.gtime := by simp [Group.wrCmp]
@[simp] theorem gwrCmp_timer (g : Group) (d : CmpDst) (m x : Mask) (t : Tags) : (g.wrCmp d m x t).timer = g.timer := by simp [Group.wrCmp]
@[simp] theorem gwrCmp_inFlight (g : Group) (d : CmpDst) (m x : Mask) (t : Tags) : (g.wrCmp d m x t).inFlight = g.inFlight := by simp [Group.wrCmp]
@[simp] theorem gwrCmp_sb (g : Group) (d : CmpDst) (m x : Mask) (t : Tags) : (g.wrCmp d m x t).sb = g.sb := by simp [Group.wrCmp]
@[simp] theorem gwrCmp_pend (g : Group) (d : CmpDst) (m x : Mask) (t : Tags) : (g.wrCmp d m x t).pend = g.pend := by simp [Group.wrCmp]
@[simp] theorem gwrCmp_park (g : Group) (d : CmpDst) (m x : Mask) (t : Tags) : (g.wrCmp d m x t).park = g.park := by simp [Group.wrCmp]
@[simp] theorem gwrCmp_latches (g : Group) (d : CmpDst) (m x : Mask) (t : Tags) : (g.wrCmp d m x t).latches = g.latches := by simp [Group.wrCmp]
@[simp] theorem gwrCmp_chpos (g : Group) (d : CmpDst) (m x : Mask) (t : Tags) : (g.wrCmp d m x t).chpos = g.chpos := by simp [Group.wrCmp]
@[simp] theorem gwrCmp_pst (g : Group) (d : CmpDst) (m x : Mask) (t : Tags) : (g.wrCmp d m x t).pst = g.pst := by simp [Group.wrCmp]
@[simp] theorem gwrCmp_exited (g : Group) (d : CmpDst) (m x : Mask) (t : Tags) : (g.wrCmp d m x t).exited = g.exited := by simp [Group.wrCmp]
@[simp] theorem gwrCmp_ended (g : Group) (d : CmpDst) (m x : Mask) (t : Tags) : (g.wrCmp d m x t).ended = g.ended := by simp [Group.wrCmp]
@[simp] theorem gwrCmp_byExit (g : Group) (d : CmpDst) (m x : Mask) (t : Tags) : (g.wrCmp d m x t).byExit = g.byExit := by simp [Group.wrCmp]
@[simp] theorem gwrCmp_age (g : Group) (d : CmpDst) (m x : Mask) (t : Tags) : (g.wrCmp d m x t).age = g.age := by simp [Group.wrCmp]
@[simp] theorem gwrCmp_agedAt (g : Group) (d : CmpDst) (m x : Mask) (t : Tags) : (g.wrCmp d m x t).agedAt = g.agedAt := by simp [Group.wrCmp]
@[simp] theorem gwrCmp_lastIssue (g : Group) (d : CmpDst) (m x : Mask) (t : Tags) : (g.wrCmp d m x t).lastIssue = g.lastIssue := by simp [Group.wrCmp]
@[simp] theorem gwrCmp_codeAt (g : Group) (d : CmpDst) (m x : Mask) (t : Tags) : (g.wrCmp d m x t).codeAt = g.codeAt := by simp [Group.wrCmp]
@[simp] theorem gwrCmp_poison (g : Group) (d : CmpDst) (m x : Mask) (t : Tags) : (g.wrCmp d m x t).poison = g.poison := by simp [Group.wrCmp]

/-! ### `Group.wrPair` -/

@[simp] theorem gwrPair_gid (g : Group) (n : Nat) (x : DWord) (t : Tags) : (g.wrPair n x t).gid = g.gid := rfl
@[simp] theorem gwrPair_tid (g : Group) (n : Nat) (x : DWord) (t : Tags) : (g.wrPair n x t).tid = g.tid := rfl
@[simp] theorem gwrPair_num (g : Group) (n : Nat) (x : DWord) (t : Tags) : (g.wrPair n x t).num = g.num := rfl
@[simp] theorem gwrPair_core (g : Group) (n : Nat) (x : DWord) (t : Tags) : (g.wrPair n x t).core = g.core := rfl
@[simp] theorem gwrPair_slot (g : Group) (n : Nat) (x : DWord) (t : Tags) : (g.wrPair n x t).slot = g.slot := rfl
@[simp] theorem gwrPair_role (g : Group) (n : Nat) (x : DWord) (t : Tags) : (g.wrPair n x t).role = g.role := rfl
@[simp] theorem gwrPair_width (g : Group) (n : Nat) (x : DWord) (t : Tags) : (g.wrPair n x t).width = g.width := rfl
@[simp] theorem gwrPair_vregs (g : Group) (n : Nat) (x : DWord) (t : Tags) : (g.wrPair n x t).vregs = g.vregs := rfl
@[simp] theorem gwrPair_sregs (g : Group) (n : Nat) (x : DWord) (t : Tags) : (g.wrPair n x t).sregs = g.sregs := rfl
@[simp] theorem gwrPair_sup (g : Group) (n : Nat) (x : DWord) (t : Tags) : (g.wrPair n x t).sup = g.sup := rfl
@[simp] theorem gwrPair_pc (g : Group) (n : Nat) (x : DWord) (t : Tags) : (g.wrPair n x t).pc = g.pc := rfl
@[simp] theorem gwrPair_mask (g : Group) (n : Nat) (x : DWord) (t : Tags) : (g.wrPair n x t).mask = g.mask := rfl
@[simp] theorem gwrPair_v (g : Group) (n : Nat) (x : DWord) (t : Tags) : (g.wrPair n x t).v = g.v := rfl
@[simp] theorem gwrPair_p (g : Group) (n : Nat) (x : DWord) (t : Tags) : (g.wrPair n x t).p = g.p := rfl
@[simp] theorem gwrPair_vtag (g : Group) (n : Nat) (x : DWord) (t : Tags) : (g.wrPair n x t).vtag = g.vtag := rfl
@[simp] theorem gwrPair_ptag (g : Group) (n : Nat) (x : DWord) (t : Tags) : (g.wrPair n x t).ptag = g.ptag := rfl
@[simp] theorem gwrPair_ctl (g : Group) (n : Nat) (x : DWord) (t : Tags) : (g.wrPair n x t).ctl = g.ctl := rfl
@[simp] theorem gwrPair_dep (g : Group) (n : Nat) (x : DWord) (t : Tags) : (g.wrPair n x t).dep = g.dep := rfl
@[simp] theorem gwrPair_snaps (g : Group) (n : Nat) (x : DWord) (t : Tags) : (g.wrPair n x t).snaps = g.snaps := rfl
@[simp] theorem gwrPair_stack (g : Group) (n : Nat) (x : DWord) (t : Tags) : (g.wrPair n x t).stack = g.stack := rfl
@[simp] theorem gwrPair_fmt (g : Group) (n : Nat) (x : DWord) (t : Tags) : (g.wrPair n x t).fmt = g.fmt := rfl
@[simp] theorem gwrPair_flg (g : Group) (n : Nat) (x : DWord) (t : Tags) : (g.wrPair n x t).flg = g.flg := rfl
@[simp] theorem gwrPair_gtime (g : Group) (n : Nat) (x : DWord) (t : Tags) : (g.wrPair n x t).gtime = g.gtime := rfl
@[simp] theorem gwrPair_timer (g : Group) (n : Nat) (x : DWord) (t : Tags) : (g.wrPair n x t).timer = g.timer := rfl
@[simp] theorem gwrPair_inFlight (g : Group) (n : Nat) (x : DWord) (t : Tags) : (g.wrPair n x t).inFlight = g.inFlight := rfl
@[simp] theorem gwrPair_sb (g : Group) (n : Nat) (x : DWord) (t : Tags) : (g.wrPair n x t).sb = g.sb := rfl
@[simp] theorem gwrPair_pend (g : Group) (n : Nat) (x : DWord) (t : Tags) : (g.wrPair n x t).pend = g.pend := rfl
@[simp] theorem gwrPair_park (g : Group) (n : Nat) (x : DWord) (t : Tags) : (g.wrPair n x t).park = g.park := rfl
@[simp] theorem gwrPair_latches (g : Group) (n : Nat) (x : DWord) (t : Tags) : (g.wrPair n x t).latches = g.latches := rfl
@[simp] theorem gwrPair_chpos (g : Group) (n : Nat) (x : DWord) (t : Tags) : (g.wrPair n x t).chpos = g.chpos := rfl
@[simp] theorem gwrPair_pst (g : Group) (n : Nat) (x : DWord) (t : Tags) : (g.wrPair n x t).pst = g.pst := rfl
@[simp] theorem gwrPair_exited (g : Group) (n : Nat) (x : DWord) (t : Tags) : (g.wrPair n x t).exited = g.exited := rfl
@[simp] theorem gwrPair_ended (g : Group) (n : Nat) (x : DWord) (t : Tags) : (g.wrPair n x t).ended = g.ended := rfl
@[simp] theorem gwrPair_byExit (g : Group) (n : Nat) (x : DWord) (t : Tags) : (g.wrPair n x t).byExit = g.byExit := rfl
@[simp] theorem gwrPair_age (g : Group) (n : Nat) (x : DWord) (t : Tags) : (g.wrPair n x t).age = g.age := rfl
@[simp] theorem gwrPair_agedAt (g : Group) (n : Nat) (x : DWord) (t : Tags) : (g.wrPair n x t).agedAt = g.agedAt := rfl
@[simp] theorem gwrPair_lastIssue (g : Group) (n : Nat) (x : DWord) (t : Tags) : (g.wrPair n x t).lastIssue = g.lastIssue := rfl
@[simp] theorem gwrPair_codeAt (g : Group) (n : Nat) (x : DWord) (t : Tags) : (g.wrPair n x t).codeAt = g.codeAt := rfl
@[simp] theorem gwrPair_poison (g : Group) (n : Nat) (x : DWord) (t : Tags) : (g.wrPair n x t).poison = g.poison := rfl

/-! ### `Group.raise` -/

@[simp] theorem graise_gid (g : Group) (f : BitVec 7) : (g.raise f).gid = g.gid := rfl
@[simp] theorem graise_tid (g : Group) (f : BitVec 7) : (g.raise f).tid = g.tid := rfl
@[simp] theorem graise_num (g : Group) (f : BitVec 7) : (g.raise f).num = g.num := rfl
@[simp] theorem graise_core (g : Group) (f : BitVec 7) : (g.raise f).core = g.core := rfl
@[simp] theorem graise_slot (g : Group) (f : BitVec 7) : (g.raise f).slot = g.slot := rfl
@[simp] theorem graise_role (g : Group) (f : BitVec 7) : (g.raise f).role = g.role := rfl
@[simp] theorem graise_width (g : Group) (f : BitVec 7) : (g.raise f).width = g.width := rfl
@[simp] theorem graise_vregs (g : Group) (f : BitVec 7) : (g.raise f).vregs = g.vregs := rfl
@[simp] theorem graise_sregs (g : Group) (f : BitVec 7) : (g.raise f).sregs = g.sregs := rfl
@[simp] theorem graise_sup (g : Group) (f : BitVec 7) : (g.raise f).sup = g.sup := rfl
@[simp] theorem graise_pc (g : Group) (f : BitVec 7) : (g.raise f).pc = g.pc := rfl
@[simp] theorem graise_mask (g : Group) (f : BitVec 7) : (g.raise f).mask = g.mask := rfl
@[simp] theorem graise_v (g : Group) (f : BitVec 7) : (g.raise f).v = g.v := rfl
@[simp] theorem graise_s (g : Group) (f : BitVec 7) : (g.raise f).s = g.s := rfl
@[simp] theorem graise_p (g : Group) (f : BitVec 7) : (g.raise f).p = g.p := rfl
@[simp] theorem graise_vtag (g : Group) (f : BitVec 7) : (g.raise f).vtag = g.vtag := rfl
@[simp] theorem graise_stag (g : Group) (f : BitVec 7) : (g.raise f).stag = g.stag := rfl
@[simp] theorem graise_ptag (g : Group) (f : BitVec 7) : (g.raise f).ptag = g.ptag := rfl
@[simp] theorem graise_ctl (g : Group) (f : BitVec 7) : (g.raise f).ctl = g.ctl := rfl
@[simp] theorem graise_dep (g : Group) (f : BitVec 7) : (g.raise f).dep = g.dep := rfl
@[simp] theorem graise_snaps (g : Group) (f : BitVec 7) : (g.raise f).snaps = g.snaps := rfl
@[simp] theorem graise_stack (g : Group) (f : BitVec 7) : (g.raise f).stack = g.stack := rfl
@[simp] theorem graise_fmt (g : Group) (f : BitVec 7) : (g.raise f).fmt = g.fmt := rfl
@[simp] theorem graise_gtime (g : Group) (f : BitVec 7) : (g.raise f).gtime = g.gtime := rfl
@[simp] theorem graise_timer (g : Group) (f : BitVec 7) : (g.raise f).timer = g.timer := rfl
@[simp] theorem graise_inFlight (g : Group) (f : BitVec 7) : (g.raise f).inFlight = g.inFlight := rfl
@[simp] theorem graise_sb (g : Group) (f : BitVec 7) : (g.raise f).sb = g.sb := rfl
@[simp] theorem graise_pend (g : Group) (f : BitVec 7) : (g.raise f).pend = g.pend := rfl
@[simp] theorem graise_park (g : Group) (f : BitVec 7) : (g.raise f).park = g.park := rfl
@[simp] theorem graise_latches (g : Group) (f : BitVec 7) : (g.raise f).latches = g.latches := rfl
@[simp] theorem graise_chpos (g : Group) (f : BitVec 7) : (g.raise f).chpos = g.chpos := rfl
@[simp] theorem graise_pst (g : Group) (f : BitVec 7) : (g.raise f).pst = g.pst := rfl
@[simp] theorem graise_exited (g : Group) (f : BitVec 7) : (g.raise f).exited = g.exited := rfl
@[simp] theorem graise_ended (g : Group) (f : BitVec 7) : (g.raise f).ended = g.ended := rfl
@[simp] theorem graise_byExit (g : Group) (f : BitVec 7) : (g.raise f).byExit = g.byExit := rfl
@[simp] theorem graise_age (g : Group) (f : BitVec 7) : (g.raise f).age = g.age := rfl
@[simp] theorem graise_agedAt (g : Group) (f : BitVec 7) : (g.raise f).agedAt = g.agedAt := rfl
@[simp] theorem graise_lastIssue (g : Group) (f : BitVec 7) : (g.raise f).lastIssue = g.lastIssue := rfl
@[simp] theorem graise_codeAt (g : Group) (f : BitVec 7) : (g.raise f).codeAt = g.codeAt := rfl
@[simp] theorem graise_poison (g : Group) (f : BitVec 7) : (g.raise f).poison = g.poison := rfl

/-! ### `Group.issued` -/

@[simp] theorem gissued_gid (g : Group) (n : Nat) : (g.issued n).gid = g.gid := rfl
@[simp] theorem gissued_tid (g : Group) (n : Nat) : (g.issued n).tid = g.tid := rfl
@[simp] theorem gissued_num (g : Group) (n : Nat) : (g.issued n).num = g.num := rfl
@[simp] theorem gissued_core (g : Group) (n : Nat) : (g.issued n).core = g.core := rfl
@[simp] theorem gissued_slot (g : Group) (n : Nat) : (g.issued n).slot = g.slot := rfl
@[simp] theorem gissued_role (g : Group) (n : Nat) : (g.issued n).role = g.role := rfl
@[simp] theorem gissued_width (g : Group) (n : Nat) : (g.issued n).width = g.width := rfl
@[simp] theorem gissued_vregs (g : Group) (n : Nat) : (g.issued n).vregs = g.vregs := rfl
@[simp] theorem gissued_sregs (g : Group) (n : Nat) : (g.issued n).sregs = g.sregs := rfl
@[simp] theorem gissued_sup (g : Group) (n : Nat) : (g.issued n).sup = g.sup := rfl
@[simp] theorem gissued_pc (g : Group) (n : Nat) : (g.issued n).pc = g.pc := rfl
@[simp] theorem gissued_mask (g : Group) (n : Nat) : (g.issued n).mask = g.mask := rfl
@[simp] theorem gissued_v (g : Group) (n : Nat) : (g.issued n).v = g.v := rfl
@[simp] theorem gissued_s (g : Group) (n : Nat) : (g.issued n).s = g.s := rfl
@[simp] theorem gissued_p (g : Group) (n : Nat) : (g.issued n).p = g.p := rfl
@[simp] theorem gissued_vtag (g : Group) (n : Nat) : (g.issued n).vtag = g.vtag := rfl
@[simp] theorem gissued_stag (g : Group) (n : Nat) : (g.issued n).stag = g.stag := rfl
@[simp] theorem gissued_ptag (g : Group) (n : Nat) : (g.issued n).ptag = g.ptag := rfl
@[simp] theorem gissued_ctl (g : Group) (n : Nat) : (g.issued n).ctl = g.ctl := rfl
@[simp] theorem gissued_dep (g : Group) (n : Nat) : (g.issued n).dep = g.dep := rfl
@[simp] theorem gissued_snaps (g : Group) (n : Nat) : (g.issued n).snaps = g.snaps := rfl
@[simp] theorem gissued_stack (g : Group) (n : Nat) : (g.issued n).stack = g.stack := rfl
@[simp] theorem gissued_fmt (g : Group) (n : Nat) : (g.issued n).fmt = g.fmt := rfl
@[simp] theorem gissued_flg (g : Group) (n : Nat) : (g.issued n).flg = g.flg := rfl
@[simp] theorem gissued_gtime (g : Group) (n : Nat) : (g.issued n).gtime = g.gtime := rfl
@[simp] theorem gissued_timer (g : Group) (n : Nat) : (g.issued n).timer = g.timer := rfl
@[simp] theorem gissued_inFlight (g : Group) (n : Nat) : (g.issued n).inFlight = g.inFlight := rfl
@[simp] theorem gissued_sb (g : Group) (n : Nat) : (g.issued n).sb = g.sb := rfl
@[simp] theorem gissued_pend (g : Group) (n : Nat) : (g.issued n).pend = g.pend := rfl
@[simp] theorem gissued_park (g : Group) (n : Nat) : (g.issued n).park = g.park := rfl
@[simp] theorem gissued_latches (g : Group) (n : Nat) : (g.issued n).latches = g.latches := rfl
@[simp] theorem gissued_chpos (g : Group) (n : Nat) : (g.issued n).chpos = g.chpos := rfl
@[simp] theorem gissued_pst (g : Group) (n : Nat) : (g.issued n).pst = g.pst := rfl
@[simp] theorem gissued_exited (g : Group) (n : Nat) : (g.issued n).exited = g.exited := rfl
@[simp] theorem gissued_ended (g : Group) (n : Nat) : (g.issued n).ended = g.ended := rfl
@[simp] theorem gissued_byExit (g : Group) (n : Nat) : (g.issued n).byExit = g.byExit := rfl
@[simp] theorem gissued_codeAt (g : Group) (n : Nat) : (g.issued n).codeAt = g.codeAt := rfl
@[simp] theorem gissued_poison (g : Group) (n : Nat) : (g.issued n).poison = g.poison := rfl

/-! ### `Group.retire` -/

@[simp] theorem gretire_gid (g : Group) (f : Info) (t : Tags) (pc : DWord) (r : Option LatchV) : (g.retire f t pc r).gid = g.gid := rfl
@[simp] theorem gretire_tid (g : Group) (f : Info) (t : Tags) (pc : DWord) (r : Option LatchV) : (g.retire f t pc r).tid = g.tid := rfl
@[simp] theorem gretire_num (g : Group) (f : Info) (t : Tags) (pc : DWord) (r : Option LatchV) : (g.retire f t pc r).num = g.num := rfl
@[simp] theorem gretire_core (g : Group) (f : Info) (t : Tags) (pc : DWord) (r : Option LatchV) : (g.retire f t pc r).core = g.core := rfl
@[simp] theorem gretire_slot (g : Group) (f : Info) (t : Tags) (pc : DWord) (r : Option LatchV) : (g.retire f t pc r).slot = g.slot := rfl
@[simp] theorem gretire_role (g : Group) (f : Info) (t : Tags) (pc : DWord) (r : Option LatchV) : (g.retire f t pc r).role = g.role := rfl
@[simp] theorem gretire_width (g : Group) (f : Info) (t : Tags) (pc : DWord) (r : Option LatchV) : (g.retire f t pc r).width = g.width := rfl
@[simp] theorem gretire_vregs (g : Group) (f : Info) (t : Tags) (pc : DWord) (r : Option LatchV) : (g.retire f t pc r).vregs = g.vregs := rfl
@[simp] theorem gretire_sregs (g : Group) (f : Info) (t : Tags) (pc : DWord) (r : Option LatchV) : (g.retire f t pc r).sregs = g.sregs := rfl
@[simp] theorem gretire_sup (g : Group) (f : Info) (t : Tags) (pc : DWord) (r : Option LatchV) : (g.retire f t pc r).sup = g.sup := rfl
@[simp] theorem gretire_mask (g : Group) (f : Info) (t : Tags) (pc : DWord) (r : Option LatchV) : (g.retire f t pc r).mask = g.mask := rfl
@[simp] theorem gretire_v (g : Group) (f : Info) (t : Tags) (pc : DWord) (r : Option LatchV) : (g.retire f t pc r).v = g.v := rfl
@[simp] theorem gretire_s (g : Group) (f : Info) (t : Tags) (pc : DWord) (r : Option LatchV) : (g.retire f t pc r).s = g.s := rfl
@[simp] theorem gretire_p (g : Group) (f : Info) (t : Tags) (pc : DWord) (r : Option LatchV) : (g.retire f t pc r).p = g.p := rfl
@[simp] theorem gretire_vtag (g : Group) (f : Info) (t : Tags) (pc : DWord) (r : Option LatchV) : (g.retire f t pc r).vtag = g.vtag := rfl
@[simp] theorem gretire_stag (g : Group) (f : Info) (t : Tags) (pc : DWord) (r : Option LatchV) : (g.retire f t pc r).stag = g.stag := rfl
@[simp] theorem gretire_ptag (g : Group) (f : Info) (t : Tags) (pc : DWord) (r : Option LatchV) : (g.retire f t pc r).ptag = g.ptag := rfl
@[simp] theorem gretire_ctl (g : Group) (f : Info) (t : Tags) (pc : DWord) (r : Option LatchV) : (g.retire f t pc r).ctl = g.ctl := rfl
@[simp] theorem gretire_dep (g : Group) (f : Info) (t : Tags) (pc : DWord) (r : Option LatchV) : (g.retire f t pc r).dep = g.dep := rfl
@[simp] theorem gretire_snaps (g : Group) (f : Info) (t : Tags) (pc : DWord) (r : Option LatchV) : (g.retire f t pc r).snaps = g.snaps := rfl
@[simp] theorem gretire_stack (g : Group) (f : Info) (t : Tags) (pc : DWord) (r : Option LatchV) : (g.retire f t pc r).stack = g.stack := rfl
@[simp] theorem gretire_fmt (g : Group) (f : Info) (t : Tags) (pc : DWord) (r : Option LatchV) : (g.retire f t pc r).fmt = g.fmt := rfl
@[simp] theorem gretire_flg (g : Group) (f : Info) (t : Tags) (pc : DWord) (r : Option LatchV) : (g.retire f t pc r).flg = g.flg := rfl
@[simp] theorem gretire_gtime (g : Group) (f : Info) (t : Tags) (pc : DWord) (r : Option LatchV) : (g.retire f t pc r).gtime = g.gtime := rfl
@[simp] theorem gretire_timer (g : Group) (f : Info) (t : Tags) (pc : DWord) (r : Option LatchV) : (g.retire f t pc r).timer = g.timer := rfl
@[simp] theorem gretire_inFlight (g : Group) (f : Info) (t : Tags) (pc : DWord) (r : Option LatchV) : (g.retire f t pc r).inFlight = g.inFlight := rfl
@[simp] theorem gretire_sb (g : Group) (f : Info) (t : Tags) (pc : DWord) (r : Option LatchV) : (g.retire f t pc r).sb = g.sb := rfl
@[simp] theorem gretire_pend (g : Group) (f : Info) (t : Tags) (pc : DWord) (r : Option LatchV) : (g.retire f t pc r).pend = g.pend := rfl
@[simp] theorem gretire_park (g : Group) (f : Info) (t : Tags) (pc : DWord) (r : Option LatchV) : (g.retire f t pc r).park = g.park := rfl
@[simp] theorem gretire_pst (g : Group) (f : Info) (t : Tags) (pc : DWord) (r : Option LatchV) : (g.retire f t pc r).pst = g.pst := rfl
@[simp] theorem gretire_exited (g : Group) (f : Info) (t : Tags) (pc : DWord) (r : Option LatchV) : (g.retire f t pc r).exited = g.exited := rfl
@[simp] theorem gretire_ended (g : Group) (f : Info) (t : Tags) (pc : DWord) (r : Option LatchV) : (g.retire f t pc r).ended = g.ended := rfl
@[simp] theorem gretire_byExit (g : Group) (f : Info) (t : Tags) (pc : DWord) (r : Option LatchV) : (g.retire f t pc r).byExit = g.byExit := rfl
@[simp] theorem gretire_age (g : Group) (f : Info) (t : Tags) (pc : DWord) (r : Option LatchV) : (g.retire f t pc r).age = g.age := rfl
@[simp] theorem gretire_agedAt (g : Group) (f : Info) (t : Tags) (pc : DWord) (r : Option LatchV) : (g.retire f t pc r).agedAt = g.agedAt := rfl
@[simp] theorem gretire_lastIssue (g : Group) (f : Info) (t : Tags) (pc : DWord) (r : Option LatchV) : (g.retire f t pc r).lastIssue = g.lastIssue := rfl
@[simp] theorem gretire_codeAt (g : Group) (f : Info) (t : Tags) (pc : DWord) (r : Option LatchV) : (g.retire f t pc r).codeAt = g.codeAt := rfl
@[simp] theorem gretire_poison (g : Group) (f : Info) (t : Tags) (pc : DWord) (r : Option LatchV) : (g.retire f t pc r).poison = g.poison := rfl

@[simp] theorem gretire_pc (g : Group) (f : Info) (t : Tags) (pc : DWord) (r : Option LatchV) : (g.retire f t pc r).pc = pc := rfl
@[simp] theorem gwrV_poison (g : Group) (n : Nat) (m : Mask) (f : Nat → Word) (t : Tags) :
    (g.wrV n m f t).poison = if m = 0 then g.poison else g.poisonAfter n m := by unfold Group.wrV; split <;> rfl
@[simp] theorem graise_flg (g : Group) (f : BitVec 7) : (g.raise f).flg = g.flg ||| f.setWidth 32 := rfl

end Sys2Proof.Machine
end

