-- ==== Sys2Proof/Laws/Tables.lean ====
section
/-! SUPPORT. Sparse tables: what a read finds after a write, and that writes keep the canonical form; from these, the
laws of bytes of memory. -/

namespace Sys2Proof.Machine

variable {α : Type}

@[simp] theorem sget_nil (d : α) (k : Nat) : sget d [] k = d := rfl

theorem sget_sins (d v : α) (k j : Nat) (m : Sparse α) (h : ∀ e ∈ m, e.1 ≠ k) :
    sget d (sins k v m) j = if j = k then v else sget d m j := by
  induction m with
  | nil =>
    simp only [sins, sget]
    by_cases hj : j = k
    · simp [hj]
    · simp [hj, Ne.symm hj]
  | cons e m ih =>
    obtain ⟨k', v'⟩ := e
    have hk : k' ≠ k := h (k', v') (by simp)
    have hm := ih fun e he => h e (by simp [he])
    simp only [sins]
    by_cases hlt : k < k'
    · simp only [hlt, if_true, sget]
      by_cases hj : j = k
      · simp [hj]
      · simp [hj, Ne.symm hj]
    · simp only [hlt, if_false, sget, hm]
      by_cases h' : k' = j
      · have : j ≠ k := h' ▸ hk
        simp [h', this]
      · simp [h']

theorem sget_filter (d : α) (k j : Nat) (m : Sparse α) :
    sget d (m.filter fun e => e.1 != k) j = if j = k then d else sget d m j := by
  induction m with
  | nil => simp
  | cons e m ih =>
    obtain ⟨k', v'⟩ := e
    by_cases hk : k' = k
    · subst hk
      simp only [List.filter, bne_self_eq_false, sget, ih]
      by_cases hj : j = k'
      · simp [hj]
      · simp [hj, Ne.symm hj]
    · have : (k' != k) = true := by simpa using hk
      simp only [List.filter, this, sget, ih]
      by_cases h' : k' = j
      · have : j ≠ k := h' ▸ hk
        simp [h', this]
      · simp [h']

/-- A read after a write: the value written at its key, the old value everywhere else. -/
@[simp] theorem sget_sset [DecidableEq α] (d : α) (m : Sparse α) (k j : Nat) (v : α) :
    sget d (sset d m k v) j = if j = k then v else sget d m j := by
  unfold sset
  split
  · next h => rw [sget_filter, h]
  · rw [sget_sins _ _ _ _ _ (by intro e he; simpa using (List.mem_filter.1 he).2), sget_filter]
    by_cases hj : j = k <;> simp [hj]

theorem swfFrom_filter [DecidableEq α] (d : α) (p : Nat × α → Bool) (m : Sparse α) :
    ∀ b, swfFrom d b m = true → swfFrom d b (m.filter p) = true := by
  induction m with
  | nil => intro b _; rfl
  | cons e m ih =>
    obtain ⟨k, v⟩ := e
    intro b h
    simp only [swfFrom, Bool.and_eq_true, decide_eq_true_eq] at h
    by_cases hp : p (k, v) = true
    · simp only [List.filter, hp, swfFrom, Bool.and_eq_true, decide_eq_true_eq]
      exact ⟨⟨h.1.1, h.1.2⟩, ih _ h.2⟩
    · have hp : p (k, v) = false := by simpa using hp
      simp only [List.filter, hp]
      refine ih _ ?_
      clear ih
      cases m with
      | nil => rfl
      | cons e' m' =>
        obtain ⟨k', v'⟩ := e'
        simp only [swfFrom, Bool.and_eq_true, decide_eq_true_eq] at h ⊢
        refine ⟨⟨?_, h.2.1.2⟩, h.2.2⟩
        cases b with
        | none => rfl
        | some j =>
          have h1 := h.1.1
          have h2 := h.2.1.1
          simp only [decide_eq_true_eq] at h1 h2 ⊢
          omega

theorem swfFrom_sins [DecidableEq α] (d v : α) (k : Nat) (hv : v ≠ d) (m : Sparse α) (hm : ∀ e ∈ m, e.1 ≠ k) :
    ∀ b, (∀ j, b = some j → j < k) → swfFrom d b m = true → swfFrom d b (sins k v m) = true := by
  induction m with
  | nil => intro b hb _; cases b <;> simp_all [sins, swfFrom]
  | cons e m ih =>
    obtain ⟨k', v'⟩ := e
    intro b hb h
    have hk : k' ≠ k := hm (k', v') (by simp)
    simp only [swfFrom, Bool.and_eq_true, decide_eq_true_eq] at h
    simp only [sins]
    split
    · next hlt =>
      simp only [swfFrom, Bool.and_eq_true, decide_eq_true_eq]
      exact ⟨⟨by cases b <;> simp_all, hv⟩, ⟨hlt, h.1.2⟩, h.2⟩
    · next hlt =>
      simp only [swfFrom, Bool.and_eq_true, decide_eq_true_eq]
      exact ⟨⟨h.1.1, h.1.2⟩, ih (fun e he => hm e (by simp [he])) _ (by intro j hj; simp at hj; omega) h.2⟩

/-- A write keeps a table in its canonical form. -/
theorem swf_sset [DecidableEq α] (d : α) (m : Sparse α) (k : Nat) (v : α) (h : swf d m = true) :
    swf d (sset d m k v) = true := by
  unfold sset swf at *
  have hf := swfFrom_filter d (fun e => e.1 != k) m none h
  split
  · exact hf
  · next hv => exact swfFrom_sins d v k hv _ (by intro e he; simpa using (List.mem_filter.1 he).2) none (by simp) hf

/-! ## Bytes of memory -/

theorem sget_putBytes (bs : List Byte) : ∀ (m : Sparse Byte) (a x : Nat),
    sget 0 (putBytes m a bs) x = if a ≤ x ∧ x < a + bs.length then bs.getD (x - a) 0 else sget 0 m x := by
  induction bs with
  | nil => intro m a x; simp only [putBytes, List.length_nil]; split <;> [omega; rfl]
  | cons b bs ih =>
    intro m a x
    simp only [putBytes, ih, sget_sset, List.length_cons]
    by_cases hx : x = a
    · subst hx; simp
    · by_cases h1 : a + 1 ≤ x ∧ x < a + 1 + bs.length
      · rw [if_pos h1, if_pos (by omega)]
        have : x - a = (x - (a + 1)) + 1 := by omega
        rw [this, List.getD_cons_succ]
      · rw [if_neg h1, if_neg hx, if_neg (by omega)]

/-- A byte after a store: a stored byte in the range, the old byte outside it. -/
theorem rd_wrBytes (s : State) (a : Nat) (bs : List Byte) (x : Nat) :
    (s.wrBytes a bs).rd x = if a ≤ x ∧ x < a + bs.length then bs.getD (x - a) 0 else s.rd x :=
  sget_putBytes bs s.mem a x

/-- Stores keep the canonical form. -/
theorem putBytes_wf (bs : List Byte) : ∀ (m : Sparse Byte) (a : Nat), Memory.wf m = true → Memory.wf (putBytes m a bs) = true := by
  induction bs with
  | nil => intro m a h; exact h
  | cons b bs ih => intro m a h; exact ih _ _ (swf_sset 0 m a b h)

theorem wrBytes_wf (s : State) (a : Nat) (bs : List Byte) (h : Memory.wf s.mem = true) :
    Memory.wf (s.wrBytes a bs).mem = true := putBytes_wf bs s.mem a h

theorem wrNat_wf (s : State) (a n v : Nat) (h : Memory.wf s.mem = true) : Memory.wf (s.wrNat a n v).mem = true :=
  wrBytes_wf s a _ h

theorem wrVA_wf (core ctx : Nat) (sup : Bool) (bs : List Byte) : ∀ (s : State) (va : Nat),
    Memory.wf s.mem = true → Memory.wf (wrVA core ctx sup s va bs).mem = true := by
  induction bs with
  | nil => intro s va h; exact h
  | cons b bs ih =>
    intro s va h
    simp only [wrVA]
    split
    · exact ih _ _ (wrBytes_wf s _ _ h)
    · exact ih _ _ h

/-- The empty memory of reset is in canonical form. -/
theorem reset_mem_wf : Memory.wf State.reset.mem = true := rfl

end Sys2Proof.Machine
end

