-- ==== Sys2Proof/Laws/Regs.lean ====
section
/-! SUPPORT. What a register, a predicate or a group reads as after a write. -/

namespace Sys2Proof.Machine

/-! ## Masks -/

theorem getLsbD_one_shl (i l : Nat) (h : l < 64) : (1#64 <<< i).getLsbD l = decide (l = i) := by
  rw [BitVec.getLsbD_shiftLeft]
  by_cases hi : l = i
  · subst hi; simp [h]
  · by_cases hl : l < i
    · simp [hl, hi]
    · have : l - i ≠ 0 := by omega
      simp [hl, hi, BitVec.getLsbD_one, this]

theorem getLsbD_fold (p : Nat → Bool) (l : Nat) (h : l < 64) (is : List Nat) : ∀ m : Mask,
    (is.foldl (fun m i => if p i then m ||| (1#64 <<< i) else m) m).getLsbD l
      = (m.getLsbD l || (decide (l ∈ is) && p l)) := by
  induction is with
  | nil => intro m; simp
  | cons i is ih =>
    intro m
    simp only [List.foldl_cons, ih]
    by_cases hl : l = i
    · subst hl
      by_cases hp : p l = true
      · simp [hp, h]
      · simp [hp]
    · by_cases hp : p i = true
      · have h1 := getLsbD_one_shl i l h
        rw [if_pos hp, BitVec.getLsbD_or, h1]
        simp [hl]
      · simp [hp, hl]

/-- A lane of a mask built from a test. -/
theorem getLsbD_maskOf (w : Nat) (p : Nat → Bool) (l : Nat) :
    (maskOf w p).getLsbD l = (decide (l < w) && decide (l < 64) && p l) := by
  by_cases h : l < 64
  · unfold maskOf; rw [getLsbD_fold p l h]; simp [h]
  · rw [BitVec.getLsbD_of_ge _ _ (by omega)]; simp [h]

theorem getLsbD_maskFilter (m : Mask) (p : Nat → Bool) (l : Nat) :
    (maskFilter m p).getLsbD l = (m.getLsbD l && p l) := by
  unfold maskFilter
  rw [getLsbD_maskOf]
  by_cases h : l < 64
  · simp [h]
  · rw [BitVec.getLsbD_of_ge m _ (by omega)]; simp

@[simp] theorem mem_lanesOf (m : Mask) (l : Nat) : l ∈ lanesOf m ↔ m.getLsbD l = true := by
  unfold lanesOf
  simp only [List.mem_filter, List.mem_range, and_iff_right_iff_imp]
  intro h
  by_contra hl
  rw [BitVec.getLsbD_of_ge _ _ (by omega)] at h
  exact Bool.noConfusion h

/-- Lanes that execute are lanes of the group, are active and have a guard that holds (R62). -/
theorem execMask_lane (g : Group) (h : Hdr) (l : Nat) :
    (g.execMask h).getLsbD l = (decide (l < g.width) && decide (l < 64) && g.executes h l) := getLsbD_maskOf _ _ _

/-! ## Scalar registers -/

@[simp] theorem rdS_wrS (g : Group) (n k : Nat) (x : Word) (t : Tags) :
    (g.wrS n x t).rdS k = if k = n then x else g.rdS k := by simp [Group.rdS, Group.wrS]

@[simp] theorem rdV_wrS (g : Group) (n k i : Nat) (x : Word) (t : Tags) : (g.wrS n x t).rdV k i = g.rdV k i := rfl

@[simp] theorem stagOf_wrS (g : Group) (n k : Nat) (x : Word) (t : Tags) :
    (g.wrS n x t).stagOf k = if k = n then t else g.stagOf k := by simp [Group.stagOf, Group.wrS]

theorem rdS_wrPair (g : Group) (n k : Nat) (x : DWord) (t : Tags) :
    (g.wrPair n x t).rdS k = if k = n + 1 then hiW x else if k = n then loW x else g.rdS k := by
  simp [Group.wrPair]

/-- The pair just written reads as the value written. -/
theorem pairS_wrPair (g : Group) (n : Nat) (x : DWord) (t : Tags) : (g.wrPair n x t).pairS n = x := by
  simp only [Group.pairS, rdS_wrPair, pairOf, loW, hiW]
  rw [if_neg (show ¬ n = n + 1 by omega), if_pos trivial, if_pos trivial]
  ext i hi
  rw [← BitVec.getLsbD_eq_getElem, ← BitVec.getLsbD_eq_getElem, BitVec.getLsbD_append]
  by_cases h : i < 32
  · simp [h]
  · have : i - 32 < 32 := by omega
    have e : 32 + (i - 32) = i := by omega
    simp [h, this, e]

/-! ## Vector registers -/

theorem sget_foldl_lanes (n : Nat) (f : Nat → Word) (k i : Nat) (hi : i < 64) (is : List Nat) (his : ∀ j ∈ is, j < 64) :
    ∀ v : Sparse Word, sget 0 (is.foldl (fun v i => sset 0 v (n * 64 + i) (f i)) v) (k * 64 + i)
      = if k = n ∧ i ∈ is then f i else sget 0 v (k * 64 + i) := by
  induction is with
  | nil => intro v; simp
  | cons j js ih =>
    intro v
    have hj : j < 64 := his j (by simp)
    simp only [List.foldl_cons, ih (fun x hx => his x (by simp [hx])), sget_sset, List.mem_cons]
    by_cases h1 : k = n ∧ i ∈ js
    · rw [if_pos h1, if_pos ⟨h1.1, Or.inr h1.2⟩]
    · rw [if_neg h1]
      by_cases h2 : k * 64 + i = n * 64 + j
      · have hk : k = n := by omega
        have hij : i = j := by omega
        rw [if_pos h2, if_pos ⟨hk, Or.inl hij⟩, hij]
      · rw [if_neg h2, if_neg]
        rintro ⟨hk, hij | hij⟩
        · exact h2 (by rw [hk, hij])
        · exact h1 ⟨hk, hij⟩

/-- A vector register after a write of the lanes of `m` (R62): those lanes take the new values, every other lane and
register keeps its own. -/
theorem rdV_wrV (g : Group) (n k i : Nat) (m : Mask) (f : Nat → Word) (t : Tags) (hi : i < 64) :
    (g.wrV n m f t).rdV k i = if k = n ∧ m.getLsbD i = true then f i else g.rdV k i := by
  unfold Group.wrV
  split
  · next h => simp [h]
  · have hl : ∀ j ∈ lanesOf m, j < 64 := by
      intro j hj
      unfold lanesOf at hj
      simpa using (List.mem_filter.1 hj).1
    simp only [Group.rdV, sget_foldl_lanes n f k i hi _ hl, mem_lanesOf]

@[simp] theorem rdS_wrV (g : Group) (n k : Nat) (m : Mask) (f : Nat → Word) (t : Tags) : (g.wrV n m f t).rdS k = g.rdS k := by
  simp [Group.rdS]

/-! ## Predicates -/

/-- A predicate after a write (R62): the lanes of `m` take the new values; p0 stays true. -/
theorem rdP_wrP (g : Group) (n k i : Nat) (m x : Mask) (t : Tags) (hi : i < 64) :
    (g.wrP n m x t).rdP k i = if k ≠ 0 ∧ k = n ∧ m.getLsbD i = true then x.getLsbD i else g.rdP k i := by
  unfold Group.wrP
  by_cases hn : n = 0
  · subst hn
    rw [if_pos (by simp), if_neg (by rintro ⟨h1, h2, _⟩; exact h1 h2)]
  · by_cases hm : m = 0
    · simp [hm]
    · simp only [hn, hm, decide_false, Bool.or_false, Bool.false_eq_true, if_false, Group.rdP, sget_sset]
      by_cases hk : k = 0
      · simp [hk]
      · by_cases hkn : k = n
        · subst hkn
          by_cases hb : m.getLsbD i = true
          · have hb' : m[i] = true := by rwa [← BitVec.getLsbD_eq_getElem]
            have hk' : (k == 0) = false := by simpa using hk
            simp [hk, hb', hi, hk']
          · have hb' : m[i] = false := by simpa [← BitVec.getLsbD_eq_getElem] using hb
            simp [hb', hi]
        · simp [hkn]

/-- A predicate pair after a compare (R46, R73). -/
theorem rdP_wrCmp (g : Group) (d : CmpDst) (k i : Nat) (m x : Mask) (t : Tags) (hi : i < 64) :
    (g.wrCmp d m x t).rdP k i =
      if k ≠ 0 ∧ m.getLsbD i = true ∧ (k = d.c.toNat ∨ k = d.k.toNat) then
        (if k = d.k.toNat then !x.getLsbD i else x.getLsbD i)
      else g.rdP k i := by
  simp only [Group.wrCmp, rdP_wrP _ _ _ _ _ _ _ hi]
  by_cases hk : k = 0 <;> by_cases hm : m.getLsbD i = true <;> by_cases h1 : k = d.k.toNat <;>
    by_cases h2 : k = d.c.toNat <;> simp [hk, hm, h1, h2, hi]
  all_goals simp_all

/-! ## Groups of a state -/

theorem find_map_group (l : List Group) (k j : Nat) (f : Group → Group) (hf : ∀ g, g.gid = j → (f g).gid = j) :
    (l.map fun g => if g.gid = j then f g else g).find? (fun g => g.gid == k)
      = (l.find? fun g => g.gid == k).map fun g => if g.gid = j then f g else g := by
  induction l with
  | nil => rfl
  | cons g l ih =>
    simp only [List.map_cons, List.find?_cons]
    by_cases hj : g.gid = j
    · have := hf g hj
      by_cases hk : g.gid = k
      · subst hk; simp [hj, this]
      · have h1 : (j == k) = false := by simpa using fun e => hk (hj.trans e)
        simp [hj, this, h1, ih]
    · by_cases hk : g.gid = k
      · have h1 : ¬ k = j := fun e => hj (hk.trans e)
        simp [hk, h1]
      · have h1 : (g.gid == k) = false := by simpa using hk
        simp [hj, h1, ih]

/-- A group after an update of a group (`f` keeps the number). -/
theorem grp?_updG (s : State) (j k : Nat) (f : Group → Group) (hf : ∀ g, g.gid = j → (f g).gid = j) :
    (s.updG j f).grp? k = (s.grp? k).map fun g => if g.gid = j then f g else g := find_map_group s.groups k j f hf

theorem grp?_gid {s : State} {k : Nat} {g : Group} (h : s.grp? k = some g) : g.gid = k := by
  have := List.find?_some h
  simpa using this

/-- A group after another (or the same) has been stored. -/
theorem grp?_setG (s : State) (g : Group) (k : Nat) :
    (s.setG g).grp? k = if k = g.gid then (s.grp? k).map fun _ => g else s.grp? k := by
  unfold State.setG
  rw [grp?_updG s g.gid k (fun _ => g) (fun _ _ => rfl)]
  by_cases hk : k = g.gid
  · subst hk
    rw [if_pos rfl]
    cases h : s.grp? g.gid with
    | none => rfl
    | some x => simp [grp?_gid h]
  · rw [if_neg hk]
    cases h : s.grp? k with
    | none => rfl
    | some x =>
      have := grp?_gid h
      simp; omega

theorem grp?_updG_ne (s : State) (j k : Nat) (f : Group → Group) (hf : ∀ g, g.gid = j → (f g).gid = j) (h : k ≠ j) :
    (s.updG j f).grp? k = s.grp? k := by
  rw [grp?_updG s j k f hf]
  cases hg : s.grp? k with
  | none => rfl
  | some x => have := grp?_gid hg; simp; omega

theorem grp?_updG_self (s : State) (j : Nat) (g : Group) (f : Group → Group) (hf : ∀ g, g.gid = j → (f g).gid = j)
    (h : s.grp? j = some g) : (s.updG j f).grp? j = some (f g) := by
  rw [grp?_updG s j j f hf, h]
  simp [grp?_gid h]

/-! Lookups that an update leaves alone. -/

@[simp] theorem setG_team? (s : State) (g : Group) (k : Nat) : (s.setG g).team? k = s.team? k := rfl
@[simp] theorem setG_ctx? (s : State) (g : Group) (k : Nat) : (s.setG g).ctx? k = s.ctx? k := rfl
@[simp] theorem setG_op? (s : State) (g : Group) (k : Nat) : (s.setG g).op? k = s.op? k := rfl
@[simp] theorem setG_rd (s : State) (g : Group) (a : Nat) : (s.setG g).rd a = s.rd a := rfl
@[simp] theorem updG_team? (s : State) (j : Nat) (f : Group → Group) (k : Nat) : (s.updG j f).team? k = s.team? k := rfl
@[simp] theorem updG_ctx? (s : State) (j : Nat) (f : Group → Group) (k : Nat) : (s.updG j f).ctx? k = s.ctx? k := rfl
@[simp] theorem updG_op? (s : State) (j : Nat) (f : Group → Group) (k : Nat) : (s.updG j f).op? k = s.op? k := rfl
@[simp] theorem updG_rd (s : State) (j : Nat) (f : Group → Group) (a : Nat) : (s.updG j f).rd a = s.rd a := rfl

end Sys2Proof.Machine
end

