-- ==== Sys2Proof/Laws/Issue.lean ====
section
/-! SUPPORT. What issuing an instruction does when it runs: `issue` in one equation, and what `alu` and `cmp`, through
which every computing instruction goes, leave behind. -/

namespace Sys2Proof.Machine

/-- The context that a meaning is given when `i` runs. -/
def icFor (s : State) (g : Group) (i : Instr) : IC := s.icOf g (infoOf g.fmt i)

/-- An instruction that runs does what its meaning answers. -/
theorem issue_runs {s : State} {g : Group} {i : Instr} (act : State → IC → Act) (h : runs s g i = true) :
    issue i act s = s.settle (icFor s g i) (act (s.setG (icFor s g i).g) (icFor s g i)) := by
  simp only [runs, Bool.and_eq_true, decide_eq_true_eq, Option.isNone_iff_eq_none] at h
  obtain ⟨⟨hg, hr⟩, ht⟩ := h
  simp only [issue, hg, hr, Bool.not_true, Bool.false_eq_true, if_false, ht, icFor]

theorem runs_grp {s : State} {g : Group} {i : Instr} (h : runs s g i = true) : s.grp? s.cur = some g := by
  simp only [runs, Bool.and_eq_true, decide_eq_true_eq] at h
  exact h.1.1

theorem runs_gid {s : State} {g : Group} {i : Instr} (h : runs s g i = true) : g.gid = s.cur := grp?_gid (runs_grp h)

/-- An instruction that does not run because its group is not ready changes nothing. -/
theorem issue_waits {s : State} {g : Group} {i : Instr} (act : State → IC → Act) (hg : s.grp? s.cur = some g)
    (h : s.ready g (infoOf g.fmt i) = false) : issue i act s = s := by
  simp [issue, hg, h]

/-- A group at a trap decided at issue. -/
theorem issue_traps {s : State} {g : Group} {i : Instr} {cls sub : Nat} (act : State → IC → Act)
    (hg : s.grp? s.cur = some g) (hr : s.ready g (infoOf g.fmt i) = true)
    (ht : s.issueTrap g (infoOf g.fmt i) = some (cls, sub)) :
    issue i act s = s.settle (icFor s g i) (.trp cls sub (if g.uniform (infoOf g.fmt i) then 1 else g.mask)) := by
  simp only [issue, hg, hr, Bool.not_true, Bool.false_eq_true, if_false, ht]
  rfl

/-- Completion with only the group changed: the state, and the group after it. -/
theorem settle_goG {s : State} {g g1 : Group} {i : Instr} (h : runs s g i = true) (hid : g1.gid = g.gid)
    (pc : Option DWord) (res : Option LatchV) :
    let c := icFor s g i
    let t := s.settle c (.go ((s.setG c.g).setG g1) pc res)
    t.grp? s.cur = some ((g1.retire c.f c.t (pc.getD c.next) res).issued (s.cycleOf g)) ∧ onlyGroup s t s.cur := by
  have hg := runs_grp h
  have hc := runs_gid h
  intro c t
  have hcg : c.g.gid = s.cur := hc
  have h1 : (s.setG c.g).grp? s.cur = some c.g := by rw [grp?_setG, if_pos hcg.symm, hg]; rfl
  have h2 : ((s.setG c.g).setG g1).grp? s.cur = some g1 := by
    rw [grp?_setG, if_pos (by rw [hid, hc]), h1]; rfl
  have hne : ∀ k, k ≠ s.cur → ((s.setG c.g).setG g1).grp? k = s.grp? k := by
    intro k hk
    rw [grp?_setG, if_neg (by rw [hid, hc]; exact hk), grp?_setG, if_neg (by rw [hcg]; exact hk)]
  have hcyc : s.cycleOf c.g = s.cycleOf g := rfl
  have key : ∀ x : State, x.cur = s.cur → x.grp? s.cur = some g1 →
      ((x.updG c.g.gid fun g => (g.retire c.f c.t (pc.getD c.next) res).issued (s.cycleOf c.g)).grp? s.cur)
        = some ((g1.retire c.f c.t (pc.getD c.next) res).issued (s.cycleOf g)) := by
    intro x _ hx
    rw [hcg, grp?_updG_self x s.cur g1
      (fun g => (g.retire c.f c.t (pc.getD c.next) res).issued (s.cycleOf c.g)) (fun _ h => h) hx, hcyc]
  refine ⟨?_, ?_, ?_⟩
  · show (State.settle s c _).grp? s.cur = _
    simp only [State.settle]
    split
    · exact key _ rfl h2
    · exact key _ rfl h2
  · have ht : (∃ f : Group → Group, t = ((s.setG c.g).setG g1).updG c.g.gid f) ∨ (∃ f : Group → Group, ∃ l,
        t = State.updG { (s.setG c.g).setG g1 with lacc := l } c.g.gid f) := by
      simp only [t, State.settle]
      split
      · exact .inl ⟨_, rfl⟩
      · exact .inr ⟨_, _, rfl⟩
    obtain ⟨f, ht⟩ | ⟨f, l, ht⟩ := ht <;> rw [ht] <;> rfl
  · intro k hk
    show (State.settle s c _).grp? k = _
    simp only [State.settle]
    rw [hcg]
    refine (grp?_updG_ne _ _ _
      (fun g => (g.retire c.f c.t (pc.getD c.next) res).issued (s.cycleOf c.g)) (fun _ h => h) hk).trans ?_
    split <;> exact hne k hk

/-! ## Destinations -/

/-- A latch value built from a function on lanes. -/
theorem latchVec_at (w : Nat) (f : Nat → Word) (l : Nat) (hl : l < w) : (latchVec w f).at l = f l := by
  have : ∀ (is : List Nat) (v : Sparse Word),
      sget 0 (is.foldl (fun v i => sset 0 v i (f i)) v) l = if l ∈ is then f l else sget 0 v l := by
    intro is
    induction is with
    | nil => intro v; simp
    | cons j js ih =>
      intro v
      simp only [List.foldl_cons, ih, sget_sset, List.mem_cons]
      by_cases h1 : l ∈ js
      · simp [h1]
      · by_cases h2 : l = j
        · simp [h2]
        · simp [h1, h2]
  simp only [latchVec, LatchV.at, this, List.mem_range, hl, if_true]

/-- What `setreg` leaves (R45, R49, R62). -/
theorem setreg_wrote (s : State) (g : Group) (i : Instr) (d : Dst) (f : Nat → Word) :
    wrote g ((icFor s g i).setreg d f).1 (infoOf g.fmt i).hdr d f := by
  have hm : (icFor s g i).m = g.execMask (infoOf g.fmt i).hdr := rfl
  have hug : (icFor s g i).ug = guarded g (infoOf g.fmt i).hdr := rfl
  cases d with
  | s n =>
    simp only [IC.setreg, wrote, hug]
    by_cases hu : guarded g (infoOf g.fmt i).hdr = true
    · simp only [hu, if_true, and_true]
      exact ⟨fun k l => rfl, fun k => rdS_wrS _ _ _ _ _, rfl⟩
    · simp only [hu, Bool.false_eq_true, if_false, and_false]
      exact ⟨fun k l => rfl, fun k => rfl, rfl⟩
  | v n =>
    simp only [IC.setreg, wrote, hm]
    refine ⟨fun k => rdS_wrV _ _ _ _ _ _, fun k l hl => rdV_wrV _ _ _ _ _ _ _ hl, ?_⟩
    rw [gwrV_poison]
    split
    next h0 =>
      show g.poison = cleared g _ _
      rw [cleared, h0, if_neg (by rintro ⟨_, hf⟩; exact absurd hf (by decide))]
    next => rfl
  | none =>
    simp only [IC.setreg, wrote]
    split <;> exact ⟨fun k => rfl, fun k l => rfl, rfl⟩

/-- What `setreg` keeps. -/
theorem setreg_keeps (s : State) (g : Group) (i : Instr) (d : Dst) (f : Nat → Word) :
    let x := ((icFor s g i).setreg d f).1
    x = { g with v := x.v, vtag := x.vtag, s := x.s, stag := x.stag, ctl := x.ctl, poison := x.poison } := by
  intro x
  cases d with
  | s n =>
    simp only [x, IC.setreg]
    split <;> rfl
  | v n =>
    simp only [x, IC.setreg, Group.wrV]
    split <;> rfl
  | none =>
    simp only [x, IC.setreg]
    split <;> rfl

/-- What `setreg` hands to the chain (R52). -/
theorem setreg_latch (s : State) (g : Group) (i : Instr) (d : Dst) (f : Nat → Word) (l : Nat) (hl : l < g.width) :
    ((icFor s g i).setreg d f).2.at l = match d with
      | .s n => (((icFor s g i).setreg d f).1).rdS n.toNat
      | .v n => (((icFor s g i).setreg d f).1).rdV n.toNat l
      | .none =>
        if isUni g i then (if guarded g (infoOf g.fmt i).hdr then f 0 else 0)
        else if (g.execMask (infoOf g.fmt i).hdr).getLsbD l then f l else 0 := by
  cases d with
  | s n =>
    simp only [IC.setreg]
    split
    · simp [LatchV.at]
    · rfl
  | v n =>
    simp only [IC.setreg]
    exact latchVec_at _ _ _ hl
  | none =>
    have hu : (icFor s g i).uni = isUni g i := rfl
    have hug : (icFor s g i).ug = guarded g (infoOf g.fmt i).hdr := rfl
    have hm : (icFor s g i).m = g.execMask (infoOf g.fmt i).hdr := rfl
    simp only [IC.setreg, hu, hug, hm]
    split
    · rfl
    · exact latchVec_at _ _ _ hl

/-- Everything that an instruction does whose meaning is `put` of `f`. -/
theorem put_ran {s : State} {g : Group} {i : Instr} (h : runs s g i = true) (d : Dst) (fl : BitVec 7) (f : Nat → Word) :
    let c := icFor s g i
    let t := s.settle c (c.put (s.setG c.g) d fl f)
    ∃ g', t.grp? s.cur = some g' ∧ onlyGroup s t s.cur ∧ keepsAlu g g' ∧ wrote g g' (infoOf g.fmt i).hdr d f ∧
      g'.flg = g.flg ||| fl.setWidth 32 ∧ retires g g' i (infoOf g.fmt i).hdr ∧
      fills g g' i (infoOf g.fmt i).hdr d f := by
  intro c t
  have hw := setreg_wrote s g i d f
  have hl := fun l hl => setreg_latch s g i d f l hl
  obtain ⟨v, vt, sc, st, ct, po, hx⟩ : ∃ v vt sc st ct po, ((icFor s g i).setreg d f).1
      = { g with v := v, vtag := vt, s := sc, stag := st, ctl := ct, poison := po } :=
    ⟨_, _, _, _, _, _, setreg_keeps s g i d f⟩
  rw [hx] at hw
  have key := settle_goG h (g1 := Group.raise { g with v := v, vtag := vt, s := sc, stag := st, ctl := ct, poison := po } fl) rfl none
    (some ((icFor s g i).setreg d f).2)
  have ht : t = s.settle c (.go ((s.setG c.g).setG
      (Group.raise { g with v := v, vtag := vt, s := sc, stag := st, ctl := ct, poison := po } fl)) none
      (some ((icFor s g i).setreg d f).2)) := by
    simp only [t, IC.put]
    rw [← hx]
  rw [ht]
  refine ⟨_, key.1, key.2, rfl, ?_, rfl, ⟨rfl, rfl, ?_⟩, ?_⟩
  · cases d with
    | s n => exact hw
    | v n => exact hw
    | none => exact hw
  · intro hc
    show (if (infoOf g.fmt i).hdr.ch = true then _ else _) = _
    rw [if_neg (by simp [hc])]
  · intro hc hg
    refine ⟨⟨((icFor s g i).setreg d f).2, (icFor s g i).t⟩, ?_, ?_⟩
    · show (if (infoOf g.fmt i).hdr.ch = true then _ else _) = _
      rw [if_pos hc]
      rfl
    · intro l hlw
      have := hl l hlw
      rw [hx] at this
      refine this.trans ?_
      cases d with
      | s n => rfl
      | v n => rfl
      | none =>
        simp only
        split
        next hu => rw [if_pos (hg hu)]
        next => rfl

theorem foldl_evalLanes (s : State) (g : Group) (i : Instr) (f : Nat → BitVec 7) :
    (icFor s g i).evalLanes.foldl (fun a l => a ||| f l) 0
      = (evalsIn g i (infoOf g.fmt i).hdr).foldl (fun a l => a ||| f l) 0 := rfl

/-- Everything that a computing instruction does. -/
theorem alu_ran {s : State} {g : Group} {i : Instr} {h : Hdr} (hr : runs s g i = true) (hh : (infoOf g.fmt i).hdr = h) (d : Dst)
    (f : Nat → Word × BitVec 7) :
    let c := icFor s g i
    ranAlu s (s.settle c (c.alu (s.setG c.g) d f)) g i h d f := by
  subst hh
  exact put_ran hr d _ fun l => (f l).1

/-- Everything that an instruction does whose meaning is `aluOp`; `f` does not look at CTL. -/
theorem aluOp_ran {s : State} {g : Group} {i : Instr} {h : Hdr} (hr : runs s g i = true) (hh : (infoOf g.fmt i).hdr = h) (d : Dst)
    (f : Group → Nat → Word × BitVec 7) (hf : ∀ x l, f { g with ctl := x } l = f g l) :
    ranAlu s (aluOp i d f s) g i h d (f g) := by
  unfold aluOp
  rw [issue_runs _ hr]
  have : (fun l => f (icFor s g i).g l) = f g := by funext l; exact hf _ l
  simp only [this]
  exact alu_ran hr hh d (f g)

theorem setG_self (s : State) (g : Group) : (s.setG g).setG g = s.setG g := by
  have : ((s.groups.map fun x => if x.gid = g.gid then g else x).map fun x => if x.gid = g.gid then g else x)
      = s.groups.map fun x => if x.gid = g.gid then g else x := by
    rw [List.map_map]
    apply List.map_congr_left
    intro a _
    by_cases ha : a.gid = g.gid <;> simp [ha]
  simp only [State.setG, State.updG, this]

/-- What `wrCmp` keeps. -/
theorem wrCmp_keeps (g : Group) (d : CmpDst) (m x : Mask) (t : Tags) :
    ∃ p pt, g.wrCmp d m x t = { g with p := p, ptag := pt } := by
  simp only [Group.wrCmp, Group.wrP]
  split <;> split <;> exact ⟨_, _, rfl⟩

/-- Completion with predicates written and flags raised. -/
theorem pred_ran {s : State} {g : Group} {i : Instr} (hr : runs s g i = true) (d : CmpDst) (m x : Mask) (t : Tags)
    (fl : BitVec 7) :
    let c := icFor s g i
    let u := s.settle c (.go ((s.setG c.g).setG ((c.g.raise fl).wrCmp d m x t)) none none)
    ∃ g', u.grp? s.cur = some g' ∧ onlyGroup s u s.cur ∧ keepsCmp g g' ∧ g'.flg = g.flg ||| fl.setWidth 32 ∧
      retires g g' i (infoOf g.fmt i).hdr ∧
      ∀ k l, l < 64 → g'.rdP k l =
        if k ≠ 0 ∧ m.getLsbD l = true ∧ (k = d.c.toNat ∨ k = d.k.toNat) then
          (if k = d.k.toNat then !x.getLsbD l else x.getLsbD l)
        else g.rdP k l := by
  intro c u
  obtain ⟨p, pt, hx⟩ := wrCmp_keeps (c.g.raise fl) d m x t
  have hp := fun k l hl => rdP_wrCmp (c.g.raise fl) d k l m x t hl
  rw [hx] at hp
  have key := settle_goG hr (g1 := { c.g.raise fl with p := p, ptag := pt }) rfl none none
  have hu : u = s.settle c (.go ((s.setG c.g).setG { c.g.raise fl with p := p, ptag := pt }) none none) := by
    simp only [u]
    rw [← hx]
  rw [hu]
  refine ⟨_, key.1, key.2, rfl, rfl, ⟨rfl, rfl, ?_⟩, hp⟩
  intro hc
  show (if (infoOf g.fmt i).hdr.ch = true then _ else _) = _
  rw [if_neg (by simp [hc])]

/-- Completion that changes nothing but what issuing always sets. -/
theorem skip_ran {s : State} {g : Group} {i : Instr} (hr : runs s g i = true) :
    let c := icFor s g i
    let u := s.settle c (c.skip (s.setG c.g))
    ∃ g', u.grp? s.cur = some g' ∧ onlyGroup s u s.cur ∧ retires g g' i (infoOf g.fmt i).hdr ∧
      g' = { g with ctl := g'.ctl, pc := g'.pc, chpos := g'.chpos, latches := g'.latches, age := g'.age
                    agedAt := g'.agedAt, lastIssue := g'.lastIssue } := by
  intro c u
  have key := settle_goG hr (g1 := c.g) rfl none none
  have hs : (s.setG c.g).setG c.g = s.setG c.g := setG_self s c.g
  simp only [show (s.setG (icFor s g i).g).setG c.g = s.setG c.g from hs] at key
  refine ⟨_, key.1, key.2, ⟨rfl, rfl, ?_⟩, rfl⟩
  intro hc
  show (if (infoOf g.fmt i).hdr.ch = true then _ else _) = _
  rw [if_neg (by simp [hc])]

/-- Everything that a comparing instruction does. -/
theorem cmp_ran {s : State} {g : Group} {i : Instr} {h : Hdr} (hr : runs s g i = true) (hh : (infoOf g.fmt i).hdr = h) (d : CmpDst)
    (f : Nat → Bool × BitVec 7) :
    let c := icFor s g i
    ranCmp s (s.settle c (c.cmp (s.setG c.g) d f)) g i h d f := by
  subst hh
  intro c
  have hu : c.uni = isUni g i := rfl
  have hug : c.ug = guarded g (infoOf g.fmt i).hdr := rfl
  have hm : c.m = g.execMask (infoOf g.fmt i).hdr := rfl
  have hf : c.evalLanes.foldl (fun a l => a ||| (f l).2) 0
      = (evalsIn g i (infoOf g.fmt i).hdr).foldl (fun a l => a ||| (f l).2) 0 := rfl
  unfold IC.cmp
  rw [hu, hf]
  by_cases hun : isUni g i = true
  · by_cases hgu : guarded g (infoOf g.fmt i).hdr = true
    · simp only [hun, if_true, hug, hgu]
      obtain ⟨g', h1, h2, h3, h4, h5, h6⟩ := pred_ran hr d g.mask (if (f 0).1 then g.mask else 0) c.t
        ((evalsIn g i (infoOf g.fmt i).hdr).foldl (fun a l => a ||| (f l).2) 0)
      refine ⟨g', h1, h2, h3, ?_, h4, h5⟩
      intro k l hl
      rw [h6 k l hl]
      simp only [hun, hgu, if_true]
      by_cases hml : g.mask.getLsbD l = true
      · have : (if (f 0).1 then g.mask else 0).getLsbD l = (f 0).1 := by
          cases (f 0).1
          · exact BitVec.getLsbD_zero
          · exact hml
        rw [this]
      · simp only [hml, Bool.false_eq_true, false_and, and_false, if_false]
    · simp only [hun, if_true, hug, hgu, Bool.false_eq_true, if_false]
      obtain ⟨g', h1, h2, h3, h4⟩ := skip_ran hr
      have hfl : g'.flg = g.flg := by rw [h4]
      refine ⟨g', h1, h2, ?_, ?_, ?_, h3⟩
      · have hp : g'.p = g.p := by rw [h4]
        have hpt : g'.ptag = g.ptag := by rw [h4]
        unfold keepsCmp
        rw [hp, hpt, hfl]
        exact h4
      · intro k l hl
        have hp : g'.p = g.p := by rw [h4]
        have hz : (0 : Mask).getLsbD l = false := BitVec.getLsbD_zero
        simp only [hun, hgu, if_true, Bool.false_eq_true, if_false, hz, false_and, and_false, Group.rdP, hp]
      · simp [raises, evalsIn, hun, hgu, hfl]
  · simp only [hun, Bool.false_eq_true, if_false]
    obtain ⟨g', h1, h2, h3, h4, h5, h6⟩ := pred_ran hr d c.m (maskFilter c.m fun l => (f l).1) c.t
      ((evalsIn g i (infoOf g.fmt i).hdr).foldl (fun a l => a ||| (f l).2) 0)
    refine ⟨g', h1, h2, h3, ?_, h4, h5⟩
    intro k l hl
    rw [h6 k l hl, hm]
    simp only [hun, Bool.false_eq_true, if_false, getLsbD_maskFilter]
    by_cases hml : (g.execMask (infoOf g.fmt i).hdr).getLsbD l = true
    · simp only [hml, Bool.true_and]
    · simp only [hml, Bool.false_eq_true, false_and, and_false, if_false]

/-! ## Traps -/

theorem ready_park {s : State} {g : Group} {f : Info} (h : s.ready g f = true) : g.park = none := by
  simp only [State.ready, Bool.and_eq_true] at h
  simpa using h.1.1.1.1.1.1.1.1

/-- A synchronous trap of a group that is not tainted and holds no trap (R209, R211). -/
theorem trap_took {s : State} {g : Group} {i : Instr} (hr : runs s g i = true) (hd : g.dep = 0) (hv : g.sb.valid = false)
    (cls sub : Nat) (lanes : Mask) (lw : Sparse DWord) (code : Word) :
    tookTrap s (s.settle (icFor s g i) (.trap cls sub lanes lw code)) g cls sub lanes := by
  have hg := runs_grp hr
  have hc := runs_gid hr
  have hp : g.park = none := by
    simp only [runs, Bool.and_eq_true] at hr
    exact ready_park hr.1.2
  have hgr : s.grp? (icFor s g i).g.gid = some g := by
    show s.grp? g.gid = some g
    rw [hc]; exact hg
  have he : s.settle (icFor s g i) (.trap cls sub lanes lw code)
      = s.syncTrap (g.issued (s.cycleOf (icFor s g i).g)) ⟨cls, sub, lanes, g.pc, lw, code, 0, (icFor s g i).f.len⟩ := by
    simp only [State.settle, hgr]
    rfl
  rw [he]
  unfold State.syncTrap
  rw [if_pos (show (g.issued _).dep = 0 from hd)]
  unfold State.enterTrap
  rw [if_neg (show ¬ (g.issued _).sb.valid = true by show ¬ g.sb.valid = true; simp [hv])]
  refine ⟨Group.inHandler (Group.issued g (s.cycleOf (icFor s g i).g)) (s.hbase (s.ctxOfG g))
    ⟨cls, sub, lanes, g.pc, lw, code, 0, (icFor s g i).f.len⟩ g.pc true, ?_, ⟨rfl, ?_⟩,
    rfl, rfl, rfl, rfl, rfl, rfl, rfl, rfl, rfl, rfl, rfl, ?_⟩
  · refine (grp?_setG _ _ _).trans ?_
    rw [if_pos (by exact hc.symm)]
    show Option.map _ (s.grp? s.cur) = _
    rw [hg]; rfl
  · intro k hk
    refine (grp?_setG _ _ _).trans ?_
    rw [if_neg (by show ¬ k = g.gid; rw [hc]; exact hk)]
    rfl
  · simp only [Group.inHandler, Group.issued, hp]

end Sys2Proof.Machine
end

