-- ==== Sys2Proof/Laws/Order.lean ====
section
/-! SUPPORT. What the operations that keep the order of other ranks' sources, the race-log entries on their way and the slices of
contexts can do: one lemma for each. -/

namespace Sys2Proof.Machine

/-- An event of a source signalled here puts an end to its operations up to that one (R244). -/
theorem State.past_hear (s : State) (src : Nat) (sends : Bool) (num op k : Nat) (h : k ≤ op) :
    (s.hear src sends num op).past src sends num k = true := by
  simp [State.past, State.hear, h]

/-- It changes nothing about other sources. -/
theorem State.past_hear_of_ne (s : State) (src src' : Nat) (sends sends' : Bool) (num num' op k : Nat)
    (h : ¬ (src = src' ∧ sends = sends' ∧ num = num')) :
    (s.hear src sends num op).past src' sends' num' k = s.past src' sends' num' k := by
  have hd : (src == src' && sends == sends' && num == num') = false := by
    rw [Bool.eq_false_iff]
    intro e
    simp only [Bool.and_eq_true, beq_iff_eq] at e
    exact h ⟨e.1.1, e.1.2, e.2⟩
  simp only [State.past, State.hear, List.any_cons, hd, Bool.false_and, Bool.false_or, List.any_filter]
  congr 1
  funext x
  by_cases hx : x.src = src ∧ x.sends = sends ∧ x.num = num
  · obtain ⟨rfl, rfl, rfl⟩ := hx
    simp [hd]
  · have : (x.src == src && x.sends == sends && x.num == num) = false := by
      rw [Bool.eq_false_iff]
      intro e
      simp only [Bool.and_eq_true, beq_iff_eq] at e
      exact hx ⟨e.1.1, e.1.2, e.2⟩
    simp [this]

/-- Bytes that an operation reaches are overtaken for the earlier ones of its source, where it is another rank's (R244). -/
theorem State.overtaken_reach (s : State) (src : Nat) (sends : Bool) (num op pa n k : Nat) (hr : src ≠ s.rank) (hk : k < op) (hn : 0 < n) :
    (s.reach src sends num op pa n).overtaken src sends num k pa n = true := by
  simp [State.overtaken, State.reach, hr, hk, overlap]
  omega

/-- Neither operation touches anything but its own list. -/
theorem State.hear_eq (s : State) (src : Nat) (sends : Bool) (num op : Nat) :
    s.hear src sends num op = { s with heard := (s.hear src sends num op).heard, reached := (s.hear src sends num op).reached } := rfl
theorem State.reach_eq (s : State) (src : Nat) (sends : Bool) (num op pa n : Nat) :
    s.reach src sends num op pa n = { s with reached := (s.reach src sends num op pa n).reached } := by
  unfold State.reach; split <;> rfl

/-- With no entry on its way, none is stored (R351). -/
@[simp] theorem State.logEntries_nil (s : State) (pick : Nat → RaceEntry → Bool) (h : s.raceq = []) : s.logEntries pick = s := by
  cases s; subst h; rfl

/-- The end of a slice counts for the contexts that wait and changes nothing else (R391). -/
theorem State.countSlice_eq (s : State) (ctx : Nat) : s.countSlice ctx = { s with ctxs := (s.countSlice ctx).ctxs } := rfl

end Sys2Proof.Machine
end

