-- ==== Sys2Proof/Laws/Reads.lean ====
section
/-! SUPPORT. What a read of memory that Praline operations share changes, and what it sees (R373). -/

namespace Sys2Proof.Machine

/-- A `GATH` or `COPY` that reads at a home changes only the noted words and the draw of a free value. -/
theorem State.seeHome_frame (s : State) (pa n : Nat) :
    (s.seeHome pa n).1 = { s with late := (s.seeHome pa n).1.late, free := (s.seeHome pa n).1.free } := by
  unfold State.seeHome State.draw
  dsimp only
  split <;> rfl

@[simp] theorem State.seeHome_mem (s : State) (pa n : Nat) : (s.seeHome pa n).1.mem = s.mem := by
  rw [State.seeHome_frame]

@[simp] theorem State.seeData_mem (s : State) (pa n : Nat) : (s.seeData pa n).1.mem = s.mem := State.seeHome_mem s pa n

/-- Where no word of an operation under way is met, the read is the plain one. -/
theorem State.seeHome_calm (s : State) (pa n : Nat) (h : ∀ e ∈ s.late, 4 * e.word + 4 ≤ pa ∨ pa + n ≤ 4 * e.word) :
    s.seeHome pa n = (s, s.homeRead pa n) := by
  have : s.late.filter (fun e => decide (pa < 4 * e.word + 4) && decide (4 * e.word < pa + n)) = [] := by
    refine List.filter_eq_nil_iff.mpr fun e he => ?_
    have := h e he
    simp only [Bool.and_eq_true, decide_eq_true_eq]
    omega
  unfold State.seeHome
  simp [this]

/-- An operation that is noted leaves memory as it was performed. -/
@[simp] theorem State.noteLate_mem (s : State) (o : Op) (c : PrCmd) (r : PRes) : (s.noteLate o c r).mem = r.s.mem := rfl

end Sys2Proof.Machine
end

