-- ==== Sys2Proof/Tests/Slice0.lean ====
section
/-! SUPPORT. Tests: ill-formed terms that the checks refuse, words of the spec that decode, small steps with results taken from the
spec, and for every obligation with hypotheses states and operands that meet them. -/

namespace Sys2Proof.Tests

open Sys2Proof Sys2Proof.Machine Sys2Proof.Claims

set_option maxRecDepth 20000

/-! ## Small states -/

/-- One resident context with one team of one group, which is ready. -/
def box : State := { State.reset with
  ctxs := [loadCtx], teams := [loadTeam], groups := [loadGroup], nextId := 1
  tlb := [⟨0, 0, loadAddr, 4096, loadAddr, true, true, true⟩]
  mgmt := { Mgmt.reset with booted := true, lpddrcap := 0x18000000000, coremap := BitVec.allOnes 192, diemap := 0xFF } }

/-- The same with another group, or a changed team. -/
def boxG (g : Group) : State := { box with groups := [g] }
def boxT (u : Team) : State := { box with teams := [u] }

def h0 : Hdr := ⟨0, false, false⟩
/-- A guard that holds in no lane, and one that holds in some. -/
def hNone : Hdr := ⟨0, true, false⟩
def hSome : Hdr := ⟨1, false, false⟩

def g0 : Group := loadGroup
/-- Predicate 1 holds in lanes 0 and 2. -/
def gP : Group := { g0 with p := [(1, 5)] }
def gUser : Group := { g0 with sup := false }

/-- The group after a step, and a step that goes on. -/
def after (i : Instr) (s : State) (f : State → Bool) : Bool := match exec i s with | .next t => f t | _ => false
def grpIs (n : Nat) (f : Group → Bool) (t : State) : Bool := match t.grp? n with | some g => f g | none => false
def all (l : List Instr) (s : State) (g : Group) : Bool := l.all (runs s g)

/-! ## Ill-formed terms -/

theorem test_wf_refuses_wide_pair : (Instr.lea64 h0 3 (.abs 0)).wf = false := by decide
theorem test_wf_accepts_even_pair : (Instr.lea64 h0 2 (.abs 0)).wf = true := by decide
theorem test_wf_refuses_chain : (Instr.exit ⟨0, false, true⟩).wf = false := by decide
theorem test_wf_refuses_vector_scalar : (Instr.iadd h0 (.s 1) (.v 1) (.s 2) false false).wf = false := by decide
theorem test_wf_refuses_same_compare : (Instr.icmp h0 ⟨3, 3⟩ .eq false .w32 (.s 1) (.s 2)).wf = false := by decide
theorem test_wf_refuses_float_bitwise : (Instr.rred h0 ⟨0, 0⟩ .and .f32 0 (.v 1) (.v 2) (.v 3)).wf = false := by decide
theorem test_wf_refuses_short_multicast : (Instr.mcst h0 (.s 1) 0 0 0 (.s 2) 2 (.s 3)).wf = false := by decide
/-- Each term fails one check of its operand classes (R44-R50 and the chapters' tables). -/
theorem test_wf_refuses_pairs : [Instr.brx h0 3, .call h0 3 0, .callx h0 2 3, .ret h0 1, .add64 h0 1 2 (.s 3) false,
    .add64 h0 2 2 (.s 3) true, .mfs h0 (.sp64 .clock 1), .rftTo h0 1, .rdclk h0 1, .quiesOld h0 1, .hdrop h0 3,
    .invoke h0 (some 3) 0 (.s 1) 0 0 ⟨0, 0⟩ none, .raceqBase h0 1, .prnew h0 (.s 1) 3 (.s 2) 4, .vinv h0 (.page 1),
    .ballot h0 (.s 1) true 0 false, .acas h0 (.pairS 1) (.ext 2) (.v 1) (.s 2) (.s 4) ⟨0, 0⟩ .dev false,
    .acas h0 (.pairV 2) (.ext 2) (.v 1) (.v 1) (.v 4) ⟨0, 0⟩ .dev false, .gath h0 (.v 1) .n32 (.ext 3) (.v 2)].all (fun i => !i.wf) = true := by
  decide
theorem test_wf_refuses_classes : [Instr.sleep h0 (.v 1), .binit h0 1 (.v 1), .affirm h0 ⟨0, 0⟩ (.imm 1), .gred h0 (.s 1) .add false (.s 2),
    .scat h0 (.l 0) .n32 (.ext 2) (.v 1), .getfmt h0 (.v 1), .prbest h0 (.v 1) 2, .gath h0 .none .n32 (.ext 2) (.v 1),
    .setfmt h0 0 (.s 1), .copy h0 (.s 0) 2 .x false (.d2 3) none 0 false, .creg h0 (.s 1) 2 (.d3 4), .creg h0 (.s 1) 2 (.d1 (.opnd (.v 1))),
    .mdup h0 (.s 1) false 4 (.s 1), .tqry h0 (.s 1) (.slot (.v 1)), .atom h0 (.v 1) .add .i32 (.loc .x (.s 1)) (.v 1) .dev (.s 1) false].all
      (fun i => !i.wf) = true := by decide
theorem test_wf_refuses_values : [Instr.iadd h0 (.s 1) (.s 1) (.s 2) true false, .icmp h0 ⟨1, 2⟩ .un false .w32 (.s 1) (.s 2),
    .faddImm h0 (.s 1) .f16 (.s 1) 0x10000 ⟨false, false, false, false⟩, .gred h0 (.s 1) .add true (.v 2), .cvt h0 (.s 1) .i32 .i16 (some .rtz) (.s 1),
    .quant h0 (some 1) .int8 .f32 2, .mloop h0 ⟨.x, 16, 8, .imm 1, .s 0, .s 0, none, none, 513⟩ 0, .cred h0 (.s 0) 2 .x .and .f32 (.ext 4) none 0 false,
    .atom h0 (.v 1) .and .f32 (.ext 2) (.v 1) .dev (.s 1) false, .atom h0 (.v 1) .inc .i32 (.ext 2) (.v 1) .dev (.s 1) false,
    .coll h0 2 ⟨.bcast, .i32, .min, false, 0, 0, 0, 0, 0, 0, false⟩ (.s 1) (.s 2) (.s 3), .coll h0 2 ⟨.allreduce, .i32, .add, false, 0, 0, 0, 9, 0, 0, false⟩ (.s 1) (.s 2) (.s 3),
    .ctrd h0 (.s 1) .fail 3, .mfs h0 (.sp .lane (.s 1)), .mfs h0 (.tr .lwlo (.s 1)), .mfs h0 (.tr .epc (.s 1)), .mts h0 (.fmt (.v 1)), .mts h0 (.hbase 1),
    .hwaitPark h0 ⟨0, 0⟩ 2 0 17, .invoke h0 none 0 (.s 1) 0 0 ⟨0, 0⟩ (some 192), .hget h0 true ⟨0, 0⟩ 1 2 (.s 1)].all (fun i => !i.wf) = true := by decide

/-! ## Words of the spec -/

theorem test_decode_integer_immediate : decode 0 0x0000002C0000000000000405 = .ok (.bra ⟨1, false, false⟩ 0x2C) 12 := by decide
theorem test_decode_mark : decode 0 0x000000400000000000000019 = .ok (.mark 0x40) 12 := by decide
theorem test_decode_float : decode 0 0x0000140300900A00C04100CD =
    .ok (.ffma h0 .t (.v 4) .f32 (.v 1) (.v 2) (.v 3) ⟨true, false, false, false⟩ false true) 12 := by decide
theorem test_decode_convert : decode 0 0x0EC00202C0700140 = .ok (.cvt h0 (.v 7) .f32 .f16 none (.v 5)) 8 := by decide
theorem test_decode_matrix : decode 0 0x000000000A0100000020020441000182 =
    .ok (.mloop h0 ⟨.x, 16, 8, .s 0, .s 0, .s 32, some 40, none, 0⟩ 1) 16 := by decide
theorem test_decode_local : decode 0 0x00100400402001C0 = .ok (.ldx h0 (.v 2) .n32 (.s 0) (.v 1)) 8 := by decide
theorem test_decode_copy : decode 0 0x00000000000020004400000500000202 =
    .ok (.copy h0 (.s 0) 10 .x false (.d1 (.ext 8192)) (some 2) 0 false) 16 := by decide
theorem test_decode_barriers : decode 0 0x0040030004300224 = .ok (.bwait h0 ⟨3, 4⟩ (.b 2) (.imm 0)) 8 ∧
    decode 0 0x0000000001E00230 = .ok (.bqry h0 (.s 30) .exp (.b 0)) 8 := by decide
theorem test_decode_atomic : decode 0 0x000006016010040540500241 =
    .ok (.atom h0 (.v 5) .add .i32 (.ext 10) (.v 1) .dev (.imm 1) false) 12 := by decide
theorem test_decode_fences : decode 0 0x016000000000024C = .ok (.fence h0 .rel .dev) 8 ∧ decode 0 0x030000000000024C = .ok (.fenceCode h0) 8 ∧
    decode 0 0x0000000000500250 = .ok (.raceqHead h0 (.s 5)) 8 := by decide
theorem test_decode_assumptions : decode 0 0x00000000000000060000530500500282 = .ok (.guess h0 5 (.imm 10) 20 6 0) 16 ∧
    decode 0 0x0000000000000290 = .ok (.twait h0) 8 := by decide
theorem test_decode_handles : decode 0 0x000000000000301408601C14014002C2 = .ok (.invoke h0 (some 20) 40 (.s 7) 20 3 ⟨3, 4⟩ none) 16 ∧
    decode 0 0x0000000A000002C8 = .ok (.hwait h0 .plain ⟨0, 0⟩ 20) 8 := by decide
theorem test_decode_counters : decode 0 0x0000000000E00318 = .ok (.ctrd h0 (.s 14) .val 0) 8 ∧
    decode 0 0x0000030080001720 = .ok (.ctwait ⟨5, false, false⟩ 0 (.imm 1)) 8 := by decide
theorem test_decode_collective : decode 0 0x00000000003826010019030001400312 =
    .ok (.coll h0 20 ⟨.allreduce, .i32, .add, false, 4, 7, 0, 0, 0, 0, false⟩ (.imm 0) (.imm 64) (.imm 1)) 16 := by decide
theorem test_decode_remote : decode 0 0x10802C0300100A0080000301 = .ok (.rput h0 ⟨1, 2⟩ .n32 5 (.v 1) (.v 2) (.v 3)) 12 := by decide
theorem test_decode_praline : decode 0 0x000000000000000C0018200400A00342 = .ok (.prnew h0 (.s 10) 8 (.imm 8) 12) 16 ∧
    decode 0 0x00301C08000000050A900349 = .ok (.prexp h0 ⟨9, 10⟩ 10 (.s 0) (.imm 3) 8) 12 := by decide
theorem test_decode_traps : decode 0 0x0060020140700380 = .ok (.scall h0 7 3 (.v 2)) 8 ∧ decode 0 0x0060020380000384 = .ok (.rftRep h0 7) 8 ∧
    decode 0 0x00000000014003A4 = .ok (.fltq h0 20) 8 := by decide
/-- LEN 11, an unassigned opcode, a length that the opcode has not, an instruction across its block, a set bit 19 (R57, R58). -/
theorem test_decode_refuses : decode 0 3 = .ill 1 ∧ decode 0 (0xFF * 4) = .ill 2 ∧ decode 0 1 = .ill 3 ∧ decode 24 0x000000400000000000000019 = .ill 4 ∧
    decode 0 (2 ^ 19) = .ill 5 := by decide

/-! ## Small steps -/

def v1 (x y : Word) : Group := { g0 with v := [(64, x), (128, y)] }
theorem test_add_wraps : after (.iadd h0 (.v 3) (.v 1) (.v 2) false false) (boxG (v1 0xFFFFFFFF 2))
    (grpIs 0 fun g => g.rdV 3 0 == 1 && g.flg == 0) = true := by decide
theorem test_add_saturates : after (.iadd h0 (.v 3) (.v 1) (.v 2) false true) (boxG (v1 0x7FFFFFFF 2))
    (grpIs 0 fun g => g.rdV 3 0 == 0x7FFFFFFF && g.flg == 64) = true := by decide
theorem test_division_by_zero : after (.idiv h0 (.v 3) (.v 1) (.v 2) false false) (boxG (v1 7 0))
    (grpIs 0 fun g => g.rdV 3 0 == 0xFFFFFFFF && g.flg == 2) = true := by decide
theorem test_shift_by_width : after (.shl h0 (.v 3) (.v 1) (.v 2)) (boxG (v1 7 32)) (grpIs 0 fun g => g.rdV 3 0 == 0) = true := by decide
theorem test_float_one_plus_one : after (.fadd h0 (.v 3) .f32 (.v 1) (.v 2) ⟨false, false, false, false⟩) (boxG (v1 0x3F800000 0x3F800000))
    (grpIs 0 fun g => g.rdV 3 0 == 0x40000000 && g.flg == 0) = true := by decide
theorem test_float_invalid : after (.fsub h0 (.v 3) .f32 (.v 1) (.v 2) ⟨false, false, false, false⟩) (boxG (v1 0x7F800000 0x7F800000))
    (grpIs 0 fun g => g.rdV 3 0 == 0x7FC00000 && g.flg == 1) = true := by decide
theorem test_store_is_queued : after (.stx h0 (.v 1) .n32 (.imm 0) (.imm 8)) (boxG (v1 0xAABBCCDD 0)) (fun t => t.lacc.length == 1) = true := by decide
theorem test_copy_raises_path : after (.copy h0 (.s 0) 10 .x false (.d1 (.ext 64)) none 0 false)
    (boxT { loadTeam with xown := [(0, .engine)] }) (grpIs 0 fun g => g.inFlight.length == 1) = true := by decide
theorem test_wake_is_latched : after (.notifyApertureStore 0xF000000200008) { box with aperture := .clockGated } (fun t => t.wake == 2) = true := by decide
theorem test_resplim_range : after (.resplimWrite 1001) box (fun t => t.mgmt.resplim == 4) = true ∧
    after (.resplimWrite 1000) box (fun t => t.mgmt.resplim == 1000) = true := by decide
/-- The listing of spec/06: a load of one instruction runs as the first after reset. -/
theorem test_loaded_word_runs : (match step (State.reset.withFetchWord 64 0x0000000001E00230) with
    | .next t => grpIs 0 (fun g => g.pc == 0x2008) t | _ => false) = true := by decide

/-! ## Witnesses: states and operands that meet the hypotheses of each obligation

`u` operands are scalar, `v` vector; forms of one shape are listed together. -/

def fm : FMods := ⟨true, false, false, true⟩
/-- Every listed instruction has an entry in one of a claim's tables, and runs. -/
def met (tab : Instr → Bool) (g : Group) (l : List Instr) : Bool := l.all fun i => tab i && runs (boxG g) g i

theorem witness_IntegerArithmeticResults : met (fun i => (arith i).isSome || (minMax i).isSome) g0
    [.iadd h0 (.v 1) (.v 2) (.s 3) false true, .iaddImm hNone .none (.v 2) 7 true true, .isub h0 (.s 1) (.s 2) (.imm 511) false false,
     .isubImm h0 (.v 1) (.v 2) 9 true false, .imul h0 .t (.v 1) (.v 1) (.v 1) false true, .imulImm h0 .l (.v 1) (.v 2) 7 true false,
     .imulh h0 .x (.v 1) (.v 2) (.v 3) false, .imulhImm h0 .t (.s 1) (.s 2) 3 true, .imad ⟨0, false, true⟩ .x .none (.v 1) (.v 2) (.v 3) false true,
     .imin h0 (.v 1) (.v 2) (.v 3) false, .iminImm h0 (.s 1) (.s 2) 3 true, .imax h0 (.v 1) (.v 2) (.v 3) true, .imaxImm h0 (.v 1) (.v 2) 3 false,
     .iabs h0 (.v 1) (.v 2) true, .ineg h0 (.v 1) (.v 2) false] = true := by decide

theorem witness_BitFieldAndMoveResults : met (fun i => (bits i).isSome || (fields i).isSome || (moves i).isSome) g0
    [.and h0 (.v 1) (.v 2) (.s 3), .andImm h0 (.v 1) (.v 2) 3, .or h0 (.s 1) (.s 2) (.s 3), .orImm h0 (.v 1) (.v 2) 3, .xor h0 (.v 1) (.v 2) (.imm 3),
     .xorImm hNone (.v 1) (.v 2) 3, .not h0 (.v 1) (.v 2), .shl h0 (.v 1) (.v 2) (.imm 32), .shr h0 (.v 1) (.v 2) (.imm 31), .sar h0 (.v 1) (.v 2) (.imm 32),
     .rotl h0 (.v 1) (.v 2) (.imm 32), .popc h0 (.v 1) (.v 2), .clz h0 (.s 1) (.s 2), .bfx h0 (.v 1) (.v 2) (.imm 0) (.imm 32) true,
     .bfi h0 (.v 1) (.v 2) (.v 3) (.s 4), .mov h0 (.v 1) (.s 2), .movi h0 (.s 1) 7, .sel h0 (.v 1) (.v 2) (.v 3) 2 false,
     .sel h0 (.s 1) (.s 2) (.s 3) 2 true, .lane h0 (.v 1) .rot (.v 2) (.imm 1)] = true := by decide

theorem witness_ScalarFloatResults : met (fun i => (floats i).isSome || (funs i).isSome) g0
    [.fadd h0 (.v 1) .f32 (.v 2) (.v 3) fm, .faddImm h0 (.v 1) .f16 (.v 2) 3 fm, .fsub h0 (.s 1) .bf16 (.s 2) (.s 3) fm, .fsubImm h0 (.v 1) .f32 (.v 2) 3 fm,
     .fmul h0 .t (.v 1) .f32 (.v 2) (.v 3) fm, .fmulImm h0 .l (.v 1) .f16 (.v 2) 3 fm, .fmin h0 (.v 1) .f32 (.v 2) (.v 3) fm,
     .fminImm h0 (.v 1) .f32 (.v 2) 3 fm, .fmax h0 (.v 1) .f32 (.v 2) (.v 3) fm, .fmaxImm hNone (.v 1) .f32 (.v 2) 3 fm,
     .ffma h0 .x (.v 1) .f32 (.v 2) (.v 3) (.v 4) fm true false, .frcp h0 (.v 1) .f32 (.v 2) true false, .frsq h0 (.v 1) .f16 (.v 2) false false,
     .fsqrt h0 (.s 1) .f32 (.s 2) false false, .fexp2 h0 (.v 1) .f32 (.v 2) false false, .flog2 h0 (.v 1) .bf16 (.v 2) false true,
     .ftanh h0 (.v 1) .f32 (.v 2) false false, .fclass h0 (.v 1) .f16 (.v 2) false false] = true := by decide

theorem witness_PackedAndConversionResults : met (fun i => (packed i).isSome || (convs i).isSome || (compares i).isSome) g0
    [.hadd2 h0 (.v 1) true (.v 2) (.v 3) fm, .hadd2Imm h0 (.v 1) false (.v 2) 3 fm, .hmul2 h0 .t (.v 1) false (.v 2) (.v 3) fm,
     .hmul2Imm h0 .x (.v 1) true (.v 2) 3 fm, .hfma2 h0 .l (.v 1) false (.v 2) (.v 3) (.v 4) fm false true, .hmin2 h0 (.v 1) true (.v 2) (.v 3) fm,
     .hmin2Imm h0 (.v 1) false (.v 2) 3 fm, .hmax2 h0 (.v 1) true (.v 2) (.v 3) fm, .hmax2Imm hNone (.v 1) false (.v 2) 3 fm,
     .cvt h0 (.v 1) .i8 .f32 (some .rtz) (.v 2), .cvt h0 (.v 1) .f16 .n16 none (.v 2), .cvt h0 (.v 1) .i16 .n32 none (.v 2),
     .cvt h0 (.v 1) .bf16 .f32 (some .rdn) (.v 2), .pack h0 (.v 1) .f16x2 (.v 2) (.v 3), .unpack h0 (.v 1) .i16 true (.v 2),
     .icmp h0 ⟨1, 2⟩ .lt true .w8 (.v 1) (.v 2), .icmpImm h0 ⟨1, 0⟩ .eq false .w32 (.s 1) 7, .fcmp h0 ⟨1, 2⟩ .un .f32 (.v 1) (.v 2),
     .fcmpImm h0 ⟨1, 2⟩ .le .f16 (.v 1) 7, .hcmp2 h0 ⟨1, 2⟩ .ge true .any (.v 1) (.v 2), .hcmp2Imm h0 ⟨0, 2⟩ .ord false .lo (.v 1) 7] = true := by decide

theorem witness_SumsAndProductsAreExact : finite (.fin true 3 (-2)) = true ∧ finite (.zero false) = true ∧
    (0x7F800000 < 2 ^ (ffmt .f32).width ∧ fval (ffmt .f32) false 0x7F800000 ≠ .nan) ∧
    (1 < 2 ^ (ffmt .f16).width ∧ fval (ffmt .f16) false 1 ≠ .nan) := by decide

/-- Lane 0 divides by zero and lane 1 the least integer by minus one. -/
def gDiv : Group := { g0 with v := [(64, 7), (65, 0x80000000), (129, 0xFFFFFFFF)] }
theorem witness_DivisionResultsAndTrap : met (fun i => (divs i).isSome) g0
      [.idiv h0 (.v 3) (.v 1) (.v 2) false false, .idivImm h0 (.v 3) (.v 1) 0 true false, .irem h0 (.v 3) (.v 1) (.v 2) true false,
       .iremImm h0 (.s 3) (.s 1) 5 false true] = true ∧
    met (fun i => (divs i).isSome) gDiv [.idiv h0 (.v 3) (.v 1) (.v 2) false true] = true ∧
    (evalsIn gDiv (.idiv h0 (.v 3) (.v 1) (.v 2) false true) h0).any
      (fun l => corner false (gDiv.opnd (.v 1) l, gDiv.opnd (.v 2) l)) = true ∧ gDiv.dep = 0 ∧ gDiv.sb.valid = false := by decide

theorem witness_PairResults : met (fun i => (pairs i).isSome) g0
    [.add64 h0 2 4 (.s 6) true, .add64 h0 2 4 (.imm 5) false, .lea64 h0 2 (.abs 8), .lea64 h0 2 (.rel 0xFFFFFFF0), .lea64 h0 2 (.base 4 8),
     .ballot h0 (.s 2) true 1 true, .rdclk h0 2, .rdtim h0 2, .mfs h0 (.sp64 .clock 2), .mfs h0 (.sp64 .gtime 2), .mfs h0 (.sp64 .pc 2),
     .mfs h0 (.sp64 .hbase 2), .mfs h0 (.sp64 .tags 2), .mfs h0 (.sp64 .ctx 2), .mfs h0 (.sp64 .fqbase 2), .mfs h0 (.tr64 .epc 2),
     .mfs h0 (.tr64 .cpc 2), .mfs h0 (.tr64 .lanes 2), .mfs hNone (.tr64 .cmask 2), .quiesCur h0 2] = true := by decide

theorem witness_CrossLaneResults : met (fun i => (crossing i).isSome) g0
      [.ballot h0 (.s 2) false 1 true, .gred h0 (.s 2) .max false (.v 1), .gred h0 (.s 2) .and true (.v 1), .fsum h0 (.s 2) .f16 (.v 1)] = true ∧
    met (fun _ => true) gP [.vote h0 ⟨1, 2⟩ (.all 1), .vote h0 ⟨1, 2⟩ (.any 1), .vote hSome ⟨3, 2⟩ (.uni (.v 1))] = true := by decide

/-! ### Control -/

def mk1 : Mark := ⟨0x4000, 0xFF, 0, 0, 0, 0⟩
def gM (m : List Mark) : Group := { g0 with stack := m }
/-- `s2:s3` holds 0x4000, the place of a join. -/
def gTo (x : Word) : Group := { g0 with s := [(2, x)] }

theorem witness_BranchEffects :
    (runs box g0 (.bra hNone 0x40) = true ∧ g0.execMask hNone = 0) ∧
    (runs box g0 (.bra h0 0x40) = true ∧ g0.execMask h0 ≠ 0 ∧ g0.mask &&& ~~~g0.execMask h0 = 0 ∧ fits (target g0 0x40)) ∧
    (let g := { gM [mk1] with p := [(1, 5)] }
     runs (boxG g) g (.bra hSome 0x40) = true ∧ g.execMask hSome ≠ 0 ∧ g.mask &&& ~~~g.execMask hSome ≠ 0 ∧ fits (target g 0x40) ∧
       g.stack = [mk1] ∧ mk1.pmask = 0) ∧
    met (fun i => (transfers i).isSome) (gTo 0x4000) [.brx h0 2, .ret h0 2, .call h0 4 0x40, .callx h0 4 2] = true ∧
    (let g := gTo 0x4000
     g.execMask h0 = g.mask ∧ g.mask ≠ 0 ∧ fits (g.pairS 2) ∧ (g.pairS 2).toNat < 2 ^ 54 ∧ fits (target g 0x40) ∧
       (target g 0x40).toNat < 2 ^ 54) ∧
    met (fun i => (transfers i).isSome) g0 [.brx hNone 2] = true := by unfold fits; decide

/-- At a join with pending lanes, and without; the entry of an ended path. -/
def gJ (pm : Mask) : Group := { gM [{ mk1 with join := 0x2000, pmask := pm, ppc := 0x4000 }] with mask := 1 }
theorem witness_MarkAndJoinEffects :
    (runs box g0 (.mark 0x40) = true ∧ fits (target g0 0x40) ∧ g0.stack.length ≠ 32) ∧
    (runs (boxG (gJ 2)) (gJ 2) .join = true ∧ (gJ 2).stack.map (·.join) = [(gJ 2).pc] ∧ fits 0x4000) ∧
    (runs (boxG (gJ 0)) (gJ 0) .join = true) ∧
    (runs box g0 (.exit hNone) = true ∧ g0.execMask hNone = 0 ∧ g0.dep = 0) ∧
    (runs (boxG gP) gP (.exit hSome) = true ∧ (without (gP.execMask hSome) gP).mask ≠ 0) ∧
    (∀ pm : Mask, pm = 2 ∨ pm = 0 →
      let g := { gJ pm with stack := { mk1 with mask := 1 } :: (gJ pm).stack.map fun m => { m with mask := 3 } }
      runs (boxG g) g (.exit h0) = true ∧ g.execMask h0 ≠ 0 ∧ (without (g.execMask h0) g).mask = 0 ∧
        ((without (g.execMask h0) g).stack.take 1).all spent = true ∧ ((without (g.execMask h0) g).stack.drop 1).all spent = false) ∧
    (runs box g0 (.exit h0) = true ∧ g0.execMask h0 ≠ 0 ∧ (without (g0.execMask h0) g0).mask = 0 ∧
      (without (g0.execMask h0) g0).stack.all spent = true) := by
  refine ⟨by unfold fits; decide, by unfold fits; decide, by decide, by decide, by decide, ?_, by decide⟩
  rintro pm (rfl | rfl) <;> decide

def gSl : Group := { g0 with park := some (.sleep 5) }
/-- A pair with bit 54 set. -/
def gHigh : Group := { g0 with s := [(3, 0x400000)] }
theorem witness_PauseAndFormatEffects :
    (met (fun _ => true) g0 [.nop, .yield h0, .yield hNone, .sleep h0 (.imm 0), .sleep h0 (.imm 9), .sleepImm h0 100, .setfmt h0 0x1F (.imm 0),
      .setfmt h0 1 (.imm 9), .setfmt hNone 1 (.imm 9), .setfmtImm h0 0x1F 0x188, .setfmtImm h0 4 0x200, .getfmt h0 (.s 1), .getfmt ⟨0, false, true⟩ .none] = true ∧
      fmtOk 0x1F 0x188 ∧ ¬ fmtOk 4 0x200 ∧ fmtOk 0x1F (g0.opnd (.imm 0) 0) ∧ ¬ fmtOk 1 (g0.opnd (.imm 9) 0)) ∧
    ((boxG gSl).grp? gSl.gid = some gSl ∧ gSl.park = some (.sleep 5)) ∧
    (g0.dep = 0 ∧ g0.sb.valid = false ∧ runs box g0 (.bra h0 2) = true ∧ g0.execMask h0 ≠ 0 ∧ ¬ fits (target g0 2)) ∧
    (let g := { g0 with p := [(1, 5)] }
     runs (boxG g) g (.bra hSome 0x40) = true ∧ g.stack = [] ∧ fits (target g 0x40) ∧ g.execMask hSome ≠ 0 ∧ g.mask &&& ~~~g.execMask hSome ≠ 0) ∧
    (let m := { mk1 with pmask := 8 }
     let g := { gM [m] with p := [(1, 5)] }
     runs (boxG g) g (.bra hSome 0x40) = true ∧ m.pmask ≠ 0 ∧ g.execMask hSome ≠ 0 ∧ g.mask &&& ~~~g.execMask hSome ≠ 0) ∧
    (runs (boxG gP) gP (.brx hSome 2) = true ∧ gP.execMask hSome ≠ 0 ∧ gP.execMask hSome ≠ gP.mask) ∧
    (runs (boxG (gTo 2)) (gTo 2) (.brx h0 2) = true ∧ (gTo 2).execMask h0 = (gTo 2).mask ∧ ¬ fits ((gTo 2).pairS 2)) ∧
    (runs (boxG gHigh) gHigh (.brx h0 2) = true ∧ gHigh.execMask h0 = gHigh.mask ∧ fits (gHigh.pairS 2) ∧
      2 ^ 54 ≤ (gHigh.pairS 2).toNat) ∧
    (runs box g0 (.mark 2) = true ∧ ¬ fits (target g0 2)) ∧
    (let g := gM (List.replicate 32 mk1)
     runs (boxG g) g (.mark 0x40) = true ∧ g.stack.length = 32 ∧ fits (target g 0x40)) ∧
    (runs box g0 .join = true ∧ runs (boxG (gM [mk1])) (gM [mk1]) .join = true ∧ (gM [mk1]).pc ≠ mk1.join) := by
  unfold fits fmtOk; refine ⟨?_, ?_, ?_, ?_, ?_, ?_, ?_, ?_, ?_, ?_, ?_⟩ <;> decide

/-! ### Traps, special registers, translation -/

theorem witness_PrivilegedTrapInUserMode :
    [Instr.rft h0, .rftNext h0, .rftTo h0 2, .rftRep h0 2, .vinv h0 .ctx, .quiesOld h0 2, .quiesCur h0 2, .fltq h0 8, .ctxswSave h0 (.s 1) (.imm 1),
      .ctxswRest h0 (.s 1) (.imm 1), .ctxswQry h0 (.s 1) (.imm 1), .gsetFull h0 (.imm 0) 32 (.imm 0) 0, .gsetSeq h0 (.imm 0) (.imm 0), .gsetClear h0 (.imm 0),
      .mreset h0 (.imm 0), .mfs h0 (.tr .cls (.s 1)), .mfs h0 (.tr64 .epc 2), .mts h0 (.scr 1 (.s 1)), .mts h0 (.hbase 2), .mts h0 (.fqbase 2),
      .mfs h0 (.sp64 .hbase 2), .mfs h0 (.sp64 .ctx 2), .mfs hNone (.sp64 .fqbase 2)].all (fun i => privileged i &&
        (boxG gUser).ready gUser (infoOf gUser.fmt i)) = true ∧
    (boxG gUser).grp? (boxG gUser).cur = some gUser ∧ gUser.sup = false ∧ gUser.dep = 0 ∧ gUser.sb.valid = false := by decide

theorem witness_SoftwareTraps : met (fun _ => true) g0 [.brk h0 9, .brk hNone 9, .scall h0 3 1 (.v 2), .scall hNone 3 1 (.s 2)] = true ∧
    guarded g0 h0 = true ∧ guarded g0 hNone = false ∧ g0.dep = 0 ∧ g0.sb.valid = false ∧ g0.execMask h0 ≠ 0 := by decide

/-- In a handler, after an `SCALL` of lanes 0 and 2; the third has a causing PC that no transfer may reach. -/
def sb5 : SideBuf := { SideBuf.empty with
  valid := true, cls := 5, lanes := 5, epc := 0x4000, cpc := 0x4000, cmask := 0xFF, sync := true, clen := 8, scallD := 3 }
def gT : Group := { g0 with sb := sb5, s := [(2, 0x5000)] }
def gFarJ : Group := { gT with s := [(3, 0x400000)] }
def gBad : Group := { g0 with sb := { sb5 with epc := 2 } }
theorem witness_ReturnFromTrap : met (fun i => (returns i).isSome) gT [.rft h0, .rftNext h0, .rftTo h0 2, .rftRep h0 4] = true ∧
    guarded gT h0 = true ∧ gT.sb.valid = true ∧ gT.sb.cls = 5 ∧ fits gT.sb.epc ∧ fits (gT.pairS 2) ∧ (gT.pairS 2).toNat < 2 ^ 54 ∧
      fits (seqNext gT.sb.cpc ((boxG gT).causeLen gT)) ∧ gT.sb.depth.toNat ≤ gT.stack.length ∧
    gT.sb.cmask ≠ 0 ∧ (boxG gT).regsFree gT [.v gT.sb.scallD.toNat] = true ∧
    met (fun i => (returns i).isSome) g0 [.rft h0, .rftRep h0 4] = true ∧ g0.sb.valid = false ∧ g0.dep = 0 ∧
    met (fun i => (returns i).isSome) gBad [.rft h0] = true ∧ gBad.sb.valid = true ∧ ¬ fits gBad.sb.epc ∧
    met (fun i => (returns i).isSome) gFarJ [.rftTo h0 2] = true ∧ gFarJ.sb.valid = true ∧ fits (gFarJ.pairS 2) ∧
      2 ^ 54 ≤ (gFarJ.pairS 2).toNat ∧
    (boxG gBad).ctx? ((boxG gBad).ctxOfG gBad) = some loadCtx := by unfold fits; decide

def gBase (x : Word) : Group := { g0 with s := [(2, x)] }
def gTm : Group := { g0 with timer := some 3, gtime := 3 }
theorem witness_SpecialRegisterAccess :
    ([SpReg.lane, .width, .group, .team, .core, .die, .rank, .cluster, .clpos, .grid, .fmt, .flg].all fun r =>
      runs box g0 (.mfs h0 (.sp r (.v 1))) && (List.range 64).all fun l => (sp32 box g0 r l).isSome) = true ∧
    ([TrField.cls, .sub, .mode, .lwlo, .lwhi, .code, .chpos, .depth, .scr 3].all fun r =>
      runs box g0 (.mfs h0 (.tr r (.v 1))) && (List.range 64).all fun l => (tr32 g0 r l).isSome) = true ∧
    met (fun _ => true) g0 [.mts h0 (.fmt (.imm 0)), .mts h0 (.fmt (.imm 9)), .mts h0 (.flg (.imm 511)), .mts h0 (.scr 3 (.s 1)), .mts hNone (.flg (.s 1))] = true ∧
    fmtOk 0x1F (g0.opnd (.imm 0) 0) ∧ ¬ fmtOk 0x1F (g0.opnd (.imm 9) 0) ∧
    met (fun _ => true) (gBase 0x3000) [.mts h0 (.hbase 2), .mts h0 (.fqbase 2)] = true ∧ baseOk ((gBase 0x3000).pairS 2) ∧
      untainted (gBase 0x3000) (.mts h0 (.hbase 2)) ∧ untainted (gBase 0x3000) (.mts h0 (.fqbase 2)) ∧
      (boxG (gBase 0x3000)).faultsLeft ((boxG (gBase 0x3000)).ctxOfG (gBase 0x3000)) = false ∧
      (boxG (gBase 0x3000)).ctx? ((boxG (gBase 0x3000)).ctxOfG (gBase 0x3000)) = some loadCtx ∧
    met (fun _ => true) (gBase 1) [.mts h0 (.hbase 2), .mts h0 (.fqbase 2)] = true ∧ ¬ baseOk ((gBase 1).pairS 2) ∧
    met (fun _ => true) g0 [.settim h0 (.imm 0), .settim h0 (.s 1), .settimImm h0 5, .settimImm hNone 0] = true ∧
    ((boxG gTm).grp? gTm.gid = some gTm ∧ gTm.timer = some 3 ∧ (3 : DWord).toNat ≤ gTm.gtime.toNat ∧ gTm.exited = false) := by
  unfold fmtOk baseOk untainted; decide

/-- A context whose three-level walk of 0x2000 ends in a leaf, and a ring with one record. -/
theorem witness_TranslationMaintenance :
    (box.ctx? 0 = some loadCtx ∧ (match box.walk loadCtx 0x2000 with | .bad _ => true | _ => false) = true) ∧
    met (fun _ => true) (gBase 0x2000) [.vinv h0 (.page 2), .vinv h0 .ctx, .vinv h0 .dev, .vinv hNone .dev, .quiesOld h0 4, .fltq h0 8] = true ∧
      untainted (gBase 0x2000) (.vinv h0 (.page 2)) ∧ untainted (gBase 0x2000) (.fltq h0 8) ∧
      (gBase 0x2000).pairS 2 = 0x2000 ∧ box.ringUsed loadCtx = 0 ∧
    (let g := { g0 with s := [(3, 0x400000)] }
     met (fun _ => true) g [.vinv h0 (.page 2)] = true ∧ 2 ^ 54 ≤ (g.pairS 2).toNat ∧ g.dep = 0 ∧ g.sb.valid = false) ∧
    (let s := { box with mem := [(0x1C, 1)] }
     s.ringUsed loadCtx = 1 ∧ loadCtx.faults.length ≤ s.ringUsed loadCtx ∧ s.ctx? (s.ctxOfG g0) = some loadCtx ∧
       runs s g0 (.fltq h0 8) = true) := by unfold untainted; decide

/-- The tables of a context whose walk of 0x2000 ends in a leaf of one GiB. -/
def walked : State := { box with mem := [(2, 1), (0x10000, 1), (0x10001, 0x10), (0x10002, 1), (0x11000, 1), (0x11001, 0x20), (0x11002, 1), (0x12000, 0x11)] }
theorem witness_TranslationMaintenance_leaf : walked.ctx? 0 = some loadCtx ∧
    walked.walk loadCtx 0x2000 = .leaf 0 (2 ^ 30) 0 false false false false := by decide

def ctxN (n : Nat) (st : CtxSt) : Ctx := { loadCtx with num := n, st := st }
/-- Contexts in every state; the group's own is number 0. -/
def five : State := { box with ctxs := [loadCtx, ctxN 1 .free, ctxN 2 .resident, ctxN 3 .saving, ctxN 4 .saved, ctxN 5 .restoring] }
def crowded : State := { box with ctxs := loadCtx :: ctxN 80 .saved :: (List.range 63).map fun n => ctxN (n + 1) .resident }
theorem witness_ContextSwitchAnswers :
    (([0, 1, 2, 3, 4, 5].all fun n => [Instr.ctxswSave h0 (.s 1) (.imm n), .ctxswRest h0 (.s 1) (.imm n), .ctxswQry h0 (.s 1) (.imm n), .ctxswSave h0 .none (.imm n),
        .ctxswQry h0 .none (.imm n)].all fun i =>
      (ctxsws i).isSome && runs five g0 i && decide (g0.tSet (infoOf g0.fmt i) = 0) && (five.ctx? (g0.opnd (.imm n) 0).toNat).isSome) = true) ∧
    (five.ctx? 77 = none ∧ runs five g0 (.ctxswSave h0 (.s 1) (.imm 77)) = true ∧ (g0.opnd (.imm 77) 0).toNat = 77) ∧
    guarded g0 h0 = true ∧ five.mgmt.safe = false ∧ five.residents < 64 ∧
    runs crowded g0 (.ctxswRest h0 (.s 1) (.imm 80)) = true ∧ 64 ≤ crowded.residents ∧ (crowded.ctx? 80).map (·.st) = some .saved := by decide

/-! ### Block formats and the matrix engine -/

def gBlk : Group := { g0 with fmt := 0x60 }
theorem witness_BlockFormatResults :
    met (fun i => (columns i).isSome) g0 [.quant h0 (some 40) .sb4 .f32 8, .dequant h0 (some 40) .f16 .hs8 8, .quant hNone none .sb2 .f16 8] = true ∧
      everyLane g0 h0 ∧ guarded g0 h0 = true ∧ g0.execMask hNone = 0 ∧
    (met (fun i => (columns i).isSome) gP [.quant hSome (some 40) .sb4 .f32 8] = true ∧ gP.execMask hSome ≠ 0 ∧ ¬ everyLane gP hSome) ∧
    (isBlock (bfmtOf gBlk.fmt) = true ∧ met (fun _ => true) gBlk [.qsplit h0 (some 40) .f32 8 (.s 3) 200 1, .qsplit h0 none .f16 8 (.imm 3) 200 0] = true ∧
      everyLane gBlk h0) ∧
    (isBlock (bfmtOf g0.fmt) = false ∧ box.ready g0 (infoOf g0.fmt (.qsplit h0 (some 40) .f32 8 (.s 3) 200 1)) = true) ∧
    (met (fun _ => true) g0 [.mzero h0 3 (.imm 2), .mzero h0 255 (.imm 2), .mzero h0 3 (.imm 0x1FF), .mdup h0 (.s 1) true 8 (.imm 40)] = true ∧
      3 + (g0.opnd (.imm 2) 0).toNat ≤ g0.vregs ∧ box.regsFree g0 ((List.range 2).map fun i => .v (3 + i)) = true ∧
      g0.vregs < 255 + (g0.opnd (.imm 2) 0).toNat ∧ 2 ^ 31 ≤ (g0.opnd (.imm 0x1FF) 0).toNat) := by unfold everyLane; decide

/-- A quad: four computer groups of width 64, on the four sub-cores. -/
def gQ (n : Nat) : Group := { g0 with gid := n, num := n, slot := n, role := .computer, width := 64, mask := BitVec.allOnes 64 }
def qTeam (q : List Quad) : Team := { loadTeam with groups := [0, 1, 2, 3], quads := q, wown := [(0, .engine)] }
def quadS (q : List Quad) : State := { box with teams := [qTeam q], groups := [gQ 0, gQ 1, gQ 2, gQ 3] }
def mops : MOps := ⟨.x, 16, 8, .imm 0, .imm 64, .imm 1, none, none, 0⟩
/-- The four issues of one K-step in FP16, from row 0 of W; and null ones. -/
def mi (null : Bool) (n : Nat) : MIssue :=
  { gid := n, op := n, quarter := n, null := null, partGuard := false, step := false, ac := .x, af := .fp16, bf := .fp16, acc := .fp32
    vc := 16, vb := 8, bstep := 1, aaddr := 0, astride := 64, n := 1, map := 0, klen := 0, pc := 0x2000
    tag := 0, pre := Group.snap g0 0 .other 0, suppressed := false, flags := 0 }
def mset (null started : Bool) : MSet := ⟨0, [mi null 0, mi null 1, mi null 2, mi null 3], started, 0, 0⟩
def quad1 (x : MSet) : Quad := ⟨0, [x], [1, 1, 1, 1], [], 0, none, none⟩

theorem witness_MatrixIssueEffects :
    ([Instr.mloop h0 mops 1, .mstep h0 mops].all fun i => (matrices i).isSome && runs (quadS []) (gQ 0) i) = true ∧
    ((quadS []).team? 0 = some (qTeam []) ∧ (grown (quadS []) (gQ 0) (.mloop h0 mops 1)).quadOf (gQ 0) = some 0 ∧
      (let x := mIssueOf (quadS []) (gQ 0) (.mloop h0 mops 1) mops 1 false
       x.rangeOk 256 = true ∧ (quadS []).regsFree (gQ 0) x.cRegs = true ∧ (quadS []).regsRead (gQ 0) x.bRegs = true) ∧
      ((qTeam []).quad 0).dead.contains 0 = false) ∧
    (let q : Quad := ⟨0, [], [0, 1, 1, 1], [0], 0, none, none⟩
     runs (quadS [q]) (gQ 0) (.mloop h0 mops 1) = true ∧ ((qTeam [q]).quad 0).dead.contains (q.nextSet.getD 0 0) = true) ∧
    (let m := { mops with vc := 250 }
     runs (quadS []) (gQ 0) (.mloop h0 m 1) = true ∧ (mIssueOf (quadS []) (gQ 0) (.mloop h0 m 1) m 1 false).rangeOk 256 = false) ∧
    (let g := { gQ 0 with poison := (gQ 0).imgLines (.v 17) }
     let s := { quadS [] with groups := [g, gQ 1, gQ 2, gQ 3] }
     runs s g (.mloop h0 mops 1) = true ∧ (let x := mIssueOf s g (.mloop h0 mops 1) mops 1 false; g.readsPoison (x.cRegs ++ x.bRegs) = true) ∧ g.dep = 0 ∧
      g.sb.valid = false) ∧
    (runs box g0 (.mloop h0 mops 1) = true ∧ (grown box g0 (.mloop h0 mops 1)).quadOf g0 = none) := by decide
theorem witness_MatrixIssueEffects_sets :
    ((quadS [quad1 (mset true false)]).resident 0 = true ∧ (mset true false).issues.all (·.null) = true ∧ (mset true false).issues.length = 4) ∧
    ((mset false false).issues.all (·.null) = false ∧ setCheck (qTeam [quad1 (mset false false)]) (mset false false).issues = none ∧
      (mset false false).issues.all (fun m => m.ks != []) = true) ∧
    setCheck { qTeam [] with wown := [] } (mset false false).issues = some 0x07 ∧
    ((mset false true).started = true ∧ (mi false 0).ks[(mset false true).kdone]? = some 0 ∧ ((mset false true).issues.map (·.gid)).Nodup ∧
      poisonAt (qTeam []) (mset false true).issues 0 = none) ∧
    (let q := { quad1 { mset false true with waited := 2 ^ 20 } with stall := 2 ^ 20 }
     ∃ x rest, ((qTeam [q]).quad 0).sets = x :: rest ∧ 2 ^ 20 ≤ ((qTeam [q]).quad 0).stall ∧ 2 ^ 20 ≤ x.waited) ∧
    (let s := quadS [quad1 (mset false true)]
     runs s (gQ 0) (.mreset h0 (.imm 1)) = true ∧ guarded (gQ 0) h0 = true ∧ (gQ 0).tSet (infoOf 0 (.mreset h0 (.imm 1))) = 0 ∧
       untainted (gQ 0) (.mreset h0 (.imm 1)) ∧
       (let s0 := grown s (gQ 0) (.mreset h0 (.imm 1))
        s0.groups.find? (fun y => y.core == 0 && y.slot == 1 && !y.ended && s0.holds y.tid) = some (gQ 1) ∧ s0.quadOf (gQ 1) = some 0 ∧
          s0.groups.find? (fun y => y.core == 0 && y.slot == 9 && !y.ended && s0.holds y.tid) = none)) := by
  refine ⟨?_, ?_, ?_, ?_, ?_, ?_⟩ <;> first | decide | exact ⟨_, _, rfl, by decide⟩ | (unfold untainted; decide)
theorem witness_MatrixIssueEffects_checks :
    (∀ k, ¬ failing (qTeam [quad1 (mset false false)]) (mset false false).issues k) ∧ (∃ m ∈ (mset false false).issues, m.ks ≠ []) ∧
    (∀ m ∈ (mset false false).issues.map (fun m => { m with n := 0 }), m.ks = []) ∧
    firstFails { qTeam [] with wown := [] } (mset false false).issues 0x07 := by
  refine ⟨?_, by decide, by decide, [0x01, 0x0A, 0x03, 0x04, 0x05, 0x06], [], rfl, ?_, ?_⟩
  · intro k
    unfold failing
    dsimp only
    split <;> first | decide | (unfold alike; decide) | simp [Claims.accepted, mset, mi]
  · simp only [failing]; decide
  · simp only [List.mem_cons, List.not_mem_nil, or_false, forall_eq_or_imp, forall_eq, failing]
    refine ⟨?_, ?_, ?_, ?_, ?_, ?_⟩ <;> first | decide | (unfold alike; decide) | simp [Claims.accepted, mset, mi]
/-- A quad whose arrays are in reset, asked for by a group of another quad. -/
def qR : Quad := ⟨0, [], [1, 1, 1, 1], [], 0, some [0, 1, 2, 3], some 9⟩
theorem witness_MatrixIssueEffects_reset : ((qTeam [qR]).quad 0).reset = some [0, 1, 2, 3] ∧ qTeam [qR] ∈ (quadS [qR]).teams ∧
    (quadS [qR]).holds 0 = true ∧ g0.gid = 0 ∧ ({ g0 with gid := 9 } : Group).gid ∉ [0, 1, 2, 3] ∧ qR.resetBy = some 9 := by decide

/-! ### Local buffers -/

def uE : Team := { loadTeam with xown := [(0, .engine)], wown := [(0, .engine)] }
def lac (st : Bool) : LAcc := ⟨5, 0, 0, 0, 0, 0, .x, st, .n8, none, [(0, 0, 7), (1, 0, 9)], if st then .none else .v 3, none, 0, Group.snap g0 0 .other 0, false⟩
theorem witness_LocalAccessIssue :
    met (fun i => (locals i).isSome) g0 [.ldx h0 (.v 2) .n32 (.s 0) (.imm 8), .ldw h0 (.s 2) .i8 (.s 0) (.imm 0), .stx h0 (.v 1) .i16 (.s 0) (.v 2), .stw hNone (.v 1) .n8 (.s 0) (.v 2),
      .ldx h0 (.v 2) .n32 (.s 0) (.imm 511), .ldx h0 (.v 2) .n32 (.s 0) (.imm 2)] = true ∧ box.team? g0.tid = some loadTeam ∧
    untainted g0 (.stx h0 (.v 1) .i16 (.s 0) (.v 2)) ∧
    effAddr g0 (.s 0) (.imm 511) 0 < 0 ∧ effAddr g0 (.s 0) (.imm 2) 0 % 4 ≠ 0 ∧ evalsIn g0 (.stw hNone (.v 1) .n8 (.s 0) (.v 2)) hNone = [] ∧
    ((List.range 8).all fun l => loadTeam.owner .x ((effAddr g0 (.s 0) (.imm 8) l).toNat / 4096) == .group &&
      uE.owner .x ((effAddr g0 (.s 0) (.imm 8) l).toNat / 4096) != .group) = true := by
  unfold untainted; decide

def boxA (a : LAcc) : State := { box with lacc := [a] }
theorem witness_LocalAccessPerformance :
    (∀ st, nextAcc (boxA (lac st)) 0 (lac st) ∧ (lac st).store = st ∧ (boxA (lac st)).team? 0 = some loadTeam ∧ (boxA (lac st)).grp? 0 = some g0) ∧
    (∀ x ∈ (lac false).lanes, loadTeam.poisoned .x x.2.1 1 = false) ∧
    met (fun i => (flips i).isSome) g0 [.tgive h0 .x (.imm 0) (.imm 1), .ttake h0 .w (.imm 0) (.imm 4), .tgive h0 .x (.imm 8) (.imm 1), .ttake h0 .x (.imm 0) (.imm 5),
      .ttake h0 .w (.imm 0) (.imm 0), .tgive hNone .x (.imm 0) (.imm 1)] = true ∧ noWaiter box g0 ∧
    loadTeam.owner .x 0 = .group ∧ uE.owner .x 0 = .engine := by
  refine ⟨?_, by decide, by decide, ?_, by decide, by decide⟩
  · intro st
    cases st <;> refine ⟨⟨by decide, by decide, fun b hb _ => .inl (by simpa [boxA] using hb), by decide, by decide⟩, by decide, by decide, by decide⟩
  · intro y hy _
    exact .inl (by simpa [box, g0] using hy)
def gGv (p : Park) : Group := { g0 with park := some p }
theorem witness_LocalAccessPerformance_flips : (gGv (.tgive .x 0 1 [] 0)).park = some (.tgive .x 0 1 [] 0) ∧
    (gGv (.ttake .x 0 1 0)).park = some (.ttake .x 0 1 0) ∧ (∀ k, 0 ≤ k → k < 1 → (boxG (gGv (.ttake .x 0 1 0))).tileBusy loadTeam .x k = false) ∧
    ∀ p, noWaiter (boxG (gGv p)) (gGv p) := by
  refine ⟨by decide, by decide, ?_, ?_⟩
  · intro k _ hk
    obtain rfl : k = 0 := by omega
    decide
  · intro p y hy _
    exact .inl (by simpa [boxG, box] using hy)

def gC : Group := { g0 with inFlight := [⟨.C, 7, false⟩] }
theorem witness_PathCounterInstructions : met (fun _ => true) gC [.waitp h0 .C (.imm 0), .waitp h0 .C (.imm 1), .waitp hNone .M (.imm 0), .pcnt h0 (.s 1) .C] = true ∧
    ¬ gC.pathCount .C ≤ (gC.opnd (.imm 0) 0).toNat ∧ gC.pathCount .C ≤ (gC.opnd (.imm 1) 0).toNat ∧ guarded gC h0 = true := by decide

/-! ### Copies and gathers -/

/-- An operation of the group, number 5. -/
def op0 (c : Cmd) : Op := ⟨5, 0, 0, 0, some .C, 0x2000, c, .active, [], [], [], .none, [], ⟨0, 0⟩, 0xFF, 0xFF, false, 0, 0, true, false, 0, 0, none⟩
def boxO (o : Op) : State := { box with ops := [o], nextId := 9 }
def boxOU (o : Op) (u : Team) : State := { boxO o with teams := [u] }
/-- One row of `n` bytes. -/
def row (n : Nat) : Shape := ⟨n, 1, 1, 0, 0, 0, 0⟩
theorem row_bytes {n p r b : Nat} (h : inShape (row n) p r b) : p = 0 ∧ r = 0 ∧ b < n := by
  obtain ⟨a, b, c⟩ := h
  exact ⟨Nat.lt_one_iff.mp a, Nat.lt_one_iff.mp b, c⟩
/-- `s2:s3` is the external base and s15 the reserved scalar of the shape in s8 … s15. -/
def gX (e rsv : Word) : Group := { g0 with s := [(2, e), (8, 64), (9, 1), (15, rsv)] }
def cpy (d : Opnd) (n : Nat) (bar : Option (BitVec 4)) : Instr := .copy h0 d 2 .x false (.d1 (.ext (BitVec.ofNat 32 n))) bar 0 false

theorem witness_CopyIssue :
    met (fun i => (copies uE (gX 0x2000 0) i).isSome) (gX 0x2000 0)
      [cpy (.imm 0) 64 none, cpy (.imm 0) 64 (some 2), cpy (.imm 2) 64 none, cpy (.imm 0) 16388 none, .copy h0 (.imm 0) 2 .w true .layout none 7 true,
       .copy h0 (.imm 0) 2 .x true (.d2 8) none 0 false, .copy hNone (.imm 0) 2 .x true (.d3 8) none 0 false,
       .cred h0 (.imm 0) 2 .x .add .bf16 (.ext 64) none 0 false] = true ∧
    (copies uE (gX 0x2000 0) (cpy (.imm 0) 64 none)).map (fun x => x.2.2.2.2.2.2.2.2) = some (some (0x2000, row 64, 0, none)) ∧
    (uE.bar 2).expected = 0 ∧ copyFrom uE g0 2 .layout = none ∧ copyFrom uE (gX 0 5) 2 (.d2 8) = some (0, ⟨64, 1, 1, 0, 0, 0, 0⟩, 5, none) ∧
    ¬ strides (row 64) 5 ∧ strides (row 64) 0 ∧ alignedTo 4 (row 64) 0x2000 0 ∧ ¬ alignedTo 4 (row 64) 0x2000 2 ∧ (row 64).lineTags uE .x 0 = 0 ∧
    0 < (row 64).sectors ∧ uE.det = false ∧ box.streamed 0 < 1024 ∧ untainted (gX 0x2000 0) (cpy (.imm 0) 64 none) := by
  unfold strides alignedTo untainted
  refine ⟨?_, ?_, ?_, ?_, ?_, ?_, ?_, ?_, ?_, ?_, ?_, ?_, ?_, ?_⟩ <;> decide
theorem witness_CopyIssue_places : extFits (row 64) 0x2000 ∧ ¬ extFits (row 64) (2 ^ 54) ∧ locFits uE .x (row 64) 0 ∧ ¬ locFits uE .x (row 16388) 0 ∧
    engineOwned uE .x (row 64) 0 ∧ ¬ engineOwned loadTeam .x (row 64) 0 := by
  refine ⟨⟨by decide, ?_⟩, fun h => absurd h.1 (by decide), ?_, ?_, ?_, ?_⟩
  · intro p r b h
    obtain ⟨rfl, rfl, h⟩ := row_bytes h
    simp [row]; omega
  · intro p r b h
    obtain ⟨rfl, rfl, h⟩ := row_bytes h
    simp [locAt, row, uE, loadTeam]; omega
  · intro h
    have := h 0 0 16387 (by unfold inShape; decide)
    simp [locAt, row, uE, loadTeam] at this
  · intro p r b h
    obtain ⟨rfl, rfl, h⟩ := row_bytes h
    have : locAt (row 64) 0 0 0 b / 4096 = 0 := by simp [locAt, row]; omega
    rw [this]; decide
  · intro h
    exact absurd (h 0 0 0 (by unfold inShape; decide)) (by decide)

def cc (n ext : Nat) (out : Bool) : CopyCmd := ⟨5, 0, 0, ext, .x, out, row n, none, 0, none, none, none, false, false, none, 0, [], none⟩
def cop (n ext : Nat) (out : Bool) (sect : Sparse SecSt) : Op := { op0 (.copy (cc n ext out)) with sect := sect }
/-- The hypotheses of the state of a copy under way with sector 0 pending. -/
def carries (o : Op) (c : CopyCmd) : Bool := (boxO o).op? 5 == some o && o.cmd == .copy c && decide (0 < c.shape.sectors) &&
  sget .pending o.sect 0 == .pending && (boxO o).copyGo c && (boxO o).checked loadTeam == none &&
  o.st == .active && (boxO o).earlier o == [] && (boxO o).team? c.tid == some loadTeam && o.carry.all (fun k => k.sector != 0)
/-- A window whose pages the group maps: its entry has no kind. -/
def winTlb : TlbEnt := ⟨0, 0, 0x4000, 4096, 8 * 2 ^ 48, true, true, true⟩
def boxWin (o : Op) : State := { boxO o with tlb := [winTlb] }
theorem witness_SectorEffects :
    ([(512, 0x2000, false), (64, 0x2000, false), (512, 0x2000, true), (512, 0x9000, false), (64, 0x9000, false), (64, 0x9000, true)].all fun x =>
      carries (cop x.1 x.2.1 x.2.2 []) (cc x.1 x.2.1 x.2.2)) = true ∧
    (boxO (cop 512 0x2000 false [])).sectorFaults (cop 512 0x2000 false []) (cc 512 0x2000 false) 0 = [] ∧
    (boxO (cop 512 0x2000 true [])).sectorHomes (cop 512 0x2000 true []) (cc 512 0x2000 true) 0 = [(0, 256, .mem 0x2000)] ∧
    box.target 0x2000 = .lpddr ∧ (cc 512 0x2000 false).shape.sectors = 2 ∧ (cc 64 0x2000 false).shape.sectors = 1 ∧
    (boxO (cop 64 0x9000 false [])).sectorFaults (cop 64 0x9000 false []) (cc 64 0x9000 false) 0 = [(0x9000, 1)] ∧
    (boxWin (cop 64 0x4000 false [])).sectorFaults (cop 64 0x4000 false []) (cc 64 0x4000 false) 0 = [] ∧
    (boxWin (cop 64 0x4000 false [])).sectorRefusal (cop 64 0x4000 false []) (cc 64 0x4000 false) 0 = some 1 := by decide
/-- Sector 0 begun, from word 1 on. -/
def kOf (n : Nat) (w : BitVec 64) : Carry := ⟨0, [(0, n, .here 0x2000)], [], w, 0⟩
theorem witness_SectorEffects_words :
    (boxO (cop 512 0x2000 true [])).carryOf (cop 512 0x2000 true []) (cc 512 0x2000 true) 0 = some (kOf 256 0) ∧
    (let o := { cop 64 0x2000 false [] with carry := [kOf 64 1] }
     (boxO o).carryOf o (cc 64 0x2000 false) 0 = some (kOf 64 1) ∧ (kOf 64 1).done ||| wordsOf 64 = wordsOf 64 ∧ (kOf 64 1).done ||| 2 ≠ wordsOf 64) ∧
    laidOut box 64 0 (kOf 64 1).parts ∧ (cc 64 0x2000 false).shape.lenOf 0 = 64 ∧
    othersLanded (cop 64 0x2000 false []) (cc 64 0x2000 false) 0 ∧ morePending (cop 512 0x2000 true []) (cc 512 0x2000 true) 0 := by
  refine ⟨by decide, by decide, ⟨rfl, rfl, ⟨0x2000, rfl, ?_⟩, rfl⟩, by decide, ?_, 1, by decide, by decide, by decide⟩
  · intro j hj
    have h : j < 64 := hj
    clear hj
    left
    revert h
    revert j
    decide
  · intro m hm hn
    have h : m < 1 := hm
    omega

/-- Sector 0 suspended in a faulted copy. -/
def susp : Op := { op0 (.copy { cc 64 0x2000 false with faulted := true }) with sect := [(0, .suspended [(0x2000, 1)])] }
def gId : Group := { g0 with s := [(2, 5)] }
def uRec (ready : Bool) : Team := { loadTeam with recs := [⟨1, 0x2000, row 64, ready, none, false, []⟩] }
def uFull : Team := { loadTeam with recs := (List.range 64).map fun k => ⟨k + 1, 0x2000, row 64, true, none, false, []⟩ }
theorem witness_RecordsAndReplay :
    (let g := gX 0x2000 0
     met (fun _ => true) g [.creg h0 (.s 1) 2 (.d1 (.ext 64)), .creg h0 (.s 1) 2 (.d2 8), .creg h0 (.s 1) 2 (.d3 8), .cunreg h0 4, .creplay h0 2, .creplayDrop h0 2] = true ∧
       copyFrom loadTeam g 2 (.d1 (.ext 64)) = some (0x2000, row 64, 0, none)) ∧
    strides (row 64) 0 ∧ alignedTo 4 (row 64) 0x2000 0 ∧ loadTeam.recs = [] ∧
    (∀ k, 1 ≤ k → k ≤ 64 → ∃ r ∈ uFull.recs, r.id = k) ∧
    ((boxO (op0 (.creg 1 0x2000 (row 64) (.s 1)))).op? 5).isSome = true ∧ ((row 64).pages 0x2000).length ≤ 65536 ∧
      (∀ p ∈ (row 64).pages 0x2000, box.xlate 0 0 (p * 4096) .read true = .pa 0x2000) ∧
      (∃ p ∈ (row 64).pages 0x9000, box.xlate 0 0 (p * 4096) .read true = .bad 1) ∧
    (let g := { g0 with s := [(4, 1)] }
     runs (boxT (uRec true)) g0 (.cunreg h0 4) = true ∧ runs { boxT (uRec true) with groups := [g] } g (.cunreg h0 4) = true ∧ (g.rdS 4).toNat = 1) ∧
    (boxO (op0 (.cunreg 1 [2]))).op? 5 = some (op0 (.cunreg 1 [2])) := by
  unfold strides alignedTo
  refine ⟨by decide, by decide, by decide, by decide, ?_, by decide, by decide, by decide, by decide, by decide, by decide⟩
  intro k h1 h2
  exact ⟨⟨k, 0x2000, row 64, true, none, false, []⟩, List.mem_map.mpr ⟨k - 1, List.mem_range.mpr (by omega), by simp; omega⟩, rfl⟩
theorem witness_RecordsAndReplay_replay :
    (runs { boxOU susp uE with groups := [gId] } gId (.creplay h0 2) = true ∧ runs { boxOU susp loadTeam with groups := [gId] } gId (.creplayDrop h0 2) = true) ∧
    (gId.rdS 2 = 5 ∧ gId.sup = true ∧ susp.id < 9 ∧ sget .pending susp.sect 0 = .suspended [(0x2000, 1)] ∧ 0 < (row 64).sectors ∧
      unitsOf 4096 ((row 64).locOf 0 0) ((row 64).lenOf 0) = [0] ∧ uE.owner .x 0 = .engine ∧ loadTeam.owner .x 0 ≠ .engine) ∧
    (let g := { gUser with s := [(2, 5)] }
     let o := { op0 (.copy { cc 64 0x2000 false with tid := 3 }) with tid := 3 }
     runs { boxO o with groups := [g] } g (.creplay h0 2) = true ∧ g.sup = false ∧ g.tid ≠ 3) := by decide

def gSc : Group := { g0 with s := [(2, 0x2000), (6, 9)], v := (List.range 8).map fun l => (64 + l, BitVec.ofNat 32 (4 * l)) }
/-- A base whose offsets leave 54 bits, and one whose page has no translation. -/
def gFar : Group := { gSc with s := [(2, 0xFFFFFFFC), (3, 0x3FFFFF), (6, 9)] }
def gUn : Group := { gSc with s := [(2, 0x9000)] }
theorem witness_GatherIssue :
    met (fun i => (gathers i).isSome) gSc [.gath h0 (.v 3) .n32 (.ext 2) (.v 1), .scat h0 (.v 4) .i8 (.ext 2) (.v 1), .gath h0 (.v 3) .n32 (.clu 4) (.v 1),
      .scat hNone (.v 4) .n16 (.clu 4) (.v 1), .gath h0 (.v 3) .n32 (.clu 6) (.v 1), .gath h0 (.v 3) .n32 (.ext 2) (.imm 2)] = true ∧
    untainted gSc (.gath h0 (.v 3) .n32 (.ext 2) (.v 1)) ∧
    (evalsIn gSc (.gath h0 (.v 3) .n32 (.ext 2) (.v 1)) h0).all (fun l =>
      box.xlate 0 0 (0x2000 + 4 * l) .read true == .pa (0x2000 + 4 * l) && (gSc.opnd (.v 1) l).toNat == 4 * l) = true ∧ box.target 0x2000 = .lpddr ∧
    (met (fun _ => true) gFar [.gath h0 (.v 3) .n32 (.ext 2) (.v 1)] = true ∧ 2 ^ 54 ≤ (gFar.pairS 2).toNat + 4) ∧
    (met (fun _ => true) gUn [.gath h0 (.v 3) .n32 (.ext 2) (.v 1)] = true ∧ box.xlate 0 0 0x9000 .read true = .bad 1) ∧
    (gSc.rdS 6 ≠ 0 ∧ loadTeam.clid = none ∧ box.cluTeam loadTeam (gSc.rdS 4).toNat = some loadTeam ∧
      (boxT uE).cluTeam uE (gSc.rdS 4).toNat = some uE ∧ uE.owner .x 0 = .engine ∧ loadTeam.owner .x 0 ≠ .engine ∧ uE.rangeTag .x 28 4 = 0) := by
  unfold untainted; decide

def lane0 (st : LaneSt) (va : Nat) : Lane := ⟨0, va, va, 0, 7, 0, st, 0, false, false, none⟩
def gop (c : Cmd) (st : LaneSt) (d : Dst) : Op := { op0 c with path := some .G, lanes := [lane0 st 0x2000], dst := d }
def cred0 : CopyCmd := { cc 64 0x2000 true with red := some (.add, .f32) }
theorem witness_ReductionAndGatherLanes :
    (carries (op0 (.copy cred0)) cred0 = true ∧ (boxO (op0 (.copy cred0))).elemBlocked (op0 (.copy cred0)) 0x2000 (.here 0x2000) 4 = false ∧
      (boxO (op0 (.copy cred0))).carryOf (op0 (.copy cred0)) cred0 0 = some (kOf 64 0) ∧ placeOf (kOf 64 0).parts 0 = some 0x2000 ∧
      4 * (0 + 1) ≤ cred0.shape.len) ∧
    ([Cmd.gather .n32 none, .scatter .n16 none, .scatter .i8 (some 0), .gather .i16 (some 0)].all fun c =>
      (boxO (gop c .pending (.v 3))).op? 5 == some (gop c .pending (.v 3)) && (gop c .pending (.v 3)).lane? 0 == some (lane0 .pending 0x2000) &&
      !(boxO (gop c .pending (.v 3))).gatherBlocked (gop c .pending (.v 3)) (lane0 .pending 0x2000) c.size) = true ∧
    (box.checked loadTeam = none ∧ box.target 0x2000 = .lpddr ∧ box.poisoned 0x2000 4 = false ∧ loadTeam.poisoned .x 0x2000 2 = false) ∧
    ((gop (.gather .n32 none) (.settled 3) (.v 3)).p = ⟨0, 0⟩ ∧ (boxO (gop (.gather .n32 none) .done (.s 3))).grp? 0 = some g0 ∧
      (boxO (gop (.scatter .n32 none) .done .none)).op? 5 = some (gop (.scatter .n32 none) .done .none)) := by decide
/-- Window 0 leads to rank 5. -/
def farW : Window := ⟨0, 2 + BitVec.ofNat 256 (2 ^ 16 * 5) + BitVec.ofNat 256 (2 ^ 128 * 4096)⟩
def farS (s : State) : State := { s with windows := [(0, farW)], tlb := [winTlb] }
def isFarHome (h : Home) : Bool := match h with | .far _ => true | _ => false
theorem witness_far_homes : isFarHome ((farS box).home (8 * 2 ^ 48) 4 false) = true ∧
    (let s := farS (boxO (cop 64 0x4000 false []))
     (∃ x, s.carryOf (cop 64 0x4000 false []) (cc 64 0x4000 false) 0 = some x ∧ x.done = 0 ∧ ∃ p ∈ x.parts, p.2.2.isFar = true) ∧
     s.sectorRefusal (cop 64 0x4000 false []) (cc 64 0x4000 false) 0 = none) := by
  refine ⟨by decide, ⟨⟨0, [(0, 64, .far (.gfp 5 0 0))], [], 0, 0⟩, ?_⟩, ?_⟩ <;> decide

/-! ### Barriers, atomics, fences -/

/-- Barrier 2 expects two arrivals and is in generation 7. -/
def bar2 (arrived : BitVec 16) : Barrier := ⟨2, arrived, 7, 0, 0, 1⟩
def uB (arrived : BitVec 16) : Team := { loadTeam with bars := [(2, bar2 arrived)] }
/-- A second group, waiting on barrier 2. -/
def gW (gen : Word) : Group := { g0 with gid := 1, num := 1, slot := 1, park := some (.bwait (.b 2) gen ⟨1, 3⟩ 0) }
def boxB (arrived : BitVec 16) : State := { box with teams := [uB arrived], groups := [g0, gW 7] }
def busyB : State := { box with lacc := [lac true] }
theorem witness_BarrierEffects :
    ([Instr.binit h0 3 (.imm 2), .binitImm h0 3 70000, .binit hNone 3 (.imm 1), .barr h0 (.b 2), .barr h0 (.b 5), .barr hNone (.b 5), .bwait h0 ⟨1, 3⟩ (.b 2) (.imm 7),
      .bwait h0 ⟨1, 3⟩ (.b 2) (.imm 6), .barw h0 ⟨1, 3⟩ (.b 2), .barw h0 ⟨1, 3⟩ (.b 5), .barw hNone ⟨1, 3⟩ (.b 2), .binv h0 2, .binv hNone 2].all
        fun i => runs (boxB 0) g0 i && runs (boxB 1) g0 i) = true ∧
    ([BSel.exp, .arr, .gen, .bytes, .stat, .out, .wait, .pend].all fun x => runs (boxB 0) g0 (.bqry h0 (.s 1) x (.b 2))) = true ∧
    (boxB 0).team? 0 = some (uB 0) ∧ (boxB 0).barOf (uB 0) (.b 2) = bar2 0 ∧ ((boxB 0).barOf (uB 0) (.b 5)).expected = 0 ∧
    g0.opnd (.imm 7) 0 = (bar2 0).generation ∧ (bar2 1).arrived + 1 = (bar2 1).expected ∧ (bar2 0).arrived + 1 ≠ (bar2 0).expected ∧
    (runs { busyB with teams := [uB 0] } g0 (.barr h0 (.b 2)) = true ∧ ∃ a ∈ busyB.lacc, a.gid = g0.gid) := by decide
theorem witness_BarrierEffects_busy : busyBar (boxB 0) (uB 0) 2 ∧ ¬ busyBar (boxB 0) (uB 0) 3 ∧ ¬ mustWait (boxB 0) g0 (.b 2) := by
  refine ⟨.inl ⟨gW 7, by decide, by decide, 7, ⟨1, 3⟩, 0, by decide⟩, ?_, ?_⟩
  · rintro (⟨y, hy, -, g0', p, tag, h⟩ | ⟨o, ho, -⟩)
    · fin_cases hy <;> simp [g0, loadGroup, gW] at h
    · simp [boxB, box, State.reset] at ho
  · rintro (⟨a, ha, -⟩ | ⟨h, -⟩)
    · simp [boxB, box, State.reset] at ha
    · cases h

def acasI (b : ABase) (off : Opnd) : Instr := .acas h0 (.one (.v 4)) b off (.v 1) (.v 2) ⟨1, 3⟩ .dev false
def gAt : Group := { g0 with s := [(2, 0x2000), (3, 0), (6, 0xFFFFFFFC), (7, 0x3FFFFF)] }
theorem witness_AtomicIssue :
    met (fun i => (atoms i).isSome) gAt [.atom h0 (.v 4) .add .i32 (.ext 2) (.imm 8) .dev (.v 1) false, .ared h0 .inc .n32 (.ext 2) (.imm 8) .dev (.v 1) true,
      acasI (.ext 2) (.imm 8), .acas h0 (.pairS 8) (.ext 2) (.imm 8) (.s 12) (.s 14) ⟨1, 3⟩ .dev false, .atom h0 (.s 4) .exch .n32 (.loc .x (.s 9)) (.imm 8) .grp (.s 1) false,
      .ared h0 .max .f32 (.loc .w (.s 9)) (.imm 8) .grp (.v 1) false, .atom hNone (.v 4) .add .i32 (.ext 2) (.imm 8) .dev (.v 1) false,
      acasI (.ext 2) (.imm 2), acasI (.ext 6) (.imm 8), acasI (.loc .x (.s 9)) (.imm 2), acasI (.loc .x (.s 9)) (.imm 508)] = true ∧
    (List.range 8).all (fun l => box.xlate 0 0 (0x2000 + (gAt.opnd (.imm 8) l).toNat) .write true == .pa 0x2008) = true ∧
    untainted gAt (acasI (.ext 2) (.imm 8)) ∧ untainted gAt (acasI (.loc .x (.s 9)) (.imm 8)) ∧ box.checked loadTeam = none ∧
    (0x2000 + (gAt.opnd (.imm 2) 0).toNat) % 4 ≠ 0 ∧ 2 ^ 54 ≤ (gAt.pairS 6).toNat + 8 ∧ effAddr gAt (.s 9) (.imm 508) 0 < 0 ∧
    effAddr gAt (.s 9) (.imm 8) 0 = 8 ∧ loadTeam.owner .x 0 = .group ∧ uE.owner .x 0 ≠ .group ∧ loadTeam.rangeTag .x 8 4 = 0 := by
  unfold untainted; decide

def acmd (loc : Option Buf) : AtomCmd := ⟨.add, .i32, false, 4, loc, false, true, .none, 12⟩
def aop (loc : Option Buf) (st : LaneSt) (va : Nat) : Op :=
  { op0 (.atomic (acmd loc)) with path := some .A, lanes := [lane0 st va], dst := .v 3 }
def atAcc : LAcc := { lac true with atom := some 5, ty := .n32, lanes := [(0, 8, 7)] }
theorem witness_AtomicAccesses :
    ([(LaneSt.pending, 0x2000), (.retry, 0x2000), (.pending, 0x9000), (.retry, 0x9000)].all fun x =>
      let o := aop none x.1 x.2
      (boxO o).op? 5 == some o && o.lane? 0 == some (lane0 x.1 x.2) && !(boxO o).atomBlocked o (acmd none) (lane0 x.1 x.2) && (boxO o).grp? 0 == some g0) = true ∧
    box.xlate 0 0 0x2000 .write true = .pa 0x2000 ∧ box.poisoned 0x2000 4 = false ∧ box.xlate 0 0 0x9000 .write true = .bad 1 ∧
    (farS box).xlate 0 0 0x4000 .write true = .pa (8 * 2 ^ 48) ∧ isFarHome ((farS box).home (8 * 2 ^ 48) 4 true) = true ∧
    atomSize (acmd none) ∧ apart (aop none .done 0x2000) (acmd none) ∧
    (boxO (aop none .done 0x2000)).op? 5 = some (aop none .done 0x2000) := by unfold atomSize apart; decide
/-- An ordered atomic in X under way; a base whose page has no translation. -/
def aord : Op := { aop (some .x) .pending 8 with cmd := .atomic { acmd (some .x) with ord := true } }
def gAtU : Group := { g0 with s := [(2, 0x9000)] }
theorem witness_AtomicIssue_waits :
    (let i := Instr.ared h0 .add .i32 (.loc .w (.s 9)) (.imm 8) .grp (.v 1) true
     runs (boxO aord) g0 i = true ∧ aord.gid = 0 ∧ aord.id < 9 ∧ aord.lanes.any (fun l => !l.st.ended) = true ∧ untainted g0 i) ∧
    (met (fun i => (atoms i).isSome) gAtU [.ared h0 .inc .n32 (.ext 2) (.imm 8) .dev (.v 1) false] = true ∧ box.xlate 0 0 0x9008 .write true = .bad 1 ∧
      box.ctx? 0 = some loadCtx) := by unfold untainted; decide
theorem witness_AtomicAccesses_lanes :
    (let o := aop none .pending 0x2000
     (o.lanes.map (·.lane)).Nodup ∧ (boxO o).lowerLane o (lane0 .pending 0x2000) = false ∧ box.checked loadTeam = none ∧ loadTeam.det = false ∧
       box.target 0x2000 = .lpddr ∧ isFarHome ((farS box).home (8 * 2 ^ 48) 4 true) = true) := by decide
theorem witness_AtomicAccesses_local : nextAcc { boxO (aop (some .x) .pending 8) with lacc := [atAcc] } 0 atAcc ∧ atAcc.atom = some 5 ∧
    (acmd (some .x)).loc = some atAcc.buf ∧ loadTeam.poisoned .x 8 4 = false := by
  refine ⟨⟨by decide, by decide, fun b hb _ => .inl (by simpa using hb), by decide, by decide⟩, by decide, by decide, by decide⟩

theorem witness_FencesAndRaceLog :
    met (fun i => (fences i).isSome) g0 [.fence h0 .rel .dev, .fence h0 .acq .grp, .fence hNone .rel .dev, .fenceCode h0] = true ∧
    met (fun _ => true) (gBase 0x3000) [.raceqHead h0 (.s 1), .raceqBase h0 2, .raceqBase hNone 2] = true ∧
    (box.lacc = [] ∧ g0.pathCount .G = 0 ∧ g0.pathCount .A = 0 ∧ g0.pathCount .F = 0 ∧ g0.pathCount .S = 0 ∧ g0.pathCount .C = 0) ∧
    (runs (boxG gC) gC (.fence h0 .rel .dev) = true ∧ gC.pathCount .C ≠ 0) ∧
    ((gBase 0x3000).pairS 2).toNat % 4096 = 0 ∧ ((gBase 1).pairS 2).toNat % 4096 ≠ 0 ∧ met (fun _ => true) (gBase 1) [.raceqBase h0 2] = true ∧
    (let g := { g0 with s := [(3, 0x400000)] }
     met (fun _ => true) g [.raceqBase h0 2] = true ∧ (g.pairS 2).toNat % 4096 = 0 ∧ 2 ^ 54 ≤ (g.pairS 2).toNat) := by decide

/-! ### Assumptions -/

/-- Entry 0 of the handle table at generation 1, of an `INVOKE`; `s4:s5` names it. -/
def hEnt (st : HSt) (loc : Nat) (fwd : List (InvMsg × Nat)) (busy : Bool) : HEntry := ⟨1, st, 1, 0, 0, [9], [], loc, false, fwd, busy⟩
def boxH (st : HSt) : State := { box with handles := [(0, hEnt st 0 [] false)] }
def hd0 : DWord := handleOf 0 0 1 1
def gH : Group := { g0 with s := [(4, 0x4000000), (5, 0x100)] }
def putG (s : State) (g : Group) : State := { s with groups := [g] }
def putT (s : State) (u : Team) : State := { s with teams := [u] }
/-- A team whose slot 0 is used, its group tainted by it; a team with no slot free. -/
def uS (child : Bool) (n : Nat) : Team := { loadTeam with slots := List.replicate n ⟨.loc, 1, child⟩ ++ List.replicate (8 - n) ⟨.free, 0, false⟩ }
def gTn (g : Group) : Group := { g with dep := 1 }
def gu : Instr := .guess h0 8 (.imm 5) 4 10 0
def gn (off : Word) : Instr := .guessN h0 8 (.imm 5) 10 off

theorem witness_GuessEffects :
    ([HSt.pending, .resolved, .broken, .free].all fun st => runs (putG (boxH st) gH) gH gu) = true ∧ runs (putG (boxH .pending) gH) gH (.guess hNone 8 (.imm 5) 4 10 0) = true ∧
    gH.pairS 4 = hd0 ∧ box.isFar hd0 = false ∧ ((boxH .pending).askHome hd0 0).state = 1 ∧ ((boxH .resolved).askHome hd0 0).state ≠ 1 ∧
    runs (putT (putG (boxH .pending) (gTn gH)) (uS true 1)) (gTn gH) gu = true ∧ runs (putT (putG (boxH .pending) gH) (uS false 8)) gH gu = true ∧
    (runs box g0 (gn 0x40) = true ∧ runs box g0 (gn 2) = true ∧ fits (target g0 0x40) ∧ ¬ fits (target g0 2)) ∧
    runs (putT (putG box (gTn g0)) (uS true 1)) (gTn g0) (gn 0x40) = true ∧ runs (putT box (uS false 8)) g0 (gn 0x40) = true ∧
    box.allocatable 0 = true ∧ g0.dep.getLsbD 0 = false := by
  unfold fits; decide
theorem witness_GuessEffects_slots : holdsChild (uS true 1) (gTn g0).dep ∧ ¬ holdsChild loadTeam g0.dep ∧ lowestFree loadTeam 0 ∧ ¬ ∃ k, lowestFree (uS false 8) k := by
  refine ⟨⟨0, ⟨.loc, 1, true⟩, by decide, by decide, by decide, rfl⟩, ?_, ⟨by decide, ⟨⟨.free, 0, false⟩, by decide, rfl⟩, fun j x h => absurd h (Nat.not_lt_zero j)⟩, ?_⟩
  · rintro ⟨k, x, -, h, -⟩
    simp [g0, loadGroup] at h
  · rintro ⟨k, hk, ⟨x, h, e⟩, -⟩
    interval_cases k <;> (obtain rfl := Option.some.inj (h.symm.trans rfl); cases e)

/-- Entry 0 of the home table at generation 1; its AID is 1. -/
def nEnt (st : NSt) (kindN : Bool) (rno : Nat) : NEntry := ⟨1, st, kindN, 0, 0, [], [], [], 0, 0, 0, 9, some ⟨2, 0, 1, [9], []⟩, rno, 0⟩
def boxN (e : NEntry) : State := { box with homes := [(0, e)] }
def rop (status : Nat) (aid : Word) : Op := { op0 (.resolve aid true) with path := none, status := status }
theorem witness_AssumptionRequests :
    (runs (putT (putG box (gTn g0)) (uS false 1)) (gTn g0) (.affirm h0 ⟨1, 2⟩ (.imm 1)) = true ∧ (uS false 1).slotOf ((gTn g0).opnd (.imm 1) 0) = some 0 ∧
      runs (putT (putG box (gTn g0)) (uS false 1)) (gTn g0) (.deny h0 ⟨1, 2⟩ (.imm 7)) = true ∧ (uS false 1).slotOf ((gTn g0).opnd (.imm 7) 0) = none ∧
      (uS false 1).held.length < 256 ∧ met (fun i => (resolves i).isSome) g0 [.affirm hNone ⟨1, 2⟩ (.imm 1), .deny h0 ⟨1, 2⟩ (.imm 1)] = true) ∧
    ((boxO (rop 0 1)).op? 5 = some (rop 0 1) ∧ aidHome 1 = 0 ∧ (let e := (boxN (nEnt .live true 0)).home? (aidIndex 1); e.gen = aidGen 1 ∧ e.st = .live ∧ e.kindN = true ∧ e.ctx = 0) ∧
      (box.home? (aidIndex 1)).st ≠ .live) ∧
    ((boxO (rop 1 1)).op? 5 = some (rop 1 1) ∧ (boxO (rop 1 1)).grp? 0 = some g0 ∧ aidHome 0x1400001 ≠ 0) ∧
    ((let e := (boxN (nEnt .live false 0)).home? (aidIndex 1); e.gen = aidGen 1 ∧ e.st = .live ∧ e.kindN = false ∧ e.ans = some ⟨2, 0, 1, [9], []⟩ ∧ e.parents = [] ∧
        (actualOf ⟨2, 0, 1, [9], []⟩ e.word).2 = false ∧ (actualOf ⟨2, 0, 1, [9], []⟩ e.word).1 = e.val) ∧ (actualOf ⟨3, 0x12, 1, [], []⟩ 0).2 = true) ∧
    ((nEnt .affirmed true 0).importers = [] ∧ loadTeam.slotOf (aidOf 0 0 1) = none) := by
  refine ⟨?_, ?_, ?_, ?_, ?_⟩ <;> decide

/-- A far handle: `GUESS` on it, and its answer in a group that waits. -/
def far5 : DWord := handleOf 5 0 1 1
def gFarH : Group := { g0 with s := [(4, 0x4000005), (5, 0x100)] }
def wop : Op := { op0 (.hwait far5) with path := none }
def gGs (full : Bool) : Group := { g0 with park := some (.guess 5 full 8 10 far5 0 5 0x2000 0) }
theorem witness_GuessEffects_far : met (fun _ => true) gFarH [gu] = true ∧ gFarH.pairS 4 = far5 ∧ box.isFar far5 = true ∧
    wop.id = 5 ∧ (∀ b, (putG (boxO wop) (gGs b)).op? 5 = some wop ∧ (putG (boxO wop) (gGs b)).grp? 0 = some (gGs b) ∧
      (putG (boxO wop) (gGs b)).team? 0 = some loadTeam ∧ (gGs b).dep.getLsbD 0 = false ∧ (putG (boxO wop) (gGs b)).allocatable 0 = true) := by decide
/-- A resolved entry whose importers have acknowledged it, and a live one that rank 5 asks for. -/
def boxIm (st : NSt) : State := boxN { nEnt st true 0 with importers := [5] }
theorem witness_AssumptionRequests_import : ((boxIm .denied).home? 0).st = .denied ∧ (∀ r ∈ ((boxIm .denied).home? 0).importers, r ∈ [5]) ∧
    ((boxIm .denied).home? 0).rno = 0 ∧ ((boxIm .live).home? 0).gen = 1 ∧ ((boxIm .live).home? 0).st = .live ∧ (5 : Nat) ≠ box.rank ∧ box.rank < 1024 := by decide

/-- The one team holds AID 1 in slot 0, its group tainted with a snapshot; it has a held operation, logged undo entries and a taken message. -/
def gSn : Group := { gTn g0 with snaps := [Group.snap g0 0 .other 0] }
def mTk : Msg := ⟨0, 3, [7], 5, [], 5, 0⟩
def uHu (held : List Held) (aids : List Word) : Team :=
  { uS false 1 with held := held, aids := aids, taken := [(0, 0, mTk)]
                    undo := [⟨.line .x 0 (List.replicate 64 9) 0, 1⟩, ⟨.line .x 0 (List.replicate 64 8) 0, 1⟩, ⟨.tile .x 0 .group, 1⟩] }
def settS (st : NSt) (u : Team) : State := { boxN (nEnt st true 1) with teams := [u], groups := [gSn] }
theorem witness_AffirmationAndDenial (st : NSt) (h : st = .affirmed ∨ st = .denied) (u : Team) (hu : u = uHu [⟨6, 0, 3⟩] [] ∨ u = uHu [] [1]) :
    settlesIn (settS st u) u 1 0 ∧ ((settS st u).home? (aidIndex 1)).st = st := by
  rcases h with rfl | rfl <;> rcases hu with rfl | rfl <;>
  · refine ⟨⟨by decide, by decide, fun t ht _ => by simpa [settS] using ht, by decide, by decide, by decide, by decide, by decide, by decide,
      by decide, fun y hy _ => ?_⟩, by decide⟩
    obtain rfl : y = gSn := by simpa [settS] using hy
    exact ⟨fun m => by simp [gSn, gTn, g0, loadGroup], fun r => by simp [gSn, gTn, g0, loadGroup]⟩
theorem witness_AffirmationAndDenial_team :
    (∀ x, (uHu [⟨6, 0, 3⟩] []).held.head? = some x → x.tags &&& ~~~(1#8 <<< 0) ≠ 0) ∧
    (∀ x ∈ (uHu [⟨6, 0, 3⟩] []).held, x.op < (settS .denied (uHu [] [])).nextId + 9 ∧ goesWith (settS .denied (uHu [⟨6, 0, 3⟩] [])) (uHu [⟨6, 0, 3⟩] []) 0 x) ∧
    (1 ∉ (uHu [] []).aids ∧ (1 : Word) ∈ (uHu [] [1]).aids) ∧
    (∀ x ∈ (uHu [] []).undo, ∀ b n bs m, x.what = .line b n bs m → bs.length = 64) ∧
    gSn.snaps.find? (fun y => y.slot == 0) = some (Group.snap g0 0 .other 0) ∧ oldLine (uHu [] []) 0 .x 0 = some (List.replicate 64 9, 0) ∧
    oldTile (uHu [] []) 0 .x 0 = some .group ∧ goesBack (settS .denied (uHu [] [])) (uHu [] []) 0 0 0 ∧
    (settS .denied (uHu [] [])).ctx? mTk.ctx ≠ none ∧ ((settS .denied (uHu [] [])).mboxOf 0 3).st = .closed := by
  refine ⟨by decide, ?_, by decide, ?_, by decide, by decide, by decide, ⟨gSn, by simp [settS], rfl, rfl, Group.snap g0 0 .other 0, by decide, by decide⟩, by decide, by decide⟩
  · intro x hx
    obtain rfl : x = ⟨6, 0, 3⟩ := by simpa [uHu] using hx
    exact ⟨by decide, .inl (by decide)⟩
  · intro x hx b n bs m h
    simp only [uHu, List.mem_cons, List.not_mem_nil, or_false] at hx
    rcases hx with rfl | rfl | rfl <;> cases h <;> decide

def tnS (i : Instr) : Bool := runs (putT (putG box (gTn gH)) (uS false 1)) (gTn gH) i
theorem witness_TagStateAndHeldOperations :
    met (fun _ => true) g0 [.tqry h0 (.s 1) (.regS 3), .tqry h0 (.s 1) (.regV 3), .tqry h0 (.s 1) (.pred 3), .tqry h0 (.s 1) (.xline (.imm 3)), .tqry h0 (.s 1) (.xline (.imm 508)),
      .tqry h0 (.s 1) (.wline (.imm 3)), .tqry h0 (.s 1) (.wline (.imm 508)), .tqry h0 (.s 1) (.slot (.imm 3)), .tqry h0 (.s 1) (.state (.imm 9)), .tqry h0 (.s 1) .undo,
      .tqry h0 (.s 1) .held, .twait h0] = true ∧
    (let g := { g0 with sregs := 64, vregs := 32 }
     runs (boxG g) g (.tqry h0 (.s 1) (.regS 64)) = true ∧ runs (boxG g) g (.tqry h0 (.s 1) (.regV 32)) = true) ∧
    tnS (.twait h0) = true := by decide

/-! ### Invocations and handles -/

def inv1 : Instr := .invoke h0 (some 8) 12 (.imm 0) 3 1 ⟨1, 2⟩ (some 5)
def imsg : InvMsg := ⟨0, 3, [7, 8], 5, hd0, 0, none, []⟩
def bind1 : Binding := ⟨0x4000, 8, 16, 64, 4096, 4096, 1, false⟩
/-- Mailbox 3 bound. -/
def ctxB : Ctx := { loadCtx with mbox := [(3, ⟨.bound bind1, []⟩)] }
def boxM (s : State) : State := { s with ctxs := [ctxB] }
def iop (m : InvMsg) (status : Nat) : Op := { op0 (.invoke 0 m) with path := some .I, status := status }
theorem witness_InvocationIssue :
    met (fun i => (invOf i).isSome) gH [inv1, .invoke hNone (some 8) 12 (.imm 0) 3 1 ⟨1, 2⟩ none, .invoke h0 none 12 (.imm 5) 3 1 ⟨1, 2⟩ none, .invoke h0 none 12 (.imm 511) 3 1 ⟨1, 2⟩ none,
      .invh h0 (some 8) 12 4 3 1 ⟨1, 2⟩, .invh h0 none 12 6 3 1 ⟨1, 2⟩] = true ∧
    box.rank < 1024 ∧ (gH.opnd (.imm 0) 0).toNat < 1024 ∧ 1024 ≤ (gH.opnd (.imm 511) 0).toNat ∧ loadTeam.aidsIn (gH.tSet (infoOf 0 inv1)) = [] ∧ isHandle (gH.pairS 6) = false ∧
    (mints box 1 0 1 hd0 ∧ mints box 3 0 1 (handleOf 0 0 1 3)) ∧
    ((boxO (iop imsg 1)).op? 5 = some (iop imsg 1) ∧ (boxO (iop imsg 9)).op? 5 = some (iop imsg 9)) ∧ pendingHere (boxH .pending) hd0 := by
  refine ⟨by decide, by decide, by decide, by decide, by decide, by decide, ⟨?_, ?_⟩, by decide, by unfold pendingHere; decide⟩ <;>
    exact ⟨by decide, by decide, fun j h => absurd h (Nat.not_lt_zero j), by decide, by decide, by decide⟩

def upM : InvMsg := { imsg with upstream := hd0, handle := 0 }
def iopH (status : Nat) : Op := { op0 (.invh upM) with path := some .I, status := status }
/-- AID 1 has been denied here. -/
def boxMd : State := { boxM box with homes := [(0, { nEnt .denied true 0 with outcome := [(1, true)] })] }
def boxF (st : HSt) (loc : Nat) (busy : Bool) (m : InvMsg) : State := { boxM box with handles := [(0, hEnt st loc [(m, 7)] busy), (1, ⟨1, .resolved, 1, 0, 0, [9], [], 0, false, [], false⟩)] }
theorem witness_InvocationArrivals :
    (box.op? 7 = none ∧ imsg.src ≠ box.rank) ∧
    ((boxO (iop imsg 0)).op? 5 = some (iop imsg 0) ∧ (boxO (iop imsg 0)).invBlocked (iop imsg 0) = false) ∧
    ((boxO (iopH 0)).op? 5 = some (iopH 0) ∧ hHome upM.upstream = 0 ∧ (boxO (iopH 0)).invBlocked (iopH 0) = false ∧ upM.handle = 0) ∧
    (isHandle hd0 = true ∧ ((boxH .pending).hent 0).gen = hGen hd0 ∧ ((boxH .broken).hent 0).st = .broken ∧ ((boxH .pending).hent 0).st ≠ .broken ∧
      (boxH .pending).forwards < 4096 ∧ (box.hent 0).st = .free) ∧
    ([(HSt.broken, 0, false), (.resolved, 0, false), (.resolved, 5, false), (.resolved, 0, true)].all fun x =>
      (boxF x.1 x.2.1 x.2.2 upM).hent 0 == hEnt x.1 x.2.1 [(upM, 7)] x.2.2) = true ∧
    (let m := { imsg with handle := handleOf 0 1 1 1 }
     ((boxF .resolved 0 true m).hent (hIndex m.handle)).st = .resolved ∧ m.handle ≠ 0 ∧ hHome m.handle = 0) := by
  refine ⟨?_, ?_, ?_, ?_, ?_, ?_⟩ <;> decide
theorem bound_at (s : State) (m : InvMsg) (hs : s.ctxs = [ctxB]) (hw : m.words.length ≤ 16) (hc : m.ctx = 0) (hm : m.mbx = 3)
    (ha : ∀ a ∈ m.aids, aidHome a = s.rank) : atBound s m := by
  refine ⟨hw, fun a h => .inl (ha a h), ctxB, bind1, ?_, ?_⟩
  · simp [State.ctx?, hs, hc, ctxB, loadCtx]
  · rw [hm]; decide
theorem witness_InvocationArrivals_mailboxes : bound (boxM box) imsg ∧ bound (boxF .resolved 0 false upM) upM ∧ unbound box imsg := by
  refine ⟨⟨bound_at _ _ (by simp [boxM]) (by decide) (by decide) (by decide) (by simp [imsg]), by simp [imsg]⟩,
    ⟨bound_at _ _ (by simp [boxM, boxF]) (by decide) (by decide) (by decide) (by simp [upM, imsg]), by simp [upM, imsg]⟩, .inr ⟨loadCtx, by decide, fun b h => ?_⟩⟩
  exact absurd h (by simp [loadCtx, Ctx.mboxAt, sget, imsg, Mbox.zero])
def imsgA : InvMsg := { imsg with aids := [1] }
theorem denied_at : boxMd.resolved 1 = some false := by decide
theorem imsgA_at : atBound boxMd imsgA := by
  refine bound_at _ _ (by simp [boxM, boxMd]) (by simp [imsgA, imsg]) rfl rfl ?_
  intro a h
  obtain rfl : a = 1 := by simpa [imsgA] using h
  decide
theorem witness_InvocationArrivals_denied : deniedMsg boxMd imsgA := ⟨imsgA_at, 1, by decide, denied_at⟩

def cont1 (o : Option Bool) : ContRec := ⟨4, 0x4000, hd0, 8, .computer, false, 16, 64, 20, [1], ⟨1, 2⟩, 0, 0, 0, 1, o⟩
def resOp : Op := op0 (.result hd0 (.result [3] 0))
def dropOp : Op := { op0 (.hdrop hd0) with path := none }
theorem witness_HandleSettling :
    (pendingHere (boxH .pending) hd0 ∧ isHandle hd0 = true ∧ ((boxH .pending).hent (hIndex hd0)).kind = 1 ∧ (boxH .pending).runsHere hd0 = false ∧ (boxH .pending).ops = [] ∧
      resOp.cmd = .result hd0 (.result [3] 0)) ∧
    (let s := { box with handles := [(0, hEnt .pending 5 [] false)] }
     swf HEntry.zero s.handles = true ∧ (∀ x ∈ s.handles, x.1 < 65536 ∧ x.2.gen ≤ 16383) ∧ pendingHere s hd0 ∧ (s.hent (hIndex hd0)).loc = 5 ∧ (5 : Nat) ≠ s.rank ∧ s.rank < 1024) ∧
    met (fun _ => true) gH [.hdrop h0 4, .hdrop h0 6, .hdrop hNone 4] = true ∧ untainted gH (.hdrop h0 4) ∧ isHandle (gH.pairS 6) = false ∧ hHome (gH.pairS 4) = box.rank ∧
    ((boxO dropOp).invBlocked dropOp = false ∧ dropOp.ctx = 0 ∧ (boxO dropOp).ops = [dropOp]) ∧
    (cont1 (some true)).outcome ≠ none := by unfold pendingHere untainted; refine ⟨?_, ?_, ?_, ?_, ?_, ?_, ?_, ?_⟩ <;> decide

def gHg : Group := { gH with role := .computer }
def gop5 : Op := { op0 (.hget far5 false 8 2) with path := none, p := ⟨1, 2⟩ }
theorem witness_HandleWaits :
    ([HSt.pending, .resolved, .broken, .free].all fun st =>
      [Instr.hwait h0 .plain ⟨1, 2⟩ 4, .hwait h0 .trap ⟨1, 2⟩ 4, .hwait hNone .plain ⟨1, 2⟩ 4, .hwaitPark h0 ⟨1, 2⟩ 4 20 3, .hwaitPark h0 ⟨1, 2⟩ 4 20 0, .hget h0 false ⟨1, 2⟩ 8 4 (.imm 2),
        .hget h0 true ⟨1, 2⟩ 8 4 (.imm 0), .hget h0 false ⟨1, 2⟩ 8 4 (.imm 17), .hget hNone false ⟨1, 2⟩ 8 4 (.imm 1)].all fun i => runs (putG (boxH st) gH) gH i) = true ∧
    gH.pairS 4 = hd0 ∧ (boxH .pending).dropDue gH hd0 = false ∧ (boxH .pending).isFar hd0 = false ∧
    ((boxH .pending).askHome hd0 0).state = 1 ∧ ((boxH .resolved).askHome hd0 0).state = 2 ∧ ((boxH .broken).askHome hd0 0).state = 3 ∧ (box.askHome hd0 0).state = 0 ∧
    (((boxH .resolved).askHome hd0 0).words.length ≤ 16 ∧ (boxH .resolved).regsFree gH (sN 8 2) = true) ∧
    (gH.stack = [] ∧ gH.mask = fullMask gH.width ∧ 20 + 3 ≤ gH.sregs ∧ loadCtx.conts.length < 4096 ∧ gH.inFlight = [] ∧ gH.dep = 0) ∧
    (let g := { gH with mask := 1 }
     runs (putG (boxH .pending) g) g (.hwaitPark h0 ⟨1, 2⟩ 4 20 3) = true ∧ g.mask ≠ fullMask g.width) ∧
    (let g := { gH with sregs := 64 }
     runs (putG (boxH .pending) g) g (.hwaitPark h0 ⟨1, 2⟩ 4 60 16) = true ∧ runs (putG (boxH .resolved) g) g (.hget h0 false ⟨1, 2⟩ 60 4 (.imm 16)) = true ∧ g.sregs < 60 + 16) ∧
    (met (fun _ => true) gFarH [.hwait h0 .plain ⟨1, 2⟩ 4, .hget h0 false ⟨1, 2⟩ 8 4 (.imm 2)] = true ∧ gFarH.pairS 4 = far5 ∧ box.isFar far5 = true) ∧
    (let g := { g0 with park := some (.hwait 5 .plain ⟨1, 2⟩ far5 0x2000 0) }
     (putG (boxO wop) g).op? 5 = some wop ∧ (putG (boxO wop) g).grp? 0 = some g) ∧
    (let g := { g0 with park := some (.answer 5) }
     (putG (boxO gop5) g).op? 5 = some gop5 ∧ (putG (boxO gop5) g).grp? 0 = some g) := by
  refine ⟨?_, ?_, ?_, ?_, ?_, ?_, ?_, ?_, ?_, ?_, ?_, ?_, ?_, ?_, ?_⟩ <;> decide
theorem witness_HandleWaits_park :
    (met (fun _ => true) gFarH [.hwaitPark h0 ⟨1, 2⟩ 4 20 3, .hdrop h0 4] = true ∧ gFarH.stack = [] ∧ gFarH.mask = fullMask gFarH.width ∧ isHandle far5 = true ∧ hHome far5 ≠ box.rank ∧
      untainted gFarH (.hdrop h0 4)) ∧
    (let g := { g0 with park := some (.hwaitPark 5 ⟨1, 2⟩ far5 20 3 0) }
     (putG (boxO wop) g).op? 5 = some wop ∧ (putG (boxO wop) g).grp? 0 = some g ∧ (putG (boxO wop) g).ctx? 0 = some loadCtx ∧ loadCtx.conts.length < 4096 ∧
      g.inFlight = [] ∧ g.dep = 0 ∧ (gTn g).dep ≠ 0 ∧ (putG (boxO wop) (gTn g)).op? 5 = some wop ∧ (putG (boxO wop) (gTn g)).grp? 0 = some (gTn g)) ∧
    (let o : Op := { wop with status := 1 }
     o ∈ (boxO o).ops ∧ o.gid = gFarH.gid ∧ o.cmd = .hwait far5 ∧ gFarH.inFlight = [] ∧ gFarH.dep = 0 ∧
      runs (putG (boxO o) gFarH) gFarH (.hwaitPark h0 ⟨1, 2⟩ 4 20 3) = true ∧ runs (putG (boxO o) (gTn gFarH)) (gTn gFarH) (.hwaitPark h0 ⟨1, 2⟩ 4 20 3) = true) ∧
    ((boxO wop).op? 5 = some wop ∧ (∀ g ∈ (boxO wop).groups, g.park = none)) ∧
    (let o := { op0 (.invoke 5 imsg) with path := some .I }
     (boxO o).op? 5 = some o ∧ pendingHere (boxH .pending) imsg.handle) := by unfold untainted pendingHere; refine ⟨?_, ?_, ?_, ?_, ?_⟩ <;> decide

/-! ### Mailboxes and work queues -/

def gL (ss : Sparse Word) : Group := { g0 with s := ss }
def bf0 : BindF := ⟨0, 15, 63, 1, 1, 1, false⟩
def msg0 (mbx : Nat) : Msg := ⟨0, mbx, [7, 8], 5, [], 5, 0⟩
/-- Mailbox 3 bound, 4 open with a message, 5 open and empty. -/
def ctxM : Ctx := { loadCtx with mbox := [(3, ⟨.bound bind1, []⟩), (4, ⟨.opened, [msg0 4]⟩), (5, ⟨.opened, []⟩)] }
def boxMb : State := { box with ctxs := [ctxM] }
def gE : Group := gL [(2, 0x4000)]
def mop (r : Nat) (m : Msg) (st : Nat) : Op := { op0 (.msend r m) with path := some .F, status := st }
theorem witness_MailboxEffects :
    ([Instr.mbregBind h0 (.imm 4) 2 bf0, .mbregOpen h0 (.imm 6), .mbregClose h0 (.imm 5), .mbregClose hNone (.imm 5), .mbregOpen h0 (.imm 511), .mbregBind h0 (.imm 4) 2 { bf0 with sregs1 := 3 },
      .msend h0 ⟨1, 2⟩ 8 (.imm 0) (.imm 3) 1, .msend h0 ⟨1, 2⟩ 8 (.imm 5) (.imm 3) 1, .msend h0 ⟨1, 2⟩ 8 (.imm 511) (.imm 3) 1, .msend hNone ⟨1, 2⟩ 8 (.imm 0) (.imm 3) 1,
      .mrecv h0 false ⟨1, 2⟩ 8 (.imm 5), .mrecv h0 true ⟨1, 2⟩ 8 (.imm 5), .mrecv h0 true ⟨1, 2⟩ 8 (.imm 4), .mrecv h0 true ⟨1, 2⟩ 8 (.imm 9), .mrecv hNone true ⟨1, 2⟩ 8 (.imm 4),
      .mrecv h0 true ⟨1, 2⟩ 8 (.imm 511)].all fun i => runs (putG boxMb gE) gE i) = true ∧
    untainted gE (.mbregOpen h0 (.imm 6)) ∧ untainted gE (.mbregBind h0 (.imm 4) 2 bf0) ∧ 4096 ≤ (gE.opnd (.imm 511) 0).toNat ∧
    boxMb.ctx? (boxMb.ctxOfG gE) = some ctxM ∧ loadTeam.aidsIn (gE.tSet (infoOf 0 (.msend h0 ⟨1, 2⟩ 8 (.imm 0) (.imm 3) 1))) = [] ∧
    fits (gE.pairS 2) ∧ (gE.pairS 2).toNat < 2 ^ 54 ∧ (∀ m ∈ (boxMb.mboxOf 0 4).queue, m.words.length ≤ 16 ∧ boxMb.examine m.aids = some m.aids) := by
  unfold untainted fits; refine ⟨?_, ?_, ?_, ?_, ?_, ?_, ?_, ?_, ?_⟩ <;> decide
theorem plain_of (s : State) (m : Msg) (h : m.aids = []) (hw : m.words.length ≤ 16) : plainMsg s m := by
  simp [plainMsg, knownMsg, lostMsg, h, hw]
theorem witness_MailboxEffects_messages :
    (plainMsg boxMb (msg0 3) ∧ boxMb.op? 7 = none ∧ (msg0 3).src ≠ boxMb.rank ∧ ctxM.queued < 1024 ∧ boxMb.ctx? 9 = none ∧
      (ctxM.mboxAt 3).st = .bound bind1 ∧ (ctxM.mboxAt 4).st = .opened ∧ (ctxM.mboxAt 9).st = .closed) ∧
    ((boxO (mop 0 (msg0 3) 0)).op? 5 = some (mop 0 (msg0 3) 0) ∧ (boxO (mop 0 (msg0 3) 0)).srcBlocked (mop 0 (msg0 3) 0) = false ∧
      (boxO (mop 0 (msg0 3) 0)).postBlocked (mop 0 (msg0 3) 0) = false ∧ { msg0 3 with src := 0 }.src = box.rank) ∧
    ((boxO (mop 5 (msg0 3) 0)).op? 5 = some (mop 5 (msg0 3) 0) ∧ (boxO (mop 5 (msg0 3) 0)).endBlocked (mop 5 (msg0 3) 0) = false ∧
      (boxO (mop 0 (msg0 3) 1)).endBlocked (mop 0 (msg0 3) 1) = false) ∧
    ([4, 5, 9].all fun n =>
      let g := { gE with park := some (.mrecv ⟨1, 2⟩ 8 n 0x2000 0) }
      decide ((putG boxMb g).grp? g.gid = some g ∧ (putG boxMb g).ctx? ((putG boxMb g).ctxOfG g) = some ctxM)) = true := by
  refine ⟨⟨plain_of _ _ rfl (by decide), ?_⟩, ?_, ?_, ?_⟩ <;> decide
/-- A message that relies on a denied assumption, and one still live. -/
def mA : Msg := { msg0 3 with aids := [1] }
def boxMd2 : State := { boxMb with homes := [(0, { nEnt .denied true 0 with outcome := [(1, true)] })] }
theorem witness_MailboxEffects_assumptions : (lostMsg boxMd2 mA = true ∧ knownMsg boxMd2 mA) ∧ lostMsg (boxN (nEnt .live true 0)) mA = false ∧ room (msg0 4) ctxM := by
  refine ⟨⟨by decide, by decide, ?_⟩, by decide, fun _ => by decide⟩
  intro a h
  obtain rfl : a = 1 := by simpa [mA] using h
  exact .inl (by decide)

def boxQ (recs : List (List Word)) : State := { box with queues := [(3, ⟨some 0, 64, recs⟩), (9, ⟨some 4, 64, []⟩)] }
def rec16 : List Word := List.replicate 16 7
theorem witness_QueueAndLaunchEffects :
    ([[], [rec16]].all fun r => [Instr.qpush h0 ⟨1, 2⟩ 16 (.imm 3), .qpop h0 ⟨1, 2⟩ 16 (.imm 3), .qwait h0 (.imm 3), .notify h0 (.imm 3), .notify hNone (.imm 3), .qwait h0 (.imm 9),
      .qpop h0 ⟨1, 2⟩ 16 (.imm 64)].all fun i => (queueOps i).isSome && runs (boxQ r) g0 i) = true ∧
    ownQueue (boxQ []) g0 3 ∧ ¬ ownQueue (boxQ []) g0 9 ∧ 64 ≤ (g0.opnd (.imm 64) 0).toNat ∧ untainted g0 (.qpush h0 ⟨1, 2⟩ 16 (.imm 3)) ∧ untainted g0 (.notify h0 (.imm 3)) ∧
    ((boxQ [rec16]).queue 3).recs = [rec16] ∧ rec16.length = 16 ∧ (box.aperture = .active ∧ (boxQ []).lacc = []) ∧
    (runs { boxQ [] with groups := [gC] } gC (.qpush h0 ⟨1, 2⟩ 16 (.imm 3)) = true ∧ gC.pathCount .C ≠ 0) := by
  unfold ownQueue untainted; refine ⟨?_, ?_, ?_, ?_, ?_, ?_, ?_, ?_, ?_, ?_⟩ <;> decide

/-- A launch record of one group, entry 0x2000, one tile of each buffer, no image. -/
def rec320 : List Byte := [0, 0x20, 0, 0, 0, 0, 0, 0, 0, 1, 16, 0, 64, 0, 1, 0, 0, 0, 0, 0, 0, 0x10, 0, 0, 0, 0x10, 0, 0, 1, 1, 0, 0, 1] ++ List.replicate 287 0
theorem witness_QueueAndLaunchEffects_launch :
    met (fun _ => true) (gL [(2, 0x2100)]) [.launch h0 ⟨1, 2⟩ 8 (.pair 2), .launch h0 ⟨1, 2⟩ 8 (.label 8), .launch h0 ⟨1, 2⟩ 8 (.label 4), .launch hNone ⟨1, 2⟩ 8 (.label 8)] = true ∧
    untainted (gL [(2, 0x2100)]) (.launch h0 ⟨1, 2⟩ 8 (.pair 2)) ∧ (List.range 320).all (fun b => box.xlate 0 0 (0x2100 + b) .read true == .pa (0x2100 + b)) = true ∧
    (met (fun _ => true) (gL [(2, 0x9000)]) [.launch h0 ⟨1, 2⟩ 8 (.pair 2)] = true ∧ box.xlate 0 0 0x9000 .read true = .bad 1) ∧
    (met (fun _ => true) (gL [(3, 0x400000)]) [.launch h0 ⟨1, 2⟩ 8 (.pair 2)] = true ∧ 2 ^ 54 ≤ ((gL [(3, 0x400000)]).pairS 2).toNat) ∧
    rec320.length = 320 ∧ box.launchStatus 0 loadCtx (parseLaunch rec320) = 0 ∧ box.launchStatus 0 loadCtx (parseLaunch (List.replicate 320 0)) = 1 ∧
    State.reset.launchStatus 0 loadCtx (parseLaunch rec320) = 2 ∧ { box with tlb := [] }.launchStatus 0 loadCtx (parseLaunch rec320) = 4 := by
  unfold untainted; refine ⟨?_, ?_, ?_, ?_, ?_, ?_, ?_, ?_, ?_, ?_⟩ <;> decide
theorem witness_QueueAndLaunchEffects_record : recordOk rec320 := by
  unfold recordOk imageOk fieldAt; refine ⟨?_, ?_, ?_, ?_, ?_, ?_, ?_, ?_, ?_, ?_, ?_, ?_, ?_, ?_, ?_, ?_, ?_, ?_, ?_, ?_, ?_, ?_, ?_, ?_, ?_, ?_, ?_, ?_, ?_, ?_, ?_⟩ <;> decide

/-! ### The fabric -/

/-- Window 1 exports 4 KiB at 0x2000 with every right; window 2 is revoked. -/
def expW (rev : Bool) : Window := ⟨0, 1 + (if rev then 4 else 0) + 8 + 16 + 32 + BitVec.ofNat 256 (2 ^ 64 * 0x2000) + BitVec.ofNat 256 (2 ^ 128 * 4096)⟩
def boxE (s : State) : State := { s with windows := [(1, expW false), (2, expW true)] }
def fop (k : RemKind) (rank : Nat) (st : LaneSt) (d : Dst) : Op :=
  { op0 (.remote k 1) with path := some .F, lanes := [{ lane0 st 8 with rank := rank }], dst := d, p := ⟨1, 2⟩ }
def acts : List RAct := [.write 4 7, .read 2, .reduce .add .f32 7 false, .put ⟨[1, 2], []⟩, .fetch 4, .atomic .add .i32 7, .cas 4 0 7]
theorem witness_RemoteEffects :
    met (fun i => (remotes i).isSome) g0 [.rput h0 ⟨1, 2⟩ .n32 1 (.imm 0) (.imm 8) (.v 1), .rget h0 ⟨1, 2⟩ (.v 3) .i8 1 (.imm 5) (.v 1), .rred h0 ⟨1, 2⟩ .add .f32 1 (.imm 5) (.imm 8) (.v 1),
      .rput h0 ⟨1, 2⟩ .n32 1 (.imm 511) (.imm 8) (.v 1), .rget h0 ⟨1, 2⟩ (.v 3) .n32 1 (.imm 0) (.imm 2), .rput hNone ⟨1, 2⟩ .n32 1 (.imm 0) (.imm 8) (.v 1)] = true ∧
    untainted g0 (.rput h0 ⟨1, 2⟩ .n32 1 (.imm 0) (.imm 8) (.v 1)) ∧ box.checked loadTeam = none ∧ 1024 ≤ (g0.opnd (.imm 511) 0).toNat ∧ (g0.opnd (.imm 2) 0).toNat % 4 ≠ 0 ∧
    (acts.all fun a => exported (boxE box) 1 8 (accessOf a).1 (accessOf a).2 == .pa 0x2008 && exported (boxE box) 2 8 (accessOf a).1 (accessOf a).2 == .bad 3) = true ∧
    (box.target 0x2008 = .lpddr ∧ box.poisoned 0x2008 4 = false) ∧
    ([RemKind.put 4, .get .n32, .red .add .i32].all fun k => let o := fop k 0 .pending .none
      (boxO o).op? 5 == some o && o.lane? 0 == some { lane0 .pending 8 with rank := 0 } && !(boxO o).remBlocked o 0) = true ∧
    ([LaneSt.done, .settled 3].all fun st => let o := fop (.get .i8) 0 st (.v 3)
      (boxO o).op? 5 == some o && !(boxO o).endBlocked o && ((o.answered [] 0).lanes.map (·.st) == [st])) = true ∧
    (let o := fop (.put 4) 5 .pending .none
     (boxO o).op? 5 = some o ∧ o.lane? 0 = some { lane0 .pending 8 with rank := 5 }) := by
  unfold untainted; refine ⟨?_, ?_, ?_, ?_, ?_, ?_, ?_, ?_, ?_, ?_⟩ <;> decide

def mc0 : McstCmd := ⟨0, 1, 0, 0, 4, 256, [0, 5], [1, 2, 3, 4], []⟩
def mcop (st : LaneSt) : Op := { op0 (.mcst mc0) with path := some .F, dst := .s 3, lanes := [{ lane0 st 0 with rank := 0 }, { lane0 (if st = .pending then .pending else .settled 5) 0 with lane := 5, rank := 5 }] }
theorem witness_MulticastEffects :
    ([Instr.mcst h0 (.s 3) 0 1 0 (.imm 0) 4 (.imm 64), .mcst h0 (.s 3) 0 1 0 (.imm 1) 4 (.imm 64), .mcst h0 (.s 3) 0 1 0 (.imm 0) 4 (.imm 448), .mcst h0 (.s 3) 0 1 0 (.imm 508) 4 (.imm 64),
      .mcst h0 (.s 3) 0 1 0 (.imm 64) 4 (.imm 64), .mcst hNone .none 0 1 0 (.imm 0) 4 (.imm 64)].all fun i => runs (boxT uE) g0 i && runs box g0 i) = true ∧
    untainted g0 (.mcst h0 (.s 3) 0 1 0 (.imm 0) 4 (.imm 64)) ∧ uE.owner .x 0 = .engine ∧ uE.rangeTag .x 0 4 = 0 ∧ uE.rangeTag .x 64 256 = 0 ∧ (g0.opnd (.imm 448) 0).toNat % 64 = 0 ∧
    uE.xbytes < (g0.opnd (.imm 508) 0).toNat + 4 ∧ (g0.opnd (.imm 64) 0).toNat = 64 ∧
    ((boxO (mcop .pending)).op? 5 = some (mcop .pending) ∧ (mcop .pending).lane? 0 = some { lane0 .pending 0 with rank := 0 } ∧ mc0.data.length = mc0.n ∧
      (boxO (mcop .pending)).remBlocked (mcop .pending) 0 = false ∧ exported (boxE box) 1 0 4 .wr = .pa 0x2000) ∧
    ((boxO (mcop .done)).endBlocked (mcop .done) = false ∧ ((mcop .done).answered [] 0).lanes.map (·.st) = [.done, .settled 5] ∧
      (((mcop .done).answered [] 0).lanes.map (·.lane)).Pairwise (· < ·)) ∧
    (mop 5 (msg0 3) 0 ∈ (boxO (mop 5 (msg0 3) 0)).ops) := by
  unfold untainted; refine ⟨?_, ?_, ?_, ?_, ?_, ?_, ?_, ?_, ?_, ?_, ?_⟩ <;> decide

/-- Another rank's access that has been looked up, one before it in its way, and packets already seen. -/
def fr (op off : Nat) : Foreign := ⟨⟨5, 0, true, op, 0, 1, off, .write 4 7⟩, some (0, 1), 0x2000 + off, 0⟩
def boxFr (l : List Foreign) : State := { boxE box with foreign := l }
theorem witness_RemoteEffects_foreign :
    ((fr 7 8).req.src ≠ box.rank ∧ (∀ f ∈ (boxFr []).foreign, f.req ≠ (fr 7 8).req) ∧ (boxFr [fr 6 8, fr 7 8]).foreign = [fr 6 8] ++ fr 7 8 :: [] ∧
      (∀ x ∈ [fr 6 8], x.req ≠ (fr 7 8).req) ∧ (fr 6 8).req.op ≠ (fr 7 8).req.op ∧ (fr 6 8).pa < (fr 7 8).pa + 4 ∧ (fr 7 8).pa < (fr 6 8).pa + 4) ∧
    ((boxFr [fr 7 8]).foreign = [] ++ fr 7 8 :: [] ∧ box.target 0x2008 = .lpddr ∧ box.poisoned 0x2008 4 = false ∧ (accessOf (fr 7 8).req.act).1 = 4) ∧
    (let o := fop (.put 4) 0 .pending .none
     let f : Foreign := ⟨⟨0, 0, true, 5, 0, 1, 8, .write 4 7⟩, none, 0x2008, 0⟩
     let s := { boxE (boxO o) with foreign := [f] }
     (boxE (boxO o)).decided 5 0 = none ∧ s.decided 5 0 = some f ∧ s.remBlocked o 0 = false ∧ { boxE (boxO o) with foreign := [fr 7 8] }.rank = 0) := by
  refine ⟨?_, ?_, ?_⟩ <;> decide
def rx (c : Option (BitVec 8)) : RxPkt := ⟨5, 0, 1, c⟩
theorem witness_MulticastEffects_packets :
    ([rx none, rx (some 4)].all fun x => { box with rxSeq := [x] }.rxSeq.find? (fun y => y.src == 5 && y.stream == 0 && y.seq == 1) == some x) = true ∧
    box.rxSeq = [] ∧ box.mgmt.booted = true ∧ State.reset.mgmt.booted = false ∧ (5 : Nat) ≠ box.rank ∧ (fr 7 8).pkt = some (0, 1) ∧
    (let s := { boxO (mcop .pending) with foreign := [⟨⟨0, 0, true, 5, 0, 1, 0, .put ⟨mc0.data, mc0.bad⟩⟩, none, 0x2000, 0⟩] }
     (boxO (mcop .pending)).decided 5 0 = none ∧ (s.decided 5 0).isSome = true ∧ s.remBlocked (mcop .pending) 0 = false) := by decide

/-! ### Counters and collectives -/

def tf0 : TSendF := { win := 1, n4 := 2, cn := 3, ctOn := false, ct := 0, clOn := true, cl := 4 }
def arm0 (rank : Nat) : Armed := ⟨0, tf0, 5, rank, 0, 0x2000, true⟩
def ctxA : Ctx := { loadCtx with armed := [(4, arm0 5)], counters := [(3, 2)] }
def boxC : State := { box with ctxs := [ctxA], groups := [g0, { g0 with gid := 1, park := some (.ctwait 3 5) }] }
def sop (rank status : Nat) (bad : Option Nat) : Op := { op0 (.tsend (arm0 rank) [1, 2] bad) with path := none, status := status }
def tsI (thr rank : Opnd) : Instr := .tsend h0 (tf0) thr rank (.imm 0) 2
theorem witness_CounterEffects :
    (let g := gL [(2, 0x2000)]
     let s := { boxC with groups := [g] }
     ([Instr.ctset h0 3 true (.imm 9), .ctset hNone 3 false (.imm 9), .ctsetImm h0 3 false 7, .ctrd h0 (.s 1) .val 3, .ctrd h0 (.s 1) .fail 0, .ctrd h0 (.s 1) .cause 0, .ctrd h0 (.s 1) .armed 3,
       .ctwait h0 3 (.imm 2), .ctwait h0 3 (.imm 3), tsI (.imm 2) (.imm 5), tsI (.imm 3) (.imm 5), tsI (.imm 3) (.imm 511)].all fun i => runs s g i) = true ∧
       untainted g (.ctset h0 3 true (.imm 9)) ∧ untainted g (tsI (.imm 2) (.imm 5)) ∧ s.ctx? (s.ctxOfG g) = some ctxA ∧ (g.pairS 2).toNat = 0x2000 ∧ ctxA.armed.length < 4096) ∧
    (met (fun _ => true) (gL [(2, 2)]) [tsI (.imm 2) (.imm 5)] = true ∧ met (fun _ => true) (gL [(3, 0x400000)]) [tsI (.imm 2) (.imm 5)] = true) ∧
    (box.op? 7 = none ∧ exported (boxE box) 1 8 2 .wr = .pa 0x2008 ∧ exported (boxE box) 2 8 2 .wr = .bad 3) ∧
    ([sop 0 1 none, sop 0 5 none, sop 5 0 none, sop 5 0 (some 7)].all fun o => (boxO o).op? 5 == some o && !(boxO o).sendsBefore o 0 (if o.status = 0 then 5 else 0) (fun _ => true)) = true := by
  unfold untainted; refine ⟨?_, ?_, ?_, ?_⟩ <;> decide

/-- Entry 0 has this rank alone; entry 1 has ranks 0 and 5, entry 2 ranks 5 and 7 beside it. -/
def ge (m : BitVec 1024) : GEntry := ⟨m, 0, 7, 0, 0, 0, 0, []⟩
def ctxG : Ctx := { loadCtx with gtable := [(0, ge 1), (1, ge 33)] }
def cf (op : CollOp) (e : BitVec 8) : CollF := ⟨op, .i32, .add, false, e, 1, 0, 0, 0, 0, false⟩
def boxGt : State := { boxE box with ctxs := [ctxG] }
def collI (op : CollOp) (e : BitVec 8) (a b : BitVec 9) : Instr := .coll h0 8 (cf op e) (.imm a) (.imm b) (.imm 2)
theorem witness_CollectiveIssue :
    (let g := gL [(2, 0x2000)]
     ([Instr.gsetFull h0 (.imm 3) 2 (.imm 9) 5, .gsetSeq h0 (.imm 0) (.imm 9), .gsetClear h0 (.imm 0), .gsetClear h0 (.imm 256), .gsetSeq hNone (.imm 0) (.imm 9)].all fun i =>
       (gsets i).isSome && runs { boxGt with groups := [g] } g i) = true ∧ untainted g (.gsetFull h0 (.imm 3) 2 (.imm 9) 5) ∧ (g.pairS 2).toNat = 0x2000 ∧
       (List.range 128).all (fun b => boxGt.xlate 0 0 (0x2000 + b) .read true == .pa (0x2000 + b)) = true) ∧
    (met (fun _ => true) (gL [(2, 0x9000)]) [.gsetFull h0 (.imm 3) 2 (.imm 9) 5] = true ∧ box.xlate 0 0 0x9000 .read true = .bad 1) ∧
    ([GSel.seq, .own, .mcid, .word, .count, .abort, .frank, .path].all fun x => runs boxGt g0 (.gqry h0 (.s 1) x (.imm 0) (.imm 0)) && runs boxGt g0 (.gqry h0 (.s 1) x (.imm 256) (.imm 0))) = true ∧
    ([collI .allreduce 0 0 64, collI .bcast 1 0 64, collI .allreduce 0 1 64, collI .allreduce 9 0 64, collI .allreduce 0 4 0].all fun i => runs boxGt g0 i) = true ∧
    (collTrap boxGt (boxGt.gent 0 0) (cf .allreduce 0) 0 64 2 = none ∧ collTrap boxGt (boxGt.gent 0 0) (cf .allreduce 0) 1 64 2 = some 0x11 ∧
      collTrap boxGt (boxGt.gent 0 9) (cf .allreduce 9) 0 64 2 = some 0x25 ∧ collTrap boxGt (boxGt.gent 0 0) (cf .allreduce 0) 4 0 2 = some 0x27 ∧ boxGt.entryBusy 0 3 = false) ∧
    (ranksIn (ge 1) = [0] ∧ ranksIn (ge 33) = [0, 5] ∧ exported boxGt 1 0 8 .rd = .pa 0x2000 ∧ exported boxGt 1 64 8 .wr = .pa 0x2040) := by
  unfold untainted; refine ⟨?_, ?_, ?_, ?_, ?_, ?_⟩ <;> decide

/-- A collective instance of entry 1 or 0 of the group, with handle `hdC` of entry 0. -/
def hdC : DWord := handleOf 0 0 1 2
def inst1 (e : Nat) (op : CollOp) (ph : CollPh) (win : BitVec 12) : CollInst := ⟨0, e, 7, 0, 0, { cf op (BitVec.ofNat 8 e) with win := win }, 0, 64, 2, hdC, ph, none, none⟩
def boxI (i : CollInst) : State := { boxGt with colls := [i], handles := [(0, { hEnt .pending 0 [] false with kind := 2 })] }
theorem witness_CollectiveProgress :
    ((ranksIn (boxGt.gent 0 1)).head? = some boxGt.rank ∧ 5 ∈ ranksIn (boxGt.gent 0 1)) ∧
    (∀ i : CollInst, onlyInst (boxI i) i) ∧
    (pendingHere (boxI (inst1 1 .allreduce (.verdict true) 1)) hdC ∧ (inst1 0 .allreduce .data 1).ph = .data ∧ ranksIn ((boxI (inst1 0 .allreduce .data 1)).gent 0 0) = [0] ∧
      exported (boxI (inst1 0 .allreduce .data 1)) 1 64 8 .wr = .pa 0x2040 ∧ exported (boxI (inst1 0 .allreduce .data 1)) 1 0 8 .rd = .pa 0x2000) ∧
    ((boxI (inst1 0 .allreduce .data 2)).ownFault (inst1 0 .allreduce .data 2) = some 3 ∧ seqAbove 7 ((boxI (inst1 0 .allreduce .data 2)).gent 0 0).seq = false ∧ seqAbove 8 (boxGt.gent 0 0).seq = true) := by
  refine ⟨by decide, fun i => ⟨[], [], rfl, by simp⟩, by unfold pendingHere; decide, by decide⟩

/-! ### Lanes through windows, landings, faults of other ranks, words of a Praline operation under way -/

def vlane (v : Option Home) : Lane := { lane0 .pending 0x2000 with via := v }
def vop (c : Cmd) (v : Option Home) : Op := { gop c .pending (.v 3) with lanes := [vlane v] }
theorem witness_ReductionAndGatherLanes_windows :
    ([none, some (.own 1 8), some (.mem 0x2008), some (.far (.gfp 5 0 0))].all fun v =>
      let o := vop (.gather .n32 none) v
      (boxE (boxO o)).op? 5 == some o && o.lane? 0 == some (vlane v) && !(boxE (boxO o)).gatherBlocked o (vlane v) 4) = true ∧
    exported (boxE box) 1 8 4 .rd = .pa 0x2008 ∧ exported (boxE box) 2 8 4 .rd ≠ exported (boxE box) 1 8 4 .rd ∧ box.late = [] := by decide
def late0 : Late := ⟨9, 0x1000, 0x800, [1, 2, 3, 4], [0, 0, 0, 0]⟩
theorem witness_ReductionAndGatherLanes_late :
    (let s := { boxO (vop (.gather .n32 none) none) with late := [late0] }
     s.op? 5 = some (vop (.gather .n32 none) none) ∧ (s.late.filter fun x => x.word == late0.word) = [late0] ∧ (vlane none).pa = 4 * late0.word ∧
      late0.old.length = 4 ∧ s.poisoned 0x2000 4 = false ∧ s.target 0x2000 = .lpddr) := by decide
theorem witness_AtomicAccesses_windows :
    ([none, some (.own 1 8), some (.far (.gfp 5 0 0))].all fun v =>
      let o := { aop none .pending 0x2000 with lanes := [vlane v] }
      (boxE (boxO o)).op? 5 == some o && o.lane? 0 == some (vlane v) && !(boxE (boxO o)).atomBlocked o (acmd none) (vlane v)
        && !(boxE (boxO o)).lowerLane o (vlane v)) = true ∧
    exported (boxE box) 1 8 4 .upd = .pa 0x2008 := by decide
/-- The second packet of a triggered send of rank 5, looked up and not yet performed. -/
def land1 : Landing := ⟨5, 0, 7, 1, 8, 4, 2, [(0x2008, ⟨[1, 2], []⟩, 0)], none⟩
theorem witness_CounterEffects_landing :
    ((boxE box).landings = [] ∧ (5 : Nat) ≠ box.rank ∧ box.mgmt.booted = true) ∧
    (let s := { boxC with landings := [land1] }
     s.landings = land1 :: [] ∧ land1.src = 5 ∧ land1.op = 7 ∧ land1.due = [(0x2008, ⟨[1, 2], []⟩, 0)] ∧ ([1, 2] : List Byte).length ≤ land1.next ∧
      s.target 0x2008 = .lpddr ∧ s.target 0x2009 = .lpddr) ∧
    ((boxO (sop 0 0 none)).op? 5 = some (sop 0 0 none) ∧ (boxO (sop 0 0 none)).sendsBefore (sop 0 0 none) 0 0 (fun _ => true) = false ∧
      (arm0 0).rank = (boxO (sop 0 0 none)).rank) := by decide
/-- A fault of rank 5 in the data phase, and one of rank 0, the anchor, in the handshake of rank 5. -/
theorem witness_CollectiveProgress_faults :
    (let i := inst1 1 .allreduce .data 1
     (boxI i).colls = [] ++ i :: [] ∧ ((boxI i).ctx? i.ctx).isSome = true ∧ 5 ∈ ranksIn ((boxI i).gent i.ctx i.entry) ∧ (5 : Nat) ≠ (boxI i).rank ∧
      (∀ y ∈ (boxI i).tokens, ¬ (y.ctx = i.ctx ∧ y.entry = i.entry ∧ y.seq = i.seq)) ∧ seqAbove i.seq ((boxI i).gent i.ctx i.entry).seq = false) ∧
    (let i := inst1 1 .allreduce .signed 1
     let s : State := { boxI i with rank := 5 }
     s.colls = [] ++ i :: [] ∧ 0 ∈ ranksIn (s.gent i.ctx i.entry) ∧ (ranksIn (s.gent i.ctx i.entry)).head? = some 0 ∧ (0 : Nat) ≠ s.rank ∧
      seqAbove i.seq (s.gent i.ctx i.entry).seq = false) := by decide

/-! ### Praline -/

/-- A pool of four nodes at 0x2000: the root, one child of it, two free. -/
def poolMem : Sparse Byte := [(0x2000, 4), (0x2004, 2), (0x200C, 2), (0x201E, 4), (0x2050, 0xFF), (0x2051, 0xFF), (0x2052, 0xFF), (0x2053, 0xFF), (0x2054, 1), (0x2058, 1),
  (0x2094, 0xFF), (0x20C7, 0x80), (0x20D0, 3), (0x2107, 0x80)]
def tree0 : PTree := ⟨1, true, 0, 4, [(2, 0x2000)], 0x2000⟩
def prop_ (c : PrCmd) : Op := { op0 (.praline c) with path := some .S }
def prS (c : PrCmd) : State := { boxO (prop_ c) with mem := poolMem, trees := [(0, tree0)] }
def tid0 : Word := 4096
def boxP (c : PrCmd) : Prop := prReady (prS c) (prop_ c) c ∧ (prS c).tree? tid0 0 = some tree0 ∧ poolAt (prS c) tree0 0x2000

theorem witness_PralineIssueAndCompletion :
    (let g := gL [(2, 0x2000), (11, 1), (12, 1)]
     met (fun i => (pralines g i).isSome) g [.prnew h0 (.s 1) 2 (.imm 4) 8, .prnew h0 (.s 1) 2 (.imm 0) 8, .prdesc h0 8 3 (.imm 4), .prdesc h0 8 3 (.imm 9), .prdesc hNone 8 3 (.imm 4),
       .prexp h0 ⟨1, 2⟩ 3 (.imm 1) (.imm 2) 8, .prexp h0 ⟨1, 2⟩ 3 (.imm 1) (.imm 257) 8, .prback h0 3 8 9, .prback hNone 3 8 9, .prroot h0 ⟨1, 2⟩ 3 (.imm 1), .prbest h0 (.s 1) 3, .prfree h0 3] = true ∧
       ([Instr.prnew h0 (.s 1) 2 (.imm 4) 8, .prdesc h0 8 3 (.imm 4), .prexp h0 ⟨1, 2⟩ 3 (.imm 1) (.imm 2) 8, .prback h0 3 8 9].all fun i =>
         ((pralines g i).map fun x => x.2.2.2.2) == some none && g.tSet (infoOf 0 i) == 0) = true ∧
       ([Instr.prnew h0 (.s 1) 2 (.imm 0) 8, .prdesc h0 8 3 (.imm 9), .prexp h0 ⟨1, 2⟩ 3 (.imm 1) (.imm 257) 8].all fun i => (pralines g i).bind (fun x => x.2.2.2.2.map fun y => y.2.1) == some 0x40) = true ∧
       priorsReady box g (.prexp h0 ⟨1, 2⟩ 3 (.imm 1) (.imm 2) 8)) ∧
    met (fun _ => true) g0 [.prqry h0 (.s 1) (.node .n 3 (.imm 0)), .prqry h0 (.s 1) (.root 3), .prqry h0 (.s 1) (.count 3), .prqry h0 (.s 1) (.free 3), .prqry h0 (.s 1) (.cap 3), .prqry h0 (.s 1) .stat,
      .prqry hNone (.s 1) .stat] = true ∧
    (let o := { prop_ (.best tid0) with status := 1, lanes := [lane0 .done 0] }
     (boxO o).op? 5 = some o ∧ (boxO o).grp? 0 = some g0 ∧ ∀ l ∈ o.lanes, l.poison = false) := by
  unfold priorsReady; refine ⟨?_, ?_, ?_⟩ <;> decide

theorem witness_PralineTreesAndQueries :
    (boxP (.free tid0) ∧ boxP (.qryHdr tid0 0 [0, 5]) ∧ boxP (.qryNode tid0 .parent [(0, 1), (5, 9)]) ∧ boxP (.desc tid0 0 true)) ∧
    (∀ ctx, box.tree? tid0 ctx = none) ∧
    (let c : PrCmd := .new 0x2000 3 1 1 1 0 16 true
     prReady (prS c) (prop_ c) c ∧ (prS c).grp? 0 = some g0 ∧ (prS c).xlate 0 0 0x2000 .write true = .pa 0x2000 ∧ (prS c).target 0x2000 = .lpddr ∧ ((prS c).treeAt 1).live = false) ∧
    (let c : PrCmd := .new 0x9000 3 1 1 1 0 16 true
     prReady (prS c) (prop_ c) c ∧ (prS c).xlate 0 0 0x9000 .write true = .bad 1) := by
  unfold boxP prReady poolAt; refine ⟨by decide, fun ctx => ?_, by decide, by decide⟩
  simp [State.tree?, State.treeAt, box, State.reset, sget, PTree.zero]

theorem witness_PralineSearch : (boxP (.desc tid0 1 false) ∧ boxP (.exp tid0 1 [7]) ∧ boxP (.back tid0 [(0, 1, false, 0x3F800000)]) ∧ boxP (.best tid0) ∧ boxP (.root tid0 1)) ∧
    downPath (prS (.desc tid0 1 false)) tree0 0x2000 [0, 1] ∧ [0, 1].head? = some (hdrAt (prS (.desc tid0 1 false)) 0x2000 8 4) ∧
    upPath (prS (.back tid0 [(0, 1, false, 0x3F800000)])) tree0 0x2000 [1, 0] ∧
    (let s := prS (.exp tid0 1 [7])
     live s tree0 0x2000 1 ∧ nodeAt s 0x2000 1 24 2 = 0 ∧ 1 ≤ hdrAt s 0x2000 0x1E 2 ∧ isFree s 0x2000 2 ∧ ¬ live s tree0 0x2000 3 ∧ nodeAt s 0x2000 0 24 2 ≠ 0) ∧
    (let s := prS (.root tid0 1)
     (∀ y, y < 4 → nodeAt s 0x2000 y 4 2 = 0) ∧ nodeAt s 0x2000 1 16 4 = hdrAt s 0x2000 8 4 ∧ live s tree0 0x2000 1) := by
  unfold boxP prReady poolAt
  refine ⟨⟨by decide, by decide, by decide, by decide, by decide⟩, ?_, by decide, ?_, ?_, ?_⟩
  · unfold downPath downPath wins live isFree; decide
  · unfold upPath upPath live isFree; decide
  · unfold live isFree; decide
  · unfold live isFree; decide

/-! ### The issue slot, placement and contexts -/

/-- The group has been ready for 1023 cycles; an access of it is due. -/
def gAged : Group := { g0 with age := 1023 }
/-- A launch record in the context's launch queue, with one group and one team of two. -/
def rcd0 : LaunchRec := { parseLaunch rec320 with gridsize := 2 }
def grid0 : Grid := ⟨3, 0, rcd0, 0, 0, [], 0, [], true, []⟩
def ctxL (g : Grid) : Ctx := { loadCtx with grids := [g] }
def boxL (g : Grid) : State := { box with ctxs := [ctxL g] }
def gEx : Group := { g0 with exited := true }
def uG (det : Bool) : Team := { loadTeam with kind := .grid 3, det := det }
theorem witness_IssueSlotAndPlacement :
    (box.subTurn 0 0 = true ∧ sget .active box.power 0 = .active ∧ box.lacc = []) ∧
    ((boxA (lac true)).subTurn 0 0 = true ∧ (lac true).due ≤ (boxA (lac true)).cycleAt 0 0) ∧
    ((boxG gAged).grp? 0 = some gAged ∧ agesNow (boxG gAged) gAged ∧ ¬ agesNow box g0) ∧
    ((boxL grid0).ctx? 0 = some (ctxL grid0) ∧ (ctxL grid0).pendTeams = [] ∧ (ctxL grid0).grids.find? (·.queued) = some grid0 ∧ grid0.rcd.cols = 1 ∧ grid0.rcd.rows = 1 ∧
      grid0.rcd.ximglen = 0 ∧ grid0.rcd.nparam ≤ grid0.rcd.params.length ∧ ((boxL grid0).placeNext (ctxL grid0)).isSome = true) ∧
    (gEx.exited = true ∧ gEx.inFlight = [] ∧ (boxG gEx).team? 0 = some loadTeam ∧ g0.exited = false) ∧
    (let s := { boxL { grid0 with placed := 1 } with groups := [gEx, { g0 with gid := 1 }] }
     s.grp? 0 = some gEx ∧ (∃ y ∈ s.groups, y.tid = gEx.tid ∧ y.ended = false ∧ y.gid ≠ gEx.gid)) ∧
    (let s := { boxL { grid0 with placed := 1 } with groups := [gEx], teams := [uG false] }
     s.grid? 0 3 = some { grid0 with placed := 1 } ∧ grid0.ended + 1 ≠ grid0.rcd.gridsize ∧ (uG false).held = [] ∧ (uG false).undo = [] ∧ s.grp? 0 = some gEx) ∧
    (let x := { grid0 with placed := 1, finished := [0], staged := [(0, ⟨{ gop (.scatter .n32 none) .pending .none with st := .staged }, []⟩)] }
     (boxL x).ctxs.findSome? (fun c => c.grids.find? fun g => g.gid == x.gid) = some x ∧ (boxL x).grid? 0 3 = some x ∧ x.released = 0 ∧ 0 ∈ x.finished ∧
       (boxL x).home 0x2000 4 false = .mem 0x2000) := by
  unfold agesNow; refine ⟨?_, ?_, ?_, ?_, ?_, ?_, ?_, ?_⟩ <;> decide
def lessFree (s : State) (d : Demand) (j : Nat) : Bool := !(s.mgmt.usable j && (s.freeOf j).fits d && j != 1) ||
  decide ((s.freeOf j).total < (s.freeOf 1).total ∨ ((s.freeOf j).total = (s.freeOf 1).total ∧ ((s.freeOf j).x < (s.freeOf 1).x ∨ ((s.freeOf j).x = (s.freeOf 1).x ∧ 1 < j))))
theorem others_less : (List.range 192).all (lessFree (boxL grid0) grid0.rcd.demand) = true := by decide
theorem witness_IssueSlotAndPlacement_core : chosen (boxL grid0) grid0.rcd.demand 1 := by
  refine ⟨⟨by decide, by decide, by decide⟩, fun j ⟨h, hu, hf⟩ hj => ?_⟩
  have := List.all_eq_true.mp others_less j (List.mem_range.mpr h)
  simpa [lessFree, hu, hf, hj] using this
theorem witness_IssueSlotAndPlacement_turn : hasTurn (boxL grid0) 0 ∧ ¬ hasTurn (boxL grid0) 1 := by
  refine ⟨⟨⟨by decide, ctxL grid0, by decide, by decide, by decide⟩, .inr ⟨by decide, fun k h hk => ?_, fun k hk => absurd hk (Nat.not_lt_zero k)⟩⟩, fun h => ?_⟩
  · have h1 : 4096 < k := h
    exact absurd hk.1 (by omega)
  · obtain ⟨⟨-, c, hc, -⟩, -⟩ := h
    exact absurd hc (by rw [show (boxL grid0).ctx? 1 = none from by decide]; simp)

def ctxState (st : CtxSt) (slice : Bool) : State := { box with ctxs := [loadCtx, { ctxN 1 st with slice := slice }], clock := 0x200000 }
theorem witness_ContextLifeCycle :
    ((ctxState .resident true).ctx? 1 = some { ctxN 1 .resident with slice := true } ∧ (ctxN 1 .resident).since = ({ ctxState .resident true with clock := 0 } : State).clock ∧ loadCtx.since.toNat + 1000 * box.mgmt.cfg.sliceUs ≤ (ctxState .resident false).clock.toNat ∧
      box.clock.toNat < loadCtx.since.toNat + 1000 * box.mgmt.cfg.sliceUs ∧ box.mgmt.safe = false) ∧
    ((ctxState .saving false).drainedCtx 1 = true ∧ (ctxState .saved false).residents < 64 ∧ ((ctxState .restoring false).placeAll 1).isSome = true) ∧
    (crowded.ctx? 80 = some (ctxN 80 .saved) ∧ 64 ≤ crowded.residents) ∧
    (box.mgmt.booted = true ∧ box.ctx? 7 = none ∧ box.residents < 64 ∧ box.target 0x3000 = .lpddr ∧ (List.replicate 256 (0 : Byte)).length = 256) ∧
    (box.ctx? loadCtx.num = some loadCtx ∧ ∀ y ∈ box.colls, y.ctx ≠ loadCtx.num) := by
  refine ⟨?_, ?_, ?_, ?_, ?_⟩ <;> decide

/-- A save region in the descriptor: 64 bytes at 0x2000. A saved context with an event team to place, which has waited 63 slices. -/
def walkedI : State := { walked with mem := [(2, 1), (0x41, 0x20), (0x48, 64), (0x10000, 1), (0x10001, 0x10), (0x10002, 1), (0x11000, 1), (0x11001, 0x20), (0x11002, 1), (0x12000, 0x11)] }
def ctxW (n : Nat) : Ctx := { ctxN 1 .saved with pendTeams := [⟨.mailbox, bind1, [], none, [], none⟩], waited := n }
theorem witness_ContextLifeCycle_waits :
    (numAt walkedI (loadCtx.savePA + 0x40) 8 = 0x2000 ∧ numAt walkedI (loadCtx.savePA + 0x48) 8 = 64 ∧ walkedI.walk loadCtx 0x2000 = .leaf 0 (2 ^ 30) 0 false false false false ∧
      numAt box (loadCtx.savePA + 0x48) 8 = 0) ∧
    (waitsIn { box with ctxs := [loadCtx, ctxW 63] } (ctxW 63) ∧ 64 ≤ (ctxW 63).waited + 1 ∧ (ctxW 62).waited + 1 < 64 ∧ ¬ waitsIn box loadCtx ∧
      loadCtx.since.toNat + 1000 * box.mgmt.cfg.sliceUs ≤ ({ box with ctxs := [loadCtx, ctxW 63], clock := 0x200000 } : State).clock.toNat) := by
  refine ⟨by decide, ⟨.inl (by decide), .inr (.inr (.inl (by decide)))⟩, by decide, by decide, fun h => ?_, by decide⟩
  rcases h.1 with h | h <;> cases h

/-- A staged scatter to a far home, and a staged copy of one part. -/
def gridD (o : Op) (src : List Byte) : Grid := { grid0 with placed := 1, finished := [0], staged := [(0, ⟨o, src⟩)] }
def scF : Op := { gop (.scatter .n32 none) .pending .none with st := .staged, lanes := [{ lane0 .pending 0x4000 with pa := 8 * 2 ^ 48 }] }
def cpF : Op := { op0 (.copy (cc 64 0x2000 true)) with st := .staged, lanes := [{ lane0 .pending 0x2000 with data := 0, cmp := 64 }] }
theorem witness_IssueSlotAndPlacement_release :
    (∀ x ∈ [gridD scF [], gridD cpF (List.replicate 64 7)], (boxL x).grid? 0 3 = some x ∧ x.released = 0 ∧ 0 ∈ x.finished ∧ x.ended + 1 ≠ x.rcd.gridsize) ∧
    isFarHome ((farS box).home (8 * 2 ^ 48) 4 false) = true ∧
    ((cc 64 0x2000 true).red = none ∧ box.home 0x2000 64 false = .mem 0x2000 ∧ box.home 0x2004 4 false = .mem 0x2004 ∧ box.target 0x2000 = .lpddr) ∧
    (let s := { boxL { grid0 with placed := 1 } with groups := [{ gEx with byExit := true }], teams := [uG true] }
     s.grid? 0 3 = some { grid0 with placed := 1 } ∧ (∀ y ∈ s.groups, y.byExit = true) ∧ (uG true).det = true ∧ gEx.byExit = false) := by
  refine ⟨?_, ?_, ?_, ?_⟩ <;> decide

/-! ### Host, device pages, firmware -/

def hcmd (opc arg count : Word) (pay : List Byte) : HostCmd := ⟨7, opc, 0, 0, arg, count, 99, true, pay⟩
/-- The package lists peer 7 for context 0. -/
def boxHost (cap : Nat) (safe : Bool) (q : List HostCmd) : State := { box with
  queues := [(3, ⟨some 0, cap, []⟩)], ctxs := [ctxM], hostq := q, mgmt := { box.mgmt with cfg := { CfgRec.default with peers := [(7, 0)] }, safe := safe } }
def launchC : HostCmd := hcmd 2 0 0 rec320
theorem witness_HostCommands :
    listed (boxHost 64 false []) launchC ∧ itsTurn (boxHost 64 false []) launchC ∧ ¬ listed box launchC ∧
    (goodForm (hcmd 1 3 1 (List.replicate 64 0)) ∧ goodForm launchC ∧ goodForm (hcmd 3 3 0 []) ∧ goodForm (hcmd 4 4 2 (List.replicate 8 1)) ∧ ¬ goodForm (hcmd 9 3 0 []) ∧
      ¬ goodForm (hcmd 3 3 1 [])) ∧
    (hostQueue (boxHost 64 false []) (hcmd 1 3 1 (List.replicate 64 0)) ∧ ¬ hostQueue (boxHost 64 false []) (hcmd 3 4 0 [])) ∧
    (((boxHost 64 false []).queue 3).recs.length + 1 ≤ ((boxHost 64 false []).queue 3).cap ∧ ((boxHost 0 false []).queue 3).cap < ((boxHost 0 false []).queue 3).recs.length + 1) ∧
    ((boxHost 64 false [launchC]).hostq = [launchC] ∧ (boxHost 64 false [launchC]).hostq.find? (fun x => x.peer == 7) = some launchC ∧ launchC ≠ hcmd 3 3 0 [] ∧ box.mgmt.booted = true ∧
      State.reset.mgmt.booted = false) := by
  refine ⟨⟨by decide, by decide⟩, fun d h => absurd h (by simp [boxHost]), fun h => absurd h.2 (by decide), ?_, ?_, by decide, by decide⟩
  · unfold goodForm; refine ⟨?_, ?_, ?_, ?_, ?_, ?_⟩ <;> decide
  · unfold hostQueue; decide

theorem witness_DevicePageEffects : (box.aperture = .active ∧ { box with wake := 4 }.wake.getLsbD 2 = true ∧ box.wake.getLsbD 2 = false) ∧
    ((List.replicate 32 (1 : Byte)).length = 32 ∧ (1 : Word).toNat ≤ 1000 ∧ 1000 < (1001 : Word).toNat) ∧ box.mgmt.booted = true ∧ State.reset.mgmt.booted = false := by decide

def failing (r : Resource) : List BootTry := [⟨r, false, false⟩]
def bankS (b0 b1 : Bool) : State := { State.reset with mgmt := { Mgmt.reset with banks := [(0, ⟨b0, 0, [], 0⟩), (1, ⟨b1, 0, [], 0⟩)] } }
theorem witness_BootEffects : bootOk State.reset (failing .package) false .package = false ∧ bootOk State.reset [] false .package = true ∧ bootStep (.core 191) ∧
    ((bankOf (bankS true false).mgmt 0).valid = true ∧ bootOk (bankS true false) [] false (.bank 0) = true) ∧ ((bankOf (bankS false true).mgmt 0).valid = false ∧ (bankOf (bankS false true).mgmt 1).valid = true) ∧
    (bankOf (bankS false false).mgmt 1).valid = false := by unfold bootStep; decide

theorem witness_BootEffects_safe : ofUpdate .requestUpdate ∧ State.reset.mgmt.booted = false ∧ State.reset.mgmt.safe = false ∧ bootOk State.reset [] true .package = true :=
  ⟨trivial, by decide, by decide, by decide⟩
def updS (u : UpdSt) : State := { box with mgmt := { box.mgmt with upd := u } }
theorem witness_UpdateAndPowerEffects :
    ((updS .idle).mgmt.upd = .idle ∧ (updS .requested).mgmt.upd = .requested ∧ (updS (.tabled false)).mgmt.upd = .tabled false ∧ (updS (.receiving .image false true)).mgmt.upd = .receiving .image false true ∧
      (updS (.received .config true)).mgmt.upd = .received .config true ∧ (updS (.verified true)).mgmt.upd = .verified true ∧ (updS .activating).mgmt.upd = .activating) ∧
    ((updS .activating).mgmt.safe = false ∧ (∀ c ∈ (updS .activating).ctxs, c.st ≠ .saving ∧ c.st ≠ .restoring) ∧ CfgRec.ok CfgRec.default = true ∧ box.mgmt.cfg.minFw.toNat ≤ (3 : Word).toNat) ∧
    ((List.replicate 32 (0 : Byte)).length = 32 ∧ box.mgmt.booted = true) ∧
    (coreIdle box 20 ∧ sget .active box.power 20 = .active ∧ sget .active { box with power := [(20, .clockGated)] }.power 20 = .clockGated ∧ ¬ coreIdle box 0) ∧
    ({ box with aperture := .clockGated }.aperture ≠ .active) := by
  refine ⟨by decide, by decide, by decide, ⟨⟨?_, by decide, by decide⟩, by decide, by decide, fun h => ?_⟩, by decide⟩
  · intro u hu hk
    obtain rfl : u = loadTeam := by simpa [box] using hu
    exact absurd hk (by decide)
  · exact absurd (h.1 loadTeam (by decide) rfl rfl) (by decide)

/-! ### The whole machine -/

theorem witness_StepKeepsMemory : Memory.wf State.reset.mem = true ∧ Memory.wf walked.mem = true := by decide
theorem witness_DecodeAndEncodeAgree : isEvent (.mark 0x40) = false ∧ (Instr.mark 0x40).wf = true ∧ decode 0 0x000000400000000000000019 = .ok (.mark 0x40) 12 ∧ decode 24 0x0000000001E00230 = .ok (.bqry h0 (.s 30) .exp (.b 0)) 8 := by
  decide
def firstS (w : Nat) : State := State.reset.withFetchWord 64 w
/-- A group with two traps due, the later of the two first in the order of R212. -/
def gDue : Group := { g0 with pend := [⟨6, 1, 0, 0, [], 0, 0, 0⟩, ⟨12, 3, 1, 0x2000, [], 0, 0, 0⟩] }
def due (r : TrapRec) : Bool := [12, 11, 8, 13, 6].contains r.cls
theorem witness_StepRunsDecoded :
    (mayIssue (firstS 0x0000000001E00230) g0 [] ∧ noneDue g0 ∧ (firstS 0x0000000001E00230).xlate 0 0 0x2000 .exec true = .pa 0x2000 ∧ blockFresh (firstS 0x0000000001E00230) 0 0x2000) ∧
    reads (firstS 0x0000000001E00230) 0x2000 = .ok (.bqry h0 (.s 30) .exp (.b 0)) 8 ∧
    (mayIssue (firstS 3) g0 [] ∧ reads (firstS 3) 0x2000 = .ill 1 ∧ blockFresh (firstS 3) 0 0x2000) ∧
    (mayIssue { putG (firstS 0) gDue with turns := [.issue 0] } gDue [] ∧ gDue.chpos = 0 ∧ gDue.sb.valid = false ∧ gDue.pend.drop 1 = [⟨12, 3, 1, 0x2000, [], 0, 0, 0⟩] ∧
      (∀ x ∈ gDue.pend.take 1, x.cls ≠ 12) ∧ ∀ x ∈ gDue.pend, dueOrder 12 ≤ dueOrder x.cls) ∧
    isEvent (.aged 0) = true := by
  refine ⟨⟨⟨by decide, by decide, by decide, by decide, by decide, by decide, loadCtx, by decide, by decide⟩, .inr (.inr (.inr (by decide))), by decide, by decide, by decide⟩, by decide,
    ⟨⟨by decide, by decide, by decide, by decide, by decide, by decide, loadCtx, by decide, by decide⟩, by decide, by decide, by decide⟩,
    ⟨⟨by decide, by decide, by decide, by decide, by decide, by decide, loadCtx, by decide, by decide⟩, by decide, by decide, by decide, by decide, by decide⟩, by decide⟩

/-! ### Held operations -/

/-- A row of the log that an instruction of a tainted group enters, with the hypotheses of O35. -/
def entersRow (s : State) (u : Team) (g : Group) (i : Instr) (r : HeldRow) : Prop :=
  heldRow s u g i = some r ∧ runs s g i = true ∧ r.hdr.ch = false ∧ guarded g r.hdr = true ∧ r.passes ∧ g.dep ||| g.tSet (infoOf g.fmt i) ||| r.extra ≠ 0

def uT : Team := { uE with slots := (uS false 1).slots }
/-- Tainted groups with the operands of the forms below. -/
def gC1 : Group := gTn (gX 0x2000 0)
def sC : State := putT (putG box gC1) uT
theorem witness_held_copy : ∃ r, entersRow sC uT gC1 (cpy (.imm 0) 64 none) r := by
  refine ⟨_, rfl, ?_⟩
  refine ⟨by decide, by decide, by decide, ?_, by decide⟩
  refine ⟨fun b h => (by cases h), (by unfold strides; decide), (by unfold alignedTo; decide), witness_CopyIssue_places.1, witness_CopyIssue_places.2.2.1, ?_, by decide, fun h => by cases h⟩
  exact witness_CopyIssue_places.2.2.2.2.1
def gT1 : Group := gTn { g0 with s := [(2, 0x2000), (4, 0x4000000), (5, 0x100), (11, 1), (12, 1)], v := (List.range 8).map fun l => (64 + l, BitVec.ofNat 32 (4 * l)) }
def sT (g : Group) : State := putT (putG boxMb g) uT
def sT1 : State := { sT gT1 with queues := [(3, ⟨some 0, 64, []⟩)] }
/-- Forms whose checks at issue are those of R60 alone. -/
theorem witness_held_plain : ∀ i ∈ [Instr.hdrop h0 4, .cunreg h0 4, .ctset h0 3 true (.imm 1), .ctsetImm h0 3 false 9, .vinv h0 .ctx, .vinv h0 .dev, .fltq h0 20, .mreset h0 (.imm 1),
    .ctxswSave h0 (.s 1) (.imm 1), .ctxswRest h0 (.s 1) (.imm 1), .ctxswQry h0 (.s 1) (.imm 1)], ∃ r, entersRow sT1 uT gT1 i r := by
  simp only [List.forall_mem_cons, List.not_mem_nil, false_imp_iff, implies_true, and_true]
  refine ⟨?_, ?_, ?_, ?_, ?_, ?_, ?_, ?_, ?_, ?_, ?_⟩ <;> refine ⟨_, rfl, by decide, by decide, by decide, trivial, by decide⟩
/-- Forms with checks of their own. -/
theorem witness_held_checked : ∀ i ∈ [Instr.notify h0 (.imm 3), .mbregOpen h0 (.imm 6), .mbregBind h0 (.imm 4) 2 bf0, .vinv h0 (.page 2), .mts h0 (.hbase 2), .gsetSeq h0 (.imm 3) (.imm 9), .gsetClear h0 (.imm 3),
    .prnew h0 (.s 1) 2 (.imm 4) 8, .prback h0 3 8 9, .prexp h0 ⟨1, 2⟩ 3 (.imm 1) (.imm 2) 8], ∃ r, entersRow sT1 uT gT1 i r := by
  simp only [List.forall_mem_cons, List.not_mem_nil, false_imp_iff, implies_true, and_true]
  refine ⟨?_, ?_, ?_, ?_, ?_, ?_, ?_, ?_, ?_, ?_⟩ <;> refine ⟨_, rfl, ?_⟩ <;> refine ⟨by decide, by decide, by decide, ?_, by decide⟩ <;>
    first | decide | (unfold fits; decide) | (unfold baseOk; decide)
theorem witness_held_messages : ∀ i ∈ [Instr.qpush h0 ⟨1, 2⟩ 16 (.imm 3), tsI (.imm 3) (.imm 5)], ∃ r, entersRow sT1 uT gT1 i r := by
  simp only [List.forall_mem_cons, List.not_mem_nil, false_imp_iff, implies_true, and_true]
  refine ⟨⟨_, rfl, ?_⟩, ⟨_, rfl, ?_⟩⟩ <;> refine ⟨by decide, by decide, by decide, ?_, by decide⟩
  · unfold ownQueue; decide
  · refine ⟨by decide, by decide, by decide, by decide, fun c hc => ?_⟩
    obtain rfl : ctxM = c := Option.some.inj (by rw [← hc]; decide)
    decide
theorem reads_all {n a : Nat} (h : (List.range n).all (fun b => sT1.xlate 0 0 (a + b) .read true == .pa (a + b)) = true) : readable sT1 gT1 a n :=
  fun b hb => ⟨a + b, eq_of_beq (List.all_eq_true.mp h b (List.mem_range.mpr hb))⟩
theorem witness_held_records : ∀ i ∈ [Instr.launch h0 ⟨1, 2⟩ 8 (.pair 2), .launch h0 ⟨1, 2⟩ 8 (.label 8), .gsetFull h0 (.imm 3) 2 (.imm 9) 5], ∃ r, entersRow sT1 uT gT1 i r := by
  simp only [List.forall_mem_cons, List.not_mem_nil, false_imp_iff, implies_true, and_true]
  refine ⟨⟨_, rfl, ?_⟩, ⟨_, rfl, ?_⟩, ⟨_, rfl, ?_⟩⟩ <;> refine ⟨by decide, by decide, by decide, ?_, by decide⟩
  · exact ⟨by decide, by decide, reads_all (by decide)⟩
  · exact ⟨by decide, by decide, reads_all (by decide)⟩
  · exact ⟨by decide, by decide, reads_all (by decide)⟩
theorem witness_held_lanes : ∀ i ∈ [Instr.scat h0 (.v 4) .i8 (.ext 2) (.v 1), .ared h0 .inc .n32 (.ext 2) (.imm 8) .dev (.v 1) true, acasI (.ext 2) (.imm 8)], ∃ r, entersRow sT1 uT gT1 i r := by
  simp only [List.forall_mem_cons, List.not_mem_nil, false_imp_iff, implies_true, and_true]
  refine ⟨⟨_, rfl, ?_⟩, ⟨_, rfl, ?_⟩, ⟨_, rfl, ?_⟩⟩ <;> refine ⟨by decide, by decide, by decide, ?_, by decide⟩
  · refine ⟨fun l hl => ⟨?_, ?_, 0x2000 + 4 * l, ?_, .inl ?_⟩, fun h => by cases h⟩ <;>
      (have h8 : l < 8 := by revert hl; revert l; decide) <;> (clear hl; revert h8; revert l; decide)
  all_goals
    refine ⟨fun l hl => ⟨?_, ?_, fun pa => ?_⟩, fun h => (by cases h), fun h => by cases h⟩
    · revert hl; revert l; decide
    · revert hl; revert l; decide
    · have h8 : l < 8 := by revert hl; revert l; decide
      have e : ∀ l, l < 8 → sT1.xlate 0 0 ((gT1.pairS 2).toNat + (gT1.opnd (.imm 8) l).toNat) .write true = .pa 0x2008 := by decide
      intro h
      cases (e l h8).symm.trans h
      exact .inl (by decide)
theorem witness_held_cluster : ∃ r, entersRow sT1 uT gT1 (.scat h0 (.v 4) .i8 (.clu 8) (.v 1)) r := by
  refine ⟨_, rfl, ?_⟩
  refine ⟨by decide, by decide, by decide, ?_, by decide⟩
  intro l hl
  revert hl; revert l; decide
theorem witness_held_remote : ∀ i ∈ [Instr.rput h0 ⟨1, 2⟩ .n32 1 (.imm 0) (.imm 8) (.v 1), .rred h0 ⟨1, 2⟩ .add .f32 1 (.imm 5) (.imm 8) (.v 1)], ∃ r, entersRow sT1 uT gT1 i r := by
  simp only [List.forall_mem_cons, List.not_mem_nil, false_imp_iff, implies_true, and_true]
  refine ⟨⟨_, rfl, ?_⟩, ⟨_, rfl, ?_⟩⟩ <;> refine ⟨by decide, by decide, by decide, ?_, by decide⟩ <;>
    refine ⟨fun l hl => ?_, fun h => by cases h⟩ <;> (revert hl; revert l; decide)
theorem witness_held_multicast : ∃ r, entersRow sT1 uT gT1 (.mcst h0 (.s 3) 0 1 0 (.imm 0) 4 (.imm 64)) r := by
  refine ⟨_, rfl, ?_⟩
  refine ⟨by decide, by decide, by decide, ?_, by decide⟩
  refine ⟨by decide, by decide, by decide, by decide, by decide, by decide, by decide, fun k hk => ?_⟩
  have h0 : ((gT1.opnd (.imm 0) 0).toNat = 0) := by decide
  have h1 : ((gT1.opnd (.imm 64) 0).toNat = 64) := by decide
  obtain rfl : k = 0 := by
    rw [h0, h1] at hk
    rcases hk with hk | hk <;> have := hk.2 <;> simp at this <;> omega
  decide
theorem witness_held_replays : ∀ i ∈ [Instr.creg h0 (.s 1) 2 (.d1 (.ext 64)), .creplay h0 2, .creplayDrop h0 2], ∃ r, entersRow sT1 uT gT1 i r := by
  simp only [List.forall_mem_cons, List.not_mem_nil, false_imp_iff, implies_true, and_true]
  refine ⟨⟨_, rfl, ?_⟩, ⟨_, rfl, ?_⟩, ⟨_, rfl, ?_⟩⟩ <;> refine ⟨by decide, by decide, by decide, ?_, by decide⟩
  · exact ⟨by unfold strides; decide, by unfold alignedTo; decide, witness_CopyIssue_places.1⟩
  · exact .inl (by decide)
  · exact .inl (by decide)
/-- The log has room, or none; a held collective. -/
theorem witness_TagStateAndHeldOperations_log : uT.held.length < 256 ∧ 256 ≤ ({ uT with held := List.replicate 256 ⟨6, 0, 1⟩ } : Team).held.length ∧
    (let g := gTn g0
     let s := putT (putG boxGt g) uT
     runs s g (collI .allreduce 0 0 64) = true ∧ g.dep ≠ 0 ∧ collTrap s (s.gent 0 0) (cf .allreduce 0) 0 64 2 = none ∧ s.rank < 1024 ∧ s.colls = [] ∧ s.ctx? 0 = some ctxG) := by decide
theorem witness_TagStateAndHeldOperations_coll : mints (putT (putG boxGt (gTn g0)) uT) 2 0 1 (handleOf 0 0 1 2) :=
  ⟨by decide, by decide, fun j h => absurd h (Nat.not_lt_zero j), by decide, by decide, by decide⟩

/-! ### Orders between sources, places, poison under a K-step -/

/-- A step that changes nothing. -/
def still (i : Instr) (s : State) : Bool := after i s (· == s)

/-- Operation 7 of rank 5's group 0 has been signalled here, or has reached the bytes at 0x2008. -/
def boxHeard : State := { boxE box with heard := [⟨5, false, 0, 7⟩] }
def boxReach : State := { boxE box with reached := [⟨5, false, 0, 7, 0x2008, 4⟩] }
theorem witness_RemoteEffects_order :
    (isPast boxHeard 5 false 0 6 ∧ ¬ isPast boxHeard 5 false 0 8 ∧ ¬ isPast boxHeard 5 true 0 6) ∧
    (isOvertaken boxReach 5 false 0 6 0x2008 4 ∧ ¬ isOvertaken boxReach 5 false 0 8 0x2008 4 ∧ ¬ isOvertaken boxReach 5 false 0 6 0x200C 4) ∧
    (exported boxReach 1 8 4 .wr = .pa 0x2008 ∧ (fr 6 8).req.ord = true ∧ (fr 6 8).req.src ≠ boxReach.rank) := by
  unfold isPast isOvertaken; decide
/-- An access that a later one of its source has overtaken at its bytes comes no more (R244); one to other bytes is looked up. -/
theorem test_overtaken : still (.remoteAccessArrival (fr 6 8).req) boxReach = true ∧
    after (.remoteAccessArrival (fr 6 12).req) boxReach (fun t => t.foreign.length == 1) = true := by decide
/-- The earlier access of a source at the same bytes is performed first (R244). -/
theorem test_access_order : still (.remoteAccessArrival (fr 7 8).req) (boxFr [fr 6 8, fr 7 8]) = true ∧
    after (.remoteAccessArrival (fr 6 8).req) (boxFr [fr 6 8, fr 7 8]) (fun t => t.foreign == [fr 7 8] && t.rd 0x2008 == 7) = true := by decide

/-- Mailbox 4 open with every place of its context taken. -/
def ctxFull : Ctx := { loadCtx with mbox := [(4, ⟨.opened, List.replicate 1024 (msg0 4)⟩)] }
def boxFull : State := { box with ctxs := [ctxFull] }
/-- Every place of the forward queues is taken, by messages whose upstream is entry 0. -/
def boxFwd : State := { boxM box with handles := [(0, hEnt .pending 0 (List.replicate 4096 (upM, 7)) false)] }
theorem witness_MailboxEffects_places :
    (met (fun _ => true) g0 [.msend h0 ⟨1, 2⟩ 8 (.imm 0) (.imm 4) 1] = true ∧ (ctxFull.mboxAt 4).st = .opened ∧ 1024 ≤ ctxFull.queued ∧ boxFull.rank = 0) ∧
    (isPast boxHeard (msg0 3).src false (msg0 3).grp 6 ∧ ¬ isPast boxHeard (msg0 3).src false (msg0 3).grp 8) ∧
    (∃ f ∈ (boxFr [fr 6 8]).foreign, f.req.ord = true ∧ f.req.src = (msg0 3).src ∧ f.req.grp = (msg0 3).grp ∧ f.req.op < 7) ∧
    (lateAnswer (some ⟨0, false, 5, 0, false⟩) ∧ ¬ lateAnswer none ∧ ¬ lateAnswer (some ⟨0, false, 7, 0, false⟩)) ∧
    heldMsg boxFull (msg0 4) ∧ ¬ heldMsg boxMb (msg0 4) := by
  have hf : ¬ room (msg0 4) ctxFull := fun h => absurd (h (by decide)) (by decide)
  refine ⟨by decide, by unfold isPast; decide, by decide, by unfold lateAnswer; simp, ⟨plain_of _ _ rfl (by decide), ctxFull, by decide, hf⟩, ?_⟩
  rintro ⟨-, c, hc, h⟩
  obtain rfl : ctxM = c := Option.some.inj (by rw [← hc]; decide)
  exact h fun _ => by decide
/-- An `MSEND` to a full mailbox of this rank is not ready (R18). -/
theorem test_msend_waits : still (.msend h0 ⟨1, 2⟩ 8 (.imm 0) (.imm 4) 1) boxFull = true := by decide
/-- A message comes after what its source did before it (R244): it waits for an access let pass. -/
theorem test_message_after_access : still (.messageArrival (msg0 4) 7) { boxMb with foreign := [fr 6 8] } = true ∧
    after (.messageArrival (msg0 4) 5) { boxMb with foreign := [fr 6 8] } (fun t => ((t.mboxOf 0 4).queue).length == 2) = true := by decide
theorem witness_InvocationIssue_places : noForwardPlace boxFwd hd0 0 ∧ gH.pairS 4 = hd0 ∧ ¬ noForwardPlace (boxM box) hd0 0 ∧
    (iopH 0).cmd = .invh upM ∧ upM.upstream = hd0 ∧ upM.ctx = 0 := by unfold noForwardPlace; decide
/-- Silence until the response limit breaks the handle of an invocation of this rank with 0x05 (R236, R358). -/
theorem test_invoke_late :
    let m := { imsg with handle := hd0 }
    after (.invocationCompletion 5 (some ⟨0, false, 5, 0, false⟩)) { boxM (boxO (iop m 0)) with handles := [(0, hEnt .pending 0 [] false)] }
      (fun t => (t.hent 0).st == .broken && (t.hent 0).cause == 5 && t.ops.isEmpty) = true := by decide

/-- A released push whose fence holds; one behind an older scatter. -/
def qop : Op := { op0 (.qpush 3 rec16) with path := none, p := ⟨1, 2⟩ }
theorem witness_QueueAndLaunchEffects_release :
    let s := { boxQ [] with ops := [qop], nextId := 9 }
    s.ops = [] ++ qop :: [] ∧ qop.cmd = .qpush 3 rec16 ∧ qop.st = .active ∧ qop.dst = .none ∧ qop.suppressed = false ∧ s.grp? qop.gid = some g0 ∧
      s.lacc = [] ∧ g0.inFlight = [] := by decide
/-- Such a push acts once its fence holds, and not before (R366). -/
theorem test_push_waits_for_fence :
    (let s := { boxQ [] with ops := [qop], nextId := 9 }
     after (.issueCycle 0 ⟨0, [], []⟩) s (fun t => (t.queue 3).recs == [rec16] && t.ops.isEmpty) = true) ∧
    (let s := { boxQ [] with ops := [gop (.scatter .n32 none) .pending .none, { qop with id := 6 }], nextId := 9, groups := [{ g0 with inFlight := [⟨.S, 5, false⟩] }] }
     after (.issueCycle 0 ⟨0, [], []⟩) s (fun t => (t.queue 3).recs.isEmpty && t.ops.length == 2) = true) := by decide

/-- A quad whose set has begun, with a poisoned W line, or with a C line of a member poisoned since the issue. -/
def quadP (w r : List Nat) : State := { quadS [] with teams := [{ qTeam [quad1 (mset false true)] with wpoison := w }], groups := [{ gQ 0 with poison := r }, gQ 1, gQ 2, gQ 3] }
theorem witness_MatrixIssueEffects_poison :
    poisonAt { qTeam [quad1 (mset false true)] with wpoison := [0, 1, 2, 3] } (mset false true).issues 0 ≠ none ∧
    (quadP [] ((gQ 0).imgLines (.v 17))).regPoison (mset false true).issues 0 = true ∧ (quadP [] []).regPoison (mset false true).issues 0 = false := by decide
/-- A K-step over it takes class 12 in every member and drops the set (R152). -/
theorem test_kstep_poison : after (.kStep 0 0) (quadP [] ((gQ 0).imgLines (.v 17)))
    (fun t => t.groups.all (fun g => g.pend.any fun r => r.cls == 12 && r.sub == 1) && grpIs 1 (fun g => g.rdV 16 0 == 0x7FC00000) t) = true := by decide

/-! ### Sends of several packets, collectives of every form -/

/-- A send of 4100 bytes, its first packet still to be performed; one fired after it by the same source. -/
def landA : Landing := ⟨5, 0, 7, 1, 0, 4100, 4096, [(0x2000, ⟨List.replicate 4096 3, []⟩, 0)], none⟩
def landB : Landing := ⟨5, 0, 8, 1, 0, 4, 4, [(0x2000, ⟨[1, 2, 3, 4], []⟩, 0)], none⟩
def boxLd (l : List Landing) : State := { boxE boxC with landings := l }
theorem witness_CounterEffects_packets :
    sendNow (boxLd [landA, landB]) 5 0 7 1 0 4100 = landA ∧ sendLooks landA ∧ landA.ctx = 0 ∧ landA.len = 4100 ∧
    sendsEarlier (boxLd [landA, landB]) landA = [] ∧ sendsEarlier (boxLd [landA, landB]) landB = [landA] ∧
    sendMeets (boxLd [landA, landB]) landA 0x2000 4 ∧ ¬ sendLooks landB ∧ ¬ isPast (boxLd [landA, landB]) 5 true 0 7 := by
  unfold sendMeets sendLooks isPast; decide
/-- The later send of a source does not overtake the earlier one's bytes, and raises no counter before it (R244, R278). -/
theorem test_send_order : after (.tsendArrival 0 1 0 ⟨[1, 2, 3, 4], []⟩ (some 3) 5 8) (boxLd [landA, landB])
    (fun t => t.landings == [landA, landB] && t.ctxs == [ctxA]) = true := by decide
theorem witness_CounterEffects_late : (∃ x : LaneAns, some (⟨0, false, 5, 0, false⟩ : LaneAns) = some x ∧ x.ok = false ∧ x.cause = 5) ∧
    ¬ ∃ x : LaneAns, (none : Option LaneAns) = some x ∧ x.ok = false ∧ x.cause = 5 := by simp

/-- A collective of no elements, and one whose only member is this rank. -/
theorem witness_CollectiveIssue_forms :
    (boxGt.headInst 0 0 = none ∧ ranksIn (boxGt.gent 0 0) = [boxGt.rank] ∧ boxGt.tokens = [] ∧ boxGt.colls = []) ∧
    (collTrap boxGt (boxGt.gent 0 1) (cf .allreduce 1) 0 64 0 = none ∧ 1 < (ranksIn (boxGt.gent 0 1)).length) ∧
    (∀ e, mints boxGt 2 e 1 (handleOf 0 0 1 2) ↔ e = 0) := by
  refine ⟨by decide, by decide, fun e => ⟨fun h => ?_, ?_⟩⟩
  · by_contra h0
    exact h.2.2.1 0 (Nat.pos_of_ne_zero h0) (by decide)
  · rintro rfl
    exact ⟨by decide, by decide, fun j h => absurd h (Nat.not_lt_zero j), by decide, by decide, by decide⟩
/-- It completes at its issue; one of a single member begins with its data (R262, R266). -/
theorem test_coll_alone : after (collI .allreduce 0 0 64) boxGt (fun t => t.colls.map (·.ph) == [.data]) = true := by decide +kernel
theorem test_coll_empty : after (.coll h0 8 (cf .allreduce 0) (.imm 0) (.imm 64) (.imm 0)) boxGt (fun t => t.colls.isEmpty && (t.hent 0).st == .resolved) = true := by decide +kernel

/-- The data phase: its own source and destination let pass; with no elements; under the block format. -/
def instL (i : CollInst) : CollInst := { i with from_ := some 0x2000, to_ := some 0x2040 }
def inst7 : CollInst := { instL (inst1 0 .allreduce .data 1) with f := { cf .allreduce 0 with ty := .f32, sb7 := true, win := 1 }, count := 32 }
theorem witness_CollectiveProgress_data :
    (let i := inst1 0 .allreduce .data 1
     i.ph = .data ∧ i.from_ = none ∧ (boxI i).poisoned 0x2000 8 = false ∧ (instL i).to_ = some 0x2040 ∧ isMem (boxI i) 0x2040 ∧
       (boxI i).ownFault (instL i) = none) ∧
    ({ inst1 0 .allreduce .data 1 with count := 0 }.count = 0) ∧
    (inst7.f.sb7 = true ∧ pendingHere (boxI inst7) inst7.handle ∧ inst7.to_ = some 0x2040 ∧ inst7.from_ = some 0x2000 ∧ (boxI inst7).poisoned 0x2000 128 = false) := by
  unfold isMem pendingHere; decide
theorem witness_CollectiveProgress_any : ∀ i : CollInst, onlyInst (boxI i) i := fun i => ⟨[], [], rfl, by simp⟩
/-- An access is looked up at one turn and performed at another, so a revocation between the two does not stop it (R235, R262). -/
theorem test_coll_lookup : after (.collComplete 0 0 7 [] []) (boxI (inst1 0 .allreduce .data 1)) (fun t => t.colls.map (·.from_) == [some 0x2000]) = true ∧
    after (.collComplete 0 0 7 [] []) { boxI (instL (inst1 0 .allreduce .data 1)) with windows := [(1, expW true)] }
      (fun t => t.colls.isEmpty && (t.hent 0).st == .resolved) = true := by decide
/-- An own access that nothing refuses, and that is still to be performed when the response limit passes (R236, R271). -/
theorem witness_CollectiveProgress_late : (boxI (inst1 0 .allreduce .data 1)).ownFault (inst1 0 .allreduce .data 1) = none ∧
    0 ∈ ranksIn ((boxI (inst1 0 .allreduce .data 1)).gent 0 0) ∧ (boxI (inst1 0 .allreduce .data 1)).tokens = [] := by decide

/-! ### Cycles, contexts, device bytes, Praline walks -/

/-- A race-log entry on its way (R351). -/
def rEnt (va : Nat) : RaceEntry := ⟨0, 3, va, [1, 2, 3, 4]⟩
def boxRq : State := { box with raceq := [rEnt 0x2000, rEnt 0x2040] }
theorem witness_IssueSlotAndPlacement_log :
    boxRq.raceq = [rEnt 0x2000] ++ rEnt 0x2040 :: [] ∧ (∀ x ∈ [rEnt 0x2000], ¬ (x.ctx = (rEnt 0x2040).ctx ∧ x.va = (rEnt 0x2040).va)) ∧
    boxRq.xlate 0 0 0x2040 .write true = .pa 0x2040 ∧ isMem boxRq 0x2040 := by unfold isMem; decide
theorem witness_IssueSlotAndPlacement_push : noPush box ∧ ¬ noPush { box with ops := [qop] } ∧ (∀ g ∈ box.groups, g.gid < box.nextId) ∧
    (boxG { gEx with dep := 1 }).grp? 0 = some { gEx with dep := 1 } := by
  refine ⟨fun o h => by simp [box, State.reset] at h, fun h => h qop (by simp) rfl 3 rec16 rfl, by decide, by decide⟩
/-- An entry reaches the ring in a turn of its own (R351). -/
theorem test_log_entry : after (.issueCycle 0 ⟨0, [], [1]⟩) boxRq (fun t => t.raceq == [rEnt 0x2000] && t.rd 0x2041 == 2 && t.rd 0x2001 == 0) = true := by decide

/-- A context that must be restored next (R391), and one that has waited less. -/
def boxUrg : State := { box with ctxs := [loadCtx, ctxW 63, { ctxW 10 with num := 2 }], clock := 0x200000 }
theorem witness_ContextLifeCycle_urgent :
    (boxUrg.ctx? 1 = some (ctxW 63) ∧ 64 ≤ (ctxW 63).waited + boxUrg.residents ∧ boxUrg.residents < 64 ∧ boxUrg.mgmt.safe = false ∧
      loadCtx.since.toNat + 1000 * boxUrg.mgmt.cfg.sliceUs ≤ boxUrg.clock.toNat ∧ boxUrg.ctx? 0 = some loadCtx) ∧
    (∀ x ∈ boxUrg.ctxs, waitsIn boxUrg x → x.waited < 64 ∧ x.waited ≤ (ctxW 63).waited) := by
  refine ⟨by decide, fun x hx h => ?_⟩
  fin_cases hx <;> decide
/-- The one that has waited longest is restored first, and no slice ends of itself meanwhile. -/
theorem test_urgent : after (.restore 1) boxUrg (fun t => t.ctxs.map (·.st) == [.resident, .restoring, .saved]) = true ∧
    still (.restore 2) boxUrg = true ∧ still (.sliceExpiry 0) boxUrg = true := by decide

/-- Two bytes of an error counter cleared by a store of zeros (R395). -/
theorem test_cecount_bytes : after (.deviceRegisterWrite 0xF00000000004A [0, 0]) { box with mgmt := { box.mgmt with cecount := [(1, 0x1122334455667788)] } }
    (fun t => sget 0 t.mgmt.cecount 1 == 0x1122334400007788) = true := by decide

/-- The pool with the root's child link leading to a free node; with the PARENT link of node 1 leading out of the pool. -/
def poolBad : Sparse Byte := poolMem.map fun x => if x.1 = 0x2054 then (x.1, 3) else x
def poolUp : Sparse Byte := (poolMem.filter fun x => x.1 < 0x2094) ++ [(0x2090, 9)] ++ poolMem.filter fun x => 0x2094 ≤ x.1
def poolFree : Sparse Byte := poolMem ++ (List.range 4).map fun k => (0x2110 + k, 0xFF)
def prM (m : Sparse Byte) (c : PrCmd) : State := { prS c with mem := m }
def back2 : PrCmd := .back tid0 [(0, 3, false, 0), (2, 1, false, 0x3F800000)]
theorem witness_PralineSearch_batches : boxP (.desc tid0 2 false) ∧ boxP back2 ∧
    (live (prM poolBad (.best tid0)) tree0 0x2000 0 ∧ ¬ live (prM poolBad (.best tid0)) tree0 0x2000 (nodeAt (prM poolBad (.best tid0)) 0x2000 0 20 4 + 0) ∧
      0 < nodeAt (prM poolBad (.best tid0)) 0x2000 0 24 2) ∧
    malformedUp (prM poolUp (.root tid0 1)) tree0 0x2000 1 [1] ∧ freeListed (prM poolFree (.exp tid0 1 [7])) tree0 0x2000 := by
  refine ⟨by unfold boxP prReady poolAt; decide, by unfold boxP prReady poolAt; decide, by unfold live isFree; decide, ?_, ?_⟩
  · unfold malformedUp linkedUp live isFree; decide
  · unfold freeListed nextFreeIs isFree; decide
def statusIs (n : Nat) (t : State) : Bool := match t.op? 5 with | some o => o.status == n | none => false
/-- Two descents of one batch take the same path; the second meets a pending leaf (R381). -/
theorem test_two_descents : after (.pralineOperation 5) (prS (.desc tid0 2 false))
    (fun t => statusIs 1 t && t.rd 0x2044 == 2 && t.rd 0x2084 == 2 && t.rd 0x2086 == 6 && t.rd 0x20A0 == 1) = true := by decide
/-- A backup passes over a leaf that is no node and backs up the next one; the status is the first failure's (R375, R383). -/
theorem test_backup_lanes : after (.pralineOperation 5) (prS back2) (fun t => statusIs 5 t && t.rd 0x2040 == 1 && t.rd 0x2080 == 1 && t.rd 0x208B == 0x3F) = true := by decide
/-- Walks that meet a link to no valid node answer 11 (R372). -/
theorem test_malformed_walks : after (.pralineOperation 5) (prM poolBad (.desc tid0 1 false)) (statusIs 12) = true ∧
    after (.pralineOperation 5) (prM poolUp (.back tid0 [(0, 1, false, 0)])) (statusIs 12) = true := by decide

end Sys2Proof.Tests
end

section

/-! # Every step ends in a next state and keeps memory in canonical form (O57)

Memory is written by `State.wrBytes` only, which keeps the canonical form (`Machine.wrBytes_wf`). The proof goes up the model's
call graph in three layers: operations that leave memory alone (`f_mem`, `f_memFrom`), operations that write it and keep its form
(`f_wf`), and the arms of `exec` (`execX_keeps`). The step is then a case split. -/

namespace Sys2Proof.Machine

/-! ### What an act leaves -/

/-- The memory after an act on a state whose memory is `m`: a trap and a wait keep it. -/
def Act.memFrom (m : Sparse Byte) : Act → Sparse Byte
  | .go s _ _ => s.mem
  | .done s => s.mem
  | .wait | .trap .. => m

@[simp] theorem Act.memFrom_go (m : Sparse Byte) (s : State) (pc : Option DWord) (res : Option LatchV) :
    (Act.go s pc res).memFrom m = s.mem := rfl

@[simp] theorem Act.memFrom_done (m : Sparse Byte) (s : State) : (Act.done s).memFrom m = s.mem := rfl

@[simp] theorem Act.memFrom_wait (m : Sparse Byte) : Act.wait.memFrom m = m := rfl

@[simp] theorem Act.memFrom_trap (m : Sparse Byte) (cls sub : Nat) (lanes : Mask) (lw : Sparse DWord) (code : Word) :
    (Act.trap cls sub lanes lw code).memFrom m = m := rfl

@[simp] theorem Act.memFrom_trp (m : Sparse Byte) (cls sub : Nat) (lanes : Mask) : (Act.trp cls sub lanes).memFrom m = m := rfl

@[simp] theorem Act.memFrom_trpU (m : Sparse Byte) (cls sub : Nat) : (Act.trpU cls sub).memFrom m = m := rfl

@[simp] theorem Act.memFrom_trpA (m : Sparse Byte) (cls sub va : Nat) : (Act.trpA cls sub va).memFrom m = m := rfl

@[simp] theorem Act.memFrom_ite (p : Prop) [Decidable p] (m : Sparse Byte) (a b : Act) :
    (if p then a else b).memFrom m = if p then a.memFrom m else b.memFrom m := apply_ite (Act.memFrom m) p a b

/-! ### What leaves memory alone

One lemma per operation: `f_mem` for one that keeps memory as it is, `f_memFrom` for an act that does. -/

@[simp] theorem mem_ite (p : Prop) [Decidable p] (s t : State) : (if p then s else t).mem = if p then s.mem else t.mem :=
  apply_ite State.mem p s t

/-- A fold of operations that leave memory alone leaves it alone. -/
@[simp] theorem foldl_mem {α : Type} (f : State → α → State) (h : ∀ s a, (f s a).mem = s.mem) (l : List α) (s : State) :
    (l.foldl f s).mem = s.mem := by
  induction l generalizing s with
  | nil => rfl
  | cons a l ih => rw [List.foldl_cons, ih, h]

@[simp] theorem pDone_mem (s : State) : (pDone s).s.mem = s.mem := rfl

/-! ### Ops -/

@[simp] theorem State.opDone_mem (s : State) (o : Op) : (s.opDone o).mem = s.mem := rfl

@[simp] theorem State.putBar_mem (s : State) (tid n : Nat) (b : Barrier) : (s.putBar tid n b).mem = s.mem := rfl

@[simp] theorem State.putBcl_mem (s : State) (clid : Nat) (b : Barrier) : (s.putBcl clid b).mem = s.mem := by
  unfold State.putBcl
  split <;> rfl

@[simp] theorem State.arrive_mem (s : State) (tid n : Nat) (k : Arrival) (stamp : Word) : (s.arrive tid n k stamp).mem = s.mem := by
  unfold State.arrive
  split <;> rfl

@[simp] theorem State.addPend_mem (s : State) (ctx : Nat) (p : PendTeam) : (s.addPend ctx p).mem = s.mem := rfl

@[simp] theorem State.rftDone_mem (s : State) (g : Group) (f : RftForm) (tag : Tags) : (s.rftDone g f tag).mem = s.mem := rfl

/-! ### Issue -/

@[simp] theorem State.landed_mem (s : State) (gid id : Nat) (f : Group → Group) (t : Tags) : (s.landed gid id f t).mem = s.mem := rfl

@[simp] theorem IC.goG_memFrom (c : IC) (m : Sparse Byte) (s : State) (g : Group) : (c.goG s g).memFrom m = s.mem := rfl

@[simp] theorem IC.skip_memFrom (c : IC) (m : Sparse Byte) (s : State) : (c.skip s).memFrom m = s.mem := rfl

@[simp] theorem IC.put_memFrom (c : IC) (m : Sparse Byte) (s : State) (d : Dst) (fl : BitVec 7) (f : Nat → Word) :
    (c.put s d fl f).memFrom m = s.mem := rfl

@[simp] theorem IC.alu_memFrom (c : IC) (m : Sparse Byte) (s : State) (d : Dst) (f : Nat → Word × BitVec 7) :
    (c.alu s d f).memFrom m = s.mem := rfl

@[simp] theorem IC.cmp_memFrom (c : IC) (m : Sparse Byte) (s : State) (d : CmpDst) (f : Nat → Bool × BitVec 7) :
    (c.cmp s d f).memFrom m = s.mem := by
  simp [IC.cmp]

/-! ### Device -/

@[simp] theorem State.setQueue_mem (s : State) (q : Nat) (x : WQueue) : (s.setQueue q x).mem = s.mem := rfl

@[simp] theorem State.deliverWake_mem (s : State) (c : Nat) : (s.deliverWake c).mem = s.mem := rfl

@[simp] theorem State.wakeChan_mem (s : State) (c : Nat) : (s.wakeChan c).mem = s.mem := by simp [State.wakeChan]

@[simp] theorem State.wrWindow_mem (s : State) (w off : Nat) (bs : List Byte) : (s.wrWindow w off bs).mem = s.mem := by
  simp [State.wrWindow]

@[simp] theorem State.setResplim_mem (s : State) (v : Word) : (s.setResplim v).mem = s.mem := by simp [State.setResplim]

@[simp] theorem State.clearCe_mem (s : State) (die o n : Nat) : (s.clearCe die o n).mem = s.mem := rfl

@[simp] theorem State.wrMgmt_mem (s : State) (off : Nat) (bs : List Byte) : (s.wrMgmt off bs).mem = s.mem := by simp [State.wrMgmt]

@[simp] theorem State.wrDevWord_mem (s : State) (pa : Nat) (bs : List Byte) : (s.wrDevWord pa bs).mem = s.mem := by
  simp [State.wrDevWord]

@[simp] theorem wrDev_mem (n : Nat) (s : State) (pa : Nat) (bs : List Byte) : (wrDev n s pa bs).mem = s.mem := by
  induction n generalizing s pa bs with
  | zero => rfl
  | succ n ih => simp [wrDev, ih]

@[simp] theorem State.setPoison_mem (s : State) (pa n : Nat) : (s.setPoison pa n).mem = s.mem := rfl

@[simp] theorem State.carryPoison_mem (s : State) (pa : Nat) (ps : List (Nat × Nat)) : (s.carryPoison pa ps).mem = s.mem := by
  unfold State.carryPoison
  exact foldl_mem _ (by intros; rfl) _ _

@[simp] theorem State.softError_mem (s : State) (e : SoftError) : (s.softError e).mem = s.mem := by
  cases e <;> rfl

@[simp] theorem State.sendFar_mem (s : State) (f : Far) (gid op lane : Nat) (act : RAct) (ord : Bool) :
    (s.sendFar f gid op lane act ord).mem = s.mem := by
  unfold State.sendFar
  split <;> rfl

@[simp] theorem State.homeVal_mem (s : State) (pa sz : Nat) : (s.homeVal pa sz).1.mem = s.mem := by
  unfold State.homeVal
  split <;> rfl

@[simp] theorem State.replaced_mem (s : State) (pa n : Nat) (bad : List (Nat × Nat)) : (s.replaced pa n bad).mem = s.mem := by
  simp [State.replaced]

/-! ### IntAlu -/

@[simp] theorem IC.putPair_memFrom (c : IC) (m : Sparse Byte) (s : State) (d : SReg) (x : DWord) :
    (c.putPair s d x).memFrom m = s.mem := by
  simp [IC.putPair]

/-! ### Local -/

@[simp] theorem runLacc_mem (a : LAcc) (s : State) : (runLacc a s).mem = s.mem := by
  unfold runLacc
  (repeat' split) <;> simp

/-! ### Race -/

@[simp] theorem State.updGrid_mem (s : State) (ctx gid : Nat) (f : Grid → Grid) : (s.updGrid ctx gid f).mem = s.mem := rfl

@[simp] theorem State.setRace_mem (s : State) (u : RaceUnit) : (s.setRace u).mem = s.mem := rfl

@[simp] theorem State.raceTick_mem (s : State) (tid : Nat) : (s.raceTick tid).mem = s.mem := by
  unfold State.raceTick
  (repeat' split) <;> simp

@[simp] theorem State.raceJoin_mem (s : State) (clid : Nat) : (s.raceJoin clid).mem = s.mem := by
  simp only [State.raceJoin]
  (repeat' split) <;> simp

@[simp] theorem State.raceLog_mem (s : State) (g ctx : Nat) (a b : RaceAcc) : (s.raceLog g ctx a b).mem = s.mem := by
  simp only [State.raceLog]
  (repeat' split) <;> simp

@[simp] theorem State.raceLine_mem (s : State) (g ctx : Nat) (b : RaceAcc) (line : Loc) : (s.raceLine g ctx b line).mem = s.mem := by
  simp [State.raceLine]

@[simp] theorem State.raceAt_mem (s : State) (tid : Nat) (pc : DWord) (o : Nat) (hasVA : Bool) (l : Loc) (n : Nat) (write : Bool)
    (kind : Nat) :
    (s.raceAt tid pc o hasVA l n write kind).mem = s.mem := by
  unfold State.raceAt
  (repeat' split) <;> simp

@[simp] theorem State.raceAccess_mem (s : State) (tid : Nat) (pc : DWord) (va pa n : Nat) (write : Bool) (kind : Nat) :
    (s.raceAccess tid pc va pa n write kind).mem = s.mem := by simp [State.raceAccess]

/-! ### Async -/

@[simp] theorem State.addOp_mem (s : State) (o : Op) : (s.addOp o).mem = s.mem := rfl

@[simp] theorem IC.noop_memFrom (c : IC) (s : State) : (c.noop s).memFrom s.mem = s.mem := by
  unfold IC.noop
  split <;> rfl

@[simp] theorem State.complete_mem (s : State) (o : Op) (vals : List (Nat × Word)) (pm x : Mask) :
    (s.complete o vals pm x).mem = s.mem := rfl

@[simp] theorem State.completeOk_mem (s : State) (o : Op) (ok : Bool) : (s.completeOk o ok).mem = s.mem := rfl

@[simp] theorem State.completeWords_mem (s : State) (o : Op) (n : Nat) (ws : List Word) (ok : Bool) :
    (s.completeWords o n ws ok).mem = s.mem := by simp [State.completeWords]

@[simp] theorem State.stage_mem (s : State) (o : Op) (src : List Byte) : (s.stage o src).mem = s.mem := by
  unfold State.stage
  (repeat' split) <;> simp

@[simp] theorem State.deferTraps_mem (s : State) (o : Op) (ts : List (Option TrapRec)) : (s.deferTraps o ts).mem = s.mem := by
  simp [State.deferTraps]

@[simp] theorem State.refuseHeld_mem (s : State) (o : Op) (cls sub : Nat) (m : Mask) (lw : Sparse DWord) :
    (s.refuseHeld o cls sub m lw).mem = s.mem := by simp [State.refuseHeld]

@[simp] theorem State.postMsg_mem (s : State) (o : Op) (ranks : List Nat) (m : Msg) : (s.postMsg o ranks m).mem = s.mem := rfl

/-! ### Order -/

@[simp] theorem State.hear_mem (s : State) (src : Nat) (sends : Bool) (num op : Nat) : (s.hear src sends num op).mem = s.mem := rfl

@[simp] theorem State.reach_mem (s : State) (src : Nat) (sends : Bool) (num op pa n : Nat) :
    (s.reach src sends num op pa n).mem = s.mem := by simp [State.reach]

/-! ### Matrix -/

@[simp] theorem dropIssues_mem (ms : List MIssue) (s : State) : (dropIssues ms s).mem = s.mem := by
  unfold dropIssues
  exact foldl_mem _ (by intros; rfl) _ _

@[simp] theorem State.discardSets_mem (s : State) (tid j cls sub : Nat) (lw : Sparse DWord) :
    (s.discardSets tid j cls sub lw).mem = s.mem := by
  unfold State.discardSets
  split
  · rfl
  · exact (foldl_mem _ (by intros; rfl) _ _).trans (dropIssues_mem _ _)

@[simp] theorem State.completeSet_mem (s : State) (tid j : Nat) : (s.completeSet tid j).mem = s.mem := by
  unfold State.completeSet
  split
  · rfl
  · dsimp only
    split
    · rfl
    · exact (dropIssues_mem _ _).trans (foldl_mem _ (by intros; rfl) _ _)

@[simp] theorem State.memberStep_mem (s : State) (t : Team) (bcols : List (List Elem)) (k : Nat) (m : MIssue) :
    (s.memberStep t bcols k m).1.mem = s.mem := by
  unfold State.memberStep
  split <;> rfl

@[simp] theorem State.dataError_mem (s : State) (tid quad : Nat) (ms : List MIssue) (sub : Nat) (lw : Sparse DWord) :
    (s.dataError tid quad ms sub lw).mem = s.mem :=
  (State.discardSets_mem _ _ _ _ _ _).trans (foldl_mem _ (by intros; rfl) _ _)

@[simp] theorem State.resetQuad_mem (s : State) (tid j sub : Nat) (by_ : Option Nat) : (s.resetQuad tid j sub by_).mem = s.mem := by
  unfold State.resetQuad
  split
  · rfl
  · exact (State.discardSets_mem _ _ _ _ _ _).trans (foldl_mem _ (by intros; rfl) _ _)

@[simp] theorem State.mreset_mem (s : State) (core slot by_ : Nat) : (s.mreset core slot by_).mem = s.mem := by
  unfold State.mreset
  (repeat' split) <;> simp

/-! ### Tiles -/

@[simp] theorem State.beginFlips_mem (s : State) (tid : Nat) : (s.beginFlips tid).mem = s.mem := by
  refine foldl_mem _ (fun s g => ?_) _ _
  dsimp only
  split <;> rfl

@[simp] theorem State.doFlip_mem (s : State) (g : Group) (f : Flip) : (s.doFlip g f).mem = s.mem := by simp [State.doFlip]

/-! ### Copy -/

@[simp] theorem State.putCarry_mem (s : State) (o : Op) (c : CopyCmd) (k : Carry) : (s.putCarry o c k).mem = s.mem := rfl

@[simp] theorem State.updCopy_mem (s : State) (op : Nat) (f : CopyCmd → CopyCmd) : (s.updCopy op f).mem = s.mem := rfl

@[simp] theorem State.endCopyNow_mem (s : State) (o : Op) (c : CopyCmd) (code cause : Nat) :
    (s.endCopyNow o c code cause).mem = s.mem := by
  simp only [State.endCopyNow]
  (repeat' split) <;> simp

@[simp] theorem State.endCopy_mem (s : State) (o : Op) (c : CopyCmd) (code cause : Nat) : (s.endCopy o c code cause).mem = s.mem := by
  simp [State.endCopy]

@[simp] theorem State.endKept_mem (s : State) (op : Nat) : (s.endKept op).mem = s.mem := by
  unfold State.endKept
  (repeat' split) <;> simp

@[simp] theorem State.sectorLanded_mem (s : State) (o : Op) (c : CopyCmd) (n : Nat) : (s.sectorLanded o c n).mem = s.mem := by
  simp only [State.sectorLanded]
  (repeat' split) <;> simp

@[simp] theorem State.sectorSuspended_mem (s : State) (o : Op) (c : CopyCmd) (n : Nat) (fs : List (Nat × BitVec 8)) :
    (s.sectorSuspended o c n fs).mem = s.mem := by
  simp only [State.sectorSuspended]
  (repeat' split) <;> simp

@[simp] theorem State.raceSector_mem (s : State) (o : Op) (c : CopyCmd) (n : Nat) : (s.raceSector o c n).mem = s.mem := by
  refine foldl_mem _ (fun s p => ?_) _ _
  split <;> simp

/-- The checks of a shape answer traps. -/
theorem shapeCheck_memFrom {sh : Shape} {rsv : Word} {e d u : Nat} {a : Act} (h : shapeCheck sh rsv e d u = some a) (m : Sparse Byte) :
    a.memFrom m = m := by
  unfold shapeCheck at h
  split_ifs at h <;> cases h <;> rfl

theorem localCheck_memFrom {t : Team} {c : CopyCmd} {a : Act} (h : localCheck t c = some a) (m : Sparse Byte) : a.memFrom m = m := by
  unfold localCheck at h
  split_ifs at h <;> cases h <;> rfl

@[simp] theorem State.settleMarks_mem (s : State) (c : CopyCmd) (k : Carry) : (s.settleMarks c k).mem = s.mem := by
  unfold State.settleMarks
  split
  · refine foldl_mem _ (fun s p => ?_) _ _
    split <;> simp
  · rfl

@[simp] theorem State.localVal_mem (s : State) (t : Team) (b : Buf) (o sz : Nat) : (s.localVal t b o sz).1.mem = s.mem := by
  unfold State.localVal
  split <;> rfl

@[simp] theorem Op.putS_mem (o : Op) (x : Word) (s : State) : (o.putS x s).mem = s.mem := by simp [Op.putS]

@[simp] theorem beginCreg_mem (s : State) (o : Op) : (beginCreg s o).mem = s.mem := by
  unfold beginCreg
  (repeat' split) <;> simp

@[simp] theorem beginCunreg_mem (s : State) (o : Op) : (beginCunreg s o).mem = s.mem := by
  unfold beginCunreg
  split <;> simp

/-! ### Slots -/

@[simp] theorem State.setHome_mem (s : State) (i : Nat) (e : NEntry) : (s.setHome i e).mem = s.mem := rfl

@[simp] theorem State.askAid_mem (s : State) (a : Word) : (s.askAid a).mem = s.mem := by simp [State.askAid]

@[simp] theorem State.askAids_mem (s : State) (as : List Word) : (s.askAids as).mem = s.mem := by simp [State.askAids]

@[simp] theorem State.answerAsk_mem (s : State) (rank : Nat) (a : Word) : (s.answerAsk rank a).mem = s.mem := by simp [State.answerAsk]

theorem State.bindAid_mem {s : State} {tid : Nat} {a : Word} {r : State × Nat} (h : s.bindAid tid a = some r) : r.1.mem = s.mem := by
  unfold State.bindAid at h
  (repeat' split at h) <;> cases h <;> rfl

theorem State.bindAids_mem {s : State} {tid : Nat} {as : List Word} {r : State × Tags} (h : s.bindAids tid as = some r) :
    r.1.mem = s.mem := by
  induction as generalizing s r with
  | nil => cases h; rfl
  | cons a as ih =>
    simp only [State.bindAids] at h
    split at h
    · cases h
    · next s1 k h1 =>
      split at h
      · cases h
      · next s2 m h2 =>
        cases h
        exact (ih h2).trans (State.bindAid_mem h1)

/-! ### Gather -/

@[simp] theorem laneTrap_memFrom (cls sub : Nat) (ls : List (Nat × Nat)) (k : Mask) (m : Sparse Byte) :
    (laneTrap cls sub ls k).memFrom m = m := rfl

theorem addrCheck_memFrom {ls : List (Nat × Nat)} {sz : Nat} {a : Act} (h : addrCheck ls sz = some a) (m : Sparse Byte) :
    a.memFrom m = m := by
  unfold addrCheck at h
  dsimp only at h
  split_ifs at h <;> cases h <;> rfl

theorem xlateTrap_memFrom {ls : List (Nat × Nat)} {ts : List (Nat × Nat × Tr)} {a : Act} (h : xlateTrap ls ts = some a)
    (m : Sparse Byte) : a.memFrom m = m := by
  unfold xlateTrap at h
  dsimp only at h
  split at h <;> cases h
  rfl

theorem State.windowTrap_memFrom {s : State} {ls : List (Nat × Nat)} {ts : List (Nat × Nat × Tr)} {sz : Nat} {a : Act}
    (h : s.windowTrap ls ts sz = some a) (m : Sparse Byte) : a.memFrom m = m := by
  unfold State.windowTrap at h
  dsimp only at h
  split_ifs at h
  cases h
  rfl

theorem cluCheck_memFrom {x : Team} {ls : List (Nat × Nat)} {sz : Nat} {a : Act} (h : cluCheck x ls sz = some a) (m : Sparse Byte) :
    a.memFrom m = m := by
  unfold cluCheck at h
  dsimp only at h
  split_ifs at h <;> cases h <;> rfl

theorem alignCheck_memFrom {ls : List (Nat × Nat)} {sz : Nat} {a : Act} (h : alignCheck ls sz = some a) (m : Sparse Byte) :
    a.memFrom m = m := by
  unfold alignCheck at h
  dsimp only at h
  split_ifs at h
  cases h
  rfl

theorem State.gatherLanes_memFrom {s : State} {c : IC} {t : Team} {sz : Nat} {base : GBase} {off : Opnd} {acc : Acc} {a : Act}
    (h : s.gatherLanes c t sz base off acc = .inl a) (m : Sparse Byte) : a.memFrom m = m := by
  unfold State.gatherLanes at h
  dsimp only at h
  (repeat' split at h) <;> cases h
  · next hc => exact addrCheck_memFrom hc m
  · next hc => exact xlateTrap_memFrom hc m
  · next hc => exact windowTrap_memFrom hc m
  · next hc => exact alignCheck_memFrom hc m
  · rfl
  · next hc => exact cluCheck_memFrom hc m

@[simp] theorem beginScat_mem (s : State) (o : Op) : (beginScat s o).mem = s.mem := by
  unfold beginScat
  split <;> simp

@[simp] theorem State.refuseAct_mem (s : State) (o : Op) (a : Act) : (s.refuseAct o a).mem = s.mem := by
  cases a <;> simp [State.refuseAct]

@[simp] theorem releaseScat_mem (s : State) (o : Op) : (releaseScat s o).mem = s.mem := by
  unfold releaseScat
  dsimp only
  (repeat' split) <;> simp

@[simp] theorem State.endLane_mem (s : State) (op lane : Nat) (st : LaneSt) (res : DWord) (ok poison : Bool) :
    (s.endLane op lane st res ok poison).mem = s.mem := rfl

@[simp] theorem State.laneRead_mem (s : State) (op lane pa sz : Nat) : (s.laneRead op lane pa sz).mem = s.mem := by
  simp [State.laneRead]

@[simp] theorem State.cluRead_mem (s : State) (o : Op) (x : Team) (l : Lane) (sz : Nat) : (s.cluRead o x l sz).mem = s.mem := by
  unfold State.cluRead
  dsimp only
  split
  · rfl
  · next s' tag h =>
    have hs : s'.mem = s.mem := by
      split at h
      · cases h; rfl
      · exact State.bindAids_mem h
    rw [← hs]
    (repeat' split) <;> rfl

@[simp] theorem State.lookLane_mem (s : State) (o : Op) (l : Lane) (w off sz : Nat) (n : Need) :
    (s.lookLane o l w off sz n).mem = s.mem := by
  unfold State.lookLane
  split <;> rfl

/-! ### Barriers -/

@[simp] theorem State.storeBar_mem (s : State) (t : Team) (b : Bar) (x : Barrier) : (s.storeBar t b x).mem = s.mem := by
  unfold State.storeBar
  (repeat' split) <;> simp

@[simp] theorem binit_memFrom (c : IC) (s : State) (b : BitVec 4) (n : Nat) : (binit c s b n).memFrom s.mem = s.mem := by
  unfold binit
  split <;> simp

/-! ### Atomics -/

@[simp] theorem State.captureLanes_mem (s : State) (o : Op) (a : AtomCmd) (ls : List Lane) : (s.captureLanes o a ls).mem = s.mem := by
  unfold State.captureLanes
  split
  · rfl
  · refine (foldl_mem _ (by intros; rfl) _ _).trans ?_
    simp

@[simp] theorem State.atomEnd_mem (s : State) (o : Op) (a : AtomCmd) : (s.atomEnd o a).mem = s.mem := by simp [State.atomEnd]

@[simp] theorem State.captureAtomic_mem (s : State) (op : Nat) (a : AtomCmd) : (s.captureAtomic op a).mem = s.mem := by
  simp only [State.captureAtomic]
  (repeat' split) <;> simp

@[simp] theorem atomLocal_memFrom (c : IC) (s : State) (t : Team) (b : Buf) (base off : Opnd) (o : Op) (a : AtomCmd) :
    (atomLocal c s t b base off o a).memFrom s.mem = s.mem := by
  simp only [atomLocal]
  (repeat' split) <;> simp

@[simp] theorem State.runLocalAtom_mem (s : State) (x : LAcc) (id : Nat) : (s.runLocalAtom x id).mem = s.mem := by
  unfold State.runLocalAtom
  (repeat' split) <;> simp

/-! ### Mailbox -/

/-- The state that a delivery leaves. -/
theorem State.deliver_mem {s t : State} {m : Msg} (h : s.deliver m = .done t) : t.mem = s.mem := by
  unfold State.deliver at h
  dsimp only at h
  (repeat' split at h) <;> cases h <;> simp

/-- A message taken, or none, leaves memory alone. -/
theorem takeMsg_mem {ctx mbx tid : Nat} {q : List Msg} {s t : State}
    (h : takeMsg ctx mbx tid q s = .empty t ∨ ∃ m tag, takeMsg ctx mbx tid q s = .msg t m tag) : t.mem = s.mem := by
  induction q generalizing s with
  | nil =>
    obtain h | ⟨m, tag, h⟩ := h <;> cases h
    rfl
  | cons m ms ih =>
    simp only [takeMsg] at h
    split at h
    · exact (ih h).trans rfl
    · split at h
      · simp at h
      · next hb =>
        simp only [reduceCtorEq, Taken.msg.injEq, false_or] at h
        obtain ⟨_, _, rfl, _⟩ := h
        exact State.bindAids_mem hb

@[simp] theorem State.receive_mem (s : State) (g : Group) (pre : Snapshot) (p : CmpDst) (d : Nat) (m : Msg) (t tag : Tags) :
    (s.receive g pre p d m t tag).mem = s.mem := by simp [State.receive]

@[simp] theorem actMbreg_mem (s : State) (ctx mbx what : Nat) (entry : DWord) (f : BindF) :
    (actMbreg s ctx mbx what entry f).mem = s.mem := by
  unfold actMbreg
  split
  · refine foldl_mem _ (fun s m => ?_) _ _
    split <;> rfl
  · rfl
  · rfl

@[simp] theorem beginMbreg_mem (s : State) (o : Op) : (beginMbreg s o).mem = s.mem := by
  unfold beginMbreg
  split <;> simp

theorem bindCheck_memFrom {c : IC} {entry : DWord} {f : BindF} {a : Act} (h : bindCheck c entry f = some a) (m : Sparse Byte) :
    a.memFrom m = m := by
  unfold bindCheck at h
  split_ifs at h <;> cases h <;> rfl

/-! ### Handles -/

@[simp] theorem State.setHent_mem (s : State) (i : Nat) (e : HEntry) : (s.setHent i e).mem = s.mem := rfl

theorem State.mintHandle_mem {s : State} {ctx kind loc : Nat} {r : State × DWord} (h : s.mintHandle ctx kind loc = some r) :
    r.1.mem = s.mem := by
  unfold State.mintHandle at h
  split at h <;> cases h
  rfl

@[simp] theorem State.freeHandle_mem (s : State) (h : DWord) : (s.freeHandle h).mem = s.mem := by simp [State.freeHandle]

@[simp] theorem State.freeInv_mem (s : State) (h : DWord) : (s.freeInv h).mem = s.mem := by simp [State.freeInv]

theorem State.acceptInv_mem {s t : State} {m : InvMsg} (h : s.acceptInv m = .inl t) : t.mem = s.mem := by
  unfold State.acceptInv at h
  dsimp only at h
  (repeat' split at h) <;> cases h <;> simp

theorem State.answer_mem {s : State} {m : InvMsg} (src op : Nat) : (s.answer src op (s.acceptInv m)).mem = s.mem := by
  unfold State.answer
  split
  · next t h => exact State.acceptInv_mem (t := t) h
  · rfl

@[simp] theorem State.popForward_mem (s : State) (index : Nat) : (s.popForward index).mem = s.mem := rfl

@[simp] theorem State.sendEnd_mem (s : State) (h : DWord) (ctx : Nat) (e : InvEnd) : (s.sendEnd h ctx e).mem = s.mem := by
  simp [State.sendEnd]

@[simp] theorem State.ask_mem (s : State) (c : IC) (h : DWord) (cmd : Cmd) : (s.ask c h cmd).1.mem = s.mem := rfl

@[simp] theorem hwaitAct_memFrom (c : IC) (s : State) (form : HWForm) (p : CmpDst) (h : DWord) :
    (hwaitAct c s form p h).memFrom s.mem = s.mem := by
  unfold hwaitAct
  dsimp only
  split_ifs <;> rfl

@[simp] theorem State.retireGroup_mem (s : State) (g : Group) (t : Team) (id : Nat) (pc h : DWord) (p : CmpDst) (m n : Nat) :
    (s.retireGroup g t id pc h p m n).mem = s.mem := rfl

@[simp] theorem State.dropAt_mem (s : State) (h : DWord) (ctx : Nat) : (s.dropAt h ctx).mem = s.mem := by
  unfold State.dropAt
  split <;> rfl

@[simp] theorem beginHdrop_mem (s : State) (o : Op) : (beginHdrop s o).mem = s.mem := by
  unfold beginHdrop
  split <;> simp

/-! ### Launch -/

@[simp] theorem State.acceptLaunch_mem (s : State) (core ctx : Nat) (r : LaunchRec) : (s.acceptLaunch core ctx r).1.mem = s.mem := by
  simp only [State.acceptLaunch]
  (repeat' split) <;> simp

/-! ### Queues -/

theorem queueCheck_memFrom {c : IC} {s : State} {q : Nat} {a : Act} (h : queueCheck c s q = some a) (m : Sparse Byte) :
    a.memFrom m = m := by
  unfold queueCheck at h
  split_ifs at h <;> cases h <;> rfl

theorem State.pushRecs_mem {s t : State} {q : Nat} {rs : List (List Word)} (h : s.pushRecs q rs = some t) : t.mem = s.mem := by
  unfold State.pushRecs at h
  dsimp only at h
  split_ifs at h
  cases h
  simp

@[simp] theorem beginQpush_mem (s : State) (o : Op) : (beginQpush s o).mem = s.mem := by
  unfold beginQpush
  split
  · split
    · rfl
    · split
      · next h => simpa using State.pushRecs_mem h
      · rfl
  · rfl

@[simp] theorem State.pushDue_mem (s : State) : s.pushDue.mem = s.mem := by simp [State.pushDue]

@[simp] theorem beginNotify_mem (s : State) (o : Op) : (beginNotify s o).mem = s.mem := by
  unfold beginNotify
  split <;> simp

@[simp] theorem beginLaunch_mem (s : State) (o : Op) : (beginLaunch s o).mem = s.mem := by
  simp only [beginLaunch]
  (repeat' split) <;> simp

/-! ### Counters -/

@[simp] theorem State.fire_mem (s : State) (a : Armed) : (s.fire a).mem = s.mem := by simp [State.fire]

@[simp] theorem State.counterChange_mem (s : State) (ctx n : Nat) (v : Word) : (s.counterChange ctx n v).mem = s.mem := by
  unfold State.counterChange
  split <;> simp

@[simp] theorem State.raiseCounter_mem (s : State) (ctx n : Nat) : (s.raiseCounter ctx n).mem = s.mem := by simp [State.raiseCounter]

@[simp] theorem beginCtset_mem (s : State) (o : Op) : (beginCtset s o).mem = s.mem := by
  unfold beginCtset
  split <;> simp

@[simp] theorem beginArm_mem (s : State) (o : Op) : (beginArm s o).mem = s.mem := by
  unfold beginArm
  split <;> simp

@[simp] theorem State.putLanding_mem (s : State) (e : Landing) : (s.putLanding e).mem = s.mem := by simp [State.putLanding]

@[simp] theorem State.endSend_mem (s : State) (o : Op) (a : Armed) (fail : Option Word) : (s.endSend o a fail).mem = s.mem := by
  unfold State.endSend
  split <;> simp

/-! ### Fabric -/

@[simp] theorem State.lookup_mem (s : State) (r : RemoteReq) (pkt : Option (Nat × Nat)) : (s.lookup r pkt).mem = s.mem := by
  unfold State.lookup
  (repeat' split) <;> simp

@[simp] theorem beginRemote_mem (s : State) (o : Op) : (beginRemote s o).mem = s.mem := by
  unfold beginRemote
  split <;> simp

@[simp] theorem State.ownLookup_mem (s : State) (o : Op) (l : Lane) : (s.ownLookup o l).mem = s.mem := by
  unfold State.ownLookup
  (repeat' split) <;> simp

@[simp] theorem State.setGent_mem (s : State) (ctx e : Nat) (x : GEntry) : (s.setGent ctx e x).mem = s.mem := rfl

@[simp] theorem beginMcst_mem (s : State) (o : Op) : (beginMcst s o).mem = s.mem := by
  unfold beginMcst
  split <;> simp

@[simp] theorem releaseMcst_mem (s : State) (o : Op) : (releaseMcst s o).mem = s.mem := by
  unfold releaseMcst
  split <;> simp

@[simp] theorem State.setPort_mem (s : State) (port : Nat) (up : Bool) : (s.setPort port up).mem = s.mem := rfl

/-! ### Praline -/

@[simp] theorem State.setTree_mem (s : State) (k : Nat) (t : PTree) : (s.setTree k t).mem = s.mem := rfl

@[simp] theorem pFail_mem (s : State) (st : Nat) : (pFail s st).s.mem = s.mem := rfl

@[simp] theorem pErr_mem (s : State) (lane : Nat) (e : PErr) : (pErr s lane e).s.mem = s.mem := rfl

@[simp] theorem State.prBest_mem (s : State) (t : PTree) : (s.prBest t).s.mem = s.mem := by
  unfold State.prBest
  (repeat' split) <;> simp

@[simp] theorem queries_mem (s : State) (t : PTree) (sel : PSel) (ls : List (Nat × Word)) (out : List (Nat × Word × Word)) (st : Nat) :
    (queries s t sel ls out st).s.mem = s.mem := by
  induction ls generalizing out st with
  | nil => rfl
  | cons x ls ih =>
    simp only [queries]
    (repeat' split) <;> simp [ih]

@[simp] theorem State.freeTree_mem (s : State) (k : Nat) : (s.freeTree k).mem = s.mem := rfl

@[simp] theorem pStale_mem (s : State) (c : PrCmd) : (pStale s c).s.mem = s.mem := rfl

@[simp] theorem beginPraline_mem (s : State) (o : Op) : (beginPraline s o).mem = s.mem := rfl

/-! ### Collective -/

@[simp] theorem beginGset_mem (s : State) (o : Op) : (beginGset s o).mem = s.mem := by
  unfold beginGset
  split <;> rfl

@[simp] theorem State.updInst_mem (s : State) (ctx entry : Nat) (seq : Word) (f : CollInst → CollInst) :
    (s.updInst ctx entry seq f).mem = s.mem := rfl

@[simp] theorem State.dropInst_mem (s : State) (i : CollInst) : (s.dropInst i).mem = s.mem := rfl

@[simp] theorem State.drawPackets_mem (s : State) : s.drawPackets.mem = s.mem := rfl

@[simp] theorem State.setSigs_mem (s : State) (ctx entry : Nat) (l : List (Nat × Signature)) :
    (s.setSigs ctx entry l).mem = s.mem := rfl

@[simp] theorem State.judge_mem (s : State) (ctx entry : Nat) : (s.judge ctx entry).mem = s.mem := by
  unfold State.judge
  dsimp only
  split
  · rfl
  · refine (foldl_mem _ (fun s x => ?_) _ _).trans rfl
    split <;> rfl

@[simp] theorem State.sign_mem (s : State) (i : CollInst) : (s.sign i).mem = s.mem := by
  unfold State.sign
  dsimp only
  split
  · rw [State.judge_mem, State.setSigs_mem]
  · rfl

theorem collCheck_memFrom {s : State} {x : GEntry} {f : CollF} {n src dst count : Nat} {a : Act}
    (h : collCheck s x f n src dst count = some a) (m : Sparse Byte) : a.memFrom m = m := by
  unfold collCheck at h
  dsimp only at h
  split_ifs at h <;> cases h <;> rfl

/-! ### Control -/

@[simp] theorem jumpAll_memFrom (c : IC) (s : State) (tgt : DWord) (link : Option SReg) :
    (jumpAll c s tgt link).memFrom s.mem = s.mem := by simp [jumpAll]

@[simp] theorem sleepFor_memFrom (c : IC) (s : State) (n : Word) : (sleepFor c s n).memFrom s.mem = s.mem := by simp [sleepFor]

@[simp] theorem writeFmt_memFrom (c : IC) (s : State) (sel : BitVec 5) (x : Word) : (writeFmt c s sel x).memFrom s.mem = s.mem := by
  simp [writeFmt]

/-! ### Fetch -/

@[simp] theorem State.fill_mem (s : State) (core pa : Nat) (bs : List Byte) : (s.fill core pa bs).mem = s.mem := rfl

@[simp] theorem State.fetch_mem (s : State) (g : Group) : (s.fetch g).1.mem = s.mem := by
  simp only [State.fetch]
  (repeat' split) <;> simp

/-! ### System -/

@[simp] theorem setTimer_memFrom (c : IC) (s : State) (n : Word) : (setTimer c s n).memFrom s.mem = s.mem := by simp [setTimer]

@[simp] theorem State.expire_mem (s : State) (gid : Nat) : (s.expire gid).mem = s.mem := by
  unfold State.expire
  split <;> simp

@[simp] theorem beginVinv_mem (s : State) (o : Op) : (beginVinv s o).mem = s.mem := by
  unfold beginVinv
  split <;> rfl

@[simp] theorem beginMreset_mem (s : State) (o : Op) : (beginMreset s o).mem = s.mem := by
  unfold beginMreset
  split <;> simp

/-! ### Place -/

@[simp] theorem State.startTeam_mem (s : State) (ctx : Nat) (kind : TeamKind) (core n : Nat) (b : Binding) (role : Nat → Role)
    (t : Team → Team) (g : Nat → Group → Group) :
    (s.startTeam ctx kind core n b role t g).mem = s.mem := rfl

@[simp] theorem State.startGridTeam_mem (s : State) (g : Grid) (n core : Nat) (clid : Option Nat) :
    (s.startGridTeam g n core clid).mem = s.mem := rfl

theorem State.placeGrid_mem {s t : State} {g : Grid} (h : s.placeGrid g = some t) : t.mem = s.mem := by
  unfold State.placeGrid at h
  dsimp only at h
  split at h
  · obtain ⟨core, -, rfl⟩ := Option.map_eq_some_iff.1 h
    simp
  · obtain ⟨o, -, rfl⟩ := Option.map_eq_some_iff.1 h
    exact foldl_mem _ (fun s k => State.startGridTeam_mem _ _ _ _ _) _ _

theorem State.placePend_mem {s t : State} {ctx : Nat} {p : PendTeam} (h : s.placePend ctx p = some t) : t.mem = s.mem := by
  unfold State.placePend at h
  dsimp only at h
  split at h
  · cases h
  · split at h
    · cases h
      rfl
    · split at h
      · cases h
      · next hb =>
        cases h
        exact State.bindAids_mem hb

theorem State.placeNext_mem {s t : State} {c : Ctx} (h : s.placeNext c = some t) : t.mem = s.mem := by
  unfold State.placeNext at h
  split at h
  · exact placePend_mem h
  · split at h
    · exact placeGrid_mem h
    · cases h

@[simp] theorem State.removeTeam_mem (s : State) (tid : Nat) : (s.removeTeam tid).mem = s.mem := rfl

@[simp] theorem State.invEnded_mem (s : State) (t : Team) (h : DWord) : (s.invEnded t h).mem = s.mem := by
  unfold State.invEnded
  split <;> simp

/-! ### Nougat -/

@[simp] theorem State.sendResolution_mem (s : State) (i : Nat) (affirmed : Bool) : (s.sendResolution i affirmed).mem = s.mem := by
  unfold State.sendResolution
  exact foldl_mem _ (by intros; rfl) _ _

@[simp] theorem State.markSlots_mem (s : State) (a : Word) (affirmed : Bool) : (s.markSlots a affirmed).mem = s.mem := rfl

@[simp] theorem State.resolveEntry_mem (s : State) (i : Nat) (affirmed : Bool) : (s.resolveEntry i affirmed).mem = s.mem := by
  simp [State.resolveEntry]

@[simp] theorem State.slotPending_mem (s : State) (tid : Nat) (aid : Word) : (s.slotPending tid aid).mem = s.mem := rfl

@[simp] theorem State.confirm_mem (s : State) (i : Nat) : (s.confirm i).mem = s.mem := by simp [State.confirm]

@[simp] theorem State.clrSlot_mem (s : State) (tid k : Nat) : (s.clrSlot tid k).mem = s.mem := rfl

@[simp] theorem State.forgetTaken_mem (s : State) (tid : Nat) : (s.forgetTaken tid).mem = s.mem := rfl

@[simp] theorem beginResolve_mem (s : State) (o : Op) : (beginResolve s o).mem = s.mem := by
  unfold beginResolve
  split <;> simp

@[simp] theorem State.applied_mem (s : State) (a : Word) (affirmed : Bool) : (s.applied a affirmed).mem = s.mem := by
  simp [State.applied]

@[simp] theorem State.returnMsg_mem (s : State) (m : Msg) : (s.returnMsg m).mem = s.mem := by
  unfold State.returnMsg
  split <;> rfl

@[simp] theorem State.returnTaken_mem (s : State) (tid : Nat) (a : Word) (rolled : List (Nat × Snapshot)) :
    (s.returnTaken tid a rolled).mem = s.mem := by
  unfold State.returnTaken
  split
  · rfl
  · exact (foldl_mem _ (by simp) _ _).trans rfl

@[simp] theorem State.suppress_mem (s : State) (tid : Nat) (b : Tags) (rolled : List (Nat × Snapshot)) :
    (s.suppress tid b rolled).mem = s.mem := rfl

@[simp] theorem Group.mint_mem (g : Group) (s : State) (t : Team) (pre : Snapshot) (tag : Tags) (k i : Nat) (d ireg : SReg)
    (val : Word) (kind : Word → SnapKind) (kindN : Bool) (h : DWord) (w ask : Nat) :
    (g.mint s t pre tag k i d ireg val kind kindN h w ask).1.mem = s.mem := rfl

@[simp] theorem State.guessPending_mem (s : State) (g : Group) (op : Nat) (d i : SReg) (h : DWord) (w : Nat) (val : Word)
    (pc : DWord) (tag : Tags) :
    (s.guessPending g op d i h w val pc tag).mem = s.mem := by
  unfold State.guessPending
  (repeat' split) <;> simp

@[simp] theorem State.tellAsker_mem (s : State) (op : Nat) (a : HomeAns) : (s.tellAsker op a).mem = s.mem := by simp [State.tellAsker]

@[simp] theorem State.judgeReq_mem (s : State) (a : Word) (affirm : Bool) (ctx : Nat) : (s.judgeReq a affirm ctx).1.mem = s.mem := by
  simp only [State.judgeReq]
  (repeat' split) <;> simp

theorem tqryVal_memFrom {c : IC} {t : Team} {sel : TQSel} {a : Act} (h : tqryVal c t sel = .inl a) (m : Sparse Byte) :
    a.memFrom m = m := by
  cases sel <;> simp only [tqryVal, reduceCtorEq] at h
  all_goals
    split at h <;> cases h
    rfl

/-! ### Distributor -/

@[simp] theorem State.svcTick_mem (s : State) (cycle : Nat) (ready picked : List Nat) :
    (s.svcTick cycle ready picked).mem = s.mem := rfl

@[simp] theorem State.slotCycle_mem (s : State) (core sub : Nat) : (s.slotCycle core sub).mem = s.mem := rfl

@[simp] theorem State.countSlice_mem (s : State) (ctx : Nat) : (s.countSlice ctx).mem = s.mem := rfl

@[simp] theorem State.moveTeam_mem (s : State) (t : Team) (core : Nat) : (s.moveTeam t core).mem = s.mem := rfl

theorem State.placeUnit_mem {s t : State} {u : List Team × Option Cluster} (h : s.placeUnit u = some t) : t.mem = s.mem := by
  unfold State.placeUnit at h
  split at h
  · split at h
    · obtain ⟨k, -, rfl⟩ := Option.map_eq_some_iff.1 h
      rfl
    · cases h
      rfl
  · split at h
    · cases h
      rfl
    · obtain ⟨o, -, rfl⟩ := Option.map_eq_some_iff.1 h
      exact foldl_mem _ (by intros; rfl) _ _

/-! ### Host -/

theorem State.hostEffect_mem {s : State} {c : HostCmd} {r : State × Nat} (h : s.hostEffect c = some r) : r.1.mem = s.mem := by
  unfold State.hostEffect at h
  dsimp only at h
  split at h
  · split at h
    · cases h
      rfl
    · split at h
      · next hp =>
        cases h
        exact State.pushRecs_mem hp
      · cases h
        rfl
  · split at h <;> cases h
    simp
  · split at h <;> cases h <;> simp
  · split at h
    · next hd =>
      cases h
      exact deliver_mem hd
    · cases h
      rfl
    · cases h

theorem State.hostDo_mem {s : State} {c : HostCmd} {r : State × Nat} (h : s.hostDo c = some r) : r.1.mem = s.mem := by
  unfold State.hostDo at h
  split at h
  · cases h
    rfl
  · exact hostEffect_mem h

@[simp] theorem State.hostReply_mem (s : State) (c : HostCmd) (st : Nat) : (s.hostReply c st).mem = s.mem := rfl

/-- A command that is tried: what is done after it and what is done while it waits leave memory alone. -/
theorem State.hostTry_mem {s : State} {c : HostCmd} {done wait : State → State} (hd : ∀ t, (done t).mem = t.mem)
    (hw : ∀ t, (wait t).mem = t.mem) : (s.hostTry c done wait).mem = s.mem := by
  unfold State.hostTry
  split
  · next h => rw [hd, hostReply_mem, hostDo_mem h]
  · exact hw s

@[simp] theorem State.front_mem (s : State) (c : HostCmd) : (s.front c).mem = s.mem := by
  unfold State.front
  split
  · exact hostTry_mem (fun _ => rfl) fun _ => rfl
  · split
    · exact hostTry_mem (fun _ => rfl) fun _ => rfl
    · rfl

@[simp] theorem hostOp_mem (n : Nat) (c : HostCmd) (s : State) : (hostOp n c s).mem = s.mem := by simp [hostOp]

/-! ### Firmware -/

@[simp] theorem State.freeTrees_mem (s : State) (ctx : Nat) : (s.freeTrees ctx).mem = s.mem := by
  unfold State.freeTrees
  exact foldl_mem _ (by intros; rfl) _ _

@[simp] theorem State.dropCtx_mem (s : State) (n : Nat) : (s.dropCtx n).mem = s.mem := rfl

@[simp] theorem State.pldm_mem (s : State) (code : Nat) (ok : Bool) (bytes : List Byte) : (s.pldm code ok bytes).mem = s.mem := rfl

@[simp] theorem State.setUpd_mem (s : State) (u : UpdSt) : (s.setUpd u).mem = s.mem := rfl

@[simp] theorem State.giveUp_mem (s : State) (img : Bool) : (s.giveUp img).mem = s.mem := rfl

@[simp] theorem State.setPwr_mem (s : State) (u : PowerUnit) (p : PwrSt) : (s.setPwr u p).mem = s.mem := by
  unfold State.setPwr
  split <;> simp

@[simp] theorem IC.submit_memFrom {c : IC} {s : State} {g : Group} {o : Op} {extra : Tags} {act : State → Op → State}
    (hact : ∀ s o, (act s o).mem = s.mem) : (c.submit s g o extra act).memFrom s.mem = s.mem := by
  unfold IC.submit
  dsimp only
  split
  · exact hact _ _
  · split
    · rfl
    · split <;> rfl

@[simp] theorem IC.launch_memFrom {c : IC} {s : State} {g : Group} {o : Op} {act : State → Op → State}
    (hact : ∀ s o, (act s o).mem = s.mem) : (c.launch s g o act).memFrom s.mem = s.mem := hact _ _

@[simp] theorem prSubmit_memFrom (c : IC) (s : State) (k : PrCmd) (d : Dst) (p : CmpDst) (w : List Reg) (extra : Tags) :
    (prSubmit c s k d p w extra).memFrom s.mem = s.mem := IC.submit_memFrom (by intros; rfl)

theorem invokeTail_memFrom {c : IC} {s : State} {t : Team} {d : Option SReg} {kind loc : Nat} {p : CmpDst}
    {mk : DWord → Group → Cmd} {send : State → Op → State} (hsend : ∀ s o, (send s o).mem = s.mem) :
    (invokeTail c s t d kind loc p mk send).memFrom s.mem = s.mem := by
  unfold invokeTail
  dsimp only
  split
  · rfl
  · split
    · rfl
    · next s' h hm =>
      rw [show s.mem = s'.mem from ?_]
      · exact IC.launch_memFrom hsend
      · split at hm
        · cases hm
          rfl
        · exact (State.mintHandle_mem hm).symm

/-! ### What writes memory keeps its canonical form

One lemma per operation that may write: `f_wf`. -/

/-- The architect's `wrBytes_wf`, `wrNat_wf` and `wrVA_wf` in the form that `simp` uses. -/
@[simp] theorem State.wrBytes_wf {s : State} {a : Nat} {bs : List Byte} (h : Memory.wf s.mem) : Memory.wf (s.wrBytes a bs).mem :=
  Machine.wrBytes_wf s a bs h

@[simp] theorem State.wrNat_wf {s : State} {a n v : Nat} (h : Memory.wf s.mem) : Memory.wf (s.wrNat a n v).mem :=
  Machine.wrNat_wf s a n v h

@[simp] theorem wf_mem_wrVA {core ctx : Nat} {sup : Bool} {s : State} {va : Nat} {bs : List Byte} (h : Memory.wf s.mem) :
    Memory.wf (wrVA core ctx sup s va bs).mem :=
  Machine.wrVA_wf core ctx sup bs s va h

@[simp] theorem wf_ite (p : Prop) [Decidable p] (a b : Sparse Byte) :
    Memory.wf (if p then a else b) = if p then Memory.wf a else Memory.wf b :=
  apply_ite Memory.wf p a b

/-! Folds over a state, over a state with an accumulator, and over steps that may fail: each keeps the form when its body does. -/

theorem foldl_fst_wf {α β : Type} {f : State × β → α → State × β} {l : List α} {b : State × β} (h : Memory.wf b.1.mem)
    (hf : ∀ b a, Memory.wf b.1.mem → Memory.wf (f b a).1.mem) : Memory.wf (l.foldl f b).1.mem :=
  List.foldlRecOn (motive := fun b => Memory.wf b.1.mem = true) l f h fun b hb a _ => hf b a hb

theorem foldl_wf {α : Type} {f : State → α → State} {l : List α} {s : State} (h : Memory.wf s.mem)
    (hf : ∀ s a, Memory.wf s.mem → Memory.wf (f s a).mem) : Memory.wf (l.foldl f s).mem :=
  List.foldlRecOn (motive := fun s => Memory.wf s.mem = true) l f h fun s hs a _ => hf s a hs

theorem foldl_bind_wf {α β : Type} {m : β → State} {f : β → α → Option β} {l : List α} {b c : β} (h : Memory.wf (m b).mem)
    (hf : ∀ b a c, Memory.wf (m b).mem → f b a = some c → Memory.wf (m c).mem)
    (hc : l.foldl (fun r a => r.bind fun b => f b a) (some b) = some c) : Memory.wf (m c).mem := by
  refine List.foldlRecOn (motive := fun r => ∀ c, r = some c → Memory.wf (m c).mem = true) l _ ?_ (fun r hr a _ c hc => ?_) c hc
  · rintro _ ⟨⟩
    exact h
  · obtain ⟨b, hb, hbc⟩ := Option.bind_eq_some_iff.1 hc
    exact hf b a c (hr b hb) hbc

/-- `foldl_wf` through the name `Inv`: the kernel then does not unfold the operation of the fold to compare two forms of it. -/
theorem foldl_inv {α : Type} {f : State → α → State} {l : List α} {s : State} (h : Inv s) (hf : ∀ s a, Inv s → Inv (f s a)) :
    Inv (l.foldl f s) :=
  List.foldlRecOn (motive := Inv) l f h fun s hs a _ => hf s a hs

theorem Act.ite_wf {p : Prop} [Decidable p] {m : Sparse Byte} {a b : Act} (ha : Memory.wf (a.memFrom m)) (hb : Memory.wf (b.memFrom m)) :
    Memory.wf ((if p then a else b).memFrom m) := by
  split
  · exact ha
  · exact hb

theorem State.ite_wf {p : Prop} [Decidable p] {s t : State} (hs : Memory.wf s.mem) (ht : Memory.wf t.mem) :
    Memory.wf (if p then s else t).mem := by
  split
  · exact hs
  · exact ht

theorem Act.ite_memFrom {p : Prop} [Decidable p] {m n : Sparse Byte} {a b : Act} (ha : a.memFrom m = n) (hb : b.memFrom m = n) :
    (if p then a else b).memFrom m = n := by
  split
  · exact ha
  · exact hb

theorem IC.submit_wf {c : IC} {s : State} {g : Group} {o : Op} {extra : Tags} {act : State → Op → State} (h : Memory.wf s.mem)
    (hact : ∀ s o, Memory.wf s.mem → Memory.wf (act s o).mem) : Memory.wf ((c.submit s g o extra act).memFrom s.mem) := by
  unfold IC.submit
  dsimp only
  split
  · exact hact _ _ h
  · split
    · exact h
    · split <;> exact h

theorem IC.launch_wf {c : IC} {s : State} {g : Group} {o : Op} {act : State → Op → State} (h : Memory.wf s.mem)
    (hact : ∀ s o, Memory.wf s.mem → Memory.wf (act s o).mem) : Memory.wf ((c.launch s g o act).memFrom s.mem) := hact _ _ h

theorem invokeTail_wf {c : IC} {s : State} {t : Team} {d : Option SReg} {kind loc : Nat} {p : CmpDst}
    {mk : DWord → Group → Cmd} {send : State → Op → State} (hs : Memory.wf s.mem)
    (hsend : ∀ s o, Memory.wf s.mem → Memory.wf (send s o).mem) :
    Memory.wf ((invokeTail c s t d kind loc p mk send).memFrom s.mem) := by
  unfold invokeTail
  dsimp only
  split
  · exact hs
  · split
    · exact hs
    · next s' h hm =>
      have hm' : s'.mem = s.mem := by
        split at hm
        · cases hm
          rfl
        · exact State.mintHandle_mem hm
      rw [← hm'] at hs ⊢
      exact IC.launch_wf hs hsend

/-! ### Ops -/

@[simp] theorem State.wrDesc_wf {s : State} {c : Ctx} {off n v : Nat} (h : Memory.wf s.mem) : Memory.wf (s.wrDesc c off n v).mem := by
  simp [State.wrDesc, h]

@[simp] theorem State.putRing_wf {s : State} {c : Ctx} {idx : Nat} {r : FaultRec} (h : Memory.wf s.mem) :
    Memory.wf (s.putRing c idx r).mem := by
  simp [State.putRing, h]

@[simp] theorem State.appendRing_wf {s : State} {c : Ctx} {r : FaultRec} (h : Memory.wf s.mem) : Memory.wf (s.appendRing c r).mem := by
  simp [State.appendRing, h]

@[simp] theorem State.postFault_wf {s : State} {ctx : Nat} {r : FaultRec} (h : Memory.wf s.mem) :
    Memory.wf (s.postFault ctx r).mem := by
  unfold State.postFault
  (repeat' split) <;> simp [h]

@[simp] theorem State.doubleTrap_wf {s : State} {g : Group} {cls sub : Nat} {cpc : DWord} (h : Memory.wf s.mem) :
    Memory.wf (s.doubleTrap g cls sub cpc).mem := by
  simp [State.doubleTrap, h]

@[simp] theorem State.enterTrap_wf {s : State} {g : Group} {t : TrapRec} {epc : DWord} {sync : Bool} (h : Memory.wf s.mem) :
    Memory.wf (s.enterTrap g t epc sync).mem := by
  simp [State.enterTrap, h]

@[simp] theorem State.syncTrap_wf {s : State} {g : Group} {t : TrapRec} (h : Memory.wf s.mem) : Memory.wf (s.syncTrap g t).mem := by
  simp [State.syncTrap, h]

/-! ### Issue -/

/-- What an act leaves is in canonical form after it has retired or trapped. -/
theorem State.settle_wf {s : State} {c : IC} {a : Act} (h : Memory.wf s.mem) (ha : Memory.wf (a.memFrom s.mem)) :
    Memory.wf (s.settle c a).mem := by
  cases a with
  | wait => exact h
  | trap => exact syncTrap_wf h
  | go s' pc res => simpa [State.settle] using ha
  | done s' => exact ha

/-- An instruction whose act keeps the canonical form keeps it. -/
theorem issue_wf {i : Instr} {act : State → IC → Act} {s : State} (h : Memory.wf s.mem)
    (hact : ∀ s c, Memory.wf s.mem → Memory.wf ((act s c).memFrom s.mem)) : Memory.wf (issue i act s).mem := by
  unfold issue
  split
  · exact h
  · dsimp only
    split
    · exact h
    · split
      · exact State.settle_wf h h
      · exact State.settle_wf h (hact _ _ h)

/-- An instruction whose act leaves memory alone: only its traps can write. -/
theorem issue_wf_of_mem {i : Instr} {act : State → IC → Act} {s : State} (h : Memory.wf s.mem)
    (hact : ∀ s c, (act s c).memFrom s.mem = s.mem) : Memory.wf (issue i act s).mem :=
  issue_wf h fun s c hs => by rwa [hact s c]

/-! ### Device -/

@[simp] theorem State.homeWrite_wf {s : State} {pa : Nat} {bs : List Byte} (h : Memory.wf s.mem) :
    Memory.wf (s.homeWrite pa bs).mem := by
  unfold State.homeWrite
  split
  · rwa [wrDev_mem]
  · exact Machine.wrBytes_wf s pa bs h

@[simp] theorem State.putData_wf {s : State} {pa : Nat} {d : FarData} (h : Memory.wf s.mem) : Memory.wf (s.putData pa d).mem := by
  simp [State.putData, h]

/-! ### IntAlu -/

theorem aluOp_wf {i : Instr} {d : Dst} {f : Group → Nat → Word × BitVec 7} {s : State} (h : Memory.wf s.mem) :
    Memory.wf (aluOp i d f s).mem :=
  issue_wf_of_mem h fun s c => c.alu_memFrom _ s d _

theorem divOp_wf {i : Instr} {d : Dst} {n32 trap : Bool} {f : Bool → Word → Word → Word × BitVec 7} {a : Opnd} {b : Opnd ⊕ Word}
    {s : State} (h : Memory.wf s.mem) : Memory.wf (divOp i d n32 trap f a b s).mem :=
  issue_wf_of_mem h fun s c => by simp

theorem icmpOp_wf {i : Instr} {d : CmpDst} {cc : Cond} {uns : Bool} {w : IWidth} {a : Opnd} {b : Opnd ⊕ Word} {s : State}
    (h : Memory.wf s.mem) : Memory.wf (icmpOp i d cc uns w a b s).mem :=
  issue_wf_of_mem h fun s c => c.cmp_memFrom _ s d _

/-! ### Local -/

theorem localOp_wf {i : Instr} {b : Buf} {st : Bool} {ty : LTy} {data : Opnd} {d : Dst} {base off : Opnd} {s : State}
    (h : Memory.wf s.mem) : Memory.wf (localOp i b st ty data d base off s).mem :=
  issue_wf_of_mem h fun s c => by
    split
    · rfl
    · dsimp only
      split
      · rfl
      · simp

/-! ### Race -/

@[simp] theorem State.storeVA_wf {s : State} {ctx va : Nat} {bs : List Byte} (h : Memory.wf s.mem) :
    Memory.wf (s.storeVA ctx va bs).mem := by
  unfold State.storeVA
  (repeat' split) <;> simp [h]

@[simp] theorem State.logEntries_wf {s : State} {pick : Nat → RaceEntry → Bool} (h : Memory.wf s.mem) :
    Memory.wf (s.logEntries pick).mem := by
  refine foldl_fst_wf (b := (s, [])) h fun b x hb => ?_
  split
  · exact storeVA_wf hb
  · exact hb

@[simp] theorem State.logGrid_wf {s : State} {g : Grid} (h : Memory.wf s.mem) : Memory.wf (s.logGrid g).mem := by
  simp [State.logGrid, h]

/-! ### FloatAlu -/

theorem f2Op_wf {i : Instr} {d : Dst} {t : FTy} {a : Opnd} {b : Opnd ⊕ Word} {m : FMods} {f : Group → FVal → FVal → Nat × BitVec 7}
    {s : State} (h : Memory.wf s.mem) : Memory.wf (f2Op i d t a b m f s).mem := aluOp_wf h

theorem h2Op_wf {i : Instr} {d : Dst} {bf : Bool} {a : Opnd} {b : Opnd ⊕ Word} {m : FMods}
    {f : Group → FVal → FVal → Nat × BitVec 7} {s : State} (h : Memory.wf s.mem) : Memory.wf (h2Op i d bf a b m f s).mem := aluOp_wf h

theorem fcmpOp_wf {i : Instr} {d : CmpDst} {cc : Cond} {t : FTy} {a : Opnd} {b : Opnd ⊕ Word} {s : State} (h : Memory.wf s.mem) :
    Memory.wf (fcmpOp i d cc t a b s).mem :=
  issue_wf_of_mem h fun s c => c.cmp_memFrom _ s d _

theorem funOp_wf {i : Instr} {d : Dst} {t : FTy} {fn : FFun} {a : Opnd} {neg abs : Bool} {s : State} (h : Memory.wf s.mem) :
    Memory.wf (funOp i d t fn a neg abs s).mem := aluOp_wf h

theorem hcmpOp_wf {i : Instr} {d : CmpDst} {cc : Cond} {bf : Bool} {comb : Comb} {a : Opnd} {b : Opnd ⊕ Word} {s : State}
    (h : Memory.wf s.mem) : Memory.wf (hcmpOp i d cc bf comb a b s).mem :=
  issue_wf_of_mem h fun s c => c.cmp_memFrom _ s d _

/-! ### Matrix -/

theorem mIssueOp_wf {i : Instr} {m : MOps} {bstep : Nat} {step : Bool} {s : State} (h : Memory.wf s.mem) :
    Memory.wf (mIssueOp i m bstep step s).mem :=
  issue_wf_of_mem h fun s c => by
    split
    · simp
    · rfl

theorem colOp_wf {i : Instr} {d : Option VReg} {rb : Nat} {f : Group → Nat → Nat × BitVec 7} {s : State} (h : Memory.wf s.mem) :
    Memory.wf (colOp i d rb f s).mem :=
  issue_wf_of_mem h fun s c => by split <;> rfl

/-! ### Tiles -/

theorem flipOp_wf {i : Instr} {give : Bool} {b : Buf} {base n : Opnd} {s : State} (h : Memory.wf s.mem) :
    Memory.wf (flipOp i give b base n s).mem :=
  issue_wf_of_mem h fun s c => by
    split
    · rfl
    · simp

/-! ### Copy -/

@[simp] theorem State.copyCheck_wf {s : State} {op : Nat} (h : Memory.wf s.mem) : Memory.wf (s.copyCheck op).mem := by
  unfold State.copyCheck
  split
  · exact h
  · next o _ =>
    split
    · dsimp only
      split
      · exact h
      · split
        · simpa using h
        · simpa using h
        · split
          · simpa using h
          · exact foldl_wf h fun s r hs => postFault_wf hs
    · exact h

@[simp] theorem State.captureCopy_wf {s : State} {op : Nat} (h : Memory.wf s.mem) : Memory.wf (s.captureCopy op).mem := by
  unfold State.captureCopy
  split
  · exact h
  · split
    · refine copyCheck_wf ?_
      rw [mem_ite, State.stage_mem, ite_self]
      refine foldl_fst_wf (b := (s, [], [])) h fun b n hb => ?_
      dsimp only
      split <;> simpa using hb
    · exact h

@[simp] theorem State.captureMore_wf {s : State} {op : Nat} (h : Memory.wf s.mem) : Memory.wf (s.captureMore op).mem := by
  unfold State.captureMore
  (repeat' split) <;> simp [h]

@[simp] theorem beginCopy_wf {s : State} {o : Op} (h : Memory.wf s.mem) : Memory.wf (beginCopy s o).mem := by
  simp only [beginCopy]
  (repeat' split) <;> simp [h]

theorem copyOp_wf {i : Instr} {d : Opnd} {buf : Buf} {out : Bool} {bar : Option (BitVec 4)} {mbx : BitVec 12} {post : Bool}
    {red : Option (RedOp × CredTy)} {base : Team → IC → Option (Nat × Shape × Word × Option Nat)} {s : State}
    (h : Memory.wf s.mem) : Memory.wf (copyOp i d buf out bar mbx post red base s).mem :=
  issue_wf h fun s c hs => by
    split
    · exact hs
    · refine Act.ite_wf (by simpa using hs) (Act.ite_wf hs ?_)
      split
      · exact hs
      · dsimp only
        split
        · next hc => rwa [shapeCheck_memFrom hc]
        · split
          · next hc => rwa [localCheck_memFrom hc]
          · exact Act.ite_wf hs (Act.ite_wf hs (IC.submit_wf hs fun s o => beginCopy_wf))

@[simp] theorem State.moveRun_wf {s : State} {o : Op} {c : CopyCmd} {n : Nat} {far : FarData} {p : Nat × Nat × Loc} {off len : Nat}
    (h : Memory.wf s.mem) :
    Memory.wf (s.moveRun o c n far p off len).1.mem := by
  simp only [State.moveRun]
  (repeat' split) <;> simp [h]

@[simp] theorem State.moveWords_wf {s : State} {o : Op} {c : CopyCmd} {k : Carry} {far : FarData} {m : BitVec 64}
    (h : Memory.wf s.mem) : Memory.wf (s.moveWords o c k far m).1.mem :=
  foldl_fst_wf (b := (s, _)) h fun _ _ hb => foldl_fst_wf hb fun _ _ hb => moveRun_wf hb

@[simp] theorem State.land_wf {s : State} {o : Op} {c : CopyCmd} {n : Nat} (h : Memory.wf s.mem) : Memory.wf (s.land o c n).mem := by
  simp [State.land, h]

@[simp] theorem State.carrySector_wf {s : State} {o : Op} {c : CopyCmd} {k : Carry} {words : BitVec 64} {far : Option FarData}
    (h : Memory.wf s.mem) :
    Memory.wf (s.carrySector o c k words far).mem := by
  simp only [State.carrySector]
  (repeat' split) <;> simp [h]

@[simp] theorem State.updateAt_wf {s : State} {pa : Nat} {op : RedOp} {ty : CredTy} {v : Nat} {bad : Bool} (h : Memory.wf s.mem) :
    Memory.wf (s.updateAt pa op ty v bad).1.mem := by
  simp [State.updateAt, h]

@[simp] theorem beginCreplay_wf {s : State} {r : Op} (h : Memory.wf s.mem) : Memory.wf (beginCreplay s r).mem := by
  simp only [beginCreplay]
  (repeat' split) <;> simp [h]

theorem creplayOp_wf {i : Instr} {a : SReg} {drop : Bool} {s : State} (h : Memory.wf s.mem) :
    Memory.wf (creplayOp i a drop s).mem :=
  issue_wf h fun s c hs => by simp [hs, IC.submit_wf hs fun s o => beginCreplay_wf]

/-! ### Gather -/

@[simp] theorem State.gatherLane_wf {s : State} {o : Op} {l : Lane} {far : Option LaneAns} (h : Memory.wf s.mem) :
    Memory.wf (s.gatherLane o l far).mem := by
  simp only [State.gatherLane]
  (repeat' split) <;> simp [h]

/-! ### Atomics -/

@[simp] theorem State.atomAt_wf {s : State} {op : Nat} {a : AtomCmd} {l : Lane} {pa : Nat} (h : Memory.wf s.mem) :
    Memory.wf (s.atomAt op a l pa).mem := by
  simp [State.atomAt, h]

@[simp] theorem State.atomFault_wf {s : State} {o : Op} {l : Lane} {cause : Nat} (h : Memory.wf s.mem) :
    Memory.wf (s.atomFault o l cause).mem := by
  unfold State.atomFault
  split <;> simp [h]

@[simp] theorem State.atomRefused_wf {s : State} {o : Op} {l : Lane} {cause : BitVec 8} (h : Memory.wf s.mem) :
    Memory.wf (s.atomRefused o l cause).mem := by
  simp [State.atomRefused, h]

@[simp] theorem State.atomXlate_wf {s : State} {o : Op} {l : Lane} (h : Memory.wf s.mem) : Memory.wf (s.atomXlate o l).mem := by
  unfold State.atomXlate
  (repeat' split) <;> simp [h]

@[simp] theorem State.atomLane_wf {s : State} {o : Op} {a : AtomCmd} {l : Lane} {far : Option LaneAns} (h : Memory.wf s.mem) :
    Memory.wf (s.atomLane o a l far).mem := by
  unfold State.atomLane
  (repeat' split) <;> simp [h]

@[simp] theorem State.atomLanes_wf {s : State} {op : Nat} {a : AtomCmd} {ls : List Lane} {far : Option LaneAns}
    (h : Memory.wf s.mem) : Memory.wf (s.atomLanes op a ls far).mem :=
  foldl_wf h fun s l hs => by
    split
    · exact atomLane_wf hs
    · exact hs

@[simp] theorem beginAtomic_wf {s : State} {o : Op} (h : Memory.wf s.mem) : Memory.wf (beginAtomic s o).mem := by
  unfold beginAtomic
  split
  · simp only [mem_ite, State.captureAtomic_mem, ite_self]
    exact foldl_wf h fun s l hs => State.atomXlate_wf hs
  · exact h

theorem atomExt_wf {c : IC} {s : State} {t : Team} {ls : List (Nat × Nat)} {o : Op} {a : AtomCmd} (h : Memory.wf s.mem) :
    Memory.wf ((atomExt c s t ls o a).memFrom s.mem) := by
  unfold atomExt
  split
  · next hc => rwa [addrCheck_memFrom hc]
  · have ht : Memory.wf (s.raceTick t.tid).mem := by rwa [State.raceTick_mem]
    have := IC.submit_wf (c := c) (g := c.g) (o := o) (extra := 0) (act := beginAtomic) ht fun s o => beginAtomic_wf
    rw [State.raceTick_mem] at this
    exact Act.ite_wf h (Act.ite_wf h (Act.ite_wf h this))

theorem atomOp_wf {i : Instr} {d hi : Dst} {p : CmpDst} {base : ABase} {off : Opnd} {a : AtomCmd} {data cmp : Group → Nat → DWord}
    {s : State} (h : Memory.wf s.mem) : Memory.wf (atomOp i d hi p base off a data cmp s).mem :=
  issue_wf h fun s c hs => by
    split
    · exact hs
    · split
      · simpa using hs
      · dsimp only
        split
        · exact atomExt_wf hs
        · simpa using hs

/-! ### Mailbox -/

theorem mbregOp_wf {i : Instr} {mbx : Opnd} {what : Nat} {entry : IC → DWord} {f : BindF} {s : State} (h : Memory.wf s.mem) :
    Memory.wf (mbregOp i mbx what entry f s).mem :=
  issue_wf_of_mem h fun s c => by
    split_ifs
    · rfl
    · rfl
    · split
      · next hc => exact bindCheck_memFrom hc _
      · simp
    · simp

/-! ### Handles -/

@[simp] theorem State.releaseWait_wf {s : State} {g : Group} {form : HWForm} {p : CmpDst} {pc : DWord} {tag : Tags} {a : HomeAns}
    (h : Memory.wf s.mem) :
    Memory.wf (s.releaseWait g form p pc tag a).mem := by
  simp [State.releaseWait, h]

@[simp] theorem State.serve_wf {s : State} {h : DWord} {a : HomeAns} {g : Group} (hs : Memory.wf s.mem) :
    Memory.wf (s.serve h a g).mem := by
  unfold State.serve
  split <;> simp [hs]

@[simp] theorem State.announce_wf {s : State} {h : DWord} {a : HomeAns} (hs : Memory.wf s.mem) : Memory.wf (s.announce h a).mem :=
  foldl_wf (f := fun s (g : Group) => match s.grp? g.gid with | some g => s.serve h a g | none => s) hs fun s g hs => by
    split
    · exact serve_wf hs
    · exact hs

@[simp] theorem State.settleHandle_wf {s : State} {h : DWord} {st : HSt} {cause : BitVec 8} {words elems : List Word} {loc : Nat}
    (hs : Memory.wf s.mem) : Memory.wf (s.settleHandle h st cause words elems loc).mem := by
  unfold State.settleHandle
  dsimp only
  split
  · exact hs
  · exact announce_wf hs

@[simp] theorem State.breakHandle_wf {s : State} {h : DWord} {cause : Nat} (hs : Memory.wf s.mem) :
    Memory.wf (s.breakHandle h cause).mem := by
  unfold State.breakHandle
  split_ifs
  · exact hs
  · exact settleHandle_wf hs
  · exact hs

@[simp] theorem State.forwardHead_wf {s : State} {index : Nat} (h : Memory.wf s.mem) : Memory.wf (s.forwardHead index).mem := by
  unfold State.forwardHead
  dsimp only
  split
  · exact h
  · split
    · exact h
    · split
      · exact h
      · exact h
      · simpa using breakHandle_wf h
      · split
        · split
          · next ha => simpa [State.acceptInv_mem ha] using h
          · simpa using breakHandle_wf h
        · simpa using h

theorem State.receiveInvh_wf {s t : State} {m : InvMsg} {op : Nat} (h : Memory.wf s.mem) (hr : s.receiveInvh m op = some (.inl t)) :
    Memory.wf t.mem := by
  unfold State.receiveInvh at hr
  dsimp only at hr
  (repeat' split at hr) <;> cases hr
  · exact forwardHead_wf h
  · exact h

@[simp] theorem State.applyEnd_wf {s : State} {h : DWord} {e : InvEnd} (hs : Memory.wf s.mem) : Memory.wf (s.applyEnd h e).mem := by
  cases e <;> simp [State.applyEnd, hs]

/-! ### Counters -/

theorem ctsetOp_wf {i : Instr} {n : BitVec 6} {add : Bool} {v : IC → Word} {s : State} (h : Memory.wf s.mem) :
    Memory.wf (ctsetOp i n add v s).mem :=
  issue_wf_of_mem h fun s c => by simp

@[simp] theorem State.landPacket_wf {s : State} {e : Landing} {d : FarData} (h : Memory.wf s.mem) :
    Memory.wf (s.landPacket e d).1.mem := by
  unfold State.landPacket
  (repeat' split) <;> simp [h]

@[simp] theorem State.landSend_wf {s : State} {src op ctx win roff : Nat} {d : FarData} {ct : Option (BitVec 6)} (h : Memory.wf s.mem) :
    Memory.wf (s.landSend src op ctx win roff d ct).1.mem := by
  simp only [State.landSend]
  (repeat' split) <;> simp [h]

/-! ### Fabric -/

@[simp] theorem State.perform_wf {s : State} {pa : Nat} {a : RAct} (h : Memory.wf s.mem) : Memory.wf (s.perform pa a).1.mem := by
  simp only [State.perform]
  (repeat' split) <;> simp [h]

@[simp] theorem State.performForeign_wf {s : State} {f : Foreign} (h : Memory.wf s.mem) : Memory.wf (s.performForeign f).mem := by
  simp only [State.performForeign]
  (repeat' split) <;> simp [h]

@[simp] theorem State.foreignAccess_wf {s : State} {r : RemoteReq} (h : Memory.wf s.mem) : Memory.wf (s.foreignAccess r).mem := by
  unfold State.foreignAccess
  split
  · rwa [State.lookup_mem]
  · split
    · exact h
    · split
      · exact performForeign_wf h
      · exact foldl_wf h fun s f hs => performForeign_wf hs

theorem remoteOp_wf {i : Instr} {p : CmpDst} {d : Dst} {k : RemKind} {win : BitVec 12} {rank off : Opnd} {val : Option Opnd}
    {s : State} (h : Memory.wf s.mem) : Memory.wf (remoteOp i p d k win rank off val s).mem :=
  issue_wf_of_mem h fun s c => by
    split
    · rfl
    · dsimp only
      split
      · simp
      · split
        · rfl
        · split
          · next hc => exact alignCheck_memFrom hc _
          · simp

@[simp] theorem State.ownPerform_wf {s : State} {f : Foreign} (h : Memory.wf s.mem) : Memory.wf (s.ownPerform f).mem := by
  simp only [State.ownPerform]
  (repeat' split) <;> simp [h]

@[simp] theorem State.ownAccess_wf {s : State} {op lane : Nat} (h : Memory.wf s.mem) : Memory.wf (s.ownAccess op lane).mem := by
  unfold State.ownAccess
  (repeat' split) <;> simp [h]

/-! ### Praline -/

@[simp] theorem State.setHdrF_wf {s : State} {t : PTree} {off n v : Nat} (h : Memory.wf s.mem) :
    Memory.wf (s.setHdrF t off n v).mem := by
  simp [State.setHdrF, h]

@[simp] theorem State.setNode_wf {s : State} {t : PTree} {i : Nat} {x : PNode} (h : Memory.wf s.mem) :
    Memory.wf (s.setNode t i x).mem := Machine.wrBytes_wf s _ _ h

@[simp] theorem State.newNode_wf {s : State} {t : PTree} {i : Nat} {x : PNode} (h : Memory.wf s.mem) :
    Memory.wf (s.newNode t i x).mem := Machine.wrBytes_wf s _ _ h

@[simp] theorem State.unlink_wf {s : State} {t : PTree} {i n : Nat} (h : Memory.wf s.mem) : Memory.wf (s.unlink t i n).mem := by
  unfold State.unlink
  split <;> simp [h]

theorem State.oneDescent_wf {s : State} {t : PTree} {batch : Nat} {r : State × Nat × Nat} (h : Memory.wf s.mem)
    (hd : s.oneDescent t batch = .ok r) : Memory.wf r.1.mem := by
  unfold State.oneDescent at hd
  split at hd
  · cases hd
  · cases hd
  · next x up _ =>
    cases hd
    rw [mem_ite]
    split <;> exact setNode_wf (foldl_wf h fun s y hs => setNode_wf hs)

@[simp] theorem descents_wf {t : PTree} {batch n j : Nat} {s : State} {out : List (Nat × Word × Word)} (h : Memory.wf s.mem) :
    Memory.wf (descents t batch n j s out).s.mem := by
  induction n generalizing j s out with
  | zero => exact h
  | succ n ih =>
    simp only [descents]
    split
    · exact h
    · next hd => exact ih (State.oneDescent_wf h hd)

@[simp] theorem State.prDesc_wf {s : State} {t : PTree} {k : Nat} (h : Memory.wf s.mem) : Memory.wf (s.prDesc t k).s.mem :=
  descents_wf (setHdrF_wf h)

@[simp] theorem expandFrom_wf {t : PTree} {x depth : Nat} {s : State} {i j : Nat} {ps : List Word} (h : Memory.wf s.mem) :
    Memory.wf (expandFrom t x depth s i j ps).mem := by
  induction ps generalizing s i j with
  | nil => exact h
  | cons p ps ih =>
    rw [expandFrom]
    exact ih (State.newNode_wf h)

@[simp] theorem State.prExp_wf {s : State} {t : PTree} {leaf : Nat} {priors : List Word} (h : Memory.wf s.mem) :
    Memory.wf (s.prExp t leaf priors).s.mem := by
  unfold State.prExp
  split
  · exact h
  · exact h
  · dsimp only
    split_ifs
    · exact h
    · exact h
    · exact setNode_wf h
    · split
      · exact h
      · exact h
      · exact setHdrF_wf (setNode_wf (expandFrom_wf (unlink_wf h)))

@[simp] theorem backWalk_wf {t : PTree} {alt : Bool} {n y : Nat} {u : Option FVal} {s : State} (h : Memory.wf s.mem) :
    Memory.wf (backWalk t alt n y u s).1.mem := by
  induction n generalizing y u s with
  | zero => exact h
  | succ n ih =>
    simp only [backWalk]
    split
    · exact h
    · split_ifs
      · exact State.setNode_wf h
      · exact ih (State.setNode_wf h)
      · exact ih (State.setNode_wf h)

@[simp] theorem backups_wf {t : PTree} {alt : Bool} {ls : List (Nat × Word × Bool × Word)} {st : Nat} {s : State}
    (h : Memory.wf s.mem) : Memory.wf (backups t alt ls st s).s.mem := by
  induction ls generalizing st s with
  | nil => exact h
  | cons x ls ih =>
    obtain ⟨i, leaf, dup, v⟩ := x
    simp only [backups]
    split
    · exact h
    · exact ih h
    · next n _ =>
      generalize walkMax = depth
      have hn : ∀ u, Memory.wf (backWalk t alt depth leaf.toNat u (if dup then s else
          s.setNode t leaf.toNat { n with flags := setFlag (setFlag n.flags 1 false) 2 false, pid := 0 })).1.mem :=
        fun u => backWalk_wf (by simp [h])
      split
      · next hw => exact (congrArg (fun r => Memory.wf r.1.mem) hw).symm.trans (hn _)
      · next hw => exact ih ((congrArg (fun r => Memory.wf r.1.mem) hw).symm.trans (hn _))

@[simp] theorem freeAll_wf {t : PTree} {keep : List Nat} {n next : Nat} {s : State} (h : Memory.wf s.mem) :
    Memory.wf (freeAll t keep n next s).mem := by
  induction n generalizing next s with
  | zero => exact State.setHdrF_wf h
  | succ n ih =>
    simp only [freeAll]
    split
    · exact ih h
    · exact ih (State.newNode_wf h)

@[simp] theorem State.prRoot_wf {s : State} {t : PTree} {child : Nat} (h : Memory.wf s.mem) : Memory.wf (s.prRoot t child).s.mem := by
  unfold State.prRoot
  dsimp only
  split
  · exact h
  · split
    · exact h
    · exact h
    · split
      · exact h
      · split
        · exact h
        · exact setHdrF_wf (setHdrF_wf (setNode_wf (freeAll_wf h)))

@[simp] theorem State.fillPool_wf {s : State} {t : PTree} {id c vl qinit : Word} {mode maxch : Nat} (h : Memory.wf s.mem) :
    Memory.wf (s.fillPool t id c vl qinit mode maxch).mem :=
  foldl_wf (newNode_wf (Machine.wrBytes_wf s _ _ h)) fun _ _ hs => newNode_wf hs

@[simp] theorem State.prNew_wf {s : State} {core ctx : Nat} {sup : Bool} {pool cap : Nat} {c vl qinit : Word} {mode maxch : Nat}
    (h : Memory.wf s.mem) :
    Memory.wf (s.prNew core ctx sup pool cap c vl qinit mode maxch).s.mem := by
  simp only [State.prNew]
  (repeat' split) <;> simp [h]

@[simp] theorem State.prPerform_wf {s : State} {o : Op} {c : PrCmd} (h : Memory.wf s.mem) : Memory.wf (s.prPerform o c).s.mem := by
  unfold State.prPerform
  (repeat' split) <;> simp [h]

/-! ### Collective -/

theorem gsetOp_wf {i : Instr} {e : Opnd} {what : Nat} {seq : Option Opnd} {mcid : BitVec 16} {va : IC → Option Nat} {s : State}
    (h : Memory.wf s.mem) : Memory.wf (gsetOp i e what seq mcid va s).mem :=
  issue_wf_of_mem h fun s c => by
    dsimp only
    split_ifs
    · rfl
    · rfl
    · rfl
    · split
      · simp
      · split <;> simp

@[simp] theorem State.finish_wf {s : State} {i : CollInst} {status : Nat} {paths : List Word} {elems : List Word} {fl : BitVec 7}
    (h : Memory.wf s.mem) :
    Memory.wf (s.finish i status paths elems fl).mem := by
  simp [State.finish, h]

@[simp] theorem State.mixDest_wf {s : State} {i : CollInst} (h : Memory.wf s.mem) : Memory.wf (s.mixDest i).mem := by
  unfold State.mixDest
  dsimp only
  cases s.ownDest i (i.members s).length with
  | inr _ => exact h
  | inl pa =>
    cases pa with
    | none => exact h
    | some pa => exact foldl_wf h fun t j ht => by simp [ht]

@[simp] theorem State.endAborted_wf {s : State} {st ab : Word} {i : CollInst} (h : Memory.wf s.mem) :
    Memory.wf (s.endAborted st ab i).mem := by
  unfold State.endAborted
  refine settleHandle_wf ?_
  cases i.ph with
  | data => exact mixDest_wf h
  | queued | signed | verdict => exact h

@[simp] theorem State.applyAbort_wf {s : State} {ctx entry : Nat} {seq : Word} {rank : Nat} {cause : BitVec 8}
    (h : Memory.wf s.mem) : Memory.wf (s.applyAbort ctx entry seq rank cause).mem := by
  unfold State.applyAbort
  dsimp only
  rw [foldl_mem _ (fun s i => by simp)]
  exact foldl_wf h fun s i hs => endAborted_wf hs

@[simp] theorem State.takeToken_wf {s : State} {ctx entry : Nat} {seq : Word} {rank : Nat} {cause : BitVec 8} (h : Memory.wf s.mem) :
    Memory.wf (s.takeToken ctx entry seq rank cause).mem := by
  simp [State.takeToken, h]

@[simp] theorem State.raiseFault_wf {s : State} {i : CollInst} {rank : Nat} {cause : BitVec 8} (h : Memory.wf s.mem) :
    Memory.wf (s.raiseFault i rank cause).mem := by
  simp [State.raiseFault, h]

@[simp] theorem State.localComplete_wf {s : State} {i : CollInst} (h : Memory.wf s.mem) : Memory.wf (s.localComplete i).mem := by
  simp [State.localComplete, h]

@[simp] theorem collAdvance_wf {ctx entry n : Nat} {s : State} (h : Memory.wf s.mem) : Memory.wf (collAdvance ctx entry n s).mem := by
  induction n generalizing s with
  | zero => exact h
  | succ n ih =>
    simp only [collAdvance]
    split
    · exact h
    · split_ifs
      · exact h
      · exact ih (State.localComplete_wf h)
      · exact h
      · simpa using h

@[simp] theorem State.advance_wf {s : State} {ctx entry : Nat} (h : Memory.wf s.mem) : Memory.wf (s.advance ctx entry).mem := by
  simp [State.advance, h]

@[simp] theorem beginColl_wf {s : State} {o : Op} (h : Memory.wf s.mem) : Memory.wf (beginColl s o).mem := by
  simp only [beginColl]
  (repeat' split) <;> simp [h]

/-! ### Fetch -/

@[simp] theorem State.fetchTrap_wf {s : State} {g : Group} {cls sub : Nat} (h : Memory.wf s.mem) :
    Memory.wf (s.fetchTrap g cls sub).mem := by
  simp [State.fetchTrap, h]

@[simp] theorem State.illegal_wf {s : State} {g : Group} {sub : Nat} {bs : List Byte} (h : Memory.wf s.mem) :
    Memory.wf (s.illegal g sub bs).mem := by
  simp [State.illegal, h]

theorem State.takeDue_wf {s t : State} {g : Group} (h : Memory.wf s.mem) (ht : s.takeDue g = some t) : Memory.wf t.mem := by
  unfold State.takeDue at ht
  split at ht
  · cases ht
  · split at ht <;> cases ht
    exact enterTrap_wf h

/-! ### System -/

theorem rftOp_wf {i : Instr} {f : IC → RftForm} {s : State} (h : Memory.wf s.mem) : Memory.wf (rftOp i f s).mem :=
  issue_wf_of_mem h fun s c => by simp

@[simp] theorem beginMtsBase_wf {s : State} {o : Op} (h : Memory.wf s.mem) : Memory.wf (beginMtsBase s o).mem := by
  unfold beginMtsBase
  (repeat' split) <;> simp [h]

@[simp] theorem State.popFault_wf {s : State} {c : Ctx} (h : Memory.wf s.mem) : Memory.wf (s.popFault c).1.mem := by
  simp only [State.popFault]
  (repeat' split) <;> simp [h]

@[simp] theorem beginFltq_wf {s : State} {o : Op} (h : Memory.wf s.mem) : Memory.wf (beginFltq s o).mem := by
  unfold beginFltq
  split <;> simp [h]

@[simp] theorem State.setCtxSt_wf {s : State} {n : Nat} {st : CtxSt} (h : Memory.wf s.mem) : Memory.wf (s.setCtxSt n st).mem := by
  unfold State.setCtxSt
  split <;> simp [h]

@[simp] theorem beginCtxsw_wf {s : State} {o : Op} (h : Memory.wf s.mem) : Memory.wf (beginCtxsw s o).mem := by
  unfold beginCtxsw
  (repeat' split) <;> simp [h]

theorem ctxswOp_wf {i : Instr} {what : Nat} {d : Dst} {a : Opnd} {s : State} (h : Memory.wf s.mem) :
    Memory.wf (ctxswOp i what d a s).mem :=
  issue_wf h fun s c hs => by simp [hs, IC.submit_wf hs fun s o => beginCtxsw_wf]

/-! ### Place -/

@[simp] theorem State.completeGrid_wf {s : State} {g : Grid} (h : Memory.wf s.mem) : Memory.wf (s.completeGrid g).mem := by
  simp [State.completeGrid, h]

@[simp] theorem State.gridEnded_wf {s : State} {ctx gid : Nat} (h : Memory.wf s.mem) : Memory.wf (s.gridEnded ctx gid).mem := by
  simp only [State.gridEnded]
  (repeat' split) <;> simp [h]

@[simp] theorem State.checkTeam_wf {s : State} {tid : Nat} (h : Memory.wf s.mem) : Memory.wf (s.checkTeam tid).mem := by
  unfold State.checkTeam
  (repeat' split) <;> simp [h]

/-! ### Nougat -/

@[simp] theorem State.untaint_wf {s : State} {g : Group} (h : Memory.wf s.mem) : Memory.wf (s.untaint g).mem := by
  unfold State.untaint
  (repeat' split) <;> simp [h]

@[simp] theorem State.untaintTeam_wf {s : State} {tid : Nat} (h : Memory.wf s.mem) : Memory.wf (s.untaintTeam tid).mem :=
  foldl_wf (f := fun s (g : Group) => match s.grp? g.gid with | some g => s.untaint g | none => s) h fun s g hs => by
    split
    · exact untaint_wf hs
    · exact hs

@[simp] theorem performCmd_wf {s : State} {o : Op} (h : Memory.wf s.mem) : Memory.wf (performCmd s o).mem := by
  unfold performCmd
  split <;> simp [h]

@[simp] theorem releaseHeld_wf {n tid : Nat} {s : State} (h : Memory.wf s.mem) : Memory.wf (releaseHeld n tid s).mem := by
  induction n generalizing s with
  | zero => exact h
  | succ n ih =>
    simp only [releaseHeld]
    split
    · exact h
    · split
      · exact h
      · split
        · exact ih h
        · split
          · exact h
          · exact ih (performCmd_wf h)

@[simp] theorem State.settleTeam_wf {s : State} {tid : Nat} (h : Memory.wf s.mem) : Memory.wf (s.settleTeam tid).mem :=
  checkTeam_wf (releaseHeld_wf (untaintTeam_wf h))

@[simp] theorem State.affirmTeam_wf {s : State} {tid : Nat} {a : Word} (h : Memory.wf s.mem) : Memory.wf (s.affirmTeam tid a).mem := by
  unfold State.affirmTeam
  (repeat' split) <;> simp [h]

@[simp] theorem State.affirmAll_wf {s : State} {a : Word} (h : Memory.wf s.mem) : Memory.wf (s.affirmAll a).mem := by
  unfold State.affirmAll
  rw [State.applied_mem]
  exact foldl_wf h fun s tid hs => affirmTeam_wf hs

@[simp] theorem State.discardHeld_wf {s : State} {h : Held} (hs : Memory.wf s.mem) : Memory.wf (s.discardHeld h).mem := by
  unfold State.discardHeld
  split
  · exact hs
  · rw [State.opDone_mem]
    split
    · exact breakHandle_wf hs
    · exact hs

@[simp] theorem State.dissolve_wf {s : State} {t : Team} {a : Word} (h : Memory.wf s.mem) : Memory.wf (s.dissolve t a).mem := by
  unfold State.dissolve
  rw [State.removeTeam_mem, State.freeInv_mem]
  refine foldl_wf ?_ fun s x hs => discardHeld_wf hs
  rwa [foldl_mem _ fun s x => State.returnMsg_mem s _]

@[simp] theorem State.denyTeam_wf {s : State} {tid : Nat} {a actual : Word} (h : Memory.wf s.mem) :
    Memory.wf (s.denyTeam tid a actual).mem := by
  unfold State.denyTeam
  split
  · exact h
  · split
    · exact h
    · split
      · exact dissolve_wf h
      · dsimp only
        refine settleTeam_wf ?_
        rw [State.clrSlot_mem, State.returnTaken_mem]
        refine foldl_wf ?_ fun s x hs => discardHeld_wf hs
        rw [updT_mem, State.beginFlips_mem, updT_mem]
        exact foldl_wf h fun s x hs => hs

@[simp] theorem State.denyAll_wf {s : State} {a : Word} (h : Memory.wf s.mem) : Memory.wf (s.denyAll a).mem := by
  unfold State.denyAll
  rw [State.applied_mem]
  refine foldl_wf ?_ fun s tid hs => denyTeam_wf hs
  simpa using h

theorem resolveOp_wf {i : Instr} {affirm : Bool} {p : CmpDst} {a : Opnd} {s : State} (h : Memory.wf s.mem) :
    Memory.wf (resolveOp i affirm p a s).mem :=
  issue_wf_of_mem h fun s c => by
    split
    · rfl
    · simp

/-! ### Distributor -/

theorem State.stagedAct_wf {s t : State} {o : Op} {l : Lane} {hm : Home} {act : RAct} {far : Option LaneAns} (h : Memory.wf s.mem)
    (ht : s.stagedAct o l hm act far = some t) : Memory.wf t.mem := by
  unfold State.stagedAct at ht
  split at ht <;> cases ht
  · simpa using h
  · split
    · exact perform_wf h
    · exact h

theorem State.stagedWords_wf {s : State} {x : Staged} {l : Lane} {hm : Home} {words : BitVec 64} {far : Option LaneAns}
    {r : State × List Lane} (h : Memory.wf s.mem) (hr : s.stagedWords x l hm words far = some r) : Memory.wf r.1.mem := by
  unfold State.stagedWords at hr
  obtain ⟨t, ht, rfl⟩ := Option.map_eq_some_iff.1 hr
  have hw : Memory.wf t.mem := foldl_bind_wf h (fun s r t hs ht => stagedAct_wf hs ht) ht
  split_ifs
  · exact hw
  · split
    · rwa [State.replaced_mem]
    · exact hw

theorem State.stagedElem_wf {s : State} {x : Staged} {l : Lane} {hm : Home} {op : RedOp} {ty : CredTy} {far : Option LaneAns}
    {r : State × List Lane} (h : Memory.wf s.mem) (hr : s.stagedElem x l hm op ty far = some r) : Memory.wf r.1.mem := by
  unfold State.stagedElem at hr
  obtain ⟨t, ht, rfl⟩ := Option.map_eq_some_iff.1 hr
  exact stagedAct_wf (by simpa using h) ht

theorem State.stagedPart_wf {s : State} {x : Staged} {l : Lane} {words : BitVec 64} {far : Option LaneAns}
    {r : State × List Lane} (h : Memory.wf s.mem) (hr : s.stagedPart x l words far = some r) : Memory.wf r.1.mem := by
  unfold State.stagedPart at hr
  dsimp only at hr
  split at hr
  · cases hr
    exact h
  · split at hr
    · split at hr
      · exact stagedElem_wf h hr
      · exact stagedWords_wf h hr
    · obtain ⟨t, ht, rfl⟩ := Option.map_eq_some_iff.1 hr
      exact stagedAct_wf h ht
    · obtain ⟨t, ht, rfl⟩ := Option.map_eq_some_iff.1 hr
      exact stagedAct_wf h ht
    · obtain ⟨t, ht, rfl⟩ := Option.map_eq_some_iff.1 hr
      exact stagedAct_wf h ht
    · cases hr
      exact h

theorem State.stagedStep_wf {s : State} {x : Staged} {part : Nat} {words : BitVec 64} {far : Option LaneAns}
    {r : State × Option Staged} (h : Memory.wf s.mem) (hr : s.stagedStep x part words far = some r) : Memory.wf r.1.mem := by
  unfold State.stagedStep at hr
  dsimp only at hr
  split at hr
  · split at hr <;> cases hr
    exact h
  · obtain ⟨q, hq, rfl⟩ := Option.map_eq_some_iff.1 hr
    refine foldl_bind_wf (m := fun q : State × List Lane => q.1) (b := (s, [])) h (fun b k q hb hq => ?_) hq
    obtain ⟨p, hp, rfl⟩ := Option.map_eq_some_iff.1 hq
    have hm := stagedPart_wf hb hp
    exact hm

@[simp] theorem State.writeImage_wf {s : State} {c : Ctx} (h : Memory.wf s.mem) : Memory.wf (s.writeImage c).mem :=
  foldl_wf h fun s p hs => by
    split
    · dsimp only
      split
      · exact Machine.wrBytes_wf s _ _ hs
      · exact hs
    · exact hs

theorem State.placeAll_wf {s t : State} {ctx : Nat} (h : Memory.wf s.mem) (ht : s.placeAll ctx = some t) : Memory.wf t.mem := by
  unfold State.placeAll at ht
  refine foldl_bind_wf (m := id) (b := _) ?_ (fun s u t hs ht => ?_) ht
  · exact setCtxSt_wf h
  · simpa [State.placeUnit_mem ht] using hs

/-! ### Firmware -/

@[simp] theorem State.abortColls_wf {s : State} {ctx : Nat} (h : Memory.wf s.mem) : Memory.wf (s.abortColls ctx).mem :=
  foldl_wf (f := fun s e => match s.headInst ctx e with | some i => s.raiseFault i s.rank destroyCause | none => s) h fun s e hs => by
    split
    · exact raiseFault_wf hs
    · exact hs

/-! ### The arms of `exec` -/

/-- The outcome is a next state, and it has memory in canonical form when `s` has. -/
def Keeps (s : State) (r : Res) : Prop := ∃ t, r = .next t ∧ (Memory.wf s.mem → Memory.wf t.mem)

theorem keeps_next {s t : State} (h : Memory.wf s.mem → Memory.wf t.mem) : Keeps s (.next t) := ⟨t, rfl, h⟩

theorem State.breakHandle_inv {s : State} {h : DWord} {cause : Nat} (hs : Inv s) : Inv (s.breakHandle h cause) := breakHandle_wf hs

theorem State.denyAll_inv {s : State} {a : Word} (hs : Inv s) : Inv (s.denyAll a) := denyAll_wf hs

theorem State.resolveEntry_inv {s : State} {i : Nat} {b : Bool} (hs : Inv s) : Inv (s.resolveEntry i b) := by
  rwa [Inv, resolveEntry_mem]

/-! The arms that need a split of their own, or the memory of a state that a check or a partial operation returns. -/

theorem execKStep_keeps (tid quad : Nat) (s : State) : Keeps s (execKStep tid quad s) := by
  unfold execKStep
  refine keeps_next fun h => ?_
  split
  · exact h
  · dsimp only
    split
    · exact h
    · split
      · exact h
      · split
        · exact h
        · split
          · simpa using h
          · split
            · simpa using h
            · rw [mem_ite, State.completeSet_mem, ite_self]
              refine foldl_fst_wf (b := (s, [])) h fun b m hb => ?_
              simpa using hb

theorem execQsplit_keeps (hd : Hdr) (d : Option VReg) (src : FTy) (a : VReg) (thr : Opnd) (v : VReg) (nb1 : BitVec 4) (s : State) :
    Keeps s (execQsplit hd d src a thr v nb1 s) := by
  unfold execQsplit
  refine keeps_next fun h => ?_
  split
  · exact h
  · dsimp only
    split
    · split
      · exact State.settle_wf h h
      · split
        · exact State.settle_wf h h
        · exact State.settle_wf h h
    · exact issue_wf_of_mem h fun s c => by split <;> rfl

theorem execCreg_keeps (hd : Hdr) (d : Dst) (ext : SReg) (shape : RegShape) (s : State) : Keeps s (execCreg hd d ext shape s) :=
  keeps_next fun h => issue_wf_of_mem h fun s c => by
    dsimp only
    split
    · simp
    · split
      · next hc => exact shapeCheck_memFrom hc _
      · simp

theorem execRecordReady_keeps (op : Nat) (s : State) : Keeps s (execRecordReady op s) := by
  refine keeps_next fun h => ?_
  split
  · exact h
  · split
    · dsimp only
      split
      · exact h
      · split
        · refine foldl_wf h fun s x hs => ?_
          split
          · simp [hs]
          · exact hs
        · refine foldl_wf h fun s x hs => ?_
          split
          · simp [hs]
          · exact hs
    · exact h

theorem execGath_keeps (hd : Hdr) (d : Dst) (ty : LTy) (base : GBase) (off : Opnd) (s : State) :
    Keeps s (execGath hd d ty base off s) :=
  keeps_next fun h => issue_wf_of_mem h fun s c => by
    split
    · rfl
    · split
      · simp
      · split
        · next hc => exact State.gatherLanes_memFrom hc _
        · rfl

theorem execScat_keeps (hd : Hdr) (data : Opnd) (ty : LTy) (base : GBase) (off : Opnd) (s : State) :
    Keeps s (execScat hd data ty base off s) :=
  keeps_next fun h => issue_wf_of_mem h fun s c => by
    split
    · rfl
    · split
      · simp
      · split
        · next hc => exact State.gatherLanes_memFrom hc _
        · simp

theorem execBarw_keeps (hd : Hdr) (d : CmpDst) (b : Bar) (s : State) : Keeps s (execBarw hd d b s) :=
  keeps_next fun h => issue_wf_of_mem h fun s c => by
    split
    · rfl
    · dsimp only
      split_ifs
      · rfl
      · rfl
      · rfl
      · exact (State.storeBar_mem _ _ _ _).trans (State.raceTick_mem _ _)
      · exact (State.storeBar_mem _ _ _ _).trans (State.raceTick_mem _ _)

theorem execAtomicRetry_keeps (op lane : Nat) (s : State) : Keeps s (execAtomicRetry op lane s) := by
  refine keeps_next fun h => ?_
  split
  · exact h
  · split
    · split
      · exact h
      · exact foldl_wf h fun s x hs => State.atomXlate_wf hs
    · exact h

theorem execFenceCode_keeps (hd : Hdr) (s : State) : Keeps s (execFenceCode hd s) :=
  keeps_next fun h => issue_wf_of_mem h fun s c => by
    dsimp only
    split_ifs
    · rfl
    · rfl
    · exact State.raceTick_mem _ _

theorem execMessageArrival_keeps (m : Msg) (op : Nat) (s : State) : Keeps s (execMessageArrival m op s) := by
  refine keeps_next fun h => ?_
  split
  · split
    · exact h
    · split
      · next hd => simpa [State.deliver_mem hd] using h
      · exact h
      · exact h
  · split
    · exact h
    · split
      · split
        · exact h
        · dsimp only
          split
          · next hd => simpa [State.deliver_mem hd] using h
          · simpa using h
          · exact h
      · exact h

theorem execMrecv_keeps (hd : Hdr) (wait : Bool) (p : CmpDst) (d : SReg) (mbx : Opnd) (s : State) :
    Keeps s (execMrecv hd wait p d mbx s) :=
  keeps_next fun h => issue_wf_of_mem h fun s c => by
    refine Act.ite_memFrom rfl (Act.ite_memFrom rfl (Act.ite_memFrom rfl ?_))
    dsimp only
    split
    · rfl
    · next hm => exact (State.receive_mem _ _ _ _ _ _ _ _).trans (takeMsg_mem (.inr ⟨_, _, hm⟩))
    · next t hm =>
      have ht : t.mem = s.mem := takeMsg_mem (.inl hm)
      exact Act.ite_memFrom ht ht

theorem execMrecvWake_keeps (gid : Nat) (s : State) : Keeps s (execMrecvWake gid s) := by
  refine keeps_next fun h => ?_
  split
  · exact h
  · split
    · dsimp only
      split
      · exact h
      · next hm => simpa [takeMsg_mem (.inr ⟨_, _, hm⟩)] using h
      · next hm => simpa [takeMsg_mem (.inl hm)] using h
    · exact h

theorem execInvocationArrival_keeps (m : InvMsg) (op : Nat) (s : State) : Keeps s (execInvocationArrival m op s) := by
  unfold execInvocationArrival
  refine keeps_next fun h => ?_
  split
  · rwa [mem_ite, State.answer_mem, ite_self]
  · split
    · exact h
    · split
      · split
        · exact h
        · split
          · next ha => simpa [State.acceptInv_mem ha] using h
          · exact h
      · exact h

theorem execInvoke_keeps (hd : Hdr) (d : Option SReg) (w : SReg) (rank : Opnd) (mbx : BitVec 12) (n1 : BitVec 4) (p : CmpDst)
    (core : Option (BitVec 8)) (s : State) : Keeps s (execInvoke hd d w rank mbx n1 p core s) :=
  keeps_next fun h => issue_wf_of_mem h fun s c => by
    split
    · rfl
    · dsimp only
      split_ifs
      · simp
      · rfl
      · refine invokeTail_memFrom fun s o => ?_
        split <;> simp

theorem execInvh_keeps (hd : Hdr) (d : Option SReg) (w up : SReg) (mbx : BitVec 12) (n1 : BitVec 4) (p : CmpDst) (s : State) :
    Keeps s (execInvh hd d w up mbx n1 p s) :=
  keeps_next fun h => issue_wf h fun s c hs => by
    split
    · exact hs
    · dsimp only
      split_ifs
      · simpa using hs
      · exact hs
      · refine invokeTail_wf hs fun s o hs => ?_
        split
        · simp [hs]
        · exact hs

theorem execInvhArrival_keeps (m : InvMsg) (op : Nat) (s : State) : Keeps s (execInvhArrival m op s) := by
  refine keeps_next fun h => ?_
  split
  · split
    · exact h
    · split
      · exact h
      · next t hr => exact State.receiveInvh_wf (t := t) h hr
      · exact State.breakHandle_wf h
  · split
    · exact h
    · split
      · split
        · exact h
        · split
          · exact h
          · next t hr => exact State.receiveInvh_wf (t := t) h hr
          · exact h
      · exact h

theorem execExecutingRankAbort_keeps (rank : Nat) (s : State) : Keeps s (execExecutingRankAbort rank s) := by
  unfold execExecutingRankAbort
  refine keeps_next fun h => ?_
  dsimp only
  split
  · exact h
  · exact foldl_inv h fun s x hs => State.breakHandle_inv hs

theorem execHwaitPark_keeps (hd : Hdr) (p : CmpDst) (hnd m : SReg) (n : BitVec 5) (s : State) :
    Keeps s (execHwaitPark hd p hnd m n s) :=
  keeps_next fun h => issue_wf_of_mem h fun s c => by
    split
    · rfl
    · dsimp only
      split_ifs
      · rfl
      · rfl
      · rfl
      · rfl
      · exact hwaitAct_memFrom _ _ _ _ _
      · rfl
      · rfl
      · rfl

theorem execHget_keeps (hd : Hdr) (stat : Bool) (p : CmpDst) (d hnd : SReg) (n : Opnd) (s : State) :
    Keeps s (execHget hd stat p d hnd n s) :=
  keeps_next fun h => issue_wf_of_mem h fun s c => by
    dsimp only
    split_ifs <;> rfl

theorem execQpush_keeps (hd : Hdr) (p : CmpDst) (m : SReg) (q : Opnd) (s : State) : Keeps s (execQpush hd p m q s) :=
  keeps_next fun h => issue_wf_of_mem h fun s c => by
    split
    · rfl
    · split
      · next hc => exact queueCheck_memFrom hc _
      · simp

theorem execQpop_keeps (hd : Hdr) (p : CmpDst) (d : SReg) (q : Opnd) (s : State) : Keeps s (execQpop hd p d q s) :=
  keeps_next fun h => issue_wf_of_mem h fun s c => by
    split
    · rfl
    · split
      · next hc => exact queueCheck_memFrom hc _
      · dsimp only
        split <;> rfl

theorem execQwait_keeps (hd : Hdr) (q : Opnd) (s : State) : Keeps s (execQwait hd q s) :=
  keeps_next fun h => issue_wf_of_mem h fun s c => by
    split
    · rfl
    · split
      · next hc => exact queueCheck_memFrom hc _
      · simp

theorem execTsendArrival_keeps (ctx win roff : Nat) (data : FarData) (ct : Option (BitVec 6)) (src op : Nat) (s : State) :
    Keeps s (execTsendArrival ctx win roff data ct src op s) := by
  refine keeps_next fun h => ?_
  have hl : ∀ src op ctx win roff d ct, Memory.wf (s.landSend src op ctx win roff d ct).1.mem := fun _ _ _ _ _ _ _ =>
    State.landSend_wf h
  split
  · split
    · exact h
    · have hr := hl src op ctx win roff data ct
      split <;> next hs => exact (congrArg (fun r => Memory.wf r.1.mem) hs).symm.trans hr
  · split
    · exact h
    · split
      · split
        · exact h
        · dsimp only
          split
          · exact hl _ _ _ _ _ _ _
          · exact hl _ _ _ _ _ _ _
      · exact h

theorem execPrqry_keeps (hd : Hdr) (d : Dst) (f : PQForm) (s : State) : Keeps s (execPrqry hd d f s) :=
  keeps_next fun h => issue_wf_of_mem h fun s c => by
    dsimp only
    split
    · simp
    · rfl

theorem execColl_keeps (hd : Hdr) (d : SReg) (f : CollF) (src dst count : Opnd) (s : State) :
    Keeps s (execColl hd d f src dst count s) :=
  keeps_next fun h => issue_wf h fun s c hs => by
    dsimp only
    split
    · exact hs
    · split
      · exact hs
      · split
        · next hc => rwa [collCheck_memFrom hc]
        · split
          · exact hs
          · next hm =>
            have hk := State.mintHandle_mem hm
            rw [← hk] at hs ⊢
            exact IC.submit_wf hs fun s o => beginColl_wf

theorem execCollComplete_keeps (ctx entry : Nat) (seq : Word) (far : List (Nat × List Byte)) (packets : List Nat) (s : State) :
    Keeps s (execCollComplete ctx entry seq far packets s) := by
  refine keeps_next fun h => ?_
  split
  · exact h
  · dsimp only
    split
    · exact h
    · split
      · exact h
      · split
        · split
          · exact h
          · refine State.advance_wf (State.finish_wf ?_)
            split
            · exact State.homeWrite_wf h
            · exact h
        · exact h

theorem execScall_keeps (hd : Hdr) (d : VReg) (code : BitVec 8) (a : Opnd) (s : State) : Keeps s (execScall hd d code a s) :=
  keeps_next fun h => issue_wf h fun s c hs => by
    split
    · exact hs
    · exact State.syncTrap_wf hs

theorem execMts_keeps (hd : Hdr) (f : MtsForm) (s : State) : Keeps s (execMts hd f s) :=
  keeps_next fun h => issue_wf h fun s c hs => by
    split
    · exact hs
    · split
      · simpa using hs
      · exact hs
      · exact hs
      · exact Act.ite_wf hs (IC.submit_wf hs fun s o => beginMtsBase_wf)
      · exact Act.ite_wf hs (IC.submit_wf hs fun s o => beginMtsBase_wf)

theorem execFltq_keeps (hd : Hdr) (d : SReg) (s : State) : Keeps s (execFltq hd d s) :=
  keeps_next fun h => issue_wf h fun _ _ hs => Act.ite_wf hs (IC.submit_wf hs fun _ _ => beginFltq_wf)

theorem execAffirmation_keeps (aid : Word) (s : State) : Keeps s (execAffirmation aid s) := by
  refine keeps_next fun h => ?_
  dsimp only
  refine State.ite_wf h (foldl_inv (State.affirmAll_wf h) fun s i hs => State.ite_wf ?_ hs)
  exact State.affirmAll_wf (by rwa [State.resolveEntry_mem])

theorem execDenial_keeps (aid : Word) (s : State) : Keeps s (execDenial aid s) := by
  unfold execDenial
  refine keeps_next fun h => ?_
  dsimp only
  exact State.ite_wf h (State.denyAll_wf (foldl_inv h fun s i hs => State.denyAll_inv (State.resolveEntry_inv hs)))

theorem execGuess_keeps (hd : Hdr) (d : SReg) (val : Opnd) (hnd i : SReg) (w : BitVec 4) (s : State) :
    Keeps s (execGuess hd d val hnd i w s) :=
  keeps_next fun h => issue_wf_of_mem h fun s c => by
    split
    · rfl
    · dsimp only
      refine Act.ite_memFrom rfl (Act.ite_memFrom rfl (Act.ite_memFrom rfl ?_))
      have hs : (if s.isFar (c.g.pairS hnd.toNat) then s.ask c (c.g.pairS hnd.toNat) (.hwait (c.g.pairS hnd.toNat))
          else (s, 0)).1.mem = s.mem := by split <;> rfl
      split
      · simp only [Act.memFrom_ite, IC.goG_memFrom, Group.mint_mem, draw_mem, hs, ite_self]
      · exact hs

theorem execGuessN_keeps (hd : Hdr) (d : SReg) (val : Opnd) (i : SReg) (off : Word) (s : State) :
    Keeps s (execGuessN hd d val i off s) :=
  keeps_next fun h => issue_wf_of_mem h fun s c => by
    split
    · rfl
    · dsimp only
      split_ifs
      · rfl
      · rfl
      · rfl
      · split <;> rfl

theorem execTqry_keeps (hd : Hdr) (d : Dst) (sel : TQSel) (s : State) : Keeps s (execTqry hd d sel s) :=
  keeps_next fun h => issue_wf_of_mem h fun s c => by
    split
    · rfl
    · split
      · rfl
      · split
        · rfl
        · split
          · next hc => exact tqryVal_memFrom hc _
          · rfl

theorem execDistributorPlace_keeps (ctx : Nat) (s : State) : Keeps s (execDistributorPlace ctx s) := by
  refine keeps_next fun h => ?_
  split
  · exact h
  · split
    · exact h
    · split
      · next hp => simpa [State.placeNext_mem hp] using h
      · exact h

theorem execDetTeamRelease_keeps (grid : Nat) (r : ReleaseStep) (s : State) : Keeps s (execDetTeamRelease grid r s) := by
  unfold execDetTeamRelease
  refine keeps_next fun h => ?_
  split
  · exact h
  · split
    · exact h
    · split
      · exact State.gridEnded_wf h
      · split
        · exact h
        · next hr => exact State.stagedStep_wf h hr

theorem execRestore_keeps (ctx : Nat) (s : State) : Keeps s (execRestore ctx s) := by
  unfold execRestore
  refine keeps_next fun h => ?_
  split
  · exact h
  · split
    · exact h
    · split
      · simp [h]
      · split
        · next t hp => exact State.placeAll_wf (t := t) h hp
        · exact h
      · exact h

theorem execPowerOnReset_keeps (tries : List BootTry) (rank : BitVec 10) (s : State) : Keeps s (execPowerOnReset tries rank s) := by
  unfold execPowerOnReset
  refine keeps_next fun _ => ?_
  dsimp only
  split <;> exact reset_mem_wf

theorem execPowerLoss_keeps (s : State) : Keeps s (execPowerLoss s) := keeps_next fun _ => reset_mem_wf

theorem execContextCreation_keeps (ctx saveVA savePA : Nat) (desc : List Byte) (s : State) :
    Keeps s (execContextCreation ctx saveVA savePA desc s) := by
  refine keeps_next fun h => ?_
  split
  · exact h
  · exact State.wrDesc_wf (State.wrDesc_wf (State.wrBytes_wf h))

/-! The arms that an expired response limit runs in place of the answer that did not come. -/

theorem execSectorRefused_keeps (op sector : Nat) (far : Option LaneAns) (s : State) : Keeps s (execSectorRefused op sector far s) := by
  unfold execSectorRefused
  refine keeps_next fun h => ?_
  dsimp only
  (repeat' split) <;> simp [h]

theorem execGatherLanePerformed_keeps (op lane : Nat) (far : Option LaneAns) (s : State) :
    Keeps s (execGatherLanePerformed op lane far s) := by
  unfold execGatherLanePerformed
  refine keeps_next fun h => ?_
  (repeat' split) <;> simp [h]

theorem execAtomicPerformed_keeps (op lane : Nat) (far : Option LaneAns) (s : State) : Keeps s (execAtomicPerformed op lane far s) := by
  unfold execAtomicPerformed
  refine keeps_next fun h => ?_
  (repeat' split) <;> simp [h]

theorem execMsendComplete_keeps (op : Nat) (far : Option LaneAns) (s : State) : Keeps s (execMsendComplete op far s) := by
  unfold execMsendComplete
  refine keeps_next fun h => ?_
  (repeat' split) <;> simp [h]

theorem execInvocationCompletion_keeps (op : Nat) (far : Option LaneAns) (s : State) : Keeps s (execInvocationCompletion op far s) := by
  unfold execInvocationCompletion
  refine keeps_next fun h => ?_
  (repeat' split) <;> simp [h]

theorem execTsendEnd_keeps (op : Nat) (far : Option LaneAns) (s : State) : Keeps s (execTsendEnd op far s) := by
  unfold execTsendEnd
  refine keeps_next fun h => ?_
  (repeat' split) <;> simp [h]

theorem execHomeAnswer_keeps (op : Nat) (far : Option HomeAns) (s : State) : Keeps s (execHomeAnswer op far s) := by
  unfold execHomeAnswer
  refine keeps_next fun h => ?_
  (repeat' split) <;> simp [h]

theorem execResponseLimitExpiry_keeps (op lane : Nat) (s : State) : Keeps s (execResponseLimitExpiry op lane s) := by
  unfold execResponseLimitExpiry
  split
  · exact keeps_next id
  · dsimp only
    split
    · exact keeps_next fun h => by split <;> simp [h]
    · exact keeps_next fun h => by split <;> simp [h]
    · exact execSectorRefused_keeps _ _ _ _
    · exact execGatherLanePerformed_keeps _ _ _ _
    · exact execGatherLanePerformed_keeps _ _ _ _
    · exact execAtomicPerformed_keeps _ _ _ _
    · exact execMsendComplete_keeps _ _ _
    · exact execInvocationCompletion_keeps _ _ _
    · exact execInvocationCompletion_keeps _ _ _
    · exact execTsendEnd_keeps _ _ _
    · exact execHomeAnswer_keeps _ _ _
    · exact execHomeAnswer_keeps _ _ _
    · exact keeps_next id

/-- Every arm of `exec` answers `.next`. The groups below are: the families that share an operation; the forms whose act, or whose
event, only goes through updates that leave memory alone or keep its form; and the arms with a lemma of their own above. -/
theorem exec_keeps (i : Instr) (s : State) : Keeps s (exec i s) := by
  cases i
  case iadd | iaddImm | isub | isubImm | imul | imulImm | imulh | imulhImm | imad | imin | iminImm | imax | imaxImm | iabs |
      ineg | and | andImm | or | orImm | xor | xorImm | not | shl | shr | sar | rotl | popc | clz | bfx | bfi | mov | movi |
      ffma | fclass | hfma2 | cvt | pack | unpack => exact keeps_next aluOp_wf
  case idiv | idivImm | irem | iremImm => exact keeps_next divOp_wf
  case icmp | icmpImm => exact keeps_next icmpOp_wf
  case ldx | stx | ldw | stw => exact keeps_next localOp_wf
  case fadd | faddImm | fsub | fsubImm | fmul | fmulImm | fmin | fminImm | fmax | fmaxImm => exact keeps_next f2Op_wf
  case fcmp | fcmpImm => exact keeps_next fcmpOp_wf
  case frcp | frsq | fsqrt | fexp2 | flog2 | ftanh => exact keeps_next funOp_wf
  case hadd2 | hadd2Imm | hmul2 | hmul2Imm | hmin2 | hmin2Imm | hmax2 | hmax2Imm => exact keeps_next h2Op_wf
  case hcmp2 | hcmp2Imm => exact keeps_next hcmpOp_wf
  case mloop | mstep => exact keeps_next mIssueOp_wf
  case quant | dequant => exact keeps_next colOp_wf
  case tgive | ttake => exact keeps_next flipOp_wf
  case copy | cred => exact keeps_next copyOp_wf
  case creplay | creplayDrop => exact keeps_next creplayOp_wf
  case atom | ared | acas => exact keeps_next atomOp_wf
  case mbregBind | mbregOpen | mbregClose => exact keeps_next mbregOp_wf
  case ctset | ctsetImm => exact keeps_next ctsetOp_wf
  case rput | rget | rred => exact keeps_next remoteOp_wf
  case gsetFull | gsetSeq | gsetClear => exact keeps_next gsetOp_wf
  case rft | rftNext | rftTo | rftRep => exact keeps_next rftOp_wf
  case ctxswSave | ctxswRest | ctxswQry => exact keeps_next ctxswOp_wf
  case affirm | deny => exact keeps_next resolveOp_wf
  case hostQappend | hostLaunch | hostNotify | hostMsg =>
    exact keeps_next fun h => by rwa [hostOp_mem]
  case sel | lane | gred | pcnt | fsum | mdup | mqry | nop | getfmt =>
    exact keeps_next fun h => issue_wf_of_mem h fun s c => rfl
  case add64 | lea64 | vote | waitp | mzero | cunreg | binit | binitImm | fence | raceqHead | raceqBase | hwait | hdrop | notify |
      ctrd | ctwait | tsend | prnew | prdesc | prexp | prback | prroot | prbest | prfree | gqry | brx | call | callx | ret |
      mark | exit | yield | sleep | sleepImm | setfmt | setfmtImm | brk | rdclk | rdtim | settim | settimImm | quiesOld |
      quiesCur | mreset | twait =>
    exact keeps_next fun h => issue_wf_of_mem h fun s c => by simp
  case ballot | barr | bwait | binv | bqry | msend | mcst | join | mfs =>
    exact keeps_next fun h => issue_wf_of_mem h fun s c => by split <;> simp
  case vinv =>
    exact keeps_next fun h => issue_wf_of_mem h fun s c => by (repeat' split) <;> simp
  case launch | bra =>
    exact keeps_next fun h => issue_wf_of_mem h fun s c => by dsimp only; (repeat' split) <;> simp
  case uetTrimRetransmit | portDown | portUp | sleepDeadline | aged =>
    exact keeps_next fun h => h
  case remoteAccessArrival | gfpRetransmit | handshakeSignature | abortToken | timerExpiry | homeEntryFree | malformedCommand |
      notifyApertureStore | wakeDelivery | windowEntryWrite | resplimWrite | cecountClear | deviceRegisterWrite | safeState |
      controlPairReload | contextDestruction | queryDeviceIdentifiers | getFirmwareParameters | bankSwitch | getStatus |
      cancelUpdate | attestationRequest | clockGate | powerGate | throttleStep =>
    exact keeps_next fun h => by simp [h]
  case arrayReset | gatherComplete | groupSlotFree | sliceExpiry =>
    exact keeps_next fun h => by split <;> simp [h]
  case tgiveFlip | ttakeFlip | sectorLand | sectorSuspend | cunregComplete | atomicComplete | localAccessPerformed |
      continuationResume | remoteOpComplete | mcstComplete | gfpPacketReceive | pralineOperation | pralineComplete | fatalFault |
      walkComplete | issueCycle | preempt | ungate =>
    exact keeps_next fun h => by (repeat' split) <;> simp [h]
  case setStart | credUpdate | forwardInvocation | invocationResult | homeDrop | verdict | handleAssumptionCheck |
      homeResolveRequest | resolveAnswer | requestUpdate | passComponentTable | updateComponent | firmwareData | imageVerify |
      activateFirmware | cancelUpdateComponent =>
    exact keeps_next fun h => by dsimp only; (repeat' split) <;> simp [h]
  case kStep => exact execKStep_keeps ..
  case qsplit => exact execQsplit_keeps ..
  case sectorRefused => exact execSectorRefused_keeps ..
  case creg => exact execCreg_keeps ..
  case recordReady => exact execRecordReady_keeps ..
  case gath => exact execGath_keeps ..
  case scat => exact execScat_keeps ..
  case gatherLanePerformed => exact execGatherLanePerformed_keeps ..
  case barw => exact execBarw_keeps ..
  case atomicPerformed => exact execAtomicPerformed_keeps ..
  case atomicRetry => exact execAtomicRetry_keeps ..
  case fenceCode => exact execFenceCode_keeps ..
  case messageArrival => exact execMessageArrival_keeps ..
  case msendComplete => exact execMsendComplete_keeps ..
  case mrecv => exact execMrecv_keeps ..
  case mrecvWake => exact execMrecvWake_keeps ..
  case invocationArrival => exact execInvocationArrival_keeps ..
  case invocationCompletion => exact execInvocationCompletion_keeps ..
  case invoke => exact execInvoke_keeps ..
  case invh => exact execInvh_keeps ..
  case invhArrival => exact execInvhArrival_keeps ..
  case executingRankAbort => exact execExecutingRankAbort_keeps ..
  case hwaitPark => exact execHwaitPark_keeps ..
  case hget => exact execHget_keeps ..
  case qpush => exact execQpush_keeps ..
  case qpop => exact execQpop_keeps ..
  case qwait => exact execQwait_keeps ..
  case tsendArrival => exact execTsendArrival_keeps ..
  case tsendEnd => exact execTsendEnd_keeps ..
  case prqry => exact execPrqry_keeps ..
  case coll => exact execColl_keeps ..
  case collComplete =>
    rw [exec]
    exact execCollComplete_keeps ..
  case scall => exact execScall_keeps ..
  case mts => exact execMts_keeps ..
  case fltq => exact execFltq_keeps ..
  case affirmation => exact execAffirmation_keeps ..
  case denial => exact execDenial_keeps ..
  case guess => exact execGuess_keeps ..
  case guessN => exact execGuessN_keeps ..
  case homeAnswer => exact execHomeAnswer_keeps ..
  case tqry => exact execTqry_keeps ..
  case distributorPlace => exact execDistributorPlace_keeps ..
  case detTeamRelease => exact execDetTeamRelease_keeps ..
  case restore => exact execRestore_keeps ..
  case responseLimitExpiry => exact execResponseLimitExpiry_keeps ..
  case powerOnReset => exact execPowerOnReset_keeps ..
  case contextCreation => exact execContextCreation_keeps ..
  case powerLoss => exact execPowerLoss_keeps ..

/-! ### The step -/

theorem Keeps.of_mem {s u : State} {r : Res} (h : Keeps u r) (hm : u.mem = s.mem) : Keeps s r := by
  rwa [Keeps, ← hm]

theorem stepGroup_keeps (gid : Nat) (s : State) : Keeps s (stepGroup gid s) := by
  unfold stepGroup
  dsimp only
  split
  · exact keeps_next id
  next g _ =>
    split
    · exact keeps_next id
    · split
      · next ht => exact keeps_next fun h => State.takeDue_wf (s := { s with cur := gid }) h ht
      · have hf := State.fetch_mem { s with cur := gid } g
        split
        · next hs =>
          rw [hs] at hf
          exact keeps_next fun h => State.fetchTrap_wf (by rwa [hf])
        · next hs =>
          rw [hs] at hf
          exact keeps_next fun h => State.fetchTrap_wf (by rwa [hf])
        · next hs =>
          rw [hs] at hf
          split
          · exact keeps_next fun h => State.illegal_wf (by rwa [hf])
          · exact (exec_keeps _ _).of_mem hf

theorem runTurn_keeps (t : Turn) (s : State) : Keeps s (runTurn t s) := by
  cases t with
  | issue gid => exact stepGroup_keeps gid s
  | event e =>
    unfold runTurn
    dsimp only
    split
    · exact exec_keeps e s
    · exact keeps_next id

theorem step_keeps (s : State) : Keeps s (step s) := by
  unfold step
  split
  · exact (runTurn_keeps _ _).of_mem rfl
  · split
    · exact (runTurn_keeps _ _).of_mem (draw_mem s)
    · exact keeps_next fun h => by rwa [draw_mem]

/-- Settles O57: every arm of `exec` answers `.next`, and every path through it changes memory through `wrBytes` only. -/
theorem stepKeepsMemory : Obligations.StepKeepsMemory := by
  refine ⟨fun s => ?_, fun s t hs ht => ?_⟩
  · obtain ⟨t, ht, -⟩ := step_keeps s
    exact ⟨t, ht⟩
  · obtain ⟨u, hu, hwf⟩ := step_keeps s
    obtain rfl : u = t := by simpa [hu] using ht
    exact hwf hs

end Sys2Proof.Machine

end

section
/-! ## The spec's own words -/

namespace Sys2Proof

/-- Settles O60: each word decodes by evaluation. -/
theorem specWordsDecode : Obligations.SpecWordsDecode := by
  unfold Obligations.SpecWordsDecode
  refine ⟨?_, ?_, ?_, ?_, ?_, ?_, ?_, ?_, ?_, ?_, ?_, ?_⟩ <;> rfl

end Sys2Proof
end

section
/-! ## A group that an array reset holds back (O59)

`State.live` also asks that no array reset holds the group back (R151, R157, `State.resetHolds`); `mayIssue` does not ask
it. The turn of such a group is used up, and nothing is fetched or run. -/

namespace Sys2Proof

open Sys2Proof.Machine Sys2Proof.Claims

/-- The loaded group at a `NOP`, on a core where a quad it is no member of resets its arrays. -/
def heldBack : State :=
  { State.reset.withFetchWord 64 0 with
    teams := [{ loadTeam with quads := [⟨1, [], [], [], 0, some [4, 5, 6, 7], none⟩] }] }

theorem heldBack_mayIssue : mayIssue heldBack loadGroup [] :=
  ⟨rfl, rfl, rfl, rfl, rfl, rfl, loadCtx, rfl, rfl⟩

theorem heldBack_noneDue : noneDue loadGroup := .inr (.inr (.inr fun _ hr => nomatch hr))

theorem heldBack_xlate :
    heldBack.xlate loadGroup.core (heldBack.ctxOfG loadGroup) loadGroup.pc.toNat .exec loadGroup.sup = .pa loadAddr := by
  decide

theorem heldBack_blockFresh : blockFresh heldBack loadGroup.core loadAddr :=
  ⟨fun _ hl => (nomatch hl), rfl⟩

theorem heldBack_reads : Claims.reads heldBack loadAddr = .ok .nop 8 := by
  decide

/-- The turn is used up: no instruction is fetched, so no draw is made. -/
theorem step_heldBack : step heldBack = .next { heldBack with turns := [], cur := 0 } := rfl

/-- The reset holds the group back whatever else of the state differs, as long as teams, contexts and groups do not. -/
theorem issue_heldBack {s : State} {ts : List Turn} (hs : fetched heldBack s loadGroup ts) (i : Instr)
    (act : State → IC → Act) : issue i act s = s := by
  rw [fetched] at hs
  refine issue_waits (g := loadGroup) act (by rw [hs]; rfl) ?_
  have : s.resetHolds loadGroup = true := by rw [hs]; rfl
  simp [State.ready, this]

/-- Refutes O59: its first clause does not ask that no array reset holds the group back. In `heldBack` one does (R151), and
the step makes no fetch, whose draw every state in which the clause runs the instruction has made. -/
theorem not_stepRunsDecoded : ¬ Obligations.StepRunsDecoded := by
  unfold Obligations.StepRunsDecoded
  rintro ⟨runsDecoded, -⟩
  obtain ⟨s', hs, hstep⟩ := runsDecoded heldBack loadGroup [] loadAddr 8 .nop heldBack_mayIssue heldBack_noneDue heldBack_xlate
    heldBack_blockFresh heldBack_reads
  have hrun : exec .nop s' = .next s' := congrArg _ (issue_heldBack hs .nop _)
  rw [step_heldBack, hrun] at hstep
  have hnext := Host.Outcome.next.inj hstep
  have hsame : s'.free = heldBack.free := by rw [← hnext]
  have hdraw : s'.free = heldBack.free + 1 := by rw [hs]
  omega

end Sys2Proof
end

section
/-! ## Pauses, `%fmt` and the traps of control transfers (O11) -/

namespace Sys2Proof

open Sys2Proof.Machine Sys2Proof.Claims

/-! ### What `exec` leaves, by what the meaning answers -/

/-- A meaning that completes with `g1` and no result for the chain; CTL is not `became`'s to say. -/
theorem exec_goes {i : Instr} {s : State} {g : Group} {act : State → IC → Act} (hr : runs s g i = true)
    (hx : exec i s = .next (issue i act s)) (hc : (infoOf g.fmt i).hdr.ch = false) (g1 : Group) (hid : g1.gid = g.gid)
    (ha : act (s.setG (icFor s g i).g) (icFor s g i) = (icFor s g i).goG (s.setG (icFor s g i).g) g1) (x : Tags) :
    goes i s { g1 with pc := seqNext g.pc (ilen g i), ctl := x } := by
  have hs := (issue_runs act hr).trans (congrArg (s.settle _) ha)
  obtain ⟨hg, ho⟩ := settle_goG hr hid none none
  rw [IC.goG] at hs
  rw [← hs] at hg ho
  refine ⟨_, hx, _, hg, ho, ?_⟩
  have hf : (icFor s g i).f.hdr.ch = false := hc
  simp only [Group.retire, hf]
  rfl

theorem exec_skips {i : Instr} {s : State} {g : Group} {act : State → IC → Act} (hr : runs s g i = true)
    (hx : exec i s = .next (issue i act s)) (hc : (infoOf g.fmt i).hdr.ch = false)
    (ha : act (s.setG (icFor s g i).g) (icFor s g i) = (icFor s g i).skip (s.setG (icFor s g i).g)) :
    goes i s { g with pc := seqNext g.pc (ilen g i) } :=
  exec_goes hr hx hc (icFor s g i).g rfl (ha.trans (congrArg (Act.go · none none) (setG_self s _).symm)) g.ctl

theorem exec_traps {i : Instr} {s : State} {g : Group} {act : State → IC → Act} (hr : runs s g i = true)
    (hx : exec i s = .next (issue i act s)) (hd : g.dep = 0) (hv : g.sb.valid = false) {cls sub : Nat} {ls : Mask}
    {lw : Sparse DWord} {code : Word}
    (ha : act (s.setG (icFor s g i).g) (icFor s g i) = .trap cls sub ls lw code) : traps i s g cls sub ls :=
  ⟨_, hx, by rw [issue_runs act hr, ha]; exact trap_took hr hd hv cls sub ls lw code⟩

theorem runs_park {s : State} {g : Group} {i : Instr} (hr : runs s g i = true) : g.park = none := by
  simp only [runs, Bool.and_eq_true] at hr
  exact ready_park hr.1.2

theorem guarded_iff {g : Group} {h : Hdr} : guarded g h = true ↔ g.execMask h ≠ 0 := bne_iff_ne

/-! ### Targets of transfers -/

theorem badTarget_iff {t : DWord} : badTarget t = true ↔ ¬ fits t := by
  simp only [badTarget, fits, Bool.or_eq_true, bne_iff_ne, decide_eq_true_eq]
  omega

theorem offTarget_eq_target (g : Group) (off : Word) : offTarget g.pc off = target g off := by
  apply BitVec.eq_of_toNat_eq
  have hoff : (off.signExtend 64).toInt = off.toInt := BitVec.toInt_signExtend_of_le (by decide)
  have hsum : ((g.pc + off.signExtend 64).toNat : Int) % 2 ^ 54 = (g.pc.toNat + off.toInt) % 2 ^ 54 := by
    rw [BitVec.toNat_add, ← hoff, BitVec.toInt_eq_toNat_bmod]
    simp only [Int.bmod]
    omega
  simp only [offTarget, mod54, target, BitVec.toNat_setWidth, BitVec.toNat_ofInt]
  omega

/-! ### Fields of `%fmt` -/

theorem fmtBad_iff {sel : BitVec 5} {x : Word} : fmtBad sel x = true ↔ ¬ fmtOk sel x := by
  simp only [fmtBad, fmtOk, fld, Nat.shiftRight_eq_div_pow, Bool.or_eq_true, Bool.and_eq_true, decide_eq_true_eq]
  grind

theorem fmtMask_getLsbD (sel : BitVec 5) {j : Nat} (hj : j < 32) : (fmtMask sel).getLsbD j =
    if j < 4 then sel.getLsbD 0 else if j < 8 then sel.getLsbD 1 else if j < 10 then sel.getLsbD 2
    else if j < 12 then sel.getLsbD 3 else if j < 13 then sel.getLsbD 4 else false := by
  have pick : ∀ (b : Bool) (m : Word), (if b then m else 0).getLsbD j = (b && m.getLsbD j) := by
    intro b m; cases b <;> simp
  have h0 : ∀ j < 32, (0x00F : Word).getLsbD j = decide (j < 4) := by decide
  have h1 : ∀ j < 32, (0x0F0 : Word).getLsbD j = decide (4 ≤ j ∧ j < 8) := by decide
  have h2 : ∀ j < 32, (0x300 : Word).getLsbD j = decide (8 ≤ j ∧ j < 10) := by decide
  have h3 : ∀ j < 32, (0xC00 : Word).getLsbD j = decide (10 ≤ j ∧ j < 12) := by decide
  have h4 : ∀ j < 32, (0x1000 : Word).getLsbD j = decide (12 ≤ j ∧ j < 13) := by decide
  simp only [fmtMask, BitVec.getLsbD_or, pick, h0 j hj, h1 j hj, h2 j hj, h3 j hj, h4 j hj]
  grind

/-- The selected word, field by field from the top down: each field is a remainder below the power that shifts the rest. -/
theorem fmtSet_nested (sel : BitVec 5) (old x : Word) : fmtSet sel old x = BitVec.ofNat 32 (
    2 ^ 4 * (2 ^ 4 * (2 ^ 2 * (2 ^ 2 * (2 ^ 1 * (old.toNat / 2 ^ 13)
      + (if sel.getLsbD 4 then x else old).toNat / 2 ^ 12 % 2 ^ 1)
      + (if sel.getLsbD 3 then x else old).toNat / 2 ^ 10 % 2 ^ 2)
      + (if sel.getLsbD 2 then x else old).toNat / 2 ^ 8 % 2 ^ 2)
      + (if sel.getLsbD 1 then x else old).toNat / 2 ^ 4 % 2 ^ 4)
      + (if sel.getLsbD 0 then x else old).toNat % 2 ^ 4) := by
  have pick : ∀ (b : Bool) (lo n : Nat), (if b then x.toNat / 2 ^ lo % 2 ^ n * 2 ^ lo else old.toNat / 2 ^ lo % 2 ^ n * 2 ^ lo)
      = (if b then x else old).toNat / 2 ^ lo % 2 ^ n * 2 ^ lo := by intro b _ _; cases b <;> rfl
  simp only [fmtSet, pick]
  congr 1
  omega

/-- A write through the mask is the write field by field: both agree in every bit. -/
theorem fmtSet_eq (sel : BitVec 5) (old x : Word) :
    (old &&& ~~~fmtMask sel) ||| (x &&& fmtMask sel) = fmtSet sel old x := by
  apply BitVec.eq_of_getLsbD_eq
  intro j hj
  have hlt : ∀ a n : Nat, a % 2 ^ n < 2 ^ n := fun a n => Nat.mod_lt _ (Nat.two_pow_pos n)
  have pick : ∀ (b : Bool) (k : Nat),
      (if b then x else old).toNat.testBit k = if b then x.getLsbD k else old.getLsbD k := by
    intro b k; cases b <;> rfl
  rw [fmtSet_nested, BitVec.getLsbD_ofNat]
  simp only [Nat.testBit_two_pow_mul_add _ (hlt _ _), Nat.testBit_mod_two_pow, Nat.testBit_div_two_pow, pick,
    BitVec.getLsbD_or, BitVec.getLsbD_and, BitVec.getLsbD_not, fmtMask_getLsbD sel hj]
  grind

/-! ### Pauses and formats -/

theorem nop_goes {s : State} {g : Group} (hr : runs s g .nop = true) : goes .nop s { g with pc := seqNext g.pc 8 } :=
  exec_skips hr rfl rfl rfl

theorem yield_goes {s : State} {g : Group} {h : Hdr} (hr : runs s g (.yield h) = true) (hc : h.ch = false) :
    goes (.yield h) s { g with pc := seqNext g.pc 8, park := if guarded g h then some .yielded else none } := by
  split
  next hg => exact exec_goes hr rfl hc { (icFor s g (.yield h)).g with park := some .yielded } rfl (if_pos hg) g.ctl
  next hg =>
    rw [← runs_park hr]
    exact exec_skips hr rfl hc (if_neg hg)

/-- Every form of `SLEEP` of `n` nanoseconds. -/
theorem sleep_goes {s : State} {g : Group} {i : Instr} {h : Hdr} {n : Word} {read : IC → Word} (hr : runs s g i = true)
    (hh : (infoOf g.fmt i).hdr = h) (hc : h.ch = false) (hn : read (icFor s g i) = n)
    (hx : exec i s = .next (issue i (fun s c => sleepFor c s (read c)) s)) :
    goes i s (if guarded g h then slept s g n (ilen g i) else { g with pc := seqNext g.pc (ilen g i) }) := by
  subst hh
  have hug : (icFor s g i).ug = guarded g (infoOf g.fmt i).hdr := rfl
  split
  next hg =>
    refine exec_goes hr hx hc { (icFor s g i).g with
      park := some (if n = 0 then .yielded else .sleep (s.clock + BitVec.ofNat 64 n.toNat)) } rfl ?_ g.ctl
    simp only [sleepFor, hug, hg, hn, Bool.not_true, Bool.false_eq_true, if_false, BitVec.ofNat_toNat]
    split <;> rfl
  next hg =>
    refine exec_skips hr hx hc ?_
    simp only [sleepFor, hug, hg, Bool.not_false, if_true]

/-- Every form of `SETFMT` of `x`, where the write is made or no lane executes. -/
theorem setfmt_goes {s : State} {g : Group} {i : Instr} {h : Hdr} {sel : BitVec 5} {x : Word} {read : IC → Word}
    (hr : runs s g i = true) (hh : (infoOf g.fmt i).hdr = h) (hc : h.ch = false) (hn : read (icFor s g i) = x)
    (hx : exec i s = .next (issue i (fun s c => writeFmt c s sel (read c)) s))
    (hok : fmtOk sel x ∨ guarded g h = false) :
    goes i s { g with pc := seqNext g.pc (ilen g i), fmt := if guarded g h then fmtSet sel g.fmt x else g.fmt } := by
  subst hh
  have hug : (icFor s g i).ug = guarded g (infoOf g.fmt i).hdr := rfl
  split
  next hg =>
    have hgood : fmtBad sel x = false := by
      rw [← Bool.not_eq_true, fmtBad_iff, not_not]
      exact hok.resolve_right (by simp [hg])
    refine exec_goes hr hx hc { (icFor s g i).g with fmt := fmtSet sel g.fmt x } rfl ?_ g.ctl
    simp only [writeFmt, hug, hg, hn, hgood, Bool.not_true, Bool.false_eq_true, if_false, fmtSet_eq]
    rfl
  next hg =>
    refine exec_skips hr hx hc ?_
    simp only [writeFmt, hug, hg, Bool.not_false, if_true]

/-- Every form of `SETFMT` that would place a reserved code. -/
theorem setfmt_traps {s : State} {g : Group} {i : Instr} {h : Hdr} {sel : BitVec 5} {x : Word} {read : IC → Word}
    (hr : runs s g i = true) (hh : (infoOf g.fmt i).hdr = h) (hn : read (icFor s g i) = x)
    (hx : exec i s = .next (issue i (fun s c => writeFmt c s sel (read c)) s))
    (hbad : ¬ fmtOk sel x) (hg : guarded g h = true) (hd : g.dep = 0) (hv : g.sb.valid = false) :
    traps i s g 2 0x06 1 := by
  subst hh
  have hug : (icFor s g i).ug = guarded g (infoOf g.fmt i).hdr := rfl
  refine exec_traps hr hx hd hv (lw := []) (code := 0) ?_
  simp only [writeFmt, hug, hg, hn, fmtBad_iff.2 hbad, Bool.not_true, Bool.false_eq_true, if_false, if_true, Act.trpU]

theorem getfmt_ran {s : State} {g : Group} {h : Hdr} {d : Dst} (hr : runs s g (.getfmt h d) = true) :
    ∃ t, exec (.getfmt h d) s = .next t ∧ ranAlu s t g (.getfmt h d) h d fun _ => (g.fmt, 0) := by
  refine ⟨_, rfl, ?_⟩
  rw [issue_runs _ hr]
  obtain ⟨g', hg, ho, hk, hw, hf, hret, hfill⟩ := put_ran hr d 0 fun _ => g.fmt
  refine ⟨g', hg, ho, hk, hw, ?_, hret, hfill⟩
  simpa [raises] using hf

/-- What the end of a sleep does to its group (R84). -/
def wakeAt (s : State) (g : Group) : Group :=
  match g.park with
  | some (.sleep dl) => if dl.toNat ≤ s.clock.toNat then { g with park := none } else g
  | _ => g

theorem exec_sleepDeadline (s : State) (k : Nat) : exec (.sleepDeadline k) s = .next (s.updG k (wakeAt s)) := rfl

theorem wakeAt_gid (s : State) (g : Group) : (wakeAt s g).gid = g.gid := by
  unfold wakeAt
  split
  · split <;> rfl
  · rfl

theorem wakeAt_sleeping {s : State} {g : Group} {dl : DWord} (hp : g.park = some (.sleep dl)) :
    wakeAt s g = { g with park := if dl.toNat ≤ s.clock.toNat then none else some (.sleep dl) } := by
  simp only [wakeAt, hp]
  split
  · rfl
  · rw [← hp]

theorem sleepDeadline_wakes {s : State} {g : Group} {dl : DWord} (hg : s.grp? g.gid = some g)
    (hp : g.park = some (.sleep dl)) :
    ∃ t, exec (.sleepDeadline g.gid) s = .next t ∧ onlyGroup s t g.gid ∧ t.lacc = s.lacc ∧
      t.grp? g.gid = some { g with park := if dl.toNat ≤ s.clock.toNat then none else some (.sleep dl) } := by
  have hid : ∀ x : Group, x.gid = g.gid → (wakeAt s x).gid = g.gid := fun x hx => (wakeAt_gid s x).trans hx
  refine ⟨_, exec_sleepDeadline s g.gid, ⟨rfl, fun k hk => grp?_updG_ne s _ k _ hid hk⟩, rfl, ?_⟩
  rw [grp?_updG_self s _ g _ hid hg, wakeAt_sleeping hp]

/-! ### Transfers that only trap -/

theorem bra_traps {s : State} {g : Group} {h : Hdr} {off : Word} (hr : runs s g (.bra h off) = true) (hd : g.dep = 0)
    (hv : g.sb.valid = false) (he : g.execMask h ≠ 0) :
    (¬ fits (target g off) → traps (.bra h off) s g 0 0x0A (g.execMask h)) ∧
    (fits (target g off) → g.mask &&& ~~~g.execMask h ≠ 0 →
      (g.stack = [] → traps (.bra h off) s g 7 0x02 (g.execMask h)) ∧
      (∀ top rest, g.stack = top :: rest → top.pmask ≠ 0 → traps (.bra h off) s g 7 0x03 (g.execMask h))) := by
  have hm : (icFor s g (.bra h off)).m = g.execMask h := rfl
  have ht : offTarget (icFor s g (.bra h off)).g.pc off = target g off := offTarget_eq_target g off
  have hn : (icFor s g (.bra h off)).g.mask = g.mask := rfl
  have hst : (icFor s g (.bra h off)).g.stack = g.stack := rfl
  refine ⟨fun hbad => ?_, fun hfit hleft => ⟨fun hnil => ?_, fun top rest hcons hpend => ?_⟩⟩
  · refine exec_traps hr rfl hd hv (lw := []) (code := 0) ?_
    simp only [hm, ht, he, if_false, badTarget_iff.2 hbad, if_true, Act.trp]
  · refine exec_traps hr rfl hd hv (lw := []) (code := 0) ?_
    simp only [hm, ht, hn, he, if_false, badTarget_iff, hfit, not_true_eq_false, hleft, hst, hnil, Act.trp]
  · refine exec_traps hr rfl hd hv (lw := []) (code := 0) ?_
    simp only [hm, ht, hn, he, if_false, badTarget_iff, hfit, not_true_eq_false, hleft, hst, hcons, bne_iff_ne, ne_eq, hpend,
      not_false_eq_true, if_true, Act.trp]

/-- A transfer of the whole group to `tgt`, by what refuses it (R39, R81). -/
theorem jump_traps {s : State} {g : Group} {i : Instr} {h : Hdr} {tgt : DWord} {link : Option SReg} (hr : runs s g i = true)
    (hh : (infoOf g.fmt i).hdr = h) {dest : IC → DWord} (hdest : dest (icFor s g i) = tgt)
    (hx : exec i s = .next (issue i (fun s c => jumpAll c s (dest c) link) s)) (hd : g.dep = 0) (hv : g.sb.valid = false)
    (he : g.execMask h ≠ 0) :
    (g.execMask h ≠ g.mask → traps i s g 7 0x05 1) ∧
    (g.execMask h = g.mask → ¬ fits tgt → traps i s g 0 0x0A 1) ∧
    (g.execMask h = g.mask → fits tgt → 2 ^ 54 ≤ tgt.toNat → traps i s g 8 0x05 1) := by
  subst hh hdest
  have hm : (icFor s g i).m = g.execMask (infoOf g.fmt i).hdr := rfl
  have hn : (icFor s g i).g.mask = g.mask := rfl
  refine ⟨fun hpart => ?_, fun hall hbad => ?_, fun hall hfit hfar => ?_⟩
  · refine exec_traps hr hx hd hv (lw := []) (code := 0) ?_
    simp only [jumpAll, hm, hn, he, if_false, bne_iff_ne, ne_eq, hpart, not_false_eq_true, if_true, Act.trpU]
  · refine exec_traps hr hx hd hv (lw := []) (code := 0) ?_
    rw [hall] at he
    simp only [jumpAll, hm, hn, hall, he, if_false, bne_iff_ne, ne_eq, not_true_eq_false, badTarget_iff.2 hbad, if_true,
      Act.trpU]
  · refine exec_traps hr hx hd hv (lw := sset 0 [] 0 (BitVec.ofNat 64 (dest (icFor s g i)).toNat)) (code := 0) ?_
    rw [hall] at he
    simp only [jumpAll, hm, hn, hall, he, if_false, bne_iff_ne, ne_eq, not_true_eq_false, badTarget_iff, hfit, hfar, if_true,
      Act.trpA]

theorem transfer_traps {s : State} {g : Group} {i : Instr} {h : Hdr} {dest : Group → DWord} {link : Option SReg}
    (hi : transfers i = some (h, dest, link)) (hr : runs s g i = true) (hd : g.dep = 0) (hv : g.sb.valid = false)
    (he : g.execMask h ≠ 0) :
    (g.execMask h ≠ g.mask → traps i s g 7 0x05 1) ∧
    (g.execMask h = g.mask → ¬ fits (dest g) → traps i s g 0 0x0A 1) ∧
    (g.execMask h = g.mask → fits (dest g) → 2 ^ 54 ≤ (dest g).toNat → traps i s g 8 0x05 1) := by
  cases i
  case brx h a => cases hi; exact jump_traps hr rfl rfl rfl hd hv he
  case ret h a => cases hi; exact jump_traps hr rfl rfl rfl hd hv he
  case call h d off => cases hi; exact jump_traps hr rfl (offTarget_eq_target g off) rfl hd hv he
  case callx h d a => cases hi; exact jump_traps hr rfl rfl rfl hd hv he
  all_goals cases hi

theorem mark_traps {s : State} {g : Group} {off : Word} (hr : runs s g (.mark off) = true) (hd : g.dep = 0)
    (hv : g.sb.valid = false) :
    (¬ fits (target g off) → traps (.mark off) s g 0 0x0A 1) ∧
    (fits (target g off) → g.stack.length = 32 → traps (.mark off) s g 7 0x01 1) := by
  have ht : offTarget (icFor s g (.mark off)).g.pc off = target g off := offTarget_eq_target g off
  have hst : (icFor s g (.mark off)).g.stack = g.stack := rfl
  refine ⟨fun hbad => ?_, fun hfit hfull => ?_⟩
  · refine exec_traps hr rfl hd hv (lw := []) (code := 0) ?_
    simp only [ht, badTarget_iff.2 hbad, if_true, Act.trpU]
  · refine exec_traps hr rfl hd hv (lw := []) (code := 0) ?_
    simp only [ht, badTarget_iff, hfit, not_true_eq_false, if_false, hst, hfull, if_true, Act.trpU]

theorem join_traps {s : State} {g : Group} (hr : runs s g .join = true) (hd : g.dep = 0) (hv : g.sb.valid = false)
    (hnot : ∀ top rest, g.stack = top :: rest → g.pc ≠ top.join) : traps .join s g 7 0x04 1 := by
  have hst : (icFor s g .join).g.stack = g.stack := rfl
  have hpc : (icFor s g .join).g.pc = g.pc := rfl
  refine exec_traps hr rfl hd hv (lw := []) (code := 0) ?_
  cases hstack : g.stack with
  | nil => simp only [hst, hstack, Act.trpU]
  | cons top rest => simp only [hst, hstack, hpc, bne_iff_ne, ne_eq, hnot top rest hstack, not_false_eq_true, if_true, Act.trpU]

/-- Settles O11: the pauses and `%fmt` by what completion leaves, the transfers by the first cause each meets. -/
theorem pauseAndFormatEffects : Obligations.PauseAndFormatEffects := by
  unfold Obligations.PauseAndFormatEffects
  refine ⟨⟨?_, ?_, ?_, ?_, ?_, ?_, ?_, ?_⟩, ?_, ?_, ?_, ?_⟩
  · exact fun _ _ => nop_goes
  · exact fun _ _ _ => yield_goes
  · exact fun _ _ _ _ hr hc => sleep_goes hr rfl hc rfl rfl
  · exact fun _ _ _ _ hr hc => sleep_goes hr rfl hc rfl rfl
  · exact fun _ _ _ _ _ hr hc => ⟨setfmt_goes hr rfl hc rfl rfl, setfmt_traps hr rfl rfl rfl⟩
  · exact fun _ _ _ _ _ hr hc => ⟨setfmt_goes hr rfl hc rfl rfl, setfmt_traps hr rfl rfl rfl⟩
  · exact fun _ _ _ _ => getfmt_ran
  · exact fun _ _ _ => sleepDeadline_wakes
  · exact fun _ _ _ _ => bra_traps
  · exact fun _ _ _ _ _ _ => transfer_traps
  · exact fun _ _ _ => mark_traps
  · exact fun _ _ => join_traps

end Sys2Proof
end

section
/-! The word and its fields (R41, R44-R50). -/

namespace Sys2Proof

theorem fld_eq (w lo n : Nat) : fld w lo n = w / 2 ^ lo % 2 ^ n := by rw [fld, Nat.shiftRight_eq_div_pow]

theorem fld_lt (w lo n : Nat) : fld w lo n < 2 ^ n := Nat.mod_lt _ (by positivity)

/-- The lowest field of a word. -/
theorem fld_low {x n : Nat} (h : x < 2 ^ n) (y : Nat) : fld (x + 2 ^ n * y) 0 n = x := by
  rw [fld_eq, pow_zero, Nat.div_one, Nat.add_mul_mod_self_left, Nat.mod_eq_of_lt h]

/-- A field above the lowest one. -/
theorem fld_skip {x k : Nat} (h : x < 2 ^ k) (y : Nat) {lo : Nat} (hk : k ≤ lo) (n : Nat) : fld (x + 2 ^ k * y) lo n = fld y (lo - k) n := by
  obtain ⟨m, rfl⟩ := Nat.exists_eq_add_of_le hk
  rw [fld_eq, fld_eq, pow_add, ← Nat.div_div_eq_div_mul, Nat.add_mul_div_left _ _ (by positivity), Nat.div_eq_of_lt h,
    Nat.zero_add, Nat.add_sub_cancel_left]

theorem fld_all {x n : Nat} (h : x < 2 ^ n) : fld x 0 n = x := by simpa using fld_low h 0

/-- Two neighbouring fields make one. -/
theorem fld_join (w lo m n : Nat) : fld w lo m + 2 ^ m * fld w (lo + m) n = fld w lo (m + n) := by
  rw [fld_eq, fld_eq, fld_eq, pow_add, pow_add, Nat.mod_mul, Nat.div_div_eq_div_mul]

/-- The bounds of the fields of a word (R41). -/
structure Raw.Fits (r : Raw) : Prop where
  len : r.len < 3
  op : r.op < 2 ^ 8
  gp : r.gp < 2 ^ 4
  gn : r.gn < 2 ^ 1
  ch : r.ch < 2 ^ 1
  ac : r.ac < 2 ^ 2
  ws : r.ws < 2 ^ 1
  b19 : r.b19 < 2 ^ 1
  d : r.d < 2 ^ 11
  a : r.a < 2 ^ 11
  b : r.b < 2 ^ 11
  fn : r.fn < 2 ^ 11
  hi : r.hi < 2 ^ (32 * r.len)

/-- `packRaw` with each field above those below it. -/
theorem packRaw_nested (r : Raw) (x : Nat) : packRaw r + 2 ^ 64 * x =
    r.len + 2 ^ 2 * (r.op + 2 ^ 8 * (r.gp + 2 ^ 4 * (r.gn + 2 ^ 1 * (r.ch + 2 ^ 1 * (r.ac + 2 ^ 2 * (r.ws + 2 ^ 1 * (r.b19
      + 2 ^ 1 * (r.d + 2 ^ 11 * (r.a + 2 ^ 11 * (r.b + 2 ^ 11 * (r.fn + 2 ^ 11 * (r.hi + x)))))))))))) := by
  unfold packRaw
  ring

theorem lenBytes_bits (len : Nat) : 8 * lenBytes len = 64 + 32 * len := by unfold lenBytes; omega

theorem rawOf_packRaw {r : Raw} (h : r.Fits) (above : Nat) :
    rawOf (packRaw r + 2 ^ (8 * lenBytes r.len) * above) = r := by
  rw [lenBytes_bits, pow_add, mul_assoc, packRaw_nested]
  obtain ⟨hlen, hop, hgp, hgn, hch, hac, hws, hb19, hd, ha, hb, hfn, hhi⟩ := h
  have hlen : r.len < 2 ^ 2 := by omega
  unfold rawOf
  simp only [fld_low, fld_skip, Nat.reduceLeDiff, Nat.reduceSub, le_refl, hlen, hop, hgp, hgn, hch, hac, hws,
    hb19, hd, ha, hb, hfn, hhi]

theorem packRaw_rawOf (w : Nat) : packRaw (rawOf w) = w % 2 ^ (8 * lenBytes (rawOf w).len) := by
  have hw (n : Nat) : w % 2 ^ n = fld w 0 n := by rw [fld_eq, pow_zero, Nat.div_one]
  have hn := packRaw_nested (rawOf w) 0
  simp only [Nat.mul_zero, Nat.add_zero] at hn
  rw [lenBytes_bits, hw, hn,
    show 64 + 32 * (rawOf w).len
      = 2 + (8 + (4 + (1 + (1 + (2 + (1 + (1 + (11 + (11 + (11 + (11 + 32 * (rawOf w).len))))))))))) by omega]
  simp only [← fld_join]
  rfl

theorem rawOf_fits {w : Nat} (h : fld w 0 2 ≠ 3) : (rawOf w).Fits := by
  have := fld_lt w 0 2
  have hlen : (rawOf w).len < 3 := by simp only [rawOf]; omega
  exact ⟨hlen, fld_lt .., fld_lt .., fld_lt .., fld_lt .., fld_lt .., fld_lt .., fld_lt .., fld_lt .., fld_lt .., fld_lt ..,
    fld_lt .., fld_lt ..⟩

/-! ### Enumerations -/

/-- A field of `n` codes: `dec` and `enc` are inverse to each other on them. -/
structure Codec {α : Type} (dec : Nat → α) (enc : α → Nat) (n : Nat) : Prop where
  dec_enc : ∀ x, dec (enc x) = x
  enc_lt : ∀ x, enc x < n
  enc_dec : ∀ k < n, enc (dec k) = k

theorem acCodec : Codec acOf encAC 3 := ⟨by rintro ⟨⟩ <;> rfl, by rintro ⟨⟩ <;> decide, by decide⟩
theorem ftyCodec : Codec ftyOf encFTy 3 := ⟨by rintro ⟨⟩ <;> rfl, by rintro ⟨⟩ <;> decide, by decide⟩
theorem condCodec : Codec condOf encCond 8 := ⟨by rintro ⟨⟩ <;> rfl, by rintro ⟨⟩ <;> decide, by decide⟩
theorem iwCodec : Codec iwOf encIW 3 := ⟨by rintro ⟨⟩ <;> rfl, by rintro ⟨⟩ <;> decide, by decide⟩
theorem combCodec : Codec combOf encComb 4 := ⟨by rintro ⟨⟩ <;> rfl, by rintro ⟨⟩ <;> decide, by decide⟩
theorem redCodec : Codec redOf encRed 6 := ⟨by rintro ⟨⟩ <;> rfl, by rintro ⟨⟩ <;> decide, by decide⟩
theorem laneCodec : Codec laneOf encLane 3 := ⟨by rintro ⟨⟩ <;> rfl, by rintro ⟨⟩ <;> decide, by decide⟩
theorem ctyCodec : Codec ctyOf encCTy 9 := ⟨by rintro ⟨⟩ <;> rfl, by rintro ⟨⟩ <;> decide, by decide⟩
theorem packCodec : Codec packOf encPack 3 := ⟨by rintro ⟨⟩ <;> rfl, by rintro ⟨⟩ <;> decide, by decide⟩
theorem unpackCodec : Codec unpackOf encUnpack 4 := ⟨by rintro ⟨⟩ <;> rfl, by rintro ⟨⟩ <;> decide, by decide⟩
theorem mfmtCodec : Codec mfmtOf encMFmt 9 := ⟨by rintro ⟨⟩ <;> rfl, by rintro ⟨⟩ <;> decide, by decide⟩
theorem maccCodec : Codec maccOf encMAcc 2 := ⟨by rintro ⟨⟩ <;> rfl, by rintro ⟨⟩ <;> decide, by decide⟩
theorem ltyCodec : Codec ltyOf encLTy 5 := ⟨by rintro ⟨⟩ <;> rfl, by rintro ⟨⟩ <;> decide, by decide⟩
theorem pathCodec : Codec pathOf encPath 7 := ⟨by rintro ⟨⟩ <;> rfl, by rintro ⟨⟩ <;> decide, by decide⟩
theorem bselCodec : Codec bselOf encBSel 8 := ⟨by rintro ⟨⟩ <;> rfl, by rintro ⟨⟩ <;> decide, by decide⟩
theorem scopeCodec : Codec scopeOf encScope 5 := ⟨by rintro ⟨⟩ <;> rfl, by rintro ⟨⟩ <;> decide, by decide⟩
theorem aopCodec : Codec aopOf encAOp 9 := ⟨by rintro ⟨⟩ <;> rfl, by rintro ⟨⟩ <;> decide, by decide⟩
theorem atyCodec : Codec atyOf encATy 3 := ⟨by rintro ⟨⟩ <;> rfl, by rintro ⟨⟩ <;> decide, by decide⟩
theorem credTyCodec : Codec credTyOf encCredTy 4 := ⟨by rintro ⟨⟩ <;> rfl, by rintro ⟨⟩ <;> decide, by decide⟩
theorem collCodec : Codec collOf encColl 6 := ⟨by rintro ⟨⟩ <;> rfl, by rintro ⟨⟩ <;> decide, by decide⟩
theorem collTyCodec : Codec collTyOf encCollTy 4 := ⟨by rintro ⟨⟩ <;> rfl, by rintro ⟨⟩ <;> decide, by decide⟩
theorem cselCodec : Codec cselOf encCSel 4 := ⟨by rintro ⟨⟩ <;> rfl, by rintro ⟨⟩ <;> decide, by decide⟩
theorem gselCodec : Codec gselOf encGSel 8 := ⟨by rintro ⟨⟩ <;> rfl, by rintro ⟨⟩ <;> decide, by decide⟩
theorem pselCodec : Codec pselOf encPSel 11 := ⟨by rintro ⟨⟩ <;> rfl, by rintro ⟨⟩ <;> decide, by decide⟩
theorem spCodec : Codec spOf encSp 19 := ⟨by rintro ⟨⟩ <;> rfl, by rintro ⟨⟩ <;> decide, by decide⟩

/-- Every code of a field stands for something. -/
theorem Codec.exists_enc {α : Type} {dec : Nat → α} {enc : α → Nat} {n : Nat} (c : Codec dec enc n) {k : Nat} (h : k < n) :
    ∃ x, k = enc x := ⟨dec k, (c.enc_dec k h).symm⟩

/-! ### Single bits -/

theorem bit_eq (x i : Nat) : bit x i = decide (fld x i 1 = 1) := by
  simp [bit, fld_eq, Nat.testBit_eq_decide_div_mod_eq]

theorem toNat_bit (x i : Nat) : (bit x i).toNat = fld x i 1 := by
  have := fld_lt x i 1
  rw [bit_eq]
  by_cases h : fld x i 1 = 1 <;> simp [h]; omega

/-! ### Causes -/

@[simp] theorem on_eq_zero_iff (b : Bool) (e : Nat) : on b e = 0 ↔ b = false ∨ e = 0 := by
  cases b <;> simp [on]

@[simp] theorem e5_ne_zero : e5 ≠ 0 := by decide
@[simp] theorem e6_ne_zero : e6 ≠ 0 := by decide
@[simp] theorem e7_ne_zero : e7 ≠ 0 := by decide
@[simp] theorem e8_ne_zero : e8 ≠ 0 := by decide
@[simp] theorem e9_ne_zero : e9 ≠ 0 := by decide

@[simp] theorem qZ_eq_zero_iff (x : Nat) : qZ x = 0 ↔ x = 0 := by simp [qZ]

@[simp] theorem qNoWS_zero : qNoWS 0 = 0 := rfl

/-! ### Registers and operands (R44) -/

theorem encO_lt (o : Opnd) : encO o < 2 ^ 11 := by cases o <;> simp only [encO] <;> omega
theorem encV_lt (v : VReg) : encV v < 2 ^ 11 := by unfold encV; omega

theorem isS_iff (x : Nat) : isS x = true ↔ x < 0x400 := by simp [isS]
theorem isV_iff (x : Nat) : isV x = true ↔ 0x400 ≤ x ∧ x < 0x500 := by simp [isV]
theorem isL_iff (x : Nat) : isL x = true ↔ 0x500 ≤ x ∧ x < 0x504 := by simp [isL]
theorem isRsv_iff (x : Nat) : isRsv x = true ↔ 0x504 ≤ x ∧ x < 0x600 := by simp [isRsv]
theorem isI_iff (x : Nat) : isI x = true ↔ 0x600 ≤ x := by simp [isI]

theorem opd_of_lt {x : Nat} (h : x < 0x400) : opd x = .s (.ofNat 10 x) := if_pos h
theorem opd_vec {x : Nat} (h : 0x400 ≤ x) (h' : x < 0x500) : opd x = .v (.ofNat 8 (x - 0x400)) := by
  rw [opd, if_neg (by omega), if_pos h']
theorem opd_latch {x : Nat} (h : 0x500 ≤ x) (h' : x < 0x600) : opd x = .l (.ofNat 2 (x - 0x500)) := by
  rw [opd, if_neg (by omega), if_neg (by omega), if_pos h']
theorem opd_imm {x : Nat} (h : 0x600 ≤ x) : opd x = .imm (.ofNat 9 x) := by
  rw [opd, if_neg (by omega), if_neg (by omega), if_neg (by omega)]

@[simp] theorem opd_encO (o : Opnd) : opd (encO o) = o := by
  rcases o with n | n | n | n <;> have hn := n.isLt <;> simp only [encO]
  · rw [opd_of_lt (by omega), BitVec.ofNat_toNat, BitVec.setWidth_eq]
  · rw [opd_vec (by omega) (by omega), Nat.add_sub_cancel_left, BitVec.ofNat_toNat, BitVec.setWidth_eq]
  · rw [opd_latch (by omega) (by omega), Nat.add_sub_cancel_left, BitVec.ofNat_toNat, BitVec.setWidth_eq]
  · rw [opd_imm (by omega)]
    congr 1
    apply BitVec.eq_of_toNat_eq
    rw [BitVec.toNat_ofNat]
    omega

theorem encO_opd {x : Nat} (hx : x < 2 ^ 11) (h : isRsv x = false) : encO (opd x) = x := by
  have hr : ¬ (0x504 ≤ x ∧ x < 0x600) := by simp [← isRsv_iff, h]
  unfold opd
  split_ifs <;> simp only [encO, BitVec.toNat_ofNat] <;> omega

/-- The ranges of R44, by the kind of operand. -/
theorem encO_range (o : Opnd) : match o with
    | .s _ => encO o < 0x400
    | .v _ => 0x400 ≤ encO o ∧ encO o < 0x500
    | .l _ => 0x500 ≤ encO o ∧ encO o < 0x504
    | .imm _ => 0x600 ≤ encO o := by
  rcases o with n | n | n | n <;> simp only [encO] <;> omega

@[simp] theorem isS_encO (o : Opnd) : isS (encO o) = match o with | .s _ => true | _ => false := by
  have := encO_range o
  rw [Bool.eq_iff_iff, isS_iff]
  cases o <;> simp only [reduceCtorEq, iff_true, iff_false] at * <;> omega
@[simp] theorem isV_encO (o : Opnd) : isV (encO o) = !noVec o := by
  have := encO_range o
  rw [Bool.eq_iff_iff, isV_iff]
  cases o <;> simp [noVec] at * <;> omega
@[simp] theorem isL_encO (o : Opnd) : isL (encO o) = !noLatch o := by
  have := encO_range o
  rw [Bool.eq_iff_iff, isL_iff]
  cases o <;> simp [noLatch] at * <;> omega
@[simp] theorem isI_encO (o : Opnd) : isI (encO o) = match o with | .imm _ => true | _ => false := by
  have := encO_range o
  rw [Bool.eq_iff_iff, isI_iff]
  cases o <;> simp at * <;> omega
@[simp] theorem isRsv_encO (o : Opnd) : isRsv (encO o) = false := by
  have := encO_range o
  rw [← Bool.not_eq_true, isRsv_iff]
  cases o <;> simp at * <;> omega

@[simp] theorem qAny_encO (o : Opnd) : qAny (encO o) = 0 := by simp [qAny]
@[simp] theorem qSLI7_encO (o : Opnd) : qSLI7 (encO o) = 0 ↔ noVec o = true := by simp [qSLI7]
@[simp] theorem qSLI_encO (o : Opnd) : qSLI (encO o) = 0 ↔ noVec o = true := by simp [qSLI]
@[simp] theorem qSI_encO (o : Opnd) : qSI (encO o) = 0 ↔ siOk o = true := by cases o <;> simp [qSI, siOk]
@[simp] theorem qSL_encO (o : Opnd) : qSL (encO o) = 0 ↔ slOk o = true := by cases o <;> simp [qSL, slOk, noLatch]
@[simp] theorem qVL_encO (o : Opnd) : qVL (encO o) = 0 ↔ vlOk o = true := by cases o <;> simp [qVL, vlOk, noLatch, noVec]
@[simp] theorem qEven_encO (o : Opnd) : qEven (encO o) = 0 ↔ evenOk o = true := by
  have h2 : ∀ n : VReg, (encO (.v n)) % 2 = n.toNat % 2 := fun n => by simp only [encO]; omega
  cases o <;> simp [qEven, evenOk, noLatch, noVec, h2]
  simp [encO]

/-- A field that no cause of R44 rejects is an operand's. -/
theorem qAny_iff {x : Nat} (hx : x < 2 ^ 11) : qAny x = 0 ↔ ∃ o, x = encO o :=
  ⟨fun h => ⟨opd x, (encO_opd hx (by simpa [qAny] using h)).symm⟩, by rintro ⟨o, rfl⟩; simp⟩

theorem exists_opnd {x : Nat} (hx : x < 2 ^ 11) (h : isRsv x = false) : ∃ o, x = encO o := (qAny_iff hx).1 (by simp [qAny, h])

theorem qSLI7_iff {x : Nat} (hx : x < 2 ^ 11) : qSLI7 x = 0 ↔ ∃ o, x = encO o ∧ noVec o = true := by
  refine ⟨fun h => ?_, by rintro ⟨o, rfl, ho⟩; simpa using ho⟩
  obtain ⟨o, rfl⟩ := exists_opnd hx (by simp [qSLI7] at h; exact h.1)
  exact ⟨o, rfl, by simpa using h⟩

theorem qSLI_iff {x : Nat} (hx : x < 2 ^ 11) : qSLI x = 0 ↔ ∃ o, x = encO o ∧ noVec o = true := by
  refine ⟨fun h => ?_, by rintro ⟨o, rfl, ho⟩; simpa using ho⟩
  obtain ⟨o, rfl⟩ := exists_opnd hx (by simp [qSLI] at h; exact h.1)
  exact ⟨o, rfl, by simpa using h⟩

theorem qSI_iff {x : Nat} (hx : x < 2 ^ 11) : qSI x = 0 ↔ ∃ o, x = encO o ∧ siOk o = true := by
  refine ⟨fun h => ?_, by rintro ⟨o, rfl, ho⟩; simpa using ho⟩
  obtain ⟨o, rfl⟩ := exists_opnd hx (by simp [qSI, isS, isI] at h; simp [isRsv]; omega)
  exact ⟨o, rfl, by simpa using h⟩

theorem qSL_iff {x : Nat} (hx : x < 2 ^ 11) : qSL x = 0 ↔ ∃ o, x = encO o ∧ slOk o = true := by
  refine ⟨fun h => ?_, by rintro ⟨o, rfl, ho⟩; simpa using ho⟩
  obtain ⟨o, rfl⟩ := exists_opnd hx (by simp [qSL, isS, isL] at h; simp [isRsv]; omega)
  exact ⟨o, rfl, by simpa using h⟩

theorem qVL_iff {x : Nat} (hx : x < 2 ^ 11) : qVL x = 0 ↔ ∃ o, x = encO o ∧ vlOk o = true := by
  refine ⟨fun h => ?_, by rintro ⟨o, rfl, ho⟩; simpa using ho⟩
  obtain ⟨o, rfl⟩ := exists_opnd hx (by simp [qVL, isV, isL] at h; simp [isRsv]; omega)
  exact ⟨o, rfl, by simpa using h⟩

theorem qEven_iff {x : Nat} (hx : x < 2 ^ 11) : qEven x = 0 ↔ ∃ o, x = encO o ∧ evenOk o = true := by
  refine ⟨fun h => ?_, by rintro ⟨o, rfl, ho⟩; simpa using ho⟩
  obtain ⟨o, rfl⟩ := exists_opnd hx (by simp [qEven] at h; exact h.1)
  exact ⟨o, rfl, by simpa using h⟩

/-- The number of a register, an index or an immediate. -/
theorem exists_toNat {n x : Nat} (h : x < 2 ^ n) : ∃ v : BitVec n, x = v.toNat :=
  ⟨.ofNat n x, by rw [BitVec.toNat_ofNat, Nat.mod_eq_of_lt h]⟩

@[simp] theorem sr_toNat (n : SReg) : sr n.toNat = n := by simp [sr]
@[simp] theorem pr_toNat (n : PReg) : pr n.toNat = n := by simp [pr]
@[simp] theorem vr_encV (n : VReg) : vr (encV n) = n := by simp [vr, encV]

@[simp] theorem isS_toNat (n : SReg) : isS n.toNat = true := by simp [isS]; omega
@[simp] theorem isRsv_toNat (n : SReg) : isRsv n.toNat = false := by
  rw [← Bool.not_eq_true, isRsv_iff]; omega
@[simp] theorem isV_toNat (n : SReg) : isV n.toNat = false := by
  rw [← Bool.not_eq_true, isV_iff]; omega
@[simp] theorem isV_encV (n : VReg) : isV (encV n) = true := by
  rw [isV_iff, encV]; omega
@[simp] theorem isS_encV (n : VReg) : isS (encV n) = false := by simp [isS, encV]
@[simp] theorem isRsv_encV (n : VReg) : isRsv (encV n) = false := by
  rw [← Bool.not_eq_true, isRsv_iff, encV]; omega

@[simp] theorem qS_toNat (n : SReg) : qS n.toNat = 0 := by simp [qS]
@[simp] theorem qV_encV (n : VReg) : qV (encV n) = 0 := by simp [qV]
@[simp] theorem qPair_toNat (n : SReg) : qPair n.toNat = 0 ↔ pairOk n = true := by simp [qPair, pairOk]
@[simp] theorem qS8_toNat (n : SReg) : qS8 n.toNat = 0 ↔ s8Ok n = true := by simp [qS8, s8Ok]
@[simp] theorem qPred_toNat (n : PReg) : qPred n.toNat = 0 := by simp [qPred]; omega

theorem qS_iff {x : Nat} : qS x = 0 ↔ ∃ n : SReg, x = n.toNat :=
  ⟨fun h => exists_toNat (by simpa [qS, isS] using h), by rintro ⟨n, rfl⟩; simp⟩

theorem qV_iff {x : Nat} : qV x = 0 ↔ ∃ n : VReg, x = encV n := by
  refine ⟨fun h => ?_, by rintro ⟨n, rfl⟩; simp⟩
  simp [qV, isV] at h
  obtain ⟨v, hv⟩ := exists_toNat (n := 8) (x := x - 0x400) (by omega)
  exact ⟨v, by unfold encV; omega⟩

theorem qPair_iff {x : Nat} : qPair x = 0 ↔ ∃ n : SReg, x = n.toNat ∧ pairOk n = true := by
  refine ⟨fun h => ?_, by rintro ⟨n, rfl, hn⟩; simpa using hn⟩
  obtain ⟨n, rfl⟩ := qS_iff.1 (show qS x = 0 by
    simp only [qPair, Nat.or_eq_zero_iff, on_eq_zero_iff, e5_ne_zero, e8_ne_zero, or_false] at h
    simp [h.1] at h
    simp [qS, h])
  exact ⟨n, rfl, by simpa using h⟩

theorem qS8_iff {x : Nat} : qS8 x = 0 ↔ ∃ n : SReg, x = n.toNat ∧ s8Ok n = true := by
  refine ⟨fun h => ?_, by rintro ⟨n, rfl, hn⟩; simpa using hn⟩
  obtain ⟨n, rfl⟩ := qS_iff.1 (show qS x = 0 by simp [qS8] at h; simp [qS, h])
  exact ⟨n, rfl, by simpa using h⟩

theorem qPred_iff {x : Nat} : qPred x = 0 ↔ ∃ n : PReg, x = n.toNat :=
  ⟨fun h => exists_toNat (by simp [qPred] at h; omega), by rintro ⟨n, rfl⟩; simp⟩

/-! ### Destinations (R45, R46) -/

theorem encD_lt (d : Dst) : encD d < 2 ^ 11 := by cases d <;> simp only [encD] <;> omega
theorem encWs_lt (d : Dst) : encWs d < 2 ^ 1 := by cases d <;> simp [encWs]
theorem encOV_lt (d : Option VReg) : encOV d < 2 ^ 11 := by cases d <;> simp only [encOV, encV] <;> omega
theorem encOS_lt (d : Option SReg) : encOS d < 2 ^ 11 := by cases d <;> simp only [encOS] <;> omega
theorem encOWs_lt {α : Type} (d : Option α) : encOWs d < 2 ^ 1 := by cases d <;> simp [encOWs]
theorem encC_lt (d : CmpDst) : encC d < 2 ^ 8 := by unfold encC; omega

@[simp] theorem dstOf_encD (d : Dst) : dstOf (encWs d) (encD d) = d := by
  rcases d with n | n | _
  · simp [dstOf, encWs, encD, n.isLt]
  · simp [dstOf, encWs, encD]
  · rfl
@[simp] theorem isS_encD (d : Dst) : isS (encD d) = dstS0 d := by
  rcases d with n | n | _
  · exact isS_toNat n
  · exact isS_encV n
  · decide
@[simp] theorem isV_encD (d : Dst) : isV (encD d) = !dstS d := by
  rcases d with n | n | _
  · exact isV_toNat n
  · exact isV_encV n
  · decide
@[simp] theorem isRsv_encD (d : Dst) : isRsv (encD d) = false := by
  rcases d with n | n | _
  · exact isRsv_toNat n
  · exact isRsv_encV n
  · decide
@[simp] theorem qDst_encD (d : Dst) : qDst (encWs d) (encD d) = 0 := by
  cases d <;> simp [qDst, dstS0, dstS] <;> simp [encWs, encD]
@[simp] theorem qDstS_encD (d : Dst) : qDstS (encWs d) (encD d) = 0 ↔ dstS d = true := by simp [qDstS]
@[simp] theorem qDstS0_encD (d : Dst) : qDstS0 (encWs d) (encD d) = 0 ↔ dstS0 d = true := by
  cases d <;> simp [qDstS0, dstS0]
  simp [encWs]
@[simp] theorem qDstS0_toNat (n : SReg) : qDstS0 0 n.toNat = 0 := by simp [qDstS0]
@[simp] theorem qDstV0_encV (n : VReg) : qDstV0 0 (encV n) = 0 := by simp [qDstV0]
@[simp] theorem qDstV_encOV (d : Option VReg) : qDstV (encOWs d) (encOV d) = 0 := by
  rcases d with _ | n
  · decide
  · simp [qDstV, qDst, encOV, encOWs]
@[simp] theorem vdst_encOV (d : Option VReg) : vdst (encOWs d) (encOV d) = d := by
  cases d <;> simp [vdst, encOV, encOWs]
@[simp] theorem sdst_encOS (d : Option SReg) : sdst (encOWs d) (encOS d) = d := by
  cases d <;> simp [sdst, encOS, encOWs]
@[simp] theorem qDstP_toNat (n : SReg) : qDstP 0 n.toNat = 0 ↔ pairOk n = true := by
  have : n.toNat ≠ 0x7FF := by omega
  simp [qDstP, pairOk, this]
@[simp] theorem qDstP_encD (d : Dst) : qDstP (encWs d) (encD d) = 0 ↔ dstPair d = true := by
  rcases d with n | n | _
  · exact qDstP_toNat n
  · simp [qDstP, dstPair, dstS0]
  · decide
@[simp] theorem qDstPW_encOS (d : Option SReg) : qDstPW (encOWs d) (encOS d) = 0 ↔ optPair d = true := by
  rcases d with _ | n
  · decide
  · simp [qDstPW, encOWs, encOS, optPair, pairOk]
    exact decide_eq_true_iff
@[simp] theorem cmpd_encC (d : CmpDst) : cmpd (encC d) = d := by
  obtain ⟨c, k⟩ := d
  simp only [cmpd, encC, pr, CmpDst.mk.injEq]
  constructor <;> apply BitVec.eq_of_toNat_eq <;> rw [BitVec.toNat_ofNat] <;> omega
@[simp] theorem qCmp_encC (d : CmpDst) : qCmp 0 (encC d) = 0 ↔ cmpOk d = true := by
  obtain ⟨c, k⟩ := d
  have h1 : (c.toNat + 16 * k.toNat) % 16 = c.toNat := by omega
  have h2 : (c.toNat + 16 * k.toNat) / 16 % 16 = k.toNat := by omega
  have h3 : ¬ 256 ≤ c.toNat + 16 * k.toNat := by omega
  simp [qCmp, encC, h1, h2, h3, cmpOk, ← BitVec.toNat_inj]
  tauto
@[simp] theorem qPP_toNat (p : CmpDst) : qPP p.c.toNat p.k.toNat = 0 ↔ cmpOk p = true := by
  simp [qPP, cmpOk, ← BitVec.toNat_inj]
  tauto

/-! ### Vector sources (R49) -/

theorem qVS_encD (d : Dst) (l : List Opnd) : qVS (encD d) (l.map encO) = 0 ↔ vsOk d l = true := by
  have : (l.map encO).any isV = l.any fun a => !noVec a := by
    induction l with
    | nil => rfl
    | cons a l ih => simp [ih]
  rw [qVS, on_eq_zero_iff, isS_encD, this, vsOk]
  simp only [e7_ne_zero, or_false, Bool.not_eq_true']
@[simp] theorem qVS_one (d : Dst) (a : Opnd) : qVS (encD d) [encO a] = 0 ↔ vsOk d [a] = true := qVS_encD d [a]
@[simp] theorem qVS_two (d : Dst) (a b : Opnd) : qVS (encD d) [encO a, encO b] = 0 ↔ vsOk d [a, b] = true := qVS_encD d [a, b]
@[simp] theorem qVS_three (d : Dst) (a b c : Opnd) : qVS (encD d) [encO a, encO b, encO c] = 0 ↔ vsOk d [a, b, c] = true :=
  qVS_encD d [a, b, c]

/-- A destination that no cause of R45 rejects. -/
theorem qDst_iff {ws d : Nat} (hw : ws < 2 ^ 1) : qDst ws d = 0 ↔ ∃ D, ws = encWs D ∧ d = encD D := by
  refine ⟨fun h => ?_, by rintro ⟨D, rfl, rfl⟩; simp⟩
  simp only [qDst, Nat.or_eq_zero_iff, on_eq_zero_iff, e5_ne_zero, e6_ne_zero, or_false] at h
  obtain ⟨hr, hk⟩ := h
  obtain rfl | rfl : ws = 0 ∨ ws = 1 := by omega
  · simp [hr, isS, isV] at hk
    by_cases hs : d < 0x400
    · obtain ⟨n, rfl⟩ := exists_toNat (n := 10) hs
      exact ⟨.s n, rfl, rfl⟩
    · obtain ⟨n, rfl⟩ := qV_iff.1 (show qV d = 0 by simp [qV, isV]; omega)
      exact ⟨.v n, rfl, rfl⟩
  · simp [hr] at hk
    exact ⟨.none, rfl, hk⟩

theorem qDstS_iff {ws d : Nat} (hw : ws < 2 ^ 1) : qDstS ws d = 0 ↔ ∃ D, ws = encWs D ∧ d = encD D ∧ dstS D = true := by
  refine ⟨fun h => ?_, by rintro ⟨D, rfl, rfl, hD⟩; simpa using hD⟩
  obtain ⟨D, rfl, rfl⟩ := (qDst_iff hw).1 (by simp only [qDstS, Nat.or_eq_zero_iff] at h; exact h.1)
  exact ⟨D, rfl, rfl, by simpa using h⟩

theorem qDstS0_iff {ws d : Nat} (hw : ws < 2 ^ 1) : qDstS0 ws d = 0 ↔ ws = 0 ∧ ∃ n : SReg, d = n.toNat := by
  refine ⟨fun h => ?_, by rintro ⟨rfl, n, rfl⟩; simp⟩
  simp only [qDstS0, Nat.or_eq_zero_iff, on_eq_zero_iff, e5_ne_zero, e6_ne_zero, or_false] at h
  obtain ⟨hr, hk⟩ := h
  simp [hr] at hk
  exact ⟨by omega, qS_iff.1 (by simp [qS, hk])⟩

theorem qDstV0_iff {ws d : Nat} (hw : ws < 2 ^ 1) : qDstV0 ws d = 0 ↔ ws = 0 ∧ ∃ n : VReg, d = encV n := by
  refine ⟨fun h => ?_, by rintro ⟨rfl, n, rfl⟩; simp⟩
  simp only [qDstV0, Nat.or_eq_zero_iff, on_eq_zero_iff, e5_ne_zero, e6_ne_zero, or_false] at h
  obtain ⟨hr, hk⟩ := h
  simp [hr] at hk
  exact ⟨by omega, qV_iff.1 (by simp [qV, hk])⟩

theorem qDstV_iff {ws d : Nat} (hw : ws < 2 ^ 1) : qDstV ws d = 0 ↔ ∃ D : Option VReg, ws = encOWs D ∧ d = encOV D := by
  refine ⟨fun h => ?_, by rintro ⟨D, rfl, rfl⟩; simp⟩
  simp only [qDstV, Nat.or_eq_zero_iff, on_eq_zero_iff, e6_ne_zero, or_false] at h
  obtain ⟨D, rfl, rfl⟩ := (qDst_iff hw).1 h.1
  rcases D with n | n | _
  · simp [dstS0] at h
  · exact ⟨some n, rfl, rfl⟩
  · exact ⟨none, rfl, rfl⟩

theorem qDstP_iff {ws d : Nat} (hw : ws < 2 ^ 1) : qDstP ws d = 0 ↔ ws = 0 ∧ ∃ n : SReg, d = n.toNat ∧ pairOk n = true := by
  refine ⟨fun h => ?_, by rintro ⟨rfl, n, rfl, hn⟩; simpa using hn⟩
  simp only [qDstP, Nat.or_eq_zero_iff, on_eq_zero_iff, e5_ne_zero, e6_ne_zero, e8_ne_zero, or_false] at h
  obtain ⟨⟨hr, hk⟩, hp⟩ := h
  simp [hr] at hk hp
  obtain ⟨hs0, hs⟩ := hk hp.1
  obtain ⟨n, rfl⟩ := qS_iff.1 (show qS d = 0 by simp [qS, hs])
  exact ⟨by omega, n, rfl, by simpa [pairOk] using hp.2⟩

theorem qDstPW_iff {ws d : Nat} (hw : ws < 2 ^ 1) :
    qDstPW ws d = 0 ↔ ∃ D : Option SReg, ws = encOWs D ∧ d = encOS D ∧ optPair D = true := by
  refine ⟨fun h => ?_, by rintro ⟨D, rfl, rfl, hD⟩; simpa using hD⟩
  simp only [qDstPW, Nat.or_eq_zero_iff, on_eq_zero_iff, e5_ne_zero, e6_ne_zero, e8_ne_zero, or_false] at h
  obtain ⟨⟨hr, hk⟩, hp⟩ := h
  obtain rfl | rfl : ws = 0 ∨ ws = 1 := by omega
  · simp [hr] at hp
    obtain ⟨n, rfl⟩ := qS_iff.1 (show qS d = 0 by simp [qS, hp])
    exact ⟨some n, rfl, rfl, by simpa [optPair, pairOk] using hp⟩
  · simp [hr] at hk
    exact ⟨none, rfl, hk, rfl⟩

theorem qCmp_iff {ws d : Nat} (hw : ws < 2 ^ 1) : qCmp ws d = 0 ↔ ws = 0 ∧ ∃ p, d = encC p ∧ cmpOk p = true := by
  refine ⟨fun h => ?_, by rintro ⟨rfl, p, rfl, hp⟩; simpa using hp⟩
  have hlt : ws = 0 ∧ d < 256 := by simp [qCmp] at h; omega
  obtain ⟨rfl, hd⟩ := hlt
  obtain ⟨c, hc⟩ := exists_toNat (n := 4) (x := d % 16) (by omega)
  obtain ⟨k, hk⟩ := exists_toNat (n := 4) (x := d / 16) (by omega)
  obtain rfl : d = encC ⟨c, k⟩ := by simp only [encC]; omega
  exact ⟨rfl, _, rfl, by simpa using h⟩

theorem qPP_iff {c k : Nat} (hc : c < 2 ^ 4) (hk : k < 2 ^ 4) :
    qPP c k = 0 ↔ ∃ p : CmpDst, c = p.c.toNat ∧ k = p.k.toNat ∧ cmpOk p = true := by
  refine ⟨fun h => ?_, by rintro ⟨p, rfl, rfl, hp⟩; simpa using hp⟩
  obtain ⟨c, rfl⟩ := exists_toNat hc
  obtain ⟨k, rfl⟩ := exists_toNat hk
  exact ⟨⟨c, k⟩, rfl, rfl, (qPP_toNat ⟨c, k⟩).1 h⟩

/-! ### The header (R41, R47, R48, R50) -/

@[simp] theorem hdr_fields (h : Hdr) : (⟨pr h.gp.toNat, h.gn.toNat = 1, h.ch.toNat = 1⟩ : Hdr) = h := by
  rcases h with ⟨g, _ | _, _ | _⟩ <;> simp

theorem exists_bool {x : Nat} (h : x < 2 ^ 1) : ∃ b : Bool, x = b.toNat := by
  obtain rfl | rfl : x = 0 ∨ x = 1 := by omega
  · exact ⟨false, rfl⟩
  · exact ⟨true, rfl⟩

/-- The fields of an instruction with header `h` (R41); bit 19 is zero (R48). -/
@[reducible] def rF (len op : Nat) (h : Hdr) (ac ws d a b fn hi : Nat) : Raw :=
  ⟨len, op, h.gp.toNat, h.gn.toNat, h.ch.toNat, ac, ws, 0, d, a, b, fn, hi⟩

/-- What the shared fields of an accepted word satisfy: each fits its bits, the length code and the accuracy class are ones
that the opcode admits (R47, R56), and a chain bit stands only where R50 allows it. -/
structure FieldsOk (len op : Nat) (h : Hdr) (ac ws d a b fn hi : Nat) : Prop where
  len_lt : len < 3
  op_lt : op < 2 ^ 8
  ws_lt : ws < 2 ^ 1
  d_lt : d < 2 ^ 11
  a_lt : a < 2 ^ 11
  b_lt : b < 2 ^ 11
  fn_lt : fn < 2 ^ 11
  hi_lt : hi < 2 ^ (32 * len)
  ac_lt : ac < 3
  ac_ok : ac = 0 ∨ acOk op = true
  ch_ok : h.ch = false ∨ chOk op = true
  lens : (lensOf op).testBit len = true

section
variable {len op : Nat} {h : Hdr} {ac ws d a b fn hi : Nat}

theorem FieldsOk.fits (hs : FieldsOk len op h ac ws d a b fn hi) : (rF len op h ac ws d a b fn hi).Fits where
  len := hs.len_lt
  op := hs.op_lt
  gp := h.gp.isLt
  gn := Bool.toNat_lt h.gn
  ch := Bool.toNat_lt h.ch
  ac := Nat.lt_succ_of_lt hs.ac_lt
  ws := hs.ws_lt
  b19 := Nat.two_pos
  d := hs.d_lt
  a := hs.a_lt
  b := hs.b_lt
  fn := hs.fn_lt
  hi := hs.hi_lt

theorem qHdr_rF : qHdr (rF len op h ac ws d a b fn hi) = 0 ↔ (ac ≠ 3 ∧ (ac = 0 ∨ acOk op = true)) ∧ (h.ch = false ∨ chOk op = true) := by
  cases hc : h.ch <;> simp [qHdr, hc] <;> tauto

theorem FieldsOk.qHdr_eq_zero (hs : FieldsOk len op h ac ws d a b fn hi) : qHdr (rF len op h ac ws d a b fn hi) = 0 :=
  qHdr_rF.2 ⟨⟨Nat.ne_of_lt hs.ac_lt, hs.ac_ok⟩, hs.ch_ok⟩

@[simp] theorem hdrOf_rF : hdrOf (rF len op h ac ws d a b fn hi) = h := hdr_fields h

/-- Every word that passes the checks of the shared fields has such fields. -/
theorem exists_fieldsOk {r : Raw} (hf : r.Fits) (hl : (lensOf r.op).testBit r.len = true) (hq : qHdr r = 0) :
    ∃ h, r = rF r.len r.op h r.ac r.ws r.d r.a r.b r.fn r.hi ∧ FieldsOk r.len r.op h r.ac r.ws r.d r.a r.b r.fn r.hi := by
  obtain ⟨gp, hgp⟩ := exists_toNat hf.gp
  obtain ⟨gn, hgn⟩ := exists_bool hf.gn
  obtain ⟨ch, hch⟩ := exists_bool hf.ch
  have hb : r.b19 = 0 := by
    have := hf.b19
    simp [qHdr] at hq
    omega
  have hr : r = rF r.len r.op ⟨gp, gn, ch⟩ r.ac r.ws r.d r.a r.b r.fn r.hi := by
    rw [rF, ← hgp, ← hgn, ← hch, ← hb]
  rw [hr] at hq
  obtain ⟨⟨hac, hao⟩, hco⟩ := qHdr_rF.1 hq
  have := hf.ac
  exact ⟨_, hr, hf.len, hf.op, hf.ws, hf.d, hf.a, hf.b, hf.fn, hf.hi, by omega, hao, hco, hl⟩

theorem FieldsOk.noAC {k : Nat} (hs : FieldsOk len op h ac ws d a b fn hi) (hop : op = k) (hk : acOk k = false) : ac = 0 := by
  subst hop
  simpa [hk] using hs.ac_ok

theorem FieldsOk.exists_ac (hs : FieldsOk len op h ac ws d a b fn hi) : ∃ c, ac = encAC c := acCodec.exists_enc hs.ac_lt

/-- An opcode of one length (R56). -/
theorem FieldsOk.short {k : Nat} (hs : FieldsOk len op h ac ws d a b fn hi) (hop : op = k) (hk : lensOf k = 1) : len = 0 ∧ hi = 0 := by
  obtain ⟨h1, -, -, -, -, -, -, h2, -, -, -, h3⟩ := hs
  rw [hop, hk] at h3
  obtain rfl | rfl | rfl : len = 0 ∨ len = 1 ∨ len = 2 := by omega
  · exact ⟨rfl, by omega⟩
  · exact absurd h3 (by decide)
  · exact absurd h3 (by decide)

theorem FieldsOk.long {k : Nat} (hs : FieldsOk len op h ac ws d a b fn hi) (hop : op = k) (hk : lensOf k = 2) : len = 1 ∧ hi < 2 ^ 32 := by
  obtain ⟨h1, -, -, -, -, -, -, h2, -, -, -, h3⟩ := hs
  rw [hop, hk] at h3
  obtain rfl | rfl | rfl : len = 0 ∨ len = 1 ∨ len = 2 := by omega
  · exact absurd h3 (by decide)
  · exact ⟨rfl, by omega⟩
  · exact absurd h3 (by decide)

theorem FieldsOk.ext {k : Nat} (hs : FieldsOk len op h ac ws d a b fn hi) (hop : op = k) (hk : lensOf k = 4) : len = 2 ∧ hi < 2 ^ 64 := by
  obtain ⟨h1, -, -, -, -, -, -, h2, -, -, -, h3⟩ := hs
  rw [hop, hk] at h3
  obtain rfl | rfl | rfl : len = 0 ∨ len = 1 ∨ len = 2 := by omega
  · exact absurd h3 (by decide)
  · exact absurd h3 (by decide)
  · exact ⟨rfl, by omega⟩

theorem FieldsOk.either {k : Nat} (hs : FieldsOk len op h ac ws d a b fn hi) (hop : op = k) (hk : lensOf k = 3) :
    len = 0 ∧ hi = 0 ∨ len = 1 ∧ hi < 2 ^ 32 := by
  obtain ⟨h1, -, -, -, -, -, -, h2, -, -, -, h3⟩ := hs
  rw [hop, hk] at h3
  obtain rfl | rfl | rfl : len = 0 ∨ len = 1 ∨ len = 2 := by omega
  · exact .inl ⟨rfl, by omega⟩
  · exact .inr ⟨rfl, by omega⟩
  · exact absurd h3 (by decide)

theorem qNoWS_iff {ws : Nat} (h : ws < 2 ^ 1) : qNoWS ws = 0 ↔ ws = 0 := by
  simp [qNoWS]; omega

/-- What a field is when the cause named is not met, for the fields of a word. -/
theorem FieldsOk.causes (hs : FieldsOk len op h ac ws d a b fn hi) :
    (qNoWS ws = 0 ↔ ws = 0) ∧
    (qDst ws d = 0 ↔ ∃ D, ws = encWs D ∧ d = encD D) ∧
    (qDstS ws d = 0 ↔ ∃ D, ws = encWs D ∧ d = encD D ∧ dstS D = true) ∧
    (qDstS0 ws d = 0 ↔ ws = 0 ∧ ∃ n : SReg, d = n.toNat) ∧
    (qDstV0 ws d = 0 ↔ ws = 0 ∧ ∃ n : VReg, d = encV n) ∧
    (qDstV ws d = 0 ↔ ∃ D : Option VReg, ws = encOWs D ∧ d = encOV D) ∧
    (qDstP ws d = 0 ↔ ws = 0 ∧ ∃ n : SReg, d = n.toNat ∧ pairOk n = true) ∧
    (qDstPW ws d = 0 ↔ ∃ D : Option SReg, ws = encOWs D ∧ d = encOS D ∧ optPair D = true) ∧
    (qCmp ws d = 0 ↔ ws = 0 ∧ ∃ p, d = encC p ∧ cmpOk p = true) ∧
    (∀ x, x < 2 ^ 11 → (qAny x = 0 ↔ ∃ o, x = encO o) ∧
      (qSLI7 x = 0 ↔ ∃ o, x = encO o ∧ noVec o = true) ∧
      (qSLI x = 0 ↔ ∃ o, x = encO o ∧ noVec o = true) ∧
      (qSI x = 0 ↔ ∃ o, x = encO o ∧ siOk o = true) ∧
      (qSL x = 0 ↔ ∃ o, x = encO o ∧ slOk o = true) ∧
      (qVL x = 0 ↔ ∃ o, x = encO o ∧ vlOk o = true)) ∧
    (∀ x, (qS x = 0 ↔ ∃ n : SReg, x = n.toNat) ∧
      (qV x = 0 ↔ ∃ n : VReg, x = encV n) ∧
      (qPair x = 0 ↔ ∃ n : SReg, x = n.toNat ∧ pairOk n = true) ∧
      (qS8 x = 0 ↔ ∃ n : SReg, x = n.toNat ∧ s8Ok n = true) ∧
      (qPred x = 0 ↔ ∃ n : PReg, x = n.toNat)) ∧
    d < 2048 ∧ a < 2048 ∧ b < 2048 :=
  ⟨qNoWS_iff hs.ws_lt, qDst_iff hs.ws_lt, qDstS_iff hs.ws_lt, qDstS0_iff hs.ws_lt, qDstV0_iff hs.ws_lt, qDstV_iff hs.ws_lt,
    qDstP_iff hs.ws_lt, qDstPW_iff hs.ws_lt, qCmp_iff hs.ws_lt,
    fun _ hx => ⟨qAny_iff hx, qSLI7_iff hx, qSLI_iff hx, qSI_iff hx, qSL_iff hx, qVL_iff hx⟩,
    fun _ => ⟨qS_iff, qV_iff, qPair_iff, qS8_iff, qPred_iff⟩, hs.d_lt, hs.a_lt, hs.b_lt⟩

theorem FieldsOk.noCh {k : Nat} (hs : FieldsOk len op h ac ws d a b fn hi) (hop : op = k) (hk : chOk k = false) : h.ch = false := by
  subst hop
  simpa [hk] using hs.ch_ok
end

theorem eq_noHdr {h : Hdr} (hg : h.gp.toNat = 0) (hn : h.gn = false) (hc : h.ch = false) : h = noHdr := by
  rcases h with ⟨g, _ | _, _ | _⟩ <;> simp at hn hc
  rw [noHdr, ← BitVec.eq_of_toNat_eq (x := g) (y := 0) hg]

/-- The immediate of a word with the fields named. -/
@[simp] theorem rF_imm {len op : Nat} {h : Hdr} {ac ws d a b fn hi : Nat} :
    (rF len op h ac ws d a b fn hi).imm = BitVec.ofNat 32 hi := rfl

@[simp] theorem encO_lt_2048 (o : Opnd) : encO o < 2048 := encO_lt o
@[simp] theorem encV_lt_2048 (v : VReg) : encV v < 2048 := encV_lt v
@[simp] theorem encD_lt_2048 (d : Dst) : encD d < 2048 := encD_lt d
@[simp] theorem encOV_lt_2048 (d : Option VReg) : encOV d < 2048 := encOV_lt d
@[simp] theorem encOS_lt_2048 (d : Option SReg) : encOS d < 2048 := encOS_lt d
@[simp] theorem encC_lt_2048 (p : CmpDst) : encC p < 2048 := (encC_lt p).trans (by decide)
@[simp] theorem sreg_lt_2048 (n : SReg) : n.toNat < 2048 := by omega
@[simp] theorem word_lt (x : Word) : x.toNat < 4294967296 := x.isLt
@[simp] theorem encWs_le_one (d : Dst) : encWs d ≤ 1 := Nat.le_of_lt_succ (encWs_lt d)
@[simp] theorem encOWs_le_one {α : Type} (d : Option α) : encOWs d ≤ 1 := Nat.le_of_lt_succ (encOWs_lt d)

/-- The encoder gives `i` a word with the fields named, and the decoder reads that word back as `i` and meets no cause. -/
def Reads (i : Instr) : Prop :=
  ∃ len op h ac ws d a b fn hi, encRaw i = some (rF len op h ac ws d a b fn hi) ∧
    decOp (rF len op h ac ws d a b fn hi) = (0, i) ∧
    (h.ch = false ∨ chOk op = true → FieldsOk len op h ac ws d a b fn hi)

theorem reads_of {i : Instr} (len op : Nat) (h : Hdr) (ac ws d a b fn hi : Nat)
    (enc : encRaw i = some (rF len op h ac ws d a b fn hi)) (dec : decOp (rF len op h ac ws d a b fn hi) = (0, i))
    (hfn : fn < 2 ^ 11 := by simp) (hhi : hi < 2 ^ (32 * len) := by simp)
    (hop : len < 3 ∧ op < 256 ∧ (lensOf op).testBit len = true := by decide)
    (hac : ac < 3 ∧ (ac = 0 ∨ acOk op = true) := by simp)
    (hws : ws ≤ 1 := by simp) (hd : d < 2 ^ 11 := by simp) (ha : a < 2 ^ 11 := by simp) (hb : b < 2 ^ 11 := by simp) :
    Reads i := by
  obtain ⟨hl, ho, hb⟩ := hop
  exact ⟨len, op, h, ac, ws, d, a, b, fn, hi, enc, dec, fun hc =>
    ⟨hl, ho, by omega, hd, ha, ‹_›, hfn, hhi, hac.1, hac.2, hc, ‹_›⟩⟩

section
variable {i : Instr} {op : Nat} {h : Hdr} {fn : Nat}

theorem reads_dab {d : Dst} {a b : Opnd} (enc : encRaw i = some (rDab op h d a b fn))
    (dec : decOp (rF 0 op h 0 (encWs d) (encD d) (encO a) (encO b) fn 0) = (0, i))
    (hfn : fn < 2 ^ 11 := by simp)
    (hop : 0 < 3 ∧ op < 256 ∧ (lensOf op).testBit 0 = true := by decide) : Reads i :=
  reads_of 0 op h 0 (encWs d) (encD d) (encO a) (encO b) fn 0 enc dec hfn (hop := hop)

theorem reads_dab_ac {c : AC} {d : Dst} {a b : Opnd} (enc : encRaw i = some { rDab op h d a b fn with ac := encAC c })
    (dec : decOp (rF 0 op h (encAC c) (encWs d) (encD d) (encO a) (encO b) fn 0) = (0, i))
    (hfn : fn < 2 ^ 11 := by simp)
    (hop : 0 < 3 ∧ op < 256 ∧ (lensOf op).testBit 0 = true := by decide) (hac : acOk op = true := by decide) : Reads i :=
  reads_of 0 op h (encAC c) (encWs d) (encD d) (encO a) (encO b) fn 0 enc dec hfn (hop := hop) (hac := ⟨acCodec.enc_lt c, .inr hac⟩)

theorem reads_dai {d : Dst} {a : Opnd} {x : Word} (enc : encRaw i = some (rDai op h d a x fn))
    (dec : decOp (rF 1 op h 0 (encWs d) (encD d) (encO a) 0 fn x.toNat) = (0, i))
    (hfn : fn < 2 ^ 11 := by simp)
    (hop : 1 < 3 ∧ op < 256 ∧ (lensOf op).testBit 1 = true := by decide) : Reads i :=
  reads_of 1 op h 0 (encWs d) (encD d) (encO a) 0 fn x.toNat enc dec hfn (hop := hop)

theorem reads_dai_ac {c : AC} {d : Dst} {a : Opnd} {x : Word} (enc : encRaw i = some { rDai op h d a x fn with ac := encAC c })
    (dec : decOp (rF 1 op h (encAC c) (encWs d) (encD d) (encO a) 0 fn x.toNat) = (0, i))
    (hfn : fn < 2 ^ 11 := by simp)
    (hop : 1 < 3 ∧ op < 256 ∧ (lensOf op).testBit 1 = true := by decide) (hac : acOk op = true := by decide) : Reads i :=
  reads_of 1 op h (encAC c) (encWs d) (encD d) (encO a) 0 fn x.toNat enc dec hfn (hop := hop) (hac := ⟨acCodec.enc_lt c, .inr hac⟩)

theorem reads_da {d : Dst} {a : Opnd} (enc : encRaw i = some (rDa op h d a fn))
    (dec : decOp (rF 0 op h 0 (encWs d) (encD d) (encO a) 0 fn 0) = (0, i))
    (hfn : fn < 2 ^ 11 := by simp)
    (hop : 0 < 3 ∧ op < 256 ∧ (lensOf op).testBit 0 = true := by decide) : Reads i :=
  reads_of 0 op h 0 (encWs d) (encD d) (encO a) 0 fn 0 enc dec hfn (hop := hop)
end

section
variable {i : Instr} {op : Nat} {h : Hdr} {fn : Nat}

theorem reads_dabc {d : Dst} {a b c : Opnd} {mod : Nat} (enc : encRaw i = some (rDabc op h d a b c fn mod))
    (dec : decOp (rF 1 op h 0 (encWs d) (encD d) (encO a) (encO b) fn (encO c + mod)) = (0, i))
    (hfn : fn < 2 ^ 11 := by simp) (hmod : encO c + mod < 2 ^ 32 := by simp)
    (hop : 1 < 3 ∧ op < 256 ∧ (lensOf op).testBit 1 = true := by decide) : Reads i :=
  reads_of 1 op h 0 (encWs d) (encD d) (encO a) (encO b) fn (encO c + mod) enc dec hfn (hop := hop) (hhi := hmod)

theorem reads_dabc_ac {x : AC} {d : Dst} {a b c : Opnd} {mod : Nat}
    (enc : encRaw i = some { rDabc op h d a b c fn mod with ac := encAC x })
    (dec : decOp (rF 1 op h (encAC x) (encWs d) (encD d) (encO a) (encO b) fn (encO c + mod)) = (0, i))
    (hfn : fn < 2 ^ 11 := by simp) (hmod : encO c + mod < 2 ^ 32 := by simp)
    (hop : 1 < 3 ∧ op < 256 ∧ (lensOf op).testBit 1 = true := by decide) (hac : acOk op = true := by decide) : Reads i :=
  reads_of 1 op h (encAC x) (encWs d) (encD d) (encO a) (encO b) fn (encO c + mod) enc dec hfn (hop := hop) (hhi := hmod)
    (hac := ⟨acCodec.enc_lt x, .inr hac⟩)

theorem reads_d {d : Dst} (enc : encRaw i = some (rD op h d fn))
    (dec : decOp (rF 0 op h 0 (encWs d) (encD d) 0 0 fn 0) = (0, i)) (hfn : fn < 2 ^ 11 := by simp)
    (hop : 0 < 3 ∧ op < 256 ∧ (lensOf op).testBit 0 = true := by decide) : Reads i :=
  reads_of 0 op h 0 (encWs d) (encD d) 0 0 fn 0 enc dec hfn (hop := hop)

theorem reads_cab {p : CmpDst} {a b : Opnd} (enc : encRaw i = some (rCab op h p a b fn))
    (dec : decOp (rF 0 op h 0 0 (encC p) (encO a) (encO b) fn 0) = (0, i)) (hfn : fn < 2 ^ 11 := by simp)
    (hop : 0 < 3 ∧ op < 256 ∧ (lensOf op).testBit 0 = true := by decide) : Reads i :=
  reads_of 0 op h 0 0 (encC p) (encO a) (encO b) fn 0 enc dec hfn (hop := hop)

theorem reads_cai {p : CmpDst} {a : Opnd} {x : Word} (enc : encRaw i = some (rCai op h p a x fn))
    (dec : decOp (rF 1 op h 0 0 (encC p) (encO a) 0 fn x.toNat) = (0, i)) (hfn : fn < 2 ^ 11 := by simp)
    (hop : 1 < 3 ∧ op < 256 ∧ (lensOf op).testBit 1 = true := by decide) : Reads i :=
  reads_of 1 op h 0 0 (encC p) (encO a) 0 fn x.toNat enc dec hfn (hop := hop)

theorem reads_n {d a b : Nat} (enc : encRaw i = some (rN op h d a b fn))
    (dec : decOp (rF 0 op h 0 0 d a b fn 0) = (0, i)) (hfn : fn < 2 ^ 11 := by simp)
    (hd : d < 2 ^ 11 := by simp) (ha : a < 2 ^ 11 := by simp) (hb : b < 2 ^ 11 := by simp)
    (hop : 0 < 3 ∧ op < 256 ∧ (lensOf op).testBit 0 = true := by decide) : Reads i :=
  reads_of 0 op h 0 0 d a b fn 0 enc dec hfn (hop := hop) (hd := hd) (ha := ha) (hb := hb)

theorem reads_x {len d a b hi : Nat} (enc : encRaw i = some (rX len op h d a b fn hi))
    (dec : decOp (rF len op h 0 0 d a b fn hi) = (0, i)) (hfn : fn < 2 ^ 11 := by simp) (hhi : hi < 2 ^ (32 * len) := by simp)
    (hd : d < 2 ^ 11 := by simp) (ha : a < 2 ^ 11 := by simp) (hb : b < 2 ^ 11 := by simp)
    (hop : len < 3 ∧ op < 256 ∧ (lensOf op).testBit len = true := by decide) : Reads i :=
  reads_of len op h 0 0 d a b fn hi enc dec hfn hhi (hop := hop) (hd := hd) (ha := ha) (hb := hb)
end

end Sys2Proof
end

section
/-! Control instructions, encoded and decoded (R78). -/

namespace Sys2Proof

/-! ### Control instructions (R78) -/

theorem toNat_ne_zero {n : Nat} {x : BitVec n} (h : (x != 0) = true) : x.toNat ≠ 0 := fun e =>
  bne_iff_ne.1 h (BitVec.eq_of_toNat_eq e)

theorem ne_zero_of_toNat {n : Nat} {x : BitVec n} (h : x.toNat ≠ 0) : (x != 0) = true :=
  bne_iff_ne.2 fun e => h (by simp [e])

theorem reads_control {i : Instr} (he : encRawControl i ≠ none) (w : operandsOk i = true) : Reads i := by
  cases i
  case nop => exact reads_n rfl rfl
  case bra h off => exact reads_x rfl (by simp [decOp, decControl])
  case brx h a => exact reads_n rfl (by simp [decOp, decControl]; exact w)
  case call h d off => exact reads_x rfl (by simp [decOp, decControl]; exact w)
  case callx h d a =>
    obtain ⟨hd, ha⟩ := Bool.and_eq_true_iff.1 w
    exact reads_n rfl (by simp [decOp, decControl, hd, ha])
  case ret h a => exact reads_n rfl (by simp [decOp, decControl]; exact w)
  case mark off => exact reads_x rfl (by simp [decOp, decControl]; decide)
  case join => exact reads_n rfl rfl
  case exit h => exact reads_n rfl (by simp [decOp, decControl])
  case yield h => exact reads_n rfl (by simp [decOp, decControl])
  case sleep h b => exact reads_n rfl (by simp [decOp, decControl]; exact w)
  case sleepImm h x => exact reads_x rfl (by simp [decOp, decControl])
  case setfmt h sel b =>
    obtain ⟨hs, hb⟩ := Bool.and_eq_true_iff.1 w
    have h0 := toNat_ne_zero hs
    have h32 : sel.toNat < 32 := sel.isLt
    exact reads_n rfl (by simp [decOp, decControl, hb, h0, h32]) (by omega)
  case setfmtImm h sel x =>
    have h0 := toNat_ne_zero (x := sel) w
    have h32 : sel.toNat < 32 := sel.isLt
    exact reads_x rfl (by simp [decOp, decControl, h0, h32]) (by omega)
  case getfmt h d => exact reads_d rfl (by simp [decOp, decControl]; exact w)
  case brk h code => exact reads_n rfl (by simp [decOp, decControl]; omega) (by omega)
  all_goals exact absurd rfl he

theorem exists_control {len op : Nat} {h : Hdr} {ac ws d a b fn hi : Nat} (hs : FieldsOk len op h ac ws d a b fn hi)
    (h16 : op ≤ 0xD) (hq : (decControl (rF len op h ac ws d a b fn hi)).1 = 0) :
    ∃ i, encRaw i = some (rF len op h ac ws d a b fn hi) ∧ operandsOk i = true := by
  obtain rfl | rfl | rfl | rfl | rfl | rfl | rfl | rfl | rfl | rfl | rfl | rfl | rfl | rfl :
    op = 0 ∨ op = 1 ∨ op = 2 ∨ op = 3 ∨ op = 4 ∨ op = 5 ∨ op = 6 ∨ op = 7 ∨ op = 8 ∨ op = 9 ∨ op = 10 ∨ op = 11
      ∨ op = 12
      ∨ op = 13 := by omega
  all_goals obtain rfl := hs.noAC rfl rfl
  · obtain ⟨rfl, rfl⟩ := hs.short rfl rfl
    simp [decControl, hs.causes, and_assoc] at hq
    obtain ⟨rfl, hg, hn, hc, -, rfl, rfl, rfl, rfl⟩ := hq
    obtain rfl := eq_noHdr hg hn hc
    exact ⟨.nop, rfl, rfl⟩
  · obtain ⟨rfl, hi'⟩ := hs.long rfl rfl
    simp [decControl, hs.causes, and_assoc] at hq
    obtain ⟨rfl, rfl, rfl, rfl, rfl⟩ := hq
    obtain ⟨x, rfl⟩ := exists_toNat hi'
    exact ⟨.bra h x, rfl, rfl⟩
  · obtain ⟨rfl, rfl⟩ := hs.short rfl rfl
    simp [decControl, hs.causes, and_assoc] at hq
    obtain ⟨rfl, rfl, ⟨n, rfl, hn⟩, rfl, rfl⟩ := hq
    exact ⟨.brx h n, rfl, hn⟩
  · obtain ⟨rfl, hi'⟩ := hs.long rfl rfl
    simp [decControl, hs.causes, and_assoc] at hq
    obtain ⟨rfl, ⟨m, rfl, hm⟩, rfl, rfl, rfl⟩ := hq
    obtain ⟨x, rfl⟩ := exists_toNat hi'
    exact ⟨.call h m x, rfl, hm⟩
  · obtain ⟨rfl, rfl⟩ := hs.short rfl rfl
    simp [decControl, hs.causes, and_assoc] at hq
    obtain ⟨rfl, ⟨m, rfl, hm⟩, ⟨n, rfl, hn⟩, rfl, rfl⟩ := hq
    exact ⟨.callx h m n, rfl, Bool.and_eq_true_iff.2 ⟨hm, hn⟩⟩
  · obtain ⟨rfl, rfl⟩ := hs.short rfl rfl
    simp [decControl, hs.causes, and_assoc] at hq
    obtain ⟨rfl, rfl, ⟨n, rfl, hn⟩, rfl, rfl⟩ := hq
    exact ⟨.ret h n, rfl, hn⟩
  · obtain ⟨rfl, hi'⟩ := hs.long rfl rfl
    simp [decControl, hs.causes, and_assoc] at hq
    obtain ⟨rfl, hg, hn, rfl, rfl, rfl, rfl⟩ := hq
    obtain rfl := eq_noHdr hg hn (hs.noCh rfl rfl)
    obtain ⟨x, rfl⟩ := exists_toNat hi'
    exact ⟨.mark x, rfl, rfl⟩
  · obtain ⟨rfl, rfl⟩ := hs.short rfl rfl
    simp [decControl, hs.causes, and_assoc] at hq
    obtain ⟨rfl, hg, hn, rfl, rfl, rfl, rfl⟩ := hq
    obtain rfl := eq_noHdr hg hn (hs.noCh rfl rfl)
    exact ⟨.join, rfl, rfl⟩
  · obtain ⟨rfl, rfl⟩ := hs.short rfl rfl
    simp [decControl, hs.causes, and_assoc] at hq
    obtain ⟨rfl, rfl, rfl, rfl, rfl⟩ := hq
    exact ⟨.exit h, rfl, rfl⟩
  · obtain ⟨rfl, rfl⟩ := hs.short rfl rfl
    simp [decControl, hs.causes, and_assoc] at hq
    obtain ⟨rfl, rfl, rfl, rfl, rfl⟩ := hq
    exact ⟨.yield h, rfl, rfl⟩
  · obtain ⟨rfl, rfl⟩ | ⟨rfl, hi'⟩ := hs.either rfl rfl
    · simp [decControl, hs.causes, and_assoc] at hq
      obtain ⟨rfl, rfl, rfl, ⟨o, rfl, ho⟩, rfl⟩ := hq
      exact ⟨.sleep h o, rfl, ho⟩
    · simp [decControl, hs.causes, and_assoc] at hq
      obtain ⟨rfl, rfl, rfl, rfl, rfl⟩ := hq
      obtain ⟨x, rfl⟩ := exists_toNat hi'
      exact ⟨.sleepImm h x, rfl, rfl⟩
  · obtain ⟨rfl, rfl⟩ | ⟨rfl, hi'⟩ := hs.either rfl rfl
    · simp [decControl, hs.causes, and_assoc] at hq
      obtain ⟨rfl, rfl, rfl, ⟨o, rfl, ho⟩, h0, h32⟩ := hq
      obtain ⟨sel, rfl⟩ := exists_toNat (n := 5) h32
      exact ⟨.setfmt h sel o, rfl, Bool.and_eq_true_iff.2 ⟨ne_zero_of_toNat h0, ho⟩⟩
    · simp [decControl, hs.causes, and_assoc] at hq
      obtain ⟨rfl, rfl, rfl, rfl, h0, h32⟩ := hq
      obtain ⟨sel, rfl⟩ := exists_toNat (n := 5) h32
      obtain ⟨x, rfl⟩ := exists_toNat hi'
      exact ⟨.setfmtImm h sel x, rfl, ne_zero_of_toNat h0⟩
  · obtain ⟨rfl, rfl⟩ := hs.short rfl rfl
    simp [decControl, hs.causes, and_assoc] at hq
    obtain ⟨⟨D, rfl, rfl, hD⟩, rfl, rfl, rfl⟩ := hq
    exact ⟨.getfmt h D, rfl, hD⟩
  · obtain ⟨rfl, rfl⟩ := hs.short rfl rfl
    simp [decControl, hs.causes, and_assoc] at hq
    obtain ⟨rfl, rfl, rfl, rfl, hf⟩ := hq
    obtain ⟨code, rfl⟩ := exists_toNat (n := 8) hf
    exact ⟨.brk h code, rfl, rfl⟩

end Sys2Proof
end

section
/-! Integer instructions, encoded and decoded (R71-R77, R105-R113). -/

namespace Sys2Proof

/-! ### Operand C and MOD (R41) -/

section
variable {c m : Nat} (hc : c < 2048)
include hc
theorem fld_c : fld (c + 2048 * m) 0 11 = c := fld_low (n := 11) hc m
theorem fld_mod (hm : m < 2097152) : fld (c + 2048 * m) 11 21 = m :=
  (fld_skip (k := 11) hc m le_rfl 21).trans (fld_all (n := 21) hm)
end

@[simp] theorem fld_encO (o : Opnd) : fld (encO o) 0 11 = encO o := fld_all (encO_lt o)
@[simp] theorem fld_encO_high (o : Opnd) : fld (encO o) 11 21 = 0 := by
  simpa using fld_mod (c := encO o) (m := 0) (encO_lt o) (by decide)

@[simp] theorem encO_lt_word (o : Opnd) : encO o < 4294967296 := (encO_lt o).trans (by decide)

/-- The sources of a three-source instruction, as the decoder looks at them. -/
theorem vsOk_three (d : Dst) (a b c : Opnd) : vsOk d [a, b, c] = true ↔ vsOk d [a, b] = true ∧ vsOk d [c] = true := by
  cases h : dstS0 d <;> simp [vsOk, h, and_assoc]

/-- Bits 95:64 as field C and MOD. -/
theorem exists_c_mod {hi : Nat} (h : hi < 2 ^ 32) : ∃ c m, hi = c + 2048 * m ∧ c < 2048 ∧ m < 2097152 :=
  ⟨hi % 2048, hi / 2048, by omega, by omega, by omega⟩

/-! ### FN of integer instructions (R71-R77, R105-R113) -/

@[simp] theorem opd_toNat (n : SReg) : opd n.toNat = .s n := opd_encO (.s n)

@[simp] theorem bit_toNat (n : Bool) : bit n.toNat 0 = n := by cases n <;> rfl
@[simp] theorem bits_two (n t : Bool) : bit (n.toNat + 2 * t.toNat) 0 = n ∧ bit (n.toNat + 2 * t.toNat) 1 = t := by
  cases n <;> cases t <;> decide
@[simp] theorem toNat_lt_2048 (n : Bool) : n.toNat < 2048 := (Bool.toNat_lt n).trans (by decide)
@[simp] theorem two_lt (n t : Bool) : n.toNat + 2 * t.toNat < 4 := by have := Bool.toNat_lt n; have := Bool.toNat_lt t; omega
@[simp] theorem two_lt_2048 (n t : Bool) : n.toNat + 2 * t.toNat < 2048 := (two_lt n t).trans (by decide)

theorem exists_two {fn : Nat} (h : fn < 4) : ∃ n t : Bool, fn = n.toNat + 2 * t.toNat :=
  ⟨bit fn 0, bit fn 1, by rw [toNat_bit, toNat_bit, fld_eq, fld_eq]; omega⟩

@[simp] theorem bits_double (n : Bool) : bit (2 * n.toNat) 0 = false ∧ bit (2 * n.toNat) 1 = n ∧
    2 * n.toNat < 4 ∧ 2 * n.toNat < 2048 := by cases n <;> decide
@[simp] theorem bits_double_succ (n : Bool) : bit (1 + 2 * n.toNat) 0 = true ∧ bit (1 + 2 * n.toNat) 1 = n ∧
    1 + 2 * n.toNat < 4 ∧ 1 + 2 * n.toNat < 2048 := by cases n <;> decide

@[simp] theorem qIas_two (n t : Bool) : qIas (n.toNat + 2 * t.toNat) = 0 ↔ satOk n t = true := by
  cases n <;> cases t <;> decide

theorem qIas_iff {fn : Nat} : qIas fn = 0 ↔ ∃ n t : Bool, fn = n.toNat + 2 * t.toNat ∧ satOk n t = true := by
  refine ⟨fun h => ?_, by rintro ⟨n, t, rfl, ht⟩; simpa using ht⟩
  obtain ⟨n, t, rfl⟩ := exists_two (fn := fn) (by simp [qIas] at h; omega)
  exact ⟨n, t, rfl, by simpa using h⟩

section
variable (cc : Cond) (u : Bool) (w : IWidth)
/-- FN of `ICMP`. -/
@[simp] theorem icmp_lt : encCond cc + 16 * u.toNat + 32 * encIW w < 128 := by
  have := condCodec.enc_lt cc; have := iwCodec.enc_lt w; have := Bool.toNat_lt u; omega
@[simp] theorem icmp_fields : fld (encCond cc + 16 * u.toNat + 32 * encIW w) 0 4 = encCond cc ∧
    bit (encCond cc + 16 * u.toNat + 32 * encIW w) 4 = u ∧ fld (encCond cc + 16 * u.toNat + 32 * encIW w) 5 2 = encIW w := by
  have := condCodec.enc_lt cc; have := iwCodec.enc_lt w
  cases u <;> simp [bit_eq, fld_eq] <;> omega
end

@[simp] theorem intCond_iff (cc : Cond) : encCond cc < 6 ↔ intCond cc = true := by cases cc <;> decide

theorem exists_icmp {fn : Nat} (h : fld fn 0 4 < 6 ∧ fld fn 5 2 ≠ 3 ∧ fn < 128) :
    ∃ (cc : Cond) (u : Bool) (w : IWidth), fn = encCond cc + 16 * u.toNat + 32 * encIW w ∧ intCond cc = true := by
  obtain ⟨hc, hw, hf⟩ := h
  have := fld_lt fn 5 2
  have e := condCodec.enc_dec (fld fn 0 4) (by omega)
  refine ⟨condOf (fld fn 0 4), bit fn 4, iwOf (fld fn 5 2), ?_, (intCond_iff _).1 (by omega)⟩
  rw [e, iwCodec.enc_dec (fld fn 5 2) (by omega), toNat_bit, fld_eq, fld_eq, fld_eq]
  omega

/-- FN of `SEL`. -/
@[simp] theorem sel_fields (k : PReg) (n : Bool) : pr (k.toNat + 16 * n.toNat) = k ∧ bit (k.toNat + 16 * n.toNat) 4 = n := by
  constructor
  · apply BitVec.eq_of_toNat_eq
    rw [pr, BitVec.toNat_ofNat]
    omega
  · cases n <;> simp [bit_eq, fld_eq] <;> omega

@[simp] theorem sel_lt (k : PReg) (n : Bool) : k.toNat + 16 * n.toNat < 32 := by have := Bool.toNat_lt n; omega

theorem exists_sel {fn : Nat} (h : fn < 32) : ∃ (k : PReg) (n : Bool), fn = k.toNat + 16 * n.toNat := by
  obtain ⟨k, hk⟩ := exists_toNat (n := 4) (x := fn % 16) (by omega)
  exact ⟨k, bit fn 4, by rw [toNat_bit, fld_eq]; omega⟩

/-- FN of `GRED`. -/
@[simp] theorem gred_lt (op : RedOp) (n : Bool) : encRed op + 8 * n.toNat < 16 := by
  have := redCodec.enc_lt op; have := Bool.toNat_lt n; omega
@[simp] theorem gred_fields (op : RedOp) (n : Bool) :
    fld (encRed op + 8 * n.toNat) 0 3 = encRed op ∧ bit (encRed op + 8 * n.toNat) 3 = n := by
  have := redCodec.enc_lt op
  cases n <;> simp [bit_eq, fld_eq] <;> omega

theorem gred_iff (op : RedOp) (n : Bool) :
    (n = true → ¬ encRed op = 1 → encRed op = 2) ↔ (!n || op == .min || op == .max) = true := by
  cases n <;> cases op <;> decide

theorem exists_gred {fn : Nat} (h : fld fn 0 3 < 6 ∧ fn < 16) : ∃ (op : RedOp) (n : Bool), fn = encRed op + 8 * n.toNat := by
  refine ⟨redOf (fld fn 0 3), bit fn 3, ?_⟩
  rw [redCodec.enc_dec _ h.1, toNat_bit, fld_eq, fld_eq]
  omega

/-- FN of `LANE`: a scalar destination goes with the read-out form only (log entry 112). -/
theorem lane_iff (d : Dst) (m : LaneMode) :
    (dstS0 d = true → encWs d = 0 → encLane m = 0) ↔ (!dstS0 d || m == .idx) = true := by
  cases d <;> cases m <;> simp [dstS0, encWs, encLane]

theorem vsOk_one (d : Dst) (a : Opnd) : vsOk d [a] = true ↔ (dstS0 d = true → noVec a = true) := by
  cases h : dstS0 d <;> simp [vsOk, h]

/-- An offset or address of 54 bits. -/
@[simp] theorem off54 (x : BitVec 54) : fld x.toNat 54 10 = 0 ∧ BitVec.ofNat 54 (fld x.toNat 0 54) = x ∧
    x.toNat < 18446744073709551616 := by
  have := x.isLt
  refine ⟨by rw [fld_eq]; omega, ?_, by omega⟩
  rw [fld_all this, BitVec.ofNat_toNat, BitVec.setWidth_eq]

theorem exists_off54 {hi : Nat} (h : hi < 2 ^ 64) (h0 : fld hi 54 10 = 0) : ∃ x : BitVec 54, hi = x.toNat :=
  exists_toNat (by rw [fld_eq] at h0; omega)

theorem reads_int {i : Instr} (he : encRawInt i ≠ none) (w : operandsOk i = true) : Reads i := by
  cases i
  case iadd h d a b n t =>
    obtain ⟨hv, ht⟩ := Bool.and_eq_true_iff.1 w
    exact reads_dab rfl (by simp [decOp, decInt, qImmForm, hv, ht])
  case iaddImm h d a x n t =>
    obtain ⟨hv, ht⟩ := Bool.and_eq_true_iff.1 w
    exact reads_dai rfl (by simp [decOp, decInt, qImmForm, hv, ht])
  case isub h d a b n t =>
    obtain ⟨hv, ht⟩ := Bool.and_eq_true_iff.1 w
    exact reads_dab rfl (by simp [decOp, decInt, qImmForm, hv, ht])
  case isubImm h d a x n t =>
    obtain ⟨hv, ht⟩ := Bool.and_eq_true_iff.1 w
    exact reads_dai rfl (by simp [decOp, decInt, qImmForm, hv, ht])
  case imul h c d a b n t =>
    obtain ⟨hv, ht⟩ := Bool.and_eq_true_iff.1 w
    exact reads_dab_ac rfl (by simp [decOp, decInt, qImmForm, acCodec.dec_enc, hv, ht])
  case imulImm h c d a x n t =>
    obtain ⟨hv, ht⟩ := Bool.and_eq_true_iff.1 w
    exact reads_dai_ac rfl (by simp [decOp, decInt, qImmForm, acCodec.dec_enc, hv, ht])
  case imulh h c d a b n => exact reads_dab_ac rfl (by simp [decOp, decInt, qImmForm, acCodec.dec_enc, Bool.toNat_le]; exact w)
  case imulhImm h c d a x n => exact reads_dai_ac rfl (by simp [decOp, decInt, qImmForm, acCodec.dec_enc, Bool.toNat_le]; exact w)
  case imad h c d a b e n t =>
    obtain ⟨hv, ht⟩ := Bool.and_eq_true_iff.1 w
    exact reads_dabc_ac rfl (by simp [decOp, decInt, Raw.c, Raw.mod, acCodec.dec_enc, (vsOk_three ..).1 hv, ht])
  case idiv h d a b n t => exact reads_dab rfl (by simp [decOp, decInt, qImmForm]; exact w)
  case idivImm h d a x n t => exact reads_dai rfl (by simp [decOp, decInt, qImmForm]; exact w)
  case irem h d a b n t => exact reads_dab rfl (by simp [decOp, decInt, qImmForm]; exact w)
  case iremImm h d a x n t => exact reads_dai rfl (by simp [decOp, decInt, qImmForm]; exact w)
  case imin h d a b n => exact reads_dab rfl (by simp [decOp, decInt, qImmForm]; exact w)
  case iminImm h d a x n => exact reads_dai rfl (by simp [decOp, decInt, qImmForm]; exact w)
  case imax h d a b n => exact reads_dab rfl (by simp [decOp, decInt, qImmForm]; exact w)
  case imaxImm h d a x n => exact reads_dai rfl (by simp [decOp, decInt, qImmForm]; exact w)
  case iabs h d a t => exact reads_da rfl (by simp [decOp, decInt, Bool.toNat_le]; exact w)
  case ineg h d a t => exact reads_da rfl (by simp [decOp, decInt, Bool.toNat_le]; exact w)
  case and h d a b => exact reads_dab rfl (by simp [decOp, decInt, qImmForm]; exact w)
  case andImm h d a x => exact reads_dai rfl (by simp [decOp, decInt, qImmForm]; exact w)
  case or h d a b => exact reads_dab rfl (by simp [decOp, decInt, qImmForm]; exact w)
  case orImm h d a x => exact reads_dai rfl (by simp [decOp, decInt, qImmForm]; exact w)
  case xor h d a b => exact reads_dab rfl (by simp [decOp, decInt, qImmForm]; exact w)
  case xorImm h d a x => exact reads_dai rfl (by simp [decOp, decInt, qImmForm]; exact w)
  case not h d a => exact reads_da rfl (by simp [decOp, decInt]; exact w)
  case popc h d a => exact reads_da rfl (by simp [decOp, decInt]; exact w)
  case clz h d a => exact reads_da rfl (by simp [decOp, decInt]; exact w)
  case mov h d a => exact reads_da rfl (by simp [decOp, decInt]; exact w)
  case shl h d a b => exact reads_dab rfl (by simp [decOp, decInt]; exact w)
  case shr h d a b => exact reads_dab rfl (by simp [decOp, decInt]; exact w)
  case sar h d a b => exact reads_dab rfl (by simp [decOp, decInt]; exact w)
  case rotl h d a b => exact reads_dab rfl (by simp [decOp, decInt]; exact w)
  case bfx h d a b e n =>
    exact reads_dabc rfl (by simp [decOp, decInt, Raw.c, Raw.mod, (vsOk_three ..).1 w, Bool.toNat_le])
  case bfi h d a b e => exact reads_dabc rfl (by simp [decOp, decInt, Raw.c, Raw.mod, (vsOk_three ..).1 w])
  case sel h d a b k n => exact reads_dab rfl (by simp [decOp, decInt]; exact w) ((sel_lt k n).trans (by decide))
  case icmp h p cc u v a b =>
    obtain ⟨hp, hc⟩ := Bool.and_eq_true_iff.1 w
    have := iwCodec.enc_lt v
    exact reads_cab rfl (by simp [decOp, decInt, condCodec.dec_enc, iwCodec.dec_enc, hp, hc]; omega)
      ((icmp_lt cc u v).trans (by decide))
  case icmpImm h p cc u v a x =>
    obtain ⟨hp, hc⟩ := Bool.and_eq_true_iff.1 w
    have := iwCodec.enc_lt v
    exact reads_cai rfl (by simp [decOp, decInt, condCodec.dec_enc, iwCodec.dec_enc, hp, hc]; omega)
      ((icmp_lt cc u v).trans (by decide))
  case add64 h d a b p =>
    obtain ⟨hda, hb⟩ := Bool.and_eq_true_iff.1 w
    obtain ⟨hd, ha⟩ := Bool.and_eq_true_iff.1 hda
    cases p with
    | false => exact reads_n rfl (by simp [decOp, decInt, hd, ha, bit]; exact hb)
    | true =>
      cases b with
      | s n =>
        have hn : pairOk n = true := hb
        exact reads_n rfl (by simp [decOp, decInt, hd, ha, bit, encO, hn])
      | _ => exact nomatch hb
  case lea64 h d f =>
    obtain ⟨hd, hf⟩ := Bool.and_eq_true_iff.1 w
    cases f with
    | abs a => exact reads_x rfl (by simp [decOp, decInt, hd])
    | rel off => exact reads_x rfl (by simp [decOp, decInt, hd])
    | base a off => exact reads_x rfl (by simp [decOp, decInt, hd]; exact hf)
  case movi h d x => exact reads_of 1 0x2B h 0 (encWs d) (encD d) 0 0 0 x.toNat rfl (by simp [decOp, decInt])
  case lane h d m a b =>
    obtain ⟨hab, hm⟩ := Bool.and_eq_true_iff.1 w
    obtain ⟨ha, hv⟩ := Bool.and_eq_true_iff.1 hab
    exact reads_dab rfl
      (by
        simp [decOp, decInt, laneCodec.dec_enc, ha]
        exact ⟨⟨laneCodec.enc_lt m, (lane_iff d m).2 hm⟩, (vsOk_one d b).1 hv⟩)
      ((laneCodec.enc_lt m).trans (by decide))
  case ballot h d b k n =>
    exact reads_of 0 0x2D h 0 (encWs d) (encD d) k.toNat 0 (n.toNat + 2 * b.toNat) 0 rfl
      (by
        simp [decOp, decInt]
        cases b
        · exact (qDstS0_encD d).2 w
        · exact (qDstP_encD d).2 w)
      (ha := by omega)
  case vote h p f =>
    obtain ⟨hp, hf⟩ := Bool.and_eq_true_iff.1 w
    cases f with
    | all j => exact reads_n rfl (by simp [decOp, decInt, hp]) (ha := by omega)
    | any j => exact reads_n rfl (by simp [decOp, decInt, hp]) (ha := by omega)
    | uni a => exact reads_n rfl (by simp [decOp, decInt, hp]; exact hf)
  case gred h d op n a =>
    obtain ⟨hda, hn⟩ := Bool.and_eq_true_iff.1 w
    obtain ⟨hd, ha⟩ := Bool.and_eq_true_iff.1 hda
    have := redCodec.enc_lt op
    exact reads_da rfl (by simp [decOp, decInt, redCodec.dec_enc, hd, ha]; exact ⟨this, (gred_iff op n).2 hn⟩) ((gred_lt op n).trans (by decide))
  all_goals exact absurd rfl he

section
variable {len op : Nat} {h : Hdr} {ac ws d a b fn hi : Nat}

/-- The two lengths of an instruction with an immediate form (R42). -/
theorem FieldsOk.immForm (hs : FieldsOk len op h ac ws d a b fn hi) (hk : lensOf op = 3)
    (hq : qImmForm (rF len op h ac ws d a b fn hi) (qDst ws d) = 0) :
    (∃ D A B, len = 0 ∧ hi = 0 ∧ ws = encWs D ∧ d = encD D ∧ a = encO A ∧ b = encO B ∧ vsOk D [A, B] = true) ∨
    ∃ (D : Dst) (A : Opnd) (x : Word), len = 1 ∧ hi = x.toNat ∧ ws = encWs D ∧ d = encD D ∧ a = encO A ∧ b = 0 ∧
      vsOk D [A] = true := by
  obtain ⟨rfl, rfl⟩ | ⟨rfl, hi'⟩ := hs.either rfl hk
  · simp [qImmForm, hs.causes, and_assoc] at hq
    obtain ⟨⟨D, rfl, rfl⟩, ⟨A, rfl⟩, ⟨B, rfl⟩, hv⟩ := hq
    exact .inl ⟨D, A, B, rfl, rfl, rfl, rfl, rfl, rfl, (qVS_two D A B).1 hv⟩
  · simp [qImmForm, hs.causes, and_assoc] at hq
    obtain ⟨⟨D, rfl, rfl⟩, ⟨A, rfl⟩, rfl, hv⟩ := hq
    obtain ⟨x, rfl⟩ := exists_toNat hi'
    exact .inr ⟨D, A, x, rfl, rfl, rfl, rfl, rfl, rfl, (qVS_one D A).1 hv⟩
end

theorem exists_int {len op : Nat} {h : Hdr} {ac ws d a b fn hi : Nat} (hs : FieldsOk len op h ac ws d a b fn hi)
    (h16 : 0x10 ≤ op ∧ op ≤ 0x2F) (hq : (decInt (rF len op h ac ws d a b fn hi)).1 = 0) :
    ∃ i, encRaw i = some (rF len op h ac ws d a b fn hi) ∧ operandsOk i = true := by
  obtain rfl | rfl | rfl | rfl | rfl | rfl | rfl | rfl | rfl | rfl | rfl | rfl | rfl | rfl | rfl | rfl | rfl | rfl
    | rfl | rfl | rfl | rfl | rfl | rfl | rfl | rfl | rfl | rfl | rfl | rfl | rfl | rfl :
    op = 0x10 ∨ op = 0x11 ∨ op = 0x12 ∨ op = 0x13 ∨ op = 0x14 ∨ op = 0x15 ∨ op = 0x16 ∨ op = 0x17 ∨ op = 0x18 ∨
      op = 0x19 ∨ op = 0x1A ∨ op = 0x1B ∨ op = 0x1C ∨ op = 0x1D ∨ op = 0x1E ∨ op = 0x1F ∨ op = 0x20 ∨ op = 0x21
      ∨ op = 0x22 ∨ op = 0x23 ∨ op = 0x24 ∨ op = 0x25 ∨ op = 0x26 ∨ op = 0x27 ∨ op = 0x28 ∨ op = 0x29 ∨ op =
      0x2A ∨ op = 0x2B ∨ op = 0x2C ∨ op = 0x2D ∨ op = 0x2E ∨ op = 0x2F := by omega
  · obtain rfl := hs.noAC rfl rfl
    simp [decInt] at hq
    obtain ⟨him, hf⟩ := hq
    obtain ⟨n, t, rfl, ht⟩ := qIas_iff.1 hf
    obtain ⟨D, A, B, rfl, rfl, rfl, rfl, rfl, rfl, hv⟩ | ⟨D, A, x, rfl, rfl, rfl, rfl, rfl, rfl, hv⟩ := hs.immForm rfl him
    · exact ⟨.iadd h D A B n t, rfl, Bool.and_eq_true_iff.2 ⟨hv, ht⟩⟩
    · exact ⟨.iaddImm h D A x n t, rfl, Bool.and_eq_true_iff.2 ⟨hv, ht⟩⟩
  · obtain rfl := hs.noAC rfl rfl
    simp [decInt] at hq
    obtain ⟨him, hf⟩ := hq
    obtain ⟨n, t, rfl, ht⟩ := qIas_iff.1 hf
    obtain ⟨D, A, B, rfl, rfl, rfl, rfl, rfl, rfl, hv⟩ | ⟨D, A, x, rfl, rfl, rfl, rfl, rfl, rfl, hv⟩ := hs.immForm rfl him
    · exact ⟨.isub h D A B n t, rfl, Bool.and_eq_true_iff.2 ⟨hv, ht⟩⟩
    · exact ⟨.isubImm h D A x n t, rfl, Bool.and_eq_true_iff.2 ⟨hv, ht⟩⟩
  · obtain ⟨c, rfl⟩ := hs.exists_ac
    simp [decInt] at hq
    obtain ⟨him, hf⟩ := hq
    obtain ⟨n, t, rfl, ht⟩ := qIas_iff.1 hf
    obtain ⟨D, A, B, rfl, rfl, rfl, rfl, rfl, rfl, hv⟩ | ⟨D, A, x, rfl, rfl, rfl, rfl, rfl, rfl, hv⟩ := hs.immForm rfl him
    · exact ⟨.imul h c D A B n t, rfl, Bool.and_eq_true_iff.2 ⟨hv, ht⟩⟩
    · exact ⟨.imulImm h c D A x n t, rfl, Bool.and_eq_true_iff.2 ⟨hv, ht⟩⟩
  · obtain ⟨c, rfl⟩ := hs.exists_ac
    simp [decInt] at hq
    obtain ⟨him, hf⟩ := hq
    obtain ⟨n, rfl⟩ := exists_bool (x := fn) (by omega)
    obtain ⟨D, A, B, rfl, rfl, rfl, rfl, rfl, rfl, hv⟩ | ⟨D, A, x, rfl, rfl, rfl, rfl, rfl, rfl, hv⟩ := hs.immForm rfl him
    · exact ⟨.imulh h c D A B n, rfl, hv⟩
    · exact ⟨.imulhImm h c D A x n, rfl, hv⟩
  · obtain ⟨c, rfl⟩ := hs.exists_ac
    obtain ⟨rfl, hi'⟩ := hs.long rfl rfl
    obtain ⟨C, m, rfl, hC, hm⟩ := exists_c_mod hi'
    simp [decInt, Raw.c, Raw.mod, fld_c hC, fld_mod hC hm, hC, hs.causes, and_assoc] at hq
    obtain ⟨⟨D, rfl, rfl⟩, ⟨A, rfl⟩, ⟨B, rfl⟩, hv, ⟨C, rfl⟩, hw, rfl, hf⟩ := hq
    have hv := (vsOk_three D A B C).2 ⟨(qVS_two D A B).1 hv, (qVS_one D C).1 hw⟩
    obtain ⟨n, t, rfl, ht⟩ := qIas_iff.1 hf
    exact ⟨.imad h c D A B C n t, rfl, Bool.and_eq_true_iff.2 ⟨hv, ht⟩⟩
  · obtain rfl := hs.noAC rfl rfl
    simp [decInt] at hq
    obtain ⟨him, hf⟩ := hq
    obtain ⟨n, t, rfl⟩ := exists_two hf
    obtain ⟨D, A, B, rfl, rfl, rfl, rfl, rfl, rfl, hv⟩ | ⟨D, A, x, rfl, rfl, rfl, rfl, rfl, rfl, hv⟩ := hs.immForm rfl him
    · exact ⟨.idiv h D A B n t, rfl, hv⟩
    · exact ⟨.idivImm h D A x n t, rfl, hv⟩
  · obtain rfl := hs.noAC rfl rfl
    simp [decInt] at hq
    obtain ⟨him, hf⟩ := hq
    obtain ⟨n, t, rfl⟩ := exists_two hf
    obtain ⟨D, A, B, rfl, rfl, rfl, rfl, rfl, rfl, hv⟩ | ⟨D, A, x, rfl, rfl, rfl, rfl, rfl, rfl, hv⟩ := hs.immForm rfl him
    · exact ⟨.irem h D A B n t, rfl, hv⟩
    · exact ⟨.iremImm h D A x n t, rfl, hv⟩
  · obtain rfl := hs.noAC rfl rfl
    cases hn : bit fn 0
    · simp [decInt, hn] at hq
      obtain ⟨him, hf⟩ := hq
      obtain ⟨n, t, rfl⟩ := exists_two hf
      obtain rfl : n = false := by simpa using hn
      simp only [Bool.toNat_false, Nat.zero_add] at hs him ⊢
      obtain ⟨D, A, B, rfl, rfl, rfl, rfl, rfl, rfl, hv⟩ | ⟨D, A, x, rfl, rfl, rfl, rfl, rfl, rfl, hv⟩ := hs.immForm rfl him
      · exact ⟨.imin h D A B t, rfl, hv⟩
      · exact ⟨.iminImm h D A x t, rfl, hv⟩
    · simp [decInt, hn] at hq
      obtain ⟨him, hf⟩ := hq
      obtain ⟨n, t, rfl⟩ := exists_two hf
      obtain rfl : n = true := by simpa using hn
      simp only [Bool.toNat_true] at hs him ⊢
      obtain ⟨D, A, B, rfl, rfl, rfl, rfl, rfl, rfl, hv⟩ | ⟨D, A, x, rfl, rfl, rfl, rfl, rfl, rfl, hv⟩ := hs.immForm rfl him
      · exact ⟨.imax h D A B t, rfl, hv⟩
      · exact ⟨.imaxImm h D A x t, rfl, hv⟩
  · obtain rfl := hs.noAC rfl rfl
    obtain ⟨rfl, rfl⟩ := hs.short rfl rfl
    simp [decInt, hs.causes, and_assoc] at hq
    obtain ⟨⟨D, rfl, rfl⟩, ⟨A, rfl⟩, rfl, hv, hf⟩ := hq
    obtain ⟨n, rfl⟩ := exists_bool (x := fn) (by omega)
    exact ⟨.iabs h D A n, rfl, (qVS_one D A).1 hv⟩
  · obtain rfl := hs.noAC rfl rfl
    obtain ⟨rfl, rfl⟩ := hs.short rfl rfl
    simp [decInt, hs.causes, and_assoc] at hq
    obtain ⟨⟨D, rfl, rfl⟩, ⟨A, rfl⟩, rfl, hv, hf⟩ := hq
    obtain ⟨n, rfl⟩ := exists_bool (x := fn) (by omega)
    exact ⟨.ineg h D A n, rfl, (qVS_one D A).1 hv⟩
  · obtain rfl := hs.noAC rfl rfl
    simp [decInt] at hq
    obtain ⟨him, rfl⟩ := hq
    obtain ⟨D, A, B, rfl, rfl, rfl, rfl, rfl, rfl, hv⟩ | ⟨D, A, x, rfl, rfl, rfl, rfl, rfl, rfl, hv⟩ := hs.immForm rfl him
    · exact ⟨.and h D A B, rfl, hv⟩
    · exact ⟨.andImm h D A x, rfl, hv⟩
  · obtain rfl := hs.noAC rfl rfl
    simp [decInt] at hq
    obtain ⟨him, rfl⟩ := hq
    obtain ⟨D, A, B, rfl, rfl, rfl, rfl, rfl, rfl, hv⟩ | ⟨D, A, x, rfl, rfl, rfl, rfl, rfl, rfl, hv⟩ := hs.immForm rfl him
    · exact ⟨.or h D A B, rfl, hv⟩
    · exact ⟨.orImm h D A x, rfl, hv⟩
  · obtain rfl := hs.noAC rfl rfl
    simp [decInt] at hq
    obtain ⟨him, rfl⟩ := hq
    obtain ⟨D, A, B, rfl, rfl, rfl, rfl, rfl, rfl, hv⟩ | ⟨D, A, x, rfl, rfl, rfl, rfl, rfl, rfl, hv⟩ := hs.immForm rfl him
    · exact ⟨.xor h D A B, rfl, hv⟩
    · exact ⟨.xorImm h D A x, rfl, hv⟩
  · obtain rfl := hs.noAC rfl rfl
    obtain ⟨rfl, rfl⟩ := hs.short rfl rfl
    simp [decInt, hs.causes, and_assoc] at hq
    obtain ⟨⟨D, rfl, rfl⟩, ⟨A, rfl⟩, rfl, hv, rfl⟩ := hq
    exact ⟨.not h D A, rfl, (qVS_one D A).1 hv⟩
  · obtain rfl := hs.noAC rfl rfl
    obtain ⟨rfl, rfl⟩ := hs.short rfl rfl
    simp [decInt, hs.causes, and_assoc] at hq
    obtain ⟨⟨D, rfl, rfl⟩, ⟨A, rfl⟩, ⟨B, rfl⟩, hv, rfl⟩ := hq
    exact ⟨.shl h D A B, rfl, (qVS_two D A B).1 hv⟩
  · obtain rfl := hs.noAC rfl rfl
    obtain ⟨rfl, rfl⟩ := hs.short rfl rfl
    simp [decInt, hs.causes, and_assoc] at hq
    obtain ⟨⟨D, rfl, rfl⟩, ⟨A, rfl⟩, ⟨B, rfl⟩, hv, rfl⟩ := hq
    exact ⟨.shr h D A B, rfl, (qVS_two D A B).1 hv⟩
  · obtain rfl := hs.noAC rfl rfl
    obtain ⟨rfl, rfl⟩ := hs.short rfl rfl
    simp [decInt, hs.causes, and_assoc] at hq
    obtain ⟨⟨D, rfl, rfl⟩, ⟨A, rfl⟩, ⟨B, rfl⟩, hv, rfl⟩ := hq
    exact ⟨.sar h D A B, rfl, (qVS_two D A B).1 hv⟩
  · obtain rfl := hs.noAC rfl rfl
    obtain ⟨rfl, rfl⟩ := hs.short rfl rfl
    simp [decInt, hs.causes, and_assoc] at hq
    obtain ⟨⟨D, rfl, rfl⟩, ⟨A, rfl⟩, ⟨B, rfl⟩, hv, rfl⟩ := hq
    exact ⟨.rotl h D A B, rfl, (qVS_two D A B).1 hv⟩
  · obtain rfl := hs.noAC rfl rfl
    obtain ⟨rfl, rfl⟩ := hs.short rfl rfl
    simp [decInt, hs.causes, and_assoc] at hq
    obtain ⟨⟨D, rfl, rfl⟩, ⟨A, rfl⟩, rfl, hv, rfl⟩ := hq
    exact ⟨.popc h D A, rfl, (qVS_one D A).1 hv⟩
  · obtain rfl := hs.noAC rfl rfl
    obtain ⟨rfl, rfl⟩ := hs.short rfl rfl
    simp [decInt, hs.causes, and_assoc] at hq
    obtain ⟨⟨D, rfl, rfl⟩, ⟨A, rfl⟩, rfl, hv, rfl⟩ := hq
    exact ⟨.clz h D A, rfl, (qVS_one D A).1 hv⟩
  · obtain rfl := hs.noAC rfl rfl
    obtain ⟨rfl, hi'⟩ := hs.long rfl rfl
    obtain ⟨C, m, rfl, hC, hm⟩ := exists_c_mod hi'
    simp [decInt, Raw.c, Raw.mod, fld_c hC, fld_mod hC hm, hC, hs.causes, and_assoc] at hq
    obtain ⟨⟨D, rfl, rfl⟩, ⟨A, rfl⟩, ⟨B, rfl⟩, hv, ⟨C, rfl⟩, hw, rfl, hf⟩ := hq
    have hv := (vsOk_three D A B C).2 ⟨(qVS_two D A B).1 hv, (qVS_one D C).1 hw⟩
    obtain ⟨n, rfl⟩ := exists_bool (x := fn) (by omega)
    exact ⟨.bfx h D A B C n, rfl, hv⟩
  · obtain rfl := hs.noAC rfl rfl
    obtain ⟨rfl, hi'⟩ := hs.long rfl rfl
    obtain ⟨C, m, rfl, hC, hm⟩ := exists_c_mod hi'
    simp [decInt, Raw.c, Raw.mod, fld_c hC, fld_mod hC hm, hC, hs.causes, and_assoc] at hq
    obtain ⟨⟨D, rfl, rfl⟩, ⟨A, rfl⟩, ⟨B, rfl⟩, hv, ⟨C, rfl⟩, hw, rfl, rfl⟩ := hq
    have hv := (vsOk_three D A B C).2 ⟨(qVS_two D A B).1 hv, (qVS_one D C).1 hw⟩
    exact ⟨.bfi h D A B C, rfl, hv⟩
  · obtain rfl := hs.noAC rfl rfl
    obtain ⟨rfl, rfl⟩ := hs.short rfl rfl
    simp [decInt, hs.causes, and_assoc] at hq
    obtain ⟨⟨D, rfl, rfl⟩, ⟨A, rfl⟩, ⟨B, rfl⟩, hv, hf⟩ := hq
    obtain ⟨k, n, rfl⟩ := exists_sel hf
    exact ⟨.sel h D A B k n, rfl, (qVS_two D A B).1 hv⟩
  · obtain rfl := hs.noAC rfl rfl
    obtain ⟨rfl, rfl⟩ | ⟨rfl, hi'⟩ := hs.either rfl rfl
    · simp [decInt, hs.causes, and_assoc] at hq
      obtain ⟨rfl, ⟨p, rfl, hp⟩, ⟨A, rfl⟩, hc, hw, hf, B, rfl⟩ := hq
      obtain ⟨cc, u, w, rfl, hcc⟩ := exists_icmp ⟨hc, hw, hf⟩
      exact ⟨.icmp h p cc u w A B, rfl, Bool.and_eq_true_iff.2 ⟨hp, hcc⟩⟩
    · simp [decInt, hs.causes, and_assoc] at hq
      obtain ⟨rfl, ⟨p, rfl, hp⟩, ⟨A, rfl⟩, hc, hw, hf, rfl⟩ := hq
      obtain ⟨cc, u, w, rfl, hcc⟩ := exists_icmp ⟨hc, hw, hf⟩
      obtain ⟨x, rfl⟩ := exists_toNat hi'
      exact ⟨.icmpImm h p cc u w A x, rfl, Bool.and_eq_true_iff.2 ⟨hp, hcc⟩⟩
  · obtain rfl := hs.noAC rfl rfl
    obtain ⟨rfl, rfl⟩ := hs.short rfl rfl
    obtain hf | h2 := Nat.lt_or_ge fn 2
    · obtain ⟨p, rfl⟩ := exists_bool hf
      cases p
      · simp [decInt, hs.causes, and_assoc, bit] at hq
        obtain ⟨rfl, ⟨m, rfl, hm⟩, ⟨n, rfl, hn⟩, B, rfl, hB⟩ := hq
        exact ⟨.add64 h m n B false, rfl, Bool.and_eq_true_iff.2 ⟨Bool.and_eq_true_iff.2 ⟨hm, hn⟩, hB⟩⟩
      · simp [decInt, hs.causes, and_assoc, bit] at hq
        obtain ⟨rfl, ⟨m, rfl, hm⟩, ⟨n, rfl, hn⟩, ⟨k, rfl, hk⟩, -⟩ := hq
        exact ⟨.add64 h m n (.s k) true, rfl, Bool.and_eq_true_iff.2 ⟨Bool.and_eq_true_iff.2 ⟨hm, hn⟩, hk⟩⟩
    · simp [decInt, hs.causes, and_assoc] at hq
      omega
  · obtain rfl := hs.noAC rfl rfl
    obtain ⟨rfl, hi'⟩ := hs.ext rfl rfl
    obtain rfl | rfl | rfl | h3 : fn = 0 ∨ fn = 1 ∨ fn = 2 ∨ 3 ≤ fn := by omega
    · simp [decInt, hs.causes, and_assoc] at hq
      obtain ⟨rfl, ⟨m, rfl, hm⟩, rfl, h0, rfl⟩ := hq
      obtain ⟨off, rfl⟩ := exists_off54 hi' h0
      exact ⟨.lea64 h m (.abs off), rfl, Bool.and_eq_true_iff.2 ⟨hm, rfl⟩⟩
    · simp [decInt, hs.causes, and_assoc] at hq
      obtain ⟨rfl, ⟨m, rfl, hm⟩, rfl, h0, rfl⟩ := hq
      obtain ⟨off, rfl⟩ := exists_off54 hi' h0
      exact ⟨.lea64 h m (.rel off), rfl, Bool.and_eq_true_iff.2 ⟨hm, rfl⟩⟩
    · simp [decInt, hs.causes, and_assoc] at hq
      obtain ⟨rfl, ⟨m, rfl, hm⟩, rfl, h0, n, rfl, hn⟩ := hq
      obtain ⟨off, rfl⟩ := exists_off54 hi' h0
      exact ⟨.lea64 h m (.base n off), rfl, Bool.and_eq_true_iff.2 ⟨hm, hn⟩⟩
    · simp [decInt, show fn ≠ 2 by omega, show fn ≠ 1 by omega] at hq
      omega
  · obtain rfl := hs.noAC rfl rfl
    obtain ⟨rfl, rfl⟩ := hs.short rfl rfl
    simp [decInt, hs.causes, and_assoc] at hq
    obtain ⟨⟨D, rfl, rfl⟩, ⟨A, rfl⟩, rfl, hv, rfl⟩ := hq
    exact ⟨.mov h D A, rfl, (qVS_one D A).1 hv⟩
  · obtain rfl := hs.noAC rfl rfl
    obtain ⟨rfl, hi'⟩ := hs.long rfl rfl
    simp [decInt, hs.causes, and_assoc] at hq
    obtain ⟨⟨D, rfl, rfl⟩, rfl, rfl, rfl⟩ := hq
    obtain ⟨x, rfl⟩ := exists_toNat hi'
    exact ⟨.movi h D x, rfl, rfl⟩
  · obtain rfl := hs.noAC rfl rfl
    obtain ⟨rfl, rfl⟩ := hs.short rfl rfl
    simp [decInt, hs.causes, and_assoc] at hq
    obtain ⟨⟨D, rfl, rfl⟩, ⟨A, rfl, hA⟩, ⟨B, rfl⟩, hf, hm, hv⟩ := hq
    obtain ⟨m, rfl⟩ := laneCodec.exists_enc hf
    simp at hm hv
    exact ⟨.lane h D m A B, rfl, Bool.and_eq_true_iff.2 ⟨Bool.and_eq_true_iff.2 ⟨hA, (vsOk_one D B).2 hv⟩, (lane_iff D m).1 hm⟩⟩
  · obtain rfl := hs.noAC rfl rfl
    obtain ⟨rfl, rfl⟩ := hs.short rfl rfl
    simp [decInt, hs.causes, and_assoc] at hq
    obtain ⟨⟨k, rfl⟩, rfl, hf, hd⟩ := hq
    obtain ⟨n, t, rfl⟩ := exists_two hf
    simp only [bits_two] at hd
    cases t
    · simp [hs.causes] at hd
      obtain ⟨rfl, m, rfl⟩ := hd
      exact ⟨.ballot h (.s m) false k n, rfl, rfl⟩
    · simp [hs.causes] at hd
      obtain ⟨rfl, m, rfl, hm⟩ := hd
      exact ⟨.ballot h (.s m) true k n, rfl, hm⟩
  · obtain rfl := hs.noAC rfl rfl
    obtain ⟨rfl, rfl⟩ := hs.short rfl rfl
    obtain rfl | rfl | rfl | h3 : fn = 0 ∨ fn = 1 ∨ fn = 2 ∨ 3 ≤ fn := by omega
    · simp [decInt, hs.causes, and_assoc] at hq
      obtain ⟨rfl, ⟨p, rfl, hp⟩, rfl, j, rfl⟩ := hq
      exact ⟨.vote h p (.all j), rfl, Bool.and_eq_true_iff.2 ⟨hp, rfl⟩⟩
    · simp [decInt, hs.causes, and_assoc] at hq
      obtain ⟨rfl, ⟨p, rfl, hp⟩, rfl, j, rfl⟩ := hq
      exact ⟨.vote h p (.any j), rfl, Bool.and_eq_true_iff.2 ⟨hp, rfl⟩⟩
    · simp [decInt, hs.causes, and_assoc] at hq
      obtain ⟨rfl, ⟨p, rfl, hp⟩, rfl, A, rfl, hA⟩ := hq
      exact ⟨.vote h p (.uni A), rfl, Bool.and_eq_true_iff.2 ⟨hp, hA⟩⟩
    · simp [decInt, show fn ≠ 2 by omega, show fn ≠ 1 by omega] at hq
      omega
  · obtain rfl := hs.noAC rfl rfl
    obtain ⟨rfl, rfl⟩ := hs.short rfl rfl
    simp [decInt, hs.causes, and_assoc] at hq
    obtain ⟨⟨D, rfl, rfl, hD⟩, ⟨A, rfl, hA⟩, rfl, hop, hf, hn⟩ := hq
    obtain ⟨op, n, rfl⟩ := exists_gred ⟨hop, hf⟩
    simp at hn
    exact ⟨.gred h D op n A, rfl, Bool.and_eq_true_iff.2 ⟨Bool.and_eq_true_iff.2 ⟨hD, hA⟩, (gred_iff op n).1 hn⟩⟩

end Sys2Proof
end

section
/-! Floating-point and conversion instructions, encoded and decoded (R114-R124, R159). -/

namespace Sys2Proof

/-! ### FN and MOD of floating instructions and conversions (R116-R127, R159) -/

section
variable (t : FTy) (m : FMods)
@[simp] theorem fmods_fields : fld (encFTy t + encMods m 2) 0 2 = encFTy t ∧ modsOf (encFTy t + encMods m 2) 2 = m := by
  have := ftyCodec.enc_lt t
  obtain ⟨n1, a1, n2, a2⟩ := m
  refine ⟨by rw [fld_eq, encMods]; omega, ?_⟩
  simp only [modsOf, bit_eq, fld_eq, encMods, FMods.mk.injEq]
  cases n1 <;> cases a1 <;> cases n2 <;> cases a2 <;> simp <;> omega
@[simp] theorem fmods_lt : encFTy t + encMods m 2 < 64 := by
  have := ftyCodec.enc_lt t
  have := Bool.toNat_lt m.negA; have := Bool.toNat_lt m.absA; have := Bool.toNat_lt m.negB; have := Bool.toNat_lt m.absB
  unfold encMods; omega
@[simp] theorem fmods_lt_2048 : encFTy t + encMods m 2 < 2048 := (fmods_lt t m).trans (by decide)
@[simp] theorem encFTy_ne_three : encFTy t ≠ 3 := Nat.ne_of_lt (ftyCodec.enc_lt t)
end

theorem exists_fmods {fn : Nat} (h3 : fld fn 0 2 ≠ 3) (hf : fn < 64) : ∃ t m, fn = encFTy t + encMods m 2 := by
  have := fld_lt fn 0 2
  refine ⟨ftyOf (fld fn 0 2), modsOf fn 2, ?_⟩
  rw [ftyCodec.enc_dec _ (by omega)]
  simp only [encMods, modsOf, toNat_bit, fld_eq]
  omega

section
variable (f : Bool) (m : FMods)
@[simp] theorem hmods_fields : bit (f.toNat + encMods m 1) 0 = f ∧ modsOf (f.toNat + encMods m 1) 1 = m := by
  obtain ⟨n1, a1, n2, a2⟩ := m
  simp only [modsOf, bit_eq, fld_eq, encMods, FMods.mk.injEq]
  cases f <;> cases n1 <;> cases a1 <;> cases n2 <;> cases a2 <;> decide
@[simp] theorem hmods_lt : f.toNat + encMods m 1 < 32 := by
  have := Bool.toNat_lt f
  have := Bool.toNat_lt m.negA; have := Bool.toNat_lt m.absA; have := Bool.toNat_lt m.negB; have := Bool.toNat_lt m.absB
  unfold encMods; omega
@[simp] theorem hmods_lt_2048 : f.toNat + encMods m 1 < 2048 := (hmods_lt f m).trans (by decide)
end

theorem exists_hmods {fn : Nat} (hf : fn < 32) : ∃ (f : Bool) (m : FMods), fn = f.toNat + encMods m 1 := by
  refine ⟨bit fn 0, modsOf fn 1, ?_⟩
  simp only [encMods, modsOf, toNat_bit, fld_eq]
  omega

/-- Operand C with its modifiers in MOD. -/
@[simp] theorem modC_fields (c : Opnd) (nc bc : Bool) : fld (encO c + encModC nc bc) 0 11 = encO c ∧
    fld (encO c + encModC nc bc) 11 21 = nc.toNat + 2 * bc.toNat ∧ encO c + encModC nc bc < 4294967296 := by
  have hc := encO_lt_2048 c
  have h2 := two_lt nc bc
  have e : encModC nc bc = 2048 * (nc.toNat + 2 * bc.toNat) := rfl
  rw [e]
  exact ⟨fld_c hc, fld_mod hc (by omega), by omega⟩

/-- R42: a 16-bit pattern in IMM32. -/
theorem imm16_iff (t : FTy) (x : Word) : (¬ encFTy t = 0 → x.toNat < 65536) ↔ imm16Ok t x = true := by
  cases t <;> simp [encFTy, imm16Ok]

section
variable (t : FTy) (n b : Bool)
/-- FN of the one-source floating instructions. -/
@[simp] theorem f1_fields : fld (encFTy t + 4 * n.toNat + 8 * b.toNat) 0 2 = encFTy t ∧
    bit (encFTy t + 4 * n.toNat + 8 * b.toNat) 2 = n ∧ bit (encFTy t + 4 * n.toNat + 8 * b.toNat) 3 = b := by
  cases t <;> cases n <;> cases b <;> decide
@[simp] theorem f1_lt : encFTy t + 4 * n.toNat + 8 * b.toNat < 16 := by
  cases t <;> cases n <;> cases b <;> decide
@[simp] theorem f1_lt_2048 : encFTy t + 4 * n.toNat + 8 * b.toNat < 2048 := (f1_lt t n b).trans (by decide)
end

theorem exists_f1 {fn : Nat} (h3 : fld fn 0 2 ≠ 3) (hf : fn < 16) :
    ∃ (t : FTy) (n b : Bool), fn = encFTy t + 4 * n.toNat + 8 * b.toNat := by
  have := fld_lt fn 0 2
  refine ⟨ftyOf (fld fn 0 2), bit fn 2, bit fn 3, ?_⟩
  rw [ftyCodec.enc_dec _ (by omega), toNat_bit, toNat_bit, fld_eq, fld_eq, fld_eq]
  omega

section
variable (cc : Cond) (t : FTy)
/-- FN of `FCMP`. -/
@[simp] theorem fcmp_fields : fld (encCond cc + 16 * encFTy t) 0 4 = encCond cc ∧ fld (encCond cc + 16 * encFTy t) 4 2 = encFTy t := by
  have := condCodec.enc_lt cc; have := ftyCodec.enc_lt t
  rw [fld_eq, fld_eq]; omega
@[simp] theorem fcmp_lt : encCond cc + 16 * encFTy t < 64 := by
  have := condCodec.enc_lt cc; have := ftyCodec.enc_lt t; omega
@[simp] theorem fcmp_lt_2048 : encCond cc + 16 * encFTy t < 2048 := (fcmp_lt cc t).trans (by decide)
@[simp] theorem encCond_lt_eight : encCond cc < 8 := condCodec.enc_lt cc
end

theorem exists_fcmp {fn : Nat} (h8 : fld fn 0 4 < 8) (h3 : fld fn 4 2 ≠ 3) (hf : fn < 64) :
    ∃ cc t, fn = encCond cc + 16 * encFTy t := by
  have := fld_lt fn 4 2
  refine ⟨condOf (fld fn 0 4), ftyOf (fld fn 4 2), ?_⟩
  rw [condCodec.enc_dec _ h8, ftyCodec.enc_dec _ (by omega), fld_eq, fld_eq]
  omega

section
variable (cc : Cond) (f : Bool) (cb : Comb)
/-- FN of `HCMP2`. -/
@[simp] theorem hcmp_fields : fld (encCond cc + 16 * f.toNat + 32 * encComb cb) 0 4 = encCond cc ∧
    bit (encCond cc + 16 * f.toNat + 32 * encComb cb) 4 = f ∧ fld (encCond cc + 16 * f.toNat + 32 * encComb cb) 5 2 = encComb cb := by
  have := condCodec.enc_lt cc; have := combCodec.enc_lt cb
  cases f <;> simp [bit_eq, fld_eq] <;> omega
@[simp] theorem hcmp_lt : encCond cc + 16 * f.toNat + 32 * encComb cb < 128 := by
  have := condCodec.enc_lt cc; have := combCodec.enc_lt cb; have := Bool.toNat_lt f; omega
@[simp] theorem hcmp_lt_2048 : encCond cc + 16 * f.toNat + 32 * encComb cb < 2048 := (hcmp_lt cc f cb).trans (by decide)
end

theorem exists_hcmp {fn : Nat} (h8 : fld fn 0 4 < 8) (hf : fn < 128) :
    ∃ (cc : Cond) (f : Bool) (cb : Comb), fn = encCond cc + 16 * f.toNat + 32 * encComb cb := by
  have := fld_lt fn 5 2
  refine ⟨condOf (fld fn 0 4), bit fn 4, combOf (fld fn 5 2), ?_⟩
  rw [condCodec.enc_dec _ h8, combCodec.enc_dec _ (by omega), toNat_bit, fld_eq, fld_eq, fld_eq]
  omega

theorem rmOf_encRM (m : Option RMode) : rmOf (encRM m) = m := by rcases m with _ | m; rfl; cases m <;> rfl

section
variable (dt st : CTy) (m : Option RMode)
/-- FN of `CVT` (R124). -/
@[simp] theorem cvt_fields : fld (encCTy dt + 16 * encCTy st + 256 * encRM m) 0 4 = encCTy dt ∧
    fld (encCTy dt + 16 * encCTy st + 256 * encRM m) 4 4 = encCTy st ∧
    fld (encCTy dt + 16 * encCTy st + 256 * encRM m) 8 3 = encRM m ∧ encCTy dt + 16 * encCTy st + 256 * encRM m < 2048 := by
  have := ctyCodec.enc_lt dt; have := ctyCodec.enc_lt st
  have : encRM m < 8 := by rcases m with _ | m; decide; cases m <;> decide
  rw [fld_eq, fld_eq, fld_eq]; omega

theorem intTy_iff : encCTy dt < 6 ↔ intTy dt = true := by cases dt <;> decide

theorem cvt_mode_iff : (encCTy dt < 6 → encCTy st < 6 → encRM m = 0) ↔ (!(intTy dt && intTy st) || m == none) = true := by
  have : encRM m = 0 ↔ m = none := by rcases m with _ | m; simp [encRM]; cases m <;> simp [encRM]
  rw [intTy_iff, intTy_iff, this]
  cases intTy dt <;> cases intTy st <;> simp

theorem encRM_big : 1 ≤ encRM m → 3 < encRM m := by rcases m with _ | m; decide; cases m <;> decide
end

theorem exists_cvt {fn : Nat} (hf : fn < 2048) (hd : fld fn 0 4 < 9) (hs : fld fn 4 4 < 9)
    (hm : 1 ≤ fld fn 8 3 → 3 < fld fn 8 3) : ∃ dt st m, fn = encCTy dt + 16 * encCTy st + 256 * encRM m := by
  have h8 := fld_lt fn 8 3
  have e : encRM (rmOf (fld fn 8 3)) = fld fn 8 3 := by
    generalize fld fn 8 3 = k at *
    obtain rfl | rfl | rfl | rfl | rfl : k = 0 ∨ k = 4 ∨ k = 5 ∨ k = 6 ∨ k = 7 := by omega
    all_goals rfl
  refine ⟨ctyOf (fld fn 0 4), ctyOf (fld fn 4 4), rmOf (fld fn 8 3), ?_⟩
  rw [ctyCodec.enc_dec _ hd, ctyCodec.enc_dec _ hs, e, fld_eq, fld_eq, fld_eq]
  omega

/-- FN of `UNPACK`. -/
@[simp] theorem unpack_fields (hi : Bool) (k : UnpackKind) : bit (hi.toNat + 2 * encUnpack k) 0 = hi ∧
    fld (hi.toNat + 2 * encUnpack k) 1 2 = encUnpack k ∧ hi.toNat + 2 * encUnpack k < 8 ∧ hi.toNat + 2 * encUnpack k < 2048 := by
  cases hi <;> cases k <;> decide

theorem exists_unpack {fn : Nat} (h : fn < 8) : ∃ (hi : Bool) (k : UnpackKind), fn = hi.toNat + 2 * encUnpack k := by
  have := fld_lt fn 1 2
  refine ⟨bit fn 0, unpackOf (fld fn 1 2), ?_⟩
  rw [unpackCodec.enc_dec _ (by omega), toNat_bit, fld_eq, fld_eq]
  omega

/-- FN of `QUANT` and `DEQUANT`. -/
@[simp] theorem quant_fields (f : MFmt) (t : FTy) : fld (encMFmt f + 16 * encFTy t) 0 4 = encMFmt f ∧
    fld (encMFmt f + 16 * encFTy t) 4 2 = encFTy t ∧ encMFmt f + 16 * encFTy t < 64 ∧ encMFmt f + 16 * encFTy t < 2048 := by
  cases f <;> cases t <;> decide

theorem exists_quant {fn : Nat} (h9 : fld fn 0 4 < 9) (h3 : fld fn 4 2 ≠ 3) (hf : fn < 64) :
    ∃ f t, fn = encMFmt f + 16 * encFTy t := by
  have := fld_lt fn 4 2
  refine ⟨mfmtOf (fld fn 0 4), ftyOf (fld fn 4 2), ?_⟩
  rw [mfmtCodec.enc_dec _ h9, ftyCodec.enc_dec _ (by omega), fld_eq, fld_eq]
  omega

@[simp] theorem qsplit_fields (t : FTy) : fld (16 * encFTy t) 0 4 = 0 ∧ fld (16 * encFTy t) 4 2 = encFTy t ∧
    16 * encFTy t < 64 ∧ 16 * encFTy t < 2048 := by cases t <;> decide

theorem exists_qsplit {fn : Nat} (h0 : fld fn 0 4 = 0) (h3 : fld fn 4 2 ≠ 3) (hf : fn < 64) : ∃ t, fn = 16 * encFTy t := by
  have := fld_lt fn 4 2
  refine ⟨ftyOf (fld fn 4 2), ?_⟩
  rw [ftyCodec.enc_dec _ (by omega)]
  rw [fld_eq] at h0 ⊢
  omega

theorem blockFmt_iff (f : MFmt) : 4 ≤ encMFmt f ∧ encMFmt f < 9 ↔ blockFmt f = true := by cases f <;> decide
theorem dequantFmt_iff (f : MFmt) : 3 ≤ encMFmt f ∧ encMFmt f < 9 ↔ (blockFmt f || f == .int8) = true := by cases f <;> decide

/-- Operand C a vector register, and a count in MOD. -/
@[simp] theorem encV_mod (e : VReg) (nb : BitVec 4) : fld (encV e + 2048 * nb.toNat) 0 11 = encV e ∧
    fld (encV e + 2048 * nb.toNat) 11 21 = nb.toNat ∧ encV e + 2 ^ 11 * nb.toNat < 2 ^ (32 * 1) := by
  have he := encV_lt_2048 e
  exact ⟨fld_c he, fld_mod he (by omega), by omega⟩

theorem reads_float {i : Instr} (he : encRawFloat i ≠ none) (w : operandsOk i = true) : Reads i := by
  cases i
  case fadd h d t a b m =>
    exact reads_dab rfl (by simp [decOp, decFloat, qImmForm, qImm16, ftyCodec.dec_enc]; exact w)
  case faddImm h d t a x m =>
    obtain ⟨hv, hx⟩ := Bool.and_eq_true_iff.1 w
    exact reads_dai rfl (by simp [decOp, decFloat, qImmForm, qImm16, ftyCodec.dec_enc, hv]; exact (imm16_iff t x).2 hx)
  case fsub h d t a b m =>
    exact reads_dab rfl (by simp [decOp, decFloat, qImmForm, qImm16, ftyCodec.dec_enc]; exact w)
  case fsubImm h d t a x m =>
    obtain ⟨hv, hx⟩ := Bool.and_eq_true_iff.1 w
    exact reads_dai rfl (by simp [decOp, decFloat, qImmForm, qImm16, ftyCodec.dec_enc, hv]; exact (imm16_iff t x).2 hx)
  case fmul h c d t a b m =>
    exact reads_dab_ac rfl (by simp [decOp, decFloat, qImmForm, qImm16, ftyCodec.dec_enc, acCodec.dec_enc]; exact w)
  case fmulImm h c d t a x m =>
    obtain ⟨hv, hx⟩ := Bool.and_eq_true_iff.1 w
    exact reads_dai_ac rfl (by simp [decOp, decFloat, qImmForm, qImm16, ftyCodec.dec_enc, hv, acCodec.dec_enc]; exact (imm16_iff t x).2 hx)
  case fmin h d t a b m =>
    exact reads_dab rfl (by simp [decOp, decFloat, qImmForm, qImm16, ftyCodec.dec_enc]; exact w)
  case fminImm h d t a x m =>
    obtain ⟨hv, hx⟩ := Bool.and_eq_true_iff.1 w
    exact reads_dai rfl (by simp [decOp, decFloat, qImmForm, qImm16, ftyCodec.dec_enc, hv]; exact (imm16_iff t x).2 hx)
  case fmax h d t a b m =>
    exact reads_dab rfl (by simp [decOp, decFloat, qImmForm, qImm16, ftyCodec.dec_enc]; exact w)
  case fmaxImm h d t a x m =>
    obtain ⟨hv, hx⟩ := Bool.and_eq_true_iff.1 w
    exact reads_dai rfl (by simp [decOp, decFloat, qImmForm, qImm16, ftyCodec.dec_enc, hv]; exact (imm16_iff t x).2 hx)
  case ffma h c d t a b e m nc bc =>
    exact reads_dabc_ac rfl (by simp [decOp, decFloat, Raw.c, Raw.mod, ftyCodec.dec_enc, acCodec.dec_enc]; exact w)
  case fcmp h p cc t a b =>
    exact reads_cab rfl (by simp [decOp, decFloat, qImm16, condCodec.dec_enc, ftyCodec.dec_enc]; exact w)
  case fcmpImm h p cc t a x =>
    obtain ⟨hp, hx⟩ := Bool.and_eq_true_iff.1 w
    exact reads_cai rfl (by simp [decOp, decFloat, qImm16, condCodec.dec_enc, ftyCodec.dec_enc, hp]; exact (imm16_iff t x).2 hx)
  case frcp h d t a n b => exact reads_da rfl (by simp [decOp, decFloat, ftyCodec.dec_enc]; exact w)
  case frsq h d t a n b => exact reads_da rfl (by simp [decOp, decFloat, ftyCodec.dec_enc]; exact w)
  case fsqrt h d t a n b => exact reads_da rfl (by simp [decOp, decFloat, ftyCodec.dec_enc]; exact w)
  case fexp2 h d t a n b => exact reads_da rfl (by simp [decOp, decFloat, ftyCodec.dec_enc]; exact w)
  case flog2 h d t a n b => exact reads_da rfl (by simp [decOp, decFloat, ftyCodec.dec_enc]; exact w)
  case ftanh h d t a n b => exact reads_da rfl (by simp [decOp, decFloat, ftyCodec.dec_enc]; exact w)
  case fclass h d t a n b => exact reads_da rfl (by simp [decOp, decFloat, ftyCodec.dec_enc]; exact w)
  case hadd2 h d f a b m => exact reads_dab rfl (by simp [decOp, decFloat, qImmForm]; exact w)
  case hadd2Imm h d f a x m => exact reads_dai rfl (by simp [decOp, decFloat, qImmForm]; exact w)
  case hmul2 h c d f a b m => exact reads_dab_ac rfl (by simp [decOp, decFloat, qImmForm, acCodec.dec_enc]; exact w)
  case hmul2Imm h c d f a x m => exact reads_dai_ac rfl (by simp [decOp, decFloat, qImmForm, acCodec.dec_enc]; exact w)
  case hmin2 h d f a b m => exact reads_dab rfl (by simp [decOp, decFloat, qImmForm]; exact w)
  case hmin2Imm h d f a x m => exact reads_dai rfl (by simp [decOp, decFloat, qImmForm]; exact w)
  case hmax2 h d f a b m => exact reads_dab rfl (by simp [decOp, decFloat, qImmForm]; exact w)
  case hmax2Imm h d f a x m => exact reads_dai rfl (by simp [decOp, decFloat, qImmForm]; exact w)
  case hfma2 h c d f a b e m nc bc =>
    exact reads_dabc_ac rfl (by simp [decOp, decFloat, Raw.c, Raw.mod, acCodec.dec_enc]; exact w)
  case hcmp2 h p cc f cb a b =>
    exact reads_cab rfl (by simp [decOp, decFloat, condCodec.dec_enc, combCodec.dec_enc]; exact w)
  case hcmp2Imm h p cc f cb a x =>
    exact reads_cai rfl (by simp [decOp, decFloat, condCodec.dec_enc, combCodec.dec_enc]; exact w)
  case fsum h d t a =>
    obtain ⟨hd, ha⟩ := Bool.and_eq_true_iff.1 w
    have := ftyCodec.enc_lt t
    exact reads_da rfl (by simp [decOp, decFloat, hd, ha, ftyCodec.dec_enc, fld_all (n := 2) (this.trans (by decide))]; omega) (this.trans (by decide))
  case cvt h d dt st m a =>
    obtain ⟨hv, hm⟩ := Bool.and_eq_true_iff.1 w
    have hdt := ctyCodec.enc_lt dt
    have hst := ctyCodec.enc_lt st
    exact reads_da rfl (by
      simp [decOp, decConvert, ctyCodec.dec_enc, rmOf_encRM, hv]
      exact ⟨⟨⟨hdt, hst⟩, encRM_big m⟩, (cvt_mode_iff dt st m).2 hm⟩)
  case pack h d k a b =>
    have := packCodec.enc_lt k
    exact reads_dab rfl (by simp [decOp, decConvert, packCodec.dec_enc]; exact ⟨w, this⟩) (this.trans (by decide))
  case unpack h d k u a => exact reads_da rfl (by simp [decOp, decConvert, unpackCodec.dec_enc]; exact w)
  case quant h d f t a =>
    exact reads_of 0 0x53 h 0 (encOWs d) (encOV d) (encV a) 0 (encMFmt f + 16 * encFTy t) 0 rfl
      (by simp [decOp, decConvert, mfmtCodec.dec_enc, ftyCodec.dec_enc]; exact (blockFmt_iff f).2 w)
  case qsplit h d t a o e nb =>
    exact reads_of 1 0x54 h 0 (encOWs d) (encOV d) (encV a) (encO o) (16 * encFTy t) (encV e + 2 ^ 11 * nb.toNat) rfl
      (by simp [decOp, decConvert, Raw.c, Raw.mod, ftyCodec.dec_enc]; exact ⟨w, nb.isLt⟩) (hhi := (encV_mod e nb).2.2)
  case dequant h d t f a =>
    exact reads_of 0 0x55 h 0 (encOWs d) (encOV d) (encV a) 0 (encMFmt f + 16 * encFTy t) 0 rfl
      (by simp [decOp, decConvert, mfmtCodec.dec_enc, ftyCodec.dec_enc]; exact (dequantFmt_iff f).2 w)
  all_goals exact absurd rfl he

theorem exists_float {len op : Nat} {h : Hdr} {ac ws d a b fn hi : Nat} (hs : FieldsOk len op h ac ws d a b fn hi)
    (h16 : 0x30 ≤ op ∧ op ≤ 0x44) (hq : (decFloat (rF len op h ac ws d a b fn hi)).1 = 0) :
    ∃ i, encRaw i = some (rF len op h ac ws d a b fn hi) ∧ operandsOk i = true := by
  obtain rfl | rfl | rfl | rfl | rfl | rfl | rfl | rfl | rfl | rfl | rfl | rfl | rfl | rfl | rfl | rfl | rfl | rfl
    | rfl | rfl | rfl :
    op = 0x30 ∨ op = 0x31 ∨ op = 0x32 ∨ op = 0x33 ∨ op = 0x34 ∨ op = 0x35 ∨ op = 0x36 ∨ op = 0x37 ∨ op = 0x38 ∨
      op = 0x39 ∨ op = 0x3A ∨ op = 0x3B ∨ op = 0x3C ∨ op = 0x3D ∨ op = 0x3E ∨ op = 0x3F ∨ op = 0x40 ∨ op = 0x41
      ∨ op = 0x42 ∨ op = 0x43 ∨ op = 0x44 := by omega
  · obtain rfl := hs.noAC rfl rfl
    simp [decFloat, and_assoc] at hq
    obtain ⟨him, h3, hf, hx⟩ := hq
    obtain ⟨t, m, rfl⟩ := exists_fmods h3 hf
    obtain ⟨D, A, B, rfl, rfl, rfl, rfl, rfl, rfl, hv⟩ | ⟨D, A, x, rfl, rfl, rfl, rfl, rfl, rfl, hv⟩ := hs.immForm rfl him
    · exact ⟨.fadd h D t A B m, rfl, hv⟩
    · exact ⟨.faddImm h D t A x m, rfl, Bool.and_eq_true_iff.2 ⟨hv, (imm16_iff t x).1 (by simpa [qImm16] using hx)⟩⟩
  · obtain rfl := hs.noAC rfl rfl
    simp [decFloat, and_assoc] at hq
    obtain ⟨him, h3, hf, hx⟩ := hq
    obtain ⟨t, m, rfl⟩ := exists_fmods h3 hf
    obtain ⟨D, A, B, rfl, rfl, rfl, rfl, rfl, rfl, hv⟩ | ⟨D, A, x, rfl, rfl, rfl, rfl, rfl, rfl, hv⟩ := hs.immForm rfl him
    · exact ⟨.fsub h D t A B m, rfl, hv⟩
    · exact ⟨.fsubImm h D t A x m, rfl, Bool.and_eq_true_iff.2 ⟨hv, (imm16_iff t x).1 (by simpa [qImm16] using hx)⟩⟩
  · obtain ⟨c, rfl⟩ := hs.exists_ac
    simp [decFloat, and_assoc] at hq
    obtain ⟨him, h3, hf, hx⟩ := hq
    obtain ⟨t, m, rfl⟩ := exists_fmods h3 hf
    obtain ⟨D, A, B, rfl, rfl, rfl, rfl, rfl, rfl, hv⟩ | ⟨D, A, x, rfl, rfl, rfl, rfl, rfl, rfl, hv⟩ := hs.immForm rfl him
    · exact ⟨.fmul h c D t A B m, rfl, hv⟩
    · exact ⟨.fmulImm h c D t A x m, rfl, Bool.and_eq_true_iff.2 ⟨hv, (imm16_iff t x).1 (by simpa [qImm16] using hx)⟩⟩
  · obtain ⟨c, rfl⟩ := hs.exists_ac
    obtain ⟨rfl, hi'⟩ := hs.long rfl rfl
    obtain ⟨C, m, rfl, hC, hm⟩ := exists_c_mod hi'
    simp [decFloat, Raw.c, Raw.mod, fld_c hC, fld_mod hC hm, hC, hs.causes, and_assoc] at hq
    obtain ⟨⟨D, rfl, rfl⟩, ⟨A, rfl⟩, ⟨B, rfl⟩, ⟨C, rfl⟩, hv, h4, h3, hf⟩ := hq
    obtain ⟨t, mm, rfl⟩ := exists_fmods h3 hf
    obtain ⟨nc, bc, rfl⟩ := exists_two h4
    exact ⟨.ffma h c D t A B C mm nc bc, rfl, (qVS_three D A B C).1 hv⟩
  · obtain rfl := hs.noAC rfl rfl
    simp [decFloat, and_assoc] at hq
    obtain ⟨him, h3, hf, hx⟩ := hq
    obtain ⟨t, m, rfl⟩ := exists_fmods h3 hf
    obtain ⟨D, A, B, rfl, rfl, rfl, rfl, rfl, rfl, hv⟩ | ⟨D, A, x, rfl, rfl, rfl, rfl, rfl, rfl, hv⟩ := hs.immForm rfl him
    · exact ⟨.fmin h D t A B m, rfl, hv⟩
    · exact ⟨.fminImm h D t A x m, rfl, Bool.and_eq_true_iff.2 ⟨hv, (imm16_iff t x).1 (by simpa [qImm16] using hx)⟩⟩
  · obtain rfl := hs.noAC rfl rfl
    simp [decFloat, and_assoc] at hq
    obtain ⟨him, h3, hf, hx⟩ := hq
    obtain ⟨t, m, rfl⟩ := exists_fmods h3 hf
    obtain ⟨D, A, B, rfl, rfl, rfl, rfl, rfl, rfl, hv⟩ | ⟨D, A, x, rfl, rfl, rfl, rfl, rfl, rfl, hv⟩ := hs.immForm rfl him
    · exact ⟨.fmax h D t A B m, rfl, hv⟩
    · exact ⟨.fmaxImm h D t A x m, rfl, Bool.and_eq_true_iff.2 ⟨hv, (imm16_iff t x).1 (by simpa [qImm16] using hx)⟩⟩
  · obtain rfl := hs.noAC rfl rfl
    obtain ⟨rfl, rfl⟩ | ⟨rfl, hi'⟩ := hs.either rfl rfl
    · simp [decFloat, qImm16, hs.causes, and_assoc] at hq
      obtain ⟨rfl, ⟨p, rfl, hp⟩, ⟨A, rfl⟩, h8, h3, hf, B, rfl⟩ := hq
      obtain ⟨cc, t, rfl⟩ := exists_fcmp h8 h3 hf
      exact ⟨.fcmp h p cc t A B, rfl, hp⟩
    · simp [decFloat, qImm16, hs.causes, and_assoc] at hq
      obtain ⟨rfl, ⟨p, rfl, hp⟩, ⟨A, rfl⟩, h8, h3, hf, hx, rfl⟩ := hq
      obtain ⟨cc, t, rfl⟩ := exists_fcmp h8 h3 hf
      obtain ⟨x, rfl⟩ := exists_toNat hi'
      exact ⟨.fcmpImm h p cc t A x, rfl, Bool.and_eq_true_iff.2 ⟨hp, (imm16_iff t x).1 (by simpa using hx)⟩⟩
  · obtain rfl := hs.noAC rfl rfl
    obtain ⟨rfl, rfl⟩ := hs.short rfl rfl
    simp [decFloat, hs.causes, and_assoc] at hq
    obtain ⟨⟨D, rfl, rfl⟩, ⟨A, rfl⟩, rfl, hv, h3, hf⟩ := hq
    obtain ⟨t, n, x, rfl⟩ := exists_f1 h3 hf
    exact ⟨.frcp h D t A n x, rfl, (qVS_one D A).1 hv⟩
  · obtain rfl := hs.noAC rfl rfl
    obtain ⟨rfl, rfl⟩ := hs.short rfl rfl
    simp [decFloat, hs.causes, and_assoc] at hq
    obtain ⟨⟨D, rfl, rfl⟩, ⟨A, rfl⟩, rfl, hv, h3, hf⟩ := hq
    obtain ⟨t, n, x, rfl⟩ := exists_f1 h3 hf
    exact ⟨.frsq h D t A n x, rfl, (qVS_one D A).1 hv⟩
  · obtain rfl := hs.noAC rfl rfl
    obtain ⟨rfl, rfl⟩ := hs.short rfl rfl
    simp [decFloat, hs.causes, and_assoc] at hq
    obtain ⟨⟨D, rfl, rfl⟩, ⟨A, rfl⟩, rfl, hv, h3, hf⟩ := hq
    obtain ⟨t, n, x, rfl⟩ := exists_f1 h3 hf
    exact ⟨.fsqrt h D t A n x, rfl, (qVS_one D A).1 hv⟩
  · obtain rfl := hs.noAC rfl rfl
    obtain ⟨rfl, rfl⟩ := hs.short rfl rfl
    simp [decFloat, hs.causes, and_assoc] at hq
    obtain ⟨⟨D, rfl, rfl⟩, ⟨A, rfl⟩, rfl, hv, h3, hf⟩ := hq
    obtain ⟨t, n, x, rfl⟩ := exists_f1 h3 hf
    exact ⟨.fexp2 h D t A n x, rfl, (qVS_one D A).1 hv⟩
  · obtain rfl := hs.noAC rfl rfl
    obtain ⟨rfl, rfl⟩ := hs.short rfl rfl
    simp [decFloat, hs.causes, and_assoc] at hq
    obtain ⟨⟨D, rfl, rfl⟩, ⟨A, rfl⟩, rfl, hv, h3, hf⟩ := hq
    obtain ⟨t, n, x, rfl⟩ := exists_f1 h3 hf
    exact ⟨.flog2 h D t A n x, rfl, (qVS_one D A).1 hv⟩
  · obtain rfl := hs.noAC rfl rfl
    obtain ⟨rfl, rfl⟩ := hs.short rfl rfl
    simp [decFloat, hs.causes, and_assoc] at hq
    obtain ⟨⟨D, rfl, rfl⟩, ⟨A, rfl⟩, rfl, hv, h3, hf⟩ := hq
    obtain ⟨t, n, x, rfl⟩ := exists_f1 h3 hf
    exact ⟨.ftanh h D t A n x, rfl, (qVS_one D A).1 hv⟩
  · obtain rfl := hs.noAC rfl rfl
    obtain ⟨rfl, rfl⟩ := hs.short rfl rfl
    simp [decFloat, hs.causes, and_assoc] at hq
    obtain ⟨⟨D, rfl, rfl⟩, ⟨A, rfl⟩, rfl, hv, h3, hf⟩ := hq
    obtain ⟨t, n, x, rfl⟩ := exists_f1 h3 hf
    exact ⟨.fclass h D t A n x, rfl, (qVS_one D A).1 hv⟩
  · obtain rfl := hs.noAC rfl rfl
    simp [decFloat] at hq
    obtain ⟨him, hf⟩ := hq
    obtain ⟨f, m, rfl⟩ := exists_hmods hf
    obtain ⟨D, A, B, rfl, rfl, rfl, rfl, rfl, rfl, hv⟩ | ⟨D, A, x, rfl, rfl, rfl, rfl, rfl, rfl, hv⟩ := hs.immForm rfl him
    · exact ⟨.hadd2 h D f A B m, rfl, hv⟩
    · exact ⟨.hadd2Imm h D f A x m, rfl, hv⟩
  · obtain ⟨c, rfl⟩ := hs.exists_ac
    simp [decFloat] at hq
    obtain ⟨him, hf⟩ := hq
    obtain ⟨f, m, rfl⟩ := exists_hmods hf
    obtain ⟨D, A, B, rfl, rfl, rfl, rfl, rfl, rfl, hv⟩ | ⟨D, A, x, rfl, rfl, rfl, rfl, rfl, rfl, hv⟩ := hs.immForm rfl him
    · exact ⟨.hmul2 h c D f A B m, rfl, hv⟩
    · exact ⟨.hmul2Imm h c D f A x m, rfl, hv⟩
  · obtain ⟨c, rfl⟩ := hs.exists_ac
    obtain ⟨rfl, hi'⟩ := hs.long rfl rfl
    obtain ⟨C, m, rfl, hC, hm⟩ := exists_c_mod hi'
    simp [decFloat, Raw.c, Raw.mod, fld_c hC, fld_mod hC hm, hC, hs.causes, and_assoc] at hq
    obtain ⟨⟨D, rfl, rfl⟩, ⟨A, rfl⟩, ⟨B, rfl⟩, ⟨C, rfl⟩, hv, h4, hf⟩ := hq
    obtain ⟨f, mm, rfl⟩ := exists_hmods hf
    obtain ⟨nc, bc, rfl⟩ := exists_two h4
    exact ⟨.hfma2 h c D f A B C mm nc bc, rfl, (qVS_three D A B C).1 hv⟩
  · obtain rfl := hs.noAC rfl rfl
    simp [decFloat] at hq
    obtain ⟨him, hf⟩ := hq
    obtain ⟨f, m, rfl⟩ := exists_hmods hf
    obtain ⟨D, A, B, rfl, rfl, rfl, rfl, rfl, rfl, hv⟩ | ⟨D, A, x, rfl, rfl, rfl, rfl, rfl, rfl, hv⟩ := hs.immForm rfl him
    · exact ⟨.hmin2 h D f A B m, rfl, hv⟩
    · exact ⟨.hmin2Imm h D f A x m, rfl, hv⟩
  · obtain rfl := hs.noAC rfl rfl
    simp [decFloat] at hq
    obtain ⟨him, hf⟩ := hq
    obtain ⟨f, m, rfl⟩ := exists_hmods hf
    obtain ⟨D, A, B, rfl, rfl, rfl, rfl, rfl, rfl, hv⟩ | ⟨D, A, x, rfl, rfl, rfl, rfl, rfl, rfl, hv⟩ := hs.immForm rfl him
    · exact ⟨.hmax2 h D f A B m, rfl, hv⟩
    · exact ⟨.hmax2Imm h D f A x m, rfl, hv⟩
  · obtain rfl := hs.noAC rfl rfl
    obtain ⟨rfl, rfl⟩ | ⟨rfl, hi'⟩ := hs.either rfl rfl
    · simp [decFloat, hs.causes, and_assoc] at hq
      obtain ⟨rfl, ⟨p, rfl, hp⟩, ⟨A, rfl⟩, h8, hf, B, rfl⟩ := hq
      obtain ⟨cc, f, cb, rfl⟩ := exists_hcmp h8 hf
      exact ⟨.hcmp2 h p cc f cb A B, rfl, hp⟩
    · simp [decFloat, hs.causes, and_assoc] at hq
      obtain ⟨rfl, ⟨p, rfl, hp⟩, ⟨A, rfl⟩, h8, hf, rfl⟩ := hq
      obtain ⟨cc, f, cb, rfl⟩ := exists_hcmp h8 hf
      obtain ⟨x, rfl⟩ := exists_toNat hi'
      exact ⟨.hcmp2Imm h p cc f cb A x, rfl, hp⟩
  · obtain rfl := hs.noAC rfl rfl
    obtain ⟨rfl, rfl⟩ := hs.short rfl rfl
    simp [decFloat, hs.causes, and_assoc] at hq
    obtain ⟨⟨D, rfl, rfl, hD⟩, ⟨A, rfl, hA⟩, rfl, hf⟩ := hq
    obtain ⟨t, rfl⟩ := ftyCodec.exists_enc hf
    exact ⟨.fsum h D t A, rfl, Bool.and_eq_true_iff.2 ⟨hD, hA⟩⟩

theorem exists_convert {len op : Nat} {h : Hdr} {ac ws d a b fn hi : Nat} (hs : FieldsOk len op h ac ws d a b fn hi)
    (h16 : 0x50 ≤ op ∧ op ≤ 0x55) (hq : (decConvert (rF len op h ac ws d a b fn hi)).1 = 0) :
    ∃ i, encRaw i = some (rF len op h ac ws d a b fn hi) ∧ operandsOk i = true := by
  obtain rfl | rfl | rfl | rfl | rfl | rfl :
    op = 0x50 ∨ op = 0x51 ∨ op = 0x52 ∨ op = 0x53 ∨ op = 0x54 ∨ op = 0x55 := by omega
  · obtain rfl := hs.noAC rfl rfl
    obtain ⟨rfl, rfl⟩ := hs.short rfl rfl
    simp [decConvert, hs.causes, and_assoc] at hq
    obtain ⟨⟨D, rfl, rfl⟩, ⟨A, rfl⟩, rfl, hv, hd, hst, hm, hz⟩ := hq
    obtain ⟨dt, st, m, rfl⟩ := exists_cvt hs.fn_lt hd hst hm
    simp at hz
    exact ⟨.cvt h D dt st m A, rfl, Bool.and_eq_true_iff.2 ⟨(qVS_one D A).1 hv, (cvt_mode_iff dt st m).1 hz⟩⟩
  · obtain rfl := hs.noAC rfl rfl
    obtain ⟨rfl, rfl⟩ := hs.short rfl rfl
    simp [decConvert, hs.causes, and_assoc] at hq
    obtain ⟨⟨D, rfl, rfl⟩, ⟨A, rfl⟩, ⟨B, rfl⟩, hv, hf⟩ := hq
    obtain ⟨k, rfl⟩ := packCodec.exists_enc hf
    exact ⟨.pack h D k A B, rfl, (qVS_two D A B).1 hv⟩
  · obtain rfl := hs.noAC rfl rfl
    obtain ⟨rfl, rfl⟩ := hs.short rfl rfl
    simp [decConvert, hs.causes, and_assoc] at hq
    obtain ⟨⟨D, rfl, rfl⟩, ⟨A, rfl⟩, rfl, hv, hf⟩ := hq
    obtain ⟨u, k, rfl⟩ := exists_unpack hf
    exact ⟨.unpack h D k u A, rfl, (qVS_one D A).1 hv⟩
  · obtain rfl := hs.noAC rfl rfl
    obtain ⟨rfl, rfl⟩ := hs.short rfl rfl
    simp [decConvert, hs.causes, and_assoc] at hq
    obtain ⟨⟨D, rfl, rfl⟩, ⟨A, rfl⟩, rfl, h4, h9, h3, hf⟩ := hq
    obtain ⟨f, t, rfl⟩ := exists_quant h9 h3 hf
    simp at h4 h9
    exact ⟨.quant h D f t A, rfl, (blockFmt_iff f).1 ⟨h4, h9⟩⟩
  · obtain rfl := hs.noAC rfl rfl
    obtain ⟨rfl, hi'⟩ := hs.long rfl rfl
    obtain ⟨C, m, rfl, hC, hm⟩ := exists_c_mod hi'
    simp [decConvert, Raw.c, Raw.mod, fld_c hC, fld_mod hC hm, hs.causes, and_assoc] at hq
    obtain ⟨⟨D, rfl, rfl⟩, ⟨A, rfl⟩, ⟨B, rfl, hB⟩, ⟨C, rfl⟩, h0, h3, hf, h16⟩ := hq
    obtain ⟨t, rfl⟩ := exists_qsplit h0 h3 hf
    obtain ⟨nb, rfl⟩ := exists_toNat (n := 4) h16
    exact ⟨.qsplit h D t A B C nb, rfl, hB⟩
  · obtain rfl := hs.noAC rfl rfl
    obtain ⟨rfl, rfl⟩ := hs.short rfl rfl
    simp [decConvert, hs.causes, and_assoc] at hq
    obtain ⟨⟨D, rfl, rfl⟩, ⟨A, rfl⟩, rfl, h4, h9, h3, hf⟩ := hq
    obtain ⟨f, t, rfl⟩ := exists_quant h9 h3 hf
    simp at h4 h9
    exact ⟨.dequant h D t f A, rfl, (dequantFmt_iff f).1 ⟨h4, h9⟩⟩

end Sys2Proof
end

section
/-! Matrix, local and copy instructions, encoded and decoded (R131, R146, R165, R177, R183). -/

namespace Sys2Proof

/-! ### Fields of matrix, local and copy instructions (R131, R146, R165, R177, R183) -/

theorem barCodec : Codec barOf encBar 17 := by
  refine ⟨?_, ?_, by decide⟩
  · rintro (n | _)
    · have : n.toNat ≠ 16 := by omega
      simp [barOf, encBar, this]
    · rfl
  · rintro (n | _)
    · exact n.isLt.trans (by decide)
    · decide
@[simp] theorem encBar_lt (b : Bar) : encBar b < 17 := barCodec.enc_lt b
@[simp] theorem encBar_lt_2048 (b : Bar) : encBar b < 2048 := (encBar_lt b).trans (by decide)

@[simp] theorem bufOf_encBuf (f : Buf) : bufOf (bit (encBuf f) 0) = f ∧ encBuf f < 2 ∧ encBuf f ≤ 1 ∧ encBuf f < 2048 := by
  cases f <;> decide
theorem exists_buf {x : Nat} (h : x < 2) : ∃ f, x = encBuf f := by
  obtain rfl | rfl : x = 0 ∨ x = 1 := by omega
  · exact ⟨.x, rfl⟩
  · exact ⟨.w, rfl⟩

/-- FN of a gather or scatter, by the kind of base. -/
@[simp] theorem gath_ext_fields (ty : LTy) : fld (encLTy ty) 0 3 = encLTy ty ∧ bit (encLTy ty) 3 = false ∧
    encLTy ty < 5 ∧ encLTy ty < 16 ∧ encLTy ty < 2048 := by cases ty <;> decide
@[simp] theorem gath_clu_fields (ty : LTy) : fld (encLTy ty + 8) 0 3 = encLTy ty ∧ bit (encLTy ty + 8) 3 = true ∧
    encLTy ty < 8 ∧ encLTy ty + 8 < 16 ∧ encLTy ty + 8 < 2048 := by cases ty <;> decide

/-- The destination of a gather. -/
theorem gathDst_iff (d : Dst) : (¬ encWs d = 1 ∧ (dstS0 d = false → dstS d = false)) ↔ dstSome d = true := by
  cases d <;> simp [encWs, dstS0, dstS, dstSome]

theorem exists_gathDst {ws d : Nat} (hw : ws < 2 ^ 1) (hr : isRsv d = false) (h1 : ¬ ws = 1)
    (hk : isS d = false → isV d = false → isRsv d = true) : ∃ D, ws = encWs D ∧ d = encD D ∧ dstSome D = true := by
  obtain rfl : ws = 0 := by omega
  obtain ⟨D, hD, rfl⟩ := (qDst_iff hw).1 (show qDst 0 d = 0 by
    simp only [qDst, hr, Nat.or_eq_zero_iff, on_eq_zero_iff]
    cases hS : isS d <;> cases hV : isV d <;> simp [hS, hV] at hk hr ⊢
    exact absurd hr (by simp [hk]))
  exact ⟨D, hD, rfl, (gathDst_iff D).1 ⟨by rw [← hD]; decide, by simpa using hk⟩⟩

/-- The source of a scatter. -/
theorem exists_scatSrc {d : Nat} (hd : d < 2 ^ 11) (hl : isL d = false) (hr : isRsv d = false) :
    ∃ x, d = encO x ∧ noLatch x = true := by
  obtain ⟨x, rfl⟩ := exists_opnd hd hr
  exact ⟨x, rfl, by simpa using hl⟩

theorem exists_gbaseFn {fn : Nat} {c : Bool} (hc : bit fn 3 = c) (h5 : fld fn 0 3 < 5) (hf : fn < 16) :
    ∃ ty, fn = encLTy ty + 8 * c.toNat := by
  subst hc
  refine ⟨ltyOf (fld fn 0 3), ?_⟩
  rw [ltyCodec.enc_dec _ h5, toNat_bit, fld_eq, fld_eq]
  omega

/-- FN of `BQRY`. -/
@[simp] theorem bqry_fields (b : Bar) (sel : BSel) : fld (encBar b + 32 * encBSel sel) 0 5 = encBar b ∧
    fld (encBar b + 32 * encBSel sel) 5 3 = encBSel sel ∧ encBar b + 32 * encBSel sel < 256 := by
  have := encBar_lt b; have := bselCodec.enc_lt sel
  rw [fld_eq, fld_eq]; omega

theorem exists_bqry {fn : Nat} (h17 : fld fn 0 5 < 17) (hf : fn < 256) : ∃ b sel, fn = encBar b + 32 * encBSel sel := by
  have := fld_lt fn 5 3
  refine ⟨barOf (fld fn 0 5), bselOf (fld fn 5 3), ?_⟩
  rw [barCodec.enc_dec _ h17, bselCodec.enc_dec _ (by omega), fld_eq, fld_eq]
  omega

/-! #### Copies -/

theorem encCBar_lt (c : Option (BitVec 4)) : encCBar c < 32 := by
  rcases c with _ | n
  · decide
  · exact n.isLt.trans (by decide)
@[simp] theorem copyBarOf_encCBar (c : Option (BitVec 4)) : copyBarOf (encCBar c) = c := by
  rcases c with _ | n
  · rfl
  · have : n.toNat ≠ 31 := by omega
    simp [copyBarOf, encCBar, this]
@[simp] theorem qCopyBar_encCBar (c : Option (BitVec 4)) : qCopyBar (encCBar c) = 0 := by
  rcases c with _ | n
  · decide
  · simp [qCopyBar, encCBar, Nat.not_le.2 n.isLt]
theorem exists_cbar {x : Nat} (h : qCopyBar x = 0) : ∃ c, x = encCBar c := by
  simp [qCopyBar] at h
  by_cases h16 : x < 16
  · obtain ⟨n, rfl⟩ := exists_toNat (n := 4) h16
    exact ⟨some n, rfl⟩
  · exact ⟨none, by simp [encCBar]; omega⟩

/-- FN of `COPY` and `CRED` from its parts; `s` is the shape and `l` says that EXT holds the length (R165). -/
def copyFn (f : Buf) (out : Bool) (s : Nat) (c : Option (BitVec 4)) (l : Nat) : Nat :=
  encBuf f + 2 * out.toNat + 4 * s + 16 * encCBar c + 512 * l

section
variable (f : Buf) (out : Bool) (c : Option (BitVec 4)) {s l : Nat} (hs : s < 4) (hl : l < 2)
include hs hl
@[simp] theorem copyFn_fields : bufOf (bit (copyFn f out s c l) 0) = f ∧ bit (copyFn f out s c l) 1 = out ∧
    fld (copyFn f out s c l) 2 2 = s ∧ fld (copyFn f out s c l) 4 5 = encCBar c ∧
    bit (copyFn f out s c l) 9 = decide (l = 1) ∧ bit (copyFn f out s c l) 10 = false ∧ copyFn f out s c l < 2048 := by
  have := encCBar_lt c
  have hf : bufOf (decide (encBuf f = 1)) = f := by cases f <;> rfl
  have ho : decide (out.toNat = 1) = out := by cases out <;> rfl
  have := (bufOf_encBuf f).2.1
  have := Bool.toNat_lt out
  unfold copyFn
  generalize encBuf f = fb at *
  generalize out.toNat = o at *
  simp only [bit_eq, fld_eq]
  refine ⟨?_, ?_, by omega, by omega, ?_, ?_, by omega⟩
  · convert hf using 3; omega
  · rw [← ho]; congr 1; simp only [eq_iff_iff]; omega
  · congr 1; simp only [eq_iff_iff]; omega
  · simp; omega
end

theorem exists_copyFn {fn s : Nat} {l : Bool} (hs : fld fn 2 2 = s) (hl : bit fn 9 = l) (hf : fn < 2048)
    (h10 : bit fn 10 = false) (hbar : qCopyBar (fld fn 4 5) = 0) : ∃ f out c, fn = copyFn f out s c l.toNat := by
  subst hs hl
  obtain ⟨f, hf0⟩ := exists_buf (fld_lt fn 0 1)
  obtain ⟨c, hc⟩ := exists_cbar hbar
  refine ⟨f, bit fn 1, c, ?_⟩
  have h10 : fld fn 10 1 = 0 := by rw [← toNat_bit, h10]; rfl
  simp only [copyFn, ← hf0, ← hc, toNat_bit, fld_eq] at *
  omega

/-- FN of `CRED` from its parts (R175). -/
def credFn (f : Buf) (op : RedOp) (c : Option (BitVec 4)) (l : Nat) : Nat :=
  encBuf f + 2 * encRed op + 16 * encCBar c + 512 * l

section
variable (f : Buf) (op : RedOp) (c : Option (BitVec 4)) {l : Nat} (hl : l < 2)
include hl
@[simp] theorem credFn_fields : bufOf (bit (credFn f op c l) 0) = f ∧ fld (credFn f op c l) 1 3 = encRed op ∧
    fld (credFn f op c l) 4 5 = encCBar c ∧ bit (credFn f op c l) 9 = decide (l = 1) ∧ bit (credFn f op c l) 10 = false ∧
    credFn f op c l < 2048 := by
  have := encCBar_lt c
  have hf : bufOf (decide (encBuf f = 1)) = f := by cases f <;> rfl
  have := (bufOf_encBuf f).2.1
  have := redCodec.enc_lt op
  unfold credFn
  generalize encBuf f = fb at *
  generalize encRed op = o at *
  simp only [bit_eq, fld_eq]
  refine ⟨?_, by omega, by omega, ?_, ?_, by omega⟩
  · convert hf using 3; omega
  · congr 1; simp only [eq_iff_iff]; omega
  · simp; omega
end

theorem exists_credFn {fn : Nat} {l : Bool} (hl : bit fn 9 = l) (hf : fn < 2048) (h6 : fld fn 1 3 < 6) (h10 : bit fn 10 = false)
    (hbar : qCopyBar (fld fn 4 5) = 0) : ∃ f op c, fld fn 1 3 = encRed op ∧ fn = credFn f op c l.toNat := by
  subst hl
  obtain ⟨f, hf0⟩ := exists_buf (fld_lt fn 0 1)
  obtain ⟨op, ho⟩ := redCodec.exists_enc h6
  obtain ⟨c, hc⟩ := exists_cbar hbar
  refine ⟨f, op, c, ho, ?_⟩
  have h10 : fld fn 10 1 = 0 := by rw [← toNat_bit, h10]; rfl
  simp only [credFn, ← hf0, ← ho, ← hc, toNat_bit, fld_eq] at *
  omega

/-- Bitwise operations of a copy need an integer type (R175). -/
theorem credTy_iff (op : RedOp) (ty : CredTy) :
    (3 ≤ encRed op → encCredTy ty ≤ 1) ↔ (!bitwise op || ty == .i32 || ty == .n32) = true := by
  cases op <;> cases ty <;> decide

/-- EXT of `COPY` and `CRED` from its parts; `x` is the length and `t` the type. -/
def copyX (x : Nat) (mbx : BitVec 12) (post : Bool) (t : Nat) : Nat :=
  x + 2 ^ 32 * mbx.toNat + 2 ^ 44 * post.toNat + 2 ^ 45 * t

section
variable {x t : Nat} (mbx : BitVec 12) (post : Bool) (hx : x < 4294967296) (ht : t < 4)
include hx ht
@[simp] theorem copyX_fields : fld (copyX x mbx post t) 0 32 = x ∧ BitVec.ofNat 12 (fld (copyX x mbx post t) 32 12) = mbx ∧
    bit (copyX x mbx post t) 44 = post ∧ fld (copyX x mbx post t) 45 2 = t ∧ fld (copyX x mbx post t) 45 19 = t ∧
    fld (copyX x mbx post t) 47 17 = 0 ∧ copyX x mbx post t < 18446744073709551616 := by
  have hp : decide (post.toNat = 1) = post := by cases post <;> rfl
  have hm : BitVec.ofNat 12 mbx.toNat = mbx := by simp
  have := Bool.toNat_lt post
  have := mbx.isLt
  unfold copyX
  generalize post.toNat = o at *
  generalize mbx.toNat = m at *
  simp only [bit_eq, fld_eq]
  refine ⟨by omega, ?_, ?_, by omega, by omega, by omega, by omega⟩
  · rw [← hm]; congr 1; omega
  · rw [← hp]; congr 1; simp only [eq_iff_iff]; omega
end

theorem exists_copyX {hi x t : Nat} (h : hi < 2 ^ 64) (hx : fld hi 0 32 = x) (ht : fld hi 45 2 = t) (h0 : fld hi 47 17 = 0) :
    ∃ mbx post, hi = copyX x mbx post t := by
  subst hx ht
  obtain ⟨m, hm⟩ := exists_toNat (fld_lt hi 32 12)
  refine ⟨m, bit hi 44, ?_⟩
  simp only [copyX, ← hm, toNat_bit, fld_eq] at *
  omega

theorem exists_copyX0 {hi x : Nat} (h : hi < 2 ^ 64) (hx : fld hi 0 32 = x) (h0 : fld hi 45 19 = 0) :
    ∃ mbx post, hi = copyX x mbx post 0 := by
  refine exists_copyX h hx ?_ ?_ <;> simp only [fld_eq] at * <;> omega

/-- FN of `CREG`: shape and the length flag. -/
theorem cregFn_fields : (fld 0 2 2 = 0 ∧ fld 0 0 2 = 0 ∧ fld 0 4 5 = 0 ∧ bit 0 9 = false ∧ bit 0 10 = false) ∧
    (fld 512 2 2 = 0 ∧ fld 512 0 2 = 0 ∧ fld 512 4 5 = 0 ∧ bit 512 9 = true ∧ bit 512 10 = false) ∧
    (fld 4 2 2 = 1 ∧ fld 4 0 2 = 0 ∧ fld 4 4 5 = 0 ∧ bit 4 9 = false ∧ bit 4 10 = false) ∧
    (fld 8 2 2 = 2 ∧ fld 8 0 2 = 0 ∧ fld 8 4 5 = 0 ∧ bit 8 9 = false ∧ bit 8 10 = false) := by decide

theorem cregFn_eq {fn s : Nat} {l : Bool} (hs : fld fn 2 2 = s) (hl : bit fn 9 = l) (hf : fn < 2048) (h0 : fld fn 0 2 = 0)
    (h4 : fld fn 4 5 = 0) (h10 : bit fn 10 = false) : fn = 4 * s + 512 * l.toNat := by
  subst hs hl
  have h10 : fld fn 10 1 = 0 := by rw [← toNat_bit, h10]; rfl
  simp only [toNat_bit, fld_eq] at *
  omega

theorem cregX_eq {hi x : Nat} (h : hi < 2 ^ 64) (hx : fld hi 0 32 = x) (h0 : fld hi 32 32 = 0) : hi = x := by
  simp only [fld_eq] at *
  omega

@[simp] theorem fld_zero (lo n : Nat) : fld 0 lo n = 0 := by rw [fld_eq, Nat.zero_div, Nat.zero_mod]

/-- A word in EXT 31:0. -/
@[simp] theorem fld_word (x : Word) : fld x.toNat 0 32 = x.toNat ∧ fld x.toNat 32 32 = 0 ∧
    x.toNat < 18446744073709551616 := by
  have := x.isLt
  refine ⟨fld_all this, ?_, this.trans (by decide)⟩
  rw [fld_eq]; omega

/-- The length of a copy, for fields B, FN and EXT. -/
theorem exists_len {b fn hi : Nat} (hb : b < 2048) (h : (if bit fn 9 = true then qZ b else qSI b ||| qZ (fld hi 0 32)) = 0) :
    ∃ n, b = encLenB n ∧ fld hi 0 32 = encLenX n ∧ 512 * (bit fn 9).toNat = encLenF n ∧ lenOk n = true := by
  cases h9 : bit fn 9
  · simp [h9, qSI_iff hb] at h
    obtain ⟨⟨o, rfl, ho⟩, h0⟩ := h
    exact ⟨.opnd o, rfl, h0, rfl, ho⟩
  · simp [h9] at h
    obtain ⟨x, hx⟩ := exists_toNat (fld_lt hi 0 32)
    exact ⟨.ext x, h, hx, rfl, rfl⟩

/-! #### Matrix operands -/

/-- Field MAP of a matrix instruction. -/
def mapCode (m : Option SReg) : Nat := m.elim 0x600 fun s => s.toNat
/-- Fields AF, BF and ACC of a matrix instruction, and the flag in FN that says they are there. -/
def ovrCode (o : Option MOvr) : Nat := o.elim 0 fun o => encMFmt o.af + 2 ^ 4 * encMFmt o.bf + 2 ^ 8 * encMAcc o.acc
def ovrFlag (o : Option MOvr) : Nat := o.elim 0 fun _ => 1

theorem encMX_eq (m : MOps) : encMX m = encO m.astride + 2 ^ 11 * encO m.n + 2 ^ 22 * mapCode m.map + 2 ^ 33 * ovrCode m.ovr
    + 2 ^ 43 * m.klen.toNat := by
  obtain ⟨_, _, _, _, _, _, _ | _, _ | _, _⟩ := m <;> rfl

theorem rM_eq (op : Nat) (h : Hdr) (m : MOps) (fn : Nat) : rM op h m fn =
    rF 2 op h (encAC m.ac) 0 (encV m.vc) (encV m.vb) (encO m.a) (fn + 2 ^ 8 * ovrFlag m.ovr) (encMX m) := by
  obtain ⟨_, _, _, _, _, _, _, _ | _, _⟩ := m <;> rfl

theorem mapCode_lt (m : Option SReg) : mapCode m < 2 ^ 11 := by
  rcases m with _ | s
  · decide
  · show s.toNat < _; omega
theorem ovrCode_lt (o : Option MOvr) : ovrCode o < 2 ^ 10 := by
  rcases o with _ | ⟨a, b, c⟩
  · decide
  · have := mfmtCodec.enc_lt a; have := mfmtCodec.enc_lt b; have := maccCodec.enc_lt c
    simp only [ovrCode, Option.elim]; omega
@[simp] theorem ovrFlag_le_one (o : Option MOvr) : ovrFlag o ≤ 1 := by cases o <;> simp [ovrFlag]

theorem mapCode_dec (m : Option SReg) : (if mapCode m = 0x600 then none else some (sr (mapCode m))) = m := by
  rcases m with _ | s
  · rfl
  · have : s.toNat ≠ 0x600 := by omega
    simp [mapCode, this]

theorem mapCode_ok (m : Option SReg) :
    (mapCode m != 0x600 && !(isS (mapCode m) && decide (mapCode m % 8 = 0))) = false ↔ m.elim true s8Ok = true := by
  rcases m with _ | s
  · simp [mapCode]
  · have : s.toNat ≠ 0x600 := by omega
    simp [mapCode, this, s8Ok]
    exact decide_eq_true_iff

theorem exists_map {x : Nat} (h : (x != 0x600 && !(isS x && decide (x % 8 = 0))) = false) :
    ∃ m, x = mapCode m ∧ m.elim true s8Ok = true := by
  by_cases h6 : x = 0x600
  · exact ⟨none, h6, rfl⟩
  · simp [h6, isS] at h
    obtain ⟨s, rfl⟩ := exists_toNat (n := 10) h.1
    exact ⟨some s, rfl, decide_eq_true h.2⟩

/-- What the fields of EXT are (R146). -/
theorem encMX_fields (m : MOps) : fld (encMX m) 0 11 = encO m.astride ∧ fld (encMX m) 11 11 = encO m.n ∧
    fld (encMX m) 22 11 = mapCode m.map ∧ fld (encMX m) 33 10 = ovrCode m.ovr ∧ fld (encMX m) 33 4 = fld (ovrCode m.ovr) 0 4 ∧
    fld (encMX m) 37 4 = fld (ovrCode m.ovr) 4 4 ∧ fld (encMX m) 41 2 = fld (ovrCode m.ovr) 8 2 ∧
    fld (encMX m) 43 10 = m.klen.toNat ∧ fld (encMX m) 53 11 = 0 ∧ encMX m < 2 ^ 64 := by
  have := encO_lt m.astride
  have := encO_lt m.n
  have := mapCode_lt m.map
  have := ovrCode_lt m.ovr
  have := m.klen.isLt
  rw [encMX_eq]
  generalize encO m.astride = a at *; generalize encO m.n = b at *; generalize mapCode m.map = c at *
  generalize ovrCode m.ovr = d at *; generalize m.klen.toNat = e at *
  simp only [fld_eq]
  refine ⟨?_, ?_, ?_, ?_, ?_, ?_, ?_, ?_, ?_, ?_⟩ <;> omega

theorem mFn_fields {x : Nat} (hx : x < 256) (o : Option MOvr) : bit (x + 2 ^ 8 * ovrFlag o) 8 = o.isSome ∧
    fld (x + 2 ^ 8 * ovrFlag o) 0 8 = x ∧ x + 2 ^ 8 * ovrFlag o < 512 := by
  have h8 : fld (x + 2 ^ 8 * ovrFlag o) 8 1 = ovrFlag o := by
    rcases o with _ | o <;> simp only [fld_eq, ovrFlag, Option.elim] <;> omega
  refine ⟨?_, fld_low hx _, ?_⟩
  · rw [bit_eq, h8]; cases o <;> rfl
  · have := ovrFlag_le_one o; omega

/-- The fields AF, BF and ACC of an override. -/
theorem ovrCode_fields (a b : MFmt) (c : MAcc) : fld (ovrCode (some ⟨a, b, c⟩)) 0 4 = encMFmt a ∧
    fld (ovrCode (some ⟨a, b, c⟩)) 4 4 = encMFmt b ∧ fld (ovrCode (some ⟨a, b, c⟩)) 8 2 = encMAcc c := by
  have := mfmtCodec.enc_lt a; have := mfmtCodec.enc_lt b; have := maccCodec.enc_lt c
  simp only [ovrCode, Option.elim, fld_eq]
  omega

theorem ovrCode_dec (o : Option MOvr) : (if o.isSome = true then
    some ⟨mfmtOf (fld (ovrCode o) 0 4), mfmtOf (fld (ovrCode o) 4 4), maccOf (fld (ovrCode o) 8 2)⟩ else none) = o := by
  rcases o with _ | ⟨a, b, c⟩
  · rfl
  · simp [ovrCode_fields, mfmtCodec.dec_enc, maccCodec.dec_enc]

theorem ovrCode_ok (o : Option MOvr) : (if o.isSome = true then
    decide (9 ≤ fld (ovrCode o) 0 4) || decide (9 ≤ fld (ovrCode o) 4 4) || decide (2 ≤ fld (ovrCode o) 8 2)
    else ovrCode o != 0) = false := by
  rcases o with _ | ⟨a, b, c⟩
  · rfl
  · have := mfmtCodec.enc_lt a; have := mfmtCodec.enc_lt b; have := maccCodec.enc_lt c
    simp [ovrCode_fields]
    omega

theorem exists_ovr {hi : Nat} {f : Bool} (h : (if f = true then
    decide (9 ≤ fld hi 33 4) || decide (9 ≤ fld hi 37 4) || decide (2 ≤ fld hi 41 2) else fld hi 33 10 != 0) = false) :
    ∃ o, fld hi 33 10 = ovrCode o ∧ f.toNat = ovrFlag o := by
  cases f
  · exact ⟨none, by simpa [ovrCode] using h, rfl⟩
  · simp at h
    obtain ⟨⟨h1, h2⟩, h3⟩ := h
    refine ⟨some ⟨mfmtOf (fld hi 33 4), mfmtOf (fld hi 37 4), maccOf (fld hi 41 2)⟩, ?_, rfl⟩
    simp only [ovrCode, Option.elim, mfmtCodec.enc_dec _ h1, mfmtCodec.enc_dec _ h2, maccCodec.enc_dec _ (Nat.lt_succ_of_le h3)]
    simp only [fld_eq]
    omega

section
variable (op : Nat) (h : Hdr) (m : MOps) {x : Nat} (hx : x < 256)
include hx
theorem mopsOf_rF : mopsOf (rF 2 op h (encAC m.ac) 0 (encV m.vc) (encV m.vb) (encO m.a) (x + 2 ^ 8 * ovrFlag m.ovr) (encMX m))
    = m := by
  obtain ⟨h0, h1, h2, -, h4, h5, h6, h7, -⟩ := encMX_fields m
  simp only [mopsOf, h0, h1, h2, h4, h5, h6, h7, (mFn_fields hx m.ovr).1, mapCode_dec,
    ovrCode_dec, acCodec.dec_enc, vr_encV, opd_encO]
  simp

theorem qMops_rF : qMops (rF 2 op h (encAC m.ac) 0 (encV m.vc) (encV m.vb) (encO m.a) (x + 2 ^ 8 * ovrFlag m.ovr) (encMX m)) = 0
    ↔ mopsOk m = true := by
  obtain ⟨h0, h1, h2, h3, h4, h5, h6, h7, h8, -⟩ := encMX_fields m
  obtain ⟨f1, -, f2⟩ := mFn_fields hx m.ovr
  have h9 : ¬ 512 ≤ x + 2 ^ 8 * ovrFlag m.ovr := by omega
  simp only [qMops, h0, h1, h2, h3, h4, h5, h6, h7, h8, h9, f1, ovrCode_ok,
    Nat.or_eq_zero_iff, on_eq_zero_iff, mapCode_ok]
  simp [mopsOk, and_assoc]
end

/-- A word of a matrix instruction that no cause of R146 rejects. -/
theorem FieldsOk.exists_mops {op : Nat} {h : Hdr} {ac ws d a b fn hi : Nat} (hs : FieldsOk 2 op h ac ws d a b fn hi)
    (hq : qMops (rF 2 op h ac ws d a b fn hi) = 0) :
    ∃ m, rF 2 op h ac ws d a b fn hi = rM op h m (fld fn 0 8) ∧ mopsOk m = true := by
  have h64 : hi < 2 ^ 64 := hs.hi_lt
  obtain ⟨c, rfl⟩ := hs.exists_ac
  simp only [qMops, Nat.or_eq_zero_iff, on_eq_zero_iff, e5_ne_zero, or_false, hs.causes,
    qSI_iff hs.b_lt, qSI_iff (fld_lt _ _ 11)] at hq
  obtain ⟨⟨⟨⟨⟨⟨⟨⟨rfl, vc, rfl⟩, vb, rfl⟩, A, rfl, hA⟩, S, hS, hS'⟩, N, hN, hN'⟩, hmap⟩, hovr⟩, hend⟩ := hq
  obtain ⟨map, hmap, hmap'⟩ := exists_map hmap
  obtain ⟨ovr, hovr, hflag⟩ := exists_ovr hovr
  obtain ⟨k, hk⟩ := exists_toNat (fld_lt hi 43 10)
  simp at hend
  obtain ⟨⟨hk', h0⟩, hfn⟩ := hend
  have hX : hi = encMX ⟨c, vc, vb, A, S, N, map, ovr, k⟩ := by
    rw [encMX_eq]
    simp only [← hS, ← hN, ← hmap, ← hovr, ← hk]
    simp only [fld_eq] at *
    omega
  have hF : fn = fld fn 0 8 + 2 ^ 8 * ovrFlag ovr := by
    rw [← hflag, toNat_bit, fld_eq, fld_eq]
    omega
  have hr := rM_eq op h ⟨c, vc, vb, A, S, N, map, ovr, k⟩ (fld fn 0 8)
  rw [← hX, ← hF] at hr
  refine ⟨_, hr.symm, ?_⟩
  simp only [mopsOk, hA, hS', hN', hmap', ← hk, hk', decide_true, Bool.and_self]

/-- A matrix instruction's word. -/
theorem reads_m {i : Instr} {op : Nat} {h : Hdr} {m : MOps} {x : Nat} (enc : encRaw i = some (rM op h m x))
    (hx : x < 256)
    (dec : decOp (rF 2 op h (encAC m.ac) 0 (encV m.vc) (encV m.vb) (encO m.a) (x + 2 ^ 8 * ovrFlag m.ovr) (encMX m)) = (0, i))
    (hop : 2 < 3 ∧ op < 256 ∧ (lensOf op).testBit 2 = true := by decide) (hac : acOk op = true := by decide) : Reads i := by
  rw [rM_eq] at enc
  have := (mFn_fields hx m.ovr).2.2
  exact reads_of 2 op h (encAC m.ac) 0 (encV m.vc) (encV m.vb) (encO m.a) _ _ enc dec
    (this.trans (by decide)) (encMX_fields m).2.2.2.2.2.2.2.2.2 hop ⟨acCodec.enc_lt m.ac, .inr hac⟩

theorem mFn_ofNat (bs : BitVec 8) (k : Nat) : BitVec.ofNat 8 (bs.toNat + 2 ^ 8 * k) = bs := by
  apply BitVec.eq_of_toNat_eq
  rw [BitVec.toNat_ofNat]
  omega

theorem decOp_mloop (h : Hdr) (ac ws d a b fn hi : Nat) : decOp (rF 2 0x60 h ac ws d a b fn hi) =
    (qMops (rF 2 0x60 h ac ws d a b fn hi), .mloop h (mopsOf (rF 2 0x60 h ac ws d a b fn hi)) (.ofNat 8 fn)) := by
  simp [decOp, decMatrix]
theorem decOp_mstep (h : Hdr) (ac ws d a b fn hi : Nat) : decOp (rF 2 0x61 h ac ws d a b fn hi) =
    (qMops (rF 2 0x61 h ac ws d a b fn hi) ||| on (fld fn 0 8 != 0) e5,
      .mstep h (mopsOf (rF 2 0x61 h ac ws d a b fn hi))) := by
  simp [decOp, decMatrix]

theorem reads_data {i : Instr} (he : encRawData i ≠ none) (w : operandsOk i = true) : Reads i := by
  cases i
  case mloop h m bs =>
    exact reads_m rfl bs.isLt
      (by rw [decOp_mloop, (qMops_rF _ h m bs.isLt).2 w, mopsOf_rF _ h m bs.isLt, mFn_ofNat])
  case mstep h m =>
    exact reads_m rfl (by decide)
      (by
        rw [decOp_mstep, (qMops_rF _ h m (by decide)).2 w, mopsOf_rF _ h m (by decide), (mFn_fields (by decide) m.ovr).2.1]
        rfl)
  case mzero h d n => exact reads_n rfl (by simp [decOp, decMatrix]; exact w)
  case mdup h d pos m b =>
    obtain ⟨hdm, hb⟩ := Bool.and_eq_true_iff.1 w
    obtain ⟨hd, hm⟩ := Bool.and_eq_true_iff.1 hdm
    exact reads_of 0 0x63 h 0 (encWs d) (encD d) m.toNat (encO b) pos.toNat 0 rfl
      (by simp [decOp, decMatrix, hd, hm, hb, Bool.toNat_le])
  case mqry h d => exact reads_d rfl (by simp [decOp, decMatrix]; exact w)
  case mreset h a => exact reads_n rfl (by simp [decOp, decMatrix]; exact w)
  case ldx h d ty a b =>
    obtain ⟨ha, hv⟩ := Bool.and_eq_true_iff.1 w
    exact reads_dab rfl (by simp [decOp, decLocal, ltyCodec.dec_enc, ha, hv])
  case stx h x ty a b => exact reads_n rfl (by simp [decOp, decLocal, ltyCodec.dec_enc]; exact w)
  case ldw h d ty a b =>
    obtain ⟨ha, hv⟩ := Bool.and_eq_true_iff.1 w
    exact reads_dab rfl (by simp [decOp, decLocal, ltyCodec.dec_enc, ha, hv])
  case stw h x ty a b => exact reads_n rfl (by simp [decOp, decLocal, ltyCodec.dec_enc]; exact w)
  case tgive h f a n =>
    obtain ⟨ha, hn⟩ := Bool.and_eq_true_iff.1 w
    exact reads_n rfl (by simp [decOp, decLocal, ha, hn])
  case ttake h f a n =>
    obtain ⟨ha, hn⟩ := Bool.and_eq_true_iff.1 w
    exact reads_n rfl (by simp [decOp, decLocal, ha, hn])
  case waitp h p t =>
    have := pathCodec.enc_lt p
    exact reads_n rfl (by simp [decOp, decLocal, pathCodec.dec_enc]; exact ⟨w, this⟩) (this.trans (by decide))
  case pcnt h d p =>
    have := pathCodec.enc_lt p
    exact reads_d rfl (by simp [decOp, decLocal, pathCodec.dec_enc]; exact ⟨w, this⟩) (this.trans (by decide))
  case copy h d e f out sh bar mbx post =>
    obtain ⟨hd, hs⟩ := Bool.and_eq_true_iff.1 w
    rcases sh with (n | x) | m | m | _
    · obtain ⟨hp, hn⟩ := Bool.and_eq_true_iff.1 hs
      exact reads_x (b := encO n) (fn := copyFn f out 0 bar 0) (hi := copyX 0 mbx post 0) rfl
        (by simp [decOp, decCopy, hd, hp, qCopyLen, copyLenOf]; exact hn)
    · obtain ⟨hp, hn⟩ := Bool.and_eq_true_iff.1 hs
      exact reads_x (b := 0) (fn := copyFn f out 0 bar 1) (hi := copyX x.toNat mbx post 0) rfl
        (by simp [decOp, decCopy, hd, hp, qCopyLen, copyLenOf])
    · obtain ⟨hp, hm⟩ := Bool.and_eq_true_iff.1 hs
      exact reads_x (b := m.toNat) (fn := copyFn f out 1 bar 0) (hi := copyX 0 mbx post 0) rfl
        (by simp [decOp, decCopy, hd, hp, hm])
    · obtain ⟨hp, hm⟩ := Bool.and_eq_true_iff.1 hs
      exact reads_x (b := m.toNat) (fn := copyFn f out 2 bar 0) (hi := copyX 0 mbx post 0) rfl
        (by simp [decOp, decCopy, hd, hp, hm])
    · exact reads_x (b := 0) (fn := copyFn f out 3 bar 0) (hi := copyX 0 mbx post 0) rfl
        (by simp [decOp, decCopy, hd])
  case creg h d e sh =>
    obtain ⟨hde, hs⟩ := Bool.and_eq_true_iff.1 w
    obtain ⟨hd, hp⟩ := Bool.and_eq_true_iff.1 hde
    rcases sh with (n | x) | m | m
    · exact reads_of 2 0x81 h 0 (encWs d) (encD d) e.toNat (encO n) 0 0 rfl
        (by simp [decOp, decCopy, hd, hp, qCopyLen, copyLenOf, cregFn_fields]; exact hs)
    · exact reads_of 2 0x81 h 0 (encWs d) (encD d) e.toNat 0 512 x.toNat rfl
        (by simp [decOp, decCopy, hd, hp, qCopyLen, copyLenOf, cregFn_fields])
    · exact reads_of 2 0x81 h 0 (encWs d) (encD d) e.toNat m.toNat 4 0 rfl
        (by simp [decOp, decCopy, hd, hp, cregFn_fields]; exact hs)
    · exact reads_of 2 0x81 h 0 (encWs d) (encD d) e.toNat m.toNat 8 0 rfl
        (by simp [decOp, decCopy, hd, hp, cregFn_fields]; exact hs)
  case cunreg h a => exact reads_n rfl (by simp [decOp, decCopy])
  case creplay h a => exact reads_n rfl (by simp [decOp, decCopy, bit])
  case creplayDrop h a => exact reads_n rfl (by simp [decOp, decCopy, bit])
  case cred h d e f op ty n bar mbx post =>
    obtain ⟨hden, ht⟩ := Bool.and_eq_true_iff.1 w
    obtain ⟨hde, hn⟩ := Bool.and_eq_true_iff.1 hden
    obtain ⟨hd, hp⟩ := Bool.and_eq_true_iff.1 hde
    have hop := redCodec.enc_lt op
    have hty := credTyCodec.enc_lt ty
    rcases n with n | x
    · exact reads_x (b := encO n) (fn := credFn f op bar 0) (hi := copyX 0 mbx post (encCredTy ty)) rfl
        (by
          simp [decOp, decCopy, hd, hp, qCopyLen, copyLenOf, redCodec.dec_enc, credTyCodec.dec_enc, hty]
          exact ⟨hn, hop, (credTy_iff op ty).2 ht⟩)
        (hhi := (copyX_fields mbx post (by decide) hty).2.2.2.2.2.2)
    · exact reads_x (b := 0) (fn := credFn f op bar 1) (hi := copyX x.toNat mbx post (encCredTy ty)) rfl
        (by
          simp [decOp, decCopy, hd, hp, qCopyLen, copyLenOf, redCodec.dec_enc, credTyCodec.dec_enc, hty]
          exact ⟨hop, (credTy_iff op ty).2 ht⟩)
        (hhi := (copyX_fields mbx post x.isLt hty).2.2.2.2.2.2)
  case gath h d ty b off =>
    obtain ⟨hdo, hb⟩ := Bool.and_eq_true_iff.1 w
    obtain ⟨hd, ho⟩ := Bool.and_eq_true_iff.1 hdo
    cases b with
    | ext p =>
      exact reads_of 0 0x85 h 0 (encWs d) (encD d) p.toNat (encO off) (encLTy ty) 0 rfl
        (by simp [decOp, decCopy, ltyCodec.dec_enc, ho, gathDst_iff, hd]; exact hb)
    | clu p =>
      exact reads_of 0 0x85 h 0 (encWs d) (encD d) p.toNat (encO off) (encLTy ty + 8) 0 rfl
        (by simp [decOp, decCopy, ltyCodec.dec_enc, ho, gathDst_iff, hd])
  case scat h x ty b off =>
    obtain ⟨hx, hb⟩ := Bool.and_eq_true_iff.1 w
    cases b with
    | ext p => exact reads_n (a := p.toNat) (fn := encLTy ty) rfl (by simp [decOp, decCopy, ltyCodec.dec_enc, hx]; exact hb)
    | clu p => exact reads_n (a := p.toNat) (fn := encLTy ty + 8) rfl (by simp [decOp, decCopy, ltyCodec.dec_enc, hx])
  case binit h b n => exact reads_n rfl (by simp [decOp, decCopy]; exact ⟨b.isLt, w⟩) (by omega)
  case binitImm h b x => exact reads_x rfl (by simp [decOp, decCopy]; exact b.isLt) (by omega)
  case barr h b => exact reads_n rfl (by simp [decOp, decCopy, barCodec.dec_enc])
  case bwait h p b g =>
    obtain ⟨hp, hg⟩ := Bool.and_eq_true_iff.1 w
    exact reads_n rfl (by simp [decOp, decCopy, barCodec.dec_enc, hp, hg])
  case barw h p b => exact reads_n rfl (by simp [decOp, decCopy, barCodec.dec_enc]; exact w)
  case binv h b => exact reads_n rfl (by simp [decOp, decCopy]; exact b.isLt) (by omega)
  case bqry h d sel b =>
    exact reads_d rfl (by simp [decOp, decCopy, barCodec.dec_enc, bselCodec.dec_enc]; exact w)
      ((bqry_fields b sel).2.2.trans (by decide))
  all_goals exact absurd rfl he

theorem exists_matrix {len op : Nat} {h : Hdr} {ac ws d a b fn hi : Nat} (hs : FieldsOk len op h ac ws d a b fn hi)
    (h16 : 0x60 ≤ op ∧ op ≤ 0x65) (hq : (decMatrix (rF len op h ac ws d a b fn hi)).1 = 0) :
    ∃ i, encRaw i = some (rF len op h ac ws d a b fn hi) ∧ operandsOk i = true := by
  obtain rfl | rfl | rfl | rfl | rfl | rfl :
    op = 0x60 ∨ op = 0x61 ∨ op = 0x62 ∨ op = 0x63 ∨ op = 0x64 ∨ op = 0x65 := by omega
  · obtain ⟨rfl, hi'⟩ := hs.ext rfl rfl
    have hq : qMops _ = 0 := hq
    obtain ⟨m, hr, hm⟩ := hs.exists_mops hq
    obtain ⟨bs, hbs⟩ := exists_toNat (fld_lt fn 0 8)
    rw [hbs] at hr
    exact ⟨.mloop h m bs, congrArg some hr.symm, hm⟩
  · obtain ⟨rfl, hi'⟩ := hs.ext rfl rfl
    simp [decMatrix] at hq
    obtain ⟨m, hr, hm⟩ := hs.exists_mops hq.1
    rw [hq.2] at hr
    exact ⟨.mstep h m, congrArg some hr.symm, hm⟩
  · obtain rfl := hs.noAC rfl rfl
    obtain ⟨rfl, rfl⟩ := hs.short rfl rfl
    simp [decMatrix, hs.causes, and_assoc] at hq
    obtain ⟨rfl, ⟨D, rfl⟩, rfl, ⟨B, rfl, hB⟩, rfl⟩ := hq
    exact ⟨.mzero h D B, rfl, hB⟩
  · obtain rfl := hs.noAC rfl rfl
    obtain ⟨rfl, rfl⟩ := hs.short rfl rfl
    simp [decMatrix, hs.causes, and_assoc] at hq
    obtain ⟨⟨D, rfl, rfl, hD⟩, ⟨m, rfl, hm⟩, ⟨B, rfl, hB⟩, hf⟩ := hq
    obtain ⟨p, rfl⟩ := exists_bool (x := fn) (by omega)
    exact ⟨.mdup h D p m B, rfl, Bool.and_eq_true_iff.2 ⟨Bool.and_eq_true_iff.2 ⟨hD, hm⟩, hB⟩⟩
  · obtain rfl := hs.noAC rfl rfl
    obtain ⟨rfl, rfl⟩ := hs.short rfl rfl
    simp [decMatrix, hs.causes, and_assoc] at hq
    obtain ⟨⟨D, rfl, rfl, hD⟩, rfl, rfl, rfl⟩ := hq
    exact ⟨.mqry h D, rfl, hD⟩
  · obtain rfl := hs.noAC rfl rfl
    obtain ⟨rfl, rfl⟩ := hs.short rfl rfl
    simp [decMatrix, hs.causes, and_assoc] at hq
    obtain ⟨rfl, rfl, ⟨A, rfl, hA⟩, rfl, rfl⟩ := hq
    exact ⟨.mreset h A, rfl, hA⟩

theorem exists_local {len op : Nat} {h : Hdr} {ac ws d a b fn hi : Nat} (hs : FieldsOk len op h ac ws d a b fn hi)
    (h16 : 0x70 ≤ op ∧ op ≤ 0x77) (hq : (decLocal (rF len op h ac ws d a b fn hi)).1 = 0) :
    ∃ i, encRaw i = some (rF len op h ac ws d a b fn hi) ∧ operandsOk i = true := by
  obtain rfl | rfl | rfl | rfl | rfl | rfl | rfl | rfl :
    op = 0x70 ∨ op = 0x71 ∨ op = 0x72 ∨ op = 0x73 ∨ op = 0x74 ∨ op = 0x75 ∨ op = 0x76 ∨ op = 0x77 := by omega
  · obtain rfl := hs.noAC rfl rfl
    obtain ⟨rfl, rfl⟩ := hs.short rfl rfl
    simp [decLocal, hs.causes, and_assoc] at hq
    obtain ⟨⟨D, rfl, rfl⟩, ⟨A, rfl, hA⟩, ⟨B, rfl⟩, hf, hv⟩ := hq
    obtain ⟨ty, rfl⟩ := ltyCodec.exists_enc hf
    exact ⟨.ldx h D ty A B, rfl, Bool.and_eq_true_iff.2 ⟨hA, (qVS_one D B).1 hv⟩⟩
  · obtain rfl := hs.noAC rfl rfl
    obtain ⟨rfl, rfl⟩ := hs.short rfl rfl
    simp [decLocal, hs.causes, and_assoc] at hq
    obtain ⟨rfl, ⟨x, rfl⟩, ⟨A, rfl, hA⟩, ⟨B, rfl⟩, hf⟩ := hq
    obtain ⟨ty, rfl⟩ := ltyCodec.exists_enc hf
    exact ⟨.stx h x ty A B, rfl, hA⟩
  · obtain rfl := hs.noAC rfl rfl
    obtain ⟨rfl, rfl⟩ := hs.short rfl rfl
    simp [decLocal, hs.causes, and_assoc] at hq
    obtain ⟨⟨D, rfl, rfl⟩, ⟨A, rfl, hA⟩, ⟨B, rfl⟩, hf, hv⟩ := hq
    obtain ⟨ty, rfl⟩ := ltyCodec.exists_enc hf
    exact ⟨.ldw h D ty A B, rfl, Bool.and_eq_true_iff.2 ⟨hA, (qVS_one D B).1 hv⟩⟩
  · obtain rfl := hs.noAC rfl rfl
    obtain ⟨rfl, rfl⟩ := hs.short rfl rfl
    simp [decLocal, hs.causes, and_assoc] at hq
    obtain ⟨rfl, ⟨x, rfl⟩, ⟨A, rfl, hA⟩, ⟨B, rfl⟩, hf⟩ := hq
    obtain ⟨ty, rfl⟩ := ltyCodec.exists_enc hf
    exact ⟨.stw h x ty A B, rfl, hA⟩
  · obtain rfl := hs.noAC rfl rfl
    obtain ⟨rfl, rfl⟩ := hs.short rfl rfl
    simp [decLocal, hs.causes, and_assoc] at hq
    obtain ⟨rfl, rfl, ⟨A, rfl, hA⟩, ⟨B, rfl, hB⟩, hf⟩ := hq
    obtain ⟨f, rfl⟩ := exists_buf (x := fn) (by omega)
    exact ⟨.tgive h f A B, rfl, Bool.and_eq_true_iff.2 ⟨hA, hB⟩⟩
  · obtain rfl := hs.noAC rfl rfl
    obtain ⟨rfl, rfl⟩ := hs.short rfl rfl
    simp [decLocal, hs.causes, and_assoc] at hq
    obtain ⟨rfl, rfl, ⟨A, rfl, hA⟩, ⟨B, rfl, hB⟩, hf⟩ := hq
    obtain ⟨f, rfl⟩ := exists_buf (x := fn) (by omega)
    exact ⟨.ttake h f A B, rfl, Bool.and_eq_true_iff.2 ⟨hA, hB⟩⟩
  · obtain rfl := hs.noAC rfl rfl
    obtain ⟨rfl, rfl⟩ := hs.short rfl rfl
    simp [decLocal, hs.causes, and_assoc] at hq
    obtain ⟨rfl, rfl, ⟨A, rfl, hA⟩, rfl, hf⟩ := hq
    obtain ⟨p, rfl⟩ := pathCodec.exists_enc hf
    exact ⟨.waitp h p A, rfl, hA⟩
  · obtain rfl := hs.noAC rfl rfl
    obtain ⟨rfl, rfl⟩ := hs.short rfl rfl
    simp [decLocal, hs.causes, and_assoc] at hq
    obtain ⟨⟨D, rfl, rfl, hD⟩, rfl, rfl, hf⟩ := hq
    obtain ⟨p, rfl⟩ := pathCodec.exists_enc hf
    exact ⟨.pcnt h D p, rfl, hD⟩

theorem exists_copy {len op : Nat} {h : Hdr} {ac ws d a b fn hi : Nat} (hs : FieldsOk len op h ac ws d a b fn hi)
    (h16 : 0x80 ≤ op ∧ op ≤ 0x8C) (hq : (decCopy (rF len op h ac ws d a b fn hi)).1 = 0) :
    ∃ i, encRaw i = some (rF len op h ac ws d a b fn hi) ∧ operandsOk i = true := by
  obtain rfl | rfl | rfl | rfl | rfl | rfl | rfl | rfl | rfl | rfl | rfl | rfl | rfl :
    op = 0x80 ∨ op = 0x81 ∨ op = 0x82 ∨ op = 0x83 ∨ op = 0x84 ∨ op = 0x85 ∨ op = 0x86 ∨ op = 0x87 ∨ op = 0x88 ∨
      op = 0x89 ∨ op = 0x8A ∨ op = 0x8B ∨ op = 0x8C := by omega
  · obtain rfl := hs.noAC rfl rfl
    obtain ⟨rfl, hi'⟩ := hs.ext rfl rfl
    obtain hshp | hshp | hshp | hshp : fld fn 2 2 = 0 ∨ fld fn 2 2 = 1 ∨ fld fn 2 2 = 2 ∨ fld fn 2 2 = 3 := by
      have := fld_lt fn 2 2
      omega
    · simp [decCopy, hshp, hs.causes, and_assoc] at hq
      obtain ⟨rfl, ⟨D, rfl, hD⟩, hbar, h10, h45, ⟨A, rfl, hA⟩, hlen⟩ := hq
      obtain ⟨n, rfl, hx, hl, hn⟩ := exists_len hs.b_lt hlen
      obtain ⟨f, out, c, hF⟩ := exists_copyFn hshp rfl hs.fn_lt h10 hbar
      obtain ⟨mbx, post, rfl⟩ := exists_copyX0 hi' hx h45
      obtain rfl : fn = encBuf f + 2 * out.toNat + 4 * 0 + 16 * encCBar c + encLenF n := by rw [← hl]; exact hF
      exact ⟨.copy h D A f out (.d1 n) c mbx post, rfl, Bool.and_eq_true_iff.2 ⟨hD, Bool.and_eq_true_iff.2 ⟨hA, hn⟩⟩⟩
    · simp [decCopy, hshp, hs.causes, and_assoc] at hq
      obtain ⟨rfl, ⟨D, rfl, hD⟩, hbar, h10, h45, ⟨A, rfl, hA⟩, ⟨m, rfl, hm⟩, h9, hx⟩ := hq
      obtain ⟨f, out, c, rfl⟩ := exists_copyFn hshp h9 hs.fn_lt h10 hbar
      obtain ⟨mbx, post, rfl⟩ := exists_copyX0 hi' hx h45
      exact ⟨.copy h D A f out (.d2 m) c mbx post, rfl, Bool.and_eq_true_iff.2 ⟨hD, Bool.and_eq_true_iff.2 ⟨hA, hm⟩⟩⟩
    · simp [decCopy, hshp, hs.causes, and_assoc] at hq
      obtain ⟨rfl, ⟨D, rfl, hD⟩, hbar, h10, h45, ⟨A, rfl, hA⟩, ⟨m, rfl, hm⟩, h9, hx⟩ := hq
      obtain ⟨f, out, c, rfl⟩ := exists_copyFn hshp h9 hs.fn_lt h10 hbar
      obtain ⟨mbx, post, rfl⟩ := exists_copyX0 hi' hx h45
      exact ⟨.copy h D A f out (.d3 m) c mbx post, rfl, Bool.and_eq_true_iff.2 ⟨hD, Bool.and_eq_true_iff.2 ⟨hA, hm⟩⟩⟩
    · simp [decCopy, hshp, hs.causes, and_assoc] at hq
      obtain ⟨rfl, ⟨D, rfl, hD⟩, hbar, h10, h45, ⟨A, rfl⟩, rfl, h9, hx⟩ := hq
      obtain ⟨f, out, c, rfl⟩ := exists_copyFn hshp h9 hs.fn_lt h10 hbar
      obtain ⟨mbx, post, rfl⟩ := exists_copyX0 hi' hx h45
      exact ⟨.copy h D A f out .layout c mbx post, rfl, Bool.and_eq_true_iff.2 ⟨hD, rfl⟩⟩
  · obtain rfl := hs.noAC rfl rfl
    obtain ⟨rfl, hi'⟩ := hs.ext rfl rfl
    obtain hshp | hshp | hshp | hshp : fld fn 2 2 = 0 ∨ fld fn 2 2 = 1 ∨ fld fn 2 2 = 2 ∨ fld fn 2 2 = 3 := by
      have := fld_lt fn 2 2
      omega
    · simp [decCopy, hshp, hs.causes, and_assoc] at hq
      obtain ⟨⟨D, rfl, rfl, hD⟩, ⟨A, rfl, hA⟩, h0, h4, h10, hhi, hlen⟩ := hq
      obtain ⟨n, rfl, hx, hl, hn⟩ := exists_len hs.b_lt hlen
      have hF := cregFn_eq hshp rfl hs.fn_lt h0 h4 h10
      obtain rfl := cregX_eq hi' hx hhi
      obtain rfl : fn = 4 * 0 + encLenF n := by rw [← hl]; exact hF
      exact ⟨.creg h D A (.d1 n), rfl, Bool.and_eq_true_iff.2 ⟨Bool.and_eq_true_iff.2 ⟨hD, hA⟩, hn⟩⟩
    · simp [decCopy, hshp, hs.causes, and_assoc] at hq
      obtain ⟨⟨D, rfl, rfl, hD⟩, ⟨A, rfl, hA⟩, h0, h4, h10, hhi, ⟨m, rfl, hm⟩, h9, hx⟩ := hq
      obtain rfl := cregFn_eq hshp h9 hs.fn_lt h0 h4 h10
      obtain rfl := cregX_eq hi' hx hhi
      exact ⟨.creg h D A (.d2 m), rfl, Bool.and_eq_true_iff.2 ⟨Bool.and_eq_true_iff.2 ⟨hD, hA⟩, hm⟩⟩
    · simp [decCopy, hshp, hs.causes, and_assoc] at hq
      obtain ⟨⟨D, rfl, rfl, hD⟩, ⟨A, rfl, hA⟩, h0, h4, h10, hhi, ⟨m, rfl, hm⟩, h9, hx⟩ := hq
      obtain rfl := cregFn_eq hshp h9 hs.fn_lt h0 h4 h10
      obtain rfl := cregX_eq hi' hx hhi
      exact ⟨.creg h D A (.d3 m), rfl, Bool.and_eq_true_iff.2 ⟨Bool.and_eq_true_iff.2 ⟨hD, hA⟩, hm⟩⟩
    · simp [decCopy, hshp] at hq
  · obtain rfl := hs.noAC rfl rfl
    obtain ⟨rfl, rfl⟩ := hs.short rfl rfl
    simp [decCopy, hs.causes, and_assoc] at hq
    obtain ⟨rfl, rfl, ⟨A, rfl⟩, rfl, rfl⟩ := hq
    exact ⟨.cunreg h A, rfl, rfl⟩
  · obtain rfl := hs.noAC rfl rfl
    obtain ⟨rfl, rfl⟩ := hs.short rfl rfl
    simp [decCopy, hs.causes, and_assoc] at hq
    obtain ⟨rfl, rfl, ⟨A, rfl⟩, rfl, hf⟩ := hq
    obtain rfl | rfl : fn = 0 ∨ fn = 1 := by omega
    · exact ⟨.creplay h A, rfl, rfl⟩
    · exact ⟨.creplayDrop h A, rfl, rfl⟩
  · obtain rfl := hs.noAC rfl rfl
    obtain ⟨rfl, hi'⟩ := hs.ext rfl rfl
    simp [decCopy, hs.causes, and_assoc] at hq
    obtain ⟨rfl, ⟨D, rfl, hD⟩, ⟨A, rfl, hA⟩, hlen, hbar, h6, ht, h10, h47⟩ := hq
    obtain ⟨n, rfl, hx, hl, hn⟩ := exists_len hs.b_lt hlen
    obtain ⟨f, op, c, hop, hF⟩ := exists_credFn rfl hs.fn_lt h6 h10 hbar
    obtain ⟨ty, hty⟩ := credTyCodec.exists_enc (fld_lt hi 45 2)
    obtain ⟨mbx, post, rfl⟩ := exists_copyX hi' hx hty h47
    obtain rfl : fn = encBuf f + 2 * encRed op + 16 * encCBar c + encLenF n := by rw [← hl]; exact hF
    have ht := (credTy_iff op ty).1 (by rwa [hty, hop] at ht)
    exact ⟨.cred h D A f op ty n c mbx post, rfl, Bool.and_eq_true_iff.2
      ⟨Bool.and_eq_true_iff.2 ⟨Bool.and_eq_true_iff.2 ⟨hD, hA⟩, hn⟩, ht⟩⟩
  · obtain rfl := hs.noAC rfl rfl
    obtain ⟨rfl, rfl⟩ := hs.short rfl rfl
    cases h3 : bit fn 3
    · simp [decCopy, h3, hs.causes, and_assoc] at hq
      obtain ⟨hr, h1, hk, ⟨B, rfl⟩, hv, h5, hf, A, rfl, hA⟩ := hq
      obtain ⟨D, rfl, rfl, hD⟩ := exists_gathDst hs.ws_lt hr h1 hk
      obtain ⟨ty, rfl⟩ := exists_gbaseFn h3 h5 hf
      exact ⟨.gath h D ty (.ext A) B, rfl, Bool.and_eq_true_iff.2 ⟨Bool.and_eq_true_iff.2 ⟨hD, (qVS_one D B).1 hv⟩, hA⟩⟩
    · simp [decCopy, h3, hs.causes, and_assoc] at hq
      obtain ⟨hr, h1, hk, ⟨B, rfl⟩, hv, h5, hf, A, rfl⟩ := hq
      obtain ⟨D, rfl, rfl, hD⟩ := exists_gathDst hs.ws_lt hr h1 hk
      obtain ⟨ty, rfl⟩ := exists_gbaseFn h3 h5 hf
      exact ⟨.gath h D ty (.clu A) B, rfl, Bool.and_eq_true_iff.2 ⟨Bool.and_eq_true_iff.2 ⟨hD, (qVS_one D B).1 hv⟩, rfl⟩⟩
  · obtain rfl := hs.noAC rfl rfl
    obtain ⟨rfl, rfl⟩ := hs.short rfl rfl
    cases h3 : bit fn 3
    · simp [decCopy, h3, hs.causes, and_assoc] at hq
      obtain ⟨rfl, hl, hr, ⟨B, rfl⟩, h5, hf, A, rfl, hA⟩ := hq
      obtain ⟨x, rfl, hx⟩ := exists_scatSrc hs.d_lt hl hr
      obtain ⟨ty, rfl⟩ := exists_gbaseFn h3 h5 hf
      exact ⟨.scat h x ty (.ext A) B, rfl, Bool.and_eq_true_iff.2 ⟨hx, hA⟩⟩
    · simp [decCopy, h3, hs.causes, and_assoc] at hq
      obtain ⟨rfl, hl, hr, ⟨B, rfl⟩, h5, hf, A, rfl⟩ := hq
      obtain ⟨x, rfl, hx⟩ := exists_scatSrc hs.d_lt hl hr
      obtain ⟨ty, rfl⟩ := exists_gbaseFn h3 h5 hf
      exact ⟨.scat h x ty (.clu A) B, rfl, Bool.and_eq_true_iff.2 ⟨hx, rfl⟩⟩
  · obtain rfl := hs.noAC rfl rfl
    obtain ⟨rfl, rfl⟩ | ⟨rfl, hi'⟩ := hs.either rfl rfl
    · simp [decCopy, hs.causes, and_assoc] at hq
      obtain ⟨rfl, rfl, rfl, hf, B, rfl, hB⟩ := hq
      obtain ⟨b, rfl⟩ := exists_toNat (n := 4) hf
      exact ⟨.binit h b B, rfl, hB⟩
    · simp [decCopy, hs.causes, and_assoc] at hq
      obtain ⟨rfl, rfl, rfl, hf, rfl⟩ := hq
      obtain ⟨b, rfl⟩ := exists_toNat (n := 4) hf
      obtain ⟨x, rfl⟩ := exists_toNat hi'
      exact ⟨.binitImm h b x, rfl, rfl⟩
  · obtain rfl := hs.noAC rfl rfl
    obtain ⟨rfl, rfl⟩ := hs.short rfl rfl
    simp [decCopy, hs.causes, and_assoc] at hq
    obtain ⟨rfl, rfl, rfl, rfl, hf⟩ := hq
    obtain ⟨b, rfl⟩ := barCodec.exists_enc hf
    exact ⟨.barr h b, rfl, rfl⟩
  · obtain rfl := hs.noAC rfl rfl
    obtain ⟨rfl, rfl⟩ := hs.short rfl rfl
    simp [decCopy, hs.causes, and_assoc] at hq
    obtain ⟨rfl, ⟨p, rfl, hp⟩, ⟨A, rfl, hA⟩, rfl, hf⟩ := hq
    obtain ⟨b, rfl⟩ := barCodec.exists_enc hf
    exact ⟨.bwait h p b A, rfl, Bool.and_eq_true_iff.2 ⟨hp, hA⟩⟩
  · obtain rfl := hs.noAC rfl rfl
    obtain ⟨rfl, rfl⟩ := hs.short rfl rfl
    simp [decCopy, hs.causes, and_assoc] at hq
    obtain ⟨rfl, ⟨p, rfl, hp⟩, rfl, rfl, hf⟩ := hq
    obtain ⟨b, rfl⟩ := barCodec.exists_enc hf
    exact ⟨.barw h p b, rfl, hp⟩
  · obtain rfl := hs.noAC rfl rfl
    obtain ⟨rfl, rfl⟩ := hs.short rfl rfl
    simp [decCopy, hs.causes, and_assoc] at hq
    obtain ⟨rfl, rfl, rfl, rfl, hf⟩ := hq
    obtain ⟨b, rfl⟩ := exists_toNat (n := 4) hf
    exact ⟨.binv h b, rfl, rfl⟩
  · obtain rfl := hs.noAC rfl rfl
    obtain ⟨rfl, rfl⟩ := hs.short rfl rfl
    simp [decCopy, hs.causes, and_assoc] at hq
    obtain ⟨⟨D, rfl, rfl, hD⟩, rfl, rfl, h17, hf⟩ := hq
    obtain ⟨b, sel, rfl⟩ := exists_bqry h17 hf
    exact ⟨.bqry h D sel b, rfl, hD⟩

end Sys2Proof
end

section
/-! Barriers, atomics, speculation and operations, encoded and decoded. -/

namespace Sys2Proof

/-! ### Fields of atomics, fences, assumptions, handles and mailboxes (R248-R250, R290, R309, R316, R320-R325, R357-R367) -/

/-! #### Atomics -/

section
variable (op : AOp) (ty : ATy) (b : ABase) (sc : Scope)
@[simp] theorem abaseOf_enc : abaseOf (encABaseSp b) (encABaseA b) = b := by
  rcases b with p | ⟨_ | _, o⟩ <;> simp [abaseOf, encABaseSp, encABaseA, bufOf]
theorem encABaseSp_lt : encABaseSp b < 3 := by rcases b with p | ⟨_ | _, o⟩ <;> simp only [encABaseSp] <;> decide
@[simp] theorem encABaseA_lt : encABaseA b < 2048 := by rcases b with p | ⟨_, o⟩ <;> simp [encABaseA]
@[simp] theorem qAtom_enc : qAtom (encABaseSp b) (encScope sc) (encABaseA b) = 0 ↔ abaseOk b sc = true := by
  have := scopeCodec.enc_lt sc
  rcases b with p | ⟨_ | _, o⟩ <;> cases sc <;> simp [qAtom, encABaseSp, encABaseA, encScope, abaseOk]
@[simp] theorem qAop_enc : qAop (encAOp op) (encATy ty) = 0 ↔ aopOk op ty = true := by
  cases op <;> cases ty <;> decide
@[simp] theorem encAtomFn_fields : fld (encAtomFn op ty b sc) 0 4 = encAOp op ∧ fld (encAtomFn op ty b sc) 4 2 = encATy ty ∧
    fld (encAtomFn op ty b sc) 6 2 = encABaseSp b ∧ fld (encAtomFn op ty b sc) 8 3 = encScope sc ∧
    encAtomFn op ty b sc < 2048 := by
  have := aopCodec.enc_lt op; have := atyCodec.enc_lt ty; have := encABaseSp_lt b; have := scopeCodec.enc_lt sc
  unfold encAtomFn
  simp only [fld_eq]
  omega
end

theorem exists_abase {sp sc a : Nat} (hsp : sp < 4) (ha : a < 2 ^ 11) (h : qAtom sp sc a = 0) :
    ∃ b s, sp = encABaseSp b ∧ a = encABaseA b ∧ sc = encScope s ∧ abaseOk b s = true := by
  obtain rfl | rfl | rfl | rfl : sp = 0 ∨ sp = 1 ∨ sp = 2 ∨ sp = 3 := by omega
  · simp [qAtom, qPair_iff] at h
    obtain ⟨⟨n, rfl, hn⟩, hsc⟩ := h
    obtain ⟨s, rfl⟩ := scopeCodec.exists_enc hsc
    exact ⟨.ext n, s, rfl, rfl, rfl, hn⟩
  · simp [qAtom, qSI_iff ha] at h
    obtain ⟨⟨o, rfl, ho⟩, h5, hsc⟩ := h
    obtain ⟨s, rfl⟩ := scopeCodec.exists_enc h5
    exact ⟨.loc .x o, s, rfl, rfl, rfl, by cases s <;> simp [encScope, abaseOk, ho] at hsc ⊢⟩
  · simp [qAtom, qSI_iff ha] at h
    obtain ⟨⟨o, rfl, ho⟩, h5, hsc⟩ := h
    obtain ⟨s, rfl⟩ := scopeCodec.exists_enc h5
    exact ⟨.loc .w o, s, rfl, rfl, rfl, by cases s <;> simp [encScope, abaseOk, ho] at hsc ⊢⟩
  · simp [qAtom] at h

theorem exists_aop {op ty : Nat} (hty : ty < 4) (h : qAop op ty = 0) :
    ∃ o t, op = encAOp o ∧ ty = encATy t ∧ aopOk o t = true := by
  have h' := h
  simp [qAop] at h'
  obtain ⟨o, rfl⟩ := aopCodec.exists_enc h'.1.1.1
  obtain ⟨t, rfl⟩ := atyCodec.exists_enc (k := ty) (by omega)
  exact ⟨o, t, rfl, rfl, (qAop_enc o t).1 h⟩

theorem exists_atomFn {fn a : Nat} (hf : fn < 2 ^ 11) (ha : a < 2 ^ 11) (hb : qAtom (fld fn 6 2) (fld fn 8 3) a = 0)
    (hop : qAop (fld fn 0 4) (fld fn 4 2) = 0) :
    ∃ op ty b sc, fn = encAtomFn op ty b sc ∧ a = encABaseA b ∧ abaseOk b sc = true ∧ aopOk op ty = true := by
  obtain ⟨b, sc, h1, h2, h3, hbo⟩ := exists_abase (fld_lt fn 6 2) ha hb
  obtain ⟨op, ty, h4, h5, hoo⟩ := exists_aop (fld_lt fn 4 2) hop
  refine ⟨op, ty, b, sc, ?_, h2, hbo, hoo⟩
  simp only [encAtomFn, ← h1, ← h3, ← h4, ← h5, fld_eq]
  omega

/-- Operand C with one bit, or with an index of four, in MOD. -/
@[simp] theorem encO_mod1 (v : Opnd) (o : Bool) : fld (encO v + 2048 * o.toNat) 0 11 = encO v ∧
    fld (encO v + 2048 * o.toNat) 11 21 = o.toNat ∧ encO v + 2048 * o.toNat < 4294967296 := by
  have hv := encO_lt_2048 v
  have := Bool.toNat_lt o
  exact ⟨fld_c hv, fld_mod hv (by omega), by omega⟩
@[simp] theorem encO_mod4 (v : Opnd) (n : BitVec 4) : fld (encO v + 2048 * n.toNat) 0 11 = encO v ∧
    fld (encO v + 2048 * n.toNat) 11 21 = n.toNat ∧ encO v + 2048 * n.toNat < 4294967296 := by
  have hv := encO_lt_2048 v
  exact ⟨fld_c hv, fld_mod hv (by omega), by omega⟩

/-! #### Predicate pairs in FN and EXT -/

@[simp] theorem encPN_lt (p : CmpDst) : encPN p < 256 := by unfold encPN; omega

/-- A predicate pair in FN with a flag above it. -/
def pnFn (p : CmpDst) (k : Bool) : Nat := encPN p + 256 * k.toNat

@[simp] theorem pnFn_fields (p : CmpDst) (k : Bool) : fld (pnFn p k) 0 4 = p.c.toNat ∧ fld (pnFn p k) 4 4 = p.k.toNat ∧
    bit (pnFn p k) 8 = k ∧ pnFn p k < 512 ∧ pnFn p k < 2048 := by
  have hk : decide (k.toNat = 1) = k := by cases k <;> rfl
  have := Bool.toNat_lt k
  simp only [pnFn, encPN, bit_eq, fld_eq]
  refine ⟨by omega, by omega, ?_, by omega, by omega⟩
  rw [← hk]; congr 1; simp only [eq_iff_iff, hk]; omega

theorem exists_pnFn {fn : Nat} {k : Bool} (hk : bit fn 8 = k) (hf : fn < 512) (h : qPP (fld fn 0 4) (fld fn 4 4) = 0) :
    ∃ p, fn = pnFn p k ∧ cmpOk p = true := by
  subst hk
  obtain ⟨p, hc, hk, hp⟩ := (qPP_iff (fld_lt fn 0 4) (fld_lt fn 4 4)).1 h
  refine ⟨p, ?_, hp⟩
  simp only [pnFn, encPN, ← hc, ← hk, toNat_bit, fld_eq]
  omega

theorem exists_encPN {fn : Nat} (hf : fn < 256) (h : qPP (fld fn 0 4) (fld fn 4 4) = 0) :
    ∃ p, fn = encPN p ∧ cmpOk p = true := by
  obtain ⟨p, hc, hk, hp⟩ := (qPP_iff (fld_lt fn 0 4) (fld_lt fn 4 4)).1 h
  refine ⟨p, ?_, hp⟩
  simp only [encPN, ← hc, ← hk, fld_eq]
  omega

/-! #### `ACAS` -/

/-- EXT of `ACAS` from its parts; `w` says that it is `.b64`. -/
def acasX (cm nw : Opnd) (p : CmpDst) (w : Bool) (b : ABase) (sc : Scope) (o : Bool) : Nat :=
  encO cm + 2 ^ 11 * encO nw + 2 ^ 22 * encPN p + 2 ^ 30 * w.toNat + 2 ^ 31 * encABaseSp b + 2 ^ 33 * encScope sc
    + 2 ^ 36 * o.toNat

@[simp] theorem acasX_fields (cm nw : Opnd) (p : CmpDst) (w : Bool) (b : ABase) (sc : Scope) (o : Bool) :
    fld (acasX cm nw p w b sc o) 0 11 = encO cm ∧ fld (acasX cm nw p w b sc o) 11 11 = encO nw ∧
    fld (acasX cm nw p w b sc o) 22 4 = p.c.toNat ∧ fld (acasX cm nw p w b sc o) 26 4 = p.k.toNat ∧
    bit (acasX cm nw p w b sc o) 30 = w ∧ fld (acasX cm nw p w b sc o) 31 2 = encABaseSp b ∧
    fld (acasX cm nw p w b sc o) 33 3 = encScope sc ∧ bit (acasX cm nw p w b sc o) 36 = o ∧
    fld (acasX cm nw p w b sc o) 37 27 = 0 ∧ acasX cm nw p w b sc o < 18446744073709551616 := by
  have hw : decide (w.toNat = 1) = w := by cases w <;> rfl
  have ho : decide (o.toNat = 1) = o := by cases o <;> rfl
  have := Bool.toNat_lt w; have := Bool.toNat_lt o
  have := encO_lt cm; have := encO_lt nw; have := encABaseSp_lt b; have := scopeCodec.enc_lt sc
  simp only [acasX, encPN]
  generalize w.toNat = wn at *; generalize o.toNat = on at *
  generalize encO cm = x at *; generalize encO nw = y at *; generalize encABaseSp b = z at *; generalize encScope sc = u at *
  simp only [bit_eq, fld_eq]
  refine ⟨by omega, by omega, by omega, by omega, ?_, by omega, by omega, ?_, by omega, by omega⟩
  · rw [← hw]; congr 1; simp only [eq_iff_iff]; omega
  · rw [← ho]; congr 1; simp only [eq_iff_iff]; omega

theorem acasX_eq {hi : Nat} {w : Bool} {cm nw : Opnd} {p : CmpDst} {b : ABase} {sc : Scope} (hhi : hi < 2 ^ 64)
    (hw : bit hi 30 = w) (hcm : fld hi 0 11 = encO cm) (hnw : fld hi 11 11 = encO nw) (hc : fld hi 22 4 = p.c.toNat)
    (hk : fld hi 26 4 = p.k.toNat) (hb : fld hi 31 2 = encABaseSp b) (hsc : fld hi 33 3 = encScope sc)
    (h0 : fld hi 37 27 = 0) : hi = acasX cm nw p w b sc (bit hi 36) := by
  subst hw
  simp only [acasX, encPN, ← hcm, ← hnw, ← hc, ← hk, ← hb, ← hsc, toNat_bit, fld_eq] at *
  omega

theorem encRaw_acas {x : AcasDst} {ws d : Nat} {w : Bool} (hx : encAcas x = (ws, d, w.toNat)) (h : Hdr) (b : ABase)
    (off cm nw : Opnd) (p : CmpDst) (sc : Scope) (o : Bool) : encRaw (.acas h x b off cm nw p sc o) =
      some (rF 2 0x91 h 0 ws d (encABaseA b) (encO off) 0 (acasX cm nw p w b sc o)) := by
  change some { rX 2 0x91 h (encAcas x).2.1 (encABaseA b) (encO off) 0
    (encO cm + 2 ^ 11 * encO nw + 2 ^ 22 * encPN p + 2 ^ 30 * (encAcas x).2.2 + 2 ^ 31 * encABaseSp b + 2 ^ 33 * encScope sc
      + 2 ^ 36 * o.toNat) with ws := (encAcas x).1 } = _
  rw [hx]
  rfl

/-- The old-value destination of `ACAS.b64` and its sources (R325). -/
theorem acasOk_b64 (D : Dst) (off cm nw : Opnd) (hd : encWs D = 0 → isS (encD D) = true ∨ isV (encD D) = true → encD D % 2 = 0)
    (hv : vsOk D [off, cm, nw] = true) (hcm : evenOk cm = true) (hnw : evenOk nw = true) :
    ∃ x, encAcas x = (encWs D, encD D, 1) ∧ acasOk x off cm nw = true := by
  rcases D with n | n | _
  · have hn : n.toNat % 2 = 0 := hd rfl (.inl (isS_toNat n))
    have hn : pairOk n = true := by simpa [pairOk] using hn
    exact ⟨.pairS n, rfl, by simp [acasOk, hn, hv, hcm, hnw]⟩
  · have hn : encV n % 2 = 0 := hd rfl (.inr (isV_encV n))
    have hn : n.toNat % 2 = 0 := by unfold encV at hn; omega
    exact ⟨.pairV n, rfl, by simp [acasOk, hn, hcm, hnw]⟩
  · exact ⟨.none64, rfl, by simp [acasOk, hcm, hnw]⟩

/-! #### Fences, assumptions and queries -/

/-- FN of `FENCE`. -/
@[simp] theorem fence_fields (sc : Scope) (k : FenceKind) : fld (encScope sc + 8 * encFKind k) 0 3 = encScope sc ∧
    fld (encScope sc + 8 * encFKind k) 3 2 = encFKind k ∧ encScope sc + 8 * encFKind k < 32 ∧
    encScope sc + 8 * encFKind k < 2048 := by
  cases sc <;> cases k <;> decide
@[simp] theorem encScope_lt (sc : Scope) : encScope sc < 5 := scopeCodec.enc_lt sc
@[simp] theorem encFKind_ne_three (k : FenceKind) : encFKind k ≠ 3 := by cases k <;> decide
theorem fenceCode_fields : fld 24 0 3 = 0 ∧ fld 24 3 2 = 3 := by decide

theorem encFKind_dec (k : FenceKind) : (if encFKind k = 0 then .acq else if encFKind k = 1 then .rel else .ar) = k := by
  cases k <;> rfl

theorem exists_fence {fn : Nat} (hf : fn < 32) (h5 : fld fn 0 3 < 5) (h3 : fld fn 3 2 ≠ 3) :
    ∃ sc k, fn = encScope sc + 8 * encFKind k := by
  obtain ⟨sc, hsc⟩ := scopeCodec.exists_enc h5
  have hk : ∃ k, fld fn 3 2 = encFKind k := by
    have := fld_lt fn 3 2
    obtain h | h | h : fld fn 3 2 = 0 ∨ fld fn 3 2 = 1 ∨ fld fn 3 2 = 2 := by omega
    · exact ⟨.acq, h⟩
    · exact ⟨.rel, h⟩
    · exact ⟨.ar, h⟩
  obtain ⟨k, hk⟩ := hk
  refine ⟨sc, k, ?_⟩
  simp only [← hsc, ← hk, fld_eq]
  omega

/-- EXT of `GUESS` and `GUESS.N`. -/
def guessX (i : SReg) (w : BitVec 4) (off : Word) : Nat := i.toNat + 2 ^ 11 * w.toNat + 2 ^ 15 * off.toNat

@[simp] theorem guessX_fields (i : SReg) (w : BitVec 4) (off : Word) : fld (guessX i w off) 0 11 = i.toNat ∧
    fld (guessX i w off) 11 4 = w.toNat ∧ fld (guessX i w off) 15 32 = off.toNat ∧ fld (guessX i w off) 47 17 = 0 ∧
    guessX i w off < 18446744073709551616 := by
  simp only [guessX, fld_eq]
  omega

theorem guessX_eq {hi : Nat} {i : SReg} {w : BitVec 4} {off : Word} (hhi : hi < 2 ^ 64) (h0 : fld hi 0 11 = i.toNat)
    (h1 : fld hi 11 4 = w.toNat) (h2 : fld hi 15 32 = off.toNat) (h3 : fld hi 47 17 = 0) : hi = guessX i w off := by
  simp only [guessX, ← h0, ← h1, ← h2, fld_eq] at *
  omega

/-- Fields FN and A of `TQRY` (R309). -/
@[simp] theorem tqOf_encTQ (s : TQSel) : tqOf (encTQ s).1 (encTQ s).2 = s ∧ (encTQ s).2 < 2048 := by
  cases s
  case regS n => simp [encTQ, tqOf, n.isLt]
  case regV n =>
    have : ¬ encV n < 0x400 := by unfold encV; omega
    simp [encTQ, tqOf, this]
  case pred k =>
    have hk : pr (0x600 + k.toNat) = k := BitVec.eq_of_toNat_eq (by simp only [pr, BitVec.toNat_ofNat]; omega)
    have : 0x600 + k.toNat < 2048 := by omega
    simp [encTQ, tqOf, hk, this]
  case undo => decide
  case held => decide
  all_goals simp [encTQ, tqOf]

@[simp] theorem encTQ_sel (s : TQSel) : fld (encTQ s).1 0 3 = (encTQ s).1 ∧ (encTQ s).1 < 8 ∧ (encTQ s).1 < 2048 := by
  have h8 : (encTQ s).1 < 8 := by cases s <;> simp [encTQ]
  exact ⟨fld_all (n := 3) h8, h8, h8.trans (by decide)⟩

theorem tqOk_iff (s : TQSel) : (if (encTQ s).1 = 0 then on (!isS (encTQ s).2 && !isV (encTQ s).2) e5
      else if (encTQ s).1 = 1 then on (decide ((encTQ s).2 < 0x600) || decide (0x610 ≤ (encTQ s).2)) e5
      else if 6 ≤ (encTQ s).1 then qZ (encTQ s).2 else qSI (encTQ s).2) = 0 ↔ tqOk s = true := by
  cases s
  case pred k =>
    have : ¬ 0x610 ≤ 0x600 + k.toNat := by omega
    simp [encTQ, tqOk, this]
  all_goals simp [encTQ, tqOk]

theorem exists_tq {sel a : Nat} (hs : sel < 8) (ha : a < 2 ^ 11) (h : (if sel = 0 then on (!isS a && !isV a) e5
      else if sel = 1 then on (decide (a < 0x600) || decide (0x610 ≤ a)) e5 else if 6 ≤ sel then qZ a else qSI a) = 0) :
    ∃ s, sel = (encTQ s).1 ∧ a = (encTQ s).2 ∧ tqOk s = true := by
  obtain rfl | rfl | rfl | rfl | rfl | rfl | rfl | rfl :
    sel = 0 ∨ sel = 1 ∨ sel = 2 ∨ sel = 3 ∨ sel = 4 ∨ sel = 5 ∨ sel = 6 ∨ sel = 7 := by omega
  · simp at h
    by_cases hS : isS a = true
    · obtain ⟨n, rfl⟩ := exists_toNat (n := 10) (x := a) ((isS_iff a).1 hS)
      exact ⟨.regS n, rfl, rfl, rfl⟩
    · obtain ⟨n, rfl⟩ := qV_iff.1 (show qV a = 0 by simp [qV, h (by simpa using hS)])
      exact ⟨.regV n, rfl, rfl, rfl⟩
  · simp at h
    obtain ⟨k, hk⟩ := exists_toNat (n := 4) (x := a - 0x600) (by omega)
    exact ⟨.pred k, rfl, by show a = 0x600 + k.toNat; omega, rfl⟩
  · obtain ⟨o, rfl, ho⟩ := (qSI_iff ha).1 h
    exact ⟨.xline o, rfl, rfl, ho⟩
  · obtain ⟨o, rfl, ho⟩ := (qSI_iff ha).1 h
    exact ⟨.wline o, rfl, rfl, ho⟩
  · obtain ⟨o, rfl, ho⟩ := (qSI_iff ha).1 h
    exact ⟨.slot o, rfl, rfl, ho⟩
  · obtain ⟨o, rfl, ho⟩ := (qSI_iff ha).1 h
    exact ⟨.state o, rfl, rfl, ho⟩
  · exact ⟨.undo, rfl, by simpa [encTQ] using h, rfl⟩
  · exact ⟨.held, rfl, by simpa [encTQ] using h, rfl⟩

/-! #### Handles and mailboxes -/

/-- EXT of `INVOKE` and `INVH`. -/
def invokeX (mbx : BitVec 12) (n1 : BitVec 4) (core : BitVec 8) : Nat := mbx.toNat + 2 ^ 12 * n1.toNat + 2 ^ 16 * core.toNat

@[simp] theorem invokeX_fields (mbx : BitVec 12) (n1 : BitVec 4) (core : BitVec 8) :
    fld (invokeX mbx n1 core) 0 12 = mbx.toNat ∧ fld (invokeX mbx n1 core) 12 4 = n1.toNat ∧
    fld (invokeX mbx n1 core) 16 8 = core.toNat ∧ fld (invokeX mbx n1 core) 24 40 = 0 ∧
    fld (invokeX mbx n1 core) 16 48 = core.toNat ∧ invokeX mbx n1 core < 18446744073709551616 := by
  simp only [invokeX, fld_eq]
  omega

theorem exists_invokeX {hi : Nat} (hhi : hi < 2 ^ 64) (h0 : fld hi 24 40 = 0) :
    ∃ mbx n1 core, hi = invokeX mbx n1 core ∧ fld hi 16 8 = core.toNat := by
  obtain ⟨m, hm⟩ := exists_toNat (fld_lt hi 0 12)
  obtain ⟨n, hn⟩ := exists_toNat (fld_lt hi 12 4)
  obtain ⟨k, hk⟩ := exists_toNat (fld_lt hi 16 8)
  refine ⟨m, n, k, ?_, hk⟩
  simp only [invokeX, ← hm, ← hn, ← hk, fld_eq] at *
  omega

theorem hwait_fields : (fld 0 0 2 = 0 ∧ fld 0 2 5 = 0) ∧ fld 2 0 2 = 2 ∧ fld 2 2 5 = 0 := by decide

theorem exists_invhX {hi : Nat} (hhi : hi < 2 ^ 64) (h0 : fld hi 16 48 = 0) :
    ∃ (mbx : BitVec 12) (n1 : BitVec 4), hi = mbx.toNat + 2 ^ 12 * n1.toNat := by
  obtain ⟨m, hm⟩ := exists_toNat (fld_lt hi 0 12)
  obtain ⟨n, hn⟩ := exists_toNat (fld_lt hi 12 4)
  refine ⟨m, n, ?_⟩
  simp only [← hm, ← hn, fld_eq] at *
  omega

/-- FN of `HWAIT.park`. -/
@[simp] theorem hpark_fields (n : BitVec 5) : fld (1 + 4 * n.toNat) 0 2 = 1 ∧ fld (1 + 4 * n.toNat) 2 5 = n.toNat ∧
    1 + 4 * n.toNat < 128 ∧ 1 + 4 * n.toNat < 2048 := by
  simp only [fld_eq]
  omega

theorem exists_hpark {fn : Nat} (hf : fn < 128) (h1 : fld fn 0 2 = 1) :
    ∃ n : BitVec 5, fn = 1 + 4 * n.toNat ∧ fld fn 2 5 = n.toNat := by
  obtain ⟨n, hn⟩ := exists_toNat (fld_lt fn 2 5)
  refine ⟨n, ?_, hn⟩
  simp only [← hn, fld_eq] at *
  omega

@[simp] theorem encBind_fields (f : BindF) : fld (encBind f) 0 2 = f.width.toNat ∧ fld (encBind f) 2 8 = f.vregs1.toNat ∧
    fld (encBind f) 10 10 = f.sregs1.toNat ∧ fld (encBind f) 20 10 = f.xtiles.toNat ∧
    fld (encBind f) 30 11 = f.wtiles.toNat ∧ fld (encBind f) 41 5 = f.barriers.toNat ∧ bit (encBind f) 46 = f.sup ∧
    fld (encBind f) 47 17 = 0 ∧ encBind f < 18446744073709551616 := by
  have hs : decide (f.sup.toNat = 1) = f.sup := by cases f.sup <;> rfl
  have := Bool.toNat_lt f.sup
  simp only [encBind]
  generalize f.sup.toNat = sn at *
  simp only [bit_eq, fld_eq]
  refine ⟨by omega, by omega, by omega, by omega, by omega, by omega, ?_, by omega, by omega⟩
  rw [← hs]; congr 1; simp only [eq_iff_iff]; omega

theorem exists_bind {hi : Nat} (hhi : hi < 2 ^ 64) (h0 : fld hi 47 17 = 0) : ∃ f, hi = encBind f := by
  obtain ⟨a, ha⟩ := exists_toNat (fld_lt hi 0 2)
  obtain ⟨b, hb⟩ := exists_toNat (fld_lt hi 2 8)
  obtain ⟨c, hc⟩ := exists_toNat (fld_lt hi 10 10)
  obtain ⟨d, hd⟩ := exists_toNat (fld_lt hi 20 10)
  obtain ⟨e, he⟩ := exists_toNat (fld_lt hi 30 11)
  obtain ⟨g, hg⟩ := exists_toNat (fld_lt hi 41 5)
  refine ⟨⟨a, b, c, d, e, g, bit hi 46⟩, ?_⟩
  simp only [encBind, ← ha, ← hb, ← hc, ← hd, ← he, ← hg, toNat_bit, fld_eq] at *
  omega

theorem reads_sync {i : Instr} (he : encRawSync i ≠ none) (w : operandsOk i = true) : Reads i := by
  cases i
  case atom h d op ty b off sc v o =>
    obtain ⟨hvb, ho⟩ := Bool.and_eq_true_iff.1 w
    obtain ⟨hv, hb⟩ := Bool.and_eq_true_iff.1 hvb
    exact reads_of 1 0x90 h 0 (encWs d) (encD d) (encABaseA b) (encO off) (encAtomFn op ty b sc) (encO v + 2 ^ 11 * o.toNat) rfl
      (by simp [decOp, decAtomic, Raw.c, Raw.mod, aopCodec.dec_enc, atyCodec.dec_enc, scopeCodec.dec_enc, Bool.toNat_le, hv, hb, ho])
  case acas h d b off cm nw p sc o =>
    obtain ⟨hdb, hp⟩ := Bool.and_eq_true_iff.1 w
    obtain ⟨hd, hb⟩ := Bool.and_eq_true_iff.1 hdb
    cases d with
    | one d =>
      have hd : vsOk d [off, cm, nw] = true := hd
      exact reads_of 2 0x91 h 0 (encWs d) (encD d) (encABaseA b) (encO off) 0 (acasX cm nw p false b sc o) rfl
        (by simp [decOp, decAtomic, acasDstOf, scopeCodec.dec_enc, hd, hb, hp])
    | pairS n =>
      obtain ⟨hd, hnw⟩ := Bool.and_eq_true_iff.1 hd
      obtain ⟨hd, hcm⟩ := Bool.and_eq_true_iff.1 hd
      obtain ⟨hn, hv⟩ := Bool.and_eq_true_iff.1 hd
      exact reads_of 2 0x91 h 0 0 n.toNat (encABaseA b) (encO off) 0 (acasX cm nw p true b sc o) rfl
        (by simp [decOp, decAtomic, acasDstOf, scopeCodec.dec_enc, hb, hp, hcm, hnw]; exact ⟨⟨⟨qDst_encD (.s n), of_decide_eq_true hn⟩, (qVS_three (.s n) off cm nw).2 hv⟩, n.isLt⟩)
    | pairV n =>
      obtain ⟨hd, hnw⟩ := Bool.and_eq_true_iff.1 hd
      obtain ⟨hn, hcm⟩ := Bool.and_eq_true_iff.1 hd
      exact reads_of 2 0x91 h 0 0 (encV n) (encABaseA b) (encO off) 0 (acasX cm nw p true b sc o) rfl
        (by simp [decOp, decAtomic, acasDstOf, scopeCodec.dec_enc, hb, hp, hcm, hnw]; exact ⟨⟨⟨qDst_encD (.v n), by have := of_decide_eq_true hn; unfold encV; omega⟩, (qVS_three (.v n) off cm nw).2 rfl⟩,
          by unfold encV; omega⟩)
    | none64 =>
      obtain ⟨hcm, hnw⟩ := Bool.and_eq_true_iff.1 hd
      exact reads_of 2 0x91 h 0 1 0x7FF (encABaseA b) (encO off) 0 (acasX cm nw p true b sc o) rfl
        (by simp [decOp, decAtomic, acasDstOf, scopeCodec.dec_enc, hb, hp, hcm, hnw]; exact ⟨qDst_encD .none, (qVS_three .none off cm nw).2 rfl⟩)
  case ared h op ty b off sc v o =>
    obtain ⟨hb, ho⟩ := Bool.and_eq_true_iff.1 w
    exact reads_x rfl
      (by simp [decOp, decAtomic, Raw.c, Raw.mod, aopCodec.dec_enc, atyCodec.dec_enc, scopeCodec.dec_enc, Bool.toNat_le, hb, ho])
  case fence h k sc =>
    exact reads_n rfl (by simp [decOp, decAtomic, scopeCodec.dec_enc, encFKind_dec])
  case fenceCode h => exact reads_n rfl (by simp [decOp, decAtomic, fenceCode_fields])
  case raceqHead h d => exact reads_d rfl (by simp [decOp, decAtomic, bit]; exact w)
  case raceqBase h a => exact reads_n rfl (by simp [decOp, decAtomic, bit]; exact w)
  case guess h d v n i x =>
    obtain ⟨hv, hn⟩ := Bool.and_eq_true_iff.1 w
    exact reads_x (hi := guessX i x 0) rfl (by simp [decOp, decNougat, bit, hv, hn])
  case guessN h d v i off =>
    exact reads_x (hi := guessX i 0 off) rfl (by simp [decOp, decNougat, bit]; exact w)
  case affirm h p a =>
    obtain ⟨hp, ha⟩ := Bool.and_eq_true_iff.1 w
    exact reads_n rfl (by simp [decOp, decNougat, hp, ha])
  case deny h p a =>
    obtain ⟨hp, ha⟩ := Bool.and_eq_true_iff.1 w
    exact reads_n rfl (by simp [decOp, decNougat, hp, ha])
  case tqry h d sel =>
    obtain ⟨hd, hs⟩ := Bool.and_eq_true_iff.1 w
    exact reads_of 0 0xA3 h 0 (encWs d) (encD d) (encTQ sel).2 0 (encTQ sel).1 0 rfl
      (by simp [decOp, decNougat, hd]; exact (tqOk_iff sel).2 hs)
  case twait h => exact reads_n rfl (by simp [decOp, decNougat])
  case invoke h d x rank mbx n1 p core =>
    obtain ⟨hdp, hc⟩ := Bool.and_eq_true_iff.1 w
    obtain ⟨hdr, hp⟩ := Bool.and_eq_true_iff.1 hdp
    obtain ⟨hd, hr⟩ := Bool.and_eq_true_iff.1 hdr
    cases core with
    | none =>
      exact reads_of 2 0xB0 h 0 (encOWs d) (encOS d) x.toNat (encO rank) (pnFn p false) (invokeX mbx n1 0) rfl
        (by simp [decOp, decInvoke, hd, hr, hp])
    | some k =>
      exact reads_of 2 0xB0 h 0 (encOWs d) (encOS d) x.toNat (encO rank) (pnFn p true) (invokeX mbx n1 k) rfl
        (by simp [decOp, decInvoke, hd, hr, hp]; exact of_decide_eq_true hc)
  case invh h d x up mbx n1 p =>
    obtain ⟨hdu, hp⟩ := Bool.and_eq_true_iff.1 w
    obtain ⟨hd, hu⟩ := Bool.and_eq_true_iff.1 hdu
    exact reads_of 2 0xB1 h 0 (encOWs d) (encOS d) x.toNat up.toNat (pnFn p false) (invokeX mbx n1 0) rfl
      (by simp [decOp, decInvoke, hd, hu, hp]; exact encPN_lt p)
  case hwait h f p a =>
    obtain ⟨hp, ha⟩ := Bool.and_eq_true_iff.1 w
    cases f with
    | plain => exact reads_n (fn := 0) rfl (by simp [decOp, decInvoke, hp, ha])
    | trap => exact reads_n (fn := 2) rfl (by simp [decOp, decInvoke, hwait_fields, hp, ha])
  case hwaitPark h p a m n =>
    obtain ⟨hpa, hn⟩ := Bool.and_eq_true_iff.1 w
    obtain ⟨hp, ha⟩ := Bool.and_eq_true_iff.1 hpa
    have hn : n.toNat < 17 := Nat.lt_succ_of_le (of_decide_eq_true hn)
    exact reads_n rfl (by simp [decOp, decInvoke, hp, ha, hn])
  case hget h st p d a n =>
    obtain ⟨hpa, hn⟩ := Bool.and_eq_true_iff.1 w
    obtain ⟨hp, ha⟩ := Bool.and_eq_true_iff.1 hpa
    cases st with
    | false => exact reads_n (fn := pnFn p false) rfl (by simp [decOp, decInvoke, hp, ha]; exact hn)
    | true => exact reads_n (fn := pnFn p true) rfl (by simp [decOp, decInvoke, hp, ha]; exact (eq_of_beq hn).symm)
  case hdrop h a => exact reads_n rfl (by simp [decOp, decInvoke]; exact w)
  case mbregBind h m e f =>
    obtain ⟨hm, hp⟩ := Bool.and_eq_true_iff.1 w
    exact reads_x rfl (by simp [decOp, decInvoke, hm, hp])
  case mbregOpen h m => exact reads_x rfl (by simp [decOp, decInvoke]; exact w)
  case mbregClose h m => exact reads_x rfl (by simp [decOp, decInvoke]; exact w)
  case msend h p x rank mbx n1 =>
    obtain ⟨hpr, hm⟩ := Bool.and_eq_true_iff.1 w
    obtain ⟨hp, hr⟩ := Bool.and_eq_true_iff.1 hpr
    have := n1.isLt
    exact reads_x rfl (by simp [decOp, decInvoke, Raw.c, Raw.mod, hp, hr, hm]; omega)
  case mrecv h x p d m =>
    obtain ⟨hp, hm⟩ := Bool.and_eq_true_iff.1 w
    exact reads_n (fn := pnFn p x) rfl (by simp [decOp, decInvoke, hp, hm])
  case qpush h p m q =>
    obtain ⟨hp, hq⟩ := Bool.and_eq_true_iff.1 w
    exact reads_n rfl (by simp [decOp, decInvoke, hp, hq])
  case qpop h p d q =>
    obtain ⟨hp, hq⟩ := Bool.and_eq_true_iff.1 w
    exact reads_n (fn := pnFn p false) rfl (by simp [decOp, decInvoke, hp, hq]; exact encPN_lt p)
  case qwait h q => exact reads_n rfl (by simp [decOp, decInvoke]; exact w)
  case notify h c => exact reads_n rfl (by simp [decOp, decInvoke]; exact w)
  case launch h p d x =>
    obtain ⟨hp, hx⟩ := Bool.and_eq_true_iff.1 w
    cases x with
    | pair a => exact reads_x (fn := pnFn p false) rfl (by simp [decOp, decInvoke, hp]; exact hx)
    | label off => exact reads_x (fn := pnFn p true) rfl (by simp [decOp, decInvoke, hp])
  all_goals exact absurd rfl he

theorem exists_atomic {len op : Nat} {h : Hdr} {ac ws d a b fn hi : Nat} (hs : FieldsOk len op h ac ws d a b fn hi)
    (h16 : 0x90 ≤ op ∧ op ≤ 0x94) (hq : (decAtomic (rF len op h ac ws d a b fn hi)).1 = 0) :
    ∃ i, encRaw i = some (rF len op h ac ws d a b fn hi) ∧ operandsOk i = true := by
  obtain rfl | rfl | rfl | rfl | rfl :
    op = 0x90 ∨ op = 0x91 ∨ op = 0x92 ∨ op = 0x93 ∨ op = 0x94 := by omega
  · obtain rfl := hs.noAC rfl rfl
    obtain ⟨rfl, hi'⟩ := hs.long rfl rfl
    obtain ⟨C, m, rfl, hC, hm⟩ := exists_c_mod hi'
    simp [decAtomic, Raw.c, Raw.mod, fld_c hC, fld_mod hC hm, hC, hs.causes, and_assoc] at hq
    obtain ⟨⟨D, rfl, rfl⟩, hb, ⟨B, rfl⟩, ⟨C, rfl⟩, hop, hm2, hv⟩ := hq
    obtain ⟨aop, ty, bs, sc, rfl, rfl, hbo, hoo⟩ := exists_atomFn hs.fn_lt hs.a_lt hb hop
    obtain ⟨o, rfl⟩ := exists_bool (x := m) (by omega)
    exact ⟨.atom h D aop ty bs B sc C o, rfl, Bool.and_eq_true_iff.2 ⟨Bool.and_eq_true_iff.2 ⟨(qVS_two D B C).1 hv, hbo⟩, hoo⟩⟩
  · obtain rfl := hs.noAC rfl rfl
    obtain ⟨rfl, hi'⟩ := hs.ext rfl rfl
    cases h64 : bit hi 30
    · simp [decAtomic, h64, hs.causes, and_assoc] at hq
      obtain ⟨⟨D, rfl, rfl⟩, hb, ⟨B, rfl⟩, hcm, hnw, hv, hpp, rfl, h0⟩ := hq
      obtain ⟨bs, sc, hbs, rfl, hsc, hbo⟩ := exists_abase (fld_lt hi 31 2) hs.a_lt hb
      obtain ⟨x, hx⟩ := (qAny_iff (fld_lt hi 0 11)).1 hcm
      obtain ⟨y, hy⟩ := (qAny_iff (fld_lt hi 11 11)).1 hnw
      obtain ⟨p, hc, hk, hp⟩ := (qPP_iff (fld_lt hi 22 4) (fld_lt hi 26 4)).1 hpp
      rw [hx, hy, qVS_three] at hv
      rw [acasX_eq hi' h64 hx hy hc hk hbs hsc h0]
      exact ⟨.acas h (.one D) bs B x y p sc (bit hi 36), rfl, Bool.and_eq_true_iff.2 ⟨Bool.and_eq_true_iff.2 ⟨hv, hbo⟩, hp⟩⟩
    · simp [decAtomic, h64, hs.causes, and_assoc] at hq
      obtain ⟨⟨D, rfl, rfl⟩, hd, hb, ⟨B, rfl⟩, hcm, hnw, hv, hpp, rfl, h0⟩ := hq
      obtain ⟨bs, sc, hbs, rfl, hsc, hbo⟩ := exists_abase (fld_lt hi 31 2) hs.a_lt hb
      obtain ⟨x, hx, hx'⟩ := (qEven_iff (fld_lt hi 0 11)).1 hcm
      obtain ⟨y, hy, hy'⟩ := (qEven_iff (fld_lt hi 11 11)).1 hnw
      obtain ⟨p, hc, hk, hp⟩ := (qPP_iff (fld_lt hi 22 4) (fld_lt hi 26 4)).1 hpp
      rw [hx, hy, qVS_three] at hv
      obtain ⟨old, ho, hok⟩ := acasOk_b64 D B x y hd hv hx' hy'
      rw [acasX_eq hi' h64 hx hy hc hk hbs hsc h0]
      exact ⟨.acas h old bs B x y p sc (bit hi 36), encRaw_acas (w := true) ho h bs B x y p sc _,
        Bool.and_eq_true_iff.2 ⟨Bool.and_eq_true_iff.2 ⟨hok, hbo⟩, hp⟩⟩
  · obtain rfl := hs.noAC rfl rfl
    obtain ⟨rfl, hi'⟩ := hs.long rfl rfl
    obtain ⟨C, m, rfl, hC, hm⟩ := exists_c_mod hi'
    simp [decAtomic, Raw.c, Raw.mod, fld_c hC, fld_mod hC hm, hC, hs.causes, and_assoc] at hq
    obtain ⟨rfl, rfl, hb, ⟨B, rfl⟩, ⟨C, rfl⟩, hop, hm2⟩ := hq
    obtain ⟨aop, ty, bs, sc, rfl, rfl, hbo, hoo⟩ := exists_atomFn hs.fn_lt hs.a_lt hb hop
    obtain ⟨o, rfl⟩ := exists_bool (x := m) (by omega)
    exact ⟨.ared h aop ty bs B sc C o, rfl, Bool.and_eq_true_iff.2 ⟨hbo, hoo⟩⟩
  · obtain rfl := hs.noAC rfl rfl
    obtain ⟨rfl, rfl⟩ := hs.short rfl rfl
    by_cases h3 : fld fn 3 2 = 3
    · simp [decAtomic, h3, hs.causes, and_assoc] at hq
      obtain ⟨rfl, rfl, rfl, rfl, -, hf, h0⟩ := hq
      obtain rfl : fn = 24 := by simp only [fld_eq] at *; omega
      exact ⟨.fenceCode h, rfl, rfl⟩
    · simp [decAtomic, h3, hs.causes, and_assoc] at hq
      obtain ⟨rfl, rfl, rfl, rfl, h5, hf⟩ := hq
      obtain ⟨sc, k, rfl⟩ := exists_fence hf h5 h3
      exact ⟨.fence h k sc, rfl, rfl⟩
  · obtain rfl := hs.noAC rfl rfl
    obtain ⟨rfl, rfl⟩ := hs.short rfl rfl
    obtain rfl | rfl | h2 : fn = 0 ∨ fn = 1 ∨ 2 ≤ fn := by omega
    · simp [decAtomic, bit, hs.causes, and_assoc] at hq
      obtain ⟨⟨D, rfl, rfl, hD⟩, rfl, rfl⟩ := hq
      exact ⟨.raceqHead h D, rfl, hD⟩
    · simp [decAtomic, bit, hs.causes, and_assoc] at hq
      obtain ⟨rfl, rfl, ⟨A, rfl, hA⟩, rfl⟩ := hq
      exact ⟨.raceqBase h A, rfl, hA⟩
    · cases h0 : bit fn 0
      · simp [decAtomic, h0, h2] at hq
      · simp [decAtomic, h0, h2] at hq

theorem exists_nougat {len op : Nat} {h : Hdr} {ac ws d a b fn hi : Nat} (hs : FieldsOk len op h ac ws d a b fn hi)
    (h16 : 0xA0 ≤ op ∧ op ≤ 0xA4) (hq : (decNougat (rF len op h ac ws d a b fn hi)).1 = 0) :
    ∃ i, encRaw i = some (rF len op h ac ws d a b fn hi) ∧ operandsOk i = true := by
  obtain rfl | rfl | rfl | rfl | rfl :
    op = 0xA0 ∨ op = 0xA1 ∨ op = 0xA2 ∨ op = 0xA3 ∨ op = 0xA4 := by omega
  · obtain rfl := hs.noAC rfl rfl
    obtain ⟨rfl, hi'⟩ := hs.ext rfl rfl
    obtain rfl | rfl | h2 : fn = 0 ∨ fn = 1 ∨ 2 ≤ fn := by omega
    · simp [decNougat, bit, hs.causes, and_assoc] at hq
      obtain ⟨rfl, ⟨D, rfl⟩, ⟨A, rfl, hA⟩, ⟨j, hj⟩, h47, ⟨B, rfl, hB⟩, h15⟩ := hq
      obtain ⟨n, hn⟩ := exists_toNat (fld_lt hi 11 4)
      rw [guessX_eq (off := 0) hi' hj hn h15 h47]
      exact ⟨.guess h D A B j n, rfl, Bool.and_eq_true_iff.2 ⟨hA, hB⟩⟩
    · simp [decNougat, bit, hs.causes, and_assoc] at hq
      obtain ⟨rfl, ⟨D, rfl⟩, ⟨A, rfl, hA⟩, ⟨j, hj⟩, h47, rfl, h11⟩ := hq
      obtain ⟨off, ho⟩ := exists_toNat (fld_lt hi 15 32)
      rw [guessX_eq (w := 0) hi' hj h11 ho h47]
      exact ⟨.guessN h D A j off, rfl, hA⟩
    · cases h0 : bit fn 0
      · simp [decNougat, h0, h2] at hq
      · simp [decNougat, h0, h2] at hq
  · obtain rfl := hs.noAC rfl rfl
    obtain ⟨rfl, rfl⟩ := hs.short rfl rfl
    simp [decNougat, hs.causes, and_assoc] at hq
    obtain ⟨rfl, ⟨p, rfl, hp⟩, ⟨A, rfl, hA⟩, rfl, rfl⟩ := hq
    exact ⟨.affirm h p A, rfl, Bool.and_eq_true_iff.2 ⟨hp, hA⟩⟩
  · obtain rfl := hs.noAC rfl rfl
    obtain ⟨rfl, rfl⟩ := hs.short rfl rfl
    simp [decNougat, hs.causes, and_assoc] at hq
    obtain ⟨rfl, ⟨p, rfl, hp⟩, ⟨A, rfl, hA⟩, rfl, rfl⟩ := hq
    exact ⟨.deny h p A, rfl, Bool.and_eq_true_iff.2 ⟨hp, hA⟩⟩
  · obtain rfl := hs.noAC rfl rfl
    obtain ⟨rfl, rfl⟩ := hs.short rfl rfl
    simp [decNougat, hs.causes, and_assoc] at hq
    obtain ⟨⟨D, rfl, rfl, hD⟩, rfl, h8, ht⟩ := hq
    rw [fld_all (n := 3) h8] at ht
    obtain ⟨sel, rfl, rfl, hsel⟩ := exists_tq h8 hs.a_lt ht
    exact ⟨.tqry h D sel, rfl, Bool.and_eq_true_iff.2 ⟨hD, hsel⟩⟩
  · obtain rfl := hs.noAC rfl rfl
    obtain ⟨rfl, rfl⟩ := hs.short rfl rfl
    simp [decNougat, hs.causes, and_assoc] at hq
    obtain ⟨rfl, rfl, rfl, rfl, rfl⟩ := hq
    exact ⟨.twait h, rfl, rfl⟩

theorem exists_invoke {len op : Nat} {h : Hdr} {ac ws d a b fn hi : Nat} (hs : FieldsOk len op h ac ws d a b fn hi)
    (h16 : 0xB0 ≤ op ∧ op ≤ 0xBC) (hq : (decInvoke (rF len op h ac ws d a b fn hi)).1 = 0) :
    ∃ i, encRaw i = some (rF len op h ac ws d a b fn hi) ∧ operandsOk i = true := by
  obtain rfl | rfl | rfl | rfl | rfl | rfl | rfl | rfl | rfl | rfl | rfl | rfl | rfl :
    op = 0xB0 ∨ op = 0xB1 ∨ op = 0xB2 ∨ op = 0xB3 ∨ op = 0xB4 ∨ op = 0xB5 ∨ op = 0xB6 ∨ op = 0xB7 ∨ op = 0xB8 ∨
      op = 0xB9 ∨ op = 0xBA ∨ op = 0xBB ∨ op = 0xBC := by omega
  · obtain rfl := hs.noAC rfl rfl
    obtain ⟨rfl, hi'⟩ := hs.ext rfl rfl
    cases h8 : bit fn 8
    · simp [decInvoke, h8, hs.causes, and_assoc] at hq
      obtain ⟨⟨D, rfl, rfl, hD⟩, ⟨A, rfl⟩, ⟨B, rfl, hB⟩, hpp, hf, -, hz, h0⟩ := hq
      obtain ⟨p, rfl, hp⟩ := exists_pnFn h8 hf hpp
      obtain ⟨mbx, n1, k, rfl, hk⟩ := exists_invokeX hi' h0
      obtain rfl : k = 0 := BitVec.eq_of_toNat_eq (hk.symm.trans hz)
      exact ⟨.invoke h D A B mbx n1 p none, rfl, Bool.and_eq_true_iff.2 ⟨Bool.and_eq_true_iff.2 ⟨Bool.and_eq_true_iff.2 ⟨hD, hB⟩, hp⟩, rfl⟩⟩
    · simp [decInvoke, h8, hs.causes, and_assoc] at hq
      obtain ⟨⟨D, rfl, rfl, hD⟩, ⟨A, rfl⟩, ⟨B, rfl, hB⟩, hpp, hf, h192, h0⟩ := hq
      obtain ⟨p, rfl, hp⟩ := exists_pnFn h8 hf hpp
      obtain ⟨mbx, n1, k, rfl, hk⟩ := exists_invokeX hi' h0
      rw [hk] at h192
      exact ⟨.invoke h D A B mbx n1 p (some k), rfl, Bool.and_eq_true_iff.2 ⟨Bool.and_eq_true_iff.2 ⟨Bool.and_eq_true_iff.2 ⟨hD, hB⟩, hp⟩, decide_eq_true h192⟩⟩
  · obtain rfl := hs.noAC rfl rfl
    obtain ⟨rfl, hi'⟩ := hs.ext rfl rfl
    simp [decInvoke, hs.causes, and_assoc] at hq
    obtain ⟨⟨D, rfl, rfl, hD⟩, ⟨A, rfl⟩, ⟨B, rfl, hB⟩, hpp, hf, h0⟩ := hq
    obtain ⟨p, rfl, hp⟩ := exists_encPN hf hpp
    obtain ⟨mbx, n1, rfl⟩ := exists_invhX hi' h0
    exact ⟨.invh h D A B mbx n1 p, rfl, Bool.and_eq_true_iff.2 ⟨Bool.and_eq_true_iff.2 ⟨hD, hB⟩, hp⟩⟩
  · obtain rfl := hs.noAC rfl rfl
    obtain ⟨rfl, rfl⟩ := hs.short rfl rfl
    obtain h1 | h1 | h1 | h1 : fld fn 0 2 = 1 ∨ fld fn 0 2 = 2 ∨ fld fn 0 2 = 0 ∨ fld fn 0 2 = 3 := by
      have := fld_lt fn 0 2
      omega
    · simp [decInvoke, h1, hs.causes, and_assoc] at hq
      obtain ⟨rfl, ⟨p, rfl, hp⟩, ⟨A, rfl, hA⟩, hf, ⟨m, rfl⟩, h17⟩ := hq
      obtain ⟨n, rfl, hn⟩ := exists_hpark hf h1
      rw [hn] at h17
      exact ⟨.hwaitPark h p A m n, rfl, Bool.and_eq_true_iff.2 ⟨Bool.and_eq_true_iff.2 ⟨hp, hA⟩, decide_eq_true (Nat.le_of_lt_succ h17)⟩⟩
    · simp [decInvoke, h1, hs.causes, and_assoc] at hq
      obtain ⟨rfl, ⟨p, rfl, hp⟩, ⟨A, rfl, hA⟩, hf, rfl, h0⟩ := hq
      obtain rfl : fn = 2 := by simp only [fld_eq] at *; omega
      exact ⟨.hwait h .trap p A, rfl, Bool.and_eq_true_iff.2 ⟨hp, hA⟩⟩
    · simp [decInvoke, h1, hs.causes, and_assoc] at hq
      obtain ⟨rfl, ⟨p, rfl, hp⟩, ⟨A, rfl, hA⟩, hf, rfl, h0⟩ := hq
      obtain rfl : fn = 0 := by simp only [fld_eq] at *; omega
      exact ⟨.hwait h .plain p A, rfl, Bool.and_eq_true_iff.2 ⟨hp, hA⟩⟩
    · simp [decInvoke, h1] at hq
  · obtain rfl := hs.noAC rfl rfl
    obtain ⟨rfl, rfl⟩ := hs.short rfl rfl
    cases h8 : bit fn 8
    · simp [decInvoke, h8, hs.causes, and_assoc] at hq
      obtain ⟨rfl, ⟨D, rfl⟩, ⟨A, rfl, hA⟩, ⟨B, rfl, hB⟩, hpp, hf⟩ := hq
      obtain ⟨p, rfl, hp⟩ := exists_pnFn h8 hf hpp
      exact ⟨.hget h false p D A B, rfl, Bool.and_eq_true_iff.2 ⟨Bool.and_eq_true_iff.2 ⟨hp, hA⟩, hB⟩⟩
    · simp [decInvoke, h8, hs.causes, and_assoc] at hq
      obtain ⟨rfl, ⟨D, rfl⟩, ⟨A, rfl, hA⟩, rfl, hpp, hf⟩ := hq
      obtain ⟨p, rfl, hp⟩ := exists_pnFn h8 hf hpp
      exact ⟨.hget h true p D A (.imm 0), rfl, Bool.and_eq_true_iff.2 ⟨Bool.and_eq_true_iff.2 ⟨hp, hA⟩, rfl⟩⟩
  · obtain rfl := hs.noAC rfl rfl
    obtain ⟨rfl, rfl⟩ := hs.short rfl rfl
    simp [decInvoke, hs.causes, and_assoc] at hq
    obtain ⟨rfl, rfl, ⟨A, rfl, hA⟩, rfl, rfl⟩ := hq
    exact ⟨.hdrop h A, rfl, hA⟩
  · obtain rfl := hs.noAC rfl rfl
    obtain ⟨rfl, hi'⟩ := hs.ext rfl rfl
    obtain rfl | rfl | rfl | h3 : fn = 0 ∨ fn = 1 ∨ fn = 2 ∨ 3 ≤ fn := by omega
    · simp [decInvoke, hs.causes, and_assoc] at hq
      obtain ⟨rfl, ⟨m, rfl, hm⟩, rfl, ⟨A, rfl, hA⟩, h0⟩ := hq
      obtain ⟨f, rfl⟩ := exists_bind hi' h0
      exact ⟨.mbregBind h m A f, rfl, Bool.and_eq_true_iff.2 ⟨hm, hA⟩⟩
    · simp [decInvoke, hs.causes, and_assoc] at hq
      obtain ⟨rfl, ⟨m, rfl, hm⟩, rfl, rfl, rfl⟩ := hq
      exact ⟨.mbregOpen h m, rfl, hm⟩
    · simp [decInvoke, hs.causes, and_assoc] at hq
      obtain ⟨rfl, ⟨m, rfl, hm⟩, rfl, rfl, rfl⟩ := hq
      exact ⟨.mbregClose h m, rfl, hm⟩
    · simp [decInvoke, show fn ≠ 0 by omega, show fn ≠ 1 by omega] at hq
      omega
  · obtain rfl := hs.noAC rfl rfl
    obtain ⟨rfl, hi'⟩ := hs.long rfl rfl
    obtain ⟨C, m, rfl, hC, hm⟩ := exists_c_mod hi'
    simp [decInvoke, Raw.c, Raw.mod, fld_c hC, fld_mod hC hm, hC, hs.causes, and_assoc] at hq
    obtain ⟨rfl, ⟨p, rfl, hp⟩, ⟨A, rfl⟩, ⟨B, rfl, hB⟩, ⟨C, rfl, hC'⟩, rfl, h16⟩ := hq
    obtain ⟨n1, rfl⟩ := exists_toNat (n := 4) h16
    exact ⟨.msend h p A B C n1, rfl, Bool.and_eq_true_iff.2 ⟨Bool.and_eq_true_iff.2 ⟨hp, hB⟩, hC'⟩⟩
  · obtain rfl := hs.noAC rfl rfl
    obtain ⟨rfl, rfl⟩ := hs.short rfl rfl
    simp [decInvoke, hs.causes, and_assoc] at hq
    obtain ⟨rfl, ⟨D, rfl⟩, ⟨A, rfl, hA⟩, rfl, hpp, hf⟩ := hq
    obtain ⟨x, hx⟩ : ∃ x, bit fn 8 = x := ⟨_, rfl⟩
    obtain ⟨p, rfl, hp⟩ := exists_pnFn hx hf hpp
    exact ⟨.mrecv h x p D A, rfl, Bool.and_eq_true_iff.2 ⟨hp, hA⟩⟩
  · obtain rfl := hs.noAC rfl rfl
    obtain ⟨rfl, rfl⟩ := hs.short rfl rfl
    simp [decInvoke, hs.causes, and_assoc] at hq
    obtain ⟨rfl, ⟨p, rfl, hp⟩, ⟨A, rfl⟩, ⟨B, rfl, hB⟩, rfl⟩ := hq
    exact ⟨.qpush h p A B, rfl, Bool.and_eq_true_iff.2 ⟨hp, hB⟩⟩
  · obtain rfl := hs.noAC rfl rfl
    obtain ⟨rfl, rfl⟩ := hs.short rfl rfl
    simp [decInvoke, hs.causes, and_assoc] at hq
    obtain ⟨rfl, ⟨D, rfl⟩, ⟨A, rfl, hA⟩, rfl, hpp, hf⟩ := hq
    obtain ⟨p, rfl, hp⟩ := exists_encPN hf hpp
    exact ⟨.qpop h p D A, rfl, Bool.and_eq_true_iff.2 ⟨hp, hA⟩⟩
  · obtain rfl := hs.noAC rfl rfl
    obtain ⟨rfl, rfl⟩ := hs.short rfl rfl
    simp [decInvoke, hs.causes, and_assoc] at hq
    obtain ⟨rfl, rfl, ⟨A, rfl, hA⟩, rfl, rfl⟩ := hq
    exact ⟨.qwait h A, rfl, hA⟩
  · obtain rfl := hs.noAC rfl rfl
    obtain ⟨rfl, rfl⟩ := hs.short rfl rfl
    simp [decInvoke, hs.causes, and_assoc] at hq
    obtain ⟨rfl, rfl, ⟨A, rfl, hA⟩, rfl, rfl⟩ := hq
    exact ⟨.notify h A, rfl, hA⟩
  · obtain rfl := hs.noAC rfl rfl
    obtain ⟨rfl, hi'⟩ := hs.ext rfl rfl
    cases h8 : bit fn 8
    · simp [decInvoke, h8, hs.causes, and_assoc] at hq
      obtain ⟨rfl, ⟨D, rfl⟩, rfl, hpp, hf, ⟨A, rfl, hA⟩, rfl⟩ := hq
      obtain ⟨p, rfl, hp⟩ := exists_pnFn h8 hf hpp
      exact ⟨.launch h p D (.pair A), rfl, Bool.and_eq_true_iff.2 ⟨hp, hA⟩⟩
    · simp [decInvoke, h8, hs.causes, and_assoc] at hq
      obtain ⟨rfl, ⟨D, rfl⟩, rfl, hpp, hf, rfl, h0⟩ := hq
      obtain ⟨p, rfl, hp⟩ := exists_pnFn h8 hf hpp
      obtain ⟨off, rfl⟩ := exists_off54 hi' h0
      exact ⟨.launch h p D (.label off), rfl, Bool.and_eq_true_iff.2 ⟨hp, rfl⟩⟩

end Sys2Proof
end

section
/-! Fabric, collective, Praline and system instructions, encoded and decoded. -/

namespace Sys2Proof

/-! ### Fields of fabric, collective, Praline and system instructions (R207, R209, R238, R242, R260, R261, R275, R276, R386) -/

/-! #### Remote operations -/

/-- MOD of a remote operation: the window and a predicate pair (R238). -/
def remMod (win : BitVec 12) (p : CmpDst) : Nat := win.toNat + 2 ^ 12 * p.c.toNat + 2 ^ 16 * p.k.toNat

theorem encRem_eq (c : Nat) (win : BitVec 12) (p : CmpDst) : encRem c win p = c + 2048 * remMod win p := rfl

@[simp] theorem remMod_fields (win : BitVec 12) (p : CmpDst) : fld (remMod win p) 0 12 = win.toNat ∧
    fld (remMod win p) 12 4 = p.c.toNat ∧ fld (remMod win p) 16 4 = p.k.toNat ∧ bit (remMod win p) 20 = false ∧
    remMod win p < 2097152 := by
  simp only [remMod, bit_eq, fld_eq]
  refine ⟨by omega, by omega, by omega, ?_, by omega⟩
  simp; omega

section
variable {c : Nat} (hc : c < 2048) (win : BitVec 12) (p : CmpDst)
include hc
@[simp] theorem encRem_fields : fld (encRem c win p) 0 11 = c ∧ fld (encRem c win p) 11 21 = remMod win p ∧
    encRem c win p < 4294967296 := by
  have h := (remMod_fields win p).2.2.2.2
  rw [encRem_eq]
  exact ⟨fld_c hc, fld_mod hc h, by omega⟩
end

theorem exists_rem {m : Nat} (hm : m < 2097152) (h20 : bit m 20 = false) (h : qPP (fld m 12 4) (fld m 16 4) = 0) :
    ∃ win p, m = remMod win p ∧ cmpOk p = true := by
  obtain ⟨win, hw⟩ := exists_toNat (fld_lt m 0 12)
  obtain ⟨p, hc, hk, hp⟩ := (qPP_iff (fld_lt m 12 4) (fld_lt m 16 4)).1 h
  have h20 : fld m 20 1 = 0 := by rw [← toNat_bit, h20]; rfl
  refine ⟨win, p, ?_, hp⟩
  simp only [remMod, ← hw, ← hc, ← hk, fld_eq] at *
  omega

/-- FN of `RRED`. -/
@[simp] theorem rred_fields (op : RedOp) (ty : ATy) : fld (encRed op + 8 * encATy ty) 0 3 = encRed op ∧
    fld (encRed op + 8 * encATy ty) 3 2 = encATy ty ∧ encRed op + 8 * encATy ty < 32 ∧
    encRed op + 8 * encATy ty < 2048 := by
  cases op <;> cases ty <;> decide
@[simp] theorem encRed_lt (op : RedOp) : encRed op < 6 := redCodec.enc_lt op
@[simp] theorem encATy_ne_three (ty : ATy) : encATy ty ≠ 3 := Nat.ne_of_lt (atyCodec.enc_lt ty)

theorem rred_iff (op : RedOp) (ty : ATy) :
    (encATy ty = 2 → encRed op < 3) ↔ (!bitwise op || ty != .f32) = true := by
  cases op <;> cases ty <;> decide

theorem exists_rred {fn : Nat} (hf : fn < 32) (h6 : fld fn 0 3 < 6) (h3 : fld fn 3 2 ≠ 3) :
    ∃ op ty, fn = encRed op + 8 * encATy ty := by
  obtain ⟨op, ho⟩ := redCodec.exists_enc h6
  obtain ⟨ty, ht⟩ := atyCodec.exists_enc (k := fld fn 3 2) (by have := fld_lt fn 3 2; omega)
  refine ⟨op, ty, ?_⟩
  simp only [← ho, ← ht, fld_eq]
  omega

/-! #### Multicast, collectives and triggered sends -/

/-- EXT of `MCST`. -/
def mcstX (e : BitVec 8) (win : BitVec 12) (n : BitVec 13) (roff : BitVec 30) : Nat :=
  e.toNat + 2 ^ 8 * win.toNat + 2 ^ 20 * n.toNat + 2 ^ 33 * roff.toNat

@[simp] theorem mcstX_fields (e : BitVec 8) (win : BitVec 12) (n : BitVec 13) (roff : BitVec 30) :
    fld (mcstX e win n roff) 0 8 = e.toNat ∧ fld (mcstX e win n roff) 8 12 = win.toNat ∧
    fld (mcstX e win n roff) 20 13 = n.toNat ∧ fld (mcstX e win n roff) 33 30 = roff.toNat ∧
    bit (mcstX e win n roff) 63 = false ∧ mcstX e win n roff < 18446744073709551616 := by
  simp only [mcstX, bit_eq, fld_eq]
  refine ⟨by omega, by omega, by omega, by omega, ?_, by omega⟩
  simp; omega

theorem exists_mcstX {hi : Nat} (hhi : hi < 2 ^ 64) (h63 : bit hi 63 = false) :
    ∃ e win n roff, hi = mcstX e win n roff ∧ fld hi 20 13 = n.toNat := by
  obtain ⟨e, he⟩ := exists_toNat (fld_lt hi 0 8)
  obtain ⟨w, hw⟩ := exists_toNat (fld_lt hi 8 12)
  obtain ⟨n, hn⟩ := exists_toNat (fld_lt hi 20 13)
  obtain ⟨r, hr⟩ := exists_toNat (fld_lt hi 33 30)
  have h63 : fld hi 63 1 = 0 := by rw [← toNat_bit, h63]; rfl
  refine ⟨e, w, n, r, ?_, hn⟩
  simp only [mcstX, ← he, ← hw, ← hn, ← hr, fld_eq] at *
  omega

@[simp] theorem encCollFn_fields (f : CollF) : fld (encCollFn f) 0 3 = encColl f.op ∧ fld (encCollFn f) 3 2 = encCollTy f.ty ∧
    fld (encCollFn f) 5 3 = encRed f.red ∧ bit (encCollFn f) 8 = f.sb7 ∧ encCollFn f < 512 ∧ encCollFn f < 2048 := by
  have hs : decide (f.sb7.toNat = 1) = f.sb7 := by cases f.sb7 <;> rfl
  have := Bool.toNat_lt f.sb7
  have := collCodec.enc_lt f.op; have := collTyCodec.enc_lt f.ty; have := redCodec.enc_lt f.red
  simp only [encCollFn]
  generalize f.sb7.toNat = sn at *
  simp only [bit_eq, fld_eq]
  refine ⟨by omega, by omega, by omega, ?_, by omega, by omega⟩
  rw [← hs]; congr 1; simp only [eq_iff_iff]; omega

@[simp] theorem encCollX_fields (f : CollF) (n : Opnd) : fld (encCollX f n) 0 11 = encO n ∧
    fld (encCollX f n) 11 8 = f.entry.toNat ∧ fld (encCollX f n) 19 12 = f.win.toNat ∧
    fld (encCollX f n) 31 8 = f.sbase.toNat ∧ fld (encCollX f n) 39 4 = f.slog.toNat ∧
    fld (encCollX f n) 43 10 = f.root.toNat ∧ fld (encCollX f n) 53 6 = f.cn.toNat ∧ bit (encCollX f n) 59 = f.raise ∧
    fld (encCollX f n) 60 4 = 0 ∧ encCollX f n < 18446744073709551616 := by
  have hr : decide (f.raise.toNat = 1) = f.raise := by cases f.raise <;> rfl
  have := Bool.toNat_lt f.raise
  have := encO_lt n
  simp only [encCollX]
  generalize f.raise.toNat = rn at *; generalize encO n = x at *
  simp only [bit_eq, fld_eq]
  refine ⟨by omega, by omega, by omega, by omega, by omega, by omega, by omega, ?_, by omega, by omega⟩
  rw [← hr]; congr 1; simp only [eq_iff_iff]; omega

/-- What R261 asks of the constant fields of `COLL`, as the decoder asks it of their codes. -/
theorem collOk_iff (f : CollF) : (decide (9 ≤ f.slog.toNat) || (encRed f.red != 0 && decide (2 ≤ encColl f.op))
    || (decide (3 ≤ encRed f.red) && encCollTy f.ty != 0) || (f.root.toNat != 0 && encColl f.op != 3)
    || (f.sb7 && (encCollTy f.ty != 1 || decide (2 ≤ encColl f.op) || decide (3 ≤ encRed f.red)))) = false ↔
    collOk f = true := by
  have h1 : decide (2 ≤ encColl f.op) = !(f.op == .allreduce || f.op == .redscat) := by cases f.op <;> decide
  have h2 : (encColl f.op != 3) = !(f.op == .bcast) := by cases f.op <;> decide
  have h3 : (encRed f.red != 0) = !(f.red == .add) := by cases f.red <;> decide
  have h4 : decide (3 ≤ encRed f.red) = bitwise f.red := by cases f.red <;> decide
  have h5 : (encCollTy f.ty != 0) = !(f.ty == .i32) := by cases f.ty <;> decide
  have h6 : (encCollTy f.ty != 1) = !(f.ty == .f32) := by cases f.ty <;> decide
  have h7 : (f.root.toNat != 0) = !(f.root == 0) := by simp [bne, ← BitVec.toNat_inj]
  have h8 : decide (9 ≤ f.slog.toNat) = !decide (f.slog.toNat ≤ 8) := by
    rw [← decide_not, decide_eq_decide, Nat.not_le, Nat.lt_iff_add_one_le]
  simp only [h1, h2, h3, h4, h5, h6, h7, h8, collOk, Bool.or_eq_false_iff, Bool.and_eq_true, Bool.and_eq_false_iff,
    Bool.or_eq_true, Bool.not_eq_false', Bool.not_eq_true']

theorem exists_coll {fn hi : Nat} {n : Opnd} (hf : fn < 512) (hhi : hi < 2 ^ 64) (h6 : fld fn 0 3 < 6) (hr : fld fn 5 3 < 6)
    (h0 : fld hi 60 4 = 0) (hn : fld hi 0 11 = encO n) : ∃ f, fn = encCollFn f ∧ hi = encCollX f n := by
  obtain ⟨op, ho⟩ := collCodec.exists_enc h6
  obtain ⟨ty, ht⟩ := collTyCodec.exists_enc (fld_lt fn 3 2)
  obtain ⟨red, hr⟩ := redCodec.exists_enc hr
  obtain ⟨entry, h1⟩ := exists_toNat (fld_lt hi 11 8)
  obtain ⟨win, h2⟩ := exists_toNat (fld_lt hi 19 12)
  obtain ⟨sbase, h3⟩ := exists_toNat (fld_lt hi 31 8)
  obtain ⟨slog, h4⟩ := exists_toNat (fld_lt hi 39 4)
  obtain ⟨root, h5⟩ := exists_toNat (fld_lt hi 43 10)
  obtain ⟨cn, h7⟩ := exists_toNat (fld_lt hi 53 6)
  refine ⟨⟨op, ty, red, bit fn 8, entry, win, sbase, slog, root, cn, bit hi 59⟩, ?_, ?_⟩
  · simp only [encCollFn, ← ho, ← ht, ← hr, toNat_bit, fld_eq]
    omega
  · simp only [encCollX, ← hn, ← h1, ← h2, ← h3, ← h4, ← h5, ← h7, toNat_bit, fld_eq] at *
    omega

@[simp] theorem encTsX_fields (f : TSendF) (t : Opnd) : fld (encTsX f t) 0 11 = encO t ∧ fld (encTsX f t) 11 12 = f.win.toNat ∧
    fld (encTsX f t) 23 16 = f.n4.toNat ∧ fld (encTsX f t) 39 6 = f.ct.toNat ∧ bit (encTsX f t) 45 = f.ctOn ∧
    fld (encTsX f t) 46 6 = f.cl.toNat ∧ bit (encTsX f t) 52 = f.clOn ∧ fld (encTsX f t) 53 11 = 0 ∧
    encTsX f t < 18446744073709551616 := by
  have h1 : decide (f.ctOn.toNat = 1) = f.ctOn := by cases f.ctOn <;> rfl
  have h2 : decide (f.clOn.toNat = 1) = f.clOn := by cases f.clOn <;> rfl
  have := Bool.toNat_lt f.ctOn; have := Bool.toNat_lt f.clOn
  have := encO_lt t
  simp only [encTsX]
  generalize f.ctOn.toNat = x at *; generalize f.clOn.toNat = y at *; generalize encO t = z at *
  simp only [bit_eq, fld_eq]
  refine ⟨by omega, by omega, by omega, by omega, ?_, by omega, ?_, by omega, by omega⟩
  · rw [← h1]; congr 1; simp only [eq_iff_iff]; omega
  · rw [← h2]; congr 1; simp only [eq_iff_iff]; omega

theorem exists_tsend {fn hi : Nat} {t : Opnd} (hf : fn < 64) (hhi : hi < 2 ^ 64) (h0 : fld hi 53 11 = 0)
    (ht : fld hi 0 11 = encO t) : ∃ f, fn = f.cn.toNat ∧ hi = encTsX f t ∧ fld hi 23 16 = f.n4.toNat := by
  obtain ⟨cn, rfl⟩ := exists_toNat (n := 6) hf
  obtain ⟨win, h1⟩ := exists_toNat (fld_lt hi 11 12)
  obtain ⟨n4, h2⟩ := exists_toNat (fld_lt hi 23 16)
  obtain ⟨ct, h3⟩ := exists_toNat (fld_lt hi 39 6)
  obtain ⟨cl, h4⟩ := exists_toNat (fld_lt hi 46 6)
  refine ⟨⟨cn, win, n4, ct, bit hi 45, cl, bit hi 52⟩, rfl, ?_, h2⟩
  simp only [encTsX, ← ht, ← h1, ← h2, ← h3, ← h4, toNat_bit, fld_eq] at *
  omega

/-- A counter number in FN. -/
@[simp] theorem cn_fields (n : BitVec 6) : fld n.toNat 0 6 = n.toNat ∧ n.toNat < 64 ∧ n.toNat < 2048 :=
  ⟨fld_all n.isLt, n.isLt, n.isLt.trans (by decide)⟩

/-- FN of `CTRD`. -/
@[simp] theorem ctrd_fields (n : BitVec 6) (sel : CSel) : fld (n.toNat + 64 * encCSel sel) 0 6 = n.toNat ∧
    fld (n.toNat + 64 * encCSel sel) 6 2 = encCSel sel ∧ n.toNat + 64 * encCSel sel < 256 ∧
    n.toNat + 64 * encCSel sel < 2048 := by
  have := cselCodec.enc_lt sel
  simp only [fld_eq]
  omega

theorem exists_ctrd {fn : Nat} (hf : fn < 256) :
    ∃ (n : BitVec 6) (sel : CSel), fn = n.toNat + 64 * encCSel sel ∧ fld fn 0 6 = n.toNat ∧ fld fn 6 2 = encCSel sel := by
  obtain ⟨n, hn⟩ := exists_toNat (fld_lt fn 0 6)
  obtain ⟨sel, hs⟩ := cselCodec.exists_enc (fld_lt fn 6 2)
  refine ⟨n, sel, ?_, hn, hs⟩
  simp only [← hn, ← hs, fld_eq]
  omega

theorem ctrd_iff (n : BitVec 6) (sel : CSel) :
    (encCSel sel = 1 ∨ encCSel sel = 2 → n.toNat = 0) ↔ (!(sel == .fail || sel == .cause) || n == 0) = true := by
  have hn : n.toNat = 0 ↔ n = 0 := by rw [← BitVec.toNat_inj]; rfl
  rw [hn]
  cases sel <;> simp [encCSel]

/-- FN of `CTSET`. -/
@[simp] theorem ctset_fields (n : BitVec 6) (add : Bool) : fld (n.toNat + 64 * add.toNat) 0 6 = n.toNat ∧
    bit (n.toNat + 64 * add.toNat) 6 = add ∧ n.toNat + 64 * add.toNat < 128 ∧ n.toNat + 64 * add.toNat < 2048 := by
  have ha : decide (add.toNat = 1) = add := by cases add <;> rfl
  have := Bool.toNat_lt add
  generalize add.toNat = x at *
  simp only [bit_eq, fld_eq]
  refine ⟨by omega, ?_, by omega, by omega⟩
  rw [← ha]; congr 1; simp only [eq_iff_iff]; omega

theorem exists_ctset {fn : Nat} (hf : fn < 128) : ∃ (n : BitVec 6) (add : Bool), fn = n.toNat + 64 * add.toNat := by
  obtain ⟨n, hn⟩ := exists_toNat (fld_lt fn 0 6)
  refine ⟨n, bit fn 6, ?_⟩
  simp only [← hn, toNat_bit, fld_eq]
  omega

/-- EXT of `GSET`. -/
@[simp] theorem gset_fields (m : BitVec 16) : fld m.toNat 16 48 = 0 ∧ m.toNat < 18446744073709551616 := by
  refine ⟨?_, by omega⟩
  simp only [fld_eq]
  omega

theorem exists_gset {hi : Nat} (hhi : hi < 2 ^ 64) (h0 : fld hi 16 48 = 0) : ∃ m : BitVec 16, hi = m.toNat :=
  exists_toNat (by simp only [fld_eq] at h0; omega)

/-- FN of `GQRY`. -/
@[simp] theorem encGSel_lt (sel : GSel) : encGSel sel < 8 ∧ encGSel sel < 2048 := by cases sel <;> decide

/-! #### Praline -/

/-- FN of `PRQRY` for a node's field. -/
@[simp] theorem encPSel_lt (sel : PSel) : encPSel sel < 11 ∧ encPSel sel < 16 ∧ encPSel sel < 2048 := by cases sel <;> decide


/-- EXT of `PRNEW`. -/
@[simp] theorem prnew_fields (m : SReg) : fld m.toNat 0 11 = m.toNat ∧ fld m.toNat 11 53 = 0 ∧
    m.toNat < 18446744073709551616 := by
  refine ⟨fld_all (by omega), ?_, by omega⟩
  simp only [fld_eq]
  omega

theorem prnewX_eq {hi : Nat} {m : SReg} (hhi : hi < 2 ^ 64) (hm : fld hi 0 11 = m.toNat) (h0 : fld hi 11 53 = 0) :
    hi = m.toNat := by
  simp only [fld_eq] at *
  omega

/-- Field C and MOD of `PREXP`: a vector register and an operand. -/
@[simp] theorem encV_encO (v : VReg) (n : Opnd) : fld (encV v + 2048 * encO n) 0 11 = encV v ∧
    fld (encV v + 2048 * encO n) 11 21 = encO n ∧ encV v + 2048 * encO n < 4294967296 := by
  have hv := encV_lt_2048 v
  have hn := encO_lt_2048 n
  exact ⟨fld_c hv, fld_mod hv (by omega), by omega⟩

@[simp] theorem encV_alone (v : VReg) : fld (encV v) 0 11 = encV v ∧ fld (encV v) 11 21 = 0 ∧ encV v < 4294967296 := by
  have hv := encV_lt_2048 v
  refine ⟨fld_all hv, ?_, by omega⟩
  simp only [fld_eq]
  omega

/-! #### Special registers and trap fields (R64, R207, R209) -/

/-- FN of `MFS` and `MTS` for a special register. -/
@[simp] theorem encSp_fields (r : SpReg) : fld (encSp r) 0 6 = encSp r ∧ bit (encSp r) 6 = false ∧ encSp r < 19 ∧
    encSp r < 128 ∧ encSp r < 2048 := by
  cases r <;> decide

/-- FN of `MFS` for a trap field. -/
@[simp] theorem encTr_fields (f : TrField) : fld (encTr f + 64) 0 6 = encTr f ∧ bit (encTr f + 64) 6 = true ∧
    encTr f < 32 ∧ encTr f + 64 < 128 ∧ encTr f + 64 < 2048 := by
  have h : encTr f < 32 := by
    cases f
    case scr n => simp only [encTr]; omega
    all_goals decide
  refine ⟨by simp only [fld_eq]; omega, ?_, h, by omega, by omega⟩
  rw [bit_eq, decide_eq_true_eq, fld_eq]
  omega

@[simp] theorem trOf_encTr (f : TrField) : trOf (encTr f) = f := by
  cases f
  case scr n =>
    have hn : BitVec.ofNat 4 (16 + n.toNat) = n := by
      apply BitVec.eq_of_toNat_eq
      rw [BitVec.toNat_ofNat]
      omega
    rw [encTr, trOf]
    · rw [hn]
    all_goals omega
  all_goals rfl

@[simp] theorem trRsv_encTr (f : TrField) : trRsv (encTr f) = false := by
  cases f
  case scr n =>
    rw [encTr, ← Bool.not_eq_true]
    intro h
    simp [trRsv] at h
    omega
  all_goals rfl

theorem exists_encTr {n : Nat} (h : trRsv n = false) : ∃ f, n = encTr f := by
  simp [trRsv] at h
  by_cases h12 : n < 12
  · refine ⟨trOf n, ?_⟩
    interval_cases n <;> rfl
  · obtain ⟨k, hk⟩ := exists_toNat (n := 4) (x := n - 16) (by omega)
    exact ⟨.scr k, by rw [encTr]; omega⟩

/-- The trap fields that are read as pairs. -/
theorem tr64_iff (f : TrField) : (((encTr f = 2 ∨ encTr f = 3) ∨ encTr f = 4) ∨ encTr f = 10) ↔ tr64 f = true := by
  cases f
  case scr n => simp [encTr, tr64]; omega
  all_goals decide

/-- A trap field that differs by lane needs a vector destination. -/
theorem perLane_iff (f : TrField) (d : Dst) : ((encTr f = 6 ∨ encTr f = 7) → dstS0 d = false) ↔
    (!(perLane f && dstS0 d)) = true := by
  have h : (encTr f = 6 ∨ encTr f = 7) ↔ perLane f = true := by
    cases f
    case scr n => simp [encTr, perLane]; omega
    all_goals decide
  rw [h]
  cases perLane f <;> simp

/-- `%lane` needs a vector destination. -/
theorem laneDst_iff (r : SpReg) (d : Dst) : (encSp r = 0 → dstS0 d = false) ↔ (!(r == .lane && dstS0 d)) = true := by
  cases r <;> simp [encSp]

/-- The special registers that are read as pairs. -/
theorem sp64_iff (r : SpReg) : (12 ≤ encSp r ∧ encSp r ≤ 18) ↔ sp64 r = true := by simp [sp64]
theorem ne_fqbase {r : SpReg} (h : sp64 r = false) : (r != .fqbase) = true := by
  cases r
  case fqbase => exact absurd h (by decide)
  all_goals rfl

/-- FN of `MTS` for a scratch register. -/
@[simp] theorem scr_fields (n : BitVec 4) : fld (80 + n.toNat) 0 6 = 16 + n.toNat ∧ bit (80 + n.toNat) 6 = true ∧
    BitVec.ofNat 4 (16 + n.toNat) = n ∧ 80 + n.toNat < 128 ∧ 80 + n.toNat < 2048 := by
  refine ⟨by simp only [fld_eq]; omega, ?_, ?_, by omega, by omega⟩
  · rw [bit_eq, decide_eq_true_eq, fld_eq]
    omega
  · apply BitVec.eq_of_toNat_eq
    rw [BitVec.toNat_ofNat]
    omega

theorem trRsv_of_tr64 {n : Nat} (h : ((n = 2 ∨ n = 3) ∨ n = 4) ∨ n = 10) : trRsv n = false := by
  obtain ((rfl | rfl) | rfl) | rfl := h <;> rfl

theorem exists_pair {x : Nat} (hs : isS x = true) (h2 : x % 2 = 0) : ∃ n : SReg, x = n.toNat ∧ pairOk n = true :=
  (exists_toNat ((isS_iff x).1 hs)).imp fun _ hn => ⟨hn, decide_eq_true (hn ▸ h2)⟩

/-- FN of seven bits, from its two parts. -/
theorem fn_of_parts {fn : Nat} {t : Bool} (hf : fn < 128) (ht : bit fn 6 = t) : fn = fld fn 0 6 + 64 * t.toNat := by
  rw [← ht, toNat_bit, fld_eq, fld_eq]
  omega

/-- FN of `MTS` for the writable special registers. -/
theorem mtsFn_fields : (bit 10 6 = false ∧ fld 10 0 6 = 10) ∧ (bit 11 6 = false ∧ fld 11 0 6 = 11) ∧
    (bit 16 6 = false ∧ fld 16 0 6 = 16) ∧ bit 18 6 = false ∧ fld 18 0 6 = 18 := by decide

theorem reads_far {i : Instr} (he : encRawFar i ≠ none) (w : operandsOk i = true) : Reads i := by
  cases i
  case rput h p ty win r off v =>
    exact reads_x rfl (by simp [decOp, decFabric, Raw.c, Raw.mod, ltyCodec.dec_enc]; exact w)
  case rget h p d ty win r off =>
    obtain ⟨hp, hv⟩ := Bool.and_eq_true_iff.1 w
    exact reads_of 1 0xC1 h 0 (encWs d) (encD d) (encO r) (encO off) (encLTy ty) (encRem 0 win p) rfl
      (by simp [decOp, decFabric, Raw.c, Raw.mod, ltyCodec.dec_enc, hp, hv])
  case rred h p op ty win r off v =>
    obtain ⟨hp, ht⟩ := Bool.and_eq_true_iff.1 w
    exact reads_x rfl (by simp [decOp, decFabric, Raw.c, Raw.mod, redCodec.dec_enc, atyCodec.dec_enc, hp]; exact (rred_iff op ty).2 ht)
  case mcst h d e win roff a n b =>
    obtain ⟨w, h4⟩ := Bool.and_eq_true_iff.1 w
    obtain ⟨w, hn⟩ := Bool.and_eq_true_iff.1 w
    obtain ⟨w, hb⟩ := Bool.and_eq_true_iff.1 w
    obtain ⟨hd, ha⟩ := Bool.and_eq_true_iff.1 w
    have hn := of_decide_eq_true hn
    have h4 := eq_of_beq h4
    exact reads_of 2 0xC3 h 0 (encWs d) (encD d) (encO a) (encO b) 0 (mcstX e win n roff) rfl
      (by simp [decOp, decFabric, hd, ha, hb, hn, h4])
  case coll h d f a b n =>
    obtain ⟨w, hf⟩ := Bool.and_eq_true_iff.1 w
    obtain ⟨w, hn⟩ := Bool.and_eq_true_iff.1 w
    obtain ⟨w, hb⟩ := Bool.and_eq_true_iff.1 w
    obtain ⟨hd, ha⟩ := Bool.and_eq_true_iff.1 w
    exact reads_x rfl (by
      simp [decOp, decFabric, collCodec.dec_enc, collTyCodec.dec_enc, redCodec.dec_enc, hd, ha, hb, hn]
      simpa [collCodec.enc_lt] using (collOk_iff f).2 hf)
  case tsend h f thr r roff src =>
    obtain ⟨w, hn⟩ := Bool.and_eq_true_iff.1 w
    obtain ⟨w, hs⟩ := Bool.and_eq_true_iff.1 w
    obtain ⟨w, ho⟩ := Bool.and_eq_true_iff.1 w
    obtain ⟨ht, hr⟩ := Bool.and_eq_true_iff.1 w
    have hn := toNat_ne_zero hn
    exact reads_x rfl (by simp [decOp, decFabric, ht, hr, ho, hs, hn])
  case ctset h n add v => exact reads_n rfl (by simp [decOp, decFabric]; exact w)
  case ctsetImm h n add v => exact reads_x rfl (by simp [decOp, decFabric])
  case ctrd h d sel n =>
    obtain ⟨hd, hn⟩ := Bool.and_eq_true_iff.1 w
    exact reads_d rfl (by simp [decOp, decFabric, cselCodec.dec_enc, hd]; exact (ctrd_iff n sel).2 hn)
  case ctwait h n t => exact reads_n rfl (by simp [decOp, decFabric]; exact w)
  case gsetFull h e p q m =>
    obtain ⟨w, hq⟩ := Bool.and_eq_true_iff.1 w
    obtain ⟨he, hp⟩ := Bool.and_eq_true_iff.1 w
    exact reads_x rfl (by simp [decOp, decFabric, he, hp, hq])
  case gsetSeq h e q =>
    obtain ⟨he, hq⟩ := Bool.and_eq_true_iff.1 w
    exact reads_x rfl (by simp [decOp, decFabric, he, hq])
  case gsetClear h e => exact reads_x rfl (by simp [decOp, decFabric]; exact w)
  case gqry h d sel e k =>
    obtain ⟨w, hk⟩ := Bool.and_eq_true_iff.1 w
    obtain ⟨hd, he⟩ := Bool.and_eq_true_iff.1 w
    exact reads_dab rfl (by simp [decOp, decFabric, gselCodec.dec_enc, hd, he, hk])
  case prnew h d pool cap m =>
    obtain ⟨hdp, hc⟩ := Bool.and_eq_true_iff.1 w
    obtain ⟨hd, hp⟩ := Bool.and_eq_true_iff.1 hdp
    exact reads_of 2 0xD0 h 0 (encWs d) (encD d) pool.toNat (encO cap) 0 m.toNat rfl
      (by simp [decOp, decPraline, hd, hp, hc])
  case prdesc h d t k => exact reads_n rfl (by simp [decOp, decPraline]; exact w)
  case prexp h p t leaf n vp =>
    obtain ⟨w, hn⟩ := Bool.and_eq_true_iff.1 w
    obtain ⟨hp, hl⟩ := Bool.and_eq_true_iff.1 w
    exact reads_x rfl (by simp [decOp, decPraline, Raw.c, Raw.mod, hp, hl, hn])
  case prback h t vl vv => exact reads_x rfl (by simp [decOp, decPraline, Raw.c, Raw.mod])
  case prroot h p t c =>
    obtain ⟨hp, hc⟩ := Bool.and_eq_true_iff.1 w
    exact reads_n rfl (by simp [decOp, decPraline, hp, hc])
  case prbest h d t => exact reads_of 0 0xD5 h 0 (encWs d) (encD d) t.toNat 0 0 0 rfl (by simp [decOp, decPraline]; exact w)
  case prqry h d f =>
    cases f with
    | node sel t n =>
      exact reads_of 0 0xD6 h 0 (encWs d) (encD d) t.toNat (encO n) (encPSel sel) 0 rfl
        (by simp [decOp, decPraline, pselCodec.dec_enc]; exact w)
    | root t => exact reads_of 0 0xD6 h 0 (encWs d) (encD d) t.toNat 0 11 0 rfl (by simp [decOp, decPraline])
    | count t => exact reads_of 0 0xD6 h 0 (encWs d) (encD d) t.toNat 0 12 0 rfl (by simp [decOp, decPraline])
    | free t => exact reads_of 0 0xD6 h 0 (encWs d) (encD d) t.toNat 0 13 0 rfl (by simp [decOp, decPraline])
    | cap t => exact reads_of 0 0xD6 h 0 (encWs d) (encD d) t.toNat 0 14 0 rfl (by simp [decOp, decPraline])
    | stat => exact reads_of 0 0xD6 h 0 (encWs d) (encD d) 0 0 15 0 rfl (by simp [decOp, decPraline])
  case prfree h t => exact reads_n rfl (by simp [decOp, decPraline])
  case scall h d code a => exact reads_n rfl (by simp [decOp, decSystem]; omega) (by omega)
  case rft h => exact reads_n rfl (by simp [decOp, decSystem])
  case rftNext h => exact reads_n rfl (by simp [decOp, decSystem])
  case rftTo h a => exact reads_n rfl (by simp [decOp, decSystem]; exact of_decide_eq_true w)
  case rftRep h a => exact reads_n rfl (by simp [decOp, decSystem])
  case mfs h f =>
    cases f with
    | sp r d =>
      obtain ⟨w, hl⟩ := Bool.and_eq_true_iff.1 w
      obtain ⟨h64, hf⟩ := Bool.and_eq_true_iff.1 w
      have h64 : ¬ (12 ≤ encSp r ∧ encSp r ≤ 18) := by rw [sp64_iff]; simpa using h64
      exact reads_d rfl (by simp [decOp, decSystem, h64, spCodec.dec_enc]; exact (laneDst_iff r d).2 hl)
    | sp64 r d =>
      obtain ⟨h64, hd⟩ := Bool.and_eq_true_iff.1 w
      exact reads_n rfl (by simp [decOp, decSystem, (sp64_iff r).2 h64, hd, spCodec.dec_enc])
    | tr f d =>
      obtain ⟨h64, hl⟩ := Bool.and_eq_true_iff.1 w
      have h64 : tr64 f = false := by simpa using h64
      have hf := (encTr_fields f).2.2.1
      exact reads_d rfl (by simp [decOp, decSystem, tr64_iff, h64]; exact ⟨by omega, (perLane_iff f d).2 hl⟩)
    | tr64 f d =>
      obtain ⟨h64, hd⟩ := Bool.and_eq_true_iff.1 w
      have hf := (encTr_fields f).2.2.1
      exact reads_n rfl (by simp [decOp, decSystem, tr64_iff, h64, hd]; omega)
  case mts h f =>
    cases f with
    | fmt a => exact reads_n (fn := 10) rfl (by simp [decOp, decSystem, mtsFn_fields]; exact w)
    | flg a => exact reads_n (fn := 11) rfl (by simp [decOp, decSystem, mtsFn_fields]; exact w)
    | hbase a => exact reads_n (fn := 16) rfl (by simp [decOp, decSystem, mtsFn_fields]; exact of_decide_eq_true w)
    | fqbase a => exact reads_n (fn := 18) rfl (by simp [decOp, decSystem, mtsFn_fields]; exact of_decide_eq_true w)
    | scr n a => exact reads_n (fn := 80 + n.toNat) rfl (by simp [decOp, decSystem]; exact ⟨by omega, w⟩)
  case rdclk h d => exact reads_n rfl (by simp [decOp, decSystem]; exact w)
  case rdtim h d => exact reads_n rfl (by simp [decOp, decSystem]; exact w)
  case settim h b => exact reads_n rfl (by simp [decOp, decSystem]; exact w)
  case settimImm h x => exact reads_x rfl (by simp [decOp, decSystem])
  case vinv h x =>
    cases x with
    | page a => exact reads_n rfl (by simp [decOp, decSystem]; exact w)
    | ctx => exact reads_n rfl (by simp [decOp, decSystem])
    | dev => exact reads_n rfl (by simp [decOp, decSystem])
  case quiesOld h d => exact reads_n rfl (by simp [decOp, decSystem, bit]; exact w)
  case quiesCur h d => exact reads_n rfl (by simp [decOp, decSystem, bit]; exact w)
  case fltq h d => exact reads_n rfl (by simp [decOp, decSystem])
  case ctxswSave h d a =>
    obtain ⟨hd, ha⟩ := Bool.and_eq_true_iff.1 w
    exact reads_da rfl (by simp [decOp, decSystem, hd, ha])
  case ctxswRest h d a =>
    obtain ⟨hd, ha⟩ := Bool.and_eq_true_iff.1 w
    exact reads_da rfl (by simp [decOp, decSystem, hd, ha])
  case ctxswQry h d a =>
    obtain ⟨hd, ha⟩ := Bool.and_eq_true_iff.1 w
    exact reads_da rfl (by simp [decOp, decSystem, hd, ha])
  all_goals exact absurd rfl he

theorem exists_fabric {len op : Nat} {h : Hdr} {ac ws d a b fn hi : Nat} (hs : FieldsOk len op h ac ws d a b fn hi)
    (h16 : 0xC0 ≤ op ∧ op ≤ 0xCA) (hq : (decFabric (rF len op h ac ws d a b fn hi)).1 = 0) :
    ∃ i, encRaw i = some (rF len op h ac ws d a b fn hi) ∧ operandsOk i = true := by
  obtain rfl | rfl | rfl | rfl | rfl | rfl | rfl | rfl | rfl | rfl | rfl :
    op = 0xC0 ∨ op = 0xC1 ∨ op = 0xC2 ∨ op = 0xC3 ∨ op = 0xC4 ∨ op = 0xC5 ∨ op = 0xC6 ∨ op = 0xC7 ∨ op = 0xC8 ∨
      op = 0xC9 ∨ op = 0xCA := by omega
  · obtain rfl := hs.noAC rfl rfl
    obtain ⟨rfl, hi'⟩ := hs.long rfl rfl
    obtain ⟨C, m, rfl, hC, hm⟩ := exists_c_mod hi'
    simp [decFabric, Raw.c, Raw.mod, fld_c hC, fld_mod hC hm, hs.causes, and_assoc, hC] at hq
    obtain ⟨rfl, rfl, ⟨A, rfl⟩, ⟨B, rfl⟩, ⟨C, rfl⟩, hpp, h20, hf⟩ := hq
    obtain ⟨win, p, rfl, hp⟩ := exists_rem hm h20 hpp
    obtain ⟨ty, rfl⟩ := ltyCodec.exists_enc hf
    exact ⟨.rput h p ty win A B C, rfl, hp⟩
  · obtain rfl := hs.noAC rfl rfl
    obtain ⟨rfl, hi'⟩ := hs.long rfl rfl
    obtain ⟨C, m, rfl, hC, hm⟩ := exists_c_mod hi'
    simp [decFabric, Raw.c, Raw.mod, fld_c hC, fld_mod hC hm, hs.causes, and_assoc] at hq
    obtain ⟨⟨D, rfl, rfl⟩, ⟨A, rfl⟩, ⟨B, rfl⟩, hv, rfl, hpp, h20, hf⟩ := hq
    obtain ⟨win, p, rfl, hp⟩ := exists_rem hm h20 hpp
    obtain ⟨ty, rfl⟩ := ltyCodec.exists_enc hf
    exact ⟨.rget h p D ty win A B, rfl, Bool.and_eq_true_iff.2 ⟨hp, (qVS_two D A B).1 hv⟩⟩
  · obtain rfl := hs.noAC rfl rfl
    obtain ⟨rfl, hi'⟩ := hs.long rfl rfl
    obtain ⟨C, m, rfl, hC, hm⟩ := exists_c_mod hi'
    simp [decFabric, Raw.c, Raw.mod, fld_c hC, fld_mod hC hm, hs.causes, and_assoc, hC] at hq
    obtain ⟨rfl, rfl, ⟨A, rfl⟩, ⟨B, rfl⟩, ⟨C, rfl⟩, hpp, h20, h6, h3, hf, ht⟩ := hq
    obtain ⟨win, p, rfl, hp⟩ := exists_rem hm h20 hpp
    obtain ⟨op, ty, rfl⟩ := exists_rred hf h6 h3
    rw [(rred_fields op ty).1, (rred_fields op ty).2.1] at ht
    exact ⟨.rred h p op ty win A B C, rfl, Bool.and_eq_true_iff.2 ⟨hp, (rred_iff op ty).1 ht⟩⟩
  · obtain rfl := hs.noAC rfl rfl
    obtain ⟨rfl, hi'⟩ := hs.ext rfl rfl
    simp [decFabric, hs.causes, and_assoc] at hq
    obtain ⟨⟨D, rfl, rfl, hD⟩, ⟨A, rfl, hA⟩, ⟨B, rfl, hB⟩, rfl, h4, h4096, hmod, h63⟩ := hq
    obtain ⟨e, win, n, roff, rfl, hn⟩ := exists_mcstX hi' h63
    rw [hn] at h4 h4096 hmod
    exact ⟨.mcst h D e win roff A n B, rfl, Bool.and_eq_true_iff.2 ⟨Bool.and_eq_true_iff.2 ⟨Bool.and_eq_true_iff.2 ⟨Bool.and_eq_true_iff.2 ⟨hD, hA⟩, hB⟩, decide_eq_true ⟨h4, h4096⟩⟩, beq_iff_eq.2 hmod⟩⟩
  · obtain rfl := hs.noAC rfl rfl
    obtain ⟨rfl, hi'⟩ := hs.ext rfl rfl
    simp [decFabric, hs.causes, and_assoc] at hq
    obtain ⟨rfl, ⟨D, rfl, hD⟩, ⟨A, rfl, hA⟩, ⟨B, rfl, hB⟩, hn, h6, hr, hf, hok⟩ := hq
    obtain ⟨n, hn, hn'⟩ := (qSI_iff (fld_lt hi 0 11)).1 hn
    obtain ⟨f, rfl, rfl⟩ := exists_coll hf hi' h6 hr hok.2.1 hn
    simp at hok
    exact ⟨.coll h D f A B n, rfl, Bool.and_eq_true_iff.2 ⟨Bool.and_eq_true_iff.2 ⟨Bool.and_eq_true_iff.2 ⟨Bool.and_eq_true_iff.2 ⟨hD, hA⟩, hB⟩, hn'⟩, (collOk_iff f).1 (by simpa [and_assoc] using hok)⟩⟩
  · obtain rfl := hs.noAC rfl rfl
    obtain ⟨rfl, hi'⟩ := hs.ext rfl rfl
    simp [decFabric, hs.causes, and_assoc] at hq
    obtain ⟨rfl, ⟨D, rfl, hD⟩, ⟨A, rfl, hA⟩, ⟨B, rfl, hB⟩, ht, hf, h4, h0⟩ := hq
    obtain ⟨t, ht, ht'⟩ := (qSI_iff (fld_lt hi 0 11)).1 ht
    obtain ⟨f, rfl, rfl, hn⟩ := exists_tsend hf hi' h0 ht
    rw [hn] at h4
    exact ⟨.tsend h f t B D A, rfl, Bool.and_eq_true_iff.2 ⟨Bool.and_eq_true_iff.2 ⟨Bool.and_eq_true_iff.2 ⟨Bool.and_eq_true_iff.2 ⟨ht', hB⟩, hD⟩, hA⟩, ne_zero_of_toNat h4⟩⟩
  · obtain rfl := hs.noAC rfl rfl
    obtain ⟨rfl, rfl⟩ := hs.short rfl rfl
    simp [decFabric, hs.causes, and_assoc] at hq
    obtain ⟨⟨D, rfl, rfl, hD⟩, rfl, rfl, hf, hn⟩ := hq
    obtain ⟨n, sel, rfl, h1, h2⟩ := exists_ctrd hf
    rw [h1, h2] at hn
    exact ⟨.ctrd h D sel n, rfl, Bool.and_eq_true_iff.2 ⟨hD, (ctrd_iff n sel).1 hn⟩⟩
  · obtain rfl := hs.noAC rfl rfl
    obtain ⟨rfl, rfl⟩ | ⟨rfl, hi'⟩ := hs.either rfl rfl
    · simp [decFabric, hs.causes, and_assoc] at hq
      obtain ⟨rfl, rfl, rfl, hf, ⟨B, rfl, hB⟩⟩ := hq
      obtain ⟨n, add, rfl⟩ := exists_ctset hf
      exact ⟨.ctset h n add B, rfl, hB⟩
    · simp [decFabric, hs.causes, and_assoc] at hq
      obtain ⟨rfl, rfl, rfl, hf, rfl⟩ := hq
      obtain ⟨n, add, rfl⟩ := exists_ctset hf
      obtain ⟨x, rfl⟩ := exists_toNat hi'
      exact ⟨.ctsetImm h n add x, rfl, rfl⟩
  · obtain rfl := hs.noAC rfl rfl
    obtain ⟨rfl, rfl⟩ := hs.short rfl rfl
    simp [decFabric, hs.causes, and_assoc] at hq
    obtain ⟨rfl, rfl, ⟨A, rfl, hA⟩, rfl, hf⟩ := hq
    obtain ⟨n, rfl⟩ := exists_toNat (n := 6) hf
    exact ⟨.ctwait h n A, rfl, hA⟩
  · obtain rfl := hs.noAC rfl rfl
    obtain ⟨rfl, hi'⟩ := hs.ext rfl rfl
    obtain rfl | rfl | rfl | h3 : fn = 0 ∨ fn = 1 ∨ fn = 2 ∨ 3 ≤ fn := by omega
    · simp [decFabric, hs.causes, and_assoc] at hq
      obtain ⟨rfl, ⟨D, rfl, hD⟩, h0, ⟨A, rfl, hA⟩, ⟨B, rfl, hB⟩⟩ := hq
      obtain ⟨m, rfl⟩ := exists_gset hi' h0
      exact ⟨.gsetFull h D A B m, rfl, Bool.and_eq_true_iff.2 ⟨Bool.and_eq_true_iff.2 ⟨hD, hA⟩, hB⟩⟩
    · simp [decFabric, hs.causes, and_assoc] at hq
      obtain ⟨rfl, ⟨D, rfl, hD⟩, -, rfl, ⟨B, rfl, hB⟩, rfl⟩ := hq
      exact ⟨.gsetSeq h D B, rfl, Bool.and_eq_true_iff.2 ⟨hD, hB⟩⟩
    · simp [decFabric, hs.causes, and_assoc] at hq
      obtain ⟨rfl, ⟨D, rfl, hD⟩, -, rfl, rfl, rfl⟩ := hq
      exact ⟨.gsetClear h D, rfl, hD⟩
    · simp [decFabric, show fn ≠ 0 by omega, show fn ≠ 1 by omega] at hq
      omega
  · obtain rfl := hs.noAC rfl rfl
    obtain ⟨rfl, rfl⟩ := hs.short rfl rfl
    simp [decFabric, hs.causes, and_assoc] at hq
    obtain ⟨⟨D, rfl, rfl, hD⟩, ⟨A, rfl, hA⟩, ⟨B, rfl, hB⟩, hf⟩ := hq
    obtain ⟨sel, rfl⟩ := gselCodec.exists_enc hf
    exact ⟨.gqry h D sel A B, rfl, Bool.and_eq_true_iff.2 ⟨Bool.and_eq_true_iff.2 ⟨hD, hA⟩, hB⟩⟩

theorem exists_praline {len op : Nat} {h : Hdr} {ac ws d a b fn hi : Nat} (hs : FieldsOk len op h ac ws d a b fn hi)
    (h16 : 0xD0 ≤ op ∧ op ≤ 0xD7) (hq : (decPraline (rF len op h ac ws d a b fn hi)).1 = 0) :
    ∃ i, encRaw i = some (rF len op h ac ws d a b fn hi) ∧ operandsOk i = true := by
  obtain rfl | rfl | rfl | rfl | rfl | rfl | rfl | rfl :
    op = 0xD0 ∨ op = 0xD1 ∨ op = 0xD2 ∨ op = 0xD3 ∨ op = 0xD4 ∨ op = 0xD5 ∨ op = 0xD6 ∨ op = 0xD7 := by omega
  · obtain rfl := hs.noAC rfl rfl
    obtain ⟨rfl, hi'⟩ := hs.ext rfl rfl
    simp [decPraline, hs.causes, and_assoc] at hq
    obtain ⟨rfl, ⟨D, rfl⟩, ⟨A, rfl, hA⟩, ⟨B, rfl, hB⟩, rfl, ⟨m, hm⟩, h0⟩ := hq
    obtain rfl := prnewX_eq hi' hm h0
    exact ⟨.prnew h (.s D) A B m, rfl, Bool.and_eq_true_iff.2 ⟨Bool.and_eq_true_iff.2 ⟨rfl, hA⟩, hB⟩⟩
  · obtain rfl := hs.noAC rfl rfl
    obtain ⟨rfl, rfl⟩ := hs.short rfl rfl
    simp [decPraline, hs.causes, and_assoc] at hq
    obtain ⟨rfl, ⟨D, rfl⟩, ⟨A, rfl⟩, ⟨B, rfl, hB⟩, rfl⟩ := hq
    exact ⟨.prdesc h D A B, rfl, hB⟩
  · obtain rfl := hs.noAC rfl rfl
    obtain ⟨rfl, hi'⟩ := hs.long rfl rfl
    obtain ⟨C, m, rfl, hC, hm⟩ := exists_c_mod hi'
    simp [decPraline, Raw.c, Raw.mod, fld_c hC, fld_mod hC hm, hs.causes, and_assoc] at hq
    obtain ⟨rfl, ⟨p, rfl, hp⟩, ⟨A, rfl⟩, ⟨B, rfl, hB⟩, rfl, ⟨C, rfl⟩, hn, hm2⟩ := hq
    rw [fld_all (n := 11) hm2] at hn
    obtain ⟨n, rfl, hn'⟩ := (qSI_iff (x := m) hm2).1 hn
    exact ⟨.prexp h p A B n C, rfl, Bool.and_eq_true_iff.2 ⟨Bool.and_eq_true_iff.2 ⟨hp, hB⟩, hn'⟩⟩
  · obtain rfl := hs.noAC rfl rfl
    obtain ⟨rfl, hi'⟩ := hs.long rfl rfl
    obtain ⟨C, m, rfl, hC, hm⟩ := exists_c_mod hi'
    simp [decPraline, Raw.c, Raw.mod, fld_c hC, fld_mod hC hm, hs.causes, and_assoc] at hq
    obtain ⟨rfl, rfl, ⟨A, rfl⟩, ⟨B, rfl⟩, ⟨C, rfl⟩, rfl, rfl⟩ := hq
    exact ⟨.prback h A B C, rfl, rfl⟩
  · obtain rfl := hs.noAC rfl rfl
    obtain ⟨rfl, rfl⟩ := hs.short rfl rfl
    simp [decPraline, hs.causes, and_assoc] at hq
    obtain ⟨rfl, ⟨p, rfl, hp⟩, ⟨A, rfl⟩, ⟨B, rfl, hB⟩, rfl⟩ := hq
    exact ⟨.prroot h p A B, rfl, Bool.and_eq_true_iff.2 ⟨hp, hB⟩⟩
  · obtain rfl := hs.noAC rfl rfl
    obtain ⟨rfl, rfl⟩ := hs.short rfl rfl
    simp [decPraline, hs.causes, and_assoc] at hq
    obtain ⟨rfl, ⟨D, rfl⟩, ⟨A, rfl⟩, rfl, rfl⟩ := hq
    exact ⟨.prbest h (.s D) A, rfl, rfl⟩
  · obtain rfl := hs.noAC rfl rfl
    obtain ⟨rfl, rfl⟩ := hs.short rfl rfl
    obtain h11 | rfl | rfl | rfl | rfl | h15 : fn < 11 ∨ fn = 11 ∨ fn = 12 ∨ fn = 13 ∨ fn = 14 ∨ 15 ≤ fn := by omega
    · simp [decPraline, hs.causes, and_assoc, h11] at hq
      obtain ⟨⟨D, rfl, rfl⟩, -, ⟨A, rfl⟩, ⟨B, rfl⟩, hv⟩ := hq
      obtain ⟨sel, rfl⟩ := pselCodec.exists_enc h11
      exact ⟨.prqry h D (.node sel A B), rfl, (qVS_one D B).1 hv⟩
    · simp [decPraline, hs.causes, and_assoc] at hq
      obtain ⟨⟨D, rfl, rfl⟩, ⟨A, rfl⟩, rfl⟩ := hq
      exact ⟨.prqry h D (.root A), rfl, rfl⟩
    · simp [decPraline, hs.causes, and_assoc] at hq
      obtain ⟨⟨D, rfl, rfl⟩, ⟨A, rfl⟩, rfl⟩ := hq
      exact ⟨.prqry h D (.count A), rfl, rfl⟩
    · simp [decPraline, hs.causes, and_assoc] at hq
      obtain ⟨⟨D, rfl, rfl⟩, ⟨A, rfl⟩, rfl⟩ := hq
      exact ⟨.prqry h D (.free A), rfl, rfl⟩
    · simp [decPraline, hs.causes, and_assoc] at hq
      obtain ⟨⟨D, rfl, rfl⟩, ⟨A, rfl⟩, rfl⟩ := hq
      exact ⟨.prqry h D (.cap A), rfl, rfl⟩
    · simp [decPraline, hs.causes, and_assoc, show ¬ fn < 11 by omega, show fn ≠ 11 by omega, show fn ≠ 12 by omega, show fn ≠ 13 by omega,
        show fn ≠ 14 by omega] at hq
      obtain ⟨⟨D, rfl, rfl⟩, h16, rfl, rfl⟩ := hq
      obtain rfl : fn = 15 := by omega
      exact ⟨.prqry h D .stat, rfl, rfl⟩
  · obtain rfl := hs.noAC rfl rfl
    obtain ⟨rfl, rfl⟩ := hs.short rfl rfl
    simp [decPraline, hs.causes, and_assoc] at hq
    obtain ⟨rfl, rfl, ⟨A, rfl⟩, rfl, rfl⟩ := hq
    exact ⟨.prfree h A, rfl, rfl⟩

theorem exists_system {len op : Nat} {h : Hdr} {ac ws d a b fn hi : Nat} (hs : FieldsOk len op h ac ws d a b fn hi)
    (h16 : 0xE0 ≤ op ∧ op ≤ 0xEA) (hq : (decSystem (rF len op h ac ws d a b fn hi)).1 = 0) :
    ∃ i, encRaw i = some (rF len op h ac ws d a b fn hi) ∧ operandsOk i = true := by
  obtain rfl | rfl | rfl | rfl | rfl | rfl | rfl | rfl | rfl | rfl | rfl :
    op = 0xE0 ∨ op = 0xE1 ∨ op = 0xE2 ∨ op = 0xE3 ∨ op = 0xE4 ∨ op = 0xE5 ∨ op = 0xE6 ∨ op = 0xE7 ∨ op = 0xE8 ∨
      op = 0xE9 ∨ op = 0xEA := by omega
  · obtain rfl := hs.noAC rfl rfl
    obtain ⟨rfl, rfl⟩ := hs.short rfl rfl
    simp [decSystem, hs.causes, and_assoc] at hq
    obtain ⟨rfl, ⟨D, rfl⟩, ⟨A, rfl⟩, rfl, hf⟩ := hq
    obtain ⟨code, rfl⟩ := exists_toNat (n := 8) hf
    exact ⟨.scall h D code A, rfl, rfl⟩
  · obtain rfl := hs.noAC rfl rfl
    obtain ⟨rfl, rfl⟩ := hs.short rfl rfl
    obtain rfl | rfl | rfl | rfl | h4 : fn = 0 ∨ fn = 1 ∨ fn = 2 ∨ fn = 3 ∨ 4 ≤ fn := by omega
    · simp [decSystem, hs.causes, and_assoc] at hq
      obtain ⟨rfl, rfl, rfl, rfl⟩ := hq
      exact ⟨.rft h, rfl, rfl⟩
    · simp [decSystem, hs.causes, and_assoc] at hq
      obtain ⟨rfl, rfl, rfl, rfl⟩ := hq
      exact ⟨.rftNext h, rfl, rfl⟩
    · simp [decSystem, hs.causes, and_assoc] at hq
      obtain ⟨rfl, rfl, rfl, hS, h2⟩ := hq
      obtain ⟨n, rfl, hn⟩ := exists_pair hS h2
      exact ⟨.rftTo h n, rfl, hn⟩
    · simp [decSystem, hs.causes, and_assoc] at hq
      obtain ⟨rfl, rfl, rfl, ⟨A, rfl⟩⟩ := hq
      exact ⟨.rftRep h A, rfl, rfl⟩
    · simp [decSystem, show fn ≠ 0 by omega, show fn ≠ 1 by omega, show fn ≠ 2 by omega, h4] at hq
  · obtain rfl := hs.noAC rfl rfl
    obtain ⟨rfl, rfl⟩ := hs.short rfl rfl
    cases h6 : bit fn 6
    · by_cases h64 : 12 ≤ fld fn 0 6 ∧ fld fn 0 6 ≤ 18
      · simp [decSystem, hs.causes, and_assoc, h6, h64] at hq
        obtain ⟨rfl, rfl, hf, rfl, ⟨D, rfl, hD⟩⟩ := hq
        obtain ⟨r, hr⟩ := spCodec.exists_enc (k := fld fn 0 6) (by omega)
        obtain rfl : fn = encSp r := by rw [← hr]; exact fn_of_parts hf h6
        rw [hr, sp64_iff] at h64
        exact ⟨.mfs h (.sp64 r D), rfl, Bool.and_eq_true_iff.2 ⟨h64, hD⟩⟩
      · simp [decSystem, hs.causes, and_assoc, h6, h64] at hq
        obtain ⟨rfl, rfl, hf, ⟨D, rfl, rfl⟩, h19, hl⟩ := hq
        obtain ⟨r, hr⟩ := spCodec.exists_enc h19
        obtain rfl : fn = encSp r := by rw [← hr]; exact fn_of_parts hf h6
        rw [hr, sp64_iff, Bool.not_eq_true] at h64
        rw [hr, isS_encD] at hl
        exact ⟨.mfs h (.sp r D), rfl, Bool.and_eq_true_iff.2 ⟨Bool.and_eq_true_iff.2 ⟨by rw [h64]; rfl, ne_fqbase h64⟩, (laneDst_iff r D).1 hl⟩⟩
    · by_cases h64 : ((fld fn 0 6 = 2 ∨ fld fn 0 6 = 3) ∨ fld fn 0 6 = 4) ∨ fld fn 0 6 = 10
      · simp [decSystem, hs.causes, and_assoc, h6, h64] at hq
        obtain ⟨rfl, rfl, hf, rfl, ⟨D, rfl, hD⟩⟩ := hq
        obtain ⟨f, hr⟩ := exists_encTr (n := fld fn 0 6) (trRsv_of_tr64 h64)
        obtain rfl : fn = encTr f + 64 := by rw [← hr]; exact fn_of_parts hf h6
        rw [hr, tr64_iff] at h64
        exact ⟨.mfs h (.tr64 f D), rfl, Bool.and_eq_true_iff.2 ⟨h64, hD⟩⟩
      · simp [decSystem, hs.causes, and_assoc, h6, h64] at hq
        obtain ⟨rfl, rfl, hf, ⟨D, rfl, rfl⟩, hrsv, hl⟩ := hq
        obtain ⟨f, hr⟩ := exists_encTr hrsv
        obtain rfl : fn = encTr f + 64 := by rw [← hr]; exact fn_of_parts hf h6
        rw [hr, tr64_iff, Bool.not_eq_true] at h64
        rw [hr, isS_encD] at hl
        exact ⟨.mfs h (.tr f D), rfl, Bool.and_eq_true_iff.2 ⟨by rw [h64]; rfl, (perLane_iff f D).1 hl⟩⟩
  · obtain rfl := hs.noAC rfl rfl
    obtain ⟨rfl, rfl⟩ := hs.short rfl rfl
    cases h6 : bit fn 6
    · obtain hn | hn | hn | hn | ⟨h1, h2, h3, h4⟩ : fld fn 0 6 = 10 ∨ fld fn 0 6 = 11 ∨ fld fn 0 6 = 16 ∨ fld fn 0 6 = 18 ∨
          (fld fn 0 6 ≠ 10 ∧ fld fn 0 6 ≠ 11 ∧ fld fn 0 6 ≠ 16 ∧ fld fn 0 6 ≠ 18) := by omega
      · simp [decSystem, hs.causes, and_assoc, h6, hn] at hq
        obtain ⟨rfl, rfl, rfl, hf, ⟨A, rfl, hA⟩⟩ := hq
        obtain rfl : fn = 10 := (fn_of_parts hf h6).trans (by rw [hn]; rfl)
        exact ⟨.mts h (.fmt A), rfl, hA⟩
      · simp [decSystem, hs.causes, and_assoc, h6, hn] at hq
        obtain ⟨rfl, rfl, rfl, hf, ⟨A, rfl, hA⟩⟩ := hq
        obtain rfl : fn = 11 := (fn_of_parts hf h6).trans (by rw [hn]; rfl)
        exact ⟨.mts h (.flg A), rfl, hA⟩
      · simp [decSystem, hs.causes, and_assoc, h6, hn] at hq
        obtain ⟨rfl, rfl, rfl, hf, hr, hv, hp⟩ := hq
        obtain ⟨A, rfl, hA⟩ := exists_pair (hp hv hr).1 (hp hv hr).2
        obtain rfl : fn = 16 := (fn_of_parts hf h6).trans (by rw [hn]; rfl)
        exact ⟨.mts h (.hbase A), rfl, hA⟩
      · simp [decSystem, hs.causes, and_assoc, h6, hn] at hq
        obtain ⟨rfl, rfl, rfl, hf, hr, hv, hp⟩ := hq
        obtain ⟨A, rfl, hA⟩ := exists_pair (hp hv hr).1 (hp hv hr).2
        obtain rfl : fn = 18 := (fn_of_parts hf h6).trans (by rw [hn]; rfl)
        exact ⟨.mts h (.fqbase A), rfl, hA⟩
      · simp [decSystem, h6, h1, h2, h3, h4] at hq
    · simp [decSystem, hs.causes, and_assoc, h6] at hq
      obtain ⟨rfl, rfl, rfl, hf, h16, h32, ⟨A, rfl, hA⟩⟩ := hq
      obtain ⟨n, hn⟩ := exists_toNat (n := 4) (x := fld fn 0 6 - 16) (by omega)
      obtain rfl : fn = 64 + 16 + n.toNat := (fn_of_parts hf h6).trans (by rw [Bool.toNat_true]; omega)
      exact ⟨.mts h (.scr n A), rfl, hA⟩
  · obtain rfl := hs.noAC rfl rfl
    obtain ⟨rfl, rfl⟩ := hs.short rfl rfl
    simp [decSystem, hs.causes, and_assoc] at hq
    obtain ⟨rfl, ⟨D, rfl, hD⟩, rfl, rfl, rfl⟩ := hq
    exact ⟨.rdclk h D, rfl, hD⟩
  · obtain rfl := hs.noAC rfl rfl
    obtain ⟨rfl, rfl⟩ := hs.short rfl rfl
    simp [decSystem, hs.causes, and_assoc] at hq
    obtain ⟨rfl, ⟨D, rfl, hD⟩, rfl, rfl, rfl⟩ := hq
    exact ⟨.rdtim h D, rfl, hD⟩
  · obtain rfl := hs.noAC rfl rfl
    obtain ⟨rfl, rfl⟩ | ⟨rfl, hi'⟩ := hs.either rfl rfl
    · simp [decSystem, hs.causes, and_assoc] at hq
      obtain ⟨rfl, rfl, rfl, ⟨B, rfl, hB⟩, rfl⟩ := hq
      exact ⟨.settim h B, rfl, hB⟩
    · simp [decSystem, hs.causes, and_assoc] at hq
      obtain ⟨rfl, rfl, rfl, rfl, rfl⟩ := hq
      obtain ⟨x, rfl⟩ := exists_toNat hi'
      exact ⟨.settimImm h x, rfl, rfl⟩
  · obtain rfl := hs.noAC rfl rfl
    obtain ⟨rfl, rfl⟩ := hs.short rfl rfl
    obtain rfl | rfl | rfl | h3 : fn = 0 ∨ fn = 1 ∨ fn = 2 ∨ 3 ≤ fn := by omega
    · simp [decSystem, hs.causes, and_assoc] at hq
      obtain ⟨rfl, rfl, rfl, ⟨A, rfl, hA⟩⟩ := hq
      exact ⟨.vinv h (.page A), rfl, hA⟩
    · simp [decSystem, hs.causes, and_assoc] at hq
      obtain ⟨rfl, rfl, rfl, rfl⟩ := hq
      exact ⟨.vinv h .ctx, rfl, rfl⟩
    · simp [decSystem, hs.causes, and_assoc] at hq
      obtain ⟨rfl, rfl, rfl, rfl⟩ := hq
      exact ⟨.vinv h .dev, rfl, rfl⟩
    · simp [decSystem, show fn ≠ 0 by omega, show fn ≠ 1 by omega, h3] at hq
  · obtain rfl := hs.noAC rfl rfl
    obtain ⟨rfl, rfl⟩ := hs.short rfl rfl
    obtain rfl | rfl | h2 : fn = 0 ∨ fn = 1 ∨ 2 ≤ fn := by omega
    · simp [decSystem, hs.causes, and_assoc] at hq
      obtain ⟨rfl, ⟨D, rfl, hD⟩, rfl, rfl⟩ := hq
      exact ⟨.quiesOld h D, rfl, hD⟩
    · simp [decSystem, hs.causes, and_assoc] at hq
      obtain ⟨rfl, ⟨D, rfl, hD⟩, rfl, rfl⟩ := hq
      exact ⟨.quiesCur h D, rfl, hD⟩
    · simp [decSystem, h2] at hq
  · obtain rfl := hs.noAC rfl rfl
    obtain ⟨rfl, rfl⟩ := hs.short rfl rfl
    simp [decSystem, hs.causes, and_assoc] at hq
    obtain ⟨rfl, ⟨D, rfl⟩, rfl, rfl, rfl⟩ := hq
    exact ⟨.fltq h D, rfl, rfl⟩
  · obtain rfl := hs.noAC rfl rfl
    obtain ⟨rfl, rfl⟩ := hs.short rfl rfl
    obtain rfl | rfl | rfl | h3 : fn = 0 ∨ fn = 1 ∨ fn = 2 ∨ 3 ≤ fn := by omega
    · simp [decSystem, hs.causes, and_assoc] at hq
      obtain ⟨⟨D, rfl, rfl, hD⟩, ⟨A, rfl, hA⟩, rfl⟩ := hq
      exact ⟨.ctxswSave h D A, rfl, Bool.and_eq_true_iff.2 ⟨hD, hA⟩⟩
    · simp [decSystem, hs.causes, and_assoc] at hq
      obtain ⟨⟨D, rfl, rfl, hD⟩, ⟨A, rfl, hA⟩, rfl⟩ := hq
      exact ⟨.ctxswRest h D A, rfl, Bool.and_eq_true_iff.2 ⟨hD, hA⟩⟩
    · simp [decSystem, hs.causes, and_assoc] at hq
      obtain ⟨⟨D, rfl, rfl, hD⟩, ⟨A, rfl, hA⟩, rfl⟩ := hq
      exact ⟨.ctxswQry h D A, rfl, Bool.and_eq_true_iff.2 ⟨hD, hA⟩⟩
    · simp [decSystem, show fn ≠ 0 by omega, show fn ≠ 1 by omega, h3] at hq

end Sys2Proof
end

section
/-! Decoding and encoding agree (O58). -/

namespace Sys2Proof

open Machine

/-! ### Instructions and their words (R41-R47, R56-R60) -/

/-- A step of an engine, a home, the firmware or the outside world has no word. -/
theorem encRaw_of_isEvent {i : Instr} (h : isEvent i = true) : encRaw i = none := by
  cases i <;> cases h
  all_goals rfl

/-- Every other instruction has one. Where the encoder looks into the form, the form decides. -/
theorem encRaw_ne_none {i : Instr} (h : isEvent i = false) : encRaw i ≠ none := by
  cases i <;> cases h
  case lea64 f => cases f <;> exact Option.some_ne_none _
  case vote f => cases f <;> exact Option.some_ne_none _
  case launch f => cases f <;> exact Option.some_ne_none _
  case mfs f => cases f <;> exact Option.some_ne_none _
  case mts f => cases f <;> exact Option.some_ne_none _
  case vinv f => cases f <;> exact Option.some_ne_none _
  all_goals exact Option.some_ne_none _

/-- Every instruction with well-formed operands is read back from its word. -/
theorem reads_of_operandsOk {i : Instr} (h : isEvent i = false) (w : operandsOk i = true) : Reads i := by
  by_cases h1 : encRawControl i = none
  · by_cases h2 : encRawInt i = none
    · by_cases h3 : encRawFloat i = none
      · by_cases h4 : encRawData i = none
        · by_cases h5 : encRawSync i = none
          · refine reads_far (fun h6 => encRaw_ne_none h ?_) w
            rw [encRaw, h1, h2, h3, h4, h5, h6]
            rfl
          · exact reads_sync h5 w
        · exact reads_data h4 w
      · exact reads_float h3 w
    · exact reads_int h2 w
  · exact reads_control h1 w

section
variable {len op : Nat} {h : Hdr} {ac ws d a b fn hi : Nat}

/-- A chain bit stands where R50 allows it, as the word shows it. -/
theorem chainOk_iff {i : Instr} (he : encRaw i = some (rF len op h ac ws d a b fn hi)) :
    chainOk i = true ↔ h.ch = false ∨ chOk op = true := by
  rw [chainOk, he]
  cases hc : h.ch <;> simp [hc]

/-- The opcodes that R55 assigns. -/
def opAssigned (op : Nat) : Bool :=
  op ≤ 0x0D || (0x10 ≤ op && op ≤ 0x44) || (0x50 ≤ op && op ≤ 0x55) || (0x60 ≤ op && op ≤ 0x65) || (0x70 ≤ op && op ≤ 0x77) ||
    (0x80 ≤ op && op ≤ 0x8C) || (0x90 ≤ op && op ≤ 0x94) || (0xA0 ≤ op && op ≤ 0xA4) || (0xB0 ≤ op && op ≤ 0xBC) ||
    (0xC0 ≤ op && op ≤ 0xCA) || (0xD0 ≤ op && op ≤ 0xD7) || (0xE0 ≤ op && op ≤ 0xEA)

/-- An opcode that admits a length is assigned. -/
theorem opAssigned_of_lensOf {op : Nat} (h : lensOf op ≠ 0) : opAssigned op = true := by
  unfold lensOf at h
  split_ifs at h with h1 h2 h3 h4
  · exact (by decide : ∀ k ∈ _, opAssigned k = true) op h1
  · exact (by decide : ∀ k ∈ _, opAssigned k = true) op h2
  · exact (by decide : ∀ k ∈ _, opAssigned k = true) op h3
  · exact h4
  · exact absurd rfl h

/-- Every word whose fields meet no cause is some instruction's: the arm of its opcode (R55) has one. -/
theorem exists_encRaw (hs : FieldsOk len op h ac ws d a b fn hi) (hq : (decOp (rF len op h ac ws d a b fn hi)).1 = 0) :
    ∃ i, encRaw i = some (rF len op h ac ws d a b fn hi) ∧ operandsOk i = true := by
  have hop : opAssigned op = true := opAssigned_of_lensOf fun h0 => by simpa [h0] using hs.lens
  simp only [opAssigned, Bool.or_eq_true, Bool.and_eq_true, decide_eq_true_eq, or_assoc] at hop
  obtain h16 | h16 | h16 | h16 | h16 | h16 | h16 | h16 | h16 | h16 | h16 | h16 := hop
  · exact exists_control hs h16 (by simpa [decOp, show op / 16 = 0 by omega] using hq)
  · obtain hd | hd | hd | hd : op / 16 = 1 ∨ op / 16 = 2 ∨ op / 16 = 3 ∨ op / 16 = 4 := by omega
    · exact exists_int hs (by omega) (by simpa [decOp, hd] using hq)
    · exact exists_int hs (by omega) (by simpa [decOp, hd] using hq)
    · exact exists_float hs (by omega) (by simpa [decOp, hd] using hq)
    · exact exists_float hs (by omega) (by simpa [decOp, hd] using hq)
  · exact exists_convert hs h16 (by simpa [decOp, show op / 16 = 5 by omega] using hq)
  · exact exists_matrix hs h16 (by simpa [decOp, show op / 16 = 6 by omega] using hq)
  · exact exists_local hs h16 (by simpa [decOp, show op / 16 = 7 by omega] using hq)
  · exact exists_copy hs h16 (by simpa [decOp, show op / 16 = 8 by omega] using hq)
  · exact exists_atomic hs h16 (by simpa [decOp, show op / 16 = 9 by omega] using hq)
  · exact exists_nougat hs h16 (by simpa [decOp, show op / 16 = 10 by omega] using hq)
  · exact exists_invoke hs h16 (by simpa [decOp, show op / 16 = 11 by omega] using hq)
  · exact exists_fabric hs h16 (by simpa [decOp, show op / 16 = 12 by omega] using hq)
  · exact exists_praline hs h16 (by simpa [decOp, show op / 16 = 13 by omega] using hq)
  · exact exists_system hs h16 (by simpa [decOp, show op / 16 = 14 by omega] using hq)
end

/-- What a word that decodes satisfies (R58, R60). -/
theorem decode_eq_ok_iff {off w n : Nat} {i : Instr} : decode off w = .ok i n ↔
    ((rawOf w).len ≠ 3 ∧ (lensOf (rawOf w).op).testBit (rawOf w).len = true ∧ decOp (rawOf w) = (0, i) ∧ qHdr (rawOf w) = 0) ∧
      n = lenBytes (rawOf w).len ∧ off + n ≤ 32 := by
  rw [decode]
  by_cases h3 : (rawOf w).len = 3
  · simp [h3]
  by_cases hz : lensOf (rawOf w).op = 0
  · simp [h3, hz]
  cases hl : (lensOf (rawOf w).op).testBit (rawOf w).len
  · simp [h3, hz]
  by_cases ho : 32 < off + lenBytes (rawOf w).len
  · simp [h3, hz, ho]
    omega
  · simp [h3, hz, ho]
    rw [Prod.ext_iff]
    constructor
    · intro h
      split_ifs at h with hq
      obtain ⟨rfl, rfl⟩ := Dec.ok.inj h
      exact ⟨⟨⟨hq.1, rfl⟩, hq.2⟩, rfl, by omega⟩
    · rintro ⟨⟨⟨h1, h2⟩, hq⟩, rfl, -⟩
      rw [if_pos ⟨h1, hq⟩, h2]

theorem packRaw_lt {r : Raw} (h : r.Fits) : packRaw r < 2 ^ (8 * lenBytes r.len) := by
  have hr := rawOf_packRaw h 0
  have hw := packRaw_rawOf (packRaw r)
  rw [Nat.mul_zero, Nat.add_zero] at hr
  rw [hr] at hw
  rw [hw]
  exact Nat.mod_lt _ (by positivity)

theorem encode_eq_some {i : Instr} {r : Raw} (h : encRaw i = some r) : encode i = some (packRaw r, lenBytes r.len) := by
  rw [encode, h]
  rfl

/-- A well-formed instruction's word decodes to it. -/
theorem decode_encode {i : Instr} (hi : isEvent i = false) (w : i.wf = true) : ∃ x n, encode i = some (x, n) ∧ x < 2 ^ (8 * n) ∧
    ∀ above, decode 0 (x + 2 ^ (8 * n) * above) = .ok i n := by
  obtain ⟨hc, ho⟩ := Bool.and_eq_true_iff.1 w
  obtain ⟨len, op, h, ac, ws, d, a, b, fn, hi, he, hd, hf⟩ := reads_of_operandsOk hi ho
  have hs := hf ((chainOk_iff he).1 hc)
  refine ⟨_, _, encode_eq_some he, packRaw_lt hs.fits, fun above => decode_eq_ok_iff.2 ?_⟩
  rw [rawOf_packRaw hs.fits]
  have := hs.len_lt
  exact ⟨⟨Nat.ne_of_lt this, hs.lens, hd, hs.qHdr_eq_zero⟩, rfl, by simp only [lenBytes]; omega⟩

/-- A word that decodes is the word of the instruction it decodes to. -/
theorem encode_decode {w n : Nat} {i : Instr} (h : decode 0 w = .ok i n) :
    isEvent i = false ∧ i.wf = true ∧ encode i = some (w % 2 ^ (8 * n), n) := by
  obtain ⟨⟨h3, hl, hd, hq⟩, rfl, -⟩ := decode_eq_ok_iff.1 h
  obtain ⟨h, hr, hs⟩ := exists_fieldsOk (rawOf_fits h3) hl hq
  rw [hr] at hd
  obtain ⟨j, hj, ho⟩ := exists_encRaw hs (congrArg Prod.fst hd)
  have hev : isEvent j = false := Bool.eq_false_iff.2 fun he => absurd ((encRaw_of_isEvent he).symm.trans hj) nofun
  obtain ⟨_, _, _, _, _, _, _, _, _, _, he, hdj, -⟩ := reads_of_operandsOk hev ho
  rw [hj, Option.some_inj] at he
  obtain rfl : i = j := by
    rw [← he, hd] at hdj
    exact congrArg Prod.snd hdj
  refine ⟨hev, Bool.and_eq_true_iff.2 ⟨(chainOk_iff hj).2 hs.ch_ok, ho⟩, ?_⟩
  rw [encode_eq_some hj, ← hr, packRaw_rawOf]

/-- Settles O58: the encoder's word reads back field by field (`rawOf_packRaw`), opcode by opcode (`Reads`), and a word that
meets no cause has the fields of an instruction (`exists_encRaw`); the block offset enters through R56's bound only. -/
theorem decodeAndEncodeAgree : Obligations.DecodeAndEncodeAgree := by
  unfold Obligations.DecodeAndEncodeAgree
  refine ⟨fun _ => decode_encode, fun _ _ _ => encode_decode, fun off w n i => ?_⟩
  rw [decode_eq_ok_iff, decode_eq_ok_iff]
  constructor
  · rintro ⟨h, rfl, hn⟩
    exact ⟨⟨h, rfl, by omega⟩, hn⟩
  · rintro ⟨⟨h, rfl, -⟩, hn⟩
    exact ⟨h, rfl, hn⟩

end Sys2Proof
end
